-- ==== Sys2Proof/Word.lean ====
section
/-! DEFINITION. The word types of the model and their plainest arithmetic. -/

namespace Sys2Proof

/-- A 32-bit register element or instruction word (R52, R70). -/
abbrev Word := BitVec 32

/-- A 64-bit value: an even/odd register pair, a virtual address, an event word (R54, R121, R43). -/
abbrev DWord := BitVec 64

/-- A byte of memory. -/
abbrev Byte := BitVec 8

/-- One bit per lane of a group, lane L in bit L (R62). -/
abbrev LaneMask := BitVec 16

/-- The six sticky flags: IOV 5, TRN 4, GUF 3, DZ 2, INV 1, SAT 0 (R111). -/
abbrev FlagBits := BitVec 6

/-- The sixteen lanes of a group, ascending (R7, R21). -/
def allLanes : List Nat := List.range 16

end Sys2Proof
end

