-- ==== Sys2Proof/Syntax.lean ====
section
/-! DEFINITION. The steps of the machine: one constructor for each row of the opcode table, and the types of
their fields. Register and field names are those of the spec's encoding maps (R70 to R78). -/

namespace Sys2Proof

/-! ## Fields of instruction words -/

/-- The guard fields PN and PG of word 0 (R70): `pg = 15` names pT. -/
structure Guard where
  pn : Bool
  pg : BitVec 4
deriving DecidableEq, Repr

/-- The type codes 0 to 14 of TY (R77); code 15 is reserved and has no constructor. -/
inductive Ty where
  | s32 | u32 | s64 | u64 | s16x2 | u16x2 | s8x4 | u8x4
  | f32 | f64 | bf16x2 | f16x2 | e4m3x4 | e5m2x4 | e2m1x8
deriving DecidableEq, Repr

/-- The rounding modes of RM (R74). -/
inductive Rm where
  | rne | rtz | rdn | rup
deriving DecidableEq, Repr

/-- The segment sizes that SEGLOG 1 to 4 name (R63). -/
inductive Seg where
  | two | four | eight | sixteen
deriving DecidableEq, Repr

/-- The source modifier of operand A that MODA holds (R63). -/
inductive SrcMod where
  | none
  | rot (seg : Seg) (dist : BitVec 4)
  | bfly (seg : Seg) (dist : BitVec 4)
  | bcast (seg : Seg) (dist : BitVec 4)
deriving DecidableEq, Repr

/-- The fields of an extended-format instruction (R74). `dU`, `aU`, `bU`, `cU` are the class bits of CL
(true names the uniform file); `lit` is the 64-bit literal of LEN 11 (R76). -/
structure Ext where
  guard : Guard
  d : BitVec 10
  a : BitVec 10
  b : BitVec 10
  c : BitVec 10
  dU : Bool
  aU : Bool
  bU : Bool
  cU : Bool
  ty : Ty
  rm : Rm
  sat : Bool
  var : BitVec 9
  moda : SrcMod
  lit : Option DWord
deriving DecidableEq, Repr

/-! ## Arguments of events and commands -/

/-- Agents of the single order (R151). -/
inductive Agent where
  | core (die k : Nat)
  | handler (group : Nat)
  | engine (op : Nat)
  | collective
  | parnar (port : Nat)
  | service (n : Nat)
  | proxy
  | firmware
  | host
deriving DecidableEq, Repr

/-- One write of a service or an emulation routine into a group's saved state: registers, predicates, FLAGS, and words of the tiles,
their sidebands, the accumulators with their carries and modes (R84, R234). -/
inductive RegWrite where
  | vec (r lane : Nat) (w : Word)
  | uni (r : Nat) (w : Word)
  | pred (p : Nat) (m : LaneMask)
  | flags (f : FlagBits)
  | tile (t w : Nat) (v : Word)
  | scale (t w : Nat) (v : Word)
  | acc (slot w : Nat) (v : Word)
  | carry (slot w : Nat) (v : Word)
  | affine (slot : Nat) (on : Bool)
deriving DecidableEq, Repr

/-- One access that the management core or a service core makes for a group (R84, R234). -/
inductive ProxyAccess where
  | load (va : DWord) (n : Nat)
  | store (va : DWord) (bytes : List Byte)
deriving DecidableEq, Repr

/-- The cause codes of R229. -/
inductive Cause where
  | ill | unimp | opr | mal | pf | prot | swz | emptyto | brt | hnd | orb | chn | arith | bkpt | svc | trap
  | preempt | kill | barwd
deriving DecidableEq, Repr

/-- How an emulation routine ends (R84). -/
inductive EmuResult where
  | declined
  | done (acc : List ProxyAccess) (w : List RegWrite)
  | fault (c : Cause) (aux : DWord)
deriving DecidableEq, Repr

/-- How the service of an SVC ends (R234, R367). -/
inductive SvcResult where
  | resume (acc : List ProxyAccess) (w : List RegWrite)
  | undefinedService
  | fault (c : Cause) (aux : DWord)
deriving DecidableEq, Repr

/-- The common part of a command entry (R249): the ring's function, FLAGS, SEQ, CTX, bytes 12 to 15 and COMPL. -/
structure Cmd where
  fn : Nat
  flags : BitVec 16
  seq : BitVec 32
  ctx : Nat
  pad : Word
  compl : DWord
deriving DecidableEq, Repr

/-- ARGS of MAP, UNMAP and RECLASSIFY (R377); `rest` holds the bytes that its table does not list. -/
structure MemArgs where
  va : DWord
  target : DWord
  pages : Nat
  psize : Nat
  attr : BitVec 8
  report : DWord
  rest : List Byte
deriving DecidableEq, Repr

/-- Where the distributor puts one group slot (R33, R40, R52, R57): the slot `k` of its quarter, the byte base of
its vector registers in the pipe and of its uniform registers in the quarter, and the physical tiles and accumulator
slots behind its names, in the order of the names. -/
structure SlotPlace where
  k : Nat
  vbase : Nat
  ubase : Nat
  tiles : List Nat
  accs : List Nat
deriving DecidableEq, Repr

/-- The first slot, without tiles and accumulators. -/
def SlotPlace.first : SlotPlace := { k := 0, vbase := 0, ubase := 0, tiles := [], accs := [] }

/-- Where the distributor puts a block (R40, R44, R127): its cores, the base scratchpad line on each, its
group and handler slots and its save area (R238). -/
structure Placement where
  cores : List Nat
  sbase : List Nat
  slots : List SlotPlace
  hslots : List SlotPlace
  saveArea : DWord
deriving DecidableEq, Repr

/-- The action of SPLIT_RESUME (R232). -/
inductive ResumeAction where
  | retry | skip | goto (pc : DWord) | kill
deriving DecidableEq, Repr

/-- How the page-fault service answers a replayable miss (R138, R139). -/
inductive PageAnswer where
  | mapped | declined
deriving DecidableEq, Repr

/-- Where an uncorrectable error lies (R145, R212). -/
inductive ErrSite where
  | read (ctx : Nat) (line : Nat)
  | structural (part : Nat)
  | scrubbed (ctx : Nat) (line : Nat)
  | freeFrame (frame : Nat)
  | slot (id : Nat)
deriving DecidableEq, Repr

/-- SPDM and TDISP messages (R246). -/
inductive SpdmMsg where
  | measurements
  | openSession
  /-- keys for the link's IDE stream, or for a selective stream -/
  | ideKeys (stream : Option Nat)
  | lock
  | start
  | stop
deriving DecidableEq, Repr

/-- The life-cycle states of R248. -/
inductive LifeState where
  | manufacture | provisioned | deployed | returned
deriving DecidableEq, Repr

/-- The signer of a life-cycle command (R248). -/
inductive Signer where
  | unsigned | owner | osique
deriving DecidableEq, Repr

/-- A peer's collective message (R255, R256): its parameters, a partial, the end of its data, that its operation has ended or has
met other parameters, that its context is dead, or its refusal of the n-th run that it was sent, with the retry-after hint
(R141). -/
inductive PeerMsg where
  | params (rank kind mode op ty e a : Nat)
  | partial_ (rank step : Nat) (vals : List Word)
  | data (rank : Nat)
  | ended (rank : Nat)
  | mismatch (rank : Nat)
  | killed (rank : Nat)
  | refused (rank n : Nat) (hint : BitVec 8)
deriving DecidableEq, Repr

/-- The links of a bridge stop in each direction: two data links and one control link (R11). -/
inductive BridgeLane where
  | data0 | data1 | control
deriving DecidableEq, Repr

/-- One direction of a link between two dies whose bridge stops face each other, or a Parnar port (R11, R243). -/
inductive Link where
  | bridge (fromDie toDie : Nat) (lane : BridgeLane)
  | port (n : Nat)
deriving DecidableEq, Repr

/-- The five ports of a router (R219). -/
inductive MeshPort where
  | local_ | north | east | south | west
deriving DecidableEq, Repr

/-- Device registers behind BAR 0 (R245, R249): a ring's doorbell, an MSI-X table entry, an HDM decoder, and the rest. -/
inductive DevReg where
  | doorbell (fn : Nat)
  | msix (vector : Nat)
  | hdm (k : Nat)
  | other (addr : Nat)
deriving DecidableEq, Repr

/-- The AtomicOps that the device completes (R245): FetchAdd, Swap and CAS. -/
inductive HostAtomic where
  | fetchAdd | swap | cas
deriving DecidableEq, Repr

/-- The kind of a host access to device memory (R166, R245); an AtomicOp has 4 or 8 bytes, an operand and, for CAS, the
value it compares with. -/
inductive HostOp where
  | read (n : Nat) (keepCopy : Bool)
  | write (bytes : List Byte)
  | evict (bytes : List Byte)
  | dropCopy
  | atomic (a : HostAtomic) (n operand cmp : Nat)
deriving DecidableEq, Repr

/-- A debugger access to register storage (R59). -/
inductive DbgOp where
  | read
  | write (w : Word)
deriving DecidableEq, Repr

/-- The steps of the machine, one constructor for each row of the opcode table, in the table's order. DEDUCED (log 68). -/
inductive Instr where
  -- major 1 (S2)
  | abs (g : Guard) (d a : BitVec 8)
  | brev (g : Guard) (d a : BitVec 8)
  | clz (g : Guard) (d a : BitVec 8)
  | fabs (g : Guard) (d a : BitVec 8)
  | fneg (g : Guard) (d a : BitVec 8)
  | movShort (g : Guard) (d a : BitVec 8)
  | not (g : Guard) (d a : BitVec 8)
  | popc (g : Guard) (d a : BitVec 8)
  -- majors 2 and 3 (SI)
  | iaddi (g : Guard) (d : BitVec 8) (imm : BitVec 11)
  | iaddiLiteral (g : Guard) (d : BitVec 8) (lit : DWord)
  | movi (g : Guard) (d : BitVec 8) (imm : BitVec 11)
  | moviLiteral (g : Guard) (d : BitVec 8) (lit : DWord)
  -- majors 4 and 5 (SB), and 28 SUB 0
  | bra (g : Guard) (off : BitVec 19)
  | braJoin (x : Ext)
  | call (g : Guard) (off : BitVec 19)
  -- major 6 (SW)
  | waitc (g : Guard) (t c s l : BitVec 4)
  -- major 7 (S2)
  | bkpt (g : Guard) (code : BitVec 8)
  | exit (g : Guard)
  | hend
  | nop (g : Guard)
  | ret (g : Guard)
  | yield (g : Guard)
  -- major 8
  | iadd (x : Ext) | imax (x : Ext) | imin (x : Ext) | isub (x : Ext) | mov (x : Ext)
  -- major 9
  | idot4 (x : Ext) | imad (x : Ext) | imul (x : Ext) | imulh (x : Ext)
  -- major 10
  | and (x : Ext) | lop3 (x : Ext) | or (x : Ext) | rot (x : Ext) | sar (x : Ext) | shl (x : Ext) | shr (x : Ext)
  | xor (x : Ext)
  -- majors 11 to 13
  | bfe (x : Ext) | bfi (x : Ext) | prmt (x : Ext)
  | icmp (x : Ext) | plop (x : Ext) | pmov (x : Ext) | sel (x : Ext)
  | lea (x : Ext)
  -- majors 16 to 19
  | fadd (x : Ext) | ffma (x : Ext) | fmul (x : Ext)
  | fclass (x : Ext) | fcmp (x : Ext) | fmax (x : Ext) | fmin (x : Ext)
  | fcos (x : Ext) | fexp2 (x : Ext) | flog2 (x : Ext) | frcp (x : Ext) | frsq (x : Ext) | fsin (x : Ext)
  | fsqrt (x : Ext) | ftanh (x : Ext)
  | cvt (x : Ext) | pack (x : Ext) | req (x : Ext) | unpack (x : Ext)
  -- majors 24 and 25
  | gvote (x : Ext) | qbcast (x : Ext) | qswap (x : Ext) | shuf (x : Ext)
  | greduce (x : Ext) | gscan (x : Ext)
  -- majors 28 to 30
  | brdec (x : Ext) | brx (x : Ext) | callx (x : Ext)
  | svc (x : Ext) | trap (x : Ext)
  | bar (x : Ext) | cbar (x : Ext) | evsig (x : Ext) | evwait (x : Ext)
  -- majors 32 to 37
  | ld (x : Ext) | st (x : Ext) | lds (x : Ext) | ldx (x : Ext) | sts (x : Ext) | atom (x : Ext) | atoms (x : Ext)
  | sempty (x : Ext) | sfe (x : Ext) | sfill (x : Ext) | ldu (x : Ext) | pref (x : Ext)
  -- majors 40 to 43
  | cpy (x : Ext) | ldh (x : Ext) | tld (x : Ext) | tstr (x : Ext) | coll (x : Ext)
  -- majors 44 to 47
  | mma (x : Ext) | mmag (x : Ext) | mmat (x : Ext)
  | aexp (x : Ext) | amode (x : Ext) | ard (x : Ext) | awr (x : Ext) | mzero (x : Ext)
  | mcarry (x : Ext) | mscan (x : Ext) | tmov (x : Ext) | trd (x : Ext) | twr (x : Ext)
  -- majors 48 and 49
  | oadd (x : Ext) | oalight (x : Ext) | oboard (x : Ext) | ocap (x : Ext) | ocas (x : Ext) | omax (x : Ext)
  | omin (x : Ext) | oswp (x : Ext)
  | chpeek (x : Ext) | chrecv (x : Ext) | chsend (x : Ext)
  -- majors 52 and 53
  | clk (x : Ext) | sleep (x : Ext) | time (x : Ext)
  | flags (x : Ext) | srd (x : Ext) | swr (x : Ext) | vdhop (x : Ext)
  -- majors 56 to 63, and every pattern that R80 makes ILL
  | unimp (w0 : Word)
  | ill (w0 : Word)
  -- emulation and services
  | emulationComplete (gi si : Nat) (r : EmuResult)
  | svcServiceComplete (gi si : Nat) (r : SvcResult)
  -- the ROM command set (R249)
  | queueSetup (c : Cmd) (queue prio : Nat) (ring : DWord)
  | submit (c : Cmd) (queue : Nat) (desc : DWord) (deps : List (DWord × DWord))
  | eventSignal (c : Cmd) (va value : DWord)
  | map (c : Cmd) (m : MemArgs)
  | unmap (c : Cmd) (m : MemArgs)
  | reclassify (c : Cmd) (m : MemArgs)
  | logApply (c : Cmd) (dies : List Nat)
  | ctxCreate (c : Cmd) (part wdexp : Nat) (debug : Bool) (perm : Option (List Nat)) (ccb trapq pool : DWord)
      (poolSize : Nat)
  | ctxDestroy (c : Cmd)
  | ctxSave (c : Cmd)
  | contextSaved (ctx : Nat)
  | ctxRestore (c : Cmd) (part : Nat) (perm : Option (List Nat)) (places : List Placement)
  | ctxKill (c : Cmd)
  | splitResume (c : Cmd) (gi si : Nat) (w : List RegWrite) (act : ResumeAction)
  | orbitQuota (c : Cmd) (quota : List Nat)
  | portBind (c : Cmd) (mask : BitVec 12)
  | trapqAck (c : Cmd) (seq : Nat)
  | partCreate (c : Cmd) (dies : List Nat) (weights : List Nat)
  | partDestroy (c : Cmd) (part : Nat)
  | powerCap (c : Cmd) (watts : Nat)
  | icacheInval (c : Cmd) (va : DWord) (bytes : Nat)
  | emuInstall (c : Cmd) (library : DWord) (signatureOk : Bool) (majors : List Nat)
  | traceSetup (c : Cmd) (die : Nat) (ring : DWord) (size : Nat) (mask : BitVec 32)
  | ptpSetup (c : Cmd) (domain transport : Nat) (stepOk : Bool)
  | timeStatus (c : Cmd)
  | attest (c : Cmd) (nonce : DWord)
  | lifecycle (c : Cmd) (target : LifeState) (signer : Signer)
  -- launches and blocks
  | launchAdmission (part : Nat)
  | blockStart (li lin : Nat) (place : Placement)
  | blockComplete (bi : Nat)
  | blockPreemption (bi : Nat)
  | migration (bi : Nat) (place : Placement)
  -- splits, barriers, timeouts
  | splitDormant (gi si : Nat)
  | splitActivate (gi : Nat)
  | joinTimeout (gi si : Nat)
  | waitAgeReservation (gi si : Nat)
  | yieldExpiry (gi si : Nat)
  | sleepWake (gi si : Nat)
  | barrierWatchdog (bi id : Nat)
  | emptyLineTimeout (acc : Nat)
  -- accesses, translation, classifier
  | loadDataReturn (acc lane : Nat)
  | storePerformed (acc lane : Nat)
  | pageFaultService (gi si : Nat) (ans : PageAnswer)
  | remoteRetry (port ctx : Nat) (va : DWord) (bytes : List Byte) (refusals : Nat)
  | drainRequest (granule : Nat) (holder : Agent)
  | drainPoint (granule : Nat)
  -- engines and handlers
  | engineSectorRead (op sector : Nat)
  | engineSectorWrite (op sector : Nat)
  | engineCompletion (op : Nat)
  | engineFault (op : Nat)
  | handlerBirth (op : Nat)
  -- matrix engine
  | matrixEntryStart (die core : Nat)
  | matrixEntryComplete (die core : Nat)
  | mmagCancel (die core : Nat)
  -- Orbit, channels, mesh
  | orbitPass (op : Nat)
  | oboardTimeout (op : Nat)
  | channelCredit (li ch : Nat)
  | headPromotion (die stop plane vc : Nat) (port : MeshPort)
  -- coherence protocol
  | coherenceRead (die core line : Nat)
  | readExclusive (die core line : Nat)
  | upgrade (die core line : Nat)
  | invalidation (die core line : Nat)
  | forward (die core line : Nat)
  | acknowledgement (die core line : Nat)
  | dataResponse (die core line : Nat)
  | writeBack (die core line : Nat)
  | l1Eviction (die core line : Nat)
  -- host and links
  | backInvalidateSnoop (line : Nat)
  | hostAccess (pa : Nat) (op : HostOp)
  | atsInvalidation (part ctx : Nat) (va : DWord) (pages : Nat)
  | atsTranslation (bus host : Nat)
  | remoteWrite (port ctx : Nat) (va : DWord) (bytes : List Byte)
  | collPeerMessage (session k : Nat) (m : PeerMsg)
  | linkCrcReplay (port : Nat)
  | linkTagFailure (link : Link)
  | keyRotation (link : Link)
  -- errors, security, recovery, reset
  | uncorrectableError (site : ErrSite)
  | patrolScrub (line : Nat)
  | orbitRingBreak
  | spdmRequest (fn : Nat) (m : SpdmMsg)
  | spdmSessionExpiry (fn : Nat)
  | serviceWatchdogExpiry (n : Nat)
  | internalErrorReport
  | lockstepDisagreement
  | recoveryTimeout
  | packageReset
  | supplySag (die : Nat)
  | sagClear (die : Nat)
  | ptpMessage (offsetNs : Int)
  | debuggerAccess (pa : Nat) (op : DbgOp)
  | registerWrite (r : DevReg) (v : DWord)
  | bankDrowsy (bank : Nat)
  | pageWalkCompletion (die ctx : Nat) (va : DWord)
  | backInvalidateResponse (line : Nat)
  | parnarPortDown (port : Nat)
  | servoHoldover
deriving DecidableEq, Repr

/-- A command entry that the driver has written (R249): one of the commands, or an opcode that is none of them. -/
inductive RingEntry where
  | known (i : Instr)
  | unknown (c : Cmd)
deriving DecidableEq, Repr

end Sys2Proof
end

