-- ==== Sys2Proof/Machine/Fields.lean ====
section
/-! DEFINITION. How each extended instruction uses its fields (R74 to R78 and the instruction reference): the
one table behind the encoding checks (ILL), the register limits (OPR, R53) and the scoreboard (R35). -/

namespace Sys2Proof

/-- The register classes a register field accepts: either, vector only, uniform only (R75). -/
inductive Cls where
  | any | vec | uni
deriving DecidableEq, Repr

/-- The use of one of the fields D, A, B, C. -/
inductive Use where
  /-- not used: zero with class 0 (R75) -/
  | unused
  /-- `count` registers from the field on; the field is a multiple of `align` (R54, R131) -/
  | reg (cls : Cls) (count align : Nat)
  /-- a predicate in the low 4 bits (R75) -/
  | pred
  /-- `count` tiles, the field a multiple of `align` (R75, R198) -/
  | tile (count align : Nat)
  /-- an accumulator (R75) -/
  | acc
  /-- the condition of FCMP, 0 to 7 (R119) -/
  | cond
  /-- the base of an origin or parameter block, uniform; its registers are checked at issue (R177, R254, R378) -/
  | block
deriving DecidableEq, Repr

/-- The field rules of one instruction word. -/
structure Rule where
  d : Use := .unused
  a : Use := .unused
  b : Use := .unused
  c : Use := .unused
  /-- the width of the literal that may stand for B (R76); none: LEN 01 only -/
  lit : Option Nat := none
  /-- the literal is required (R78) -/
  litMust : Bool := false
  tys : List Ty := []
  /-- RM may differ from 00 (R77) -/
  rm : Bool := false
  /-- SAT may be 1 (R77, R120) -/
  sat : Bool := false
  /-- MODA is allowed on a vector A (R64, R276) -/
  mod : Bool := false
  /-- a uniform D requires uniform sources (R75) -/
  uniD : Bool := true
  /-- the rules on VAR and the remaining ones of the entry -/
  more : Bool := true
deriving DecidableEq, Repr

/-- The type names a register pair (R54, R77). -/
def Ty.wide : Ty → Bool
  | .s64 | .u64 | .f64 => true
  | _ => false

/-- Registers that one operand of the type occupies (R54). -/
def Ty.regs (t : Ty) : Nat := if t.wide then 2 else 1

/-- The bits of a literal that an operand of the type uses (R76). -/
def Ty.litBits (t : Ty) : Nat := if t.wide then 64 else 32

/-- The signed integer types (R77). -/
def Ty.signed : Ty → Bool
  | .s32 | .s64 | .s16x2 | .s8x4 => true
  | _ => false

/-- The TY code (R77). -/
def Ty.code : Ty → BitVec 4
  | .s32 => 0 | .u32 => 1 | .s64 => 2 | .u64 => 3 | .s16x2 => 4 | .u16x2 => 5 | .s8x4 => 6 | .u8x4 => 7
  | .f32 => 8 | .f64 => 9 | .bf16x2 => 10 | .f16x2 => 11 | .e4m3x4 => 12 | .e5m2x4 => 13 | .e2m1x8 => 14

/-- The type of a TY code; code 15 is reserved (R77). -/
def Ty.ofCode (c : BitVec 4) : Option Ty :=
  match c.toNat with
  | 0 => some .s32 | 1 => some .u32 | 2 => some .s64 | 3 => some .u64 | 4 => some .s16x2 | 5 => some .u16x2
  | 6 => some .s8x4 | 7 => some .u8x4 | 8 => some .f32 | 9 => some .f64 | 10 => some .bf16x2 | 11 => some .f16x2
  | 12 => some .e4m3x4 | 13 => some .e5m2x4 | 14 => some .e2m1x8
  | _ => none

/-- Elements of a packed float register of PACK and UNPACK (R349). -/
def Ty.packCount : Ty → Nat
  | .bf16x2 | .f16x2 => 2
  | .e4m3x4 | .e5m2x4 => 4
  | .e2m1x8 => 8
  | _ => 1

/-- The segment size (R63). -/
def Seg.size : Seg → Nat
  | .two => 2 | .four => 4 | .eight => 8 | .sixteen => 16

/-- A butterfly or broadcast distance lies within the segment (R64). -/
def SrcMod.ok : SrcMod → Bool
  | .none => true
  | .rot _ _ => true
  | .bfly g dist => decide (dist.toNat < g.size)
  | .bcast g dist => decide (dist.toNat < g.size)

namespace Fields

def i4 : List Ty := [.s32, .u32, .s64, .u64]
def intPacked : List Ty := [.s32, .u32, .s64, .u64, .s16x2, .u16x2, .s8x4, .u8x4]
def f2 : List Ty := [.f32, .f64]
def f4 : List Ty := [.f32, .f64, .bf16x2, .f16x2]
def intFloat : List Ty := [.s32, .u32, .s64, .u64, .f32, .f64]
def packed : List Ty := [.bf16x2, .f16x2, .e4m3x4, .e5m2x4, .e2m1x8]
def matrix : List Ty := [.s8x4, .u8x4, .bf16x2, .f16x2, .e4m3x4, .e5m2x4, .e2m1x8]
def allTys : List Ty := intPacked ++ f4 ++ [.e4m3x4, .e5m2x4, .e2m1x8]

/-- One register of either class. -/
def one : Use := .reg .any 1 1
def oneV : Use := .reg .vec 1 1
def oneU : Use := .reg .uni 1 1
/-- A register or pair by TY, of either class. -/
def byTy (t : Ty) : Use := .reg .any t.regs t.regs
def byTyV (t : Ty) : Use := .reg .vec t.regs t.regs
def pair : Use := .reg .any 2 2
def pairU : Use := .reg .uni 2 2

def var0 (x : Ext) : Bool := x.var == 0#9
def varMax (x : Ext) (n : Nat) : Bool := decide (x.var.toNat ≤ n)
/-- Only VAR bits of the mask are set. -/
def varIn (x : Ext) (m : BitVec 9) : Bool := x.var &&& ~~~m == 0#9
/-- VAR[8:5]. -/
def varHi (x : Ext) : Nat := (x.var.extractLsb' 5 4).toNat
/-- VAR[7:5], SZ (R131). -/
def sz (x : Ext) : Nat := (x.var.extractLsb' 5 3).toNat
def idx (x : Ext) : Bool := x.var.getLsbD 3
def sx (x : Ext) : Bool := x.var.getLsbD 4
def scale (x : Ext) : Nat := (x.var.extractLsb' 0 3).toNat

/-- Two register operands and D by TY (R119). -/
def alu2 (x : Ext) (tys : List Ty) : Rule :=
  { d := byTy x.ty, a := byTy x.ty, b := byTy x.ty, lit := some x.ty.litBits, tys := tys, mod := true,
    more := var0 x }
/-- Three register operands and D by TY. -/
def alu3 (x : Ext) (tys : List Ty) : Rule := { alu2 x tys with c := byTy x.ty }
/-- B is a single 32-bit register or literal (R285, R359). -/
def shift (x : Ext) : Rule := { alu2 x i4 with b := one, lit := some 32 }
/-- The functions of major 18 (R311). -/
def func (x : Ext) (tys : List Ty) (rm : Bool) : Rule :=
  { d := byTy x.ty, a := byTy x.ty, tys := tys, rm := rm, sat := true, mod := true, more := var0 x }

/-- The address fields of R131: A, C with IDX, a literal offset; SCALE 0 to 4, SX zero without IDX. -/
def mem (x : Ext) (cls : Cls) (d : Use) (tys : List Ty) (more : Bool) : Rule :=
  { d := d, a := .reg cls 2 2, c := if idx x then .reg cls 1 1 else .unused, lit := some 64, tys := tys,
    uniD := false, more := decide (scale x ≤ 4) && (idx x || !sx x) && more }

/-- SZ and TY (R131). -/
def szTys (x : Ext) : List Ty :=
  match sz x with
  | 0 | 1 | 2 => [.s32, .u32]
  | 3 => [.s64, .u64]
  | 4 => [.u64]
  | _ => []
/-- The data registers of an access of size SZ (R131). -/
def szUse (x : Ext) (cls : Cls) : Use :=
  match sz x with
  | 3 => .reg cls 2 2
  | 4 => .reg cls 4 4
  | _ => .reg cls 1 1
/-- VAR[8] is zero (R131). -/
def var8z (x : Ext) : Bool := !x.var.getLsbD 8

/-- OP and TY of ATOM and ATOMS (R134). -/
def atomTys (x : Ext) : List Ty :=
  match varHi x with
  | 0 | 1 | 2 => i4
  | 3 | 4 | 5 | 6 | 7 => [.u32, .u64]
  | 8 => [.f32]
  | _ => []
/-- The data registers of ATOM: CAS has D, D + 1 or the pairs D, D + 2 (R134). -/
def atomUse (x : Ext) : Use :=
  if varHi x = 7 then .reg .vec (2 * x.ty.regs) (2 * x.ty.regs) else byTyV x.ty

/-- The orbit instructions but OBOARD (R215, R345). -/
def orbit (x : Ext) (tys : List Ty) (b : Use) : Rule :=
  { d := oneV, a := pairU, b := b, tys := tys, uniD := false, more := var0 x }

/-- The largest PART of AEXP (R198). -/
def partMax : Ty → Nat
  | .e2m1x8 => 3
  | .bf16x2 | .f16x2 => 0
  | _ => 1

/-- MIXB requires TY 6, 7, 12 or 13 (R198). -/
def mixOk (x : Ext) : Bool := !x.var.getLsbD 0 || [Ty.s8x4, .u8x4, .e4m3x4, .e5m2x4].contains x.ty

/-- OP, SAT and RM of GREDUCE and GSCAN (R315). -/
def redOk (x : Ext) : Bool :=
  let op := scale x
  let fl := x.ty == .f32 || x.ty == .f64
  decide (op ≤ 5) && !(fl && decide (3 ≤ op)) && (x.rm == .rne || (fl && op == 0)) && (!x.sat || (!fl && op == 0))

/-- The type that a CVT source code names (R300). -/
def cvtSrc (x : Ext) : Option Ty := Ty.ofCode (x.var.extractLsb' 0 4)
/-- KIND, MODE and OP of COLL (R254). -/
def collKind (x : Ext) : Nat := (x.var.extractLsb' 0 2).toNat
def collOp (x : Ext) : Nat := (x.var.extractLsb' 3 2).toNat

end Fields

open Fields in
/-- The extended-format fields of an instruction and their rules; none for every other constructor. DEDUCED (log 54). -/
def Instr.rule? : Instr → Option (Ext × Rule)
  | .iadd x => some (x, { alu2 x intPacked with sat := true })
  | .imax x => some (x, alu2 x intPacked)
  | .imin x => some (x, alu2 x intPacked)
  | .isub x => some (x, { alu2 x intPacked with sat := true })
  | .mov x => some (x, { d := byTy x.ty, a := if x.lit.isSome then .unused else byTy x.ty, lit := some x.ty.litBits,
                         tys := allTys, mod := true, more := var0 x })
  | .idot4 x => some (x, { alu3 x [.s8x4, .u8x4] with sat := true })
  | .imad x => some (x, { alu3 x i4 with sat := true })
  | .imul x => some (x, { alu2 x i4 with sat := true })
  | .imulh x => some (x, alu2 x i4)
  | .and x => some (x, alu2 x [.u32, .u64])
  | .lop3 x => some (x, { alu3 x [.u32, .u64] with more := varMax x 255 })
  | .or x => some (x, alu2 x [.u32, .u64])
  | .rot x => some (x, shift x)
  | .sar x => some (x, shift x)
  | .shl x => some (x, shift x)
  | .shr x => some (x, shift x)
  | .xor x => some (x, alu2 x [.u32, .u64])
  | .bfe x => some (x, shift x)
  | .bfi x => some (x, { shift x with c := byTy x.ty, mod := false })
  | .prmt x => some (x, alu3 x [.u32])
  | .icmp x => some (x, { alu2 x i4 with d := .pred, uniD := false, more := varMax x 5 })
  | .plop x => some (x, { d := .pred, a := .pred, b := .pred, tys := [.s32], uniD := false, more := varMax x 15 })
  | .pmov x => some (x, if x.var == 0#9 then { d := .pred, a := one, tys := [.u32], uniD := false }
                        else { d := one, a := .pred, tys := [.u32], uniD := false, more := varMax x 1 })
  | .sel x => some (x, { alu2 x [.u32, .u64] with d := byTyV x.ty, c := .pred })
  | .lea x => some (x, { d := pair, a := pair, b := one, lit := some 32, tys := [.u64], mod := true,
                         more := varMax x 4 })
  | .fadd x => some (x, { alu2 x f4 with rm := true, sat := true, more := varIn x 0xB#9 })
  | .ffma x => some (x, { alu3 x f4 with rm := true, sat := true, more := varIn x 0xF#9 })
  | .fmul x => some (x, { alu2 x f4 with rm := true, sat := true, more := varIn x 0xB#9 })
  | .fclass x => some (x, { d := one, a := byTy x.ty, tys := f2, more := varIn x 0x9#9 })
  | .fcmp x => some (x, { d := .pred, a := byTy x.ty, b := byTy x.ty, c := .cond, lit := some x.ty.litBits, tys := f2,
                          uniD := false, more := varIn x 0xB#9 })
  | .fmax x => some (x, { alu2 x f4 with more := varIn x 0xB#9 })
  | .fmin x => some (x, { alu2 x f4 with more := varIn x 0xB#9 })
  | .fcos x => some (x, func x [.f32] false)
  | .fexp2 x => some (x, func x [.f32] false)
  | .flog2 x => some (x, func x [.f32] false)
  | .frcp x => some (x, func x f2 true)
  | .frsq x => some (x, func x f2 false)
  | .fsin x => some (x, func x [.f32] false)
  | .fsqrt x => some (x, func x f2 true)
  | .ftanh x => some (x, func x [.f32] false)
  | .cvt x =>
    let src := (cvtSrc x).getD .s32
    some (x, { d := byTy x.ty, a := byTy src, tys := intFloat, rm := true, sat := true, mod := true,
               more := varMax x 15 && (cvtSrc x).isSome && intFloat.contains src && src != x.ty })
  | .pack x => some (x, { d := one, a := .reg (if x.dU then .uni else .vec) x.ty.packCount 1, tys := packed, rm := true,
                          sat := true, mod := true, more := var0 x })
  | .req x => some (x, { d := oneV, a := oneV, b := one, lit := some 16, tys := [.e4m3x4, .e5m2x4, .e2m1x8], rm := true,
                         mod := true, more := var0 x })
  | .unpack x => some (x, { d := .reg .any x.ty.packCount 1, a := one, tys := packed, mod := true, more := var0 x })
  | .gvote x => some (x, { d := if x.var == 0#9 then one else .pred, a := .pred, tys := [.u32], uniD := false,
                           more := varMax x 2 })
  | .qbcast x => some (x, { d := byTyV x.ty, a := byTyV x.ty, tys := [.u32, .u64], more := varMax x 3 })
  | .qswap x => some (x, { d := byTyV x.ty, a := byTyV x.ty, tys := [.u32, .u64],
                           more := varMax x 3 && x.var != 0#9 })
  | .shuf x => some (x, { d := byTyV x.ty, a := byTyV x.ty, b := one, lit := some 32, tys := [.u32, .u64],
                          more := var0 x })
  | .greduce x => some (x, { d := byTy x.ty, a := byTyV x.ty, tys := intFloat, rm := true, sat := true, mod := true,
                             uniD := false, more := varMax x 7 && redOk x })
  | .gscan x => some (x, { d := byTyV x.ty, a := byTyV x.ty, tys := intFloat, rm := true, sat := true, mod := true,
                           more := varMax x 15 && redOk x })
  | .braJoin x => some (x, { lit := some 64, litMust := true, tys := [.s32], more := var0 x })
  | .brdec x => some (x, { d := one, lit := some 64, litMust := true, tys := [.s32, .u32], uniD := false, more := var0 x })
  | .brx x => some (x, { a := one, lit := some 32, litMust := true, tys := [.s32], mod := true, more := var0 x })
  | .callx x => some (x, { a := pair, tys := [.u64], more := var0 x })
  | .svc x => some (x, { b := oneU, lit := some 16, tys := [.u32], more := var0 x })
  | .trap x => some (x, { b := oneU, lit := some 16, tys := [.u32], more := var0 x })
  | .bar x => some (x, { tys := [.s32], more := varMax x 15 && x.guard == ⟨false, 15⟩ })
  | .cbar x => some (x, { tys := [.s32], more := varMax x 3 && x.guard == ⟨false, 15⟩ })
  | .evsig x => some (x, { a := pairU, b := .reg .uni x.ty.regs x.ty.regs, lit := some x.ty.litBits, tys := [.u32, .u64],
                           more := var0 x })
  | .evwait x => some (x, { a := pairU, b := .reg .uni x.ty.regs x.ty.regs, lit := some x.ty.litBits,
                            tys := [.u32, .u64], more := var0 x })
  | .ld x => some (x, mem x .any (szUse x .vec) (szTys x) (var8z x))
  | .st x => some (x, mem x .any (szUse x .any) (szTys x) (var8z x))
  | .lds x => some (x, mem x .any (szUse x .vec) (szTys x) (var8z x))
  | .ldx x => some (x, mem x .any (byTyV x.ty) [.u32, .u64] (varHi x != 15))
  | .sts x => some (x, mem x .any (szUse x .any) (szTys x) (var8z x))
  | .atom x => some (x, mem x .any (atomUse x) (atomTys x) true)
  | .atoms x => some (x, mem x .any (atomUse x) (atomTys x) true)
  | .sempty x => some (x, mem x .any .unused [.u32] (varHi x == 0))
  | .sfe x => some (x, mem x .any .pred [.u32] (varHi x == 0))
  | .sfill x => some (x, mem x .any .unused [.u32] (var8z x))
  | .ldu x => some (x, mem x .uni (szUse x .uni) (szTys x) (var8z x))
  | .pref x => some (x, mem x .any .unused [.u32] (varHi x == 0))
  | .cpy x => some (x, { a := if x.var == 2#9 then oneU else pairU, b := if x.var == 1#9 then oneU else pairU, c := .block,
                         lit := some (if x.var == 1#9 then 32 else 64), tys := [.s32], rm := x.var == 0#9,
                         more := varMax x 2 })
  | .ldh x => some (x, { d := pairU, a := pairU, b := pairU, c := .block, lit := some 64, tys := [.s32], more := var0 x })
  | .tld x => some (x, { d := .tile 1 1, a := pairU, c := .block, tys := [.s32], more := var0 x })
  | .tstr x => some (x, { d := .tile 1 1, a := pairU, c := .block, tys := [.s32], more := var0 x })
  | .coll x => some (x, { a := pairU, b := pairU, c := .block, tys := [.s32, .u32, .f32],
                          rm := x.ty == .f32 && collOp x == 0,
                          more := varMax x 31 && collKind x != 3 && collOp x != 3 && (collKind x != 2 || collOp x == 0) })
  | .mma x => some (x, { d := .acc, a := .tile 1 1, b := .tile 1 1, tys := matrix, more := varMax x 1 && mixOk x })
  | .mmag x => some (x, { d := .acc, a := .reg .vec 2 2, b := .tile 1 1, c := oneV,
                          tys := [.s8x4, .u8x4, .bf16x2, .f16x2, .e4m3x4, .e5m2x4],
                          more := varMax x 15 && mixOk x && decide ((x.var.extractLsb' 1 3).toNat ≤ 5) })
  | .mmat x => some (x, { d := .acc, a := .tile 1 1, b := .tile 4 4, tys := [.s8x4, .u8x4], more := var0 x })
  | .aexp x => some (x, { d := .tile 1 1, a := .acc, b := pairU, lit := some 64, tys := matrix, rm := true,
                          more := varMax x (partMax x.ty) })
  | .amode x => some (x, { d := .acc, tys := [.s32], more := varMax x 1 })
  | .ard x => some (x, { d := .reg .vec 4 1, a := .acc, b := oneU, lit := some 6, tys := [.u32], more := varMax x 1 })
  | .awr x => some (x, { d := .acc, a := .reg .vec 4 1, b := oneU, lit := some 6, tys := [.u32], more := varMax x 1 })
  | .mzero x => some (x, { d := .acc, tys := [.s32], more := varMax x 1 })
  | .mcarry x => some (x, if x.var == 0#9 then { d := .reg .vec 8 1, a := .acc, tys := [.u32] }
                          else { d := .acc, a := .reg .vec 8 1, tys := [.u32], more := varMax x 1 })
  | .mscan x => some (x, { d := .acc, tys := [.f32], more := var0 x })
  | .tmov x => some (x, { d := .tile 1 1, a := .tile 1 1, tys := [.s32], more := var0 x })
  | .trd x => some (x, { d := .reg .vec 2 1, a := .tile 1 1, b := oneU, lit := some 6, tys := [.u32], more := varMax x 1 })
  | .twr x => some (x, { d := .tile 1 1, a := .reg .vec 2 1, b := oneU, lit := some 6, tys := [.u32], more := varMax x 1 })
  | .oadd x => some (x, orbit x [.s32, .u32, .f32] oneV)
  | .oalight x => some (x, orbit x [.u32] .unused)
  | .oboard x => some (x, { d := pairU, a := oneV, b := oneU, c := .pred, lit := some 32, tys := [.u32], mod := true,
                            uniD := false, more := varMax x 7 })
  | .ocap x => some (x, orbit x [.u32] .unused)
  | .ocas x => some (x, orbit x [.u32] oneV)
  | .omax x => some (x, orbit x [.s32, .u32, .f32] oneV)
  | .omin x => some (x, orbit x [.s32, .u32, .f32] oneV)
  | .oswp x => some (x, orbit x [.u32] oneV)
  | .chpeek x => some (x, { d := .pred, b := oneU, lit := some 32, tys := [.u32], uniD := false, more := varMax x 1 })
  | .chrecv x => some (x, { d := oneV, b := oneU, lit := some 32, tys := [.u32], more := var0 x })
  | .chsend x => some (x, { a := oneV, b := oneU, lit := some 32, tys := [.u32], mod := true, more := var0 x })
  | .clk x => some (x, { d := pair, tys := [.u64], more := var0 x })
  | .sleep x => some (x, { b := pairU, lit := some 64, tys := [.u64], more := varMax x 1 })
  | .time x => some (x, { d := pair, tys := [.u64], more := var0 x })
  | .flags x => some (x, { d := oneU, b := oneU, lit := some 6, tys := [.u32], more := var0 x })
  | .srd x => some (x, { d := one, tys := [.u32], more := !(x.dU && varMax x 1) })
  | .swr x => some (x, { a := oneU, tys := [.u32] })
  | .vdhop x => some (x, { alu2 x [.u32] with mod := true })
  | _ => none

namespace Fields

/-- A field obeys its use (R54, R75). -/
def useOk (u : Use) (f : BitVec 10) (cl : Bool) : Bool :=
  match u with
  | .unused => f == 0#10 && !cl
  | .reg .any _ al => f.toNat % al == 0
  | .reg .vec _ al => !cl && f.toNat % al == 0
  | .reg .uni _ al => cl && f.toNat % al == 0
  | .pred => decide (f.toNat < 16) && !cl
  | .tile _ al => decide (f.toNat < 16) && !cl && f.toNat % al == 0
  | .acc => decide (f.toNat < 16) && !cl
  | .cond => decide (f.toNat < 8) && !cl
  | .block => cl

/-- A field that names registers names uniform ones (R75). -/
def useUniform (u : Use) (cl : Bool) : Bool :=
  match u with
  | .reg _ _ _ => cl
  | _ => true

/-- The guard is not pT negated (R72). -/
def guardOk (g : Guard) : Bool := !(g.pn && g.pg == 15#4)

/-- MODA is absent, or allowed on a vector A (R64). DEDUCED (log 54). -/
def modaOk (r : Rule) (x : Ext) : Bool :=
  x.moda == .none || (r.mod && !x.aU && x.moda.ok && match r.a with | .reg _ _ _ => true | _ => false)

/-- The literal or the B field (R76). -/
def litOk (r : Rule) (x : Ext) : Bool :=
  match x.lit with
  | none => !r.litMust && useOk r.b x.b x.bU
  | some v =>
    match r.lit with
    | none => false
    | some n => x.b == 0x3FF#10 && x.bU && decide (v.toNat < 2 ^ n)

/-- The field rules of one extended instruction: step 3 of R81. -/
def ruleOk (x : Ext) (r : Rule) : Bool :=
  guardOk x.guard && r.tys.contains x.ty && (r.rm || x.rm == .rne) && (r.sat || !x.sat) && modaOk r x &&
  useOk r.d x.d x.dU && useOk r.a x.a x.aU && useOk r.c x.c x.cU && litOk r x &&
  (!(r.uniD && x.dU) || (useUniform r.a x.aU && useUniform r.c x.cU && (x.lit.isSome || useUniform r.b x.bU))) &&
  r.more

end Fields

/-- The register files that an operand may name (R52). -/
inductive RegFile where
  | vec | uni | pred | tile | acc
deriving DecidableEq, Repr

/-- A run of registers of one file. -/
structure Opnd where
  file : RegFile
  first : Nat
  count : Nat
deriving DecidableEq, Repr

namespace Fields

/-- The registers a field names under its use (R75). -/
def useOpnd (u : Use) (f : BitVec 10) (cl : Bool) : List Opnd :=
  match u with
  | .reg _ n _ => [⟨if cl then .uni else .vec, f.toNat, n⟩]
  | .pred => [⟨.pred, f.toNat % 16, 1⟩]
  | .tile n _ => [⟨.tile, f.toNat % 16, n⟩]
  | .acc => [⟨.acc, f.toNat % 16, 1⟩]
  | .unused | .cond | .block => []

/-- The predicate that a guard reads. -/
def guardOpnd (g : Guard) : List Opnd := if g.pg = 15#4 then [] else [⟨.pred, g.pg.toNat, 1⟩]

/-- The operands that fields D, A, B, C and the guard name. -/
def extOpnds (x : Ext) (r : Rule) : List Opnd :=
  guardOpnd x.guard ++ useOpnd r.d x.d x.dU ++ useOpnd r.a x.a x.aU ++ useOpnd r.c x.c x.cU ++
    (if x.lit.isSome then [] else useOpnd r.b x.b x.bU)

def s2Opnds (g : Guard) (d a : BitVec 8) : List Opnd := guardOpnd g ++ [⟨.vec, d.toNat, 1⟩, ⟨.vec, a.toNat, 1⟩]

end Fields

open Fields in
/-- The registers an instruction names: what R53 limits and what the scoreboard of R35 guards. LDX also names
its predicate PD (R331). -/
def Instr.opnds (i : Instr) : List Opnd :=
  match i with
  | .abs g d a | .brev g d a | .clz g d a | .fabs g d a | .fneg g d a | .movShort g d a | .not g d a
  | .popc g d a => s2Opnds g d a
  | .iaddi g d _ | .iaddiLiteral g d _ | .movi g d _ => guardOpnd g ++ [⟨.vec, d.toNat, 1⟩]
  | .moviLiteral g d _ => guardOpnd g ++ [⟨.vec, d.toNat, if d.toNat % 2 = 0 then 2 else 1⟩]
  | .bra g _ | .call g _ | .waitc g _ _ _ _ | .bkpt g _ | .exit g | .nop g | .ret g | .yield g => guardOpnd g
  | .ldx x =>
    match i.rule? with
    | some (x', r) => ⟨.pred, varHi x, 1⟩ :: extOpnds x' r
    | none => []
  | i =>
    match i.rule? with
    | some (x, r) => extOpnds x r
    | none => []

end Sys2Proof
end

