-- ==== Sys2Proof/WellFormed.lean ====
section
/-! DEFINITION. Which instructions are well formed: the field rules of R72 to R78, R63, R64 and the reference
entries (step 3 of R81). An instruction whose word breaks one of them is ILL. -/

namespace Sys2Proof

/-- The checks of the short formats and, through the field table, of the extended format. DEDUCED (log 54). -/
def Instr.wf (i : Instr) : Bool :=
  match i with
  | .abs g _ _ | .brev g _ _ | .clz g _ _ | .fabs g _ _ | .fneg g _ _ | .movShort g _ _ | .not g _ _ | .popc g _ _ =>
    Fields.guardOk g
  | .iaddi g _ _ | .movi g _ _ => Fields.guardOk g
  | .iaddiLiteral g _ v => Fields.guardOk g && decide (v.toNat < 2 ^ 32)
  | .moviLiteral g d v => Fields.guardOk g && (d.toNat % 2 == 0 || decide (v.toNat < 2 ^ 32))
  | .bra g _ | .call g _ => Fields.guardOk g
  | .waitc g _ _ _ _ => Fields.guardOk g
  | .bkpt g _ | .exit g | .nop g | .ret g | .yield g => Fields.guardOk g
  | .hend => true
  | .unimp w0 => decide (56 ≤ (w0.extractLsb' 2 6).toNat)
  | i =>
    match i.rule? with
    | some (x, r) => Fields.ruleOk x r
    | none => false

end Sys2Proof
end

