-- ==== Sys2Proof/Decode.lean ====
section
/-! DEFINITION. The decoder, total on any bytes, rejecting by name, and after it the encoder; both follow the maps
of R70 to R80. -/

namespace Sys2Proof

/-- Why a word-0 pattern holds no instruction. Every reason is ILL (R80); `truncated` is the absence of words. -/
inductive DecodeError where
  /-- MAJ carries no instructions (R80) -/
  | reservedMajor
  /-- LEN does not fit the format of MAJ (R80) -/
  | reservedLen
  /-- the SUB or MIN value is unassigned (R79, R80) -/
  | reservedSub
  /-- a reserved or unused field is nonzero, or a field rule is broken (R72 to R78, R63, R64) -/
  | fieldRule
  /-- fewer words than LEN asks for were given -/
  | truncated
deriving DecidableEq, Repr

/-! ## Fields of words -/

/-- The four bytes of a word, little-endian (R70). -/
def wordBytes (w : Word) : List Byte :=
  [w.extractLsb' 0 8, w.extractLsb' 8 8, w.extractLsb' 16 8, w.extractLsb' 24 8]

/-- The words of a list of bytes, little-endian; bytes that fill no word are dropped. -/
def wordsOfBytes : List Byte → List Word
  | b0 :: b1 :: b2 :: b3 :: rest => (b3 ++ b2 ++ b1 ++ b0) :: wordsOfBytes rest
  | _ => []

/-- LEN, MAJ and the guard of word 0 (R70). -/
def lenOf (w0 : Word) : Nat := (w0.extractLsb' 0 2).toNat
def majOf (w0 : Word) : Nat := (w0.extractLsb' 2 6).toNat
def guardOf (w0 : Word) : Guard := ⟨w0.getLsbD 12, w0.extractLsb' 8 4⟩

/-- Words of an instruction by LEN (R71). -/
def wordCount (len : Nat) : Nat :=
  match len with
  | 0 => 1 | 1 => 3 | 2 => 3 | _ => 5

/-- The modifier that MODA holds, or none for a pattern that R64 makes ILL. -/
def modaOf (m : BitVec 12) : Option SrcMod :=
  let seg : Option Seg :=
    match (m.extractLsb' 7 3).toNat with
    | 1 => some .two | 2 => some .four | 3 => some .eight | 4 => some .sixteen | _ => none
  let dist := m.extractLsb' 3 4
  if m.extractLsb' 0 3 != 0#3 then none
  else match (m.extractLsb' 10 2).toNat with
    | 0 => if m.extractLsb' 3 7 == 0#7 then some .none else none
    | 1 => seg.map (.rot · dist)
    | 2 => seg.map (.bfly · dist)
    | _ => seg.map (.bcast · dist)

def rmOf (r : BitVec 2) : Rm :=
  match r.toNat with
  | 0 => .rne | 1 => .rtz | 2 => .rdn | _ => .rup

/-- The fields of the extended format (R74); none when bits 31:30 of word 1 are nonzero, TY is 15 or MODA is a
pattern without a meaning. -/
def extOf (w0 w1 w2 : Word) (lit : Option DWord) : Option Ext :=
  match Ty.ofCode (w2.extractLsb' 12 4), modaOf (w2.extractLsb' 0 12) with
  | some ty, some moda =>
    if w1.extractLsb' 30 2 == 0#2 then
      some { guard := guardOf w0, d := w0.extractLsb' 13 10, a := w1.extractLsb' 0 10, b := w1.extractLsb' 10 10,
             c := w1.extractLsb' 20 10, dU := w2.getLsbD 19, aU := w2.getLsbD 18, bU := w2.getLsbD 17,
             cU := w2.getLsbD 16, ty := ty, rm := rmOf (w2.extractLsb' 20 2), sat := w2.getLsbD 22,
             var := w2.extractLsb' 23 9, moda := moda, lit := lit }
    else none
  | _, _ => none

/-- The extended instruction of a major and SUB (R79). -/
def extInstr (maj sub : Nat) : Option (Ext → Instr) :=
  match maj, sub with
  | 8, 0 => some .iadd | 8, 1 => some .imax | 8, 2 => some .imin | 8, 3 => some .isub | 8, 4 => some .mov
  | 9, 0 => some .idot4 | 9, 1 => some .imad | 9, 2 => some .imul | 9, 3 => some .imulh
  | 10, 0 => some .and | 10, 1 => some .lop3 | 10, 2 => some .or | 10, 3 => some .rot | 10, 4 => some .sar | 10, 5 => some .shl | 10, 6 => some .shr | 10, 7 => some .xor
  | 11, 0 => some .bfe | 11, 1 => some .bfi | 11, 2 => some .prmt
  | 12, 0 => some .icmp | 12, 1 => some .plop | 12, 2 => some .pmov | 12, 3 => some .sel
  | 13, 0 => some .lea
  | 16, 0 => some .fadd | 16, 1 => some .ffma | 16, 2 => some .fmul
  | 17, 0 => some .fclass | 17, 1 => some .fcmp | 17, 2 => some .fmax | 17, 3 => some .fmin
  | 18, 0 => some .fcos | 18, 1 => some .fexp2 | 18, 2 => some .flog2 | 18, 3 => some .frcp | 18, 4 => some .frsq | 18, 5 => some .fsin | 18, 6 => some .fsqrt | 18, 7 => some .ftanh
  | 19, 0 => some .cvt | 19, 1 => some .pack | 19, 2 => some .req | 19, 3 => some .unpack
  | 24, 0 => some .gvote | 24, 1 => some .qbcast | 24, 2 => some .qswap | 24, 3 => some .shuf
  | 25, 0 => some .greduce | 25, 1 => some .gscan
  | 28, 0 => some .braJoin | 28, 1 => some .brdec | 28, 2 => some .brx | 28, 3 => some .callx
  | 29, 0 => some .svc | 29, 1 => some .trap
  | 30, 0 => some .bar | 30, 1 => some .cbar | 30, 2 => some .evsig | 30, 3 => some .evwait
  | 32, 0 => some .ld | 32, 1 => some .st
  | 33, 0 => some .lds | 33, 1 => some .ldx | 33, 2 => some .sts
  | 34, 0 => some .atom
  | 35, 0 => some .atoms
  | 36, 0 => some .sempty | 36, 1 => some .sfe | 36, 2 => some .sfill
  | 37, 0 => some .ldu | 37, 1 => some .pref
  | 40, 0 => some .cpy
  | 41, 0 => some .ldh
  | 42, 0 => some .tld | 42, 1 => some .tstr
  | 43, 0 => some .coll
  | 44, 0 => some .mma | 44, 1 => some .mmag | 44, 2 => some .mmat
  | 45, 0 => some .aexp | 45, 1 => some .amode | 45, 2 => some .ard | 45, 3 => some .awr | 45, 4 => some .mzero
  | 46, 0 => some .mcarry | 46, 1 => some .mscan
  | 47, 0 => some .tmov | 47, 1 => some .trd | 47, 2 => some .twr
  | 48, 0 => some .oadd | 48, 1 => some .oalight | 48, 2 => some .oboard | 48, 3 => some .ocap | 48, 4 => some .ocas | 48, 5 => some .omax | 48, 6 => some .omin | 48, 7 => some .oswp
  | 49, 0 => some .chpeek | 49, 1 => some .chrecv | 49, 2 => some .chsend
  | 52, 0 => some .clk | 52, 1 => some .sleep | 52, 2 => some .time
  | 53, 0 => some .flags | 53, 1 => some .srd | 53, 2 => some .swr | 53, 3 => some .vdhop
  | _, _ => none

/-- Majors that use the extended format (R79). -/
def extMajors : List Nat :=
  [8, 9, 10, 11, 12, 13, 16, 17, 18, 19, 24, 25, 28, 29, 30, 32, 33, 34, 35, 36, 37, 40, 41, 42, 43, 44, 45, 46, 47,
   48, 49, 52, 53]

/-- The instruction if it is well formed (step 3 of R81). -/
def accept (i : Instr) (n : Nat) : Except DecodeError (Instr × Nat) :=
  if i.wf then .ok (i, n) else .error .fieldRule

/-- Major 1 (R79). -/
def decodeMajor1 (w0 : Word) : Except DecodeError (Instr × Nat) :=
  let g := guardOf w0
  let d := w0.extractLsb' 13 8
  let a := w0.extractLsb' 21 8
  match (w0.extractLsb' 29 3).toNat with
  | 0 => accept (.abs g d a) 1
  | 1 => accept (.brev g d a) 1
  | 2 => accept (.clz g d a) 1
  | 3 => accept (.fabs g d a) 1
  | 4 => accept (.fneg g d a) 1
  | 5 => accept (.movShort g d a) 1
  | 6 => accept (.not g d a) 1
  | _ => accept (.popc g d a) 1

/-- Major 7 (R73, R79): D zero, and A zero but for BKPT's code; HEND unguarded (R72). -/
def decodeMajor7 (w0 : Word) : Except DecodeError (Instr × Nat) :=
  let g := guardOf w0
  let dZero := w0.extractLsb' 13 8 == 0#8
  let aZero := w0.extractLsb' 21 8 == 0#8
  match (w0.extractLsb' 29 3).toNat with
  | 0 => if dZero then accept (.bkpt g (w0.extractLsb' 21 8)) 1 else .error .fieldRule
  | 1 => if dZero && aZero then accept (.exit g) 1 else .error .fieldRule
  | 2 => if dZero && aZero && g == ⟨false, 15⟩ then accept .hend 1 else .error .fieldRule
  | 3 => if dZero && aZero then accept (.nop g) 1 else .error .fieldRule
  | 4 => if dZero && aZero then accept (.ret g) 1 else .error .fieldRule
  | 5 => if dZero && aZero then accept (.yield g) 1 else .error .fieldRule
  | _ => .error .reservedSub

/-- The literal of two words, low word first (R71). -/
def litOf (lo hi : Word) : DWord := hi ++ lo

/-- Majors 2 and 3 (R73, R76). -/
def decodeSI (w0 : Word) (rest : List Word) : Except DecodeError (Instr × Nat) :=
  let g := guardOf w0
  let d := w0.extractLsb' 13 8
  let imm := w0.extractLsb' 21 11
  let add := majOf w0 == 2
  match lenOf w0 with
  | 0 => accept (if add then .iaddi g d imm else .movi g d imm) 1
  | 2 =>
    match rest with
    | lo :: hi :: _ =>
      if imm == 0#11 then
        accept (if add then .iaddiLiteral g d (litOf lo hi) else .moviLiteral g d (litOf lo hi)) 3
      else .error .fieldRule
    | _ => .error .truncated
  | _ => .error .reservedLen

/-- Majors 4 to 6 (R73). -/
def decodeSB (w0 : Word) : Except DecodeError (Instr × Nat) :=
  let g := guardOf w0
  match majOf w0 with
  | 4 => accept (.bra g (w0.extractLsb' 13 19)) 1
  | 5 => accept (.call g (w0.extractLsb' 13 19)) 1
  | _ =>
    if w0.extractLsb' 29 3 == 0#3 then
      accept (.waitc g (w0.extractLsb' 25 4) (w0.extractLsb' 21 4) (w0.extractLsb' 17 4) (w0.extractLsb' 13 4)) 1
    else .error .fieldRule

/-- The extended format (R74). DEDUCED (log 61). -/
def decodeExt (w0 : Word) (rest : List Word) : Except DecodeError (Instr × Nat) :=
  let finish (lit : Option DWord) (w1 w2 : Word) (n : Nat) : Except DecodeError (Instr × Nat) :=
    match extInstr (majOf w0) (w0.extractLsb' 23 9).toNat with
    | none => .error .reservedSub
    | some mk =>
      match extOf w0 w1 w2 lit with
      | none => .error .fieldRule
      | some x => accept (mk x) n
  match lenOf w0, rest with
  | 1, w1 :: w2 :: _ => finish none w1 w2 3
  | 3, w1 :: w2 :: lo :: hi :: _ => finish (some (litOf lo hi)) w1 w2 5
  | 1, _ => .error .truncated
  | 3, _ => .error .truncated
  | _, _ => .error .reservedLen

/-- The instruction that a list of words begins with, and how many words it takes (R70 to R81). DEDUCED (log 68). -/
def decode (ws : List Word) : Except DecodeError (Instr × Nat) :=
  match ws with
  | [] => .error .truncated
  | w0 :: rest =>
    let maj := majOf w0
    if 56 ≤ maj then .ok (.unimp w0, wordCount (lenOf w0))
    else if maj = 1 then (if lenOf w0 = 0 then decodeMajor1 w0 else .error .reservedLen)
    else if maj = 7 then (if lenOf w0 = 0 then decodeMajor7 w0 else .error .reservedLen)
    else if maj = 2 ∨ maj = 3 then decodeSI w0 rest
    else if maj = 4 ∨ maj = 5 ∨ maj = 6 then (if lenOf w0 = 0 then decodeSB w0 else .error .reservedLen)
    else if extMajors.contains maj then decodeExt w0 rest
    else .error .reservedMajor

/-- The decoder on bytes in memory order (R70: words are little-endian). -/
def decodeBytes (bs : List Byte) : Except DecodeError (Instr × Nat) := decode (wordsOfBytes bs)

/-- Five words of a number, the first word its least significant 32 bits. DESIGN CHOICE (log 76). -/
def wordsOfNat (w : Nat) : List Word :=
  [BitVec.ofNat 32 w, BitVec.ofNat 32 (w / 2 ^ 32), BitVec.ofNat 32 (w / 2 ^ 64), BitVec.ofNat 32 (w / 2 ^ 96),
   BitVec.ofNat 32 (w / 2 ^ 128)]

/-- What the decoder reads from an opcode-table word: bit 0 is the least significant bit of the first word, and the
bits above `nbits` are zero. DEDUCED (log 68). DESIGN CHOICE (log 76). -/
def decodeTableWord (nbits w : Nat) : Option Instr :=
  match decodeBytes ((wordsOfNat (w % 2 ^ nbits)).flatMap wordBytes) with
  | .ok (i, _) => some i
  | .error _ => none

/-! ## The encoder -/

/-- The major and SUB of an extended instruction (R79). -/
def Instr.extOpcode : Instr → Option (Nat × Nat)
  | .iadd _ => some (8, 0) | .imax _ => some (8, 1) | .imin _ => some (8, 2) | .isub _ => some (8, 3) | .mov _ => some (8, 4)
  | .idot4 _ => some (9, 0) | .imad _ => some (9, 1) | .imul _ => some (9, 2) | .imulh _ => some (9, 3)
  | .and _ => some (10, 0) | .lop3 _ => some (10, 1) | .or _ => some (10, 2) | .rot _ => some (10, 3) | .sar _ => some (10, 4) | .shl _ => some (10, 5) | .shr _ => some (10, 6) | .xor _ => some (10, 7)
  | .bfe _ => some (11, 0) | .bfi _ => some (11, 1) | .prmt _ => some (11, 2)
  | .icmp _ => some (12, 0) | .plop _ => some (12, 1) | .pmov _ => some (12, 2) | .sel _ => some (12, 3)
  | .lea _ => some (13, 0)
  | .fadd _ => some (16, 0) | .ffma _ => some (16, 1) | .fmul _ => some (16, 2)
  | .fclass _ => some (17, 0) | .fcmp _ => some (17, 1) | .fmax _ => some (17, 2) | .fmin _ => some (17, 3)
  | .fcos _ => some (18, 0) | .fexp2 _ => some (18, 1) | .flog2 _ => some (18, 2) | .frcp _ => some (18, 3) | .frsq _ => some (18, 4) | .fsin _ => some (18, 5) | .fsqrt _ => some (18, 6) | .ftanh _ => some (18, 7)
  | .cvt _ => some (19, 0) | .pack _ => some (19, 1) | .req _ => some (19, 2) | .unpack _ => some (19, 3)
  | .gvote _ => some (24, 0) | .qbcast _ => some (24, 1) | .qswap _ => some (24, 2) | .shuf _ => some (24, 3)
  | .greduce _ => some (25, 0) | .gscan _ => some (25, 1)
  | .braJoin _ => some (28, 0) | .brdec _ => some (28, 1) | .brx _ => some (28, 2) | .callx _ => some (28, 3)
  | .svc _ => some (29, 0) | .trap _ => some (29, 1)
  | .bar _ => some (30, 0) | .cbar _ => some (30, 1) | .evsig _ => some (30, 2) | .evwait _ => some (30, 3)
  | .ld _ => some (32, 0) | .st _ => some (32, 1)
  | .lds _ => some (33, 0) | .ldx _ => some (33, 1) | .sts _ => some (33, 2)
  | .atom _ => some (34, 0)
  | .atoms _ => some (35, 0)
  | .sempty _ => some (36, 0) | .sfe _ => some (36, 1) | .sfill _ => some (36, 2)
  | .ldu _ => some (37, 0) | .pref _ => some (37, 1)
  | .cpy _ => some (40, 0)
  | .ldh _ => some (41, 0)
  | .tld _ => some (42, 0) | .tstr _ => some (42, 1)
  | .coll _ => some (43, 0)
  | .mma _ => some (44, 0) | .mmag _ => some (44, 1) | .mmat _ => some (44, 2)
  | .aexp _ => some (45, 0) | .amode _ => some (45, 1) | .ard _ => some (45, 2) | .awr _ => some (45, 3) | .mzero _ => some (45, 4)
  | .mcarry _ => some (46, 0) | .mscan _ => some (46, 1)
  | .tmov _ => some (47, 0) | .trd _ => some (47, 1) | .twr _ => some (47, 2)
  | .oadd _ => some (48, 0) | .oalight _ => some (48, 1) | .oboard _ => some (48, 2) | .ocap _ => some (48, 3) | .ocas _ => some (48, 4) | .omax _ => some (48, 5) | .omin _ => some (48, 6) | .oswp _ => some (48, 7)
  | .chpeek _ => some (49, 0) | .chrecv _ => some (49, 1) | .chsend _ => some (49, 2)
  | .clk _ => some (52, 0) | .sleep _ => some (52, 1) | .time _ => some (52, 2)
  | .flags _ => some (53, 0) | .srd _ => some (53, 1) | .swr _ => some (53, 2) | .vdhop _ => some (53, 3)
  | _ => none

def guardBits (g : Guard) : BitVec 5 := BitVec.ofBool g.pn ++ g.pg

def rmBits : Rm → BitVec 2
  | .rne => 0 | .rtz => 1 | .rdn => 2 | .rup => 3

def segBits : Seg → BitVec 3
  | .two => 1 | .four => 2 | .eight => 3 | .sixteen => 4

/-- MODA of a modifier (R63). -/
def modaBits : SrcMod → BitVec 12
  | .none => 0
  | .rot g d => 1#2 ++ segBits g ++ d ++ 0#3
  | .bfly g d => 2#2 ++ segBits g ++ d ++ 0#3
  | .bcast g d => 3#2 ++ segBits g ++ d ++ 0#3

/-- Word 0 of the S2 format (R73). -/
def s2Word (maj min : Nat) (g : Guard) (d a : BitVec 8) : Word :=
  BitVec.ofNat 3 min ++ a ++ d ++ guardBits g ++ BitVec.ofNat 6 maj ++ 0#2

def siWord (maj len : Nat) (g : Guard) (d : BitVec 8) (imm : BitVec 11) : Word :=
  imm ++ d ++ guardBits g ++ BitVec.ofNat 6 maj ++ BitVec.ofNat 2 len

def sbWord (maj : Nat) (g : Guard) (off : BitVec 19) : Word := off ++ guardBits g ++ BitVec.ofNat 6 maj ++ 0#2

/-- The two words of a literal. -/
def litWords (v : DWord) : List Word := [v.extractLsb' 0 32, v.extractLsb' 32 32]

/-- The words of an extended instruction (R74). -/
def extWords (maj sub : Nat) (x : Ext) : List Word :=
  let len : BitVec 2 := if x.lit.isSome then 3 else 1
  let cl : BitVec 4 := BitVec.ofBool x.dU ++ BitVec.ofBool x.aU ++ BitVec.ofBool x.bU ++ BitVec.ofBool x.cU
  [BitVec.ofNat 9 sub ++ x.d ++ guardBits x.guard ++ BitVec.ofNat 6 maj ++ len,
   0#2 ++ x.c ++ x.b ++ x.a,
   x.var ++ BitVec.ofBool x.sat ++ rmBits x.rm ++ cl ++ x.ty.code ++ modaBits x.moda] ++
  match x.lit with
  | none => []
  | some v => litWords v

/-- The words of an instruction, as the encoding maps give them; empty for a step that is no instruction. For an
extension instruction (R82) the words after the first belong to its own definition and are written as zero.
DEDUCED (log 68). -/
def encode (i : Instr) : List Word :=
  match i with
  | .abs g d a => [s2Word 1 0 g d a]
  | .brev g d a => [s2Word 1 1 g d a]
  | .clz g d a => [s2Word 1 2 g d a]
  | .fabs g d a => [s2Word 1 3 g d a]
  | .fneg g d a => [s2Word 1 4 g d a]
  | .movShort g d a => [s2Word 1 5 g d a]
  | .not g d a => [s2Word 1 6 g d a]
  | .popc g d a => [s2Word 1 7 g d a]
  | .iaddi g d imm => [siWord 2 0 g d imm]
  | .iaddiLiteral g d v => siWord 2 2 g d 0#11 :: litWords v
  | .movi g d imm => [siWord 3 0 g d imm]
  | .moviLiteral g d v => siWord 3 2 g d 0#11 :: litWords v
  | .bra g off => [sbWord 4 g off]
  | .call g off => [sbWord 5 g off]
  | .waitc g t c s l => [0#3 ++ t ++ c ++ s ++ l ++ guardBits g ++ 6#6 ++ 0#2]
  | .bkpt g code => [s2Word 7 0 g 0 code]
  | .exit g => [s2Word 7 1 g 0 0]
  | .hend => [s2Word 7 2 ⟨false, 15⟩ 0 0]
  | .nop g => [s2Word 7 3 g 0 0]
  | .ret g => [s2Word 7 4 g 0 0]
  | .yield g => [s2Word 7 5 g 0 0]
  | .unimp w0 => w0 :: List.replicate (wordCount (lenOf w0) - 1) 0
  | i =>
    match i.rule?, i.extOpcode with
    | some (x, _), some (maj, sub) => extWords maj sub x
    | _, _ => []

/-- Word 0 of an instruction: the AUX of its ILL and OPR traps (R229). -/
def word0 (i : Instr) : Word := (encode i).headD 0

/-- The bytes an instruction occupies (R71). -/
def sizeOf (i : Instr) : Nat := 4 * (encode i).length

end Sys2Proof
end

