-- ==== Sys2Proof/Config.lean ====
section
/-! DEFINITION. What the spec leaves open and the model fixes for no one: opaque values without a body. -/

namespace Sys2Proof.Config

/-- The content of host memory at a host address before the device or an event of the model writes it (R123,
R167): host memory lies outside the device, and nothing constrains it. DESIGN CHOICE (log 9). -/
opaque hostByte : Nat → Byte

/-- The page of host physical memory that the host's translation agent gives for an untranslated page, after a number of
its invalidations (R123): the host's own. DESIGN CHOICE (log 88). -/
opaque atsAnswer : Nat → Nat → Nat

/-- How far a die's copy of the nanosecond counter lies from the master's, at a given master value (R257:
"every die's copy lies within 2 ns of the master"): 0 to 4 stand for -2 to +2. DESIGN CHOICE (log 10). -/
opaque dieSkew : Nat → Nat → Fin 5

/-- The servo offset that TIME_STATUS returns in VALUE beside the servo state: the spec names it and gives no
layout (R249). DESIGN CHOICE (log 12). -/
opaque timeStatusLayout : Nat → Int → DWord

/-- What ATTEST returns of a signed measurement report for a nonce (R246, R249): the spec gives no layout. The report follows what
the measurements cover beside the firmware itself: the majors of the installed emulation library, the fused die and the life-cycle
state by its number. DESIGN CHOICE (log 12). -/
opaque attestReport : DWord → List Nat → Option Nat → Nat → DWord

/-- How far the servo slews for a measured offset, in ppm towards it (R257: at most ±200 ppm).
DESIGN CHOICE (log 11). -/
opaque servoSlew : Int → Fin 201

/-- Whether the servo counts as locked at a measured offset: the spec names the state and not the bound (R257).
DESIGN CHOICE (log 11). -/
opaque servoLocked : Int → Bool

/-- The 32 bytes of a host queue's state in the control block, for its priority, its ring and its waiting launches: R240
gives their place and no layout. DESIGN CHOICE (log 18). -/
opaque queueState : Nat → DWord → List Nat → Nat

/-- How short a die's current budget is at a power cap in a cycle: not at all, so that VC2 is throttled, or VC1 and VC0 too
(R20 gives no token counts). DESIGN CHOICE (log 71). -/
opaque budgetShort : Nat → Nat → Nat → Fin 3

/-- Whether a die passes its test, and whether the transit path through it does, at the n-th package reset (R11).
DESIGN CHOICE (log 89). -/
opaque dieTest : Nat → Nat → Bool
opaque transitTest : Nat → Nat → Bool

/-- Whether the owner's signed policy permits DEBUG in a context of a number (R248): the spec names the policy and gives no
command that installs one. DESIGN CHOICE (log 90). -/
opaque ownerPolicy : Nat → Bool

/-- The retry-after hint with which the device refuses a remote access in a cycle (R141 gives no value).
DESIGN CHOICE (log 91). -/
opaque retryHint : Nat → BitVec 8

end Sys2Proof.Config
end

