-- ==== Sys2Proof/Machine/Table.lean ====
section
/-! DEFINITION. Sparse tables: lists of key and value pairs in one canonical form, strictly rising keys and no entry
equal to what an unlisted key reads as. Memory and every register file are such tables. -/

namespace Sys2Proof

/-- A sparse table from keys to values. -/
abbrev Tab (α : Type) := List (Nat × α)

namespace Tab

/-- The value at a key; an unlisted key reads as the default. -/
def get {α : Type} (dflt : α) : Tab α → Nat → α
  | [], _ => dflt
  | (k', v) :: rest, k => if k' = k then v else get dflt rest k

/-- An entry put in its place among rising keys; an entry of the same key is replaced. -/
def insert {α : Type} (k : Nat) (v : α) : Tab α → Tab α
  | [] => [(k, v)]
  | (k', v') :: rest =>
    if k' = k then (k, v) :: rest else if k < k' then (k, v) :: (k', v') :: rest else (k', v') :: insert k v rest

/-- The entries of every other key. -/
def erase {α : Type} (k : Nat) (t : Tab α) : Tab α := t.filter (fun e => e.1 != k)

/-- The table with one value changed: a default value is not listed. -/
def put {α : Type} [DecidableEq α] (dflt : α) (t : Tab α) (k : Nat) (v : α) : Tab α :=
  if v = dflt then erase k t else insert k v t

/-- Every key lies above a bound, keys rise strictly and no value is the default. -/
def wfFrom {α : Type} [DecidableEq α] (dflt : α) : Nat → Tab α → Bool
  | _, [] => true
  | lo, (k, v) :: rest => decide (lo ≤ k) && decide (v ≠ dflt) && wfFrom dflt (k + 1) rest

/-- The canonical form. -/
def wf {α : Type} [DecidableEq α] (dflt : α) (t : Tab α) : Bool := wfFrom dflt 0 t

/-- Many values changed, in list order. -/
def putAll {α : Type} [DecidableEq α] (dflt : α) (t : Tab α) (ws : List (Nat × α)) : Tab α :=
  ws.foldl (fun t w => put dflt t w.1 w.2) t

end Tab

end Sys2Proof
end

