-- ==== Sys2Proof/Machine/State.lean ====
section
/-! DEFINITION. The state of the package as plain data, and the state after reset. INVENTORY.md lists every field
with the rule that names it. -/

namespace Sys2Proof.Machine

open Sys2Proof

/-! ## Engines -/

/-- A layout record (R172). -/
structure Record where
  base : DWord
  scale : DWord
  ext : List Nat
  stride : List Nat
  box : List Nat
  fmt : Nat
  sgran : Nat
  swz : Nat
  rank : Nat
  flags : Nat
  clamp : Word
  fill : Word
  link : DWord
  reservedZero : Bool
deriving DecidableEq, Repr

/-- A composed source whose indices are not read yet (R178): producer, consumer and their origins. -/
structure Plan where
  p : Record
  q : Record
  orgP : List Int
  orgQ : List Int
deriving DecidableEq, Repr

/-- A place of an element or byte, counted in bits: virtual memory, block scratchpad, a tile, its sideband, or the
fill value (R173, R180, R183). -/
inductive Place where
  | mem (bit : Nat)
  | spad (bit : Nat)
  | tile (bit : Nat)
  | side (bit : Nat)
  | fill (v : Nat)
  | drop
deriving DecidableEq, Repr

/-- One element of an operation's stream: where it comes from and goes to, and their widths in bits. -/
structure Move where
  src : Place
  dst : Place
  ws : Nat
  wd : Nat
deriving DecidableEq, Repr

/-- A burst of a handled read (R189); `kept` holds the bytes that a handler was born with, for its restart (R193). -/
structure Burst where
  seq : Nat
  coords : List Nat
  bits : List Place
  w : Nat
  fill : Nat
  valid : Nat
  born : Bool
  ended : Bool
  kept : Option Nat
  fault : Option (Cause × DWord)
deriving DecidableEq, Repr

/-- Progress of a collective (R254 to R256). `params` holds the peers whose parameters have matched, `sent` marks
that the local partial has left, `dst` the places of
the destination stream, `remote` the byte addresses of the elements that peers write and `remoteDone` those written. -/
structure Coll where
  session : Nat
  k : Nat
  kind : Nat
  mode : Nat
  op : Nat
  ty : Ty
  rm : Rm
  ndev : Nat
  rank : Nat
  e : Nat
  a : Nat
  ports : List Nat
  step : Nat
  acc : List Word
  localDone : Bool
  sent : Bool
  reduced : Bool
  params : List Nat
  peersDone : List Nat
  inbox : List (Nat × Nat × List Word)
  dst : List Place
  remote : List Nat
  remoteDone : List Nat
deriving DecidableEq, Repr

/-- Kinds of engine operations (R160). -/
inductive EngKind where
  | cpy | tld (t : Nat) | tstr (t : Nat) | ldh (event : Nat) (tag : Word) (entry : DWord) | coll
deriving DecidableEq, Repr

/-- An engine operation (R160 to R163, R193). `words`, `recs` and `org` are what a checkpoint records of the instruction;
`composed` marks a composed destination. Memory sectors are 32-byte numbers of virtual addresses, scratchpad
sectors 32-byte numbers of block offsets; `buf` holds the bytes read by virtual address,
`sbuf` those of the scratchpad by offset or of a stored tile. `resv` and `sresv` are the lines still reserved. -/
structure EngineOp where
  id : Nat
  group : Nat
  block : Nat
  ctx : Nat
  kind : EngKind
  words : List Word
  recs : List Record
  org : List Word
  composed : Bool
  fmtS : Nat
  fmtD : Nat
  rm : Rm
  clamp : Word
  swz : Nat
  plan : Option Plan
  moves : List Move
  reads : List Nat
  readsDone : List Nat
  sreads : List Nat
  sreadsDone : List Nat
  buf : Tab Byte
  sbuf : Tab Byte
  writes : List Nat
  writesDone : List Nat
  swrites : List Nat
  swritesDone : List Nat
  resv : List Nat
  sresv : List Nat
  emptySince : List (Nat × Nat)
  flags : FlagBits
  bursts : List Burst
  coll : Option Coll
  fault : Option (Cause × DWord)
  deliver : Bool
  finished : Bool
deriving DecidableEq, Repr

/-! ## Groups and splits -/

/-- A join record (R28): the join address, the lanes that reached the branch, and the number that tells one
branch's record from another's. -/
structure Join where
  id : Nat
  addr : DWord
  lanes : LaneMask
deriving DecidableEq, Repr

/-- The run states of a split-table entry that is in use (R239); a free entry is absent from the table. -/
inductive Run where
  | live | dormant | trapped
deriving DecidableEq, Repr

/-- What a split waits for without issuing (R25, R27, R35). -/
inductive Wait where
  | none
  /-- at its innermost join address (R28) -/
  | join
  /-- arrived at BAR or CBAR of an id (R47, R48) -/
  | bar (id : Nat)
  | cbar (id : Nat)
  /-- an event word, by its virtual address and its physical place, the compare value and where the split then continues
  (R304) -/
  | evwait (va : DWord) (pa : Nat) (ge : DWord) (next : DWord)
  /-- WAITC with its bounds for T, C, S, L (R186) -/
  | waitc (t c s l : Nat)
  /-- the group's counters at EXIT or HEND (R305, R318) -/
  | retire
  | sleep (instant next : DWord)
  /-- an access the split must see performed before it issues: an empty line, LDU, EVSIG (R130, R50) -/
  | access (id : Nat)
  | orbit (op : Nat)
  /-- CHSEND waits for a credit (R227) -/
  | chanSend (li ch : Nat)
  /-- CHRECV waits for a full slot (R227) -/
  | chanRecv (li ch : Nat)
  /-- YIELD, until the given cycle (R37) -/
  | yield (till : Nat)
  /-- a replayable miss, at a page (R139) -/
  | replay (va : DWord)
  /-- parked for emulation of an instruction with this word 0 (R84) -/
  | emulation (w0 : Word)
  /-- a service of this number runs; where its split continues (R234) -/
  | service (n : Nat) (next : DWord)
deriving DecidableEq, Repr

/-- A scoreboard entry: a register that an unfinished operation will write (R25, R35). -/
structure Hold where
  op : Nat
  file : Nat
  first : Nat
  count : Nat
deriving DecidableEq, Repr

/-- An entry of the split table (R25, R239) with its schedule state (R36); `stall` counts the cycles for which an
outstanding load or matrix entry has kept it at its instruction (R25), `act` the lanes on which it last acted: those of the
instruction at which it waits. DEDUCED (log 62). -/
structure Split where
  idx : Nat
  pc : DWord
  mask : LaneMask
  pend : LaneMask
  act : LaneMask
  depth : Nat
  run : Run
  cause : Option Cause
  joins : List Join
  order : Nat
  age : Nat
  reserved : Bool
  wait : Wait
  since : Nat
  stall : Nat
  holds : List Hold
deriving DecidableEq, Repr

/-- What a vector SRD, CLK or TIME reads at its completion (R112, R258). -/
inductive LateKind where
  | flags | arm | clk | time
deriving DecidableEq, Repr

/-- A read that takes place when its instruction completes: the register it writes, its lanes, and its scoreboard
operation. -/
structure LateRead where
  kind : LateKind
  reg : Nat
  lanes : LaneMask
  op : Nat
deriving DecidableEq, Repr

/-- An instruction that has issued and not completed, with the cycle of its completion: the flags it merges then
(R112) and the read it makes then. -/
structure FlagMerge where
  due : Nat
  bits : FlagBits
  read : Option LateRead
deriving DecidableEq, Repr

/-- An engine or MMAG fault that waits for delivery to the group (R140, R187, R203): the cause, AUX, the counter
class that covers it (true C, false T), the operation, for an MMAG its accumulator and address, and the engine operation as
it ended (R140). -/
structure PendingFault where
  cause : Cause
  aux : DWord
  classC : Bool
  op : Nat
  mmag : Option (Nat × DWord)
  tile : Option Nat
  lines : List Nat
  from_ : Option EngineOp
deriving DecidableEq, Repr

/-- What identifies a handler group (R38, R189, R190): its slot, the issuing group, the request, and the burst's sequence
number. -/
structure HandlerId where
  slot : Nat
  issuer : Nat
  op : Nat
  seq : Nat
deriving DecidableEq, Repr

/-- What the lanes of a stream do with the registers (R58): each lane's result follows from what it reads, so that it acts again when
a register changes before it enters the pipe; one result follows from all lanes; or each lane's operands are read for an
access, a transfer of control or an operation elsewhere. -/
inductive StreamKind where
  | lanes | combined | operands
deriving DecidableEq, Repr

/-- An instruction whose lanes stream through the group's pipe, one per cycle from its issue (R34, R58): its split and
the tables of registers and predicates as its lanes have still to read them; the flags of the first `past` lanes are settled. -/
structure Stream where
  kind : StreamKind
  since : Nat
  ins : Instr
  split : Split
  vec : Tab Word
  uni : Tab Word
  pred : Tab LaneMask
  past : Nat
  bits : FlagBits
deriving DecidableEq, Repr

/-- A group of 16 lanes (R7, R52): placement, registers of the five classes, flags, counters and splits.
DEDUCED (log 70). -/
structure Group where
  block : Nat
  idx : Nat
  handler : Option HandlerId
  die : Nat
  core : Nat
  quarter : Nat
  place : SlotPlace
  present : LaneMask
  helpers : LaneMask
  ended : LaneMask
  retired : Bool
  nv : Nat
  ns : Nat
  nt : Nat
  na : Nat
  vec : Tab Word
  uni : Tab Word
  pred : Tab LaneMask
  tile : Tab Word
  scale : Tab Word
  acc : Tab Word
  carry : Tab Word
  affine : LaneMask
  flags : FlagBits
  arm : FlagBits
  inflight : List FlagMerge
  stream : Option Stream
  cntL : Nat
  cntS : Nat
  cntC : Nat
  cntT : Nat
  splits : List Split
  rets : List (List DWord)
  faults : List PendingFault
deriving DecidableEq, Repr

/-! ## Blocks, launches, channels -/

/-- A started block (R22, R32, R44): launch, coordinates, cores, scratchpad and its line states (R127, R128),
barrier watch starts by id with CBAR at 16 to 19 (R49), whether it is saved (R235), its die's nanosecond counter at its last
stop (R368), and while it is evicted the cores that it last held (R46). -/
structure Block where
  launch : Nat
  lin : Nat
  x : Nat
  y : Nat
  z : Nat
  die : Nat
  cores : List Nat
  sbase : List Nat
  scratch : Tab Byte
  lines : Tab Byte
  barCount : Tab Nat
  hplaces : List SlotPlace
  lastCores : List Nat
  saveArea : DWord
  stopped : Bool
  complete : Bool
  lastTime : Option DWord
deriving DecidableEq, Repr

/-- A launch descriptor (R39). -/
structure Desc where
  entry : DWord
  args : DWord
  gridX : Nat
  gridY : Nat
  gridZ : Nat
  blkX : Nat
  blkY : Nat
  blkZ : Nat
  cores : Nat
  progress : Nat
  vregs : Nat
  sregs : Nat
  tiles : Nat
  accs : Nat
  hslots : Nat
  hvregs : Nat
  scratch : Nat
  chtab : DWord
  nch : Nat
  emptyExp : Nat
  colltab : DWord
  done : DWord
  orbReq : List Nat
  reservedZero : Bool
deriving DecidableEq, Repr

/-- Where a launch stands (R40, R42, R250). -/
inductive Phase where
  | queued | admitted | completed | refused (reason : Nat) | killed
deriving DecidableEq, Repr

/-- A launch (R39, R42), with the arm mask of its kernel (R97). -/
structure Launch where
  ctx : Nat
  id : BitVec 32
  queue : Nat
  descVa : DWord
  desc : Desc
  deps : List (DWord × DWord)
  phase : Phase
  arm : FlagBits
  started : List Nat
  finished : Nat
deriving DecidableEq, Repr

/-- A dataflow channel of a launch (R224 to R228): the oldest full slot and the number of full slots of its buffer, which
lies in the consumer's scratchpad (R225), the producer's credits and credit flits on their way. -/
structure Channel where
  launch : Nat
  num : Nat
  prod : Nat
  cons : Nat
  depth : Nat
  head : Nat
  count : Nat
  credits : Nat
  flying : Nat
deriving DecidableEq, Repr

/-! ## Contexts -/

/-- A mapping: `pages` pages of `psize` bytes from `va` to `target` with the attributes of R122. -/
structure Mapping where
  va : Nat
  pages : Nat
  psize : Nat
  target : Nat
  r : Bool
  w : Bool
  x : Bool
  host : Bool
  window : Bool
  demand : Bool
deriving DecidableEq, Repr

/-- A trap record (R231) and whether it has been consumed; the cycle in which its trap was taken, and its place in the order
of that cycle. -/
structure TrapRec where
  cause : Cause
  split : BitVec 8
  mask : LaneMask
  group : BitVec 32
  block : BitVec 32
  seq : BitVec 32
  pc : DWord
  aux : DWord
  consumed : Bool
  cycle : Nat
  order : Nat
deriving DecidableEq, Repr

/-- A host queue (R42): priority, its ring, the launches that wait in queue order. -/
structure HostQueue where
  prio : Nat
  ring : DWord
  waiting : List Nat
deriving DecidableEq, Repr

/-- STATE of the context control block (R240). -/
inductive CtxState where
  | ready | running | saved | killed
deriving DecidableEq, Repr

/-- A code object's .text in a context: its range, the arm masks of its kernels by entry address (R97), and whether its
instruction-cache invalidation has completed, before which no launch may name it (R96). -/
structure CodeText where
  lo : Nat
  hi : Nat
  arms : List (Nat × FlagBits)
  ready : Bool
deriving DecidableEq, Repr

/-- A context (R15, R240): the fields of its control block, its mappings, code and queues; the CTX_SAVE that has not
completed and whether it asks for COMPLETE (R235). DEDUCED (log 26). -/
structure Ctx where
  num : Nat
  state : CtxState
  reason : Option Cause
  part : Nat
  bind : List Nat
  debug : Bool
  wdexp : Nat
  ccb : DWord
  trapq : DWord
  savePool : DWord
  poolSize : Nat
  head : Nat
  tail : Nat
  traps : List TrapRec
  quota : List Nat
  svclog : List (Option Nat)
  queues : List HostQueue
  nextLaunch : BitVec 32
  maps : List Mapping
  resident : List Nat
  texts : List CodeText
  ports : BitVec 12
  stopping : Bool
  saveComplete : Bool
  saveCmd : Option Cmd
deriving DecidableEq, Repr

/-- A partition (R14, R220): number, physical dies ascending, the VC weights. DESIGN CHOICE (log 71). -/
structure Part where
  num : Nat
  dies : List Nat
  weights : List Nat
deriving DecidableEq, Repr

/-! ## Memory operations in progress -/

/-- The kinds of lane and split accesses (R131 to R135, R50). `op` of an atomic is its OP code (R134). -/
inductive AccKind where
  | ld | st | atom (op : Nat) | lds | ldx (pd : Nat) | sts | atoms (op : Nat)
  | sempty | sfill (tag : Nat) | sfe (pd : Nat) | ldu | evsig | evwait
deriving DecidableEq, Repr

/-- Where a physical address lies (R122, R124). -/
inductive Space where
  | hbm | host | window | scratch
deriving DecidableEq, Repr

/-- How far a lane's access has come: parked for a replay (R139), issued, waiting on an empty line (R130), done. -/
inductive LaneStage where
  | parked | issued | waitingEmpty | done
deriving DecidableEq, Repr

/-- One lane's access: its place and the data it stores (the operand, and the replacement of a CAS). -/
structure LaneAcc where
  lane : Nat
  va : DWord
  addr : Nat
  space : Space
  data : BitVec 128
  data2 : DWord
  stage : LaneStage
deriving DecidableEq, Repr

/-- The classes of outstanding-operation counters (R184). -/
inductive Ctr where
  | l | s | c | t | uncounted
deriving DecidableEq, Repr

/-- An issued access of a split (R155, R184): one entry per memory instruction. `cover` holds the lanes in whose
program order it stands (R147); `waitFrom` is the cycle in which its first lane found an empty line (R130), `flags` what its
performed lanes raise when it completes (R112). -/
structure Access where
  id : Nat
  group : Nat
  split : Nat
  pc : DWord
  kind : AccKind
  bytes : Nat
  ty : Ty
  d : Nat
  ctr : Ctr
  cover : LaneMask
  next : DWord
  shared : Bool
  waitFrom : Option Nat
  flags : FlagBits
  lanes : List LaneAcc
deriving DecidableEq, Repr

/-- Granule states (R150). -/
inductive GranClass where
  | unclassified | private_ (die core : Nat) (dirty : Bool) | readonly | shared
deriving DecidableEq, Repr

/-- What waits at a granule's home: a lane of an access, an instruction that reads records or installs reservations at its
issue, by its group, split and address, or an agent that is no lane. -/
inductive Waiter where
  | lane (acc lane : Nat)
  | issue (gi si : Nat) (pc : DWord)
  | agent (a : Agent)
deriving DecidableEq, Repr

/-- A drain in progress (R157): the class it leads to; the access that triggered it with its agent and whether it writes,
none for a command (R158); the holders that the request has reached, and those that have acknowledged. -/
structure Drain where
  to_ : GranClass
  by_ : Option (Waiter × Agent × Bool)
  asked : List Agent
  stopped : List Agent
deriving DecidableEq, Repr

/-- A classified 4 KiB granule of HBM with its holder set (R150), and the accesses that the home held during the last
drain, which it accepts first and in this order (R157 step 5). -/
structure Granule where
  num : Nat
  cls : GranClass
  holders : List Agent
  drain : Option Drain
  held : List Waiter
deriving DecidableEq, Repr

/-! ## Matrix engine, Orbit -/

/-- What a matrix entry writes in its last cycle (R197): words, and single bytes of a sideband. -/
structure MatOut where
  acc : List (Nat × Word)
  carry : List (Nat × Word)
  tile : List (Nat × Word)
  scale : List (Nat × Byte)
  vec : List (Nat × Word)
  affine : Option (Nat × Bool)
  flags : FlagBits
deriving DecidableEq, Repr

/-- An entry of a core's matrix queue (R196): the instruction, its group and lanes, the sources read at issue, and
once begun what it will write; `cancelled` marks one that a stop has cancelled (R210). `lines` pairs each gathered row with its line, `latch` holds the lines read so far with
their tags (R200). -/
structure MatEntry where
  id : Nat
  die : Nat
  core : Nat
  group : Nat
  pc : DWord
  ins : Instr
  e : LaneMask
  vals : List Word
  uniB : DWord
  lines : List (Nat × Nat)
  latch : List (Nat × Nat × List Byte)
  emptySince : List (Nat × Nat)
  cancelled : Bool
  out : Option MatOut
  endsAt : Nat
deriving DecidableEq, Repr

/-- A slot of the Orbit (R211). -/
structure Slot where
  payload : List Word
  key : Word
  tag : BitVec 16
  held : Bool
deriving DecidableEq, Repr

/-- Kinds of orbit operations (R216, R217). -/
inductive OrbKind where
  | add | alight | cap | cas | max | min | swp
  | board (track : Nat) (pc : Nat)
deriving DecidableEq, Repr

/-- A pending orbit operation (R214). -/
structure OrbitOp where
  id : Nat
  group : Nat
  split : Nat
  die : Nat
  core : Nat
  kind : OrbKind
  ty : Ty
  slot : Nat
  key : Word
  d : Nat
  e : LaneMask
  act : LaneMask
  b : List Word
  cmp : List Word
  issue : Nat
  passes : Nat
  next : DWord
deriving DecidableEq, Repr

/-! ## Coherence, logs, host, security -/

/-- L1 line states (R170). -/
inductive L1State where
  | m | o | e | s | is | im | sm | mi
deriving DecidableEq, Repr

/-- The class of a granule as a core last learned it with one of its lines (R153). -/
inductive LineClass where
  | private_ | readonly | shared
deriving DecidableEq, Repr

/-- A line that a core's L1 holds: its protocol state, a forward that it keeps, and the class it carries; none while
the home has not answered (R153, R170, R171). -/
structure L1Line where
  die : Nat
  core : Nat
  line : Nat
  st : L1State
  cls : Option LineClass
  heldForward : Option (Nat × Nat)
deriving DecidableEq, Repr

/-- Directory states (R170). -/
inductive DirState where
  | i | s | em | o | iv | fw | wbf
deriving DecidableEq, Repr

/-- A request that the home serves (R171): the core and whether it asks for ownership, whether it holds S, the cycle in which
it arrived and the virtual channel that carried it (R170). -/
structure HomeReq where
  die : Nat
  core : Nat
  excl : Bool
  upgrade : Bool
  at_ : Nat
  vc : Nat
deriving DecidableEq, Repr

/-- A line at its home (R166, R170, R171): its state and copies, what it awaits, the request that it serves and those that
wait; `wbHere` marks a write-back that arrived while a forward is open. -/
structure DirLine where
  line : Nat
  st : DirState
  owner : Option (Nat × Nat)
  sharers : List (Nat × Nat)
  awaiting : List (Nat × Nat)
  serving : Option HomeReq
  queue : List HomeReq
  wbHere : Bool
  hostHolder : Bool
  snooping : Bool
deriving DecidableEq, Repr

/-- The TLBs of a die (R136, R137): its second level, the partition of a core's first level that a block owns, and a core's
walk-ahead TLB. -/
inductive TlbUnit where
  | second
  | first (core block : Nat)
  | walk (core : Nat)
deriving DecidableEq, Repr

/-- A cached translation of a die (R136, R137, R143). The entries of a TLB stand in the order of their fill, or of their last
use in a first level. -/
structure TlbEntry where
  die : Nat
  ctx : Nat
  va : Nat
  map : Mapping
  part : TlbUnit
deriving DecidableEq, Repr

/-- An invalidation log entry (R142); `bus` keeps the host bus pages that its range named, for the ATS translation cache.
DEDUCED (log 29). -/
structure LogEntry where
  seq : Nat
  va : Nat
  pages : Nat
  psize : Nat
  kind : Nat
  ctx : Nat
  bus : List (Nat × Nat)
deriving DecidableEq, Repr

structure DieLog where
  die : Nat
  entries : List LogEntry
  applied : Nat
deriving DecidableEq, Repr

/-- A 32-byte sector that a core's instruction cache holds (R126, R168). -/
structure ISector where
  die : Nat
  core : Nat
  sector : Nat
  bytes : List Byte
deriving DecidableEq, Repr

/-- A flit in a channel buffer of a router input: the output it asks for, and whether the next router holds a credit for its
channel. The first of a buffer is its head (R220, R222).
DESIGN CHOICE (log 71). -/
structure MeshHead where
  die : Nat
  stop : Nat
  plane : Nat
  vc : Nat
  port : MeshPort
  out : MeshPort
  credit : Bool
  age : Nat
  promoted : Bool
deriving DecidableEq, Repr

/-- An output of a router: die, stop, plane and port (R219). -/
structure MeshOut where
  die : Nat
  stop : Nat
  plane : Nat
  port : MeshPort
deriving DecidableEq, Repr

/-- The round robins of an output (R222): cur of each channel, and the input granted last in each. -/
structure MeshRr where
  out : MeshOut
  cur : List Int
  last : List (Option MeshPort)
deriving DecidableEq, Repr

/-- TDISP states (R246). -/
inductive Tdisp where
  | unlocked | locked | run | error
deriving DecidableEq, Repr

/-- A trusted interface (R245, R246): its TDISP state, whether its session is open, whether the link's IDE stream has its keys,
and the selective IDE streams that have theirs. -/
structure Iface where
  fn : Nat
  tdisp : Tdisp
  session : Bool
  ideKeys : Bool
  streams : List Nat
deriving DecidableEq, Repr

/-- Servo states of the time master (R257). -/
inductive Servo where
  | freeRun | locking | locked | holdover
deriving DecidableEq, Repr

/-- The completion record that a command leaves (R249). -/
structure Completion where
  fn : Nat
  seq : BitVec 32
  status : Nat
  value : DWord
deriving DecidableEq, Repr

/-- What firmware has still to do in a context's memory, in order: bytes stored at a virtual address by an agent, bytes that it
reads for work which waits for them, an event word raised, and what follows once those before it are performed: a vector raised,
a command's completion (R151, R157, R231, R249). -/
inductive FwAccess where
  | store (a : Agent) (ctx va : Nat) (bytes : List Byte)
  | load (ctx va n : Nat)
  | raise (ctx va : Nat) (by_ : DWord)
  | vector (v : Nat)
  | completion (c : Completion)
deriving DecidableEq, Repr

/-- A remote access that this device refused at translation, with its refusals so far and the cycle from which its
initiator sends it again (R3, R141). -/
structure Retry where
  port : Nat
  ctx : Nat
  va : DWord
  bytes : List Byte
  refusals : Nat
  due : Nat
deriving DecidableEq, Repr

/-- A die's trace ring (R259). -/
structure Trace where
  die : Nat
  ctx : Nat
  ring : DWord
  size : Nat
  mask : BitVec 32
  pos : Nat
  dropped : Nat
deriving DecidableEq, Repr

/-- What a message to a peer says (R255, R256): values, that the operation has ended here, that parameters differ, or that the
context is dead, with every later operation of its session. -/
inductive OutKind where
  | values | ended | mismatch | dead
deriving DecidableEq, Repr

/-- What leaves for a peer (R252, R255): a run of values or an end, with the refusals that it has met and the cycle from which
it is sent again (R3, R141). -/
structure RemoteOut where
  session : Nat
  k : Nat
  rank : Nat
  what : OutKind
  vals : List Word
  refusals : Nat
  due : Nat
deriving DecidableEq, Repr

/-- Performance counts that the spec names (R20, R84, R234, R145). -/
structure Perf where
  unimp : Nat
  bkpt : Nat
  sag : Nat
  scrubs : Nat
  crcReplays : Nat
  throttles : Tab Nat
  corrected : Nat
deriving DecidableEq, Repr

/-- What moves next: one issue of a split, one event, the command at the head of a function's ring (R249), a code object
that a loader places (R96), a sector that enters or leaves an instruction cache (R126, R168), the root port's acceptance of
the oldest writes (R247), the scrub behind an interface that has left RUN (R247), a corrected error (R145), a flit that becomes
a head or drives a set-up wire or the credits of a next router (R221, R222), a command that the driver writes into a ring
(R249), a page that a walk-ahead TLB walks for an operation (R137), or one cycle.
DESIGN CHOICE (log 1). -/
inductive Turn where
  | issue (gi si : Nat)
  | event (i : Instr)
  | command (fn : Nat)
  | load (c : Cmd) (file : List Byte) (base : Nat) (frames : List Nat)
  | fetchFill (die core sector : Nat)
  | fetchDrop (die core sector : Nat)
  | rootAccept (n : Nat)
  | scrub (fn : Nat)
  | corrected
  | headArrive (h : MeshHead)
  | credits (o : MeshOut) (vc : Nat) (held : Bool)
  | ringWrite (fn : Nat) (e : RingEntry)
  | setUp (o : MeshOut)
  | walkAhead (op : Nat)
  | tick
deriving DecidableEq, Repr

/-- The whole package. -/
structure State where
  -- what moves next and who executes
  agenda : List Turn
  curG : Nat
  curS : Nat
  rings : Tab (List RingEntry)
  taken : Tab (List RingEntry)
  -- time and power
  cycle : BitVec 64
  nsMaster : BitVec 64
  nsSub : Nat
  dieNs : Tab DWord
  servo : Servo
  servoOffset : Int
  slew : Int
  ptp : Option (Nat × Nat × Bool)
  sag : List Nat
  stretch : Nat
  stretchFrom : Nat
  clearing : Nat
  powerCap : Nat
  short : Tab Nat
  -- fuses, partitions, contexts
  fused : Option Nat
  failed : List Nat
  parts : List Part
  ctxs : List Ctx
  launches : List Launch
  blocks : List Block
  groups : List Group
  channels : List Channel
  rrLast : Tab Nat
  -- memory
  mem : List Host.Cell
  hostMem : Tab (Option Byte)
  posted : List (Nat × Nat × Byte)
  tlb : List TlbEntry
  atc : List (Nat × Nat)
  atsEpoch : Nat
  logs : List DieLog
  logSeq : Nat
  icache : List ISector
  granules : List Granule
  dir : List DirLine
  l1 : List L1Line
  frames : List (Nat × Nat × Nat)
  retiredFrames : List Nat
  cleanLines : List (Nat × List Byte)
  -- operations in progress
  nextId : Nat
  acc : List Access
  engines : List EngineOp
  matq : List MatEntry
  matUsed : Tab Nat
  slots : Tab Slot
  orbitOps : List OrbitOp
  orbitPassed : List (Nat × Nat × Nat)
  ringBroken : Bool
  retries : List Retry
  offers : List (Agent × Instr × Nat)
  fwOut : List FwAccess
  collCount : List (Nat × Nat × Nat × Nat)
  outbox : List RemoteOut
  early : List (Nat × Nat × PeerMsg)
  routines : List (Nat × Nat × Nat)
  loaded : List Byte
  -- schedule
  busy : Tab Nat
  bankLast : Tab Nat
  drowsy : List Nat
  heads : List MeshHead
  setUps : List MeshOut
  meshRr : List MeshRr
  -- host, security, recovery
  msix : List Nat
  completions : List Completion
  hostData : List Byte
  dbgResult : Option (Bool × Word)
  devRegs : Tab DWord
  msixTable : Tab DWord
  ifaces : List Iface
  life : LifeState
  portsDown : List Nat
  linksDown : List Link
  keyEpoch : List (Link × Nat)
  nonces : List (Link × Nat × Nat)
  hdm : Tab DWord
  scrubbing : List Nat
  resets : Nat
  up : Bool
  emuMajors : List Nat
  traces : List Trace
  frozen : Bool
  perf : Perf
deriving DecidableEq, Repr

/-! ## Outcomes that are no next state -/

/-- Why the machine stops. Every ending of an instruction that the spec describes is a next state, so this type
has one constructor only. -/
inductive Fault where
  /-- Raised by the fetch of `step` when the words at the program counter belong to a context that no longer
  exists in the state (a state no run reaches). Safe: the model stops where no rule says what happens. -/
  | noContext
deriving DecidableEq, Repr

/-- Why an instruction has no meaning here. -/
inductive Refusal where
  /-- An instruction whose meaning is not written; raised by its arm of the dispatch alone. Safe. -/
  | notModelled (mnemonic : String)
deriving DecidableEq, Repr

/-! ## Reset -/

/-- A free slot of the Orbit (R211, R248: wiped at reset). -/
def Slot.free : Slot := { payload := List.replicate 16 0, key := 0, tag := 0, held := false }

/-- The one partition of some compute dies, with the default weights (R14, R220), and its interface. DESIGN CHOICE (log 7). -/
def firstPart (dies : List Nat) : Part := { num := 0, dies := dies, weights := [2, 2, 1, 4] }
def Iface.fresh (fn : Nat) : Iface := { fn := fn, tdisp := .unlocked, session := false, ideKeys := false, streams := [] }

/-- The machine after a package reset (R248, R257): memories wiped, counters zero, one partition of every compute die, no context
or launch, every interface unlocked. DESIGN CHOICE (log 5, 6, 7). DEDUCED (log 8, 70). -/
def State.reset : State :=
  { agenda := [], curG := 0, curS := 0, rings := [], taken := [],
    cycle := 0, nsMaster := 0, nsSub := 0, dieNs := [], servo := .freeRun, servoOffset := 0, slew := 0, ptp := none,
    sag := [], stretch := 0, stretchFrom := 0, clearing := 0, powerCap := 4000, short := [],
    fused := none, failed := [], parts := [firstPart (List.range 9)], ctxs := [], launches := [], blocks := [], groups := [], channels := [],
    rrLast := [],
    mem := [], hostMem := [], posted := [], tlb := [], atc := [], atsEpoch := 0, logs := [], logSeq := 0, icache := [], granules := [], dir := [],
    l1 := [], frames := [], retiredFrames := [], cleanLines := [],
    nextId := 0, acc := [], engines := [], matq := [], matUsed := [], slots := [], orbitOps := [], orbitPassed := [],
    ringBroken := false, retries := [], offers := [], fwOut := [], collCount := [], outbox := [], early := [],
    routines := [], loaded := [],
    busy := [], bankLast := [], drowsy := [], heads := [], setUps := [], meshRr := [],
    msix := [], completions := [], hostData := [], dbgResult := none, devRegs := [], msixTable := [],
    ifaces := [Iface.fresh 1], life := .manufacture, portsDown := [], linksDown := [], keyEpoch := [], nonces := [], hdm := [],
    scrubbing := [], resets := 0, up := true, emuMajors := [], traces := [],
    frozen := false, perf := { unimp := 0, bkpt := 0, sag := 0, scrubs := 0, crcReplays := 0, throttles := [], corrected := 0 } }

end Sys2Proof.Machine
end

