-- ==== Sys2Proof/Machine/Ops.lean ====
section
/-! DEFINITION. Named operations over the state: lookups, register files, splits and their program counters, taking
a trap and the return from one, and the skeleton that every instruction runs under. -/

namespace Sys2Proof.Machine

open Sys2Proof

/-! ## Lists and masks -/

/-- The list with entry n changed; unchanged when there is none. -/
def modNth {α : Type} (f : α → α) : List α → Nat → List α
  | [], _ => []
  | a :: rest, 0 => f a :: rest
  | a :: rest, n + 1 => a :: modNth f rest n

/-- The lanes of a mask, ascending. -/
def lanesOf (m : LaneMask) : List Nat := allLanes.filter (fun L => m.getLsbD L)

/-- The mask of one lane. -/
def laneBit (L : Nat) : LaneMask := BitVec.ofNat 16 (2 ^ L)

/-- The mask of the lanes where a predicate holds. -/
def maskOf (p : Nat → Bool) : LaneMask := allLanes.foldl (fun m L => if p L then m ||| laneBit L else m) 0

/-- Little-endian bytes of a number. -/
def bytesLE (n v : Nat) : List Byte := (List.range n).map (fun k => BitVec.ofNat 8 (v / 2 ^ (8 * k)))

/-- The number that little-endian bytes hold. -/
def natLE (bs : List Byte) : Nat := bs.foldr (fun b acc => b.toNat + 256 * acc) 0

/-- The union of two duplicate-free lists. -/
def addNew {α : Type} [DecidableEq α] (a : α) (l : List α) : List α := if a ∈ l then l else l ++ [a]

/-! ## Lookups -/

def State.group? (s : State) (gi : Nat) : Option Group := s.groups[gi]?
def State.block? (s : State) (bi : Nat) : Option Block := s.blocks[bi]?
def State.launch? (s : State) (li : Nat) : Option Launch := s.launches[li]?
def State.ctx? (s : State) (c : Nat) : Option Ctx := s.ctxs.find? (fun x => x.num == c)
def State.part? (s : State) (p : Nat) : Option Part := s.parts.find? (fun x => x.num == p)
def State.engine? (s : State) (id : Nat) : Option EngineOp := s.engines.find? (fun o => o.id == id)
def State.access? (s : State) (id : Nat) : Option Access := s.acc.find? (fun a => a.id == id)

/-- The split-table entry of an index (R25). -/
def Group.split? (g : Group) (si : Nat) : Option Split := g.splits.find? (fun p => p.idx == si)

/-- The launch of a group (R21). -/
def State.groupLaunch? (s : State) (g : Group) : Option Launch :=
  (s.block? g.block).bind (fun b => s.launch? b.launch)

/-- The context number of a group; 0 when the group belongs to none. -/
def State.groupCtx (s : State) (g : Group) : Nat := ((s.groupLaunch? g).map (fun l => l.ctx)).getD 0

/-- The context a group runs in. -/
def State.groupCtx? (s : State) (g : Group) : Option Ctx := s.ctx? (s.groupCtx g)

/-- The group and the split that execute. -/
def State.issuer? (s : State) : Option (Group × Split) :=
  (s.group? s.curG).bind (fun g => (g.split? s.curS).map (fun p => (g, p)))

/-- The classifier agent of a group's accesses (R151). -/
def groupAgent (gi : Nat) (g : Group) : Agent := if g.handler.isSome then .handler gi else .core g.die g.core

/-! ## Updates -/

def State.modGroup (s : State) (gi : Nat) (f : Group → Group) : State := { s with groups := modNth f s.groups gi }
def State.modBlock (s : State) (bi : Nat) (f : Block → Block) : State := { s with blocks := modNth f s.blocks bi }
def State.modLaunch (s : State) (li : Nat) (f : Launch → Launch) : State :=
  { s with launches := modNth f s.launches li }
def State.modCtx (s : State) (c : Nat) (f : Ctx → Ctx) : State :=
  { s with ctxs := s.ctxs.map (fun x => if x.num = c then f x else x) }
def State.modEngine (s : State) (id : Nat) (f : EngineOp → EngineOp) : State :=
  { s with engines := s.engines.map (fun o => if o.id = id then f o else o) }
def State.modAccess (s : State) (id : Nat) (f : Access → Access) : State :=
  { s with acc := s.acc.map (fun a => if a.id = id then f a else a) }

def Group.modSplit (g : Group) (si : Nat) (f : Split → Split) : Group :=
  { g with splits := g.splits.map (fun p => if p.idx = si then f p else p) }

def State.modSplit (s : State) (gi si : Nat) (f : Split → Split) : State := s.modGroup gi (fun g => g.modSplit si f)

/-! ## Register files (R52 to R54, R65) -/

/-- vR of a lane; an absent lane reads zero (R65). -/
def Group.vget (g : Group) (r L : Nat) : Word :=
  if g.present.getLsbD L then g.vec.get 0 (r * 16 + L) else 0

/-- vR of a lane written; writes to absent lanes are discarded (R65). -/
def Group.vset (g : Group) (r L : Nat) (w : Word) : Group :=
  if g.present.getLsbD L then { g with vec := g.vec.put 0 (r * 16 + L) w } else g

def Group.uget (g : Group) (r : Nat) : Word := g.uni.get 0 r
def Group.uset (g : Group) (r : Nat) (w : Word) : Group := { g with uni := g.uni.put 0 r w }

/-- A predicate; pT reads true in every lane (R53). -/
def Group.pget (g : Group) (p : Nat) : LaneMask := if p = 15 then 0xFFFF#16 else g.pred.get 0 p

/-- A predicate written in the lanes of a mask; a write to pT is discarded (R53). -/
def Group.pset (g : Group) (p : Nat) (e bits : LaneMask) : Group :=
  if p = 15 then g
  else
    let e := e &&& g.present
    { g with pred := g.pred.put 0 p ((g.pget p &&& ~~~e) ||| (bits &&& e)) }

/-- One register or an even/odd pair of either class (R54); a lane's value for the vector class. -/
def Group.rget (g : Group) (uni wide : Bool) (r L : Nat) : DWord :=
  let rd (k : Nat) : Word := if uni then g.uget k else g.vget k L
  if wide then rd (r + 1) ++ rd r else 0#32 ++ rd r

/-- One register or pair written. -/
def Group.rset (g : Group) (uni wide : Bool) (r L : Nat) (v : DWord) : Group :=
  let wr (g : Group) (k : Nat) (w : Word) : Group := if uni then g.uset k w else g.vset k L w
  let g := wr g r (v.extractLsb' 0 32)
  if wide then wr g (r + 1) (v.extractLsb' 32 32) else g

/-- A value for each lane of a mask written to a vector register or pair. -/
def Group.vsetLanes (g : Group) (wide : Bool) (r : Nat) (e : LaneMask) (f : Nat → DWord) : Group :=
  (lanesOf e).foldl (fun g L => g.rset false wide r L (f L)) g

/-! ## Live places and splits (R25, R26) -/

/-- Splits that hold a live place. -/
def liveCount (ps : List Split) : Nat := (ps.filter (fun p => p.run == .live)).length

/-- The lowest free index of a split table: R26 leaves open which free entry a further side takes.
DESIGN CHOICE (log 77). -/
def freeIdx (ps : List Split) : Nat := ((List.range 16).find? (fun i => ps.all (fun p => p.idx != i))).getD 15

/-- The youngest dormancy order. -/
def nextOrder (ps : List Split) : Nat := ps.foldl (fun m p => max m (p.order + 1)) 0

/-- A split that has just come into being at a program counter with a mask. -/
def Split.fresh (idx : Nat) (pc : DWord) (mask : LaneMask) : Split :=
  { idx := idx, pc := pc, mask := mask, pend := 0, act := 0, depth := 0, run := .live, cause := none, joins := [], order := 0,
    age := 0, reserved := false, wait := .none, since := 0, stall := 0, holds := [] }

/-- A split moves to an address: it has issued, its age returns to zero and nothing is left unfinished (R36). -/
def Split.goto (p : Split) (pc : DWord) : Split :=
  { p with pc := pc, pend := 0, wait := .none, age := 0, reserved := false, stall := 0 }

/-! ## Causes (R229) -/

/-- A cause that an instruction's trap may have: PREEMPT is never delivered as a trap, KILL and BARWD belong to no instruction,
and an UNIMP ends as ILL or in its emulation (R84, R229). -/
def deliverable : Cause → Bool
  | .preempt | .kill | .barwd | .unimp => false
  | _ => true

def causeCode : Cause → Nat
  | .ill => 1 | .unimp => 2 | .opr => 3 | .mal => 4 | .pf => 5 | .prot => 6 | .swz => 7 | .emptyto => 8 | .brt => 9
  | .hnd => 10 | .orb => 11 | .chn => 12 | .arith => 13 | .bkpt => 14 | .svc => 15 | .trap => 16 | .preempt => 17
  | .kill => 18 | .barwd => 19

/-- GROUP of R67: the index in the block, or for a handler 0xFFFF_0000 plus its slot. -/
def Group.groupId (g : Group) : BitVec 32 :=
  match g.handler with
  | some h => BitVec.ofNat 32 (0xFFFF0000 + h.slot)
  | none => BitVec.ofNat 32 g.idx

/-! ## Plain memory (R124, R144; the window and scratchpad places lie in Memory.lean) -/

/-- The canonical form of HBM: addresses rise strictly and no listed byte is zero, which an unlisted one reads as. -/
def Memory.wf (m : List Host.Cell) : Bool := Tab.wf 0 m

/-- A byte of HBM; memory that nothing has written reads zero, as every reset and every mapping wipes it (R144, R248).
DEDUCED (log 8). -/
def State.memGet (s : State) (pa : Nat) : Byte := Tab.get 0 s.mem pa
def State.memPut (s : State) (pa : Nat) (b : Byte) : State := { s with mem := Tab.put 0 s.mem pa b }

/-- The host physical address of an untranslated bus address: from the I/O die's translation cache, or from the answer to
a translation request (R123). The spec gives a cached translation no page size: the cache holds 4 KiB bus pages.
DESIGN CHOICE (log 29, 88). -/
def State.hostPa (s : State) (bus : Nat) : Nat :=
  match s.atc.find? (fun a => a.1 == bus / 4096) with
  | some a => a.2 * 4096 + bus % 4096
  | none => Config.atsAnswer s.atsEpoch (bus / 4096) * 4096 + bus % 4096

/-- The partition of a context; 16, which no partition has, where there is none. -/
def State.ctxPart (s : State) (cn : Nat) : Nat := ((s.ctx? cn).map (fun c => c.part)).getD 16

/-- A byte of host memory at a bus address, as the device's single order has it: the newest write that the root port has
still to accept, or what host memory holds; nothing constrains one that no event has written (R167, R247).
DESIGN CHOICE (log 9). -/
def State.hostGet (s : State) (bus : Nat) : Byte :=
  match s.posted.find? (fun w => w.2.1 == s.hostPa bus) with
  | some w => w.2.2
  | none => (Tab.get none s.hostMem (s.hostPa bus)).getD (Config.hostByte (s.hostPa bus))

/-- A byte written to host memory for a context: performed when the I/O die issues it as a posted write, which the root port
accepts later (R167, R247). The newest write comes first. -/
def State.hostPut (s : State) (cn bus : Nat) (b : Byte) : State :=
  { s with posted := (s.ctxPart cn, s.hostPa bus, b) :: s.posted }

/-- The root port accepts the n oldest writes: they reach host memory in order (R167, R247). -/
def State.rootAccept (s : State) (n : Nat) : State :=
  { s with posted := s.posted.take (s.posted.length - n),
           hostMem := ((s.posted.drop (s.posted.length - n)).reverse).foldl (fun t w => Tab.put none t w.2.1 (some w.2.2)) s.hostMem }

/-- Consecutive bytes. -/
def State.memBytes (s : State) (pa n : Nat) : List Byte := (List.range n).map (fun k => s.memGet (pa + k))
def State.memPutBytes (s : State) (pa : Nat) : List Byte → State
  | [] => s
  | b :: bs => (s.memPut pa b).memPutBytes (pa + 1) bs

/-- The page size of a PSIZE code (R142). -/
def pageBytes (psize : Nat) : Nat :=
  match psize with
  | 0 => 2 ^ 16
  | 1 => 2 ^ 21
  | _ => 2 ^ 30

/-- The mapping that covers a virtual address (R121, R122). -/
def mapFind (maps : List Mapping) (va : Nat) : Option Mapping :=
  maps.find? (fun m => decide (m.va ≤ va) && decide (va < m.va + m.pages * m.psize))

/-- The page of a mapping that holds an address. -/
def Mapping.page (m : Mapping) (va : Nat) : Nat := m.va + (va - m.va) / m.psize * m.psize

/-- The device or bus address that a mapping gives (R121). -/
def Mapping.phys (m : Mapping) (va : Nat) : Nat := m.target + (va - m.va)

/-- A present page: a DEMAND page exists once the service has mapped it (R138, R139). DEDUCED (log 57). -/
def Ctx.present (c : Ctx) (m : Mapping) (va : Nat) : Bool := !m.demand || c.resident.contains (m.page va)

/-- Firmware takes an access of its own in hand: it is performed after those before it (R151). DEDUCED (log 24). -/
def State.post (s : State) (a : FwAccess) : State := { s with fwOut := s.fwOut ++ [a] }

/-- Bytes stored by firmware at a virtual address of a context, when its home serves them. -/
def fwStore (cn va : Nat) (bs : List Byte) (s : State) : State := s.post (.store .firmware cn va bs)

/-! ## Link nonces (R243) -/

/-- The nonce counters of a link: flits received, and flits sent. -/
def State.linkCounts (s : State) (l : Link) : Nat × Nat :=
  ((s.nonces.find? (fun n => n.1 == l)).map (fun n => n.2)).getD (0, 0)

/-- New keys for a link, whose counters start anew (R243). -/
def State.rotateKeys (s : State) (l : Link) : State :=
  let n := ((s.keyEpoch.find? (fun k => k.1 == l)).map (fun k => k.2)).getD 0
  { s with keyEpoch := s.keyEpoch.filter (fun k => k.1 != l) ++ [(l, n + 1)],
           nonces := s.nonces.filter (fun k => k.1 != l) }

/-- A flit passes a link, received or sent: the 96-bit nonce counter of its direction advances, under new keys where it would
wrap (R243). -/
def State.countFlit (s : State) (l : Link) (received : Bool) : State :=
  let next (n : Nat × Nat) : Nat × Nat := if received then (n.1 + 1, n.2) else (n.1, n.2 + 1)
  let full : Bool := decide (2 ^ 96 ≤ (next (s.linkCounts l)).1) || decide (2 ^ 96 ≤ (next (s.linkCounts l)).2)
  let s := if full then s.rotateKeys l else s
  { s with nonces := s.nonces.filter (fun n => n.1 != l) ++ [(l, next (s.linkCounts l))] }

/-! ## Emulation routines and services in progress (R84, R234) -/

/-- The accesses that the routine or service of a split has performed so far. -/
def State.routineAt (s : State) (gi si : Nat) : Nat :=
  ((s.routines.find? (fun r => r.1 == gi && r.2.1 == si)).map (fun r => r.2.2)).getD 0

def State.setRoutine (s : State) (gi si n : Nat) : State :=
  let rest := s.routines.filter (fun r => !(r.1 == gi && r.2.1 == si))
  { s with routines := if n = 0 then rest else rest ++ [(gi, si, n)] }

/-! ## Trap records (R231) -/

/-- The 32 bytes of a record. -/
def TrapRec.bytes (r : TrapRec) : List Byte :=
  bytesLE 1 (causeCode r.cause) ++ [r.split] ++ bytesLE 2 r.mask.toNat ++ bytesLE 4 r.group.toNat ++ bytesLE 4 r.block.toNat ++
    bytesLE 4 r.seq.toNat ++ bytesLE 8 r.pc.toNat ++ bytesLE 8 r.aux.toNat

/-- Records that stand in the ring. DEDUCED (log 56). -/
def Ctx.inRing (c : Ctx) : Nat := c.tail - c.head

/-- Records that wait move into free places of the ring, in order, each once the cycle of its trap has ended, as the records of
one cycle have an order of their own; a killed context takes no more traps. `n` bounds the walk by their number.
DEDUCED (log 25). -/
def flushTraps (cn : Nat) : Nat → State → State
  | 0, s => s
  | n + 1, s =>
    match s.ctx? cn with
    | none => s
    | some c =>
      match c.traps[c.inRing]? with
      | none => s
      | some r =>
        if 256 ≤ c.inRing ∨ (r.cycle = s.cycle.toNat ∧ c.state ≠ .killed) then s
        else
          let s := fwStore cn (c.trapq.toNat + 32 * (c.tail % 256)) r.bytes s
          let s := s.modCtx cn (fun c => { c with tail := c.tail + 1 })
          let s := if r.cause = .svc then s else s.post (.vector cn)
          flushTraps cn n s

/-- A record goes before another: an earlier cycle, or the same one and a lower place in its order. -/
def TrapRec.before (a b : TrapRec) : Bool := decide (a.cycle < b.cycle) || (a.cycle == b.cycle && decide (a.order < b.order))

/-- The records with a further one: the traps of one cycle stand in their order, and sequence numbers ascend with the places
(R231), which does not say from which number: the first record of a context has 0. DESIGN CHOICE (log 105). -/
def Ctx.withTrap (c : Ctx) (r : TrapRec) : List TrapRec :=
  let first := c.traps.takeWhile (fun q => !r.before q)
  first ++ ((r :: c.traps.drop first.length).zipIdx first.length).map (fun x =>
    { x.1 with seq := BitVec.ofNat 32 (c.head + x.2) })

/-- A record appended to the context's trap queue. DEDUCED (log 25). -/
def appendRecord (cn : Nat) (r : TrapRec) (s : State) : State :=
  s.modCtx cn (fun c => { c with traps := c.withTrap { r with cycle := s.cycle.toNat } })

/-- The place of a split in the order of the traps of one cycle: core, quarter, group slot and split (R231).
DEDUCED (log 25). -/
def trapOrder (g : Group) (si : Nat) : Nat := (((g.die * 20 + g.core) * 4 + g.quarter) * 64 + g.place.k) * 16 + si

/-- The place behind every split. -/
def lastOrder : Nat := 2 ^ 32

/-- A kill subcode's final record, and every other record that concerns no split (R231). -/
def splitlessRecord (c : Cause) (pc aux : DWord) : TrapRec :=
  { cause := c, split := 0xFF, mask := 0, group := 0xFFFFFFFF, block := 0xFFFFFFFF, seq := 0, pc := pc, aux := aux,
    consumed := false, cycle := 0, order := lastOrder }

/-! ## Taking a trap and returning from it (R230 to R232) -/

/-- A handler that faults stops; its cause enters the request's summary (R190). What it waited for is abandoned, and what
it has issued is still performed. Its registers go with it (R56). The flags that it has raised are discarded: R190 ORs a
handler's flags into the group's when it ends, and does not speak of one that stops. DEDUCED (log 75). DESIGN CHOICE (log 103). -/
def stopHandler (h : HandlerId) (gi : Nat) (c : Cause) (aux : DWord) (s : State) : State :=
  let s : State := { s with acc := s.acc.map (fun (a : Access) =>
    if a.group = gi then { a with lanes := a.lanes.filter (fun (l : LaneAcc) => l.stage != .waitingEmpty && l.stage != .parked) }
    else a) }
  let s := s.modGroup gi (fun g => { g with splits := [], retired := true, stream := none, ended := g.present, vec := [], uni := [], pred := [] })
  s.modEngine h.op (fun o =>
    { o with bursts := o.bursts.map (fun b =>
        if b.seq = h.seq then { b with ended := true, fault := some (c, aux) } else b) })

/-- A split takes a trap at its program counter: it enters TRAPPED and gives up its live place, and a record is
appended. `mask` holds the lanes that the trap concerns, `pend` the unfinished lanes of a partly performed
instruction (R130, R139). In a handler the handler stops instead. DEDUCED (log 25, 75). -/
def takeTrap (gi si : Nat) (c : Cause) (aux : DWord) (mask pend : LaneMask) (s : State) : State :=
  match s.group? gi with
  | none => s
  | some g =>
    match g.handler with
    | some h => stopHandler h gi c aux s
    | none =>
      match g.split? si with
      | none => s
      | some p =>
        let s := s.modSplit gi si (fun p =>
          { p with run := .trapped, cause := some c, pend := pend, wait := .none, age := 0, reserved := false })
        appendRecord (s.groupCtx g)
          { cause := c, split := BitVec.ofNat 8 si, mask := mask, group := g.groupId,
            block := BitVec.ofNat 32 (((s.block? g.block).map (fun b => b.lin)).getD 0), seq := 0, pc := p.pc, aux := aux,
            consumed := false, cycle := 0, order := trapOrder g si } s

/-- The return of a trapped split: it is dormant, youngest of its group, at an address, with the unfinished mask
that the action leaves (R25, R232). -/
def untrap (gi si : Nat) (pc : DWord) (pend : LaneMask) (s : State) : State :=
  s.modGroup gi (fun g => g.modSplit si (fun p =>
    { p with run := .dormant, cause := none, pc := pc, pend := pend, wait := .none, order := nextOrder g.splits }))

/-! ## The skeleton of an instruction -/

/-- What an executing instruction knows: its group and split, the lanes of E (R72) and its size. -/
structure Issue where
  gi : Nat
  si : Nat
  g : Group
  sp : Split
  e : LaneMask
  size : Nat
  word0 : Word

/-- Lanes of E that are no helpers (R23). -/
def Issue.real (k : Issue) : LaneMask := k.e &&& ~~~k.g.helpers

/-- The address of the next instruction. -/
def Issue.nextPc (k : Issue) : DWord := k.sp.pc + BitVec.ofNat 64 k.size

/-- E of a guard: the active lanes where it holds, or the unfinished lanes of an instruction that executes again
after a partial performance (R72, R232). -/
def guardLanes (g : Group) (p : Split) (gd : Guard) : LaneMask :=
  if p.pend ≠ 0 then p.pend
  else p.mask &&& (if gd.pn then ~~~(g.pget gd.pg.toNat) else g.pget gd.pg.toNat)

/-- The allocation of a register file (R52, R53, R55). -/
def Group.limit (g : Group) : RegFile → Nat
  | .vec => min g.nv 256
  | .uni => g.ns
  | .pred => 16
  | .tile => g.nt
  | .acc => g.na

/-- Step 4 of R81: every register that the instruction names is allocated. -/
def limitsOk (g : Group) (i : Instr) : Bool :=
  i.opnds.all (fun o => decide (o.first + o.count ≤ g.limit o.file))

/-- The issuing split moves past the instruction. -/
def advance (k : Issue) (s : State) : State := s.modSplit k.gi k.si (fun p => p.goto k.nextPc)

/-- The unfinished lanes of an instruction of which others have been performed; none where no lane has been. -/
def Issue.left (k : Issue) : LaneMask :=
  if guardLanes k.g { k.sp with pend := 0 } (guardOf k.word0) &&& ~~~k.sp.pend &&& ~~~k.g.helpers = 0 then 0 else k.sp.pend

/-- The trap of an instruction, with no further lane performed: lanes that an earlier execution has performed stay so (R230,
R232). -/
def trapAt (k : Issue) (c : Cause) (aux : DWord) (mask : LaneMask) (s : State) : State :=
  takeTrap k.gi k.si c aux (mask &&& ~~~k.g.helpers) k.left s

/-- The same, but the recorded mask of a PF is E of a RETRY (R232). -/
def trapRead (k : Issue) (c : Cause) (aux : DWord) (s : State) : State :=
  if c = .pf then takeTrap k.gi k.si .pf aux k.real k.real s else trapAt k c aux k.e s

/-- OPR and ILL carry word 0 (R229). -/
def trapWord (k : Issue) (c : Cause) (s : State) : State := trapAt k c (0#32 ++ k.word0) k.e s

/-- An instruction of the issuing split: the register limits are checked before the guard (R81); then the body runs
on the lanes of E. With no issuer nothing happens. -/
def runInstr (i : Instr) (gd : Guard) (body : Issue → State → State) (s : State) : Host.Outcome State Fault Refusal :=
  .next (match s.issuer? with
    | none => s
    | some (g, p) =>
      let k : Issue := { gi := s.curG, si := s.curS, g := g, sp := p, e := guardLanes g p gd, size := sizeOf i,
                         word0 := word0 i }
      if limitsOk g i then body k s else trapWord { k with e := p.mask } .opr s)

end Sys2Proof.Machine
end

