-- ==== Sys2Proof/Machine/Flags.lean ====
section
/-! DEFINITION. Sticky flags and the arm mask: how instructions raise, merge, read and check them (R111 to R113). -/

namespace Sys2Proof.Machine

open Sys2Proof

/-- Flags of a group raised by an instruction: a uniform instruction completes in its one cycle, a vector
instruction at its lane 15 write-back, 16 cycles after its issue (R34, R112). -/
def Group.raise (g : Group) (uni : Bool) (now : Nat) (fl : FlagBits) : Group :=
  if fl = 0 then g
  else if uni then { g with flags := g.flags ||| fl }
  else { g with inflight := g.inflight ++ [{ due := now + 16, bits := fl, read := none }] }

/-- A scoreboard operation of the group has ended (R25). -/
def Group.release (g : Group) (op : Nat) : Group :=
  { g with splits := g.splits.map (fun p => { p with holds := p.holds.filter (fun h => h.op != op) }) }

/-- One completion: its flags merge, then its read is made (R112, R313). A lane that has ended takes none: the registers of a
handler that has stopped stay cleared (R56, R65). DEDUCED (log 55). -/
def Group.complete (clk time : DWord) (g : Group) (m : FlagMerge) : Group :=
  let g := { g with flags := g.flags ||| m.bits }
  match m.read with
  | none => g
  | some r =>
    let e := r.lanes &&& ~~~g.ended
    let g := match r.kind with
      | .flags => g.vsetLanes false r.reg e (fun _ => 0#58 ++ g.flags)
      | .arm => g.vsetLanes false r.reg e (fun _ => 0#58 ++ g.arm)
      | .clk => g.vsetLanes true r.reg e (fun _ => clk)
      | .time => g.vsetLanes true r.reg e (fun _ => time)
    g.release r.op

/-- The completions whose cycle has come, in order (R112). DEDUCED (log 55). -/
def Group.mergeDue (now : Nat) (clk time : DWord) (g : Group) : Group :=
  (g.inflight.filter (fun m => decide (m.due ≤ now))).foldl (Group.complete clk time)
    { g with inflight := g.inflight.filter (fun m => !decide (m.due ≤ now)) }

/-- Every earlier vector and uniform instruction's flags merged: what FLAGS, BAR, CBAR and EXIT wait for (R113,
R313). -/
def Group.mergeAll (g : Group) : Group :=
  { g with flags := g.inflight.foldl (fun f m => f ||| m.bits) g.flags,
           inflight := (g.inflight.filter (fun m => m.read.isSome)).map (fun m => { m with bits := 0 }) }

/-- Armed flags that are set (R113). -/
def Group.armed (g : Group) : FlagBits := g.mergeAll.flags &&& g.arm

/-- The flags of one operation over lanes: only lanes of E that are no helpers set flags (R23, R111). -/
def lanesFlags (real : LaneMask) (f : Nat → FlagBits) : FlagBits := (lanesOf real).foldl (fun b L => b ||| f L) 0

end Sys2Proof.Machine
end

