-- ==== Sys2Proof/Machine/Num.lean ====
section
/-! DEFINITION. Number formats, exact values, rounding, saturation and the arithmetic of single elements (R103 to
R110, R308, R312, R314). Values are exact integers times powers of two; each result is rounded once. -/

namespace Sys2Proof.Num

open Sys2Proof

/-! ## Flags -/

def flSat : FlagBits := 0x01#6
def flInv : FlagBits := 0x02#6
def flDz : FlagBits := 0x04#6
def flGuf : FlagBits := 0x08#6
def flTrn : FlagBits := 0x10#6
def flIov : FlagBits := 0x20#6

/-- The flag when the condition holds. -/
def flagIf (c : Bool) (f : FlagBits) : FlagBits := if c then f else 0#6

/-! ## Formats -/

/-- How a format uses its largest exponent field (R103). -/
inductive Top where
  | ieee | e4m3 | finite
deriving DecidableEq, Repr

/-- A floating-point format (R103): exponent and fraction widths, bias, and the use of the top exponent. -/
structure Fmt where
  ew : Nat
  fw : Nat
  bias : Nat
  top : Top
deriving DecidableEq, Repr

def f64 : Fmt := ⟨11, 52, 1023, .ieee⟩
def f32 : Fmt := ⟨8, 23, 127, .ieee⟩
def f16 : Fmt := ⟨5, 10, 15, .ieee⟩
def bf16 : Fmt := ⟨8, 7, 127, .ieee⟩
def e4m3 : Fmt := ⟨4, 3, 7, .e4m3⟩
def e5m2 : Fmt := ⟨5, 2, 15, .ieee⟩
def e2m1 : Fmt := ⟨2, 1, 1, .finite⟩

/-- Bits of a code. -/
def Fmt.width (f : Fmt) : Nat := 1 + f.ew + f.fw

/-- The exponent of the unit in the last place of subnormals. -/
def Fmt.emin (f : Fmt) : Int := 1 - (f.bias : Int) - (f.fw : Int)

/-- The canonical NaN (R106); +0 for a format without one. -/
def Fmt.nan (f : Fmt) : Nat :=
  match f.top with
  | .ieee => (2 ^ f.ew - 1) * 2 ^ f.fw + 2 ^ (f.fw - 1)
  | .e4m3 => 0x7F
  | .finite => 0

/-- The largest finite value as significand and exponent (R103). -/
def Fmt.maxM (f : Fmt) : Nat :=
  match f.top with
  | .ieee => 2 ^ (f.fw + 1) - 1
  | .e4m3 => 14
  | .finite => 3
def Fmt.maxE (f : Fmt) : Int :=
  match f.top with
  | .ieee => (2 ^ f.ew : Int) - 2 - f.bias - f.fw
  | .e4m3 => 5
  | .finite => 1

/-- The element format of a float type code (R77). -/
def ofTy : Ty → Fmt
  | .f64 => f64 | .bf16x2 => bf16 | .f16x2 => f16 | .e4m3x4 => e4m3 | .e5m2x4 => e5m2 | .e2m1x8 => e2m1
  | _ => f32

/-! ## Exact values -/

/-- A decoded value: a NaN (signalling or quiet), an infinity, or (-1)^neg × m × 2^e with the sign of zero kept. -/
inductive Val where
  | nan (signalling : Bool)
  | inf (neg : Bool)
  | fin (neg : Bool) (m : Nat) (e : Int)
deriving DecidableEq, Repr

/-- The value of a code (R103, R106). -/
def dec (f : Fmt) (bits : Nat) : Val :=
  let frac := bits % 2 ^ f.fw
  let ex := bits / 2 ^ f.fw % 2 ^ f.ew
  let neg := bits / 2 ^ (f.fw + f.ew) % 2 == 1
  let normal := Val.fin neg (2 ^ f.fw + frac) ((ex : Int) - f.bias - f.fw)
  if ex = 0 then .fin neg frac f.emin
  else match f.top with
    | .ieee =>
      if ex = 2 ^ f.ew - 1 then
        (if frac = 0 then .inf neg else .nan (decide (16 ≤ f.width) && decide (frac < 2 ^ (f.fw - 1))))
      else normal
    | .e4m3 => if ex = 15 ∧ frac = 7 then .nan false else normal
    | .finite => normal

def Val.isNan : Val → Bool
  | .nan _ => true
  | _ => false
def Val.isSig : Val → Bool
  | .nan s => s
  | _ => false
def Val.isInf : Val → Bool
  | .inf _ => true
  | _ => false
def Val.isZero : Val → Bool
  | .fin _ 0 _ => true
  | _ => false
def Val.neg : Val → Val
  | .nan s => .nan s
  | .inf n => .inf (!n)
  | .fin n m e => .fin (!n) m e
def Val.absV : Val → Val
  | .nan s => .nan s
  | .inf _ => .inf false
  | .fin _ m e => .fin false m e
def Val.sign : Val → Bool
  | .nan _ => false
  | .inf n => n
  | .fin n _ _ => n
def zero (neg : Bool) : Val := .fin neg 0 0
def one : Val := .fin false 1 0

/-- Two exponents' significands at the lower exponent. -/
def align (m1 : Nat) (e1 : Int) (m2 : Nat) (e2 : Int) : Nat × Nat × Int :=
  let e := min e1 e2
  (m1 * 2 ^ (e1 - e).toNat, m2 * 2 ^ (e2 - e).toNat, e)

/-- m1 × 2^e1 ≤ m2 × 2^e2. -/
def leMag (m1 : Nat) (e1 : Int) (m2 : Nat) (e2 : Int) : Bool :=
  let (a, b, _) := align m1 e1 m2 e2
  decide (a ≤ b)

/-- A signed significand as a value; an exact zero takes the given sign. -/
def ofInt (s : Int) (e : Int) (zeroNeg : Bool) : Val :=
  if s = 0 then zero zeroNeg else .fin (decide (s < 0)) s.natAbs e

def signed (neg : Bool) (m : Nat) : Int := if neg then -(m : Int) else m

/-- The exact sum (R107 for the sign of zero) and whether it is ∞ − ∞ (R111). -/
def addV (rm : Rm) (a b : Val) : Val × Bool :=
  match a, b with
  | .nan _, _ => (.nan false, false)
  | _, .nan _ => (.nan false, false)
  | .inf n1, .inf n2 => if n1 = n2 then (.inf n1, false) else (.nan false, true)
  | .inf n, .fin _ _ _ => (.inf n, false)
  | .fin _ _ _, .inf n => (.inf n, false)
  | .fin n1 m1 e1, .fin n2 m2 e2 =>
    let (x, y, e) := align m1 e1 m2 e2
    (ofInt (signed n1 x + signed n2 y) e (if n1 = n2 then n1 else decide (rm = .rdn)), false)

/-- The exact product and whether it is 0 × ∞ (R111). -/
def mulV (a b : Val) : Val × Bool :=
  match a, b with
  | .inf n1, .inf n2 => (.inf (n1 != n2), false)
  | .inf n1, .fin n2 m _ => if m = 0 then (.nan false, true) else (.inf (n1 != n2), false)
  | .fin n1 m _, .inf n2 => if m = 0 then (.nan false, true) else (.inf (n1 != n2), false)
  | .fin n1 m1 e1, .fin n2 m2 e2 => (.fin (n1 != n2) (m1 * m2) (e1 + e2), false)
  | .nan _, _ => (.nan false, false)
  | _, .nan _ => (.nan false, false)

/-- a < b for values that are no NaN; zeros are equal. -/
def ltV (a b : Val) : Bool :=
  match a, b with
  | .inf n1, .inf n2 => n1 && !n2
  | .inf n, .fin _ _ _ => n
  | .fin _ _ _, .inf n => !n
  | .fin n1 m1 e1, .fin n2 m2 e2 =>
    let (x, y, _) := align m1 e1 m2 e2
    decide (signed n1 x < signed n2 y)
  | _, _ => false

/-- The order of FMAX and FMIN, with −0 below +0 (R314). -/
def leTotal (a b : Val) : Bool :=
  if ltV a b then true else if ltV b a then false else a.sign || !b.sign

/-! ## Rounding -/

/-- Whether a discarded part rounds the magnitude up: `rem` of `den`, the kept integer `q` (R108). -/
def roundsUp (rm : Rm) (neg : Bool) (q rem den : Nat) : Bool :=
  match rm with
  | .rne => decide (den < 2 * rem) || (decide (2 * rem = den) && q % 2 == 1)
  | .rtz => false
  | .rdn => neg && decide (rem ≠ 0)
  | .rup => !neg && decide (rem ≠ 0)

/-- m × 2^e rounded to a multiple of 2^qe, as that multiple. -/
def quantize (rm : Rm) (neg : Bool) (m : Nat) (e qe : Int) : Nat :=
  if qe ≤ e then m * 2 ^ (e - qe).toNat
  else
    let den := 2 ^ (qe - e).toNat
    let q := m / den
    if roundsUp rm neg q (m % den) den then q + 1 else q

/-- Rounding to the format's precision with the exponent unbounded above (R109): significand and exponent. -/
def roundUnbounded (f : Fmt) (rm : Rm) (neg : Bool) (m : Nat) (e : Int) : Nat × Int :=
  let qe := max ((Nat.log2 m : Int) + e - f.fw) f.emin
  (quantize rm neg m e qe, qe)

/-- The code of a rounded finite value that does not overflow. -/
def codeOf (f : Fmt) (neg : Bool) (q : Nat) (qe : Int) : Nat :=
  let s := if neg then 2 ^ (f.ew + f.fw) else 0
  if q < 2 ^ f.fw then s + q
  else
    let (q, qe) := if q = 2 ^ (f.fw + 1) then (2 ^ f.fw, qe + 1) else (q, qe)
    s + (qe + f.fw + f.bias).toNat * 2 ^ f.fw + (q - 2 ^ f.fw)

def maxCode (f : Fmt) (neg : Bool) : Nat := codeOf f neg f.maxM f.maxE

/-- An infinite result: for E4M3 the NaN of its sign with INV (R108). -/
def infCode (f : Fmt) (neg : Bool) : Nat × FlagBits :=
  let s := if neg then 2 ^ (f.ew + f.fw) else 0
  match f.top with
  | .ieee => (s + (2 ^ f.ew - 1) * 2 ^ f.fw, 0)
  | .e4m3 => (s + 0x7F, flInv)
  | .finite => (maxCode f neg, flSat)

/-- A result that overflowed after rounding, by mode (R108). -/
def overflow (f : Fmt) (rm : Rm) (neg : Bool) : Nat × FlagBits :=
  match rm with
  | .rne => infCode f neg
  | .rtz => (maxCode f neg, 0)
  | .rdn => if neg then infCode f neg else (maxCode f neg, 0)
  | .rup => if neg then (maxCode f neg, 0) else infCode f neg

/-- Round(x, fmt, rm): the code and the flags of R108. -/
def round (f : Fmt) (rm : Rm) (v : Val) : Nat × FlagBits :=
  match v with
  | .nan _ => (f.nan, 0)
  | .inf n => infCode f n
  | .fin n 0 _ => (codeOf f n 0 0, 0)
  | .fin n m e =>
    let (q, qe) := roundUnbounded f rm n m e
    if leMag q qe f.maxM f.maxE then (codeOf f n q qe, 0) else overflow f rm n

/-- The clamp magnitude of NarrowSat for a bound (R109). -/
def clampMag (f : Fmt) (bound : Val) : Nat × Int :=
  match bound with
  | .fin _ m e =>
    if m ≠ 0 ∧ leMag f.maxM f.maxE m e = false then roundUnbounded f .rtz false m e else (f.maxM, f.maxE)
  | _ => (f.maxM, f.maxE)

/-- NarrowSat(x, fmt, rm, b) (R109). -/
def narrowSat (f : Fmt) (rm : Rm) (bound : Val) (v : Val) : Nat × FlagBits :=
  let (cm, ce) := clampMag f bound
  match v with
  | .nan _ => match f.top with
    | .finite => (0, flInv)
    | _ => (f.nan, 0)
  | .inf n => (codeOf f n cm ce, flSat)
  | .fin n 0 _ => (codeOf f n 0 0, 0)
  | .fin n m e =>
    let (q, qe) := roundUnbounded f rm n m e
    if leMag q qe cm ce then (codeOf f n q qe, 0) else (codeOf f n cm ce, flSat)

/-- Bound 0: the format's maximum (R109). -/
def noBound : Val := zero false

/-- The final step of a float instruction: NarrowSat under SAT, otherwise Round (R308). -/
def finish (f : Fmt) (rm : Rm) (sat : Bool) (v : Val) : Nat × FlagBits :=
  if sat then narrowSat f rm noBound v else round f rm v

/-! ## Elements of registers -/

/-- Element i of width w. -/
def elem (w : Nat) (v : DWord) (i : Nat) : Nat := v.toNat / 2 ^ (w * i) % 2 ^ w

/-- Elements packed from the low bits upward (R104). -/
def packElems (w : Nat) (es : List Nat) : Nat := es.foldr (fun e acc => e % 2 ^ w + 2 ^ w * acc) 0

/-- The elements of a register or pair under a type: width and count (R104, R173). -/
def tyShape : Ty → Nat × Nat
  | .s32 | .u32 | .f32 => (32, 1)
  | .s64 | .u64 | .f64 => (64, 1)
  | .s16x2 | .u16x2 | .bf16x2 | .f16x2 => (16, 2)
  | .s8x4 | .u8x4 | .e4m3x4 | .e5m2x4 => (8, 4)
  | .e2m1x8 => (4, 8)

/-- The two's complement or plain reading of an element (R104). -/
def intOf (sgn : Bool) (w n : Nat) : Int := if sgn && decide (2 ^ (w - 1) ≤ n) then (n : Int) - 2 ^ w else n

/-- The bounds of an integer element (R109). -/
def intMin (sgn : Bool) (w : Nat) : Int := if sgn then -(2 ^ (w - 1)) else 0
def intMax (sgn : Bool) (w : Nat) : Int := if sgn then 2 ^ (w - 1) - 1 else 2 ^ w - 1

/-- The low w bits. -/
def wrap (w : Nat) (x : Int) : Nat := (x % 2 ^ w).toNat

/-- An exact integer result: wrapped, or with SAT clamped with the given flag (R320, R323, R324). -/
def satInt (sat sgn : Bool) (w : Nat) (fl : FlagBits) (x : Int) : Nat × FlagBits :=
  if sat && (decide (x < intMin sgn w) || decide (intMax sgn w < x)) then
    (wrap w (if x < intMin sgn w then intMin sgn w else intMax sgn w), fl)
  else (wrap w x, 0)

/-- An operation on each element of packed operands, flags joined. -/
def mapElems (w n : Nat) (op : Nat → Nat × FlagBits) : DWord × FlagBits :=
  let rs := (List.range n).map op
  (BitVec.ofNat 64 (packElems w (rs.map (·.1))), rs.foldl (fun f r => f ||| r.2) 0)

/-! ## Float operations -/

/-- The operand modifications of VAR bits 0 to 3 (R77): absolute value of A before negation. -/
def modA (var : BitVec 9) (v : Val) : Val :=
  let v := if var.getLsbD 3 then v.absV else v
  if var.getLsbD 0 then v.neg else v
def modB (var : BitVec 9) (v : Val) : Val := if var.getLsbD 1 then v.neg else v
def modC (var : BitVec 9) (v : Val) : Val := if var.getLsbD 2 then v.neg else v

def sigInv (vs : List Val) : FlagBits := flagIf (vs.any Val.isSig) flInv

/-- a + b on values, with the INV of R111. -/
def addFlags (rm : Rm) (a b : Val) : Val × FlagBits :=
  let (v, bad) := addV rm a b
  (v, sigInv [a, b] ||| flagIf bad flInv)

def mulFlags (a b : Val) : Val × FlagBits :=
  let (v, bad) := mulV a b
  (v, sigInv [a, b] ||| flagIf bad flInv)

/-- a × b + c exactly; 0 × ∞ sets INV also when c is a NaN (R308). -/
def fmaFlags (rm : Rm) (a b c : Val) : Val × FlagBits :=
  let (p, bad1) := mulV a b
  let (v, bad2) := addV rm p c
  (v, sigInv [a, b, c] ||| flagIf (bad1 || bad2) flInv)

/-- One element of an operation of two values, rounded once. -/
def fop2 (f : Fmt) (rm : Rm) (sat : Bool) (op : Val → Val → Val × FlagBits) (a b : Val) : Nat × FlagBits :=
  let (v, fl) := op a b
  let (r, fl') := finish f rm sat v
  (r, fl ||| fl')

/-- FMAX and FMIN of two codes (R314). -/
def fminmax (isMax : Bool) (a b : Val) : Val × FlagBits :=
  let fl := sigInv [a, b]
  match a.isNan, b.isNan with
  | true, true => (.nan false, fl)
  | true, false => (b, fl)
  | false, true => (a, fl)
  | false, false => (if leTotal a b == isMax then b else a, fl)

/-- The class bit of FCLASS (R309). -/
def fclassBit (f : Fmt) (v : Val) : Nat :=
  match v with
  | .nan true => 0
  | .nan false => 1
  | .inf n => if n then 2 else 9
  | .fin n m e =>
    if m = 0 then (if n then 5 else 6)
    else if m < 2 ^ f.fw ∧ e = f.emin then (if n then 4 else 7)
    else (if n then 3 else 8)

/-- The relations of FCMP (R310): 0 eq, 1 ne, 2 lt, 3 le, 4 gt, 5 ge, 6 ordered, 7 unordered. -/
def fcmp (cc : Nat) (a b : Val) : Bool :=
  let un := a.isNan || b.isNan
  let lt := ltV a b
  let gt := ltV b a
  match cc with
  | 0 => !un && !lt && !gt
  | 1 => un || lt || gt
  | 2 => !un && lt
  | 3 => !un && !gt
  | 4 => !un && gt
  | 5 => !un && !lt
  | 6 => !un
  | _ => un

/-! ## Conversions -/

/-- A finite value rounded to an integer (R110). -/
def roundInt (rm : Rm) (neg : Bool) (m : Nat) (e : Int) : Int := signed neg (quantize rm neg m e 0)

/-- Float to integer (R110, R301): NaN gives 0, out of range the nearest bound, both with INV. -/
def toInt (rm : Rm) (sgn : Bool) (w : Nat) (v : Val) : Nat × FlagBits :=
  match v with
  | .nan _ => (0, flInv)
  | .inf n => (wrap w (if n then intMin sgn w else intMax sgn w), flInv)
  | .fin n m e =>
    let x := roundInt rm n m e
    if x < intMin sgn w then (wrap w (intMin sgn w), flInv)
    else if intMax sgn w < x then (wrap w (intMax sgn w), flInv)
    else (wrap w x, 0)

/-- An integer as a value. -/
def ofInteger (x : Int) : Val := .fin (decide (x < 0)) x.natAbs 0

/-- CVT by pair (R301). -/
def cvt (dst src : Ty) (rm : Rm) (sat : Bool) (a : DWord) : DWord × FlagBits :=
  let ws := (tyShape src).1
  let wd := (tyShape dst).1
  let bits := elem ws a 0
  let isF (t : Ty) : Bool := t == .f32 || t == .f64
  let r :=
    match isF src, isF dst with
    | false, false =>
      let x := intOf src.signed ws bits
      satInt sat dst.signed wd flSat x
    | false, true => round (ofTy dst) rm (ofInteger (intOf src.signed ws bits))
    | true, false =>
      let v := dec (ofTy src) bits
      toInt rm dst.signed wd v
    | true, true =>
      let v := dec (ofTy src) bits
      let (c, fl) := if dst == Ty.f32 then finish f32 rm sat v else round f64 rm v
      (c, fl ||| sigInv [v])
  (BitVec.ofNat 64 r.1, r.2)

/-- A value widened or narrowed to another float format under NarrowSat or Round, a signalling NaN setting INV. -/
def narrow (f : Fmt) (rm : Rm) (sat : Bool) (v : Val) : Nat × FlagBits :=
  let (c, fl) := if sat || f.top == .finite then narrowSat f rm noBound v else round f rm v
  (c, fl ||| sigInv [v])

/-! ## Reciprocal and square roots -/

/-- Bit by bit from position `k - 1` down, the largest r with r² ≤ n that extends `r`. -/
def isqrtFrom (n : Nat) : Nat → Nat → Nat
  | 0, r => r
  | k + 1, r => if (r + 2 ^ k) * (r + 2 ^ k) ≤ n then isqrtFrom n k (r + 2 ^ k) else isqrtFrom n k r

/-- ⌊√n⌋. -/
def isqrt (n : Nat) : Nat := isqrtFrom n (Nat.log2 n / 2 + 1) 0

/-- A truncated significand with its discarded part jammed into two extra low bits, so that one later rounding
sees on which side of every tie the exact value lies. -/
def jam (neg : Bool) (q : Nat) (inexact : Bool) (e : Int) : Val :=
  .fin neg (4 * q + if inexact then 1 else 0) (e - 2)

/-- 1 ÷ a of a finite nonzero value, jammed. -/
def recipV (neg : Bool) (m : Nat) (e : Int) : Val :=
  let k := Nat.log2 m + 64
  jam neg (2 ^ k / m) (decide (2 ^ k % m ≠ 0)) (-e - k)

/-- √a of a finite positive value, jammed. -/
def sqrtV (m : Nat) (e : Int) : Val :=
  let k : Nat := 128 + (e % 2).toNat
  let n := m * 2 ^ k
  let r := isqrt n
  jam false r (decide (r * r ≠ n)) ((e - k) / 2)

/-- 1 ÷ √a of a finite positive value, jammed. -/
def rsqrtV (m : Nat) (e : Int) : Val :=
  let odd := (e % 2).toNat
  let m' := m * 2 ^ odd
  let e' := e - odd
  let k := Nat.log2 m' + 66
  let r := isqrt (2 ^ (2 * k) / m')
  jam false r (decide (r * r * m' ≠ 2 ^ (2 * k))) (-(e' / 2) - k)

end Sys2Proof.Num
end

