-- ==== Sys2Proof/Machine/Operands.lean ====
section
/-! DEFINITION. Operand forms: registers and pairs of both classes, source modifiers, literals, predicates, and the
skeletons of register-only instructions (R54, R63 to R66, R72, R76). -/

namespace Sys2Proof.Machine

open Sys2Proof

/-- The source lane of lane L under a modifier (R63). -/
def srcLane (m : SrcMod) (L : Nat) : Nat :=
  match m with
  | .none => L
  | .rot g d => L - L % g.size + (L % g.size + d.toNat) % g.size
  | .bfly _ d => L ^^^ d.toNat
  | .bcast g d => L - L % g.size + d.toNat

/-- Operand A of a lane, through its modifier (R65). -/
def opA (g : Group) (x : Ext) (wide : Bool) (L : Nat) : DWord := g.rget x.aU wide x.a.toNat (srcLane x.moda L)

/-- The literal's bits that an operand uses (R76). -/
def litBits (wide : Bool) (v : DWord) : DWord := if wide then v else 0#32 ++ v.extractLsb' 0 32

/-- Operand B of a lane: register or literal. -/
def opB (g : Group) (x : Ext) (wide : Bool) (L : Nat) : DWord :=
  match x.lit with
  | some v => litBits wide v
  | none => g.rget x.bU wide x.b.toNat L

/-- Operand C of a lane. -/
def opC (g : Group) (x : Ext) (wide : Bool) (L : Nat) : DWord := g.rget x.cU wide x.c.toNat L

/-- D of a lane before the instruction writes it. -/
def opD (g : Group) (x : Ext) (wide : Bool) (L : Nat) : DWord := g.rget x.dU wide x.d.toNat L

/-- D written: each lane of E, or once when D is uniform and E is not empty (R72). -/
def writeD (x : Ext) (wide : Bool) (e : LaneMask) (f : Nat → DWord) (g : Group) : Group :=
  if x.dU then (if e = 0 then g else g.rset true wide x.d.toNat 0 (f 0)) else g.vsetLanes wide x.d.toNat e f

/-- The predicate D written in the lanes of E. -/
def writeP (x : Ext) (e : LaneMask) (f : Nat → Bool) (g : Group) : Group := g.pset (x.d.toNat % 16) e (maskOf f)

/-- The flags of a result: of every lane that is no helper, or of the one result of a uniform D unless E holds
helpers only (R23). -/
def resultFlags (k : Issue) (dU : Bool) (f : Nat → FlagBits) : FlagBits :=
  if dU then (if k.real = 0 then 0 else f 0) else lanesFlags k.real f

/-- The package cycle as a number. -/
def State.now (s : State) : Nat := s.cycle.toNat

/-- A register-only extended instruction with a result of D's class: `f` gives each lane's result and flags from
the registers before the instruction (R66); D is one register or a pair. The step of the issue writes the results that the
lanes give if nothing changes a register before they enter the pipe; a later turn that does has those lanes act again (R58).
DESIGN CHOICE (log 92). -/
def aluExt (i : Instr) (x : Ext) (wide : Bool) (f : Group → Nat → DWord × FlagBits) (s : State) :
    Host.Outcome State Fault Refusal :=
  runInstr i x.guard (fun k s =>
    advance k (s.modGroup k.gi (fun g =>
      (writeD x wide k.e (fun L => (f k.g L).1) g).raise x.dU s.now (resultFlags k x.dU (fun L => (f k.g L).2))))) s

/-- A register-only extended instruction that writes the predicate D. -/
def predExt (i : Instr) (x : Ext) (f : Group → Nat → Bool × FlagBits) (s : State) :
    Host.Outcome State Fault Refusal :=
  runInstr i x.guard (fun k s =>
    advance k (s.modGroup k.gi (fun g =>
      (writeP x k.e (fun L => (f k.g L).1) g).raise false s.now (resultFlags k false (fun L => (f k.g L).2))))) s

/-- A short-format instruction that writes one vector register, or a pair (R73). -/
def aluShort (i : Instr) (gd : Guard) (d : BitVec 8) (wide : Bool) (f : Group → Nat → DWord) (s : State) :
    Host.Outcome State Fault Refusal :=
  runInstr i gd (fun k s => advance k (s.modGroup k.gi (fun g => g.vsetLanes wide d.toNat k.e (f k.g)))) s

/-- A 32-bit result. -/
def lo32 (w : Word) : DWord := 0#32 ++ w

/-- The low word of an operand. -/
def low (v : DWord) : Word := v.extractLsb' 0 32

end Sys2Proof.Machine
end

