-- ==== Sys2Proof/Machine/Mesh.lean ====
section
/-! DEFINITION. The fixed structure of a compute die: its 32 mesh stops, the home slice and the stack of an HBM address, and
what the bridge stops face (R10 to R12). -/

namespace Sys2Proof.Machine

open Sys2Proof

/-- What stands at a stop of the mesh (R10); a bridge faces the neighbour on its side. -/
inductive Stop where
  | core (k : Nat)
  | slice (i : Nat)
  | hbm (i : Nat)
  | bridge (side : MeshPort)
deriving DecidableEq, Repr

/-- The stop map, row by row from the top, each from the left (R10). -/
def stopMap : List Stop :=
  [.core 0, .core 1, .core 2, .bridge .north, .slice 0, .core 3, .core 4, .core 5] ++
  [.hbm 0, .core 6, .core 7, .slice 1, .slice 2, .core 8, .core 9, .bridge .east] ++
  [.bridge .west, .core 10, .core 11, .slice 3, .slice 4, .core 12, .core 13, .hbm 1] ++
  [.core 14, .core 15, .core 16, .slice 5, .bridge .south, .core 17, .core 18, .core 19]

/-- The stop at column x and row y, when there is one. -/
def stopAt (x y : Nat) : Option Stop := if x < 8 ∧ y < 4 then stopMap[8 * y + x]? else none

/-- Column and row of a stop: stops are numbered along the rows. -/
def stopNo (t : Stop) : Option Nat := stopMap.findIdx? (fun u => u == t)

/-- The compute die whose HBM holds an address (R12). -/
def homeDie (pa : Nat) : Nat := pa / 2 ^ 37

/-- The slice that holds the directory and the classifier state of a granule: PA[36:12] mod 6 (R12). -/
def homeSlice (pa : Nat) : Nat := pa / 2 ^ 12 % 2 ^ 25 % 6

/-- The stack that holds a 256-byte unit: PA[8] XOR PA[13] (R12). -/
def hbmStack (pa : Nat) : Bool := (pa / 2 ^ 8 % 2 == 1) != (pa / 2 ^ 13 % 2 == 1)

/-- The home of a line or granule at an address: its die and the stop of its slice there. -/
def homeOf (pa : Nat) : Nat × Option Nat := (homeDie pa, stopNo (.slice (homeSlice pa)))

/-- A compute die that is enabled (R11, R16). -/
def enabledDie (s : State) (d : Nat) : Bool := decide (d < 9) && s.fused != some d && !s.failed.contains d

/-- A core of an enabled die: the cores, slices and HBM controllers of any other are off (R11). -/
def enabledCore (s : State) (die core : Nat) : Bool := enabledDie s die && decide (core < 20)

/-! ## Bridges (R11, R219) -/

/-- The numbers of the service dies: front end 9, I/O 10. -/
def frontDie : Nat := 9
def ioDie : Nat := 10

/-- The die that a side of a compute die faces: its neighbour in the 3 × 3 grid, the front-end die above dies 0 to 2 and
the I/O die below dies 6 to 8. -/
def facing (die : Nat) (side : MeshPort) : Option Nat :=
  match side with
  | .north => some (if die < 3 then frontDie else die - 3)
  | .south => some (if 6 ≤ die then ioDie else die + 3)
  | .west => if die % 3 = 0 then none else some (die - 1)
  | .east => if die % 3 = 2 then none else some (die + 1)
  | .local_ => none

/-- Two dies have bridge stops that face each other; a bridge stop that faces no die carries no traffic. -/
def bridged (a b : Nat) : Bool :=
  let sides : List MeshPort := [.north, .east, .south, .west]
  (decide (a < 9) && sides.any (fun p => facing a p == some b)) || (decide (b < 9) && sides.any (fun p => facing b p == some a))

end Sys2Proof.Machine
end

