-- ==== Sys2Proof/Machine/Lines.lean ====
section
/-! DEFINITION. Lines of the L1s and of the home directory, and how an access finds or brings the line that it needs
(R126, R153, R156, R170, R171). Values are kept in the single order alone; lines hold states and classes. -/

namespace Sys2Proof.Machine

open Sys2Proof

/-! ## L1 lines -/

def State.l1Find (s : State) (die core line : Nat) : Option L1Line :=
  s.l1.find? (fun l => l.die == die && l.core == core && l.line == line)

def l1State (s : State) (die core line : Nat) : Option L1State := (s.l1Find die core line).map (fun l => l.st)

/-- The line of an L1 in a state, or gone (I); it keeps the class that it carries. -/
def State.setL1 (s : State) (die core line : Nat) (st : Option L1State) (held : Option (Nat × Nat)) : State :=
  let rest := s.l1.filter (fun l => !(l.die == die && l.core == core && l.line == line))
  match st with
  | none => { s with l1 := rest }
  | some x =>
    { s with l1 := rest ++ [{ die := die, core := core, line := line, st := x,
                              cls := (s.l1Find die core line).bind (fun l => l.cls), heldForward := held }] }

/-- Lines of a 4 KiB granule. -/
def L1Line.inGranule (l : L1Line) (n : Nat) : Bool := l.line / 32 == n

/-- The class of a granule as a core last learned it with one of its lines (R153). -/
def classHeld (s : State) (die core n : Nat) : Option LineClass :=
  s.l1.findSome? (fun l => if l.die = die ∧ l.core = core ∧ l.inGranule n = true then l.cls else none)

/-- The class that a line carries for a state of its granule. -/
def GranClass.lineClass : GranClass → Option LineClass
  | .unclassified => none
  | .private_ _ _ _ => some .private_
  | .readonly => some .readonly
  | .shared => some .shared

/-- The home has answered a core: its lines of the granule carry the class. -/
def learnClass (die core n : Nat) (c : Option LineClass) (s : State) : State :=
  { s with l1 := s.l1.map (fun l => if l.die = die ∧ l.core = core ∧ l.inGranule n = true then { l with cls := c } else l) }

/-- A request or a write-back of the line is under way (R170). -/
def L1State.moving : L1State → Bool
  | .is | .im | .sm | .mi => true
  | _ => false

/-! ## The directory -/

def State.dirLine (s : State) (line : Nat) : DirLine :=
  (s.dir.find? (fun d => d.line == line)).getD
    { line := line, st := .i, owner := none, sharers := [], awaiting := [], serving := none, queue := [],
      wbHere := false, hostHolder := false, snooping := false }

def State.setDirLine (s : State) (d : DirLine) : State := { s with dir := s.dir.filter (fun e => e.line != d.line) ++ [d] }

/-- The home serves no request of the line, and no copy of it is moving. -/
def lineIdle (s : State) (line : Nat) : Bool :=
  let d := s.dirLine line
  d.serving.isNone && d.queue == [] && s.l1.all (fun l => l.line != line || !l.st.moving)

/-- Copies of a line in L1s other than one core's. -/
def otherCopies (s : State) (die core line : Nat) : List L1Line :=
  s.l1.filter (fun l => l.line == line && !(l.die == die && l.core == core))

/-- A core's copy of a line lets it perform a load or a store locally (R156). -/
def holdsFor (s : State) (die core line : Nat) (write : Bool) : Bool :=
  match l1State s die core line with
  | some .m | some .e => true
  | some .o | some .s => !write
  | _ => false

/-- Ways of an L1 set (R126). -/
def l1Ways : Nat := 16

/-- The other lines of the set of an L1 in which a line lies: 128 sets (R13, R126). -/
def l1Set (s : State) (die core line : Nat) : List L1Line :=
  s.l1.filter (fun l => l.die == die && l.core == core && l.line % 128 == line % 128 && l.line != line)

/-- The set has a way for a line: not every way waits for an answer of a home. -/
def roomFor (s : State) (die core line : Nat) : Bool :=
  decide (((l1Set s die core line).filter (fun l => l.st.moving)).length < l1Ways)

/-- An access of a core to a line can be performed now: locally, or as the home grants its request at once and the L1 has a way
for the line (R156, R171). DESIGN CHOICE (log 79). -/
def lineReady (s : State) (die core line : Nat) (write : Bool) : Bool :=
  holdsFor s die core line write || (lineIdle s line && roomFor s die core line)

/-- Where the home records a line for its copies: an owner, sharers, or none. -/
def recordCopies (line : Nat) (s : State) : State :=
  let ls := s.l1.filter (fun l => l.line == line)
  let owner := (ls.find? (fun l => l.st == .m || l.st == .e || l.st == .o)).map (fun l => (l.die, l.core))
  let sharers := (ls.filter (fun l => l.st == .s)).map (fun l => (l.die, l.core))
  let st : DirState := match owner with
    | some _ => if sharers = [] then .em else .o
    | none => if sharers = [] then .i else .s
  s.setDirLine { s.dirLine line with st := st, owner := owner, sharers := sharers }

/-- A line that enters a full set takes the place of the one that entered it first, whose data goes back to the home: 16
ways by 128 sets (R13, R126). DESIGN CHOICE (log 79). -/
def makeRoom (die core line : Nat) (s : State) : State :=
  let set := l1Set s die core line
  ((set.filter (fun l => !l.st.moving)).take (set.length + 1 - l1Ways)).foldl (fun s v =>
    recordCopies v.line { s with l1 := s.l1.filter (fun l => l != v) }) s

/-- A core brings a line into its L1 for a load, or for a store, as the home grants it: a load leaves an owner with its
data and makes the core a sharer, or the line's only holder; a store leaves no other copy. A PRIVATE granule's lines are
held without the directory (R156, R170). DESIGN CHOICE (log 79). -/
def bringLine (die core line : Nat) (write priv : Bool) (s : State) : State :=
  if holdsFor s die core line write then
    (if write then s.setL1 die core line (some .m) ((s.l1Find die core line).bind (fun l => l.heldForward)) else s)
  else
    let s := makeRoom die core line s
    let others := otherCopies s die core line
    if priv then s.setL1 die core line (some (if write then .m else .e)) none
    else if write then
      recordCopies line ({ s with l1 := s.l1.filter (fun l => l.line != line || (l.die == die && l.core == core)) }.setL1
        die core line (some .m) none)
    else
      let s : State := { s with l1 := s.l1.map (fun l => if l.line != line then l else
        match l.st with
        | .m => { l with st := .o }
        | .e => { l with st := .s }
        | _ => l) }
      recordCopies line (s.setL1 die core line (some (if others = [] then .e else .s)) none)

/-- An agent without an L1 reads or writes a line at its home: a read leaves the owner's data where it is and the line no
longer exclusive, a write leaves no copy. -/
def homeTouch (line : Nat) (write : Bool) (s : State) : State :=
  if s.l1.all (fun l => l.line != line) then s
  else if write then recordCopies line { s with l1 := s.l1.filter (fun l => l.line != line) }
  else
    recordCopies line { s with l1 := s.l1.map (fun l => if l.line != line then l else
      match l.st with
      | .m => { l with st := .o }
      | .e => { l with st := .s }
      | _ => l) }

/-- A holder core's part of a drain: its dirty lines of the granule go back to the home, and its lines take the new class
(R157 step 3). -/
def drainLines (die core n : Nat) (c : Option LineClass) (s : State) : State :=
  let mine (l : L1Line) : Bool := l.die == die && l.core == core && l.inGranule n
  let t : State := { s with l1 := s.l1.map (fun l =>
    if mine l then
      { l with cls := c, st := match l.st with
        | .m => .e
        | .o => .s
        | st => st }
    else l) }
  (t.l1.filter mine).foldl (fun t l => recordCopies l.line t) t

/-- The cores that hold lines of a granule (R150). -/
def lineHolders (s : State) (n : Nat) : List Agent :=
  ((s.l1.filter (fun l => l.inGranule n)).map (fun l => Agent.core l.die l.core)).eraseDups

/-- A granule becomes PRIVATE to a core: no other core keeps a line of it, and the core's own copies are exclusive, E or M, as
those of a PRIVATE granule are (R170). DESIGN CHOICE (log 79). -/
def dropOthers (die core n : Nat) (s : State) : State :=
  let keep := s.l1.filter (fun l => !l.inGranule n || (l.die == die && l.core == core))
  let t : State := { s with l1 := keep.map (fun l =>
    if l.inGranule n then
      { l with st := match l.st with
        | .s => .e
        | .o => .m
        | st => st }
    else l) }
  (((s.l1.filter (fun l => l.inGranule n)).map (fun l => l.line)).eraseDups).foldl (fun t line => recordCopies line t) t

end Sys2Proof.Machine
end

