-- ==== Sys2Proof/Machine/Memory.lean ====
section
/-! DEFINITION. Address spaces: translation, plain memory, the on-chip windows and the scratchpad, each byte by byte
(R121 to R128, R136 to R138, R57 to R59). -/

namespace Sys2Proof.Machine

open Sys2Proof

/-! ## Translation -/

/-- What an access needs of its page (R122). -/
inductive Need where
  | r | w | rw | x
deriving DecidableEq, Repr

/-- The outcome of a translation (R138). -/
inductive Xlat where
  | ok (sp : Space) (pa : Nat)
  | prot
  | pf
  | replay
deriving DecidableEq, Repr

def Mapping.grants (m : Mapping) : Need → Bool
  | .r => m.r
  | .w => m.w
  | .rw => m.r && m.w
  | .x => m.x

/-- Where a mapping sends an address. -/
def Mapping.space (m : Mapping) : Space := if m.host then .host else if m.window then .window else .hbm

/-- A cached translation covers an address of a context. -/
def TlbEntry.covers (t : TlbEntry) (die cn va : Nat) : Bool :=
  t.die == die && t.ctx == cn && decide (t.va ≤ va) && decide (va < t.va + t.map.psize)

/-- The cached translation that a lookup finds: in the own partition of the first level or in the walk-ahead TLB, else in the
die's second level (R136, R137). Until a log entry is applied it may be a superseded one (R143). DEDUCED (log 58). -/
def State.tlbFind (s : State) (die : Nat) (u : TlbUnit) (cn va : Nat) : Option Mapping :=
  ((s.tlb.find? (fun t => t.part == u && t.covers die cn va)).orElse (fun _ =>
    s.tlb.find? (fun t => t.part == .second && t.covers die cn va))).map (fun t => t.map)

/-- The TLB through which the lanes and the fetch of a group translate, and that of its engine operations (R136, R137). -/
def Group.lanesTlb (g : Group) : TlbUnit := .first g.core g.block
def Group.engineTlb (g : Group) : TlbUnit := .walk g.core

/-- The page of a context's control block, which firmware maps read-only (R240). -/
def State.ccbPage (s : State) (cn va : Nat) : Bool := (s.ctx? cn).any (fun c => c.ccb.toNat / 4096 == va / 4096)

/-- Translation of a virtual address through a TLB of a die; a page that denies the access is PROT, whether its frame is there
or not (R121, R138). DEDUCED (log 58). -/
def xlate (s : State) (die : Nat) (u : TlbUnit) (cn : Nat) (va : DWord) (need : Need) : Xlat :=
  if 2 ^ 57 ≤ va.toNat then .prot
  else
    let found := match s.tlbFind die u cn va.toNat with
      | some m => some (m, true)
      | none => ((s.ctx? cn).bind (fun c => (mapFind c.maps va.toNat).map (fun m => (m, c.present m va.toNat))))
    match found with
    | none => .pf
    | some (m, here) =>
      if !m.grants need || ((need == .w || need == .rw) && s.ccbPage cn va.toNat) then .prot
      else if !here then .replay
      else .ok m.space (m.phys va.toNat)

/-- An address lies inside the .text of a code object loaded into the context and is 4-byte aligned (R30, R71).
DEDUCED (log 26). -/
def Ctx.inText (c : Ctx) (pc : DWord) : Bool :=
  pc.toNat % 4 == 0 && c.texts.any (fun t => t.ready && decide (t.lo ≤ pc.toNat) && decide (pc.toNat < t.hi))

/-- A run of n bytes from an address lies inside one .text (R71). DEDUCED (log 26). -/
def Ctx.textHolds (c : Ctx) (pc n : Nat) : Bool := c.texts.any (fun t => t.ready && decide (t.lo ≤ pc) && decide (pc + n ≤ t.hi))

def State.inText (s : State) (g : Group) (pc : DWord) : Bool :=
  ((s.groupCtx? g).map (fun c => c.inText pc)).getD false

/-! ## On-chip windows (R57, R124) -/

/-- The base of the windows. -/
def windowBase : Nat := 2 ^ 46

/-- What a window byte is part of. -/
inductive WinPlace where
  | vec (gi r lane b : Nat)
  | uni (gi r b : Nat)
  | pred (gi p b : Nat)
  | zero
  | split (gi off : Nat)
  | scale (gi t off : Nat)
  | tile (gi t off : Nat)
  | acc (gi slot off : Nat)
  | carry (gi slot off : Nat)
  | spad (bi off : Nat)
  | lineState (bi line : Nat)
  | none_
deriving DecidableEq, Repr

/-- A block stands on its cores, in a context that is neither saved nor killed; the storage and the matrix entries of any
other are kept for its resume (R56, R210). -/
def onCores (s : State) (bi : Nat) : Bool :=
  (s.block? bi).any (fun b => b.cores != [] &&
    ((s.launch? b.launch).bind (fun l => s.ctx? l.ctx)).any (fun c => c.state != .saved && c.state != .killed))

/-- Blocks that stand on a core. -/
def blocksOn (s : State) (die core : Nat) : List Nat :=
  ((s.blocks.zipIdx).filter (fun (x : Block × Nat) =>
    x.1.die == die && x.1.cores.contains core && !x.1.complete && onCores s x.2)).map (fun x => x.2)

/-! ## Fills and uses of the TLBs (R13, R136, R137) -/

/-- The smallest power of two not below k. -/
def pow2Above (k : Nat) : Nat := ((List.range 9).map (fun j => 2 ^ j)).find? (fun p => decide (k ≤ p)) |>.getD 256

/-- Entries that a TLB of a die holds: 8,192, the share of a block that stands on the core, or 512 (R13, R136, R137). -/
def tlbSize (s : State) (die : Nat) : TlbUnit → Nat
  | .second => 8192
  | .first core bi =>
    let bs := blocksOn s die core
    if bs.contains bi then 256 / pow2Above bs.length else 0
  | .walk _ => 512

/-- The entries of every TLB cut to its size, the newest last: the partitions of a first level as they are drawn now, so that
a block that has left holds none (R136). -/
def tlbTrim (s : State) : List TlbEntry → List TlbEntry
  | [] => []
  | e :: rest =>
    if (rest.filter (fun t => t.die == e.die && t.part == e.part)).length < tlbSize s e.die e.part then e :: tlbTrim s rest
    else tlbTrim s rest

/-- A translation enters a TLB as its newest, and the oldest leaves a full one. -/
def tlbEnter (t : TlbEntry) (s : State) : State := { s with tlb := tlbTrim s (s.tlb ++ [t]) }

/-- A lookup in a first level: the entry that it finds becomes the partition's most recently used one, and one that the second
level holds is brought into it (R136). -/
def tlbUse (die : Nat) (u : TlbUnit) (cn va : Nat) (s : State) : State :=
  match s.tlb.find? (fun t => t.part == u && t.covers die cn va) with
  | some t => { s with tlb := s.tlb.erase t ++ [t] }
  | none =>
    match s.tlb.find? (fun t => t.part == .second && t.covers die cn va) with
    | some t => tlbEnter { t with part := u } s
    | none => s

/-- The translation of a page that a walk brings into the second level: that of the context's mapping, when the page is
present and no entry stands there (R136). -/
def tlbWalk (die cn va : Nat) (s : State) : State :=
  match s.ctx? cn with
  | none => s
  | some c =>
    match mapFind c.maps va with
    | none => s
    | some m =>
      if !c.present m va || (s.tlbFind die .second cn va).isSome || !c.bind.contains die then s
      else tlbEnter { die := die, ctx := cn, va := m.page va, map := m, part := .second } s

/-- A group is the latest in its handler slot: the slot's storage holds its registers, also once it has ended (R38). -/
def holdsSlot (s : State) (gi : Nat) (g : Group) : Bool :=
  g.handler.any (fun h => (s.groups.drop (gi + 1)).all (fun x =>
    x.block != g.block || x.handler.all (fun y => y.slot != h.slot)))

/-- The storage of a group is allocated: that of a group that has not retired, or of a handler slot of a block (R38, R56,
R59). -/
def stored (s : State) (gi : Nat) (g : Group) : Bool :=
  onCores s g.block && !(s.block? g.block).any (fun b => b.complete) && (!g.retired || holdsSlot s gi g)

/-- The group whose storage lies at a place of the context, by a test on the group. -/
def State.groupAt (s : State) (cn die core : Nat) (p : Group → Bool) : Option (Nat × Group) :=
  (s.groups.zipIdx.map (fun x => (x.2, x.1))).find? (fun x =>
    x.2.die == die && x.2.core == core && s.groupCtx x.2 == cn && stored s x.1 x.2 && p x.2)

/-- Bytes of a channel's buffer: 64 per slot, rounded up to 128 (R225). -/
def Channel.bytes (c : Channel) : Nat := (64 * c.depth + 127) / 128 * 128

/-- Bytes of the channel buffers that a block consumes, which lie in its scratchpad beyond SCRATCH (R225). -/
def chanBytes (s : State) (li lin : Nat) : Nat :=
  ((s.channels.filter (fun c => c.launch == li && c.cons == lin)).map Channel.bytes).sum

/-- The block of the context that owns a local scratchpad line of a core, with its core number in the block and its
lines on that core (R127). -/
def State.blockAt (s : State) (cn die core line : Nat) : Option (Nat × Nat × Nat) :=
  (s.blocks.zipIdx.filterMap (fun x =>
    let b := x.1
    match s.launch? b.launch with
    | none => none
    | some l =>
      if b.complete || b.die != die || l.ctx != cn || !onCores s x.2 then none
      else
        (b.cores.zip b.sbase).zipIdx.findSome? (fun y =>
          let per := (l.desc.scratch + chanBytes s b.launch b.lin + 128 * b.cores.length - 1) / 128 / b.cores.length
          if y.1.1 = core ∧ y.1.2 ≤ line ∧ line < y.1.2 + per then some (x.2, y.2, line - y.1.2) else none))).head?

/-- The storage behind a window byte for accesses of a context; `none_` where the context has no allocation
(R57, R59). DESIGN CHOICE (log 34). -/
def winPlace (s : State) (cn pa : Nat) : WinPlace :=
  let die := (pa - windowBase) / 2 ^ 36
  let core := (pa - windowBase) / 2 ^ 26 % 2 ^ 10
  let o := (pa - windowBase) % 2 ^ 26
  let at_ (p : Group → Bool) := s.groupAt cn die core p
  if o < 0x100000 then
    let q := o / 0x40000
    let p := o % 0x40000 / 0x4000
    let b := o % 0x4000
    match at_ (fun g => g.quarter == q && g.place.k % 16 == p && decide (g.place.vbase ≤ b) &&
        decide (b < g.place.vbase + g.nv * 64)) with
    | some (gi, g) => .vec gi ((b - g.place.vbase) / 64) ((b - g.place.vbase) % 64 / 4) (b % 4)
    | none => .none_
  else if o < 0x140000 then
    let q := (o - 0x100000) / 0x10000
    let b := (o - 0x100000) % 0x10000
    match at_ (fun g => g.quarter == q && decide (g.place.ubase ≤ b) && decide (b < g.place.ubase + g.ns * 4)) with
    | some (gi, g) => .uni gi ((b - g.place.ubase) / 4) (b % 4)
    | none => .none_
  else if o < 0x142000 then
    let n := (o - 0x140000) / 32
    match at_ (fun g => g.quarter * 64 + g.place.k == n) with
    | some (gi, _) => if o % 32 < 30 then .pred gi (o % 32 / 2) (o % 2) else .zero
    | none => .none_
  else if o < 0x172000 then
    let n := (o - 0x142000) / 768
    match at_ (fun g => g.quarter * 64 + g.place.k == n) with
    | some (gi, _) => .split gi ((o - 0x142000) % 768)
    | none => .none_
  else if 0x180000 ≤ o ∧ o < 0x180000 + 64 * 512 then
    let t := (o - 0x180000) / 512
    match at_ (fun g => (g.place.tiles.take g.nt).contains t) with
    | some (gi, g) => .scale gi (g.place.tiles.idxOf t) ((o - 0x180000) % 512)
    | none => .none_
  else if 0x200000 ≤ o ∧ o < 0x200000 + 64 * 0x2000 then
    let t := (o - 0x200000) / 0x2000
    match at_ (fun g => (g.place.tiles.take g.nt).contains t) with
    | some (gi, g) => .tile gi (g.place.tiles.idxOf t) ((o - 0x200000) % 0x2000)
    | none => .none_
  else if 0x400000 ≤ o ∧ o < 0x400000 + 64 * 0x4000 then
    let t := (o - 0x400000) / 0x4000
    match at_ (fun g => (g.place.accs.take g.na).contains t) with
    | some (gi, g) => .acc gi (g.place.accs.idxOf t) ((o - 0x400000) % 0x4000)
    | none => .none_
  else if 0x500000 ≤ o ∧ o < 0x500000 + 64 * 512 then
    let t := (o - 0x500000) / 512
    match at_ (fun g => (g.place.accs.take g.na).contains t) with
    | some (gi, g) => .carry gi (g.place.accs.idxOf t) ((o - 0x500000) % 512)
    | none => .none_
  else if 0x800000 ≤ o ∧ o < 0xA00000 then
    match s.blockAt cn die core ((o - 0x800000) / 128) with
    | some (bi, j, n) =>
      .spad bi ((n * ((s.block? bi).map (fun b => b.cores.length)).getD 1 + j) * 128 + o % 128)
    | none => .none_
  else if 0xA00000 ≤ o ∧ o < 0xA04000 then
    match s.blockAt cn die core (o - 0xA00000) with
    | some (bi, j, n) => .lineState bi (n * ((s.block? bi).map (fun b => b.cores.length)).getD 1 + j)
    | none => .none_
  else .none_

/-- A byte of a word. -/
def wordByte (w : Word) (b : Nat) : Byte := w.extractLsb' (8 * b) 8

/-- A word with one byte replaced. -/
def setWordByte (w : Word) (b : Nat) (v : Byte) : Word :=
  BitVec.ofNat 32 (w.toNat - w.toNat / 2 ^ (8 * b) % 256 * 2 ^ (8 * b) + v.toNat * 2 ^ (8 * b))

/-- RUN of R239. -/
def runCode : Run → Nat
  | .live => 1 | .dormant => 2 | .trapped => 3

/-- PEND of R239: the unfinished lanes of a parked or waiting instruction. An access of a split stands for every lane of its
instruction, as other waits do. -/
def pendOf (s : State) (p : Split) : LaneMask :=
  match p.wait with
  | .access id =>
    match s.access? id with
    | none => 0
    | some a =>
      match a.kind with
      | .ldu | .evsig | .evwait => if a.lanes.all (fun l => l.stage == .done) then 0 else a.cover
      | _ => maskOf (fun L => a.lanes.any (fun l => l.lane == L && l.stage != .done))
  | .none | .join | .yield _ | .replay _ | .service _ _ => p.pend
  | _ => p.act

/-- The 768 bytes of a slot's split state that the core keeps (R31, R57). -/
def splitStateBytes (s : State) (g : Group) : List Byte :=
  (List.range 16).flatMap (fun i =>
    match g.split? i with
    | none => List.replicate 20 0#8
    | some p =>
      bytesLE 8 p.pc.toNat ++ bytesLE 2 p.mask.toNat ++ bytesLE 2 (pendOf s p).toNat ++ bytesLE 1 p.depth ++
        bytesLE 1 (runCode p.run) ++ bytesLE 1 ((p.cause.map causeCode).getD 0) ++ bytesLE 1 p.joins.length ++
        bytesLE 4 p.order) ++
  (List.range 16).flatMap (fun i =>
    match (g.split? i).bind (fun p => p.joins.getLast?) with
    | none => List.replicate 12 0#8
    | some j => bytesLE 8 j.addr.toNat ++ bytesLE 2 j.lanes.toNat ++ bytesLE 2 0) ++
  (List.range 16).flatMap (fun L =>
    let st := g.rets.getD L []
    bytesLE 8 ((st.getD 0 0#64).toNat) ++ bytesLE 8 ((st.getD 1 0#64).toNat))

/-- The word of a tile, sideband, accumulator or carry table. -/
def Group.tileWord (g : Group) (t w : Nat) : Word := g.tile.get 0 (t * 2048 + w)
def Group.scaleWord (g : Group) (t w : Nat) : Word := g.scale.get 0 (t * 128 + w)
def Group.accWord (g : Group) (slot w : Nat) : Word := g.acc.get 0 (slot * 4096 + w)
/-- The carry areas of the gains' slots are not used and read zero (R204). -/
def Group.carryWord (g : Group) (slot w : Nat) : Word := if slot < 16 then g.carry.get 0 (slot * 128 + w) else 0
def Group.setTileWord (g : Group) (t w : Nat) (v : Word) : Group := { g with tile := g.tile.put 0 (t * 2048 + w) v }
def Group.setScaleWord (g : Group) (t w : Nat) (v : Word) : Group := { g with scale := g.scale.put 0 (t * 128 + w) v }
def Group.setAccWord (g : Group) (slot w : Nat) (v : Word) : Group := { g with acc := g.acc.put 0 (slot * 4096 + w) v }
def Group.setCarryWord (g : Group) (slot w : Nat) (v : Word) : Group :=
  if slot < 16 then { g with carry := g.carry.put 0 (slot * 128 + w) v } else g

/-! ## Scratchpad of a block (R127, R128) -/

def State.spadGet (s : State) (bi off : Nat) : Byte := ((s.block? bi).map (fun b => b.scratch.get 0 off)).getD 0
def State.spadPut (s : State) (bi off : Nat) (v : Byte) : State :=
  s.modBlock bi (fun b => { b with scratch := b.scratch.put 0 off v })

/-- The state byte of a block line: bit 0 FULL, bits 3:1 TAG (R128). -/
def State.lineGet (s : State) (bi line : Nat) : Byte := ((s.block? bi).map (fun b => b.lines.get 0 line)).getD 0
def State.lineFull (s : State) (bi line : Nat) : Bool := (s.lineGet bi line).getLsbD 0
def State.lineTag (s : State) (bi line : Nat) : Nat := (s.lineGet bi line).toNat / 2 % 8
/-- Bits 7:4 ignore writes. -/
def State.linePut (s : State) (bi line : Nat) (v : Byte) : State :=
  s.modBlock bi (fun b => { b with lines := b.lines.put 0 line (v &&& 0x0F#8) })
def State.lineSet (s : State) (bi line : Nat) (full : Bool) (tag : Nat) : State :=
  s.linePut bi line (BitVec.ofNat 8 ((if full then 1 else 0) + 2 * tag))

/-- SCRATCH of a block's launch (R39). -/
def State.scratchOf (s : State) (bi : Nat) : Nat :=
  (((s.block? bi).bind (fun b => s.launch? b.launch)).map (fun l => l.desc.scratch)).getD 0

/-! ## Window bytes -/

/-- The word of a register place read through the window. -/
def winGroup (s : State) (gi : Nat) (f : Group → Byte) : Byte := ((s.group? gi).map f).getD 0

/-! ### Lanes in the pipe (R34, R58) -/

/-- The lanes of a stream that have still to enter the pipe; a result of all lanes is not written before the last has. -/
def Stream.ahead (st : Stream) (now : Nat) : LaneMask :=
  maskOf (fun L => (if st.split.pend = 0 then st.split.mask else st.split.pend).getLsbD L &&
    (decide (now ≤ st.since + L) || st.kind == .combined))

/-- The instruction of a stream names a register. -/
def Stream.names (st : Stream) (f : RegFile) (r : Nat) : Bool :=
  st.ins.opnds.any (fun o => o.file == f && decide (o.first ≤ r) && decide (r < o.first + o.count))

/-- A group's registers as the lanes of its stream have still to read them. -/
def Group.streamed (g : Group) (st : Stream) : Group := { g with vec := st.vec, uni := st.uni, pred := st.pred }

/-- The word of a lane that memory shows: a lane that has not entered the pipe has not written it (R58). -/
def Group.shownWord (g : Group) (now r L : Nat) : Word :=
  match g.stream with
  | some st => if (st.ahead now).getLsbD L && st.names .vec r then (g.streamed st).vget r L else g.vget r L
  | none => g.vget r L

/-- A predicate as memory shows it (R58). -/
def Group.shownPred (g : Group) (now p : Nat) : LaneMask :=
  match g.stream with
  | some st => if st.names .pred p then ((g.streamed st).pget p &&& st.ahead now) ||| (g.pget p &&& ~~~(st.ahead now)) else g.pget p
  | none => g.pget p

/-- A window store to registers: it changes the group's and those that the lanes of a stream have still to read (R58). -/
def Group.windowStore (f : Group → Group) (g : Group) : Group :=
  match g.stream with
  | some st =>
    let t := f (g.streamed st)
    { f g with stream := some { st with vec := t.vec, uni := t.uni, pred := t.pred } }
  | none => f g

/-- A register or predicate that the lanes of a group's stream have still to read, or to write, and whose result is not formed
again: a window store to it falls after them (R58). DESIGN CHOICE (log 92). -/
def Group.streamHolds (g : Group) (now : Nat) (f : RegFile) (r : Nat) (m : LaneMask) : Bool :=
  g.stream.any (fun st => st.kind != .lanes && st.names f r && st.ahead now &&& m != 0)

/-- Some of n window bytes belong to such a register. -/
def streamHolds (s : State) (cn pa n : Nat) : Bool :=
  (List.range n).any (fun j =>
    match winPlace s cn (pa + j) with
    | .vec gi r L _ => (s.group? gi).any (fun g => g.streamHolds s.now .vec r (laneBit L))
    | .uni gi r _ => (s.group? gi).any (fun g => g.streamHolds s.now .uni r 0xFFFF)
    | .pred gi p _ => (s.group? gi).any (fun g => g.streamHolds s.now .pred p 0xFFFF)
    | _ => false)

/-- The byte at a place of core-local storage. -/
def winGetAt (s : State) (w : WinPlace) : Byte :=
  match w with
  | .vec gi r L b => winGroup s gi (fun g => wordByte (g.shownWord s.now r L) b)
  | .uni gi r b => winGroup s gi (fun g => wordByte (g.uget r) b)
  | .pred gi p b => winGroup s gi (fun g => (g.shownPred s.now p).extractLsb' (8 * b) 8)
  | .split gi off => winGroup s gi (fun g => (splitStateBytes s g).getD off 0)
  | .scale gi t off => winGroup s gi (fun g => wordByte (g.scaleWord t (off / 4)) (off % 4))
  | .tile gi t off => winGroup s gi (fun g => wordByte (g.tileWord t (off / 4)) (off % 4))
  | .acc gi t off => winGroup s gi (fun g => wordByte (g.accWord t (off / 4)) (off % 4))
  | .carry gi t off => winGroup s gi (fun g => wordByte (g.carryWord t (off / 4)) (off % 4))
  | .spad bi off => s.spadGet bi off
  | .lineState bi n => s.lineGet bi n
  | .zero | .none_ => 0

/-- A window byte read (R57, R58). DESIGN CHOICE (log 34). -/
def winGet (s : State) (cn pa : Nat) : Byte := winGetAt s (winPlace s cn pa)

/-- A byte written at a place of core-local storage; the state of splits, unused bytes and other places take none. -/
def winPutAt (s : State) (w : WinPlace) (v : Byte) : State :=
  match w with
  | .vec gi r L b => s.modGroup gi (Group.windowStore (fun g => g.vset r L (setWordByte (g.vget r L) b v)))
  | .uni gi r b => s.modGroup gi (Group.windowStore (fun g => g.uset r (setWordByte (g.uget r) b v)))
  | .pred gi p b =>
    s.modGroup gi (Group.windowStore (fun g =>
      let w := setWordByte (0#16 ++ g.pget p) b v
      g.pset p 0xFFFF (w.extractLsb' 0 16)))
  | .scale gi t off =>
    s.modGroup gi (fun g => g.setScaleWord t (off / 4) (setWordByte (g.scaleWord t (off / 4)) (off % 4) v))
  | .tile gi t off =>
    s.modGroup gi (fun g => g.setTileWord t (off / 4) (setWordByte (g.tileWord t (off / 4)) (off % 4) v))
  | .acc gi t off =>
    s.modGroup gi (fun g => g.setAccWord t (off / 4) (setWordByte (g.accWord t (off / 4)) (off % 4) v))
  | .carry gi t off =>
    s.modGroup gi (fun g => g.setCarryWord t (off / 4) (setWordByte (g.carryWord t (off / 4)) (off % 4) v))
  | .spad bi off => s.spadPut bi off v
  | .lineState bi n => s.linePut bi n v
  | .split _ _ | .zero | .none_ => s

/-- A window byte written (R57, R58, R128). -/
def winPut (s : State) (cn pa : Nat) (v : Byte) : State := winPutAt s (winPlace s cn pa) v

/-- A window address may be accessed by the context (R57, R59): loads of any allocation, stores of all but split
state. -/
def winAllowed (s : State) (cn pa : Nat) (write : Bool) : Bool :=
  match winPlace s cn pa with
  | .none_ => false
  | .split _ _ => !write
  | _ => true

/-! ## Bytes of any space -/

/-- Where the run of a store that lies in one line ends: pages begin at line boundaries. -/
def lineRun (va n : Nat) : Nat := min n (128 - va % 128)

/-- The line runs of a range: address and offset of each, ascending. -/
def lineRuns (va n : Nat) : List (Nat × Nat) :=
  ((List.range n).filter (fun k => k = 0 ∨ (va + k) % 128 = 0)).map (fun k => (va + k, k))

/-- A byte of a space; scratchpad bytes are those of block `bi`. -/
def spaceGet (s : State) (cn bi : Nat) (sp : Space) (a : Nat) : Byte :=
  match sp with
  | .hbm => s.memGet a
  | .host => s.hostGet a
  | .window => winGet s cn a
  | .scratch => s.spadGet bi a

def spacePut (s : State) (cn bi : Nat) (sp : Space) (a : Nat) (v : Byte) : State :=
  match sp with
  | .hbm => s.memPut a v
  | .host => s.hostPut cn a v
  | .window => winPut s cn a v
  | .scratch => s.spadPut bi a v

/-- n bytes as a little-endian number (R147, R148). -/
def spaceRead (s : State) (cn bi : Nat) (sp : Space) (a n : Nat) : Nat :=
  natLE ((List.range n).map (fun k => spaceGet s cn bi sp (a + k)))

def spaceWrite (s : State) (cn bi : Nat) (sp : Space) (a n v : Nat) : State :=
  ((bytesLE n v).zipIdx).foldl (fun s x => spacePut s cn bi sp (a + x.2) x.1) s

/-! ## Instruction fetch (R126, R168) -/

/-- The bytes of a sector that a core's instruction cache holds. -/
def State.icacheFind (s : State) (die core sector : Nat) : Option (List Byte) :=
  (s.icache.find? (fun e => e.die == die && e.core == core && e.sector == sector)).map (fun e => e.bytes)

/-- A byte at a physical place as the core's fetch sees it: the cached sector, which does not snoop, or memory. -/
def fetchByte (s : State) (cn die core : Nat) (sp : Space) (pa : Nat) : Byte :=
  match sp with
  | .hbm =>
    match s.icacheFind die core (pa / 32) with
    | some bs => bs.getD (pa % 32) 0
    | none => s.memGet pa
  | sp => spaceGet s cn 0 sp pa

/-- A word fetched at a virtual address with the given permission. -/
inductive Fetch where
  | word (w : Word)
  | prot
  | pf
  | replay
deriving DecidableEq, Repr

def fetchWord (s : State) (g : Group) (va : DWord) (need : Need) : Fetch :=
  match xlate s g.die g.lanesTlb (s.groupCtx g) va need with
  | .prot => .prot
  | .pf => .pf
  | .replay => .replay
  | .ok sp pa =>
    let b (k : Nat) := fetchByte s (s.groupCtx g) g.die g.core sp (pa + k)
    .word (b 3 ++ b 2 ++ b 1 ++ b 0)

end Sys2Proof.Machine
end

