-- ==== Sys2Proof/Machine/Control.lean ====
section
/-! DEFINITION. Branches, calls and returns, and how they divide a split: majors 4, 5, 28 and RET (R26, R28 to R30,
R288 to R293, R358). -/

namespace Sys2Proof.Machine

open Sys2Proof

/-! ## Sides (R26) -/

/-- Where a lane goes: its next program counter and call depth. -/
abbrev Target := DWord × Nat

/-- The rank of sides: lower program counter first, then lower depth. -/
def Target.before (a b : Target) : Bool :=
  decide (a.1.toNat < b.1.toNat) || (a.1 == b.1 && decide (a.2 < b.2))

/-- A lane joins the side of its target in a ranked list. -/
def addSide (t : Target) (L : Nat) : List (Target × LaneMask) → List (Target × LaneMask)
  | [] => [(t, laneBit L)]
  | (u, m) :: rest =>
    if t = u then (u, m ||| laneBit L) :: rest
    else if t.before u then (t, laneBit L) :: (u, m) :: rest
    else (u, m) :: addSide t L rest

/-- The sides of a mask, ranked. -/
def sides (m : LaneMask) (next : Nat → Target) : List (Target × LaneMask) :=
  (lanesOf m).foldl (fun acc L => addSide (next L) L acc) []

/-- A new split of a group: the lowest free entry, live if a live place is free, else dormant (R25, R26). -/
def addSplit (p : Split) (g : Group) : Group :=
  { g with splits := g.splits ++
      [{ p with idx := freeIdx g.splits, run := if liveCount g.splits < 4 then .live else .dormant,
                order := nextOrder g.splits }] }

/-- The lanes of the issuing split leave for their targets: the first side keeps the entry, each further one takes a
free entry with the parent's scoreboard and join records (R26). -/
def leave (k : Issue) (next : Nat → Target) (joins : List Join) (s : State) : State :=
  let side (p : Split) (t : Target × LaneMask) : Split :=
    { p.goto t.1.1 with mask := t.2, depth := t.1.2, joins := joins }
  match sides k.sp.mask next with
  | [] => s
  | first :: rest =>
    let s := s.modSplit k.gi k.si (fun p => side p first)
    s.modGroup k.gi (fun g => rest.foldl (fun g t => addSplit (side k.sp t) g) g)

/-- The join records after a branch with a join point: a ninth is not pushed (R28). -/
def pushJoin (k : Issue) (join : Option DWord) (s : State) : List Join × State :=
  match join with
  | none => (k.sp.joins, s)
  | some a =>
    if 8 ≤ k.sp.joins.length then (k.sp.joins, s)
    else (k.sp.joins ++ [{ id := s.nextId, addr := a, lanes := k.sp.mask }], { s with nextId := s.nextId + 1 })

/-- The lowest of a list of addresses. -/
def lowest (as : List DWord) : DWord := as.foldl (fun m a => if a.toNat < m.toNat then a else m) (as.headD 0)

/-- A branch of the lanes of `go` to their targets at a depth; every other active lane, and a helper that alone
would take BRT, continues behind the instruction at its old depth (R23, R288). `bad` marks the lanes whose target
gives BRT. -/
def branch (k : Issue) (go : LaneMask) (target : Nat → DWord) (depth : Nat) (bad : LaneMask) (join : Option DWord)
    (s : State) : State :=
  let real := bad &&& ~~~k.g.helpers
  if real ≠ 0 then trapAt k .brt (lowest ((lanesOf real).map target)) real s
  else
    let (joins, s) := pushJoin k join s
    leave k (fun L => if (go &&& ~~~bad).getLsbD L then (target L, depth) else (k.nextPc, k.sp.depth)) joins s

/-- The address of a signed word offset from the instruction. -/
def wordTarget (k : Issue) (off : BitVec 64) : DWord := k.sp.pc + (off <<< 2)

/-- The lanes of a mask whose target lies outside .text. -/
def outOfText (s : State) (k : Issue) (go : LaneMask) (target : Nat → DWord) : LaneMask :=
  maskOf (fun L => go.getLsbD L && !s.inText k.g (target L))

/-- BRA, BRDEC and BRA with join share one form: the lanes of `go` branch to one target (R288). -/
def branchTo (k : Issue) (go : LaneMask) (off : BitVec 64) (join : BitVec 64) (s : State) : State :=
  let t := wordTarget k off
  let bad := outOfText s k go (fun _ => t)
  let j := wordTarget k join
  if bad &&& ~~~k.g.helpers = 0 ∧ join ≠ 0 ∧ s.inText k.g j = false ∧ k.sp.mask &&& ~~~k.g.helpers ≠ 0 then
    trapAt k .brt j k.sp.mask s
  else branch k go (fun _ => t) k.sp.depth bad (if join = 0 then none else some j) s

/-- BRA (R288). -/
def execBra (gd : Guard) (off : BitVec 19) (s : State) : Host.Outcome State Fault Refusal :=
  runInstr (.bra gd off) gd (fun k s => branchTo k k.e (off.signExtend 64) 0 s) s

/-- The target and join offsets of major 28 (R78). -/
def litTarget (x : Ext) : BitVec 64 := ((x.lit.getD 0).extractLsb' 0 32).signExtend 64
def litJoin (x : Ext) : BitVec 64 := ((x.lit.getD 0).extractLsb' 32 32).signExtend 64

/-- BRA with join (R288). -/
def execBraJoin (x : Ext) (s : State) : Host.Outcome State Fault Refusal :=
  runInstr (.braJoin x) x.guard (fun k s => branchTo k k.e (litTarget x) (litJoin x) s) s

/-- Whether a decremented counter makes its lane branch (R289). -/
def brdecGoes (ty : Ty) (v : Word) : Bool := if ty = .s32 then v.slt 0 == false && v != 0 else v != 0

/-- BRDEC: the counters fall by one, unless a BRT stops the split (R289). -/
def execBrdec (x : Ext) (s : State) : Host.Outcome State Fault Refusal :=
  runInstr (.brdec x) x.guard (fun k s =>
    let v (L : Nat) : Word := low (opD k.g x false L) - 1
    let go := maskOf (fun L => k.e.getLsbD L && brdecGoes x.ty (v L))
    let s' := branchTo k go (litTarget x) (litJoin x) s
    if ((s'.group? k.gi).bind (fun g => g.split? k.si)).all (fun p => p.run == .trapped) then s'
    else s'.modGroup k.gi (writeD x false k.e (fun L => lo32 (v L)))) s

/-- The split parks at the instruction until a service has mapped a page: none of its lanes is finished (R139, R239). -/
def parkAt (k : Issue) (va : DWord) (s : State) : State :=
  s.modSplit k.gi k.si (fun p => { p with pend := k.e, wait := .replay va, age := 0, reserved := false })

/-- The fault of a table read: PROT or PF with the address, the mask of a PF recorded as unfinished, or a parked replay
(R138, R232, R291). -/
def tableFault (k : Issue) (va : DWord) (f : Fetch) (s : State) : State :=
  match f with
  | .prot => trapAt k .prot va k.e s
  | .pf => trapRead k .pf va s
  | _ => parkAt k va s

/-- The lowest address of a list with its fetch, when the list has one. -/
def lowestFetch (fs : List (DWord × Fetch)) : Option (DWord × Fetch) :=
  fs.foldl (fun (m : Option (DWord × Fetch)) x =>
    match m with
    | none => some x
    | some y => if x.1.toNat < y.1.toNat then some x else some y) none

/-- BRX: a branch of each lane of E through a table (R29, R291). Entries are read for lanes that are no helpers, and the
lowest address that fails is the fault's (R23, R229); a helper whose entry cannot be read stays behind the
instruction. -/
def brxBody (x : Ext) (k : Issue) (s : State) : State :=
  let tbl := wordTarget k (litTarget x)
  if k.e = 0 then advance k s
  else if tbl.toNat % 8 ≠ 0 then branch k k.e (fun _ => tbl) k.sp.depth k.e none s
  else
    match fetchWord s k.g tbl .r, fetchWord s k.g (tbl + 4) .r with
    | .word h, .word j =>
      if h.extractLsb' 16 16 ≠ 0 then branch k k.e (fun _ => tbl) k.sp.depth k.e none s
      else
        let n := (h.extractLsb' 0 16).toNat + 1
        let idx (L : Nat) : Word := low (opA k.g x false L)
        let inRange (L : Nat) : Bool := decide ((idx L).toNat < n)
        let entry (L : Nat) : DWord := tbl + 8 + (0#32 ++ idx L) * 4
        let reads := (lanesOf k.real).filterMap (fun L =>
          if inRange L then
            match fetchWord s k.g (entry L) .r with
            | .word _ => none
            | f => some (entry L, f)
          else none)
        match lowestFetch reads with
        | some (va, f) => tableFault k va f s
        | none =>
          let target? (L : Nat) : Option DWord :=
            match fetchWord s k.g (entry L) .r with
            | .word w => if inRange L then some (wordTarget k (w.signExtend 64)) else none
            | _ => none
          let target (L : Nat) : DWord := (target? L).getD tbl
          let bad := maskOf (fun L => k.e.getLsbD L && (target? L).all (fun t => !s.inText k.g t))
          let outside := maskOf (fun L => k.e.getLsbD L && !inRange L) &&& ~~~k.g.helpers
          let at_ := wordTarget k (j.signExtend 64)
          if bad &&& ~~~k.g.helpers = 0 ∧ j ≠ 0 ∧ s.inText k.g at_ = false ∧ k.sp.mask &&& ~~~k.g.helpers ≠ 0 then
            trapAt k .brt at_ k.sp.mask s
          else
            branch k k.e (fun L => if outside ≠ 0 ∧ bad.getLsbD L then tbl else target L) k.sp.depth bad
              (if j = 0 then none else some at_) s
    | .word _, f => if k.real = 0 then advance k s else tableFault k (tbl + 4) f s
    | f, _ => if k.real = 0 then advance k s else tableFault k tbl f s

/-- The addresses that BRX reads in its table: the header, the join, and an entry for each lane that is no helper. -/
def brxReads (x : Ext) (g : Group) (p : Split) : List DWord :=
  let tbl := p.pc + (litTarget x <<< 2)
  [tbl, tbl + 4] ++ (lanesOf (guardLanes g p x.guard &&& ~~~g.helpers)).map (fun L => tbl + 8 + (0#32 ++ (low (opA g x false L) : Word)) * 4)

def execBrx (x : Ext) (s : State) : Host.Outcome State Fault Refusal := runInstr (.brx x) x.guard (brxBody x) s

/-! ## Calls and returns (R30) -/

/-- The return address pushed onto the stacks of lanes. -/
def Group.push (g : Group) (e : LaneMask) (a : DWord) : Group :=
  { g with rets := allLanes.map (fun L => if e.getLsbD L then a :: g.rets.getD L [] else g.rets.getD L []) }

def Group.pop (g : Group) (e : LaneMask) : Group :=
  { g with rets := allLanes.map (fun L => if e.getLsbD L then (g.rets.getD L []).tail else g.rets.getD L []) }

/-- CALL and CALLX: each lane of E pushes the address behind the instruction and goes to its target at one more depth
(R292, R293). -/
def callBody (target : Issue → Nat → DWord) (k : Issue) (s : State) : State :=
  if k.e = 0 then advance k s
  else if 32 ≤ k.sp.depth then trapWord k .opr s
  else
    let bad := outOfText s k k.e (target k)
    if bad &&& ~~~k.g.helpers ≠ 0 then branch k k.e (target k) (k.sp.depth + 1) bad none s
    else branch k k.e (target k) (k.sp.depth + 1) bad none (s.modGroup k.gi (fun g => g.push (k.e &&& ~~~bad) k.nextPc))

def execCall (gd : Guard) (off : BitVec 19) (s : State) : Host.Outcome State Fault Refusal :=
  runInstr (.call gd off) gd (callBody (fun k _ => wordTarget k (off.signExtend 64))) s

def execCallx (x : Ext) (s : State) : Host.Outcome State Fault Refusal :=
  runInstr (.callx x) x.guard (callBody (fun k L => opA k.g x true L)) s

/-- RET: each lane of E pops its return address (R358). -/
def retBody (k : Issue) (s : State) : State :=
  if k.e = 0 then advance k s
  else if k.sp.depth = 0 then trapWord k .opr s
  else
    let target (L : Nat) : DWord := (k.g.rets.getD L []).headD 0
    let bad := outOfText s k k.e target
    if bad &&& ~~~k.g.helpers ≠ 0 then branch k k.e target (k.sp.depth - 1) bad none s
    else branch k k.e target (k.sp.depth - 1) bad none (s.modGroup k.gi (fun g => g.pop (k.e &&& ~~~bad)))

def execRet (gd : Guard) (s : State) : Host.Outcome State Fault Refusal := runInstr (.ret gd) gd retBody s

end Sys2Proof.Machine
end

