-- ==== Sys2Proof/Machine/Access.lean ====
section
/-! DEFINITION. Lane accesses: the classifier, reservations, the issue of an access, its performance at its place in
the single order, and the counters (R130 to R135, R139, R146 to R159, R161, R184, R185, R304, R362). -/

namespace Sys2Proof.Machine

open Sys2Proof Sys2Proof.Num

/-! ## Reservations (R161, R162) -/

/-- What names a 128-byte line among all that an access can reach: its space, the block of a scratchpad line, its number. A
window place that lies in a scratchpad is the line there. -/
abbrev LineKey := Space × Nat × Nat

def lineKey (s : State) (cn : Nat) (sp : Space) (pa : Nat) : LineKey :=
  match sp with
  | .window =>
    match winPlace s cn pa with
    | .spad bi off => (.scratch, bi, off / 128)
    | _ => (.window, 0, pa / 128)
  | sp => (sp, 0, pa / 128)

/-- The physical place of an operation's sector. -/
def EngineOp.place (s : State) (o : EngineOp) (sector : Nat) (need : Need) : Xlat :=
  let (die, u) := ((s.group? o.group).map (fun g => (g.die, g.engineTlb))).getD (0, .second)
  xlate s die u o.ctx (BitVec.ofNat 64 (32 * sector)) need

/-- The lines that an operation still reserves. DEDUCED (log 45). -/
def EngineOp.dstKeys (s : State) (o : EngineOp) : List LineKey :=
  o.resv.filterMap (fun v =>
    match o.place s (4 * v) .w with
    | .ok sp pa => some (lineKey s o.ctx sp pa)
    | _ => none) ++
  o.sresv.map (fun l => (Space.scratch, o.block, l))

/-- The source lines that it has still to read. -/
def EngineOp.srcKeys (s : State) (o : EngineOp) : List LineKey :=
  (o.reads.filter (fun v => !o.readsDone.contains v)).filterMap (fun v =>
    match o.place s v .r with
    | .ok sp pa => some (lineKey s o.ctx sp pa)
    | _ => none) ++
  (o.sreads.filter (fun v => !o.sreadsDone.contains v)).map (fun v => (Space.scratch, o.block, v / 4))

/-- Some engine operation holds a line reserved. DEDUCED (log 45). -/
def reservedKey (s : State) (key : LineKey) : Bool := s.engines.any (fun o => !o.finished && (o.dstKeys s).contains key)

/-- The names of the 32-byte sectors that an operation has still to read, as those of lines. -/
def sectorKey (s : State) (cn : Nat) (sp : Space) (pa : Nat) : LineKey :=
  match sp with
  | .window =>
    match winPlace s cn pa with
    | .spad bi off => (.scratch, bi, off / 32)
    | _ => (.window, 0, pa / 32)
  | sp => (sp, 0, pa / 32)

def EngineOp.unread (s : State) (o : EngineOp) : List LineKey :=
  (o.reads.filter (fun v => !o.readsDone.contains v)).filterMap (fun v =>
    match o.place s v .r with
    | .ok sp pa => some (sectorKey s o.ctx sp pa)
    | _ => none) ++
  (o.sreads.filter (fun v => !o.sreadsDone.contains v)).map (fun v => (Space.scratch, o.block, v))

/-- The same for a line of HBM, and for a block's scratchpad line. -/
def reserved (s : State) (line : Nat) : Bool := reservedKey s (.hbm, 0, line)
def sreserved (s : State) (bi line : Nat) : Bool := reservedKey s (.scratch, bi, line)

/-- The lines that n window bytes reach: those of the window, and the scratchpad lines of line-state bytes. -/
def windowKeys (s : State) (cn pa n : Nat) : List LineKey :=
  ((List.range n).flatMap (fun j => lineKey s cn .window (pa + j) ::
    (match winPlace s cn (pa + j) with
     | .lineState bi line => [(Space.scratch, bi, line)]
     | _ => []))).eraseDups

/-- The lines that n bytes of one line run reach. -/
def spanKeys (s : State) (cn : Nat) (sp : Space) (pa n : Nat) : List LineKey :=
  match sp with
  | .window => windowKeys s cn pa n
  | sp => [lineKey s cn sp pa]

/-- An operation reserves a line that n window bytes reach. -/
def windowReserved (s : State) (cn pa n : Nat) : Bool := (windowKeys s cn pa n).any (reservedKey s)

/-! ### The accesses that an operation can make now (R160, R161, R182) -/

/-- Events name a scratchpad sector or line from this number on, and the tile of a TSTR by the next. -/
def spadBase : Nat := 2 ^ 59
def tileCode : Nat := 2 ^ 60

/-- Another operation holds a line reserved. -/
def reservedByOther (s : State) (id : Nat) (key : LineKey) : Bool :=
  s.engines.any (fun o => o.id != id && !o.finished && (o.dstKeys s).contains key)

/-- The operation's block stands on its cores, in a context that is not saved (R193, R235). -/
def engineLive (s : State) (o : EngineOp) : Bool := !o.finished && !s.frozen && onCores s o.block

/-- The memory, scratchpad or sideband bit at which a place lies. -/
def atMem : Place → Option Nat
  | .mem b => some b
  | _ => none
def atSpad : Place → Option Nat
  | .spad b => some b
  | _ => none
def atSide : Place → Option Nat
  | .side b => some b
  | _ => none

/-- The source of a move has been read. -/
def EngineOp.moveReady (o : EngineOp) (m : Move) : Bool :=
  match m.src with
  | .mem b => o.readsDone.contains (b / 256)
  | .spad b => o.sreadsDone.contains (b / 256)
  | .tile _ | .side _ => o.readsDone.contains tileCode
  | .fill _ => true
  | .drop => false

/-- Every move into a run of bits has its source. -/
def EngineOp.runReady (o : EngineOp) (at_ : Place → Option Nat) (base n : Nat) : Bool :=
  o.moves.all (fun m => match at_ m.dst with
    | none => true
    | some b => !(decide (base ≤ b) && decide (b < base + n)) || o.moveReady m)

/-- No source sector of the operation that is still unread is the sector of a name (R182). -/
def EngineOp.sourceFree (s : State) (o : EngineOp) (key : LineKey) : Bool := !(o.unread s).contains key

/-- The operation's work may be written: its stream is known and a collective's result is formed. -/
def EngineOp.writable (o : EngineOp) : Bool :=
  o.plan.isNone && o.fault.isNone && ((o.coll.map (fun c => c.reduced)).getD true)

/-- An operation has an access to a granule of HBM to make now: whether it writes. -/
def EngineOp.waits (s : State) (o : EngineOp) (n : Nat) : Option Bool :=
  let at_ (need : Need) (v : Nat) : Bool :=
    match o.place s v need with
    | .ok .hbm pa => pa / 4096 == n && !reservedByOther s o.id (.hbm, 0, pa / 128) && (need == .r || o.sourceFree s (.hbm, 0, pa / 32))
    | _ => false
  if !engineLive s o || o.fault.isSome then none
  else if (o.reads.filter (fun v => !o.readsDone.contains v && v != tileCode)).any (at_ .r) then some false
  else if o.writable && (o.writes.filter (fun v => !o.writesDone.contains v)).any (fun v => at_ .w v && o.runReady atMem (256 * v) 256) then
    some true
  else none

/-! ## Firmware's accesses (R151) -/

/-- Where a virtual address of a context lies, whatever the permissions of its page: firmware owns the tables. The COMPL of a
command with CTX 0 is a bus address of host memory: the spec does not say in which address space it lies.
DESIGN CHOICE (log 95). -/
def fwPlace (s : State) (cn va : Nat) : Option (Space × Nat) :=
  if cn = 0 then some (.host, va)
  else ((s.ctx? cn).bind (fun c => mapFind c.maps va)).map (fun m => (m.space, m.phys va))

/-- The bytes of an access of firmware: context, virtual address, number. -/
def FwAccess.span : FwAccess → Nat × Nat × Nat
  | .store _ cn va bs => (cn, va, bs.length)
  | .load cn va n => (cn, va, n)
  | .raise cn va _ => (cn, va, 8)
  | .vector _ | .completion _ => (0, 0, 0)

def FwAccess.agent : FwAccess → Agent
  | .store a _ _ _ => a
  | _ => .firmware

def FwAccess.writes : FwAccess → Bool
  | .load _ _ _ => false
  | _ => true

/-- The HBM lines that n bytes at a virtual address touch, each by the address of its first byte there. -/
def fwLines (s : State) (cn va n : Nat) : List Nat :=
  (List.range n).filterMap (fun k =>
    match fwPlace s cn (va + k) with
    | some (.hbm, pa) => if k = 0 ∨ pa % 128 = 0 then some pa else none
    | _ => none)

/-- An access of firmware touches a granule. -/
def FwAccess.touches (s : State) (f : FwAccess) (n : Nat) : Bool :=
  (fwLines s f.span.1 f.span.2.1 f.span.2.2).any (fun pa => pa / 4096 == n)

/-- A group has retired, or a stop or a kill has been asked of its context or its block. -/
def haltAsked (s : State) (g : Group) : Bool :=
  g.retired || (s.block? g.block).any (fun b => b.stopped) ||
    !(s.groupCtx? g).any (fun c => !c.stopping && (c.state == .ready || c.state == .running))

/-! ## The classifier (R150 to R152) -/

/-- The record of the granule that holds an HBM address. -/
def State.granule (s : State) (n : Nat) : Granule :=
  (s.granules.find? (fun g => g.num == n)).getD { num := n, cls := .unclassified, holders := [], drain := none, held := [] }

/-- The granule table with one record replaced. -/
def putGranule (g : Granule) : List Granule → List Granule
  | [] => [g]
  | h :: rest => if h.num = g.num then g :: rest else if g.num < h.num then g :: h :: rest else h :: putGranule g rest

def State.setGranule (s : State) (g : Granule) : State := { s with granules := putGranule g s.granules }

/-- The transition of R152: the state after an access and whether a drain comes first. -/
def nextClass (c : GranClass) (a : Agent) (write : Bool) : GranClass × Bool :=
  match c with
  | .unclassified =>
    match a with
    | .core d k => (.private_ d k write, false)
    | _ => (if write then .shared else .readonly, false)
  | .private_ d k dirty =>
    if a = .core d k then (.private_ d k (dirty || write), false)
    else (if write || dirty then .shared else .readonly, true)
  | .readonly => if write then (.shared, true) else (.readonly, false)
  | .shared => (.shared, false)

/-- What waited at the home of a granule is still there: a lane that has not been performed, an instruction that its split
still stands at, an engine operation or firmware with an access to make there, or another agent whose access waits (R157). -/
def outstanding (s : State) (n : Nat) : Waiter → Bool
  | .lane id L => (s.access? id).any (fun a => a.lanes.any (fun l => l.lane == L && l.stage == .issued))
  | .issue gi si pc => (s.group? gi).any (fun g => !haltAsked s g &&
      (g.split? si).any (fun p => p.pc == pc && p.run != .trapped && p.wait == .none))
  | .agent (.engine id) => (s.engine? id).any (fun o => (o.waits s n).isSome) ||
      s.fwOut.head?.any (fun f => f.agent == .engine id && f.touches s n)
  | .agent (.parnar p) => s.retries.any (fun r => r.port == p)
  | .agent a => s.offers.any (fun o => o.1 == a && o.2.2 == n) || s.fwOut.head?.any (fun f => f.agent == a && f.touches s n)

/-- The held access that a home accepts next after a drain (R157 step 5). -/
def heldFirst (s : State) (g : Granule) : Option Waiter := g.held.find? (outstanding s g.num)

/-- A held access gives way to another: an engine's sector does not wait for an instruction that reads records or installs
reservations at its issue, which may itself wait for a line that the engine has reserved. DEDUCED (log 80). -/
def Waiter.yields (w who : Waiter) : Bool :=
  match w, who with
  | .issue _ _ _, .agent (.engine _) => true
  | _, _ => false

/-- No held access of a granule goes before one. -/
def turnAt (s : State) (g : Granule) (who : Waiter) : Bool := (heldFirst s g).all (fun w => w == who || w.yields who)

/-- An access that the classifier admits at once: it needs no drain, none is open that refuses it, and no held access goes
before. While a drain is open, a holder's accesses are served until it acknowledges (R157). -/
def claimOk (s : State) (who : Waiter) (a : Agent) (pa : Nat) (write : Bool) : Bool :=
  let g := s.granule (pa / 4096)
  !(nextClass g.cls a write).2 &&
  (match g.drain with
   | some d => g.holders.contains a && !d.stopped.contains a
   | none => turnAt s g who)

/-- The classifier after an admitted access (R152). -/
def claim (who : Waiter) (a : Agent) (pa : Nat) (write : Bool) (s : State) : State :=
  let g := s.granule (pa / 4096)
  let c := (nextClass g.cls a write).1
  let s := s.setGranule { g with cls := c, holders := addNew a g.holders,
                                 held := g.held.filter (fun w => w != who && outstanding s g.num w) }
  match g.cls, c with
  | .unclassified, .private_ d k _ => dropOthers d k (pa / 4096) s
  | _, _ => s

/-- The agent of an access. -/
def Access.agent (s : State) (a : Access) : Agent := ((s.group? a.group).map (groupAgent a.group)).getD .firmware

/-- Whether an access kind writes (R152). -/
def AccKind.writes : AccKind → Bool
  | .st | .atom _ | .sts | .atoms _ | .sempty | .sfill _ | .evsig => true
  | _ => false

/-! ## Order (R147, R154, R159, R201) -/

/-- The lanes in whose program order one lane access stands. -/
def Access.lanesOf (a : Access) (l : LaneAcc) : LaneMask :=
  match a.kind with
  | .ldu | .evsig | .evwait => a.cover
  | _ => laneBit l.lane

/-- The accesses that a group issued before another. -/
def earlier (s : State) (a : Access) : List Access :=
  (s.acc.takeWhile (fun b => b.id != a.id)).filter (fun b => b.group == a.group)

/-- The scratchpad lines that a lane access of some bytes reaches, by its offset or through a window: block and line (R57,
R127). -/
def bankLines (s : State) (g : Group) (bytes : Nat) (l : LaneAcc) : List (Nat × Nat) :=
  match l.space with
  | .scratch => [(g.block, l.addr / 128)]
  | .window =>
    ((List.range bytes).filterMap (fun j => match winPlace s (s.groupCtx g) (l.addr + j) with
      | .spad bi off => some (bi, off / 128)
      | .lineState bi n => some (bi, n)
      | _ => none)).eraseDups
  | _ => []

/-- The line lies on the group's own core (R127). -/
def ownBank (s : State) (g : Group) (line : Nat) : Bool :=
  ((s.block? g.block).map (fun b => b.cores.getD (line % b.cores.length) g.core == g.core)).getD true

/-- A scratchpad line of some block lies on the group's own core (R127, R159). -/
def lineHere (s : State) (g : Group) (x : Nat × Nat) : Bool :=
  (s.block? x.1).any (fun b => b.die == g.die && b.cores[x.2 % b.cores.length]? == some g.core)

/-- A lane access to a granule that is PRIVATE to its core, other than a load of a line that the core holds (R154). -/
def inPrivateOrder (s : State) (gi : Nat) (g : Group) (a : Access) (l : LaneAcc) : Bool :=
  l.space == .hbm &&
  (match (s.granule (l.addr / 4096)).cls with
   | .private_ d k _ => groupAgent gi g == .core d k && (a.kind.writes || (l1State s d k (l.addr / 128)).isNone)
   | _ => false)

/-- Of two lane accesses of a group the first holds the second back: it stands before it in the same lane's program order; or
the bank performs it on the same scratchpad line first, as those on lines of the own core arrive in issue order (R159); or both go
to granules of the core in issue order (R154). DEDUCED (log 65). -/
def laneBefore (s : State) (b : Access) (m : LaneAcc) (a : Access) (l : LaneAcc) : Bool :=
  m.stage != .done &&
    (b.lanesOf m &&& a.lanesOf l != 0 ||
      (m.stage == .issued && (s.group? a.group).any (fun g =>
        (bankLines s g a.bytes l).any (fun x => (bankLines s g b.bytes m).any (fun y =>
          x == y || (lineHere s g x && lineHere s g y))) ||
        (inPrivateOrder s a.group g a l && inPrivateOrder s a.group g b m))))

/-- Some lane of an earlier access holds a lane access back. -/
def holdsBack (s : State) (a : Access) (l : LaneAcc) (b : Access) : Bool := b.lanes.any (fun m => laneBefore s b m a l)

/-- The rows that a queued MMAG has still to gather, each with its line (R200). -/
def MatEntry.unread (m : MatEntry) : List (Nat × Nat) :=
  if m.out.isSome then [] else m.lines.filter (fun x => !m.latch.any (fun y => y.1 == x.2))

/-- A MMAG keeps its places in the orders of its group. An entry that a stop has cancelled keeps none until the stop ends, as the
accesses behind it are performed at the halt (R235). DESIGN CHOICE (log 99). -/
def MatEntry.orders (s : State) (m : MatEntry) : Bool := !(m.cancelled && (s.group? m.group).any (haltAsked s))

/-- A queued MMAG of a group has still to read a scratchpad line, so no later engine operation of the group takes it (R201). -/
def gatherWaits (s : State) (gi id line : Nat) : Bool :=
  s.matq.any (fun m => m.group == gi && decide (m.id < id) && m.orders s && m.unread.any (fun x => x.2 == line))

/-- An earlier MMAG holds a lane access back: its read of row i stands before it in the program order of lane i div 4, or on the same
scratchpad line (R147, R201). -/
def gatherHolds (s : State) (a : Access) (l : LaneAcc) : Bool :=
  s.matq.any (fun m => m.group == a.group && decide (m.id < a.id) && m.orders s && m.unread.any (fun x =>
    (a.lanesOf l).getLsbD (x.1 / 4) ||
      (s.group? a.group).any (fun g => (bankLines s g a.bytes l).contains (g.block, x.2))))

/-- The lane of an access has entered its group's pipe (R34, R58). -/
def enteredPipe (s : State) (a : Access) (l : LaneAcc) : Bool :=
  ((s.group? a.group).bind (fun g => g.stream)).all (fun st =>
    st.split.idx != a.split || st.split.pc != a.pc || !(st.ahead (s.now + 1)).getLsbD l.lane)

/-- A lane access that has gone to its home: its lane has entered the pipe, and no earlier access or gathered read of its group
holds it back. -/
def arrived? (s : State) (a : Access) (l : LaneAcc) : Bool :=
  l.stage == .issued && enteredPipe s a l && !(earlier s a).any (holdsBack s a l) && !gatherHolds s a l

/-- A line of which the host holds a copy must be called back before a device write (R166). -/
def hostHolds (s : State) (pa : Nat) : Bool := s.dir.any (fun d => d.line == pa / 128 && d.hostHolder)

/-! ## What a lane access waits for -/

/-- Nothing at the place of a lane access holds it. An LDS of an empty line only starts to wait, whatever reserves the line
(R130, R328). -/
def laneFree (s : State) (a : Access) (l : LaneAcc) : Bool :=
  match s.group? a.group with
  | none => true
  | some g =>
    match l.space with
    | .hbm =>
      !reserved s (l.addr / 128) && claimOk s (.lane a.id l.lane) (groupAgent a.group g) l.addr a.kind.writes &&
        !(a.kind.writes && hostHolds s l.addr) && lineReady s g.die g.core (l.addr / 128) a.kind.writes
    | .scratch => (a.kind == .lds && !s.lineFull g.block (l.addr / 128)) || !sreserved s g.block (l.addr / 128)
    | .window =>
      !windowReserved s (s.groupCtx g) l.addr a.bytes && !(a.kind.writes && streamHolds s (s.groupCtx g) l.addr a.bytes)
    | .host => !reservedKey s (.host, 0, l.addr / 128)

/-- A lane access can be performed now. -/
def lanePerformable (s : State) (a : Access) (l : LaneAcc) : Bool := arrived? s a l && laneFree s a l

/-- A lane access is sure to be performed, whatever else waits: it has been issued, nothing reserves its line, and in HBM its agent
is a holder of the granule, whose class so does not change before the access is performed (R157). -/
def sure (s : State) (a : Access) (l : LaneAcc) : Bool :=
  l.stage == .issued && (s.group? a.group).all (fun g =>
    match l.space with
    | .hbm =>
      !reserved s (l.addr / 128) && claimOk s (.lane a.id l.lane) (groupAgent a.group g) l.addr a.kind.writes &&
        (s.granule (l.addr / 4096)).holders.contains (groupAgent a.group g)
    | _ => laneFree s a l)

/-- Every access that a lane access stands behind, among those that its group issued before, the newest first, is sure to be
performed, and so is every one which that stands behind. -/
def clearPath (s : State) : List Access → Access → LaneAcc → Bool
  | [], _, _ => true
  | b :: rest, a, l =>
    b.lanes.all (fun m => !laneBefore s b m a l || (sure s b m && !gatherHolds s b m && clearPath s rest b m)) && clearPath s rest a l

/-- An access to HBM of the group stands behind an issued lane access. -/
def followed (s : State) (a : Access) (l : LaneAcc) : Bool :=
  s.acc.any (fun c => c.group == a.group && decide (a.id < c.id) && c.lanes.any (fun n =>
    n.stage == .issued && n.space == .hbm && laneBefore s a l c n))

/-- The lines that a lane access reaches. -/
def laneKeys (s : State) (a : Access) (l : LaneAcc) : List LineKey :=
  match s.group? a.group with
  | none => []
  | some g =>
    match l.space with
    | .scratch => [(.scratch, g.block, l.addr / 128)]
    | sp => spanKeys s (s.groupCtx g) sp l.addr a.bytes

/-! ## Drains (R157) -/

/-- A holder has no issued access to the granule that it must complete before it acknowledges; one that needs a drain itself is
held at the home (R157, R263). DEDUCED (log 80). -/
def quiet (s : State) (a : Agent) (n : Nat) : Bool :=
  s.acc.all (fun x => x.agent s != a || (nextClass (s.granule n).cls a x.kind.writes).2 ||
    x.lanes.all (fun l => l.space != .hbm || l.addr / 4096 != n || l.stage != .issued))

/-- The lane accesses that have gone to a granule's home, in issue order. -/
def heldLanes (s : State) (n : Nat) : List Waiter :=
  s.acc.flatMap (fun a => (a.lanes.filter (fun l => l.space == .hbm && l.addr / 4096 == n && arrived? s a l)).map (fun l =>
    Waiter.lane a.id l.lane))

/-- The agents that are no lanes and have an access to a granule to make: engine operations, firmware, the outside. -/
def heldAgents (s : State) (n : Nat) : List Waiter :=
  (s.engines.filter (fun o => (o.waits s n).isSome)).map (fun o => .agent (.engine o.id)) ++
  ((s.fwOut.head?.filter (fun f => f.touches s n)).toList).map (fun f => .agent f.agent) ++
  (s.offers.filter (fun o => o.2.2 == n)).map (fun o => .agent o.1)

/-- The accesses that a home holds, in the order of their arrival: those noted before and those that have come since. -/
def arrivals (s : State) (g : Granule) : List Waiter :=
  g.held ++ (heldLanes s g.num ++ heldAgents s g.num).filter (fun w => !g.held.contains w)

/-- While a drain is open its home notes the accesses that arrive (R157 step 5). -/
def noteArrivals (s : State) : State :=
  if s.granules.all (fun g => g.drain.isNone) then s
  else { s with granules := s.granules.map (fun g => if g.drain.isSome then { g with held := arrivals s g } else g) }

/-- The lines of a granule at its holders when a drain leads to a class. -/
def drainHolders (n : Nat) (c : GranClass) (as : List Agent) (s : State) : State :=
  as.foldl (fun s a => match a with
    | .core d k => drainLines d k n c.lineClass s
    | _ => s) s

/-- A granule passes through its drain with the access that asks for it when every holder is quiet, or has acknowledged the
drain which that access has opened (R157, R158); the result is none while some holder still has an access outstanding. The
holders that keep lines stay holders (R150). -/
def drainNow (s : State) (who : Waiter) (n : Nat) (to_ : GranClass) : Option State :=
  let g := s.granule n
  let done : Bool := match g.drain with
    | none => g.holders.all (fun a => quiet s a n) && turnAt s g who
    | some d => d.by_.any (fun b => b.1 == who) && g.holders.all (fun h => d.stopped.contains h)
  if done then
    let s := drainHolders n to_ g.holders s
    some (s.setGranule { g with cls := to_, holders := lineHolders s n, drain := none, held := g.held.filter (fun w => w != who) })
  else none

/-- The drain of a granule that an access asks for begins, or its home holds the access behind others (R157 step 1). -/
def openDrain (who : Waiter) (a : Agent) (pa : Nat) (write : Bool) (s : State) : State :=
  let g := s.granule (pa / 4096)
  let to_ := nextClass g.cls a write
  match g.drain with
  | none => if to_.2 then s.setGranule { g with drain := some { to_ := to_.1, by_ := some (who, a, write), asked := [], stopped := [] } } else s
  | some d => if d.by_.any (fun b => b.1 == who) || g.held.contains who then s else s.setGranule { g with held := g.held ++ [who] }

/-- An access that is no lane's: it is performed at once, with its drain when the classifier asks for one; none while it must
wait. -/
def claimAs (s : State) (who : Waiter) (a : Agent) (pa : Nat) (write : Bool) : Option State :=
  if claimOk s who a pa write then some (homeTouch (pa / 128) write (claim who a pa write s))
  else
    let to_ := nextClass (s.granule (pa / 4096)).cls a write
    if !to_.2 then none
    else (drainNow s who (pa / 4096) to_.1).map (fun s => homeTouch (pa / 128) write (claim who a pa write s))

/-- The same of an agent of its own. -/
def claimNow (s : State) (a : Agent) (pa : Nat) (write : Bool) : Option State := claimAs s (.agent a) a pa write

/-- An event of an agent outside the cores that has to wait at a home is kept, with the granule, and comes again: its drain is
open, and after the drain point its access is the first (R157). DEDUCED (log 80). -/
def offer (a : Agent) (i : Instr) (waits : List (Nat × Bool)) (s : State) : State :=
  match waits.find? (fun w => (claimNow s a w.1 w.2).isNone && (nextClass (s.granule (w.1 / 4096)).cls a w.2).2) with
  | none => s
  | some w => openDrain (.agent a) a w.1 w.2 { s with offers := s.offers.filter (fun o => o.2.1 != i) ++ [(a, i, w.1 / 4096)] }

/-- Such an event takes place. -/
def State.accept (s : State) (i : Instr) : State := { s with offers := s.offers.filter (fun o => o.2.1 != i) }

/-! ## Counters (R184, R185) -/

/-- A counter (R184). -/
def Group.ctr (g : Group) : Ctr → Nat
  | .l => g.cntL | .s => g.cntS | .c => g.cntC | .t => g.cntT | .uncounted => 0

/-- A counter raised or lowered by one. -/
def Group.addCtr (g : Group) (cl : Ctr) (up : Bool) : Group :=
  let f (n : Nat) : Nat := if up then n + 1 else n - 1
  match cl with
  | .l => { g with cntL := f g.cntL }
  | .s => { g with cntS := f g.cntS }
  | .c => { g with cntC := f g.cntC }
  | .t => { g with cntT := f g.cntT }
  | .uncounted => g

def Access.done (a : Access) : Bool := a.lanes.all (fun l => l.stage == .done)

/-- The accesses of a class that end in issue order: the counter falls for each finished access that no unfinished
one of its class precedes (R185). -/
def sweepClass (gi : Nat) (cl : Ctr) : List Access → List Access × Nat
  | [] => ([], 0)
  | a :: rest =>
    if a.group = gi ∧ a.ctr = cl then
      if a.done then let (r, n) := sweepClass gi cl rest; (r, n + 1) else (a :: rest, 0)
    else let (r, n) := sweepClass gi cl rest; (a :: r, n)

/-- Finished accesses that no counter covers. -/
def sweepUncounted (as : List Access) : List Access := as.filter (fun a => !(a.ctr == .uncounted && a.done))

def sweep (gi : Nat) (s : State) : State :=
  let (l1, nl) := sweepClass gi .l (sweepUncounted s.acc)
  let (l2, ns) := sweepClass gi .s l1
  { s with acc := l2 }.modGroup gi (fun g => { g with cntL := g.cntL - nl, cntS := g.cntS - ns })

/-! ## Waits that a write ends (R304, R362) -/

/-- The splits of every group that wait for an event word, in ascending group and split. -/
def eventWaits (s : State) : List (Nat × Nat × DWord × Nat × DWord × DWord) :=
  (s.groups.zipIdx).flatMap (fun x => x.1.splits.filterMap (fun p =>
    match p.wait with
    | .evwait va pa ge next => some (x.2, p.idx, va, pa, ge, next)
    | _ => none))

/-- The event word of a waiting split still translates to the place where its issue read found it: a wake read never reaches a
frame that has been reused (R143). -/
def stillThere (s : State) (gi : Nat) (va : DWord) (pa : Nat) : Bool :=
  (s.group? gi).any (fun g => xlate s g.die g.lanesTlb (s.groupCtx g) va .r == .ok .hbm pa)

/-- Every EVWAIT whose word a write of [pa, pa + n) made reach its value continues (R143, R304). -/
def wakeEvents (pa n : Nat) (s : State) : State :=
  (eventWaits s).foldl (fun s w =>
    match w with
    | (gi, si, va, wpa, ge, next) =>
      if decide (wpa < pa + n) && decide (pa < wpa + 8) && decide (ge.toNat ≤ natLE (s.memBytes wpa 8)) && stillThere s gi va wpa then
        s.modSplit gi si (fun p => p.goto next)
      else s) s

/-! ## Destinations -/

/-- Extension of a loaded value to 32 bits, or to the registers it fills (R131, R326). -/
def extend (ty : Ty) (n v : Nat) : BitVec 128 :=
  if n < 4 ∧ ty.signed ∧ v.testBit (8 * n - 1) then BitVec.ofNat 128 (v + 2 ^ 32 - 2 ^ (8 * n)) else BitVec.ofNat 128 v

/-- The registers that n bytes fill. -/
def regsOf (n : Nat) : Nat := if n ≤ 4 then 1 else n / 4

/-- A loaded value written to a vector register range in one lane. A lane that has ended keeps the values that it held then,
which a modifier reads (R65). -/
def Group.fill (g : Group) (d L n : Nat) (v : BitVec 128) : Group :=
  if g.ended.getLsbD L then g
  else (List.range (regsOf n)).foldl (fun g k => g.vset (d + k) L (v.extractLsb' (32 * k) 32)) g

/-- A loaded value written to a uniform register range. -/
def Group.fillU (g : Group) (d n : Nat) (v : BitVec 128) : Group :=
  if g.retired then g
  else (List.range (regsOf n)).foldl (fun g k => g.uset (d + k) (v.extractLsb' (32 * k) 32)) g

/-- The new value of an atomic operation and the flags of FADD (R134): `old` and the operand are w-bit codes. -/
def atomNew (op : Nat) (ty : Ty) (old d repl : Nat) : Nat × FlagBits :=
  let w := (tyShape ty).1
  match op with
  | 0 => ((old + d) % 2 ^ w, 0)
  | 1 => (wrap w (min (intOf ty.signed w old) (intOf ty.signed w d)), 0)
  | 2 => (wrap w (max (intOf ty.signed w old) (intOf ty.signed w d)), 0)
  | 3 => (old &&& d, 0)
  | 4 => (old ||| d, 0)
  | 5 => (old ^^^ d, 0)
  | 6 => (d, 0)
  | 7 => (if old = d then repl else old, 0)
  | _ => fop2 f32 .rne false (addFlags .rne) (dec f32 old) (dec f32 d)

/-! ## Performing one lane (R147) -/

/-- The flags that an access raises when it completes: FADD's (R112, R134). -/
def Access.raised (a : Access) : FlagBits :=
  match a.kind with
  | .atom _ | .atoms _ => a.flags
  | _ => 0

/-- An access ends: its registers are free and the flags that its performed lanes raised enter FLAGS (R112). -/
def endAccess (a : Access) (s : State) : State :=
  s.modGroup a.group (fun g => { g.release a.id with flags := g.flags ||| a.raised })

/-- A lane access has been performed: its stage, and when it was the last one the end of its scoreboard operation and
the merge of its flags (R112). -/
def endLane (id lane : Nat) (s : State) : State :=
  let s := s.modAccess id (fun a =>
    { a with lanes := a.lanes.map (fun l => if l.lane = lane then { l with stage := .done } else l) })
  match s.access? id with
  | none => s
  | some a => if a.done then endAccess a s else s

/-- The split of an access that blocks its split continues behind the instruction (R50, R130). -/
def continueAfter (a : Access) (s : State) : State :=
  s.modSplit a.group a.split (fun p => if p.wait = .access a.id then p.goto a.next else p)

/-- Some L1 holds data of a line that its home does not. -/
def dirtyLine (s : State) (line : Nat) : Bool := s.l1.any (fun l => l.line == line && (l.st == .m || l.st == .o))

/-- A line that a store makes dirty: what its home holds is kept, for an error that loses the L1's copy (R169). -/
def keepClean (line : Nat) (s : State) : State :=
  if dirtyLine s line then s
  else { s with cleanLines := s.cleanLines.filter (fun c => c.1 != line) ++ [(line, s.memBytes (128 * line) 128)] }

/-- An HBM access passes the classifier and finds or brings its line, and the core learns the granule's class (R152, R153,
R156). -/
def lineAccess (a : Access) (l : LaneAcc) (g : Group) (s : State) : State :=
  let s := claim (.lane a.id l.lane) (groupAgent a.group g) l.addr a.kind.writes s
  let c := (s.granule (l.addr / 4096)).cls
  let priv := match c with
    | .private_ _ _ _ => true
    | _ => false
  let s := if a.kind.writes then keepClean (l.addr / 128) s else s
  learnClass g.die g.core (l.addr / 4096) c.lineClass (bringLine g.die g.core (l.addr / 128) a.kind.writes priv s)

/-- The effect of one lane access at its place in the single order. A lane of LDS whose line is empty changes
nothing. -/
def performLane (a : Access) (l : LaneAcc) (s : State) : State :=
  match s.group? a.group with
  | none => s
  | some g =>
    let cn := s.groupCtx g
    let bi := g.block
    let s := if l.space = .hbm then lineAccess a l g s else s
    let old := spaceRead s cn bi l.space l.addr a.bytes
    let line := l.addr / 128
    match a.kind with
    | .ld | .lds => s.modGroup a.group (fun g => g.fill a.d l.lane a.bytes (extend a.ty a.bytes old))
    | .ldx pd =>
      let full := s.lineFull bi line
      s.modGroup a.group (fun g =>
        (g.fill a.d l.lane a.bytes (if full then BitVec.ofNat 128 old else 0)).pset pd (laneBit l.lane &&& ~~~g.ended)
          (if full then laneBit l.lane else 0))
    | .ldu => s.modGroup a.group (fun g => g.fillU a.d a.bytes (extend a.ty a.bytes old))
    | .st =>
      let s := spaceWrite s cn bi l.space l.addr a.bytes l.data.toNat
      if l.space = .hbm then wakeEvents l.addr a.bytes s else s
    | .sts =>
      (spaceWrite s cn bi l.space l.addr a.bytes l.data.toNat).linePut bi line (s.lineGet bi line ||| 1#8)
    | .atom op | .atoms op =>
      let r := atomNew op a.ty old (l.data.toNat % 2 ^ (8 * a.bytes)) (l.data2.toNat % 2 ^ (8 * a.bytes))
      let s := spaceWrite s cn bi l.space l.addr a.bytes r.1
      let s := s.modGroup a.group (fun g => g.fill a.d l.lane a.bytes (BitVec.ofNat 128 old))
      let s := s.modAccess a.id (fun a => { a with flags := a.flags ||| r.2 })
      if l.space = .hbm then wakeEvents l.addr a.bytes s else s
    | .sempty => s.linePut bi line (s.lineGet bi line &&& 0xFE#8)
    | .sfill tag => s.lineSet bi line true tag
    | .sfe pd =>
      s.modGroup a.group (fun g =>
        g.pset pd (laneBit l.lane &&& ~~~g.ended) (if s.lineFull bi line then laneBit l.lane else 0))
    | .evsig =>
      let s := spaceWrite s cn bi l.space l.addr 8 (old + l.data2.toNat)
      if l.space = .hbm then wakeEvents l.addr 8 s else s
    | .evwait =>
      if l.data2.toNat ≤ old then s
      else s.modSplit a.group a.split (fun p => { p with wait := .evwait l.va l.addr l.data2 a.next })

/-- Lane accesses of LDS that wait on a line of a block. -/
def emptyWaiters (s : State) (bi line : Nat) : List (Access × LaneAcc) :=
  s.acc.flatMap (fun a =>
    if ((s.group? a.group).map (fun g => g.block)).getD 0 = bi then
      (a.lanes.filter (fun l => l.stage == .waitingEmpty && l.addr / 128 == line)).map (fun l => (a, l))
    else [])

/-- An LDS lane is performed, and its split continues when every lane is (R130). -/
def finishLds (a : Access) (l : LaneAcc) (s : State) : State :=
  let s := endLane a.id l.lane (performLane a l s)
  match s.access? a.id with
  | some a' => if a'.done then sweep a.group (continueAfter a s) else s
  | none => s

/-- The 128 bytes of a block line. -/
def State.lineBytes (s : State) (bi line : Nat) : List Byte :=
  (List.range 128).map (fun k => s.spadGet bi (128 * line + k))

/-- An engine reads a 32-byte sector of a scratchpad: its bytes enter the operation's buffer, keyed by block offset. -/
def engineReadSector (s : State) (bi v : Nat) (o : EngineOp) : EngineOp :=
  { o with sbuf := Tab.putAll 0 o.sbuf ((List.range 32).map (fun k => (32 * v + k, s.spadGet bi (32 * v + k)))),
           sreadsDone := o.sreadsDone ++ [v], emptySince := o.emptySince.filter (fun e => e.1 != v / 4) }

/-- It reads every sector of a line that it still waits for. -/
def engineReadLine (s : State) (bi line : Nat) (o : EngineOp) : EngineOp :=
  (o.sreads.filter (fun v => v / 4 == line && !o.sreadsDone.contains v)).foldl (fun o v => engineReadSector s bi v o) o

/-- A MMAG has read a gathered line into its latch (R200). -/
def matReadLine (s : State) (bi line : Nat) (m : MatEntry) : MatEntry :=
  { m with latch := m.latch ++ [(line, s.lineTag bi line, s.lineBytes bi line)],
           emptySince := m.emptySince.filter (fun e => e.1 != line) }

/-- The bank performs every LDS lane, engine read and MMAG read that waits on a line directly after the fill that made
it full; a read that finds another tag there is SWZ (R129, R362). -/
def fillWake (bi line : Nat) (s : State) : State :=
  let s := (emptyWaiters s bi line).foldl (fun s w => finishLds w.1 w.2 s) s
  { s with
    engines := s.engines.map (fun o =>
      if o.block = bi ∧ o.emptySince.any (fun e => e.1 == line) then
        (if s.lineTag bi line = o.swz then engineReadLine s bi line o
         else { o with fault := o.fault.orElse (fun _ => some (.swz, BitVec.ofNat 64 (128 * line))) })
      else o),
    matq := s.matq.map (fun m =>
      if ((s.group? m.group).map (fun g => g.block)).getD 0 = bi ∧ m.emptySince.any (fun e => e.1 == line) then
        matReadLine s bi line m
      else m) }

/-- Waiters of a line that has just become full. -/
def wakeIfFilled (before : State) (bi line : Nat) (s : State) : State :=
  if before.lineFull bi line = false ∧ s.lineFull bi line then fillWake bi line s else s

/-- Waiters of every line that a write of n window bytes has made full (R130, R362). -/
def wakeWindow (before : State) (cn pa n : Nat) (s : State) : State :=
  (List.range n).foldl (fun t k =>
    match winPlace before cn (pa + k) with
    | .lineState bi line => wakeIfFilled before bi line t
    | _ => t) s

/-- A lane access takes its place: performed, its destination written, its waiters woken, its counter lowered. A lane
of LDS on an empty line starts to wait instead (R130). -/
def takePlace (a : Access) (l : LaneAcc) (s : State) : State :=
  let bi := ((s.group? a.group).map (fun g => g.block)).getD 0
  let line := l.addr / 128
  match a.kind with
  | .lds =>
    if s.lineFull bi line then finishLds a l s
    else s.modAccess a.id (fun a =>
      { a with waitFrom := some (a.waitFrom.getD s.now),
               lanes := a.lanes.map (fun m => if m.lane = l.lane then { m with stage := .waitingEmpty } else m) })
  | .evsig | .evwait => sweep a.group (continueAfter a (endLane a.id l.lane (performLane a l s)))
  | _ =>
    let t := endLane a.id l.lane (performLane a l s)
    sweep a.group (match l.space with
      | .scratch => wakeIfFilled s bi line t
      | .window => wakeWindow s (((s.group? a.group).map s.groupCtx).getD 0) l.addr a.bytes t
      | _ => t)

/-! ## Running and stopping (R193, R235, R237) -/

/-- The operation was issued by a handler: it runs to completion, since its handler starts anew (R193). -/
def EngineOp.ofHandler (s : State) (o : EngineOp) : Bool := (s.group? o.group).any (fun g => g.handler.isSome)

/-- Lanes of a block (R22). -/
def Desc.lanes (d : Desc) : Nat := d.blkX * d.blkY * d.blkZ
/-- Groups of a block. -/
def Desc.groups (d : Desc) : Nat := (d.lanes + 15) / 16

/-- The unfinished rows of an operation: its destination lines, or the 64 rows of a tile, true where not written. The event line of
an LDH is not among them: what it will hold is the summary. DESIGN CHOICE (log 104). -/
def EngineOp.rows (o : EngineOp) : List Bool :=
  match o.kind with
  | .tld _ => List.replicate 64 true
  | _ =>
    let lines (ws done : List Nat) : List Bool :=
      ((ws.map (fun v => v / 4)).eraseDups).map (fun l => ws.any (fun v => v / 4 == l && !done.contains v))
    lines o.writes o.writesDone ++ lines o.swrites o.swritesDone

/-- The bytes of an operation's entry in section 12 of the save area (R238). -/
def EngineOp.entrySize (o : EngineOp) : Nat :=
  (368 + (o.rows.length + 7) / 8 + 4 * (o.bursts.filter (fun b => !b.ended)).length + 15) / 16 * 16

/-- Room for section 12 in a save area, which the spec does not bound. DESIGN CHOICE (log 17). -/
def checkpointRoom (d : Desc) : Nat := 512 * (d.groups + d.hslots)

/-- The operations of a list whose entries fit in some bytes. -/
def fitOps : Nat → List EngineOp → List EngineOp
  | _, [] => []
  | n, o :: rest => if o.entrySize ≤ n then o :: fitOps (n - o.entrySize) rest else fitOps n rest

/-- Operations of a block that have ended in a fault which waits for delivery (R140, R237). -/
def faultedOps (s : State) (bi : Nat) : List EngineOp :=
  (s.groups.filter (fun g => g.block == bi)).flatMap (fun g => g.faults.filterMap (fun f => f.from_))

/-- The operations that section 12 records, in its order: those with a fault, then those that checkpoint. -/
def savedOps (s : State) (bi : Nat) : List EngineOp :=
  fitOps (((s.block? bi).bind (fun b => s.launch? b.launch)).elim 0 (fun l => checkpointRoom l.desc))
    (faultedOps s bi ++ s.engines.filter (fun o => o.block == bi && !o.finished && !o.composed && !o.ofHandler s))

/-- A stop lets the operation run to its end: its destination is composed, it belongs to a handler, or its block's save area has
no room for its entry (R193). -/
def EngineOp.runsOn (s : State) (o : EngineOp) : Bool :=
  o.composed || o.ofHandler s || (savedOps s o.block).all (fun p => p.id != o.id)

/-- A lane, a gathered read or an operation that must run to its end, of the operation's own context, waits for a line that the
operation holds reserved, or it runs to its end itself: a stop lets it, with its handlers, run to its end as well (R193).
DEDUCED (log 94). -/
def EngineOp.awaited (s : State) (o : EngineOp) : Bool :=
  let mine (gi : Nat) : Bool := ((s.group? gi).map s.groupCtx) == some o.ctx
  let keys := o.dstKeys s
  !o.finished && (o.runsOn s ||
    s.acc.any (fun a => mine a.group && a.lanes.any (fun l => l.stage == .issued && (laneKeys s a l).any keys.contains)) ||
    s.engines.any (fun p => p.id != o.id && !p.finished && p.ctx == o.ctx && p.runsOn s && (p.srcKeys s).any keys.contains) ||
    s.matq.any (fun m => mine m.group && !m.cancelled && m.unread.any (fun x =>
      (s.group? m.group).any (fun g => keys.contains (.scratch, g.block, x.2)))))

/-- A handler whose request runs to its end so. -/
def awaitedHandler (s : State) (g : Group) : Bool :=
  g.handler.any (fun h => (s.engine? h.op).any (fun o => o.awaited s))

/-- The context of a group runs: not stopping, saved, killed or frozen. While a context is saved with COMPLETE its
handlers run on, as their requests must end, and so do those of a request that runs to its end (R193). -/
def ctxRuns (s : State) (g : Group) : Bool :=
  !s.frozen && (s.groupCtx? g).any (fun c =>
    (!c.stopping || (g.handler.isSome && (c.saveComplete || awaitedHandler s g))) && (c.state == .ready || c.state == .running))

/-- A group may take a trap: no stop request has reached its context or its block (R235, R237). -/
def mayTrap (s : State) (gi : Nat) : Bool :=
  (s.group? gi).any (fun g => ctxRuns s g && (!(s.block? g.block).any (fun b => b.stopped) || awaitedHandler s g))

/-- Lanes that a split's access has not performed leave it, and the access ends with its performed lanes.
DEDUCED (log 62). -/
def dropUnperformed (id : Nat) (s : State) : State :=
  let s := s.modAccess id (fun a => { a with lanes := a.lanes.filter (fun l => l.stage == .done) })
  match s.access? id with
  | none => s
  | some a => sweep a.group (endAccess a s)

/-- A split of the issuing group that waits at an LDS for a line which a faulted operation has left unwritten: its access and the
split. -/
def ldsUser (s : State) (gi : Nat) (lines : List Nat) : Option (Access × Split) :=
  s.acc.findSome? (fun a =>
    if a.group = gi ∧ a.lanes.any (fun l => l.stage == .waitingEmpty && lines.contains (l.addr / 128)) then
      ((s.group? gi).bind (fun g => g.splits.find? (fun p => p.wait == .access a.id))).map (fun p => (a, p))
    else none)

/-- That LDS uses the line and takes the fault, its other lanes given up: a RETRY executes it again (R187). DEDUCED (log 74). -/
def deliverToUser (gi : Nat) (f : PendingFault) (s : State) : State :=
  match s.group? gi, ldsUser s gi f.lines with
  | some g, some (a, p) =>
    if mayTrap s gi then
      takeTrap gi p.idx f.cause f.aux (p.act &&& ~~~g.helpers) 0
        (dropUnperformed a.id (s.modGroup gi (fun g => { g with faults := g.faults.erase f })))
    else s
  | _, _ => s

/-- A lane of LDS that has begun to wait uses its line, which a pending fault of the group's may name (R187). -/
def deliverToLane (gi line : Nat) (s : State) : State :=
  match (s.group? gi).bind (fun g => g.faults.find? (fun f => f.lines.contains line)) with
  | some f => deliverToUser gi f s
  | none => s

/-! ## Issue (R132, R139, R155) -/

/-- The effective address of a lane (R132). -/
def effAddr (g : Group) (x : Ext) (L : Nat) : DWord :=
  let base := g.rget x.aU true x.a.toNat L + x.lit.getD 0
  if Fields.idx x then
    let i : Word := low (g.rget x.cU false x.c.toNat L)
    base + ((if Fields.sx x then i.signExtend 64 else 0#32 ++ i) <<< Fields.scale x)
  else base

/-- What the checks of an access find for one lane; `width` is the MAL of a window access of more than 32 bits, which follows PROT
(R81, R365). -/
inductive LaneCheck where
  | ok (sp : Space) (pa : Nat)
  | mal
  | prot
  | width
  | pf
  | replay
deriving DecidableEq, Repr

/-- Operations that a HOST page admits: plain accesses, EVSIG, and ADD, SWP and CAS (R134, R303). -/
def AccKind.hostOk : AccKind → Bool
  | .atom op => op == 0 || op == 6 || op == 7
  | .evwait => false
  | _ => true

/-- What a kind needs of its page. -/
def AccKind.need : AccKind → Need
  | .st => .w
  | .atom _ | .evsig => .rw
  | _ => .r

/-- The checks of a virtual access of n bytes (R121, R125, R132, R138). -/
def checkVirtual (s : State) (g : Group) (kd : AccKind) (n : Nat) (va : DWord) : LaneCheck :=
  if va.toNat % n ≠ 0 then .mal
  else
    match xlate s g.die g.lanesTlb (s.groupCtx g) va kd.need with
    | .prot => .prot
    | .pf => .pf
    | .replay => .replay
    | .ok .window pa =>
      if (List.range n).all (fun j => winAllowed s (s.groupCtx g) (pa + j) kd.writes) then
        (if 4 < n then .width else .ok .window pa)
      else .prot
    | .ok .host pa => if kd.hostOk then .ok .host pa else .prot
    | .ok sp pa => .ok sp pa

/-- The checks of a scratchpad access of n bytes (R132, R225). -/
def checkScratch (s : State) (g : Group) (n : Nat) (ea : DWord) : LaneCheck :=
  if ea.toNat % n ≠ 0 then .mal else if s.scratchOf g.block ≤ ea.toNat then .prot else .ok .scratch ea.toNat

/-- A place whose accesses R155 counts. A granule counts by the class that the core has learned, and as SHARED while it
holds none (R153); a handler's access to a PRIVATE granule is another agent's (R151). -/
def sharedPlace (s : State) (g : Group) (sp : Space) (pa : Nat) : Bool :=
  match sp with
  | .hbm =>
    match classHeld s g.die g.core (pa / 4096) with
    | some .private_ => g.handler.isSome
    | some .readonly => false
    | _ => true
  | .scratch => !ownBank s g (pa / 128)
  | .host | .window => true

/-- The instruction's part of an access: its kind, size, type, destination, counter, whether its split waits for
it, and each lane's data. -/
structure MemOp where
  kind : AccKind
  bytes : Nat
  ty : Ty
  d : Nat
  ctr : Ctr
  blocks : Bool
  holds : List Hold
  addr : Nat → DWord
  check : DWord → LaneCheck
  data : Nat → BitVec 128
  data2 : Nat → DWord
  /-- what a load leaves in a helper lane (R23) -/
  zero : Nat → Group → Group := fun _ g => g

/-- The lanes of a mask with a given finding. -/
def lanesWith (m : LaneMask) (c : Nat → LaneCheck) (p : LaneCheck → Bool) : LaneMask :=
  maskOf (fun L => m.getLsbD L && p (c L))

/-- One lane's entry. -/
def laneEntry (op : MemOp) (L : Nat) : LaneAcc :=
  match op.check (op.addr L) with
  | .ok sp pa =>
    { lane := L, va := op.addr L, addr := pa, space := sp, data := op.data L, data2 := op.data2 L, stage := .issued }
  | _ =>
    { lane := L, va := op.addr L, addr := 0, space := .hbm, data := op.data L, data2 := op.data2 L, stage := .parked }

/-- The lowest address of a mask. -/
def lowestAddr (m : LaneMask) (addr : Nat → DWord) : DWord := lowest ((lanesOf m).map addr)

/-- An access of the lanes `run` (performed later) and `wait` (parked for a replay) enters the outstanding accesses,
raising its counter once: a replayed instruction continues its parked entry (R139, R184). -/
def enterAccess (k : Issue) (op : MemOp) (run wait : LaneMask) (s : State) : State :=
  let entries := (lanesOf (run ||| wait)).map (laneEntry op)
  match s.acc.find? (fun a => a.group == k.gi && a.split == k.si && a.pc == k.sp.pc &&
      a.lanes.any (fun l => l.stage == .parked)) with
  | some a =>
    s.modAccess a.id (fun a =>
      { a with shared := a.shared || entries.any (fun l => l.stage == .issued && sharedPlace s k.g l.space l.addr),
               lanes := a.lanes.map (fun l =>
                 if l.stage = .parked then (entries.find? (fun e => e.lane == l.lane)).getD l else l) })
  | none =>
    let id := s.nextId
    let acc : Access :=
      { id := id, group := k.gi, split := k.si, pc := k.sp.pc, kind := op.kind, bytes := op.bytes, ty := op.ty, d := op.d,
        ctr := op.ctr, cover := k.e, next := k.nextPc,
        shared := entries.any (fun l => l.stage == .issued && sharedPlace s k.g l.space l.addr),
        waitFrom := none, flags := 0, lanes := entries }
    let s := { s with nextId := id + 1, acc := s.acc ++ [acc] }
    let s := s.modGroup k.gi (fun g => g.addCtr op.ctr true)
    s.modSplit k.gi k.si (fun p => { p with holds := p.holds ++ op.holds.map (fun h => { h with op := id }) })

/-- The number of the outstanding access that an instruction at its address holds. -/
def ownAccess (k : Issue) (s : State) : Nat :=
  (((s.acc.filter (fun a => a.group == k.gi && a.split == k.si && a.pc == k.sp.pc)).getLast?).map (fun a => a.id)).getD 0

/-- The split after the issue: it moves on, or waits for the access at the instruction. DEDUCED (log 74). -/
def afterIssue (k : Issue) (op : MemOp) (s : State) : State :=
  if op.blocks then s.modSplit k.gi k.si (fun p => { p with wait := .access (ownAccess k s), age := 0, reserved := false })
  else advance k s

/-- Parked lanes of an instruction of a split leave its access, which ends with its performed lanes when none is left to perform
(R112, R139). -/
def dropParkedAt (gi si : Nat) (pc : DWord) (s : State) : State :=
  let ids := (s.acc.filter (fun (a : Access) => a.group == gi && a.split == si && a.pc == pc &&
    a.lanes.any (fun l => l.stage == .parked))).map (fun a => a.id)
  let s : State := { s with acc := s.acc.map (fun (a : Access) =>
    if ids.contains a.id then { a with lanes := a.lanes.filter (fun (l : LaneAcc) => l.stage != .parked) } else a) }
  sweep gi ((s.acc.filter (fun (a : Access) => ids.contains a.id && a.done)).foldl (fun (s : State) (a : Access) => endAccess a s) s)

/-- The same of the issuing instruction, which ends in a fault. -/
def dropParked (k : Issue) (s : State) : State := dropParkedAt k.gi k.si k.sp.pc s

/-- Zero in the destination of helper lanes, which make no access (R23). -/
def zeroHelpers (k : Issue) (f : Nat → Group → Group) (s : State) : State :=
  s.modGroup k.gi (fun g => (lanesOf (k.e &&& k.g.helpers)).foldl (fun g L => f L g) g)

/-- A pending engine or MMAG fault that the instruction must deliver: the oldest one that the test names is taken at
the instruction, otherwise the instruction runs (R187, R203). DEDUCED (log 74). -/
def deliverOr (k : Issue) (p : PendingFault → Bool) (body : State → State) (s : State) : State :=
  match k.g.faults.find? p with
  | some f =>
    trapAt k f.cause f.aux k.e (s.modGroup k.gi (fun g => { g with faults := g.faults.erase f }))
  | none => body s

/-- A window address lies in a tile or a scratchpad line that the faulted operation left unfinished (R187). -/
def PendingFault.covers (s : State) (gi : Nat) (g : Group) (f : PendingFault) (pa : Nat) : Bool :=
  match winPlace s (s.groupCtx g) pa with
  | .spad bi off => bi == g.block && f.lines.contains (off / 128)
  | .lineState bi n => bi == g.block && f.lines.contains n
  | .tile i t _ | .scale i t _ => i == gi && f.tile == some t
  | _ => false

/-- An access that R155 counts: outstanding ones of a group are shared accesses and orbit operations. -/
def sharedOut (s : State) (gi : Nat) : Bool :=
  s.acc.any (fun a => a.group == gi && a.shared && !a.done) || s.orbitOps.any (fun o => o.group == gi)

/-- The access of some lane of a list uses what the faulted operation left unfinished. -/
def usesUnfinished (s : State) (k : Issue) (op : MemOp) (lanes : List Nat) (f : PendingFault) : Bool :=
  lanes.any (fun L =>
    match op.check (op.addr L) with
    | .ok .window pa => f.covers s k.gi k.g pa
    | _ => false)

/-- A per-lane memory instruction (R132, R139, R326, R365): MAL, then PROT, then the MAL of a wide window access, before any lane
is performed; lanes that
translate are performed, a miss outside DEMAND is PF with the unfinished lanes, and one inside parks the split. -/
def issueAccess (k : Issue) (op : MemOp) (s : State) : State :=
  let m := k.real
  let c (L : Nat) : LaneCheck := op.check (op.addr L)
  let mal := lanesWith m c (fun r => r == .mal)
  let prot := lanesWith m c (fun r => r == .prot)
  let wide := lanesWith m c (fun r => r == .width)
  let pf := lanesWith m c (fun r => r == .pf)
  let rep := lanesWith m c (fun r => r == .replay)
  let run := m &&& ~~~(pf ||| rep)
  if m = 0 then advance k (zeroHelpers k op.zero s)
  else if mal ≠ 0 then trapAt k .mal (lowestAddr mal op.addr) mal (dropParked k s)
  else if prot ≠ 0 then trapAt k .prot (lowestAddr prot op.addr) prot (dropParked k s)
  else if wide ≠ 0 then trapAt k .mal (lowestAddr wide op.addr) wide (dropParked k s)
  else
  let s := zeroHelpers k op.zero s
  if pf ≠ 0 then
    let s := if run = 0 then s else enterAccess k op run 0 s
    takeTrap k.gi k.si .pf (lowestAddr (pf ||| rep) op.addr) (pf ||| rep) (pf ||| rep) (dropParked k s)
  else if rep ≠ 0 then
    (enterAccess k op run rep s).modSplit k.gi k.si (fun p =>
      { p with pend := rep, wait := .replay (lowestAddr rep op.addr), age := 0, reserved := false })
  else afterIssue k op (enterAccess k op run 0 s)

/-- A per-split memory instruction: one access for the split, standing in the program order of every lane of E (R50,
R147, R330). -/
def issueOnce (k : Issue) (op : MemOp) (s : State) : State :=
  let L := ((lanesOf k.real).head?).getD 0
  if k.real = 0 then advance k s
  else
    match op.check (op.addr L) with
    | .mal | .width => trapAt k .mal (op.addr L) k.e (dropParked k s)
    | .prot => trapAt k .prot (op.addr L) k.e (dropParked k s)
    | .pf => takeTrap k.gi k.si .pf (op.addr L) k.real k.real (dropParked k s)
    | .replay =>
      (enterAccess k op 0 (laneBit L) s).modSplit k.gi k.si (fun p =>
        { p with pend := k.e, wait := .replay (op.addr L), age := 0, reserved := false })
    | .ok _ _ => afterIssue k op (enterAccess k op (laneBit L) 0 s)

/-- A scratchpad instruction of the issuing group uses the lines that a faulted operation left unwritten (R187). -/
def issueScratch (k : Issue) (op : MemOp) (s : State) : State :=
  deliverOr k (fun f => (lanesOf k.real).any (fun L => f.lines.contains ((op.addr L).toNat / 128)))
    (issueAccess k op) s

/-- A per-lane access to memory or to a window page, which may reach such a tile or line (R187). -/
def issueVirtual (k : Issue) (op : MemOp) (s : State) : State :=
  deliverOr k (usesUnfinished s k op (lanesOf k.real)) (issueAccess k op) s

/-- The same of the one access of a split, at its lowest lane (R187, R330). -/
def issueVirtualOnce (k : Issue) (op : MemOp) (s : State) : State :=
  deliverOr k (usesUnfinished s k op ((lanesOf k.real).take 1)) (issueOnce k op) s

end Sys2Proof.Machine
end

