-- ==== Sys2Proof/Machine/Mem.lean ====
section
/-! DEFINITION. The memory instructions, majors 32 to 37, and the two events that perform lane accesses (R131 to R135,
R282, R283, R325 to R331, R353, R361, R365, R366). -/

namespace Sys2Proof.Machine

open Sys2Proof

/-- The access size of SZ in bytes (R131). -/
def szBytes (x : Ext) : Nat := 2 ^ Fields.sz x

/-- A scoreboard hold of a register range; the access numbers it. -/
def holdRegs (file first count : Nat) : Hold := { op := 0, file := file, first := first, count := count }

/-- A load's part of an access. -/
def loadOp (s : State) (k : Issue) (x : Ext) (kd : AccKind) (n : Nat) (scratch : Bool) : MemOp :=
  { kind := kd, bytes := n, ty := x.ty, d := x.d.toNat, ctr := .l, blocks := kd == .lds,
    holds := [holdRegs (if x.dU then 1 else 0) x.d.toNat (regsOf n)],
    addr := effAddr k.g x,
    check := if scratch then checkScratch s k.g n else checkVirtual s k.g kd n,
    data := fun _ => 0, data2 := fun _ => 0,
    zero := fun L g => g.fill x.d.toNat L n 0 }

/-- The low n bytes that a store takes from D (R131, R365). -/
def storeData (k : Issue) (x : Ext) (n L : Nat) : BitVec 128 :=
  let r (i : Nat) : Word := if x.dU then k.g.uget (x.d.toNat + i) else k.g.vget (x.d.toNat + i) L
  let v := (List.range (regsOf n)).foldr (fun i acc => (r i).toNat + 2 ^ 32 * acc) 0
  BitVec.ofNat 128 (v % 2 ^ (8 * n))

/-- A store's part of an access. DEDUCED (log 61). -/
def storeOp (s : State) (k : Issue) (x : Ext) (kd : AccKind) (n : Nat) (scratch : Bool) : MemOp :=
  { kind := kd, bytes := n, ty := x.ty, d := x.d.toNat, ctr := .s, blocks := false, holds := [],
    addr := effAddr k.g x,
    check := if scratch then checkScratch s k.g n else checkVirtual s k.g kd n,
    data := storeData k x n, data2 := fun _ => 0 }

def execLd (x : Ext) (s : State) : Host.Outcome State Fault Refusal :=
  runInstr (.ld x) x.guard (fun k s =>
    issueVirtual k (loadOp s k x .ld (szBytes x) false) s) s

def execSt (x : Ext) (s : State) : Host.Outcome State Fault Refusal :=
  runInstr (.st x) x.guard (fun k s => issueVirtual k (storeOp s k x .st (szBytes x) false) s) s

/-- LDS (R329): the split waits until every lane is performed. -/
def execLds (x : Ext) (s : State) : Host.Outcome State Fault Refusal :=
  runInstr (.lds x) x.guard (fun k s =>
    issueScratch k (loadOp s k x .lds (szBytes x) true) s) s

/-- LDX (R331): data and PD together, no wait. -/
def execLdx (x : Ext) (s : State) : Host.Outcome State Fault Refusal :=
  runInstr (.ldx x) x.guard (fun k s =>
    let n := 4 * x.ty.regs
    let op := loadOp s k x (.ldx (Fields.varHi x)) n true
    issueScratch k { op with holds := op.holds ++ [holdRegs 2 (Fields.varHi x) 1],
                             zero := fun L g => (g.fill x.d.toNat L n 0).pset (Fields.varHi x) (laneBit L) 0 } s) s

def execSts (x : Ext) (s : State) : Host.Outcome State Fault Refusal :=
  runInstr (.sts x) x.guard (fun k s => issueScratch k (storeOp s k x .sts (szBytes x) true) s) s

/-- An atomic's part of an access: D is the operand, and for CAS the registers behind it the replacement (R134). -/
def atomicOp (s : State) (k : Issue) (x : Ext) (kd : AccKind) (scratch : Bool) : MemOp :=
  let n := 4 * x.ty.regs
  { loadOp s k x kd n scratch with
    data := storeData k x n,
    data2 := fun L => k.g.rget false x.ty.wide (x.d.toNat + x.ty.regs) L }

def execAtom (x : Ext) (s : State) : Host.Outcome State Fault Refusal :=
  runInstr (.atom x) x.guard (fun k s =>
    issueVirtual k (atomicOp s k x (.atom (Fields.varHi x)) false) s) s

def execAtoms (x : Ext) (s : State) : Host.Outcome State Fault Refusal :=
  runInstr (.atoms x) x.guard (fun k s =>
    issueScratch k (atomicOp s k x (.atoms (Fields.varHi x)) true) s) s

/-- The line-state instructions: the access size is one byte, so no MAL arises (R361). -/
def execSempty (x : Ext) (s : State) : Host.Outcome State Fault Refusal :=
  runInstr (.sempty x) x.guard (fun k s => issueScratch k (storeOp s k x .sempty 1 true) s) s

def execSfill (x : Ext) (s : State) : Host.Outcome State Fault Refusal :=
  runInstr (.sfill x) x.guard (fun k s => issueScratch k (storeOp s k x (.sfill (Fields.sz x)) 1 true) s) s

def execSfe (x : Ext) (s : State) : Host.Outcome State Fault Refusal :=
  runInstr (.sfe x) x.guard (fun k s =>
    let pd := x.d.toNat % 16
    let op := loadOp s k x (.sfe pd) 1 true
    issueScratch k { op with ctr := .uncounted, holds := [holdRegs 2 pd 1], zero := fun L g => g.pset pd (laneBit L) 0 } s) s

/-- LDU: one access for the split; zero when E holds helpers only (R330). -/
def execLdu (x : Ext) (s : State) : Host.Outcome State Fault Refusal :=
  runInstr (.ldu x) x.guard (fun k s =>
    if k.e ≠ 0 ∧ k.real = 0 then advance k (s.modGroup k.gi (fun g => g.fillU x.d.toNat (szBytes x) 0))
    else issueVirtualOnce k (loadOp s k x .ldu (szBytes x) false) s) s

/-- PREF has no architectural effect (R135, R353). -/
def execPref (x : Ext) (s : State) : Host.Outcome State Fault Refusal := runInstr (.pref x) x.guard advance s

/-! ## Event words (R50, R302 to R304) -/

/-- The one access of EVSIG or EVWAIT: A is the address, B the value; a window is MAL. -/
def eventOp (s : State) (k : Issue) (x : Ext) (kd : AccKind) : MemOp :=
  { kind := kd, bytes := 8, ty := .u64, d := 0, ctr := .uncounted, blocks := true, holds := [],
    addr := fun _ => k.g.rget true true x.a.toNat 0,
    check := checkVirtual s k.g kd 8,
    data := fun _ => 0, data2 := fun _ => opB k.g x x.ty.wide 0 }

def execEvsig (x : Ext) (s : State) : Host.Outcome State Fault Refusal :=
  runInstr (.evsig x) x.guard (fun k s => issueOnce k (eventOp s k x .evsig) s) s

def execEvwait (x : Ext) (s : State) : Host.Outcome State Fault Refusal :=
  runInstr (.evwait x) x.guard (fun k s => issueOnce k (eventOp s k x .evwait) s) s

/-! ## Performing lane accesses -/

/-- The kinds that STORE_PERFORMED performs; LOAD_DATA_RETURN performs the others. -/
def AccKind.isStore : AccKind → Bool
  | .st | .sts | .sempty | .sfill _ => true
  | _ => false

/-- One lane of an outstanding access takes its place when nothing holds it back. -/
def performEvent (store : Bool) (id lane : Nat) (s : State) : State :=
  match s.access? id with
  | none => s
  | some a =>
    match a.lanes.find? (fun l => l.lane == lane) with
    | none => s
    | some l =>
      if a.kind.isStore == store && lanePerformable s a l then
        (if a.kind = .lds then deliverToLane a.group (l.addr / 128) (takePlace a l s) else takePlace a l s)
      else s

/-- LOAD_DATA_RETURN: a lane's load, atomic or per-split access is performed (R147, R156, R327). -/
def execLoadDataReturn (acc lane : Nat) (s : State) : Host.Outcome State Fault Refusal :=
  .next (performEvent false acc lane s)

/-- STORE_PERFORMED: a lane's store is performed (R156, R365). -/
def execStorePerformed (acc lane : Nat) (s : State) : Host.Outcome State Fault Refusal :=
  .next (performEvent true acc lane s)

end Sys2Proof.Machine
end

