-- ==== Sys2Proof/Machine/Special.lean ====
section
/-! DEFINITION. Special registers, flags, time, distance and the system instructions: majors 29, 52 and 53, BKPT,
UNIMP and ILL (R17, R67, R68, R80, R84, R233, R234, R258, R313, R363, R364). -/

namespace Sys2Proof.Machine

open Sys2Proof

/-! ## Special registers -/

/-- The binding table of a group's context: physical dies by virtual number (R15). -/
def State.bindOf (s : State) (g : Group) : List Nat := ((s.groupCtx? g).map (fun c => c.bind)).getD []

/-- The virtual die bound to a physical one; 0 when none is. -/
def virtualDie (bind : List Nat) (die : Nat) : Nat := (bind.findIdx? (fun d => d == die)).getD 0

/-- The launch descriptor of a group. -/
def State.descOf (s : State) (g : Group) : Option Desc := (s.groupLaunch? g).map (fun l => l.desc)

/-- The cohort of a block: its linear index modulo the virtual dies (R44). -/
def State.cohortOf (s : State) (g : Group) : Nat :=
  ((s.block? g.block).map (fun b => b.lin % (s.bindOf g).length)).getD 0

/-- The value of a special register for a lane (R67). -/
def specialReg (s : State) (g : Group) (p : Split) (n L : Nat) : Word :=
  let blk (f : Block → Nat) : Word := BitVec.ofNat 32 (((s.block? g.block).map f).getD 0)
  let dsc (f : Desc → Nat) : Word := BitVec.ofNat 32 (((s.descOf g).map f).getD 0)
  match n with
  | 0 => BitVec.ofNat 32 L
  | 1 => BitVec.ofNat 32 (L / 4)
  | 2 => g.groupId
  | 3 => blk (fun b => b.x)
  | 4 => blk (fun b => b.y)
  | 5 => blk (fun b => b.z)
  | 6 => dsc (fun d => d.gridX)
  | 7 => dsc (fun d => d.gridY)
  | 8 => dsc (fun d => d.gridZ)
  | 9 => BitVec.ofNat 32 (s.cohortOf g)
  | 10 => BitVec.ofNat 32 (virtualDie (s.bindOf g) g.die)
  | 11 => BitVec.ofNat 32 (s.bindOf g).length
  | 12 => BitVec.ofNat 32 g.core
  | 13 => BitVec.ofNat 32 p.idx
  | 14 => 0#26 ++ g.flags
  | 15 => 0#26 ++ g.arm
  | 16 => ((s.groupLaunch? g).map (fun l => l.id)).getD 0
  | 17 => BitVec.ofNat 32 (s.groupCtx g)
  | 18 => 0#16 ++ g.helpers
  | _ => 0#16 ++ p.mask

/-- A read that completes 16 cycles after issue: D is held until then (R112, R258). DEDUCED (log 55). -/
def lateRead (k : Issue) (kind : LateKind) (x : Ext) (wide : Bool) (s : State) : State :=
  let op := s.nextId
  let s := { s with nextId := op + 1 }
  let s := s.modGroup k.gi (fun g =>
    { g with inflight := g.inflight ++
        [{ due := s.now + 16, bits := 0, read := some { kind := kind, reg := x.d.toNat, lanes := k.e, op := op } }] })
  s.modSplit k.gi k.si (fun p =>
    { p with holds := p.holds ++ [{ op := op, file := 0, first := x.d.toNat, count := if wide then 2 else 1 }] })

/-- SRD (R68, R364): a number above 19 is OPR whatever E is; FLAGS and ARM are read at the completion. -/
def execSrd (x : Ext) (s : State) : Host.Outcome State Fault Refusal :=
  runInstr (.srd x) x.guard (fun k s =>
    let n := x.var.toNat
    if 20 ≤ n then trapWord { k with e := k.sp.mask } .opr s
    else if (n = 14 ∨ n = 15) ∧ x.dU = false then
      if k.e = 0 then advance k s else lateRead k (if n = 14 then .flags else .arm) x false (advance k s)
    else advance k (s.modGroup k.gi (writeD x false k.e (fun L => lo32 (specialReg s k.g k.sp n L))))) s

/-- SWR: only FLAGS and ARM, at once (R68, R364). -/
def execSwr (x : Ext) (s : State) : Host.Outcome State Fault Refusal :=
  runInstr (.swr x) x.guard (fun k s =>
    let v : FlagBits := (k.g.uget x.a.toNat).extractLsb' 0 6
    match x.var.toNat with
    | 14 => advance k (if k.e = 0 then s else s.modGroup k.gi (fun g => { g with flags := v }))
    | 15 => advance k (if k.e = 0 then s else s.modGroup k.gi (fun g => { g with arm := v }))
    | _ => trapWord { k with e := k.sp.mask } .opr s) s

/-- FLAGS: after every earlier instruction's merge, read and clear in one step (R313). -/
def execFlags (x : Ext) (s : State) : Host.Outcome State Fault Refusal :=
  runInstr (.flags x) x.guard (fun k s =>
    advance k (if k.e = 0 then s
      else s.modGroup k.gi (fun g =>
        let m := g.mergeAll
        let g := { m with flags := m.flags &&& ~~~((opB k.g x false 0).extractLsb' 0 6) }
        g.uset x.d.toNat (0#26 ++ m.flags)))) s

/-- VDHOP: grid steps between two virtual dies (R17). -/
def vdhopOp (bind : List Nat) (a b : Nat) : Word :=
  match bind[a]?, bind[b]? with
  | some p, some q =>
    let dist (x y : Nat) : Nat := if x ≤ y then y - x else x - y
    BitVec.ofNat 32 (dist (p % 3) (q % 3) + dist (p / 3) (q / 3))
  | _, _ => 0xFFFFFFFF#32

def execVdhop (x : Ext) (s : State) : Host.Outcome State Fault Refusal :=
  aluExt (.vdhop x) x false (fun g L =>
    (lo32 (vdhopOp (s.bindOf g) (opA g x false L).toNat (opB g x false L).toNat), 0)) s

/-! ## Time -/

/-- The nanosecond counter of a die (R257). DESIGN CHOICE (log 10). -/
def State.timeOf (s : State) (die : Nat) : DWord := s.dieNs.get 0 die

/-- CLK and TIME: at once into a uniform D, at the completion into a vector D (R258, R296). DEDUCED (log 55). -/
def clockRead (i : Instr) (x : Ext) (kind : LateKind) (s : State) : Host.Outcome State Fault Refusal :=
  runInstr i x.guard (fun k s =>
    if k.e = 0 then advance k s
    else if x.dU then
      advance k (s.modGroup k.gi (writeD x true k.e (fun _ => if kind = .clk then s.cycle else s.timeOf k.g.die)))
    else lateRead k kind x true (advance k s)) s

def execClk (x : Ext) (s : State) := clockRead (.clk x) x .clk s
def execTime (x : Ext) (s : State) := clockRead (.time x) x .time s

/-- SLEEP: nothing when the instant has come, else a wait at the instruction (R258, R363). -/
def execSleep (x : Ext) (s : State) : Host.Outcome State Fault Refusal :=
  runInstr (.sleep x) x.guard (fun k s =>
    let t := s.timeOf k.g.die
    let instant := if x.var.getLsbD 0 then t + opB k.g x true 0 else opB k.g x true 0
    if k.e = 0 ∨ instant.toNat ≤ t.toNat then advance k s
    else s.modSplit k.gi k.si (fun p => { p with wait := .sleep instant k.nextPc })) s

/-! ## System instructions -/

/-- The 16-bit code of SVC and TRAP (R233). -/
def trapCode (x : Ext) (k : Issue) : Nat := (opB k.g x false 0).toNat % 2 ^ 16

/-- TRAP traps always; a split whose E holds no lane but helpers goes on (R234). -/
def execTrap (x : Ext) (s : State) : Host.Outcome State Fault Refusal :=
  runInstr (.trap x) x.guard (fun k s =>
    if k.real = 0 then advance k s else trapAt k .trap (BitVec.ofNat 64 (trapCode x k)) k.e s) s

/-- The lowest of the 16 service cores that runs no call (R234, R240). DEDUCED (log 33). -/
def freeCore (s : State) : Option Nat :=
  (List.range 16).find? (fun n => s.ctxs.all (fun c => (c.svclog.getD n none).isNone))

/-- Calls whose records stand in their rings and that no service core runs yet: context and sequence number. The call of a killed
context is never made: nothing consumes its record, and HEAD stays behind it. DESIGN CHOICE (log 105). -/
def pendingCalls (s : State) : List (Nat × Nat) :=
  (s.ctxs.filter (fun c => c.state != .saved && c.state != .killed)).flatMap (fun c =>
    ((c.traps.take c.inRing).filter (fun r =>
      r.cause == .svc && !r.consumed && !c.svclog.contains (some r.seq.toNat))).map (fun r => (c.num, r.seq.toNat)))

/-- Free service cores take the calls that wait, each entered in its context's log (R240 SVCLOG). DEDUCED (log 33). -/
def assignCalls (s : State) : State :=
  (pendingCalls s).foldl (fun s x => match freeCore s with
    | some n => s.modCtx x.1 (fun c => { c with svclog := modNth (fun _ => some x.2) c.svclog n })
    | none => s) s

/-- SVC traps to a service core, which takes the call once its record stands in the ring; the split keeps where it continues when the
service finishes; in a handler it is HND (R190, R231,
R234). -/
def execSvc (x : Ext) (s : State) : Host.Outcome State Fault Refusal :=
  runInstr (.svc x) x.guard (fun k s =>
    if k.real = 0 then advance k s
    else if k.g.handler.isSome then trapAt k .hnd 0 k.e s
    else (trapAt k .svc (BitVec.ofNat 64 (trapCode x k)) k.e s).modSplit k.gi k.si (fun p =>
      { p with wait := .service (trapCode x k) k.nextPc })) s

/-- BKPT traps when the context's DEBUG bit is set, else it is a counted NOP (R234, R287). -/
def execBkpt (gd : Guard) (code : BitVec 8) (s : State) : Host.Outcome State Fault Refusal :=
  runInstr (.bkpt gd code) gd (fun k s =>
    if k.real = 0 then advance k s
    else if ((s.groupCtx? k.g).map (fun c => c.debug)).getD false then trapAt k .bkpt (0#56 ++ code) k.e s
    else { advance k s with perf := { s.perf with bkpt := s.perf.bkpt + 1 } }) s

/-- ILL: the word is no instruction; the split stops at it whatever its guard (R80, R81). -/
def execIll (w0 : Word) (s : State) : Host.Outcome State Fault Refusal :=
  runInstr (.ill w0) ⟨false, 15⟩ (fun k s => trapWord { k with e := k.sp.mask, word0 := w0 } .ill s) s

/-- UNIMP is counted; with a decoder for the major in the library the group is parked for emulation, otherwise the
split takes ILL (R82 to R84). -/
def execUnimp (w0 : Word) (s : State) : Host.Outcome State Fault Refusal :=
  runInstr (.unimp w0) ⟨false, 15⟩ (fun k s =>
    let s := { s with perf := { s.perf with unimp := s.perf.unimp + 1 } }
    if s.emuMajors.contains (majOf w0) then s.modSplit k.gi k.si (fun p => { p with wait := .emulation w0 })
    else trapWord { k with e := k.sp.mask, word0 := w0 } .ill s) s

end Sys2Proof.Machine
end

