-- ==== Sys2Proof/Machine/Barrier.lean ====
section
/-! DEFINITION. Waiting for counters, barriers, and the end of lanes: WAITC, BAR, CBAR and EXIT (R32, R47 to R49,
R113, R186, R187, R190, R191, R284, R294, R305, R318). -/

namespace Sys2Proof.Machine

open Sys2Proof

/-! ## WAITC -/

/-- Every counter is at or below its bound; 15 is not waited on (R186). -/
def countersWithin (g : Group) (t c s l : Nat) : Bool :=
  (t == 15 || decide (g.cntT ≤ t)) && (c == 15 || decide (g.cntC ≤ c)) && (s == 15 || decide (g.cntS ≤ s)) &&
    (l == 15 || decide (g.cntL ≤ l))

/-- A pending fault that a WAITC delivers: one of a class that it covers, or a MMAG's (R187, R203). -/
def waitcCovers (t c : Nat) (f : PendingFault) : Bool :=
  f.mmag.isSome || (if f.classC then c != 15 else t != 15)

/-- WAITC (R186, R375). -/
def execWaitc (gd : Guard) (t c s_ l : BitVec 4) (s : State) : Host.Outcome State Fault Refusal :=
  runInstr (.waitc gd t c s_ l) gd (fun k s =>
    if k.e = 0 then advance k s
    else
      deliverOr k (waitcCovers t.toNat c.toNat) (fun s =>
        if countersWithin k.g t.toNat c.toNat s_.toNat l.toNat then advance k s
        else s.modSplit k.gi k.si (fun p =>
          { p with wait := .waitc t.toNat c.toNat s_.toNat l.toNat, age := 0, reserved := false })) s) s

/-! ## Barriers -/

/-- A split waits at a barrier; ids 16 to 19 are CBAR 0 to 3 (R229). -/
def waitsAt (id : Nat) (p : Split) : Bool :=
  match p.wait with
  | .bar i => i == id
  | .cbar i => i + 16 == id
  | _ => false

/-- A group has arrived at a barrier: every split that holds a non-exited lane waits there (R47). -/
def arrived (id : Nat) (g : Group) : Bool := g.splits.all (waitsAt id)

/-- The groups that a barrier counts: those of the given blocks that have not retired, handlers excepted (R38, R47). -/
def barrierGroups (s : State) (bis : List Nat) : List Group :=
  s.groups.filter (fun g => bis.contains g.block && !g.retired && g.handler.isNone)

/-- The blocks of a launch that form a cohort (R44, R48). -/
def cohortBlocks (s : State) (li c : Nat) : List Nat :=
  let n := (((s.launch? li).bind (fun l => s.ctx? l.ctx)).map (fun x => x.bind.length)).getD 1
  (s.blocks.zipIdx.filter (fun x => x.1.launch == li && x.1.lin % n == c)).map (fun x => x.2)

/-- The blocks that a barrier spans: the block itself, or its cohort (R47, R48). -/
def barrierSpan (s : State) (bi id : Nat) : List Nat :=
  if id < 16 then [bi]
  else
    match s.block? bi with
    | none => [bi]
    | some b =>
      let n := (((s.launch? b.launch).bind (fun l => s.ctx? l.ctx)).map (fun x => x.bind.length)).getD 1
      cohortBlocks s b.launch (b.lin % n)

/-- The block that keeps the watchdog count of a barrier. -/
def barrierKeeper (s : State) (bi id : Nat) : Nat := (barrierSpan s bi id).headD bi

/-- The waiting splits of a barrier changed, and its watchdog count cleared (R49). -/
def endBarrier (bi id : Nat) (f : Split → Split) (s : State) : State :=
  let span := barrierSpan s bi id
  let s := s.modBlock (barrierKeeper s bi id) (fun b => { b with barCount := b.barCount.put 0 id 0 })
  { s with groups := s.groups.map (fun g =>
      if span.contains g.block then
        { g with splits := g.splits.map (fun p => if waitsAt id p then f p else p) }
      else g) }

/-- A barrier whose last group has arrived is released: its splits continue behind the instruction (R47, R48). -/
def releaseBarrier (bi id : Nat) (s : State) : State :=
  let gs := barrierGroups s (barrierSpan s bi id)
  if gs.any (fun g => g.splits.any (waitsAt id)) && gs.all (arrived id) then
    endBarrier bi id (fun p => p.goto (p.pc + 12)) s
  else s

/-- Every barrier that a group of the block may complete by arriving or retiring. -/
def releaseBarriers (bi : Nat) (s : State) : State := (List.range 20).foldl (fun s id => releaseBarrier bi id s) s

/-- The checks of BAR, CBAR and EXIT before the split arrives or its lanes end: a cancelled MMAG's fault (R203), then
ARITH (R113). -/
def arithOr (k : Issue) (body : State → State) (s : State) : State :=
  deliverOr k (fun f => f.mmag.isSome) (fun s =>
    if k.g.armed ≠ 0 then trapAt k .arith (0#58 ++ k.g.armed) k.e s else body s) s

/-- The watchdog count starts from zero when a split begins to wait where no other waits (R49). -/
def restartCount (bi id : Nat) (s : State) : State :=
  if s.groups.any (fun g => (barrierSpan s bi id).contains g.block && g.splits.any (waitsAt id)) then s
  else s.modBlock (barrierKeeper s bi id) (fun b => { b with barCount := b.barCount.put 0 id 0 })

/-- A split arrives at the barrier of an id and waits there. -/
def arriveAt (k : Issue) (id : Nat) (w : Wait) (s : State) : State :=
  releaseBarriers k.g.block ((restartCount k.g.block id s).modSplit k.gi k.si (fun p =>
    { p with wait := w, since := s.now, age := 0, reserved := false }))

/-- BAR (R47, R284): the check of R113, then HND in a handler, in the order of the entry's text (R81). -/
def execBar (x : Ext) (s : State) : Host.Outcome State Fault Refusal :=
  runInstr (.bar x) x.guard (fun k s =>
    arithOr k (fun s =>
      if k.g.handler.isSome then trapAt k .hnd 0 k.e s
      else arriveAt k (x.var.toNat % 16) (.bar (x.var.toNat % 16)) s) s) s

/-- The launch of a group is concurrent (R41). DEDUCED (log 59). -/
def concurrent (s : State) (g : Group) : Bool := ((s.descOf g).map (fun d => d.progress == 0)).getD false

/-- CBAR: PROT outside a concurrent launch, then the checks of BAR (R294). DEDUCED (log 59). -/
def execCbar (x : Ext) (s : State) : Host.Outcome State Fault Refusal :=
  runInstr (.cbar x) x.guard (fun k s =>
    if !concurrent s k.g then trapAt k .prot 0 k.e s
    else
      arithOr k (fun s =>
        if k.g.handler.isSome then trapAt k .hnd 0 k.e s
        else arriveAt k (16 + x.var.toNat % 4) (.cbar (x.var.toNat % 4)) s) s) s

/-! ## EXIT -/

/-- Lanes of a group that are present, no helpers, and have not ended. -/
def Group.alive (g : Group) : LaneMask := g.present &&& ~~~g.helpers &&& ~~~g.ended

/-- The helper lanes whose quad has no other lane left (R23). -/
def Group.idleHelpers (g : Group) : LaneMask :=
  g.helpers &&& maskOf (fun L => (List.range 4).all (fun q => !g.alive.getLsbD (L / 4 * 4 + q)))

/-- Lanes end: they leave their splits, and a split without lanes leaves the table. -/
def Group.endLanes (g : Group) (m : LaneMask) : Group :=
  { g with ended := g.ended ||| m,
           splits := (g.splits.map (fun p => { p with mask := p.mask &&& ~~~m })).filter (fun p => p.mask != 0),
           rets := allLanes.map (fun L => if m.getLsbD L then [] else g.rets.getD L []) }

/-- A group retires: its registers, tiles and accumulators are released (R32, R56). -/
def Group.retire (g : Group) : Group :=
  { g with retired := true, splits := [], stream := none, vec := [], uni := [], pred := [], tile := [], scale := [], acc := [],
           carry := [], affine := 0 }

/-- The counters of a group are all zero. -/
def Group.counted (g : Group) : Bool := g.cntL == 0 && g.cntS == 0 && g.cntC == 0 && g.cntT == 0

/-- Steps 3 to 5 of R305 on the group. -/
def Group.exitLanes (g : Group) (si : Nat) (e : LaneMask) (next : DWord) : Group :=
  let g := (g.endLanes e).modSplit si (fun p => p.goto next)
  let g := g.endLanes g.idleHelpers
  if g.alive = 0 then g.retire else g

/-- The check of step 2 of R305; a split that waits in step 5 has passed it. -/
def exitCheck (k : Issue) (body : State → State) (s : State) : State :=
  if k.sp.wait = .retire then body s else arithOr k body s

/-- EXIT (R305). -/
def execExit (gd : Guard) (s : State) : Host.Outcome State Fault Refusal :=
  runInstr (.exit gd) gd (fun k s =>
    if k.e = 0 then advance k s
    else exitCheck k (fun s =>
      if k.g.handler.isSome then trapAt k .hnd 0 k.e s else
      let last := k.g.alive &&& ~~~k.e == 0
      let finish (s : State) : State :=
        releaseBarriers k.g.block (s.modGroup k.gi (fun g => g.mergeAll.exitLanes k.si k.e k.nextPc))
      if last && !k.g.counted then
        s.modSplit k.gi k.si (fun p => { p with wait := .retire, age := 0, reserved := false })
      else if last then deliverOr k (fun _ => true) finish s
      else finish s) s) s

end Sys2Proof.Machine
end

