-- ==== Sys2Proof/Machine/Channel.lean ====
section
/-! DEFINITION. Dataflow channels: major 49 and the credit's arrival (R165, R224 to R228, R295). -/

namespace Sys2Proof.Machine

open Sys2Proof

def State.channel? (s : State) (li ch : Nat) : Option Channel :=
  s.channels.find? (fun c => c.launch == li && c.num == ch)

def State.modChannel (s : State) (li ch : Nat) (f : Channel → Channel) : State :=
  { s with channels := s.channels.map (fun c => if c.launch = li ∧ c.num = ch then f c else c) }

/-- The number of a launch's block, by its linear index. -/
def blockOf (s : State) (li lin : Nat) : Nat := (s.blocks.findIdx? (fun b => b.launch == li && b.lin == lin)).getD s.blocks.length

/-- Where a channel's buffer begins in its consumer block's scratchpad: beyond SCRATCH, in ascending channel number
(R225). -/
def chanBase (s : State) (c : Channel) : Nat :=
  ((s.launch? c.launch).map (fun l => l.desc.scratch)).getD 0 +
    ((s.channels.filter (fun d => d.launch == c.launch && d.cons == c.cons && decide (d.num < c.num))).map Channel.bytes).sum

/-- The message in a slot of a buffer: a word for each lane. -/
def chanRead (s : State) (c : Channel) (slot : Nat) : List Word :=
  let bi := blockOf s c.launch c.cons
  allLanes.map (fun L => BitVec.ofNat 32 (natLE ((List.range 4).map (fun b => s.spadGet bi (chanBase s c + 64 * slot + 4 * L + b)))))

/-- A message enters the slot behind the full ones. -/
def chanWrite (c : Channel) (ws : List Word) (s : State) : State :=
  let off := chanBase s c + 64 * ((c.head + c.count) % c.depth)
  s.modBlock (blockOf s c.launch c.cons) (fun b =>
    { b with scratch := Tab.putAll 0 b.scratch ((ws.flatMap (fun w => bytesLE 4 w.toNat)).zipIdx.map (fun y => (off + y.2, y.1))) })

/-- The oldest message leaves its slot, and a credit leaves for the producer. -/
def Channel.taken (c : Channel) : Channel :=
  { c with head := (c.head + 1) % c.depth, count := c.count - 1, flying := c.flying + 1 }

/-- A block of a launch has completed. -/
def blockDone (s : State) (li lin : Nat) : Bool :=
  s.blocks.any (fun b => b.launch == li && b.lin == lin && b.complete)

/-- The launch of a group as a number. -/
def State.launchOf (s : State) (g : Group) : Nat := ((s.block? g.block).map (fun b => b.launch)).getD 0

/-- The channel that an instruction may use as its producer or its consumer; none is CHN (R228). -/
def channelFor (s : State) (g : Group) (ch : Nat) (producer : Bool) : Option Channel :=
  if !concurrent s g || g.handler.isSome then none
  else
    match s.channel? (s.launchOf g) ch with
    | none => none
    | some c =>
      let lin := ((s.block? g.block).map (fun b => b.lin)).getD 0
      if (if producer then c.prod else c.cons) = lin then some c else none

/-- The channel number in B. -/
def chanNum (x : Ext) (k : Issue) : Nat := (opB k.g x false 0).toNat

/-- CHN with the channel number. -/
def trapChan (x : Ext) (k : Issue) (s : State) : State := trapAt k .chn (BitVec.ofNat 64 (chanNum x k)) k.e s

/-- The split waits for the channel at the instruction. -/
def waitChan (k : Issue) (w : Wait) (s : State) : State :=
  s.modSplit k.gi k.si (fun p => { p with wait := w, since := s.now, age := 0, reserved := false })

/-- A channel instruction changes nothing: no lane is in E, or the split is made only of helper lanes (R23, R227). -/
def chanIdle (k : Issue) : Bool := k.e == 0 || k.sp.mask &&& ~~~k.g.helpers == 0

/-- CHSEND (R227, R228, R295). -/
def execChsend (x : Ext) (s : State) : Host.Outcome State Fault Refusal :=
  runInstr (.chsend x) x.guard (fun k s =>
    if chanIdle k then advance k s
    else
      match channelFor s k.g (chanNum x k) true with
      | none => trapChan x k s
      | some c =>
        if blockDone s c.launch c.cons then trapChan x k s
        else if c.credits = 0 then waitChan k (.chanSend c.launch c.num) s
        else
          let m := allLanes.map (fun L => if k.real.getLsbD L then low (opA k.g x false L) else 0)
          advance k ((chanWrite c m s).modChannel c.launch c.num (fun c =>
            { c with credits := c.credits - 1, count := c.count + 1 }))) s

/-- CHRECV (R227, R228, R295): helper lanes receive zero. DEDUCED (log 50). -/
def execChrecv (x : Ext) (s : State) : Host.Outcome State Fault Refusal :=
  runInstr (.chrecv x) x.guard (fun k s =>
    if chanIdle k then advance k s
    else
      match channelFor s k.g (chanNum x k) false with
      | none => trapChan x k s
      | some c =>
        if c.count = 0 then
          (if blockDone s c.launch c.prod then trapChan x k s else waitChan k (.chanRecv c.launch c.num) s)
        else
          let m := chanRead s c c.head
          let s := s.modChannel c.launch c.num Channel.taken
          advance k (s.modGroup k.gi (fun g =>
            g.vsetLanes false x.d.toNat k.e (fun L => if k.real.getLsbD L then lo32 (m.getD L 0) else 0)))) s

/-- CHPEEK: the credits or the buffer state, and zero in helper lanes (R227). DEDUCED (log 50). -/
def execChpeek (x : Ext) (s : State) : Host.Outcome State Fault Refusal :=
  runInstr (.chpeek x) x.guard (fun k s =>
    let space := x.var.getLsbD 0
    if chanIdle k then advance k s
    else
      match channelFor s k.g (chanNum x k) space with
      | none => trapChan x k s
      | some c =>
        let bit := if space then decide (0 < c.credits) else decide (0 < c.count)
        advance k (s.modGroup k.gi (fun g => writeP x k.e (fun L => bit && k.real.getLsbD L) g))) s

/-- CHANNEL_CREDIT: a credit flit reaches the producer (R227). -/
def execChannelCredit (li ch : Nat) (s : State) : Host.Outcome State Fault Refusal :=
  .next (s.modChannel li ch (fun c =>
    if c.flying = 0 then c else { c with flying := c.flying - 1, credits := c.credits + 1 }))

end Sys2Proof.Machine
end

