-- ==== Sys2Proof/Machine/Layout.lean ====
section
/-! DEFINITION. Layout records, boxes and their streams (R172 to R178). -/

namespace Sys2Proof.Machine

open Sys2Proof Sys2Proof.Num

/-! ## The record (R172) -/

/-- A little-endian field of a byte list. -/
def fieldLE (bs : List Byte) (off n : Nat) : Nat := natLE ((bs.drop off).take n)

def parseRecord (bs : List Byte) : Record :=
  { base := BitVec.ofNat 64 (fieldLE bs 0 8), scale := BitVec.ofNat 64 (fieldLE bs 8 8),
    ext := (List.range 5).map (fun d => fieldLE bs (16 + 4 * d) 4),
    stride := 0 :: (List.range 4).map (fun d => fieldLE bs (36 + 8 * d) 8),
    box := (List.range 5).map (fun d => fieldLE bs (68 + 2 * d) 2),
    fmt := fieldLE bs 78 1, sgran := fieldLE bs 79 1, swz := fieldLE bs 80 1, rank := fieldLE bs 81 1,
    flags := fieldLE bs 82 2, clamp := BitVec.ofNat 32 (fieldLE bs 84 4), fill := BitVec.ofNat 32 (fieldLE bs 88 4),
    link := BitVec.ofNat 64 (fieldLE bs 92 8), reservedZero := (bs.drop 100).all (fun b => b == 0) }

def Record.role (r : Record) : Nat := r.flags % 4
/-- OOB (R172): a fault outside the extents. -/
def Record.oob (r : Record) : Bool := r.flags / 4 % 2 == 1
def Record.dim (l : List Nat) (d : Nat) : Nat := l.getD d 0

/-- The element width (R173). -/
def fmtWidth (fmt : Nat) : Nat :=
  match fmt with
  | 2 | 3 | 9 => 64
  | 0 | 1 | 8 => 32
  | 4 | 5 | 10 | 11 => 16
  | 6 | 7 | 12 | 13 => 8
  | 14 => 4
  | _ => 2

def Record.width (r : Record) : Nat := fmtWidth r.fmt

/-- The rules of R172 to R174 on one dimension. -/
def Record.dimOk (r : Record) (d : Nat) : Bool :=
  if d < r.rank then
    Record.dim r.ext d != 0 && Record.dim r.box d != 0 &&
      (d == 0 || (Record.dim r.stride d != 0 && Record.dim r.stride d % 16 == 0))
  else Record.dim r.ext d == 0 && Record.dim r.box d == 0 && (d == 0 || Record.dim r.stride d == 0)

/-- The rules of R172 to R174, with those of R178 on an index producer's own fields. -/
def Record.ok (r : Record) : Bool :=
  decide (1 ≤ r.rank) && decide (r.rank ≤ 5) && (List.range 5).all r.dimOk && r.base.toNat % 16 == 0 &&
  decide (r.fmt ≤ 15) && decide (r.swz ≤ 5) && decide (r.flags < 8) && decide (r.role ≤ 1) && r.reservedZero &&
  (if r.sgran = 0 then r.scale == 0 else r.sgran == 32 && (r.fmt == 12 || r.fmt == 13 || r.fmt == 14)) &&
  (if r.role = 0 then r.link == 0 else decide (r.fmt ≤ 1) && r.swz == 0 && r.sgran == 0 && r.clamp == 0 && r.scale == 0)

/-- A record with its consumer when it is an index producer. -/
abbrev RecPair := Record × Option Record

/-- The record that describes the elements (R178). -/
def RecPair.elems (rq : RecPair) : Record := rq.2.getD rq.1

/-- The rules of a record and its consumer (R178). -/
def RecPair.ok (rq : RecPair) : Bool :=
  rq.1.ok &&
  match rq.2 with
  | none => true
  | some q => q.ok && q.role == 0 && (q.rank != 1 || decide (8 ≤ q.width))

/-! ## Streams (R173, R177, R178) -/

/-- An element of a stream: its coordinates, whether it lies inside the tensor, and its bit address. -/
structure Elem where
  co : List Int
  inside : Bool
  bit : Nat
deriving DecidableEq, Repr

/-- A coordinate. -/
def coord (e : List Int) (d : Nat) : Int := e.getD d 0

/-- Where a record stores an element (R173). -/
def Record.elem (r : Record) (e : List Int) : Elem :=
  let inside := (List.range r.rank).all (fun d => decide (0 ≤ coord e d) && decide (coord e d < Record.dim r.ext d))
  let w : Int := r.width
  let far := (List.range r.rank).foldl (fun a d => if d = 0 then a else a + coord e d * Record.dim r.stride d) 0
  let byte : Int := ((r.base.toNat : Int) + coord e 0 * w / 8 + far) % 2 ^ 64
  { co := e, inside := inside, bit := byte.toNat * 8 + (coord e 0 * w % 8).toNat }

/-- The coordinates of a box at an origin in box order: dimension 0 fastest. -/
def boxCoords (box : List Nat) (org : List Int) : List (List Int) :=
  (List.range 5).reverse.foldl (fun acc d =>
    let n := max 1 (Record.dim box d)
    acc.flatMap (fun e => (List.range n).map (fun (i : Nat) => (coord org d + (i : Int)) :: e))) [[]]

/-- The stream of a plain record. -/
def Record.stream (r : Record) (org : List Int) : List Elem := (boxCoords r.box org).map r.elem

/-- A list with one entry changed. -/
def setAt {α : Type} (l : List α) (n : Nat) (a : α) : List α := modNth (fun _ => a) l n

/-- The slab of a consumer at one index (R178): its outermost dimension stands at the index with extent 1. -/
def slab (q : Record) (orgQ : List Int) (k : Int) : List Elem :=
  let org := setAt ((List.range 5).map (fun d => if d + 1 < q.rank then coord orgQ d else 0)) (q.rank - 1) k
  (boxCoords (setAt q.box (q.rank - 1) 1) org).map q.elem

/-- Elements of a box, and of a composed stream. -/
def boxCount (box : List Nat) : Nat := box.foldl (fun n b => n * max 1 b) 1
def RecPair.count (rq : RecPair) : Nat :=
  match rq.2 with
  | none => boxCount rq.1.box
  | some q => boxCount rq.1.box * boxCount (setAt q.box (q.rank - 1) 1)

/-- Bytes of a stream. -/
def RecPair.bytes (rq : RecPair) : Nat := rq.count * rq.elems.width / 8

/-! ## Origins and limits (R177, R178) -/

/-- The uniform registers of the origin block that an instruction reads, counted from sC. -/
def RecPair.originRegs (rq : RecPair) : List Nat :=
  List.range rq.1.rank ++
  match rq.2 with
  | none => []
  | some q => (List.range (q.rank - 1)).map (fun d => 5 + d)

/-- The origin block as signed values; registers that are not read stay 0. -/
def originOf (g : Group) (c : Nat) (rq : RecPair) : List Int :=
  (List.range 9).map (fun i => if rq.originRegs.contains i then (g.uget (c + i)).toInt else 0)

/-- A register of the origin block lies beyond the group's uniform count. -/
def originBad (g : Group) (c : Nat) (rq : RecPair) : Bool := rq.originRegs.any (fun i => decide (g.ns ≤ c + i))

/-- The origin of a composed stream's consumer. -/
def consumerOrg (org : List Int) : List Int := org.drop 5

/-- The dimension-0 origin to which the limits apply. -/
def RecPair.o0 (rq : RecPair) (org : List Int) : Int :=
  match rq.2 with
  | none => coord org 0
  | some q => if q.rank = 1 then 0 else coord org 5

/-- The limits of R177 on an origin and the stream. -/
def RecPair.limitsOk (rq : RecPair) (org : List Int) : Bool :=
  let r := rq.elems
  (rq.o0 org * (r.width : Int)) % 8 == 0 && Record.dim r.box 0 * r.width % 8 == 0 &&
    decide (rq.count * r.width ≤ 8 * 2 ^ 24)

/-- The elements of a stream that are known at issue: those of a plain record, or the producer's own. -/
def RecPair.ownStream (rq : RecPair) (org : List Int) : List Elem := rq.1.stream org

/-- The lowest address of an element outside the tensor where the record asks for a fault (R177). -/
def outsideOf (r : Record) (es : List Elem) : Option DWord :=
  if r.oob then
    match es.filter (fun e => !e.inside) with
    | [] => none
    | bad => some (lowest (bad.map (fun e => BitVec.ofNat 64 (e.bit / 8))))
  else none

/-- The index that a producer's element holds: signed by FMT 0 (R178). -/
def indexOf (p : Record) (bits : Nat) : Int := if p.fmt = 0 then intOf true 32 bits else (bits % 2 ^ 32 : Nat)

/-- The fill element: the low bits of FILL, which has 32; one of 64 bits is FILL extended with zeros. DESIGN CHOICE (log 87). -/
def Record.fillElem (r : Record) : Nat := r.fill.toNat % 2 ^ r.width

/-- The place from which a stream element is read: memory, or the fill value. -/
def Record.source (r : Record) (e : Elem) : Place := if e.inside then .mem e.bit else .fill r.fillElem

/-- The place to which a stream element is written: memory, or nowhere. -/
def sink (e : Elem) : Place := if e.inside then .mem e.bit else .drop

/-- The place of the scale of an element (R174); outside the tensor it is 0x7F, and writes are dropped. -/
def Record.scaleBit (r : Record) (e : Elem) : Nat :=
  let x (d : Nat) : Nat := (coord e.co d).toNat
  let n (d : Nat) : Nat := Record.dim r.ext d
  let rows := x 1 + n 1 * (x 2 + n 2 * (x 3 + n 3 * x 4))
  ((r.scale.toNat + x 0 / 32 + (n 0 + 31) / 32 * rows) % 2 ^ 64) * 8

end Sys2Proof.Machine
end

