-- ==== Sys2Proof/Machine/Elementary.lean ====
section
/-! DEFINITION. The functions of major 18 (R311, R312): correctly rounded reciprocal, roots, powers, logarithm, sine,
cosine and hyperbolic tangent. The transcendental ones are computed in fixed point with an error bound; when both ends
of the bound round to one code that code is the correctly rounded result, otherwise the precision is raised. -/

namespace Sys2Proof.Num

open Sys2Proof

/-! ## Fixed-point series: a number x stands for x ÷ 2^P -/

/-- Σ t, t·y/1, t·y²/(1·2), …: the exponential series from term k on. -/
def expSeries (P y : Nat) : Nat → Nat → Nat → Nat → Nat
  | 0, _, _, acc => acc
  | n + 1, k, t, acc => expSeries P y n (k + 1) (t * y / 2 ^ P / (k + 1)) (acc + t)

/-- e^y. -/
def fxExp (P y : Nat) : Nat := expSeries P y P 0 (2 ^ P) 0

/-- An alternating series in y² whose term k + 2 divides by (k + 1)(k + 2). -/
def altSeries (P y2 : Nat) : Nat → Nat → Nat → Int → Bool → Int
  | 0, _, _, acc, _ => acc
  | n + 1, k, t, acc, minus =>
    altSeries P y2 n (k + 2) (t * y2 / 2 ^ P / ((k + 1) * (k + 2))) (if minus then acc - t else acc + t) (!minus)

def fxSin (P y : Nat) : Nat := (altSeries P (y * y / 2 ^ P) (P / 2) 1 y 0 false).toNat
def fxCos (P y : Nat) : Nat := (altSeries P (y * y / 2 ^ P) (P / 2) 0 (2 ^ P) 0 false).toNat

/-- e^(−y). -/
def fxExpNeg (P y : Nat) : Nat := 2 ^ P * 2 ^ P / fxExp P y

/-- Σ z, z³/3, z⁵/5, …: the inverse hyperbolic tangent. -/
def atanhSeries (P z2 : Nat) : Nat → Nat → Nat → Nat → Nat
  | 0, _, _, acc => acc
  | n + 1, k, t, acc => atanhSeries P z2 n (k + 2) (t * z2 / 2 ^ P) (acc + t / k)

def fxAtanh (P z : Nat) : Nat := atanhSeries P (z * z / 2 ^ P) P 1 z 0

/-- ln 2 = 2 atanh(1/3). -/
def fxLn2 (P : Nat) : Nat := 2 * fxAtanh P (2 ^ P / 3)

/-- The inverse tangent of 1/n: alternating powers of 1/n². -/
def atanSeries (n2 : Nat) : Nat → Nat → Nat → Int → Bool → Int
  | 0, _, _, acc, _ => acc
  | f + 1, k, t, acc, minus =>
    atanSeries n2 f (k + 2) (t / n2) (if minus then acc - ((t / k : Nat) : Int) else acc + ((t / k : Nat) : Int)) (!minus)

def fxAtanInv (P n : Nat) : Nat := (atanSeries (n * n) P 1 (2 ^ P / n) 0 false).toNat

/-- π by Machin's formula. -/
def fxPi (P : Nat) : Nat := 16 * fxAtanInv P 5 - 4 * fxAtanInv P 239

/-! ## Functions at a precision -/

/-- m × 2^e as a fixed-point number, truncated. -/
def fxOf (P m : Nat) (e : Int) : Nat := if 0 ≤ e + P then m * 2 ^ (e + P).toNat else m / 2 ^ (-(e + P)).toNat

/-- 2^f for a fraction f. -/
def fxExp2 (P f : Nat) : Nat := fxExp P (f * fxLn2 P / 2 ^ P)

/-- log2 of t, 1 ≤ t < 2. -/
def fxLog2 (P t : Nat) : Nat := 2 * fxAtanh P ((t - 2 ^ P) * 2 ^ P / (t + 2 ^ P)) * 2 ^ P / fxLn2 P

/-- The quadrant and the remainder of a non-negative argument by π ÷ 2, with 160 guard bits for the largest f32. -/
def reduce (P m : Nat) (e : Int) : Nat × Nat :=
  let W := P + 160
  let half := fxPi W / 2
  let x := fxOf W m e
  (x / half % 4, x % half / 2 ^ 160)

/-- sin of a non-negative argument: sign and magnitude. -/
def fxSinOf (P m : Nat) (e : Int) : Bool × Nat :=
  let (q, r) := reduce P m e
  (decide (2 ≤ q), if q % 2 = 0 then fxSin P r else fxCos P r)

def fxCosOf (P m : Nat) (e : Int) : Bool × Nat :=
  let (q, r) := reduce P m e
  (q == 1 || q == 2, if q % 2 = 0 then fxCos P r else fxSin P r)

/-- n squarings. -/
def fxSquare (P : Nat) : Nat → Nat → Nat
  | 0, x => x
  | n + 1, x => fxSquare P n (x * x / 2 ^ P)

/-- tanh of a positive argument below 16: (1 − w) ÷ (1 + w) with w = e^(−2a). -/
def fxTanh (P m : Nat) (e : Int) : Nat :=
  let w := fxSquare P 6 (fxExpNeg P (fxOf P m (e + 1 - 6)))
  (2 ^ P - w) * 2 ^ P / (2 ^ P + w)

/-! ## Correct rounding -/

/-- The units of the last place by which a series may be off. -/
def fxErr : Nat := 2 ^ 20

/-- The code when both ends of the error bound, scaled by 2^k, round to it. -/
def tryRound (sat neg : Bool) (P : Nat) (x : Nat) (k : Int) : Option (Nat × FlagBits) :=
  if x ≤ fxErr then none
  else
    let lo := finish f32 .rne sat (.fin neg (x - fxErr) (k - P))
    let hi := finish f32 .rne sat (.fin neg (x + fxErr) (k - P))
    if lo = hi then some lo else none

/-- A function rounded at rising precision. -/
def roundFx (sat : Bool) (k : Int) (fn : Nat → Bool × Nat) : Nat × FlagBits :=
  let at_ (P : Nat) : Option (Nat × FlagBits) := tryRound sat (fn P).1 P (fn P).2 k
  match at_ 128 with
  | some r => r
  | none =>
    match at_ 256 with
    | some r => r
    | none =>
      match at_ 512 with
      | some r => r
      | none => finish f32 .rne sat (.fin (fn 512).1 (fn 512).2 (k - 512))

/-! ## The instructions -/

/-- The functions of major 18. -/
inductive Fun where
  | cos | exp2 | log2 | rcp | rsq | sin | sqrt | tanh
deriving DecidableEq, Repr

/-- A magnitude below 2^−30, where sin a and tanh a round to a, and cos a to 1 (R312). -/
def tiny (m : Nat) (e : Int) : Bool := leMag m e 1 (-30)

/-- 2^a for a finite nonzero a. -/
def exp2Fin (sat neg : Bool) (m : Nat) (e : Int) : Nat × FlagBits :=
  if leMag 200 0 m e then finish f32 .rne sat (.fin false 1 (if neg then -400 else 400))
  else
    -- a as an integer over 2^200, which every f32 magnitude below 200 is
    let x : Int := signed neg (fxOf 200 m e)
    let n := x / 2 ^ 200
    let f := (x % 2 ^ 200).toNat
    if f = 0 then finish f32 .rne sat (.fin false 1 n)
    else roundFx sat n (fun P => (false, fxExp2 P (fxOf P f (-200))))

/-- log2 of a finite positive value. -/
def log2Fin (sat : Bool) (m : Nat) (e : Int) : Nat × FlagBits :=
  let b := Nat.log2 m
  let k := (b : Int) + e
  if m = 2 ^ b then finish f32 .rne sat (ofInt k 0 false)
  else roundFx sat 0 (fun P =>
    let v : Int := k * 2 ^ P + fxLog2 P (fxOf P m (-(b : Int)))
    (decide (v < 0), v.natAbs))

/-- The value of a special input: R312's table for NaN, infinities and zeros, with its flags; none for an input the
exact function serves. -/
def special (fn : Fun) (v : Val) : Option (Val × FlagBits) :=
  match v with
  | .nan sg => some (.nan false, flagIf sg flInv)
  | .inf neg =>
    match fn with
    | .cos | .sin => some (.nan false, flInv)
    | .exp2 => some (if neg then zero false else .inf false, 0)
    | .log2 | .sqrt | .rsq =>
      if neg then some (.nan false, flInv) else some (if fn = .rsq then zero false else .inf false, 0)
    | .rcp => some (zero neg, 0)
    | .tanh => some (.fin neg 1 0, 0)
  | .fin neg 0 _ =>
    match fn with
    | .cos | .exp2 => some (one, 0)
    | .sin | .tanh | .sqrt => some (zero neg, 0)
    | .log2 => some (.inf true, flDz)
    | .rcp | .rsq => some (.inf neg, flDz)
  | .fin neg _ _ =>
    match fn with
    | .log2 | .rsq | .sqrt => if neg then some (.nan false, flInv) else none
    | _ => none

/-- An instruction of major 18 on one element. -/
def func (fn : Fun) (f : Fmt) (rm : Rm) (sat : Bool) (v : Val) : Nat × FlagBits :=
  match special fn v with
  | some (r, fl) =>
    let (c, fl') := if r.isNan then (f.nan, 0) else finish f rm sat r
    (c, fl ||| fl')
  | none =>
    match v with
    | .fin neg m e =>
      match fn with
      | .rcp => finish f rm sat (recipV neg m e)
      | .sqrt => finish f rm sat (sqrtV m e)
      | .rsq => finish f rm sat (rsqrtV m e)
      | .exp2 => exp2Fin sat neg m e
      | .log2 => log2Fin sat m e
      | .sin => if tiny m e then finish f rm sat v
                else roundFx sat 0 (fun P => let (n, x) := fxSinOf P m e; (n != neg, x))
      | .cos => if tiny m e then finish f rm sat one else roundFx sat 0 (fun P => fxCosOf P m e)
      | .tanh => if tiny m e then finish f rm sat v
                 else if leMag 16 0 m e then finish f rm sat (.fin neg (2 ^ 64 - 1) (-64))
                 else roundFx sat 0 (fun P => (neg, fxTanh P m e))
    | _ => (f.nan, 0)

end Sys2Proof.Num
end

