-- ==== Sys2Proof/Machine/Int.lean ====
section
/-! DEFINITION. Integer arithmetic and address formation: majors 8, 9 and 13 (R319 to R324, R332, R339). -/

namespace Sys2Proof.Machine

open Sys2Proof Sys2Proof.Num

/-- The exact value of an element of operands A and B under a type (R104). -/
def elemInt (ty : Ty) (v : DWord) (e : Nat) : Int := intOf ty.signed (tyShape ty).1 (elem (tyShape ty).1 v e)

/-- An operation on every element of the type, saturating with the given flag when asked (R320). -/
def intElems (ty : Ty) (sat : Bool) (fl : FlagBits) (op : Nat → Int) : DWord × FlagBits :=
  mapElems (tyShape ty).1 (tyShape ty).2 (fun e => satInt sat ty.signed (tyShape ty).1 fl (op e))

/-- A major 8 instruction on two values (R320). -/
def int2 (op : Int → Int → Int) (ty : Ty) (sat : Bool) (a b : DWord) : DWord × FlagBits :=
  intElems ty sat flSat (fun e => op (elemInt ty a e) (elemInt ty b e))

/-- IMAD and IMUL: the exact value, wrapped or saturated (R324). -/
def imadOp (ty : Ty) (sat : Bool) (a b c : DWord) : DWord × FlagBits :=
  intElems ty sat flSat (fun _ => elemInt ty a 0 * elemInt ty b 0 + elemInt ty c 0)
def imulOp (ty : Ty) (sat : Bool) (a b : DWord) : DWord × FlagBits :=
  intElems ty sat flSat (fun _ => elemInt ty a 0 * elemInt ty b 0)
/-- IMULH: the high half of the exact double-width product (R324). -/
def imulhOp (ty : Ty) (a b : DWord) : DWord × FlagBits :=
  intElems ty false 0 (fun _ => elemInt ty a 0 * elemInt ty b 0 / 2 ^ (tyShape ty).1)

/-- IDOT4: the four byte products and C, wrapped or clamped once (R323). -/
def idot4Op (ty : Ty) (sat : Bool) (a b c : DWord) : DWord × FlagBits :=
  let sum := (List.range 4).foldl (fun acc i => acc + elemInt ty a i * elemInt ty b i) (intOf ty.signed 32 (elem 32 c 0))
  let (r, fl) := satInt sat ty.signed 32 flIov sum
  (BitVec.ofNat 64 r, fl)

/-- LEA (R332). -/
def leaOp (sc : Nat) (a b : DWord) : DWord := a + (b <<< sc)

/-- A two-operand instruction of the type's width. -/
def alu2 (i : Instr) (x : Ext) (f : DWord → DWord → DWord × FlagBits) (s : State) : Host.Outcome State Fault Refusal :=
  aluExt i x x.ty.wide (fun g L => f (opA g x x.ty.wide L) (opB g x x.ty.wide L)) s

/-- A three-operand instruction of the type's width. -/
def alu3 (i : Instr) (x : Ext) (f : DWord → DWord → DWord → DWord × FlagBits) (s : State) :
    Host.Outcome State Fault Refusal :=
  aluExt i x x.ty.wide
    (fun g L => f (opA g x x.ty.wide L) (opB g x x.ty.wide L) (opC g x x.ty.wide L)) s

def execIadd (x : Ext) (s : State) := alu2 (.iadd x) x (int2 (· + ·) x.ty x.sat) s
def execIsub (x : Ext) (s : State) := alu2 (.isub x) x (int2 (· - ·) x.ty x.sat) s
def execImax (x : Ext) (s : State) := alu2 (.imax x) x (int2 max x.ty false) s
def execImin (x : Ext) (s : State) := alu2 (.imin x) x (int2 min x.ty false) s
def execIdot4 (x : Ext) (s : State) := alu3 (.idot4 x) x (idot4Op x.ty x.sat) s
def execImad (x : Ext) (s : State) := alu3 (.imad x) x (imadOp x.ty x.sat) s
def execImul (x : Ext) (s : State) := alu2 (.imul x) x (imulOp x.ty x.sat) s
def execImulh (x : Ext) (s : State) := alu2 (.imulh x) x (imulhOp x.ty) s

/-- MOV: the source register, or the literal (R339). -/
def execMov (x : Ext) (s : State) : Host.Outcome State Fault Refusal :=
  aluExt (.mov x) x x.ty.wide
    (fun g L => (match x.lit with
      | some v => litBits x.ty.wide v
      | none => opA g x x.ty.wide L, 0)) s

/-- LEA: A is a pair, B one register (R332). -/
def execLea (x : Ext) (s : State) : Host.Outcome State Fault Refusal :=
  aluExt (.lea x) x true (fun g L => (leaOp (Fields.scale x) (opA g x true L) (opB g x false L), 0)) s

end Sys2Proof.Machine
end

