-- ==== Sys2Proof/Machine/Float.lean ====
section
/-! DEFINITION. Float arithmetic, comparison, functions and conversions: majors 16 to 19 (R300, R301, R307 to R312,
R314, R349, R357, R373). -/

namespace Sys2Proof.Machine

open Sys2Proof Sys2Proof.Num

/-- Element e of a float operand. -/
def elemVal (ty : Ty) (v : DWord) (e : Nat) : Val := dec (ofTy ty) (elem (tyShape ty).1 v e)

/-- An operation on every float element. -/
def fElems (ty : Ty) (op : Nat → Nat × FlagBits) : DWord × FlagBits := mapElems (tyShape ty).1 (tyShape ty).2 op

/-- FADD and FMUL (R308). -/
def farith2 (op : Rm → Val → Val → Val × FlagBits) (x : Ext) (a b : DWord) : DWord × FlagBits :=
  fElems x.ty (fun e =>
    fop2 (ofTy x.ty) x.rm x.sat (op x.rm) (modA x.var (elemVal x.ty a e)) (modB x.var (elemVal x.ty b e)))

/-- FFMA (R308). -/
def ffmaOp (x : Ext) (a b c : DWord) : DWord × FlagBits :=
  fElems x.ty (fun e =>
    let r := fmaFlags x.rm (modA x.var (elemVal x.ty a e)) (modB x.var (elemVal x.ty b e))
      (modC x.var (elemVal x.ty c e))
    let y := finish (ofTy x.ty) x.rm x.sat r.1
    (y.1, r.2 ||| y.2))

/-- FMAX and FMIN (R314). -/
def fminmaxOp (isMax : Bool) (x : Ext) (a b : DWord) : DWord × FlagBits :=
  fElems x.ty (fun e =>
    let r := fminmax isMax (modA x.var (elemVal x.ty a e)) (modB x.var (elemVal x.ty b e))
    ((Num.round (ofTy x.ty) .rne r.1).1, r.2))

/-- FCLASS (R309). -/
def fclassOp (x : Ext) (a : DWord) : DWord :=
  BitVec.ofNat 64 (2 ^ fclassBit (ofTy x.ty) (modA x.var (elemVal x.ty a 0)))

/-- FCMP (R310). -/
def fcmpOp (x : Ext) (a b : DWord) : Bool × FlagBits :=
  let va := modA x.var (elemVal x.ty a 0)
  let vb := modB x.var (elemVal x.ty b 0)
  (fcmp (x.c.toNat % 8) va vb, sigInv [va, vb])

/-- A function of major 18 (R311, R312). -/
def funcOp (fn : Fun) (x : Ext) (a : DWord) : DWord × FlagBits :=
  fElems x.ty (fun e => Num.func fn (ofTy x.ty) x.rm x.sat (elemVal x.ty a e))

/-- A one-operand instruction of the type's width. -/
def alu1 (i : Instr) (x : Ext) (f : DWord → DWord × FlagBits) (s : State) : Host.Outcome State Fault Refusal :=
  aluExt i x x.ty.wide (fun g L => f (opA g x x.ty.wide L)) s

def execFadd (x : Ext) (s : State) := alu2 (.fadd x) x (farith2 addFlags x) s
def execFmul (x : Ext) (s : State) := alu2 (.fmul x) x (farith2 (fun _ => mulFlags) x) s
def execFfma (x : Ext) (s : State) := alu3 (.ffma x) x (ffmaOp x) s
def execFmax (x : Ext) (s : State) := alu2 (.fmax x) x (fminmaxOp true x) s
def execFmin (x : Ext) (s : State) := alu2 (.fmin x) x (fminmaxOp false x) s
def execFclass (x : Ext) (s : State) := aluExt (.fclass x) x false (fun g L => (fclassOp x (opA g x x.ty.wide L), 0)) s
def execFcmp (x : Ext) (s : State) :=
  predExt (.fcmp x) x (fun g L => fcmpOp x (opA g x x.ty.wide L) (opB g x x.ty.wide L)) s
def execFcos (x : Ext) (s : State) := alu1 (.fcos x) x (funcOp .cos x) s
def execFexp2 (x : Ext) (s : State) := alu1 (.fexp2 x) x (funcOp .exp2 x) s
def execFlog2 (x : Ext) (s : State) := alu1 (.flog2 x) x (funcOp .log2 x) s
def execFrcp (x : Ext) (s : State) := alu1 (.frcp x) x (funcOp .rcp x) s
def execFrsq (x : Ext) (s : State) := alu1 (.frsq x) x (funcOp .rsq x) s
def execFsin (x : Ext) (s : State) := alu1 (.fsin x) x (funcOp .sin x) s
def execFsqrt (x : Ext) (s : State) := alu1 (.fsqrt x) x (funcOp .sqrt x) s
def execFtanh (x : Ext) (s : State) := alu1 (.ftanh x) x (funcOp .tanh x) s

/-! ## Conversions -/

/-- CVT: the source type is named by VAR (R300, R301). -/
def execCvt (x : Ext) (s : State) : Host.Outcome State Fault Refusal :=
  let src := (Fields.cvtSrc x).getD .s32
  aluExt (.cvt x) x x.ty.wide (fun g L => Num.cvt x.ty src x.rm x.sat (opA g x src.wide L)) s

/-- Register A + i of a range, through the modifier (R349). -/
def opAi (g : Group) (x : Ext) (i L : Nat) : DWord := g.rget x.aU false (x.a.toNat + i) (srcLane x.moda L)

/-- PACK (R349). -/
def packOp (x : Ext) (g : Group) (L : Nat) : DWord × FlagBits :=
  fElems x.ty (fun e => narrow (ofTy x.ty) x.rm x.sat (dec f32 (opAi g x e L).toNat))

def execPack (x : Ext) (s : State) := aluExt (.pack x) x false (packOp x) s

/-- One element of UNPACK: its exact FP32 value (R373). -/
def unpackElem (ty : Ty) (a : DWord) (e : Nat) : Nat × FlagBits :=
  let v := elemVal ty a e
  ((Num.round f32 .rne v).1, sigInv [v])

/-- UNPACK: D + e receives element e (R373). -/
def execUnpack (x : Ext) (s : State) : Host.Outcome State Fault Refusal :=
  runInstr (.unpack x) x.guard (fun k s =>
    let f (e L : Nat) := unpackElem x.ty (opA k.g x false L) e
    let es := List.range x.ty.packCount
    advance k (s.modGroup k.gi (fun g =>
      let g := es.foldl (fun g e =>
        if x.dU then (if k.e = 0 then g else g.uset (x.d.toNat + e) (BitVec.ofNat 32 (f e 0).1))
        else (lanesOf k.e).foldl (fun g L => g.vset (x.d.toNat + e) L (BitVec.ofNat 32 (f e L).1)) g) g
      g.raise x.dU s.now (resultFlags k x.dU (fun L => es.foldl (fun b e => b ||| (f e L).2) 0))))) s

/-- One element of REQ: x × 2^(old − new), rounded once, saturating; a NaN scale gives NaN, or +0 with INV for E2M1
(R117). -/
def reqElem (f : Fmt) (rm : Rm) (old new : Nat) (v : Val) : Nat × FlagBits :=
  if old = 0xFF ∨ new = 0xFF then narrowSat f rm noBound (.nan false)
  else
    narrowSat f rm noBound (match v with
      | .fin n m e => .fin n m (e + (old : Int) - (new : Int))
      | v => v)

/-- REQ (R117, R357). -/
def reqOp (x : Ext) (a b : DWord) : DWord × FlagBits :=
  fElems x.ty (fun e => reqElem (ofTy x.ty) x.rm (b.toNat % 256) (b.toNat / 256 % 256) (elemVal x.ty a e))

def execReq (x : Ext) (s : State) := aluExt (.req x) x false (fun g L => reqOp x (opA g x false L) (opB g x false L)) s

end Sys2Proof.Machine
end

