-- ==== Sys2Proof/Machine/MatrixMath.lean ====
section
/-! DEFINITION. What matrix, accumulator and tile instructions compute from the state in their first cycle (R114, R115,
R194, R195, R199, R202, R204 to R208). -/

namespace Sys2Proof.Machine

open Sys2Proof Sys2Proof.Num

/-! ## Rows -/

/-- 128 bytes as one number, from 32 words. -/
def wordsNat (ws : List Word) : Nat := ws.foldr (fun w acc => w.toNat + 2 ^ 32 * acc) 0

/-- Row r of a tile (R194). -/
def tileRow (g : Group) (t r : Nat) : Nat := wordsNat ((List.range 32).map (fun w => g.tileWord t (r * 32 + w)))

/-- Sideband byte of a tile. -/
def sideByte (g : Group) (t b : Nat) : Nat := (wordByte (g.scaleWord t (b / 4)) (b % 4)).toNat

/-- Element k of width w of a row. -/
def rowElem (w row k : Nat) : Nat := row / 2 ^ (w * k) % 2 ^ w

/-- The B format that MIXB selects (R199). -/
def mixTy : Ty → Ty
  | .e4m3x4 => .e5m2x4 | .e5m2x4 => .e4m3x4 | .s8x4 => .u8x4 | .u8x4 => .s8x4 | t => t

/-! ## Accumulation -/

/-- The float terms of one run summed exactly (R114): the sum and whether the run sets INV. DEDUCED (log 53). -/
def runSum (terms : List (Val × Val)) : Val × Bool :=
  let ps := terms.map (fun t => mulV t.1 t.2)
  let sig := terms.any (fun t => t.1.isSig || t.2.isSig)
  let vs := ps.map (·.1)
  let bad := ps.any (·.2) || (vs.contains (.inf false) && vs.contains (.inf true))
  let nan := bad || vs.any Val.isNan
  let sum := match vs with
    | [] => zero false
    | v :: rest => rest.foldl (fun a b => (addV .rne a b).1) v
  (if nan then .nan false else sum, sig || bad)

/-- One run added to an accumulator element: the run rounded once, then the sum rounded (R114). DEDUCED (log 53). -/
def addRun (scale : Val) (a : Word × FlagBits) (terms : List (Val × Val)) : Word × FlagBits :=
  let (s, inv) := runSum terms
  let s := (mulV s scale).1
  let r := (Num.round f32 .rne s).1
  let (v, fl) := addFlags .rne (dec f32 a.1.toNat) (dec f32 r)
  (BitVec.ofNat 32 (Num.round f32 .rne v).1, a.2 ||| flagIf inv flInv ||| fl)

/-- An E8M0 scale (R103): 0xFF is NaN. -/
def scaleVal (s : Nat) : Val := if s = 0xFF then .nan false else .fin false 1 ((s : Int) - 127)

/-- The run length of a float type (R114). -/
def runLen : Ty → Nat
  | .e4m3x4 | .e5m2x4 => 64
  | _ => 32

/-- Accumulate for a float type: K elements in runs, with the block scales of MXFP4. -/
def accFloat (ta tb : Ty) (sa sb : Nat → Nat) (rowA rowB : Nat) (acc : Word) : Word × FlagBits :=
  let w := (tyShape ta).1
  let R := runLen ta
  (List.range (1024 / w / R)).foldl (fun a q =>
    let terms := (List.range R).map (fun i =>
      (dec (ofTy ta) (rowElem w rowA (q * R + i)), dec (ofTy tb) (rowElem w rowB (q * R + i))))
    let scale := if ta = .e2m1x8 then (mulV (scaleVal (sa q)) (scaleVal (sb q))).1 else Num.one
    addRun scale a terms) (acc, 0)

/-- One product added to an INT32 accumulator, saturating (R115). -/
def addSat (a : Int × FlagBits) (p : Int) : Int × FlagBits :=
  let x := a.1 + p
  if x < -(2 ^ 31) then (-(2 ^ 31), a.2 ||| flIov)
  else if 2 ^ 31 - 1 < x then (2 ^ 31 - 1, a.2 ||| flIov)
  else (x, a.2)

/-- Accumulate for INT8 rows of 128 elements, ascending k (R115). -/
def accInt (sa sb : Bool) (rowA rowB : Nat) (acc : Word) : Word × FlagBits :=
  let r := (List.range 128).foldl (fun a k => addSat a (intOf sa 8 (rowElem 8 rowA k) * intOf sb 8 (rowElem 8 rowB k)))
    (acc.toInt, 0)
  (BitVec.ofInt 32 r.1, r.2)

/-- A ternary weight and whether its code sets TRN (R105). -/
def ternary (code : Nat) : Int × Bool :=
  match code with
  | 1 => (1, false)
  | 2 => (0, true)
  | 3 => (-1, false)
  | _ => (0, false)

/-- Accumulate for ternary weights by INT8: 512 terms over four B rows (R115, R194). -/
def accTern (sb : Bool) (rowA : Nat) (rowB : Nat → Nat) (acc : Word) : Word × FlagBits :=
  let r := (List.range 512).foldl (fun a k =>
    let (t, trn) := ternary (rowElem 2 rowA k)
    let (x, fl) := addSat a (t * intOf sb 8 (rowElem 8 (rowB (k / 128)) (k % 128)))
    (x, fl ||| flagIf trn flTrn)) (acc.toInt, 0)
  (BitVec.ofInt 32 r.1, r.2)

/-- Integer types of the matrix engine. -/
def intTy (t : Ty) : Bool := t == .s8x4 || t == .u8x4

/-- MMA's accumulate of row A by row B of the type (R199). -/
def accumulate (ty : Ty) (mix : Bool) (sa sb : Nat → Nat) (rowA rowB : Nat) (acc : Word) : Word × FlagBits :=
  let tb := if mix then mixTy ty else ty
  if intTy ty then accInt ty.signed tb.signed rowA rowB acc else accFloat ty tb sa sb rowA rowB acc

/-- What an entry has changed so far. -/
def MatOut.empty : MatOut := { acc := [], carry := [], tile := [], scale := [], vec := [], affine := none, flags := 0 }

/-- The rows of a mask, ascending: row 4L + k belongs to lane L (R195). -/
def rowsOf (e : LaneMask) : List Nat := (lanesOf e).flatMap (fun L => (List.range 4).map (fun k => 4 * L + k))

/-- The flags of a row count unless its lane is a helper (R195). -/
def rowFlags (g : Group) (r : Nat) (fl : FlagBits) : FlagBits := if g.helpers.getLsbD (r / 4) then 0 else fl

/-- MMA and MMAT: each row of E against the 64 rows of B (R199). -/
def mulRows (g : Group) (e : LaneMask) (d : Nat) (op : Nat → Nat → Word → Word × FlagBits) : MatOut :=
  (rowsOf e).foldl (fun o i =>
    (List.range 64).foldl (fun o j =>
      let r := op i j (g.accWord d (i * 64 + j))
      { o with acc := o.acc ++ [(d * 4096 + i * 64 + j, r.1)], flags := o.flags ||| rowFlags g i r.2 }) o)
    MatOut.empty

def mmaOut (x : Ext) (g : Group) (e : LaneMask) : MatOut :=
  let ta := x.a.toNat
  let tb := x.b.toNat
  let rb := (List.range 64).map (fun j => tileRow g tb j)
  let ra := (List.range 64).map (fun i => tileRow g ta i)
  mulRows g e x.d.toNat (fun i j acc =>
    accumulate x.ty (x.var.getLsbD 0) (fun q => sideByte g ta (8 * i + q)) (fun q => sideByte g tb (8 * j + q))
      (ra.getD i 0) (rb.getD j 0) acc)

def mmatOut (x : Ext) (g : Group) (e : LaneMask) : MatOut :=
  let ta := x.a.toNat
  let tb := x.b.toNat
  let rb := (List.range 256).map (fun n => tileRow g (tb + n / 64) (n % 64))
  let ra := (List.range 64).map (fun i => tileRow g ta i)
  mulRows g e x.d.toNat (fun i j acc =>
    accTern x.ty.signed (ra.getD i 0) (fun m => rb.getD (m * 64 + j) 0) acc)

/-! ## MMAG (R176, R200, R202) -/

/-- Sw(z, n) of R176. -/
def swz (z n : Nat) : Nat :=
  match z with
  | 1 => n % 2
  | 2 => n % 4
  | 3 => n % 8
  | 4 => n / 2 % 8
  | 5 => n / 4 % 8
  | _ => 0

/-- The 128 bytes of a line with its 16-byte chunks put back in order (R200). -/
def unswizzle (z n : Nat) (bs : List Byte) : List Byte :=
  (List.range 8).flatMap (fun c => (bs.drop (16 * (c ^^^ swz z n))).take 16)

/-- The line index and the target row of result row i from the source values of MMAG: vA, vA + 1, vC, 16 lanes each. -/
def gatherIdx (vals : List Word) (i : Nat) : Nat :=
  let w : Word := vals.getD ((if i % 4 < 2 then 0 else 16) + i / 4) 0
  (w.extractLsb' (16 * (i % 2)) 16).toNat
def gatherTgt (vals : List Word) (i : Nat) : Nat :=
  (wordByte (vals.getD (32 + i / 4) 0) (i % 4)).toNat % 64

/-- MMAG: the gathered rows accumulate into their targets in ascending row order. -/
def mmagOut (x : Ext) (g : Group) (e : LaneMask) (vals : List Word) (latch : List (Nat × Nat × List Byte)) : MatOut :=
  let z := (x.var.extractLsb' 1 3).toNat
  let tb := x.b.toNat
  let d := x.d.toNat
  let rb := (List.range 64).map (fun j => tileRow g tb j)
  let r := (rowsOf (e &&& ~~~g.helpers)).foldl (fun (st : List (Nat × Word) × FlagBits) i =>
    let n := gatherIdx vals i
    let t := gatherTgt vals i
    let bs := ((latch.find? (fun l => l.1 == n)).map (fun l => l.2.2)).getD []
    let row := natLE (unswizzle z n bs)
    (List.range 64).foldl (fun st j =>
      let key := t * 64 + j
      let acc := ((st.1.find? (fun y => y.1 == key)).map (fun y => y.2)).getD (g.accWord d key)
      let y := accumulate x.ty (x.var.getLsbD 0) (fun _ => 0) (fun _ => 0) row (rb.getD j 0) acc
      ((key, y.1) :: st.1.filter (fun y => y.1 != key), st.2 ||| y.2)) st) ([], 0)
  { MatOut.empty with acc := r.1.map (fun y => (d * 4096 + y.1, y.2)), flags := r.2 }

/-! ## Accumulator access (R204, R205) -/

/-- The slot that ARD and AWR use: the offsets, or the gains with G. -/
def ardSlot (i : Nat) (x : Ext) : Nat := if x.var.getLsbD 0 then i + 16 else i

def ardOut (x : Ext) (g : Group) (e : LaneMask) (c : Nat) : MatOut :=
  { MatOut.empty with vec := (lanesOf e).flatMap (fun L => (List.range 4).map (fun k =>
      ((x.d.toNat + k) * 16 + L, g.accWord (ardSlot x.a.toNat x) ((4 * L + k) * 64 + c)))) }

/-- Value of source register k in lane L among the values read at issue. -/
def srcVal (vals : List Word) (k L : Nat) : Word := vals.getD (k * 16 + L) 0

def awrOut (x : Ext) (e : LaneMask) (c : Nat) (vals : List Word) : MatOut :=
  { MatOut.empty with acc := (lanesOf e).flatMap (fun L => (List.range 4).map (fun k =>
      (ardSlot x.d.toNat x * 4096 + (4 * L + k) * 64 + c, srcVal vals k L))) }

def mcarryOut (x : Ext) (g : Group) (e : LaneMask) (vals : List Word) : MatOut :=
  let cells := (lanesOf e).flatMap (fun L => (List.range 8).map (fun k => (L, k)))
  -- register k < 4 is G and k ≥ 4 is H of column 4L + k mod 4
  let carry (L k : Nat) : Nat := 2 * (4 * L + k % 4) + k / 4
  if x.var.getLsbD 0 then
    { MatOut.empty with carry := cells.map (fun y => (x.d.toNat * 128 + carry y.1 y.2, srcVal vals y.2 y.1)) }
  else
    { MatOut.empty with vec := cells.map (fun y =>
        ((x.d.toNat + y.2) * 16 + y.1, g.carryWord x.a.toNat (carry y.1 y.2))) }

/-- FP32 1.0. -/
def oneW : Word := 0x3F800000#32

/-- A slot filled with one word, and the carries of a slot filled with pairs. -/
def fillSlot (slot : Nat) (w : Word) : List (Nat × Word) := (List.range 4096).map (fun k => (slot * 4096 + k, w))
def fillCarry (slot : Nat) (gw hw : Word) : List (Nat × Word) :=
  (List.range 128).map (fun k => (slot * 128 + k, if k % 2 = 0 then gw else hw))

def amodeOut (x : Ext) (g : Group) : MatOut :=
  let d := x.d.toNat
  if x.var.getLsbD 0 then
    { MatOut.empty with acc := fillSlot d 0 ++ fillSlot (d + 16) oneW, carry := fillCarry d oneW 0, affine := some (d, true) }
  else
    { MatOut.empty with acc := fillSlot d 0 ++ (if g.affine.getLsbD d then fillSlot (d + 16) 0 else []),
                        carry := fillCarry d 0 0, affine := some (d, false) }

def mzeroOut (x : Ext) (g : Group) (e : LaneMask) : MatOut :=
  let d := x.d.toNat
  let aff := g.affine.getLsbD d
  let row (slot : Nat) (w : Word) : List (Nat × Word) :=
    (rowsOf e).flatMap (fun i => (List.range 64).map (fun j => (slot * 4096 + i * 64 + j, w)))
  { MatOut.empty with
    acc := row d 0 ++ (if aff then row (d + 16) oneW else []),
    carry := if x.var.getLsbD 0 then (if aff then fillCarry d oneW 0 else fillCarry d 0 0) else [] }

/-! ## Tile moves (R205, R206) -/

/-- The four bytes of a sideband word, by number. -/
def sideBytes (w : Nat) (v : Word) : List (Nat × Byte) := (List.range 4).map (fun b => (4 * w + b, wordByte v b))

def tmovOut (x : Ext) (g : Group) : MatOut :=
  { MatOut.empty with
    tile := if x.d = x.a then [] else (List.range 2048).map (fun w => (x.d.toNat * 2048 + w, g.tileWord x.a.toNat w)),
    scale := if x.d = x.a then [] else (List.range 128).flatMap (fun w => sideBytes (x.d.toNat * 128 + w) (g.scaleWord x.a.toNat w)) }

/-- The word of a tile or its sideband that lane L moves with register k (R206). -/
def halfRow (x : Ext) (b L k : Nat) : Nat := if x.var.getLsbD 0 then 32 * (b % 4) + 16 * k + L else (b % 64) * 32 + 16 * k + L

def trdOut (x : Ext) (g : Group) (e : LaneMask) (b : Nat) : MatOut :=
  { MatOut.empty with vec := (lanesOf e).flatMap (fun L => (List.range 2).map (fun k =>
      ((x.d.toNat + k) * 16 + L,
       if x.var.getLsbD 0 then g.scaleWord x.a.toNat (halfRow x b L k) else g.tileWord x.a.toNat (halfRow x b L k)))) }

def twrOut (x : Ext) (e : LaneMask) (b : Nat) (vals : List Word) : MatOut :=
  let cells := (lanesOf e).flatMap (fun L => (List.range 2).map (fun k => (L, k)))
  if x.var.getLsbD 0 then
    { MatOut.empty with scale := cells.flatMap (fun y => sideBytes (x.d.toNat * 128 + halfRow x b y.1 y.2) (srcVal vals y.2 y.1)) }
  else
    { MatOut.empty with tile := cells.map (fun y => (x.d.toNat * 2048 + halfRow x b y.1 y.2, srcVal vals y.2 y.1)) }

/-! ## AEXP (R207) -/

/-- MxScale of 32 values. -/
def mxScale (vs : List Val) : Nat :=
  if vs.any Val.isNan then 0xFF
  else
    let top := vs.foldl (fun m v => if ltV m v.absV then v.absV else m) (zero false)
    match top with
    | .inf _ => 0xFE
    | .fin _ m e => if m = 0 then 0x7F else (max 0 (min 254 ((Nat.log2 m : Int) + e - 2 + 127))).toNat
    | .nan _ => 0xFF

/-- An exported integer: rounded, clamped with SAT, NaN 0 with INV. -/
def exportInt (rm : Rm) (sgn : Bool) (v : Val) : Nat × FlagBits :=
  match v with
  | .nan _ => (0, flInv)
  | .inf n => (wrap 8 (if n then intMin sgn 8 else intMax sgn 8), flSat)
  | .fin n m e => satInt true sgn 8 flSat (roundInt rm n m e)

/-- The exported codes of a row and, for E2M1, the two scales. -/
def exportRow (x : Ext) (f b : Val) (accs : List Word) : List Nat × List Nat × FlagBits :=
  let prods := accs.map (fun a =>
    mulFlags (if intTy x.ty then ofInteger a.toInt else dec f32 a.toNat) f)
  let vs := prods.map (·.1)
  let fl0 := prods.foldl (fun fl p => fl ||| p.2) 0
  let join (rs : List (Nat × FlagBits)) : List Nat × FlagBits := (rs.map (·.1), rs.foldl (fun fl r => fl ||| r.2) 0)
  match x.ty with
  | .e2m1x8 =>
    let half (h : Nat) : List Nat × Nat × FlagBits :=
      let xs := (vs.drop (32 * h)).take 32
      let s := mxScale xs
      let r := join (xs.map (fun v =>
        if s = 0xFF then (0, flInv)
        else narrowSat e2m1 x.rm noBound (match v with
          | .fin n m e => .fin n m (e - ((s : Int) - 127))
          | v => v)))
      (r.1, s, r.2)
    let a := half 0
    let c := half 1
    (a.1 ++ c.1, [a.2.1, c.2.1], fl0 ||| a.2.2 ||| c.2.2)
  | .s8x4 | .u8x4 =>
    let r := join (vs.map (exportInt x.rm x.ty.signed))
    (r.1, [], fl0 ||| r.2)
  | ty =>
    let r := join (vs.map (narrowSat (ofTy ty) x.rm b))
    (r.1, [], fl0 ||| r.2)

/-- Bytes put into a list of words at a byte offset. -/
def patchWords (old : Nat → Word) (base off : Nat) (bs : List Byte) : List (Nat × Word) :=
  let first := off / 4
  let last := (off + bs.length - 1) / 4
  (List.range (last + 1 - first)).map (fun k =>
    let w := first + k
    let v := (List.range 4).foldl (fun v b =>
      let p := 4 * w + b
      if off ≤ p ∧ p < off + bs.length then setWordByte v b (bs.getD (p - off) 0) else v) (old w)
    (base + w, v))

/-- Sideband bytes of a row as TLD with SGRAN 0 writes them (R183). -/
def plainScales (w : Nat) : List Byte := (List.range 8).map (fun j => if j < 32 / w then 0x7F#8 else 0#8)

def aexpOut (x : Ext) (g : Group) (e : LaneMask) (uniB : DWord) : MatOut :=
  let t := x.d.toNat
  let part := x.var.toNat % 4
  let w := (tyShape x.ty).1
  let f := dec f32 (uniB.extractLsb' 0 32).toNat
  let b := dec f32 (uniB.extractLsb' 32 32).toNat
  (rowsOf e).foldl (fun o i =>
    let accs := (List.range 64).map (fun j => g.accWord x.a.toNat (i * 64 + j))
    let (codes, scales, fl) := exportRow x f b accs
    let bytes := bytesLE (8 * w) (packElems w codes)
    let bytesAt (off : Nat) (bs : List Byte) : List (Nat × Byte) := bs.zipIdx.map (fun y => (t * 512 + off + y.2, y.1))
    let side : List (Nat × Byte) := match x.ty with
      | .e2m1x8 => bytesAt (8 * i + 2 * part) (scales.map (BitVec.ofNat 8))
      | .s8x4 | .u8x4 => []
      | _ => bytesAt (8 * i) (plainScales w)
    { o with tile := o.tile ++ patchWords (g.tileWord t) (t * 2048) (128 * i + part * 8 * w) bytes,
             scale := o.scale ++ side, flags := o.flags ||| rowFlags g i fl }) MatOut.empty

/-! ## MSCAN (R208) -/

/-- A pair of the recurrence: gain and offset. -/
abbrev Pair := Nat × Nat

/-- A gain product rounded to FP32 and flushed (R208). -/
def gainMul (a b : Nat) : Nat × FlagBits :=
  let (v, fl) := mulFlags (dec f32 a) (dec f32 b)
  let r := (Num.round f32 .rne v).1
  match dec f32 r with
  | .fin n m e =>
    if m ≠ 0 ∧ ¬ leMag 1 (-126) m e then ((if n then 2 ^ 31 else 0), fl ||| flGuf) else (r, fl)
  | _ => (r, fl)

def fma32 (a b c : Nat) : Nat × FlagBits :=
  let (v, fl) := fmaFlags .rne (dec f32 a) (dec f32 b) (dec f32 c)
  ((Num.round f32 .rne v).1, fl)

/-- Combine((g2, b2), (g1, b1)). -/
def combine (p2 p1 : Pair) : Pair × FlagBits :=
  let g := gainMul p2.1 p1.1
  let b := fma32 p2.1 p1.2 p2.2
  ((g.1, b.1), g.2 ||| b.2)

/-- One stage of the 64-row network. -/
def mscanStage (zf : List Pair × FlagBits) (s : Nat) : List Pair × FlagBits :=
  let rs := (List.range 64).map (fun i =>
    if 2 ^ s ≤ i then combine (zf.1.getD i (0, 0)) (zf.1.getD (i - 2 ^ s) (0, 0)) else (zf.1.getD i (0, 0), 0))
  (rs.map (·.1), rs.foldl (fun f r => f ||| r.2) zf.2)

def mscanOut (x : Ext) (g : Group) (e : LaneMask) : MatOut :=
  let d := x.d.toNat
  let rows := rowsOf e
  let o := (List.range 64).foldl (fun (o : MatOut) c =>
    let z0 : List Pair := (List.range 64).map (fun i =>
      if e.getLsbD (i / 4) then ((g.accWord (d + 16) (i * 64 + c)).toNat, (g.accWord d (i * 64 + c)).toNat)
      else (oneW.toNat, 0))
    let (z, fl) := (List.range 6).foldl mscanStage (z0, 0)
    let G := (g.carryWord d (2 * c)).toNat
    let H := (g.carryWord d (2 * c + 1)).toNat
    let outs := rows.map (fun i =>
      let p := z.getD i (0, 0)
      (i, p.1, fma32 p.1 H p.2))
    let pl := z.getD 63 (0, 0)
    let G' := gainMul G pl.1
    let H' := fma32 pl.1 H pl.2
    { o with
      acc := o.acc ++ outs.flatMap (fun y =>
        [((d + 16) * 4096 + y.1 * 64 + c, BitVec.ofNat 32 y.2.1), (d * 4096 + y.1 * 64 + c, BitVec.ofNat 32 y.2.2.1)]),
      carry := o.carry ++ [(d * 128 + 2 * c, BitVec.ofNat 32 G'.1), (d * 128 + 2 * c + 1, BitVec.ofNat 32 H'.1)],
      flags := o.flags ||| fl ||| G'.2 ||| H'.2 ||| outs.foldl (fun f y => f ||| y.2.2.2) 0 }) MatOut.empty
  { o with flags := if e &&& ~~~g.helpers = 0 then 0 else o.flags }

end Sys2Proof.Machine
end

