-- ==== Sys2Proof/Machine/Matrix.lean ====
section
/-! DEFINITION. Matrix, accumulator and tile instructions, majors 44 to 47: their issue into the core's queue and the
three events of an entry (R194 to R208, R278, R279, R281, R334 to R338, R341, R342, R371, R372). -/

namespace Sys2Proof.Machine

open Sys2Proof

/-! ## What an instruction of the queue names -/

/-- Tiles that an instruction reads, and tiles that it writes. -/
def matTilesIn : Instr → List Nat
  | .mma x => [x.a.toNat, x.b.toNat]
  | .mmag x => [x.b.toNat]
  | .mmat x => [x.a.toNat, x.b.toNat, x.b.toNat + 1, x.b.toNat + 2, x.b.toNat + 3]
  | .tmov x | .trd x => [x.a.toNat]
  | _ => []
def matTilesOut : Instr → List Nat
  | .aexp x | .tmov x | .twr x => [x.d.toNat]
  | _ => []

/-- The accumulator that an instruction names. -/
def matAcc : Instr → Option Nat
  | .mma x | .mmag x | .mmat x | .amode x | .awr x | .mzero x | .mscan x => some x.d.toNat
  | .aexp x | .ard x => some x.a.toNat
  | .mcarry x => some (if x.var.getLsbD 0 then x.d.toNat else x.a.toNat)
  | _ => none

/-- The engine cycles of an entry (R198). -/
def matCycles : Instr → Nat
  | .mma x => if x.ty = .e2m1x8 then 8 else 16
  | .mmag _ => 16
  | .mmat _ | .aexp _ | .tmov _ => 8
  | .amode _ | .mzero _ => 4
  | .mscan _ => 12
  | _ => 2

/-- The vector registers that an instruction reads at issue: register by register, lane by lane (R196). -/
def matSources (regs : List Nat) (g : Group) : List Word :=
  regs.flatMap (fun r => allLanes.map (fun L => g.vget r L))

/-- The mode of an accumulator after every queued instruction of the group: affine or not (R199, R281). -/
def modeAfter (s : State) (gi : Nat) (g : Group) (d : Nat) : Bool :=
  s.matq.foldl (fun m q =>
    if q.group = gi then
      match q.ins with
      | .amode x => if x.d.toNat = d then x.var.getLsbD 0 else m
      | _ => m
    else m) (g.affine.getLsbD d)

/-! ## Issue -/

/-- An entry joins the core's queue; the scoreboard holds its vector destinations (R196). -/
def enqueue (i : Instr) (k : Issue) (vals : List Word) (uniB : DWord) (lines : List (Nat × Nat)) (holds : List (Nat × Nat))
    (s : State) : State :=
  let id := s.nextId
  let entry : MatEntry :=
    { id := id, die := k.g.die, core := k.g.core, group := k.gi, pc := k.sp.pc, ins := i, e := k.e, vals := vals,
      uniB := uniB, lines := lines, latch := [], emptySince := [], cancelled := false, out := none, endsAt := 0 }
  let s := { s with nextId := id + 1, matq := s.matq ++ [entry] }
  (advance k s).modSplit k.gi k.si (fun p =>
    { p with holds := p.holds ++ holds.map (fun h => { op := id, file := 0, first := h.1, count := h.2 }) })

/-- The issue of an instruction of majors 44 to 47: a pending fault that names its tiles or its accumulator first (R187,
R203), then OPR where `bad`, then the queue. An empty E makes no entry. -/
def issueMatrix (i : Instr) (k : Issue) (bad : Bool) (vals : List Word) (uniB : DWord)
    (holds : List (Nat × Nat)) (s : State) : State :=
  let uses := matTilesIn i ++ matTilesOut i
  if k.e = 0 then advance k s
  else
    deliverOr k (fun f => (f.tile.map (fun t => uses.contains t)).getD false ||
        (f.mmag.map (fun m => matAcc i == some m.1)).getD false)
      (fun s => if bad then trapWord k .opr s else enqueue i k vals uniB [] holds s) s

/-- An integer type into an affine accumulator (R199). -/
def intoAffine (s : State) (k : Issue) (x : Ext) : Bool := intTy x.ty && modeAfter s k.gi k.g x.d.toNat

def execMma (x : Ext) (s : State) : Host.Outcome State Fault Refusal :=
  runInstr (.mma x) x.guard (fun k s => issueMatrix (.mma x) k (intoAffine s k x) [] 0 [] s) s

def execMmat (x : Ext) (s : State) : Host.Outcome State Fault Refusal :=
  runInstr (.mmat x) x.guard (fun k s => issueMatrix (.mmat x) k (intoAffine s k x) [] 0 [] s) s

/-- MMAG: its gather indices are checked at issue, and a line that a faulted operation left unwritten delivers that fault
(R140, R187, R200, R337). DEDUCED (log 51). -/
def mmagBody (x : Ext) (k : Issue) (s : State) : State :=
  let vals := matSources [x.a.toNat, x.a.toNat + 1, x.c.toNat] k.g
  let rows := (rowsOf k.real).map (fun i => (i, gatherIdx vals i))
  let size := s.scratchOf k.g.block
  let off := rows.filter (fun r => decide (size ≤ r.2 * 128))
  if k.e = 0 then advance k s
  else
    deliverOr k (fun f => f.tile == some x.b.toNat || (f.mmag.map (fun m => m.1 == x.d.toNat)).getD false ||
        rows.any (fun r => f.lines.contains r.2))
      (fun s =>
        if intoAffine s k x then trapWord k .opr s
        else if off ≠ [] then
          trapAt k .prot (lowest (off.map (fun r => BitVec.ofNat 64 (r.2 * 128))))
            (maskOf (fun L => off.any (fun r => r.1 / 4 == L))) s
        else enqueue (.mmag x) k vals 0 rows [] s) s

def execMmag (x : Ext) (s : State) : Host.Outcome State Fault Refusal := runInstr (.mmag x) x.guard (mmagBody x) s

def execAexp (x : Ext) (s : State) : Host.Outcome State Fault Refusal :=
  runInstr (.aexp x) x.guard (fun k s => issueMatrix (.aexp x) k false [] (opB k.g x true 0) [] s) s

/-- AMODE: an affine accumulator needs slot D + 16 (R205, R279). -/
def execAmode (x : Ext) (s : State) : Host.Outcome State Fault Refusal :=
  runInstr (.amode x) x.guard (fun k s =>
    issueMatrix (.amode x) k (x.var.getLsbD 0 && decide (k.g.na ≤ x.d.toNat + 16)) [] 0 [] s) s

/-- The gains of an accumulator in sum mode (R204). -/
def gainsOfSum (s : State) (k : Issue) (x : Ext) (d : Nat) : Bool := x.var.getLsbD 0 && !modeAfter s k.gi k.g d

def execArd (x : Ext) (s : State) : Host.Outcome State Fault Refusal :=
  runInstr (.ard x) x.guard (fun k s =>
    issueMatrix (.ard x) k (gainsOfSum s k x x.a.toNat) [] (opB k.g x false 0) [(x.d.toNat, 4)] s) s

def execAwr (x : Ext) (s : State) : Host.Outcome State Fault Refusal :=
  runInstr (.awr x) x.guard (fun k s =>
    issueMatrix (.awr x) k (gainsOfSum s k x x.d.toNat)
      (matSources ((List.range 4).map (fun j => x.a.toNat + j)) k.g) (opB k.g x false 0) [] s) s

def execMzero (x : Ext) (s : State) : Host.Outcome State Fault Refusal :=
  runInstr (.mzero x) x.guard (fun k s => issueMatrix (.mzero x) k false [] 0 [] s) s

def execMcarry (x : Ext) (s : State) : Host.Outcome State Fault Refusal :=
  runInstr (.mcarry x) x.guard (fun k s =>
    if x.var.getLsbD 0 then
      issueMatrix (.mcarry x) k false (matSources ((List.range 8).map (fun j => x.a.toNat + j)) k.g) 0 [] s
    else issueMatrix (.mcarry x) k false [] 0 [(x.d.toNat, 8)] s) s

/-- MSCAN: only on an affine accumulator (R208). -/
def execMscan (x : Ext) (s : State) : Host.Outcome State Fault Refusal :=
  runInstr (.mscan x) x.guard (fun k s =>
    issueMatrix (.mscan x) k (!modeAfter s k.gi k.g x.d.toNat) [] 0 [] s) s

def execTmov (x : Ext) (s : State) : Host.Outcome State Fault Refusal :=
  runInstr (.tmov x) x.guard (fun k s => issueMatrix (.tmov x) k false [] 0 [] s) s

def execTrd (x : Ext) (s : State) : Host.Outcome State Fault Refusal :=
  runInstr (.trd x) x.guard (fun k s => issueMatrix (.trd x) k false [] (opB k.g x false 0) [(x.d.toNat, 2)] s) s

def execTwr (x : Ext) (s : State) : Host.Outcome State Fault Refusal :=
  runInstr (.twr x) x.guard (fun k s =>
    issueMatrix (.twr x) k false (matSources [x.a.toNat, x.a.toNat + 1] k.g) (opB k.g x false 0) [] s) s

/-! ## The engine (R196, R197) -/

/-- The entries of a core's queue, oldest first; one that a stop has cancelled waits for the resume (R210). -/
def coreQueue (s : State) (die core : Nat) : List MatEntry :=
  s.matq.filter (fun m => m.die == die && m.core == core && !m.cancelled && (s.group? m.group).any (fun g => onCores s g.block))

/-- The oldest entry of a core's queue. -/
def matHead (s : State) (die core : Nat) : Option MatEntry := (coreQueue s die core).head?

/-- The key in `busy` of a core's matrix engine: the cycle in which the next entry may start (R196). -/
def matKey (die core : Nat) : Nat := (die * 20 + core) * 128 + 3

def State.modMat (s : State) (id : Nat) (f : MatEntry → MatEntry) : State :=
  { s with matq := s.matq.map (fun m => if m.id = id then f m else m) }

/-- An outstanding TLD of the group into one of the tiles, or a TSTR that still reads one of those written, that issued
before the entry (R183, R278, R336). -/
def tileBusy (s : State) (m : MatEntry) : Bool :=
  s.engines.any (fun o => o.group == m.group && decide (o.id < m.id) && !o.finished &&
    (match o.kind with
     | .tld t => (matTilesIn m.ins ++ matTilesOut m.ins).contains t
     | .tstr t => (matTilesOut m.ins).contains t && o.fault.isNone && !decide (o.writes.length ≤ o.writesDone.length)
     | _ => false))

/-- The lanes in whose program order the reads of a line stand: lane i div 4 for each row i that gathers it (R201). -/
def MatEntry.rowLanes (m : MatEntry) (line : Nat) : LaneMask :=
  maskOf (fun L => m.lines.any (fun x => x.2 == line && x.1 / 4 == L))

/-- A gathered line's turn has come: every earlier access of the group to it, by its offset or through a window, and every earlier one
of the lanes in whose program order its reads stand, is performed (R147, R201). -/
def gatherable (s : State) (m : MatEntry) (bi line : Nat) : Bool :=
  s.acc.all (fun a => a.group != m.group || decide (m.id ≤ a.id) ||
    a.lanes.all (fun l => l.stage == .done || (a.lanesOf l &&& m.rowLanes line == 0 &&
      (s.group? a.group).all (fun g => !(bankLines s g a.bytes l).contains (bi, line)))))

/-- One gathered line: latched when it is full and nothing reserves it, noted as waited for when it is empty (R129, R130, R161,
R200). R200 does not say whether the tag of an empty line is compared before the wait: only that of the full line counts here.
DESIGN CHOICE (log 99). -/
def gatherLine (bi : Nat) (s : State) (m : MatEntry) (line : Nat) : MatEntry :=
  if m.latch.any (fun x => x.1 == line) || !gatherable s m bi line then m
  else if s.lineFull bi line then (if sreserved s bi line then m else matReadLine s bi line m)
  else if m.emptySince.any (fun e => e.1 == line) then m
  else { m with emptySince := m.emptySince ++ [(line, s.now)] }

/-- The swizzle code of a MMAG. -/
def mmagSwz (i : Instr) : Nat :=
  match i with
  | .mmag x => (x.var.extractLsb' 1 3).toNat
  | _ => 0

/-- The offsets of lines whose tag is not the MMAG's code. -/
def wrongTags (m : MatEntry) : List Nat := (m.latch.filter (fun x => x.2.1 != mmagSwz m.ins)).map (fun x => x.1 * 128)

/-- Every gathered line is in the latch. -/
def gathered (m : MatEntry) : Bool := m.lines.all (fun r => m.latch.any (fun x => x.1 == r.2))

/-- What an entry computes in its first cycle. -/
def matResult (m : MatEntry) (g : Group) : MatOut :=
  let col := (m.uniB.toNat) % 64
  match m.ins with
  | .mma x => mmaOut x g m.e
  | .mmag x => mmagOut x g m.e m.vals m.latch
  | .mmat x => mmatOut x g m.e
  | .aexp x => aexpOut x g m.e m.uniB
  | .amode x => amodeOut x g
  | .ard x => ardOut x g m.e col
  | .awr x => awrOut x m.e col m.vals
  | .mzero x => mzeroOut x g m.e
  | .mcarry x => mcarryOut x g m.e m.vals
  | .mscan x => mscanOut x g m.e
  | .tmov x => tmovOut x g
  | .trd x => trdOut x g m.e col
  | .twr x => twrOut x m.e col m.vals
  | _ => MatOut.empty

/-- A stop asked of a context or a block grants tokens to what is in flight on its cores (R20). -/
def tokensGranted (s : State) (die core : Nat) : Bool :=
  s.groups.any (fun g => g.die == die && g.core == core && !g.retired && haltAsked s g)

/-- The matrix engine of a core accepts no entry while its die's current budget is short (R20). DESIGN CHOICE (log 71). -/
def budgetDelays (s : State) (die core : Nat) : Bool := s.short.get 0 die != 0 && !tokensGranted s die core

/-- MATRIX_ENTRY_START: the head of the queue gathers, and begins when nothing of its group and no short budget holds it back (R20,
R196, R197, R200, R278, R336). -/
def execMatrixEntryStart (die core : Nat) (s : State) : Host.Outcome State Fault Refusal :=
  .next (match matHead s die core with
    | none => s
    | some m =>
      match s.group? m.group with
      | none => s
      | some g =>
        if m.out.isSome || decide (s.now < s.busy.get 0 (matKey die core)) || budgetDelays s die core then s
        else
          let m' := (m.lines.map (·.2)).foldl (gatherLine g.block s) m
          if tileBusy s m || !gathered m' || wrongTags m' != [] then
            s.modMat m.id (fun _ => m')
          else
            s.modMat m.id (fun _ =>
              { m' with out := some (matResult m' g), endsAt := s.now + matCycles m.ins - 1 }))

/-- What an entry writes in its last cycle (R197). DEDUCED (log 52). -/
def Group.applyMat (g : Group) (o : MatOut) : Group :=
  { g with
    acc := Tab.putAll 0 g.acc o.acc, carry := Tab.putAll 0 g.carry o.carry, tile := Tab.putAll 0 g.tile o.tile,
    scale := o.scale.foldl (fun t y => t.put 0 (y.1 / 4) (setWordByte (t.get 0 (y.1 / 4)) (y.1 % 4) y.2)) g.scale,
    vec := Tab.putAll 0 g.vec (o.vec.filter (fun w => g.present.getLsbD (w.1 % 16))),
    affine := match o.affine with
      | none => g.affine
      | some (d, true) => g.affine ||| laneBit d
      | some (d, false) => g.affine &&& ~~~laneBit d,
    flags := g.flags ||| o.flags }

/-- MATRIX_ENTRY_COMPLETE: the entry writes what it changes, its flags are merged and its destinations are free (R112,
R197); the next entry starts in the cycle after (R196). DEDUCED (log 52). -/
def execMatrixEntryComplete (die core : Nat) (s : State) : Host.Outcome State Fault Refusal :=
  .next (match matHead s die core with
    | none => s
    | some m =>
      match m.out with
      | none => s
      | some o =>
        if s.now < m.endsAt then s
        else
          ({ s with matq := s.matq.filter (fun q => q.id != m.id),
                    busy := s.busy.put 0 (matKey die core) (s.now + 1) }).modGroup m.group (fun g =>
            (g.applyMat o).release m.id))

/-- 2^EMPTYEXP cycles, with 0 for 20 (R39, R130). -/
def emptyLimit (s : State) (gi : Nat) : Nat :=
  let e := (((s.group? gi).bind (fun g => s.descOf g)).map (fun d => d.emptyExp)).getD 0
  2 ^ (if e = 0 then 20 else e)

/-- The fault of a gather: a wrong tag, or an empty line waited for too long, with the line's offset (R203). Which of several comes
first is open: the first wrong tag that was latched, then the first timeout. DESIGN CHOICE (log 99). -/
def gatherFault (s : State) (m : MatEntry) : Option (Cause × Nat) :=
  match (wrongTags m).head? with
  | some off => some (.swz, off)
  | none =>
    ((m.emptySince.find? (fun e => decide (e.2 + emptyLimit s m.group ≤ s.now))).map (fun e => (.emptyto, e.1 * 128)))

/-- MMAG_CANCEL: the MMAG leaves the queue without a write, and its fault waits for delivery (R203). -/
def execMmagCancel (die core : Nat) (s : State) : Host.Outcome State Fault Refusal :=
  .next (match matHead s die core with
    | none => s
    | some m =>
      match gatherFault s m with
      | none => s
      | some (c, off) =>
        let f : PendingFault :=
          { cause := c, aux := BitVec.ofNat 64 off, classC := false, op := m.id,
            mmag := some ((matAcc m.ins).getD 0, m.pc), tile := none, lines := [], from_ := none }
        ({ s with matq := s.matq.filter (fun q => q.id != m.id) }).modGroup m.group (fun g =>
          { g with faults := g.faults ++ [f] }))

end Sys2Proof.Machine
end

