-- ==== Sys2Proof/Machine/Engine.lean ====
section
/-! DEFINITION. Engine operations: the checks and the issue of CPY, TLD, TSTR and LDH (R160 to R162, R175 to R188, R299,
R328, R369, R370, R378). -/

namespace Sys2Proof.Machine

open Sys2Proof Sys2Proof.Num

/-! ## Checks at issue -/

/-- What a check at issue answers: a value and the state, a trap with its AUX, a page that a service must map, or that
the instruction cannot issue yet, with the access of an agent that waits for a drain, if one does: its address and whether it
writes. -/
inductive Try (α : Type) where
  | ok (a : α) (s : State)
  | trap (c : Cause) (aux : DWord)
  | park (va : DWord)
  | stall (w : Option (Agent × Nat × Bool))

def Try.bind {α β : Type} (t : Try α) (f : α → State → Try β) : Try β :=
  match t with
  | .ok a s => f a s
  | .trap c aux => .trap c aux
  | .park va => .park va
  | .stall w => .stall w

/-- A check: OPR unless it holds. -/
def checkOpr (k : Issue) (good : Bool) (s : State) : Try Unit := if good then .ok () s else .trap .opr (0#32 ++ k.word0)

/-- What waits at a home for an issuing instruction. -/
def Issue.waiter (k : Issue) : Waiter := .issue k.gi k.si k.sp.pc

/-- n bytes of one line that the issuing split reads at issue, as a load in its program order; it waits while an operation
reserves the line, and where R155 counts it while another such access is outstanding (R155, R161, R175). DEDUCED (log 42). -/
def readLine (k : Issue) (va : DWord) (n : Nat) (s : State) : Try (List Byte) :=
  match xlate s k.g.die k.g.engineTlb (s.groupCtx k.g) va .r with
  | .prot => .trap .prot va
  | .pf => .trap .pf va
  | .replay => .park va
  | .ok .hbm pa =>
    if reserved s (pa / 128) || (sharedOut s k.gi && sharedPlace s k.g .hbm pa) then .stall none
    else
      match claimAs s k.waiter (groupAgent k.gi k.g) pa false with
      | some s => .ok (s.memBytes pa n) s
      | none => .stall (some (groupAgent k.gi k.g, pa, false))
  | .ok .host pa =>
    if reservedKey s (.host, 0, pa / 128) || sharedOut s k.gi then .stall none else .ok ((List.range n).map (fun j => s.hostGet (pa + j))) s
  | .ok _ _ => .trap .mal va

/-- n bytes read so, line by line in ascending order (R175, R254). -/
def readAtIssue (k : Issue) (va : DWord) (n : Nat) (s : State) : Try (List Byte) :=
  (lineRuns va.toNat n).foldl (fun t r => t.bind (fun bs s =>
    (readLine k (BitVec.ofNat 64 r.1) (lineRun r.1 (n - r.2)) s).bind (fun cs s => .ok (bs ++ cs) s))) (.ok [] s)

/-- A record read: its address is a multiple of 128. DEDUCED (log 42). -/
def readRecord (k : Issue) (va : DWord) (s : State) : Try Record :=
  if va.toNat % 128 ≠ 0 then .trap .mal va
  else (readAtIssue k va 128 s).bind (fun bs s => .ok (parseRecord bs) s)

/-- The linked record of an index producer. DEDUCED (log 42). -/
def readLink (k : Issue) (r : Record) (s : State) : Try RecPair :=
  if r.role = 1 then (readRecord k r.link s).bind (fun q s => .ok (r, some q) s) else .ok (r, none) s

/-- One record, or two, then their links in the same order (R378). -/
def readOne (k : Issue) (va : DWord) (s : State) : Try RecPair :=
  (readRecord k va s).bind (fun r s => readLink k r s)
def readTwo (k : Issue) (va vb : DWord) (s : State) : Try (RecPair × RecPair) :=
  (readRecord k va s).bind (fun a s =>
    (readRecord k vb s).bind (fun b s =>
      (readLink k a s).bind (fun a s => (readLink k b s).bind (fun b s => .ok (a, b) s))))

/-- PROT for an element outside the tensor of a box that is known at issue (R177). DEDUCED (log 43). -/
def checkInside (rq : RecPair) (org : List Int) (s : State) : Try Unit :=
  match outsideOf rq.1 (rq.ownStream org) with
  | none => .ok () s
  | some a => .trap .prot a

/-- The answer of the checks becomes the instruction's effect: one that cannot issue yet has none, but the drain that its access
asks for begins (R157). -/
def endTry (k : Issue) (before : State) (t : Try Unit) : State :=
  match t with
  | .ok _ s => s
  | .trap c aux => trapRead k c aux before
  | .park va => parkAt k va before
  | .stall none => before
  | .stall (some (a, pa, w)) => openDrain k.waiter a pa w before

/-! ## Lines and sectors -/

/-- Distinct values in order of first appearance. -/
def distinct (l : List Nat) : List Nat := (l.foldl (fun acc a => if acc.contains a then acc else a :: acc) []).reverse

/-- The memory sectors that places lie in. -/
def memSectors (ps : List Place) : List Nat :=
  distinct (ps.filterMap (fun p => match p with
    | .mem b => some (b / 256)
    | _ => none))

/-- The scratchpad sectors, and the scratchpad lines, that places lie in. -/
def spadSectors (ps : List Place) : List Nat :=
  distinct (ps.filterMap (fun p => match p with
    | .spad b => some (b / 256)
    | _ => none))
def spadLines (ps : List Place) : List Nat :=
  distinct (ps.filterMap (fun p => match p with
    | .spad b => some (b / 1024)
    | _ => none))

/-- An operation still has to read a line, or, with its composed source unresolved, may have to (R162). -/
def EngineOp.willRead (s : State) (o : EngineOp) (key : LineKey) : Bool :=
  !o.finished && (o.plan.isSome || (o.srcKeys s).contains key)

/-- The physical HBM lines that an operation reserves. -/
def EngineOp.lines (s : State) (o : EngineOp) : List Nat :=
  distinct ((o.dstKeys s).filterMap (fun k => if k.1 = .hbm then some k.2.2 else none))

/-- The reservations of a new operation can be installed: no other operation holds a line reserved or still reads it, in
whatever space it lies, and no earlier MMAG of the group has still to gather it (R161, R162, R201); nor is a lane access to it under
way behind which another access to HBM stands, so that this one stays sure to be performed (R263). DEDUCED (log 80). -/
def installable (s : State) (o : EngineOp) : Bool :=
  s.acc.all (fun a => a.lanes.all (fun l => l.stage != .issued || !(laneKeys s a l).any (o.dstKeys s).contains || !followed s a l)) &&
  (o.dstKeys s).all (fun key => !reservedKey s key && s.engines.all (fun p => !p.willRead s key) &&
    !(key.1 == .scratch && key.2.1 == o.block && gatherWaits s o.group o.id key.2.2))

/-- Installation counts as a write of each destination granule (R152, R161). DEDUCED (log 45). -/
def claimLines (who : Waiter) (a : Agent) : List Nat → State → Try Unit
  | [], s => .ok () s
  | n :: rest, s =>
    match claimAs s who a (128 * n) true with
    | some s => claimLines who a rest s
    | none => .stall (some (a, 128 * n, true))

/-- The counter class of an operation (R184). -/
def EngKind.ctr : EngKind → Ctr
  | .tld _ | .tstr _ => .t
  | _ => .c

/-- The instruction of an operation. -/
def EngKind.instr (x : Ext) : EngKind → Instr
  | .cpy => .cpy x
  | .tld _ => .tld x
  | .tstr _ => .tstr x
  | .ldh _ _ _ => .ldh x
  | .coll => .coll x

/-- An operation without any work, from its instruction and its records. -/
def engineOp (k : Issue) (s : State) (kind : EngKind) (x : Ext) (recs : List RecPair) : EngineOp :=
  { id := s.nextId, group := k.gi, block := k.g.block, ctx := s.groupCtx k.g, kind := kind,
    words := encode (kind.instr x), recs := recs.flatMap (fun r => r.1 :: r.2.toList),
    org := (List.range 10).map (fun i => k.g.uget (x.c.toNat + i)), composed := false, fmtS := 0,
    fmtD := 0, rm := x.rm, clamp := 0, swz := 0, plan := none, moves := [], reads := [], readsDone := [], sreads := [], sreadsDone := [], buf := [],
    sbuf := [], writes := [], writesDone := [], swrites := [], swritesDone := [], resv := [], sresv := [], emptySince := [],
    flags := 0, bursts := [], coll := none, fault := none, deliver := false, finished := false }

/-- The sectors, lines and reservations that an operation's moves call for. -/
def EngineOp.plain (o : EngineOp) : EngineOp :=
  let src := o.moves.map (fun m => m.src)
  let dst := o.moves.map (fun m => m.dst)
  { o with reads := memSectors src, sreads := spadSectors src, writes := memSectors dst, swrites := spadSectors dst,
           resv := distinct ((memSectors dst).map (fun v => v / 4)),
           sresv := spadLines dst }

/-- The operation starts: its reservations are installed, its counter rises, and the split moves on (R161, R299). -/
def startEngine (k : Issue) (o : EngineOp) (s : State) : Try Unit :=
  if !installable s o then .stall none
  else
    (claimLines k.waiter (.engine o.id) (o.lines s) s).bind (fun _ s =>
      let s := { s with nextId := o.id + 1, engines := s.engines ++ [o] }
      .ok () (advance k (s.modGroup k.gi (fun g => g.addCtr o.kind.ctr true))))

/-! ## Composed streams -/

/-- The indices of a composed destination, read at issue as source sectors of the operation (R161, R178): the stream,
or the engine fault that the reads meet. An element outside the tensor is then known at issue, and its PROT is precise (R370).
DEDUCED (log 43). -/
def readIndices (k : Issue) (id : Nat) (rq : RecPair) (org : List Int) (s : State) : Try (List Elem × Option (Cause × DWord)) :=
  match rq.2 with
  | none => .ok (rq.1.stream org, none) s
  | some q =>
    let step (t : Try (List Elem × Option (Cause × DWord))) (e : Elem) : Try (List Elem × Option (Cause × DWord)) :=
      t.bind (fun acc s =>
        if acc.2.isSome then .ok acc s
        else
          let emit (bits : Nat) (s : State) : Try (List Elem × Option (Cause × DWord)) :=
            .ok (acc.1 ++ slab q (consumerOrg org) (indexOf rq.1 bits), none) s
          if !e.inside then emit rq.1.fillElem s
          else
            let va := BitVec.ofNat 64 (e.bit / 8)
            match xlate s k.g.die k.g.engineTlb (s.groupCtx k.g) va .r with
            | .prot => .ok (acc.1, some (.prot, va)) s
            | .pf => .ok (acc.1, some (.pf, va)) s
            | .replay => .park va
            | .ok .hbm pa =>
              if reserved s (pa / 128) then .stall none
              else
                match claimAs s k.waiter (.engine id) pa false with
                | some s => emit (natLE (s.memBytes pa 4)) s
                | none => .stall (some (.engine id, pa, false))
            | .ok sp pa =>
              if sp = .window ∧ winAllowed s (s.groupCtx k.g) pa false = false then .ok (acc.1, some (.prot, va)) s
              else if reservedKey s (lineKey s (s.groupCtx k.g) sp pa) then .stall none
              else emit (spaceRead s (s.groupCtx k.g) k.g.block sp pa 4) s)
    ((rq.1.stream org).foldl step (.ok ([], none) s)).bind (fun acc s =>
      match acc.2, outsideOf q acc.1 with
      | some f, _ => .ok ([], some f) s
      | none, some a => .trap .prot a
      | none, none => .ok acc s)

/-- The plan of a composed source, and its producer's sectors, which are read first. -/
def planOf (rq : RecPair) (org : List Int) : Option Plan :=
  rq.2.map (fun q => { p := rq.1, q := q, orgP := org.take 5, orgQ := consumerOrg org })

/-- The source places of a stream that is known, or placeholders for one that is not. DEDUCED (log 43). -/
def sourcePlaces (rq : RecPair) (org : List Int) : List Place :=
  match rq.2 with
  | none => (rq.1.stream org).map rq.1.source
  | some _ => List.replicate rq.count .drop

/-- Source and destination joined element by element. -/
def joinMoves (src dst : List Place) (ws wd : Nat) : List Move :=
  (src.zip dst).map (fun p => { src := p.1, dst := p.2, ws := ws, wd := wd })

/-- The sectors of a composed source's producer. -/
def withPlan (rq : RecPair) (org : List Int) (o : EngineOp) : EngineOp :=
  match planOf rq org with
  | none => o
  | some pl => { o with plan := some pl, reads := memSectors ((rq.1.stream org).map rq.1.source) }

/-! ## CPY (R179 to R182, R299) -/

/-- A place in scratchpad of a stream bit: the 16-byte chunks of a line stand as the swizzle puts them (R176). -/
def spadBit (z off bit : Nat) : Nat :=
  let byte := bit / 8
  let n := byte / 128
  let c := byte % 128 / 16
  (off + n * 128 + (c ^^^ swz z n) * 16 + byte % 16) * 8 + bit % 8

/-- The scratchpad places of a stream. -/
def spadPlaces (z off w n : Nat) : List Place := (List.range n).map (fun j => .spad (spadBit z off (w * j)))

def isFloatFmt (fmt : Nat) : Bool := decide (8 ≤ fmt) && decide (fmt ≤ 14)

/-- The checks of a scratchpad range (R180): MAL, then PROT with the lowest offset outside. -/
def checkRange (s : State) (k : Issue) (off : DWord) (n : Nat) : Try Unit :=
  if off.toNat % 128 ≠ 0 then .trap .mal off
  else if s.scratchOf k.g.block < off.toNat + n then
    .trap .prot (BitVec.ofNat 64 (max off.toNat (s.scratchOf k.g.block)))
  else .ok () s

/-- A pending fault that the instruction delivers instead of what it does (R187). -/
def deliverTry (k : Issue) (f : PendingFault) (s : State) : Try Unit :=
  .ok () (trapAt k f.cause f.aux k.e (s.modGroup k.gi (fun g => { g with faults := g.faults.erase f })))

/-- An operation's window sectors reach a tile or a scratchpad line that a faulted operation of the group left unfinished. -/
def EngineOp.uses (s : State) (gi : Nat) (g : Group) (o : EngineOp) (f : PendingFault) : Bool :=
  let at_ (need : Need) (v : Nat) : Bool :=
    match o.place s v need with
    | .ok .window pa => (List.range 32).any (fun j => f.covers s gi g (pa + j))
    | _ => false
  (o.reads.filter (fun v => v != tileCode)).any (at_ .r) || o.writes.any (at_ .w)

/-- Such an operation delivers that fault instead (R187). -/
def unlessUses (k : Issue) (o : EngineOp) (body : State → Try Unit) (s : State) : Try Unit :=
  match k.g.faults.find? (o.uses s k.gi k.g) with
  | some f => deliverTry k f s
  | none => body s

/-- CPY g2g. -/
def cpyGlobal (x : Ext) (k : Issue) (s : State) : Try Unit :=
  (readTwo k (opA k.g x true 0) (opB k.g x true 0) s).bind (fun ab s =>
    let a := ab.1
    let b := ab.2
    let org := originOf k.g x.c.toNat a
    let zero : List Int := List.replicate 9 0
    let fs := a.elems.fmt
    let fd := b.elems.fmt
    (checkOpr k (a.ok && b.ok && !originBad k.g x.c.toNat a && a.limitsOk org && b.limitsOk zero && a.count == b.count &&
        (fs == fd || (isFloatFmt fs && isFloatFmt fd))) s).bind (fun _ s =>
      (checkInside a org s).bind (fun _ s =>
        (checkInside b zero s).bind (fun _ s =>
          (readIndices k s.nextId b zero s).bind (fun dst s =>
            let o := { engineOp k s .cpy x [a, b] with
              composed := b.2.isSome, fmtS := fs, fmtD := fd, clamp := b.elems.clamp,
              moves := joinMoves (sourcePlaces a org) (dst.1.map sink) a.elems.width b.elems.width, fault := dst.2 }
            unlessUses k (withPlan a org o.plain) (startEngine k (withPlan a org o.plain)) s)))))

/-- A scratchpad range that a faulted operation of the group left unwritten (R187). -/
def leftUnwritten (k : Issue) (off n : Nat) : Option PendingFault :=
  k.g.faults.find? (fun f => f.lines.any (fun l => decide (off / 128 ≤ l) && decide (l < (off + n + 127) / 128)))

/-- An operation that uses such a range delivers that fault instead (R187). -/
def unlessLeft (k : Issue) (off n : Nat) (body : State → Try Unit) (s : State) : Try Unit :=
  match leftUnwritten k off n with
  | some f => deliverTry k f s
  | none => body s

/-- CPY g2s. -/
def cpyIn (x : Ext) (k : Issue) (s : State) : Try Unit :=
  (readOne k (opA k.g x true 0) s).bind (fun a s =>
    let org := originOf k.g x.c.toNat a
    let off := opB k.g x false 0
    (checkOpr k (a.ok && !originBad k.g x.c.toNat a && a.limitsOk org && a.count * a.elems.width % 1024 == 0) s).bind
      (fun _ s =>
        (checkInside a org s).bind (fun _ s =>
          (checkRange s k off a.bytes).bind (fun _ s =>
            let w := a.elems.width
            let o := { engineOp k s .cpy x [a] with
              fmtS := a.elems.fmt, fmtD := a.elems.fmt, swz := a.elems.swz,
              moves := joinMoves (sourcePlaces a org) (spadPlaces a.elems.swz off.toNat w a.count) w w }
            unlessLeft k off.toNat a.bytes (unlessUses k (withPlan a org o.plain) (startEngine k (withPlan a org o.plain))) s))))

/-- CPY s2g. -/
def cpyOut (x : Ext) (k : Issue) (s : State) : Try Unit :=
  (readOne k (opB k.g x true 0) s).bind (fun b s =>
    let org := originOf k.g x.c.toNat b
    let off := opA k.g x false 0
    (checkOpr k (b.ok && !originBad k.g x.c.toNat b && b.limitsOk org && b.count * b.elems.width % 1024 == 0) s).bind
      (fun _ s =>
        (checkInside b org s).bind (fun _ s =>
          (checkRange s k off b.bytes).bind (fun _ s =>
            unlessLeft k off.toNat b.bytes (fun s =>
              (readIndices k s.nextId b org s).bind (fun dst s =>
                let w := b.elems.width
                let o := { engineOp k s .cpy x [b] with
                  composed := b.2.isSome, fmtS := b.elems.fmt, fmtD := b.elems.fmt, swz := b.elems.swz,
                  moves := joinMoves (spadPlaces b.elems.swz off.toNat w b.count) (dst.1.map sink) w w, fault := dst.2 }
                unlessUses k o.plain (startEngine k o.plain) s)) s))))

/-- CPY acts once for the split when E is not empty. DEDUCED (log 50). -/
def execCpy (x : Ext) (s : State) : Host.Outcome State Fault Refusal :=
  runInstr (.cpy x) x.guard (fun k s =>
    if k.e = 0 then advance k s
    else endTry k s (match x.var.toNat with
      | 0 => cpyGlobal x k s
      | 1 => cpyIn x k s
      | _ => cpyOut x k s)) s

/-! ## TLD and TSTR (R183, R369, R370) -/

/-- The limits of a tile transfer: 8,192 bytes, no swizzle, and scale blocks of 32 whole elements. With SGRAN 32 and a
composed consumer of rank 1, the spec does not say which o0 and BOX0 must be multiples of 32: the model takes o0 = 0 and
the consumer's stored BOX0. DESIGN CHOICE (log 81). -/
def tileOk (rq : RecPair) (org : List Int) : Bool :=
  let r := rq.elems
  rq.count * r.width == 65536 && r.swz == 0 &&
    (r.sgran != 32 || (Record.dim r.box 0 % 32 == 0 && rq.o0 org % 32 == 0))

/-- Sideband byte of stream element j, when it has one (R183). -/
def sidePlace (w j : Nat) : Option Nat :=
  if w ≤ 32 ∧ w ≠ 2 ∧ j % 32 = 0 then some (8 * (j / (1024 / w)) + j % (1024 / w) / 32) else none

/-- The moves of a tile's rows. -/
def tileRows (es : List Place) (w : Nat) : List Move :=
  (es.zipIdx).map (fun p => { src := p.1, dst := .tile (w * p.2), ws := w, wd := w })

/-- The moves of a tile's sideband for TLD: scales of the plane, or 0x7F. -/
def sideRows (r : Record) (es : List Elem) : List Move :=
  (es.zipIdx).filterMap (fun p =>
    (sidePlace r.width p.2).map (fun b =>
      { src := if r.sgran = 32 ∧ p.1.inside then .mem (r.scaleBit p.1) else .fill 0x7F, dst := .side (8 * b), ws := 8,
        wd := 8 }))

/-- TLD's operation with its stream known. -/
def tldMoves (r : Record) (es : List Elem) : List Move := tileRows (es.map r.source) r.width ++ sideRows r es

/-- A pending fault of an operation that left the tile unfinished (R187). -/
def deliverTile (x : Ext) (k : Issue) (body : State → State) (s : State) : State :=
  deliverOr k (fun f => f.tile == some x.d.toNat) body s

def tldIssue (x : Ext) (k : Issue) (s : State) : Try Unit :=
  (readOne k (opA k.g x true 0) s).bind (fun a s =>
    let org := originOf k.g x.c.toNat a
    (checkOpr k (a.ok && !originBad k.g x.c.toNat a && a.limitsOk org && tileOk a org) s).bind (fun _ s =>
      (checkInside a org s).bind (fun _ s =>
        let o := { engineOp k s (.tld x.d.toNat) x [a] with
          fmtS := a.elems.fmt, fmtD := a.elems.fmt,
          moves := if a.2.isSome then [] else tldMoves a.1 (a.1.stream org) }
        unlessUses k (withPlan a org o.plain) (startEngine k (withPlan a org o.plain)) s)))

def execTld (x : Ext) (s : State) : Host.Outcome State Fault Refusal :=
  runInstr (.tld x) x.guard (fun k s =>
    if k.real = 0 then advance k s else deliverTile x k (fun s => endTry k s (tldIssue x k s)) s) s

/-- TSTR's moves: rows inside the tensor, and scale bytes when SGRAN is 32. -/
def tstrMoves (r : Record) (es : List Elem) : List Move :=
  (es.zipIdx).map (fun p => { src := .tile (r.width * p.2), dst := sink p.1, ws := r.width, wd := r.width }) ++
  (es.zipIdx).filterMap (fun p =>
    match sidePlace r.width p.2 with
    | some b =>
      if r.sgran = 32 ∧ p.1.inside then
        some { src := .side (8 * b), dst := .mem (r.scaleBit p.1), ws := 8, wd := 8 }
      else none
    | none => none)

def tstrIssue (x : Ext) (k : Issue) (s : State) : Try Unit :=
  (readOne k (opA k.g x true 0) s).bind (fun a s =>
    let org := originOf k.g x.c.toNat a
    (checkOpr k (a.ok && !originBad k.g x.c.toNat a && a.limitsOk org && tileOk a org) s).bind (fun _ s =>
      (checkInside a org s).bind (fun _ s =>
        (readIndices k s.nextId a org s).bind (fun dst s =>
          let o := ({ engineOp k s (.tstr x.d.toNat) x [a] with
            composed := a.2.isSome, fmtS := a.elems.fmt, fmtD := a.elems.fmt, moves := tstrMoves a.elems dst.1, fault := dst.2 }).plain
          unlessUses k { o with reads := [tileCode] } (startEngine k { o with reads := [tileCode] }) s))))

def execTstr (x : Ext) (s : State) : Host.Outcome State Fault Refusal :=
  runInstr (.tstr x) x.guard (fun k s =>
    if k.real = 0 then advance k s else deliverTile x k (fun s => endTry k s (tstrIssue x k s)) s) s

/-! ## LDH (R188, R189, R328) -/

/-- A list cut into runs of n. -/
def runsOf {α : Type} (n : Nat) (l : List α) : List (List α) :=
  if n = 0 then [] else (List.range ((l.length + n - 1) / n)).map (fun i => (l.drop (i * n)).take n)

/-- The bursts of a stream (R189): rows cut into 256-byte pieces, numbered in stream order, those with no element inside
left out. -/
def burstsOf (r : Record) (rowLen : Nat) (es : List Elem) : List Burst :=
  let w := r.width
  let pieces := (runsOf rowLen es).flatMap (runsOf (2048 / w))
  (pieces.zipIdx).filterMap (fun p =>
    match (p.1.zipIdx).filter (fun e => e.1.inside) with
    | [] => none
    | ins =>
      let last := (ins.getLast?.map (fun e => e.2)).getD 0
      some { seq := p.2, coords := (List.range 5).map (fun d => wrap 32 (coord ((p.1.head?.map (fun e => e.co)).getD []) d)),
             bits := p.1.map r.source, w := w, fill := r.fillElem, valid := ((last + 1) * w + 7) / 8, born := false, kept := none,
             ended := false, fault := none })

/-- Elements in one row of a stream. -/
def RecPair.rowLen (rq : RecPair) : Nat :=
  match rq.2 with
  | none => max 1 (Record.dim rq.1.box 0)
  | some q => if q.rank = 1 then 1 else max 1 (Record.dim q.box 0)

/-- The handler slots of a block's launch. -/
def handlerSlots (s : State) (g : Group) : Nat := ((s.descOf g).map (fun d => d.hslots)).getD 0

/-- The event line of a request is emptied at issue, in the access that reserves it (R188). -/
def emptyEvent (bi line : Nat) (s : State) : State := s.linePut bi line (s.lineGet bi line &&& 0xFE#8)

def ldhIssue (x : Ext) (k : Issue) (s : State) : Try Unit :=
  let ev : DWord := 0#32 ++ k.g.uget x.d.toNat
  let entry := opB k.g x true 0
  if k.g.handler.isSome || handlerSlots s k.g == 0 then .trap .hnd 0
  else
    (readOne k (opA k.g x true 0) s).bind (fun a s =>
      let org := originOf k.g x.c.toNat a
      (checkOpr k (a.ok && !originBad k.g x.c.toNat a && a.limitsOk org && decide (0 ≤ a.o0 org)) s).bind (fun _ s =>
        (checkInside a org s).bind (fun _ s =>
          if !s.inText k.g entry then .trap .brt entry
          else if ev.toNat % 128 ≠ 0 then .trap .mal ev
          else if s.scratchOf k.g.block ≤ ev.toNat then .trap .prot ev
          else
            let line := ev.toNat / 128
            let bursts := if a.2.isSome then [] else burstsOf a.1 a.rowLen (a.1.stream org)
            let o := { engineOp k s (.ldh line (k.g.uget (x.d.toNat + 1)) entry) x [a] with
              fmtS := a.elems.fmt, fmtD := a.elems.fmt, swz := a.elems.swz, bursts := bursts,
              reads := memSectors (bursts.flatMap (fun b => b.bits)), sresv := [line] }
            unlessLeft k (128 * line) 128 (unlessUses k (withPlan a org o) (fun s =>
              (startEngine k (withPlan a org o) s).bind (fun _ s => .ok () (emptyEvent k.g.block line s)))) s)))

/-- LDH acts once when E holds a lane that is no helper. DEDUCED (log 50). -/
def execLdh (x : Ext) (s : State) : Host.Outcome State Fault Refusal :=
  runInstr (.ldh x) x.guard (fun k s => if k.real = 0 then advance k s else endTry k s (ldhIssue x k s)) s

end Sys2Proof.Machine
end

