-- ==== Sys2Proof/Machine/Coll.lean ====
section
/-! DEFINITION. Collectives: schedule tables, COLL at issue, the exchange with peers, and remote writes (R141, R251 to
R256, R298). -/

namespace Sys2Proof.Machine

open Sys2Proof Sys2Proof.Num

/-! ## Schedule tables (R253) -/

/-- A schedule entry. -/
structure SchedEntry where
  session : Nat
  ndev : Nat
  rank : Nat
  modes : Nat
  ports : List Nat
  zeros : Bool
deriving DecidableEq, Repr

def parseEntry (bs : List Byte) : SchedEntry :=
  { session := fieldLE bs 0 8, ndev := fieldLE bs 8 2, rank := fieldLE bs 10 2, modes := fieldLE bs 12 1,
    ports := (List.range 64).map (fun k => fieldLE bs (16 + k) 1),
    zeros := fieldLE bs 13 3 == 0 && (bs.drop 80).all (fun b => b == 0) }

/-- The number of doubling steps of n devices. -/
def treeSteps (n : Nat) : Nat := ((List.range 7).filter (fun t => decide (2 ^ t < n))).length

/-- The ranks toward which the permitted modes need a port. -/
def SchedEntry.needs (e : SchedEntry) : List Nat :=
  (if e.modes % 2 = 1 then (List.range (treeSteps e.ndev)).map (fun t => e.rank ^^^ 2 ^ t) else []) ++
  (if e.modes / 2 % 2 = 1 then (List.range e.ndev).filter (fun r => r != e.rank) else [])

/-- An entry that admission accepts, with the ports bound to the context. -/
def SchedEntry.ok (bound : BitVec 12) (e : SchedEntry) : Bool :=
  decide (1 ≤ e.ndev) && decide (e.ndev ≤ 64) && decide (e.rank < e.ndev) && decide (e.modes < 4) && e.zeros &&
  e.ports.getD e.rank 0 == 0xFF && e.ports.all (fun p => p == 0xFF || decide (p ≤ 11)) &&
  (e.modes % 2 == 0 || e.ndev == 2 ^ treeSteps e.ndev) && (e.modes / 2 % 2 == 0 || decide (e.ndev ≤ 13)) &&
  e.needs.all (fun r => bound.getLsbD (e.ports.getD r 0xFF) && e.ports.getD r 0xFF != 0xFF)

/-! ## COLL at issue (R254, R298) -/

/-- The address of an entry of a launch's schedule table. -/
def tableEntry (tab : DWord) (idx : Nat) : DWord := tab + 16 + BitVec.ofNat 64 (128 * idx)

/-- The schedule table of a group's launch. -/
def collTab (s : State) (g : Group) : DWord := ((s.descOf g).map (fun d => d.colltab)).getD 0

/-- The table header and, when the index lies below NENT, its entry (R254). DEDUCED (log 42). A launch whose COLLTAB is 0 has no
table, and the spec does not say what its COLL does: every index is one at or above NENT, which gives OPR.
DESIGN CHOICE (log 96). -/
def readTable (k : Issue) (idx : Nat) (s : State) : Try (Option SchedEntry) :=
  let tab := collTab s k.g
  if tab = 0 then .ok none s
  else
    (readAtIssue k tab 16 s).bind (fun h s =>
      if fieldLE h 0 4 ≤ idx then .ok none s
      else (readAtIssue k (tableEntry tab idx) 128 s).bind (fun bs s => .ok (some (parseEntry bs)) s))

/-- The operand of OP (R254). -/
def collCombine (o : Coll) (a b : Word) : Word × FlagBits :=
  let x := a.toNat
  let y := b.toNat
  let r : Nat × FlagBits := if o.ty = .f32 then
      match o.op with
      | 0 => fop2 f32 o.rm false (addFlags o.rm) (dec f32 x) (dec f32 y)
      | n =>
        let m := fminmax (n == 2) (dec f32 x) (dec f32 y)
        ((Num.round f32 .rne m.1).1, m.2)
    else atomNew o.op o.ty x y 0
  (BitVec.ofNat 32 r.1, r.2)

/-- Two partials combined element by element, with the flags raised. -/
def combineAll (o : Coll) (a b : List Word) : List Word × FlagBits :=
  let rs := List.zipWith (collCombine o) a b
  (rs.map (·.1), rs.foldl (fun f r => f ||| r.2) 0)

/-- One level of the tree over a device's leaves. -/
def combinePairs (o : Coll) : List (List Word) → List (List Word) × FlagBits
  | a :: b :: rest =>
    let (x, f) := combineAll o a b
    let (xs, fs) := combinePairs o rest
    (x :: xs, f ||| fs)
  | l => (l, 0)

/-- The levels of the tree below a device: `n` bounds their number (R255). -/
def treeLocal (o : Coll) : Nat → List (List Word) → List Word × FlagBits
  | 0, ls => (ls.headD [], 0)
  | n + 1, ls =>
    let (ls, f) := combinePairs o ls
    let (r, g) := treeLocal o n ls
    (r, f ||| g)

/-- The leaves of a device combined in ascending order (R255). -/
def orderLocal (o : Coll) : List (List Word) → List Word × FlagBits
  | [] => ([], 0)
  | a :: rest => rest.foldl (fun acc b =>
      let (x, f) := combineAll o acc.1 b
      (x, acc.2 ||| f)) (a, 0)

/-- A device's own partial. -/
def localPartial (o : Coll) (elems : List Word) : List Word × FlagBits :=
  if o.kind = 2 then (elems, 0)
  else
    let leaves := runsOf o.e elems
    if o.mode = 0 then treeLocal o o.a leaves else orderLocal o leaves

/-- The peers that an operation exchanges partials with, in step order. An allgather sends to every peer (R255), also on an entry
that permits TREE alone, which need name no port toward some of them; what such a message then leaves through is open: the model
takes it as sent, through the port number that the entry holds. DESIGN CHOICE (log 107). -/
def Coll.partners (o : Coll) : List Nat :=
  if o.kind ≠ 2 ∧ o.mode = 0 then (List.range (treeSteps o.ndev)).map (fun t => o.rank ^^^ 2 ^ t)
  else (List.range o.ndev).filter (fun r => r != o.rank)

/-- The operation's parameters as it sends them to its peers (R256). -/
def Coll.header (o : Coll) : List Word :=
  [o.kind, o.mode, o.op, o.ty.code.toNat, o.e, o.a].map (BitVec.ofNat 32)

/-- A message leaves for a peer through the port toward it. -/
def sendMsg (ports : List Nat) (session k : Nat) (what : OutKind) (vals : List Word) (rank : Nat) (s : State) : State :=
  { s.countFlit (.port (ports.getD rank 0xFF)) false with
    outbox := s.outbox ++ [{ session := session, k := k, rank := rank, what := what, vals := vals, refusals := 0, due := 0 }] }

/-- Values leave for a peer of an operation. -/
def sendTo (o : Coll) (vals : List Word) (rank : Nat) (s : State) : State := sendMsg o.ports o.session o.k .values vals rank s

/-- A device's own data leave for a peer: a partial whole, the source stream of an allgather sector by sector (R252). -/
def sendData (o : Coll) (vals : List Word) (rank : Nat) (s : State) : State :=
  if o.kind = 2 then (runsOf 8 vals).foldl (fun s run => sendTo o run rank s) s else sendTo o vals rank s

/-- The end of a collective here, or other parameters than its peers', is told to its peers, which pass it on (R256, R275). -/
def tellEnd (o : Coll) (what : OutKind) (s : State) : State :=
  o.partners.foldl (fun s r => sendMsg o.ports o.session o.k what [] r s) s

/-- The elements of the destination that this device writes itself, and those that peers write. -/
def collOwn (o : Coll) (dst : List Place) : List Place :=
  if o.kind = 2 then (dst.drop (o.rank * (2 ^ o.a * o.e))).take (2 ^ o.a * o.e) else dst
def collRemote (o : Coll) (dst : List Place) : List Place :=
  if o.kind = 2 then dst.take (o.rank * (2 ^ o.a * o.e)) ++ dst.drop ((o.rank + 1) * (2 ^ o.a * o.e)) else []

/-- The byte addresses of places in memory. -/
def placeBytes (ps : List Place) : List Nat :=
  ps.filterMap (fun p => match p with
    | .mem b => some (b / 8)
    | _ => none)

/-- Peers have not yet written every element of theirs in a sector. -/
def Coll.remoteLeft (c : Coll) (sector : Nat) : Bool :=
  c.remote.any (fun a => a / 32 == sector && !c.remoteDone.contains a)

/-- The destination size that R254 asks for. -/
def destCount (kind ndev e a : Nat) : Nat :=
  match kind with
  | 0 => e
  | 1 => e / ndev
  | _ => ndev * (2 ^ a * e)

/-- The count of earlier COLLs on a schedule entry: that of a context, by its address and session (R256, R298). -/
def collIndex (s : State) (cn entry session : Nat) : Nat :=
  ((s.collCount.find? (fun c => c.1 == cn && c.2.1 == entry && c.2.2.1 == session)).map (fun c => c.2.2.2)).getD 0
def countColl (cn entry session : Nat) (s : State) : State :=
  let n := collIndex s cn entry session
  { s with collCount := s.collCount.filter (fun c => !(c.1 == cn && c.2.1 == entry && c.2.2.1 == session)) ++
      [(cn, entry, session, n + 1)] }

/-- The n-th operation of a session has been issued on every entry of the session that has been used (R256). -/
def collSeen (s : State) (session n : Nat) : Bool :=
  s.collCount.any (fun c => c.2.2.1 == session) && s.collCount.all (fun c => c.2.2.1 != session || decide (n < c.2.2.2))

/-! ## The exchange (R255, R256) -/

/-- The next peer partial that the operation combines: the partner's of this step, or the next to arrive. -/
def Coll.next (o : Coll) : Option (Nat × List Word) :=
  if o.kind = 2 then none
  else if o.mode = 0 then
    (o.partners[o.step]?).bind (fun r =>
      ((o.inbox.find? (fun m => m.1 == r && m.2.1 == o.step)).map (fun m => (r, m.2.2))))
  else (o.inbox[o.step]?).map (fun m => (m.1, m.2.2))

/-- Exchange steps that the operation needs. -/
def Coll.steps (o : Coll) : Nat := if o.kind = 2 then 0 else o.partners.length

/-- The result that goes to the destination. -/
def Coll.result (o : Coll) : List Word :=
  if o.kind = 1 then (o.acc.drop (o.rank * (o.e / o.ndev))).take (o.e / o.ndev) else o.acc

/-- One exchange step of an operation, if its peer's partial is here; the last one leaves the writes of the result. `n`
bounds the steps. -/
def collAdvance (id : Nat) : Nat → State → State
  | 0, s => s
  | n + 1, s =>
    match (s.engine? id).bind (fun o => o.coll.map (fun c => (o, c))) with
    | none => s
    | some (o, c) =>
      if !c.localDone || c.reduced || !c.partners.all (fun r => c.params.contains r) then s
      else if !c.sent then
        let first := if c.kind ≠ 2 ∧ c.mode = 0 then c.partners.take 1 else c.partners
        collAdvance id n (first.foldl (fun s r => sendData c c.acc r s)
          (s.modEngine id (fun o => { o with coll := some { c with sent := true } })))
      else if c.steps ≤ c.step then
        s.modEngine id (fun o =>
          { o with coll := some { c with reduced := true },
                   moves := joinMoves (c.result.map (fun w => .fill w.toNat)) (collOwn c c.dst) 32 32 })
      else
        match c.next with
        | none => s
        | some (r, vals) =>
          let (x, f) := if c.mode = 0 ∧ r < c.rank then combineAll c vals c.acc else combineAll c c.acc vals
          let c := { c with acc := x, step := c.step + 1 }
          let s := s.modEngine id (fun _ => { o with coll := some c, flags := o.flags ||| f })
          let s := if c.mode = 0 then
              match c.partners[c.step]? with
              | some p => sendTo c x p s
              | none => s
            else s
          collAdvance id n s

/-- The local leaves have been read: the device's partial is formed and sent (R255). -/
def collLocal (id : Nat) (elems : List Word) (s : State) : State :=
  match (s.engine? id).bind (fun o => o.coll.map (fun c => (o, c))) with
  | none => s
  | some (o, c) =>
    let (x, f) := localPartial c elems
    let c := { c with acc := x, localDone := true }
    collAdvance id (c.ndev + 2) (s.modEngine id (fun _ => { o with coll := some c, flags := o.flags ||| f }))

/-- The lowest destination address of an operation that is not written. -/
def lowestUnwritten (o : EngineOp) : DWord :=
  match o.coll with
  | none => lowest ((o.writes.filter (fun v => !o.writesDone.contains v)).map (fun v => BitVec.ofNat 64 (32 * v)))
  | some c =>
    let own := (placeBytes (collOwn c c.dst)).filter (fun a => o.writes.contains (a / 32) && !o.writesDone.contains (a / 32))
    lowest ((own ++ c.remote.filter (fun a => !c.remoteDone.contains a)).map (BitVec.ofNat 64))

/-- The work of a collective is done on this device: every destination sector is written, those of peers included (R256). -/
def collDone (o : EngineOp) : Bool :=
  o.writable && o.writes.all (fun v => o.writesDone.contains v) && o.swrites.all (fun v => o.swritesDone.contains v) &&
    o.coll.all (fun c => c.remote.all (fun v => c.remoteDone.contains v))

/-- A collective is over here: ended, at fault, or with its work done. -/
def collOver (o : EngineOp) : Bool := o.finished || o.fault.isSome || collDone o

/-- A collective is aborted, unless it is over: its PF waits for delivery, and its peers learn of the end, once (R256, R275). -/
def abortColl (id : Nat) (s : State) : State :=
  match (s.engine? id).bind (fun o => o.coll.map (fun c => (o, c))) with
  | none => s
  | some (o, c) =>
    if collOver o then s
    else tellEnd c .ended (s.modEngine id (fun o => { o with fault := some (.pf, lowestUnwritten o) }))

/-- A collective whose peers have other parameters: its OPR waits for delivery, and every peer learns of it (R256, R275). -/
def refuseColl (id : Nat) (s : State) : State :=
  match (s.engine? id).bind (fun o => o.coll.map (fun c => (o, c))) with
  | none => s
  | some (o, c) =>
    if collOver o then s
    else tellEnd c .mismatch (s.modEngine id (fun o => { o with fault := some (.opr, 0#32 ++ o.words.headD 0) }))

/-- h × 256 ns of the nominal clock in its cycles of 0.625 ns, a part of one counted whole (R3, R141). DEDUCED (log 49). -/
def hintCycles (h : Nat) : Nat := (h * 4096 + 9) / 10

/-- The unfinished COLL of a session and count. -/
def collOp? (s : State) (session n : Nat) : Option (EngineOp × Coll) :=
  s.engines.findSome? (fun o =>
    match o.coll with
    | some c => if c.session = session ∧ c.k = n ∧ o.finished = false then some (o, c) else none
    | none => none)

/-- A peer refuses the n-th run that it was sent: the engine sends it again after the hint's time, and after 64 refusals of
one run the operation ends with PF (R141). The address that it carries is the lowest unwritten one of the destination.
DEDUCED (log 49). -/
def refuseRun (o : EngineOp) (c : Coll) (rank n : Nat) (hint : BitVec 8) (s : State) : State :=
  let mine (x : RemoteOut) : Bool := x.session == c.session && x.k == c.k && x.rank == rank && x.what == .values
  match ((s.outbox.zipIdx).filter (fun (x : RemoteOut × Nat) => mine x.1))[n]? with
  | none => s
  | some (x, i) =>
    if s.now < x.due then s
    else
      let s := { s with outbox := modNth (fun (x : RemoteOut) =>
        { x with refusals := x.refusals + 1, due := s.now + hintCycles hint.toNat }) s.outbox i }
      if 64 ≤ x.refusals + 1 then abortColl o.id s else s

/-- The effect of a message on the collective that it matches: parameters, which must agree; a partial; the end of a
peer's data; its end; or a refusal. -/
def takeMessage (o : EngineOp) (c : Coll) (m : PeerMsg) (s : State) : State :=
  let set (c : Coll) (s : State) : State := s.modEngine o.id (fun o => { o with coll := some c })
  match m with
  | .params rank kind mode op ty e a =>
    if kind = c.kind ∧ mode = c.mode ∧ op = c.op ∧ ty = c.ty.code.toNat ∧ e = c.e ∧ a = c.a then
      collAdvance o.id (c.ndev + 2) (set { c with params := addNew rank c.params } s)
    else refuseColl o.id s
  | .partial_ rank step vals => collAdvance o.id (c.ndev + 2) (set { c with inbox := c.inbox ++ [(rank, step, vals)] } s)
  | .data rank => set { c with peersDone := addNew rank c.peersDone } s
  | .ended _ | .killed _ => abortColl o.id s
  | .mismatch _ => refuseColl o.id s
  | .refused rank n hint => refuseRun o c rank n hint s

/-- A dead peer: each operation of the session from the n-th on is aborted, those to come too (R256). -/
def peerDead (session n : Nat) (m : PeerMsg) (s : State) : State :=
  let hit := s.engines.filter (fun o => o.coll.any (fun c => c.session == session && decide (n ≤ c.k)))
  let s := hit.foldl (fun s o => abortColl o.id s) s
  { s with early := if s.early.contains (session, n, m) then s.early else s.early ++ [(session, n, m)] }

/-- A peer's message: one that comes before this device has issued its own operation of that count waits for it (R256). -/
def peerMessage (session n : Nat) (m : PeerMsg) (s : State) : State :=
  match m with
  | .killed _ => peerDead session n m s
  | m =>
    match collOp? s session n with
    | some (o, c) => takeMessage o c m s
    | none => if collSeen s session n then s else { s with early := s.early ++ [(session, n, m)] }

def execCollPeerMessage (session n : Nat) (m : PeerMsg) (s : State) : Host.Outcome State Fault Refusal :=
  .next (peerMessage session n m s)

/-- A port that some peer of a collective is reached by. -/
def Coll.uses (c : Coll) (port : Nat) : Bool := c.partners.any (fun r => c.ports.getD r 0xFF == port)

/-- A new operation takes the messages that came before it; with a port down it is aborted at once (R256). -/
def startExchange (id : Nat) (c : Coll) (s : State) : State :=
  let dead (x : Nat × Nat × PeerMsg) : Bool := match x.2.2 with
    | .killed _ => x.1 == c.session && decide (x.2.1 ≤ c.k)
    | _ => false
  let mine (x : Nat × Nat × PeerMsg) : Bool := x.1 == c.session && x.2.1 == c.k && !dead x
  let s := (s.early.filter mine).foldl (fun (s : State) x => peerMessage x.1 x.2.1 x.2.2 s)
    { s with early := s.early.filter (fun x => !mine x) }
  let s := if s.early.any dead then abortColl id s else s
  if s.portsDown.any c.uses then abortColl id s else s

/-! ## The issue of COLL (R254, R298) -/

/-- The checks, the reservations and the start of a COLL. The spec has refused at admission a schedule that names an unbound port
(R251) and does not say what becomes of one whose entry or binding has changed since: its messages leave through the port that
the entry names. DESIGN CHOICE (log 97). -/
def collIssue (x : Ext) (k : Issue) (s : State) : Try Unit :=
  let idx := (k.g.uget x.c.toNat).toNat
  let e := (k.g.uget (x.c.toNat + 1)).toNat
  let a := (k.g.uget (x.c.toNat + 2)).toNat
  let kind := Fields.collKind x
  let mode := (x.var.extractLsb' 2 1).toNat
  let zero : List Int := List.replicate 9 0
  let entry := (tableEntry (collTab s k.g) idx).toNat
  (readTwo k (opA k.g x true 0) (opB k.g x true 0) s).bind (fun ab s =>
    (if k.g.ns < x.c.toNat + 3 then .ok none s else readTable k idx s).bind (fun ent s =>
      let src := ab.1
      let dst := ab.2
      match ent with
      | none => (checkOpr k false s).bind (fun _ s => .ok () s)
      | some en =>
        (checkOpr k (src.ok && dst.ok && decide (k.g.ns ≥ x.c.toNat + 3) && decide (1 ≤ e) && decide (e ≤ 2 ^ 20) &&
            decide (a ≤ 6) && en.modes / 2 ^ mode % 2 == 1 && src.elems.fmt == x.ty.code.toNat &&
            dst.elems.fmt == x.ty.code.toNat && src.limitsOk zero && dst.limitsOk zero && src.count == 2 ^ a * e &&
            (kind != 1 || e % en.ndev == 0) && dst.count == destCount kind en.ndev e a) s).bind (fun _ s =>
          (checkInside src zero s).bind (fun _ s =>
            (checkInside dst zero s).bind (fun _ s =>
              (readIndices k s.nextId dst zero s).bind (fun d s =>
                let places := d.1.map sink
                let c : Coll :=
                  { session := en.session, k := collIndex s (s.groupCtx k.g) entry en.session, kind := kind, mode := mode, op := Fields.collOp x,
                    ty := x.ty, rm := x.rm, ndev := en.ndev, rank := en.rank, e := e, a := a, ports := en.ports, step := 0,
                    acc := [], localDone := false, sent := false, reduced := false, params := [], peersDone := [], inbox := [],
                    dst := places, remote := [], remoteDone := [] }
                let c := { c with remote := placeBytes (collRemote c places) }
                let o := { engineOp k s .coll x [src, dst] with
                  composed := dst.2.isSome, fmtS := src.elems.fmt, fmtD := dst.elems.fmt, coll := some c,
                  moves := joinMoves (sourcePlaces src zero) (List.replicate src.count .drop) 32 32, fault := d.2 }
                let o := { o.plain with writes := memSectors (collOwn c places),
                                        resv := distinct ((memSectors places).map (fun v => v / 4)) }
                unlessUses k (withPlan src zero o) (fun s => (startEngine k (withPlan src zero o) s).bind (fun _ s =>
                  .ok () (startExchange o.id c (c.partners.foldl (fun s r => sendTo c c.header r s) (countColl (s.groupCtx k.g) entry en.session s))))) s))))))

/-- COLL acts once when E is not empty; that of a split made of helpers alone has no effect (R298). DEDUCED (log 44, 50). -/
def execColl (x : Ext) (s : State) : Host.Outcome State Fault Refusal :=
  runInstr (.coll x) x.guard (fun k s => if k.e = 0 || k.sp.mask &&& ~~~k.g.helpers = 0 then advance k s else endTry k s (collIssue x k s)) s

/-- A port goes down: every collective that uses it ends with PF (R256). -/
def portDown (port : Nat) (s : State) : State :=
  (s.engines.filter (fun o => (o.coll.map (fun c => c.uses port)).getD false)).foldl (fun s o => abortColl o.id s)
    { s with portsDown := addNew port s.portsDown }

/-- PARNAR_PORT_DOWN (R256). -/
def execParnarPortDown (port : Nat) (s : State) : Host.Outcome State Fault Refusal := .next (portDown port s)

/-! ## Remote writes (R141, R252) -/

/-- A sector of an unfinished collective of a context that peers write (R256). -/
def fulfils (cn v : Nat) (o : EngineOp) : Bool :=
  o.ctx == cn && !o.finished && ((o.coll.map (fun c => c.remote.any (fun a => a / 32 == v))).getD false)

/-- Some operation reserves a line, other than a collective whose sector the write fulfils. -/
def reservedFor (s : State) (cn v : Nat) (key : LineKey) : Bool :=
  s.engines.any (fun o => !o.finished && (o.dstKeys s).contains key && !fulfils cn v o)

/-- Bytes of a collective's destination that a peer has written; a line's reservation ends with its last byte. -/
def noteRemote (va n : Nat) (o : EngineOp) : EngineOp :=
  match o.coll with
  | none => o
  | some c =>
    let c := { c with remoteDone := c.remoteDone ++ c.remote.filter (fun a =>
      decide (va ≤ a) && decide (a + 4 ≤ va + n) && !c.remoteDone.contains a) }
    let left (w : Nat) : Bool := (o.writes.contains w && !o.writesDone.contains w) || c.remoteLeft w
    { o with coll := some c, resv := o.resv.filter (fun l => (List.range 4).any (fun j => left (4 * l + j))) }

/-- A die on which a context's translations are made for a port. -/
def ctxDie (s : State) (cn : Nat) : Nat := ((s.ctx? cn).bind (fun c => c.bind.head?)).getD 0

/-- The drain of a remote write that waits at its home begins (R157). -/
def remoteWaits (port cn : Nat) (va : DWord) (s : State) : State :=
  match xlate s (ctxDie s cn) .second cn va .w with
  | .ok .hbm pa => openDrain (.agent (.parnar port)) (.parnar port) pa true s
  | _ => s

/-- A remote write that translates and is permitted; whether the port is bound to the target context is not asked, as R252 names
no such check. DESIGN CHOICE (log 97). The answer is none while it waits on a drain, a reservation or the host's copy. -/
def remoteWrite (port cn : Nat) (va : DWord) (bytes : List Byte) (s : State) : Option State :=
  let v := va.toNat / 32
  let done (s : State) : State :=
    { s with engines := s.engines.map (fun o => if fulfils cn v o then noteRemote va.toNat bytes.length o else o) }
  match xlate s (ctxDie s cn) .second cn va .w with
  | .ok sp pa =>
    if (spanKeys s cn sp pa bytes.length).any (reservedFor s cn v) || (sp == .hbm && hostHolds s pa) ||
        (sp == .window && streamHolds s cn pa bytes.length) then none
    else
      let put (s : State) : State := (bytes.zipIdx).foldl (fun s b => spacePut s cn 0 sp (pa + b.2) b.1) s
      match sp with
      | .hbm => (claimNow s (.parnar port) pa true).map (fun s => done (wakeEvents pa bytes.length (s.memPutBytes pa bytes)))
      | .window => some (done (wakeWindow s cn pa bytes.length (put s)))
      | _ => some (done (put s))
  | _ => none

/-- What the target answers to a remote write (R141, R252). -/
inductive RemoteAnswer where
  /-- performed, with the state after; or waiting at the home -/
  | done (s : State)
  | waits
  /-- refused on a miss -/
  | refused
  /-- turned away for good: the page or the window admits no write -/
  | denied

/-- The spec gives a remote write without permission no effect and no answer: it is dropped. DESIGN CHOICE (log 91). -/
def remoteAnswer (port cn : Nat) (va : DWord) (bytes : List Byte) (s : State) : RemoteAnswer :=
  match xlate s (ctxDie s cn) .second cn va .w with
  | .prot => .denied
  | .ok .window pa =>
    if (List.range bytes.length).all (fun j => winAllowed s cn (pa + j) true) then
      ((remoteWrite port cn va bytes s).map RemoteAnswer.done).getD .waits
    else .denied
  | .ok _ _ => ((remoteWrite port cn va bytes s).map RemoteAnswer.done).getD .waits
  | _ => .refused

/-- The cycle from which an access refused now is sent again: h × 256 ns later (R141). -/
def retryDue (s : State) : Nat := s.now + hintCycles (Config.retryHint s.now).toNat

/-- A remote write that is not performed yet: it waits at its home, or its initiator sends it again. -/
def keepRemote (port ctx : Nat) (va : DWord) (bytes : List Byte) (refusals due : Nat) (s : State) : State :=
  { s with retries := s.retries ++ [{ port := port, ctx := ctx, va := va, bytes := bytes, refusals := refusals, due := due }] }

/-- REMOTE_WRITE: a peer's write of bytes of one sector is performed, or refused on a miss and kept for a retry (R141,
R252). DEDUCED (log 49). -/
def execRemoteWrite (port ctx : Nat) (va : DWord) (bytes : List Byte) (s : State) :
    Host.Outcome State Fault Refusal :=
  .next (
    if bytes = [] ∨ 32 < va.toNat % 32 + bytes.length ∨ s.portsDown.contains port then s
    else
      let s := s.countFlit (.port port) true
      match remoteAnswer port ctx va bytes s with
      | .done t => t
      | .denied => s
      | .waits => remoteWaits port ctx va (keepRemote port ctx va bytes 0 0 s)
      | .refused => keepRemote port ctx va bytes 1 (retryDue s) s)

/-- REMOTE_RETRY: the initiator sends a refused write again once its hint's time is over; after 64 refusals its operation
has ended (R141). DEDUCED (log 49). -/
def execRemoteRetry (port ctx : Nat) (va : DWord) (bytes : List Byte) (refusals : Nat) (s : State) :
    Host.Outcome State Fault Refusal :=
  .next (
    match s.retries.find? (fun r => r.port == port && r.ctx == ctx && r.va == va && r.bytes == bytes &&
        r.refusals == refusals) with
    | none => s
    | some r =>
      let drop (s : State) : State := { s with retries := s.retries.erase r }
      if s.now < r.due then s
      else
        match remoteAnswer port ctx va bytes s with
        | .done t => drop t
        | .waits => remoteWaits port ctx va s
        | .denied => drop s
        | .refused =>
          if 64 ≤ refusals + 1 then drop s
          else
            { s with retries := s.retries.map (fun q =>
              if q = r then { q with refusals := refusals + 1, due := retryDue s } else q) })

end Sys2Proof.Machine
end

