-- ==== Sys2Proof/Machine/EngineRun.lean ====
section
/-! DEFINITION. What engine operations do after their issue: sector reads and writes, completion, faults, and the birth
of handlers (R38, R129, R130, R140, R160 to R163, R178, R181 to R193). -/

namespace Sys2Proof.Machine

open Sys2Proof Sys2Proof.Num

/-! ## The walk-ahead TLB (R137) -/

/-- The pages that an operation has still to touch, up to 64 of each transfer, in the order of its boxes. -/
def EngineOp.aheadPages (s : State) (o : EngineOp) : List Nat :=
  let pages (vs : List Nat) : List Nat := (vs.filterMap (fun v =>
    ((s.ctx? o.ctx).bind (fun c => mapFind c.maps (32 * v))).map (fun m => m.page (32 * v)))).eraseDups
  (pages (o.reads.filter (fun v => !o.readsDone.contains v && v != tileCode))).take 64 ++
    (pages (o.writes.filter (fun v => !o.writesDone.contains v))).take 64

/-- The walk-ahead TLB of an operation's core walks the next of those pages that it does not hold, through the second level
and the walker. -/
def walkAhead (op : Nat) (s : State) : State :=
  match (s.engine? op).bind (fun o => (s.group? o.group).map (fun g => (o, g))) with
  | none => s
  | some (o, g) =>
    if o.finished then s
    else
      match (o.aheadPages s).find? (fun va => s.tlb.all (fun t => t.part != g.engineTlb || !t.covers g.die o.ctx va)) with
      | none => s
      | some va => tlbUse g.die g.engineTlb o.ctx va (tlbWalk g.die o.ctx va s)

/-! ## Elements -/

/-- w bits at a bit offset of a byte table. -/
def tabBits (t : Tab Byte) (bit w : Nat) : Nat :=
  let n := (bit % 8 + w + 7) / 8
  natLE ((List.range n).map (fun k => t.get 0 (bit / 8 + k))) / 2 ^ (bit % 8) % 2 ^ w

/-- The bits of a source place in what an operation has read. -/
def EngineOp.sourceBits (o : EngineOp) (p : Place) (w : Nat) : Nat :=
  match p with
  | .mem b => tabBits o.buf b w
  | .spad b | .tile b => tabBits o.sbuf b w
  | .side b => tabBits o.sbuf (65536 + b) w
  | .fill v => v % 2 ^ w
  | .drop => 0

/-- The element of a format code (R173). -/
def fmtTy (fmt : Nat) : Ty := (Ty.ofCode (BitVec.ofNat 4 fmt)).getD .u32

/-- A float format holds every value of another (R181). -/
def widens (src dst : Fmt) : Bool := decide (src.ew ≤ dst.ew) && decide (src.fw ≤ dst.fw)

/-- One converted element of a CPY g2g (R181). -/
def convertElem (fs fd : Nat) (rm : Rm) (clamp : Word) (v : Nat) : Nat × FlagBits :=
  if fs = fd then (v, 0)
  else
    let a := ofTy (fmtTy fs)
    let b := ofTy (fmtTy fd)
    let x := dec a v
    let r := if widens a b then Num.round b rm x else narrowSat b rm (dec f32 clamp.toNat) x
    (r.1, r.2 ||| sigInv [x])

/-- The element that a move writes. -/
def EngineOp.moveValue (o : EngineOp) (m : Move) : Nat × FlagBits :=
  convertElem o.fmtS o.fmtD o.rm o.clamp (o.sourceBits m.src m.ws)

/-- Bits of a number replaced. -/
def setBits (old off w v : Nat) : Nat := old - old / 2 ^ off % 2 ^ w * 2 ^ off + v % 2 ^ w * 2 ^ off

/-- The number that n bits from a base hold after the moves whose destinations `at_` places there, in stream order. A
converted element that is clipped at its destination has no such place and raises no flag, which R181 leaves open.
DESIGN CHOICE (log 82). -/
def patchBits (o : EngineOp) (at_ : Place → Option Nat) (base n old : Nat) : Nat × FlagBits :=
  o.moves.foldl (fun acc m =>
    match at_ m.dst with
    | none => acc
    | some b =>
      if base ≤ b ∧ b + m.wd ≤ base + n then
        let v := o.moveValue m
        (setBits acc.1 (b - base) m.wd v.1, acc.2 ||| v.2)
      else acc) (old, 0)

/-! ## Sector reads (R146, R160, R162) -/

/-- The composed stream of a plan whose indices have been read: a fault outside the tensor, or the moves, the bursts
and the further source sectors (R178, R189). DEDUCED (log 43). -/
def resolvePlan (o : EngineOp) : EngineOp :=
  match o.plan with
  | none => o
  | some pl =>
    let ks := (pl.p.stream pl.orgP).map (fun e => indexOf pl.p (o.sourceBits (pl.p.source e) 32))
    let es := ks.flatMap (slab pl.q pl.orgQ)
    match outsideOf pl.q es with
    | some a => { o with plan := none, fault := some (.prot, a) }
    | none =>
      let src := es.map pl.q.source
      let o : EngineOp := { o with plan := none }
      let o : EngineOp := match o.kind with
        | .ldh _ _ _ => { o with bursts := burstsOf pl.q (RecPair.rowLen (pl.p, some pl.q)) es }
        | .tld _ => { o with moves := tldMoves pl.q es }
        | _ => { o with moves := List.zipWith (fun (m : Move) p => { m with src := p }) o.moves src }
      let more := match o.kind with
        | .ldh _ _ _ => memSectors (o.bursts.flatMap (fun (b : Burst) => b.bits))
        | _ => memSectors (o.moves.map (fun (m : Move) => m.src))
      { o with reads := o.reads ++ more.filter (fun v => !o.reads.contains v) }

/-- Every source has been read. -/
def EngineOp.readAll (o : EngineOp) : Bool :=
  o.plan.isNone && o.reads.all (fun v => o.readsDone.contains v) && o.sreads.all (fun v => o.sreadsDone.contains v)

/-- What follows the read of a sector: the indices of a plan, or a collective's local partial. -/
def afterRead (id : Nat) (s : State) : State :=
  let s := s.modEngine id (fun o =>
    if o.plan.isSome && o.reads.all (fun v => o.readsDone.contains v) then resolvePlan o else o)
  match s.engine? id with
  | none => s
  | some o =>
    match o.coll with
    | none => s
    | some c =>
      if o.readAll && o.fault.isNone && !c.localDone then
        collLocal id (o.moves.map (fun m => BitVec.ofNat 32 (o.sourceBits m.src 32))) s
      else s

/-- The tile's bytes and sideband, read by a TSTR once every earlier entry that writes the tile has completed (R370).
DEDUCED (log 46). -/
def readTile (o : EngineOp) (t : Nat) (s : State) : State :=
  let busy := s.matq.any (fun m => m.group == o.group && decide (m.id < o.id) && (matTilesOut m.ins).contains t) ||
    s.engines.any (fun p => p.group == o.group && decide (p.id < o.id) && !p.finished && p.kind == .tld t)
  match s.group? o.group with
  | none => s
  | some g =>
    if busy then s
    else
      let bytes := (List.range 8192).map (fun b => (b, wordByte (g.tileWord t (b / 4)) (b % 4))) ++
        (List.range 512).map (fun b => (8192 + b, wordByte (g.scaleWord t (b / 4)) (b % 4)))
      s.modEngine o.id (fun o => { o with sbuf := Tab.putAll 0 o.sbuf bytes, readsDone := o.readsDone ++ [tileCode] })

/-- A scratchpad sector read: the line's tag checked, an empty line waited for (R129, R130, R160). DEDUCED (log 46). -/
def readSpad (o : EngineOp) (v : Nat) (s : State) : State :=
  let line := v / 4
  if !o.sreads.contains v || o.sreadsDone.contains v || reservedByOther s o.id (.scratch, o.block, line) then s
  else if s.lineFull o.block line then
    if s.lineTag o.block line = o.swz then s.modEngine o.id (engineReadSector s o.block v) else s
  else if o.emptySince.any (fun e => e.1 == line) then s
  else s.modEngine o.id (fun o => { o with emptySince := o.emptySince ++ [(line, s.now)] })

/-- Every byte of a window sector may be accessed by the context (R58, R59). DEDUCED (log 47). -/
def windowSector (s : State) (cn pa : Nat) (write : Bool) : Bool :=
  (List.range 32).all (fun j => winAllowed s cn (pa + j) write)

/-- A memory sector read. DEDUCED (log 47). -/
def readMem (o : EngineOp) (v : Nat) (s : State) : State :=
  if !o.reads.contains v || o.readsDone.contains v then s
  else
    let keep (bs : List Byte) (s : State) : State :=
      s.modEngine o.id (fun o =>
        { o with buf := Tab.putAll 0 o.buf (bs.zipIdx.map (fun x => (32 * v + x.2, x.1))), readsDone := o.readsDone ++ [v] })
    match o.place s v .r with
    | .ok .hbm pa =>
      if reservedByOther s o.id (.hbm, 0, pa / 128) then s
      else
        match claimNow s (.engine o.id) pa false with
        | some s => keep (s.memBytes pa 32) s
        | none => s
    | .ok .host pa =>
      if reservedByOther s o.id (.host, 0, pa / 128) then s else keep ((List.range 32).map (fun j => s.hostGet (pa + j))) s
    | .ok .window pa =>
      if windowSector s o.ctx pa false && !(windowKeys s o.ctx pa 32).any (reservedByOther s o.id) then keep ((List.range 32).map (fun j => winGet s o.ctx (pa + j))) s else s
    | _ => s

/-- ENGINE_SECTOR_READ: one source sector, a scratchpad sector (2^59 and its number) or a stored tile (2^60).
DEDUCED (log 46). -/
def execEngineSectorRead (op sector : Nat) (s : State) : Host.Outcome State Fault Refusal :=
  .next (match s.engine? op with
    | none => s
    | some o =>
      if !engineLive s o || o.fault.isSome then s
      else if sector = tileCode then
        (match o.kind with
         | .tstr t => if o.readsDone.contains tileCode then s else readTile o t s
         | _ => s)
      else if spadBase ≤ sector then afterRead op (readSpad o (sector - spadBase) s)
      else afterRead op (readMem o sector s))

/-! ## Sector writes (R161, R181, R182) -/

/-- A memory sector is written; the reservation of its line ends with the line's last sector. DEDUCED (log 47). -/
def writeMem (o : EngineOp) (v : Nat) (s : State) : State :=
  if !o.writes.contains v || o.writesDone.contains v || !o.runReady atMem (256 * v) 256 then s
  else
    let finish (fl : FlagBits) (s : State) : State :=
      s.modEngine o.id (fun o =>
        let done := o.writesDone ++ [v]
        let left (w : Nat) : Bool := (o.writes.contains w && !done.contains w) ||
          ((o.coll.map (fun c => c.remoteLeft w)).getD false)
        { o with writesDone := done, flags := o.flags ||| fl,
                 resv := o.resv.filter (fun l => l != v / 4 || (List.range 4).any (fun j => left (4 * l + j))) })
    match o.place s v .w with
    | .ok .hbm pa =>
      if reservedByOther s o.id (.hbm, 0, pa / 128) || hostHolds s pa || !o.sourceFree s (.hbm, 0, pa / 32) then s
      else
        match claimNow s (.engine o.id) pa true with
        | none => s
        | some s =>
          let r := patchBits o atMem (256 * v) 256 (natLE (s.memBytes pa 32))
          finish r.2 (wakeEvents pa 32 (s.memPutBytes pa (bytesLE 32 r.1)))
    | .ok .host pa =>
      if reservedByOther s o.id (.host, 0, pa / 128) || !o.sourceFree s (.host, 0, pa / 32) then s
      else
        let r := patchBits o atMem (256 * v) 256 (natLE ((List.range 32).map (fun j => s.hostGet (pa + j))))
        finish r.2 ((bytesLE 32 r.1).zipIdx.foldl (fun s b => s.hostPut o.ctx (pa + b.2) b.1) s)
    | .ok .window pa =>
      if !windowSector s o.ctx pa true || (windowKeys s o.ctx pa 32).any (reservedByOther s o.id) ||
          streamHolds s o.ctx pa 32 || !o.sourceFree s (sectorKey s o.ctx .window pa) then s
      else
        let r := patchBits o atMem (256 * v) 256 (natLE ((List.range 32).map (fun j => winGet s o.ctx (pa + j))))
        finish r.2 (wakeWindow s o.ctx pa 32 ((bytesLE 32 r.1).zipIdx.foldl (fun s b => winPut s o.ctx (pa + b.2) b.1) s))
    | _ => s

/-- A scratchpad sector is written; the line's last sector marks it full with the record's swizzle code (R128).
DEDUCED (log 46). -/
def writeSpad (o : EngineOp) (v : Nat) (s : State) : State :=
  if !o.swrites.contains v || o.swritesDone.contains v || !o.runReady atSpad (256 * v) 256 ||
      !o.sourceFree s (.scratch, o.block, v) then s
  else
    let line := v / 4
    let old := natLE ((List.range 32).map (fun j => s.spadGet o.block (32 * v + j)))
    let r := patchBits o atSpad (256 * v) 256 old
    let before := s
    let s := (bytesLE 32 r.1).zipIdx.foldl (fun s b => s.spadPut o.block (32 * v + b.2) b.1) s
    let whole := (List.range 4).all (fun j => 4 * line + j = v || o.swritesDone.contains (4 * line + j))
    let s := s.modEngine o.id (fun o =>
      { o with swritesDone := o.swritesDone ++ [v], sresv := if whole then o.sresv.filter (fun l => l != line) else o.sresv })
    if whole then wakeIfFilled before o.block line (s.lineSet o.block line true o.swz) else s

/-- ENGINE_SECTOR_WRITE: one destination sector; scratchpad sectors count from 2^59. DEDUCED (log 46). -/
def execEngineSectorWrite (op sector : Nat) (s : State) : Host.Outcome State Fault Refusal :=
  .next (match s.engine? op with
    | none => s
    | some o =>
      if !engineLive s o || !o.writable then s
      else if spadBase ≤ sector then writeSpad o (sector - spadBase) s
      else writeMem o sector s)

/-! ## The end of an operation (R184, R185) -/

/-- The operations of a class that end in issue order: each finished one that no unfinished one of its class and group
precedes. -/
def sweepOps (gi : Nat) (cl : Ctr) : List EngineOp → List EngineOp × Nat
  | [] => ([], 0)
  | o :: rest =>
    if o.group = gi ∧ o.kind.ctr = cl then
      if o.finished then let (r, n) := sweepOps gi cl rest; (r, n + 1) else (o :: rest, 0)
    else let (r, n) := sweepOps gi cl rest; (o :: r, n)

def sweepEngines (gi : Nat) (s : State) : State :=
  let (l1, nc) := sweepOps gi .c s.engines
  let (l2, nt) := sweepOps gi .t l1
  { s with engines := l2 }.modGroup gi (fun g => { g with cntC := g.cntC - nc, cntT := g.cntT - nt })

/-- The group is a handler of a request. -/
def handles (s : State) (op gi : Nat) : Bool := (s.group? gi).any (fun g => g.handler.any (fun h => h.op == op))

/-- Every burst of a request has been born and has ended, and every operation of its handlers has been performed, those
of handlers that stopped included (R163). -/
def EngineOp.handled (s : State) (o : EngineOp) : Bool :=
  o.bursts.all (fun b => b.born && b.ended) && s.acc.all (fun a => a.done || !handles s o.id a.group) &&
    s.orbitOps.all (fun p => !handles s o.id p.group) &&
    s.engines.all (fun p => p.finished || !handles s o.id p.group)

/-- The 128 bytes of the event line (R192). -/
def eventBytes (o : EngineOp) (tag : Word) : List Byte :=
  let bad := o.bursts.filter (fun b => b.fault.isSome)
  let first := bad.foldl (fun (m : Option Burst) b => match m with
    | none => some b
    | some c => if b.seq < c.seq then some b else some c) none
  bytesLE 4 o.bursts.length ++ bytesLE 4 ((o.bursts.map (fun b => b.valid)).sum) ++
    bytesLE 4 ((first.bind (fun b => b.fault.map (fun f => causeCode f.1))).getD 0) ++
    bytesLE 4 ((first.map (fun b => b.seq)).getD 0xFFFFFFFF) ++ bytesLE 4 bad.length ++ bytesLE 4 tag.toNat ++
    List.replicate 104 0#8

/-- The fault that the issuing group receives for a request: that of the lowest faulting sequence number (R190).
DEDUCED (log 75). -/
def EngineOp.handlerFault (o : EngineOp) : Option (Cause × DWord) :=
  ((o.bursts.filter (fun b => b.fault.isSome)).foldl (fun (m : Option Burst) b => match m with
    | none => some b
    | some c => if b.seq < c.seq then some b else some c) none).bind (fun b => b.fault)

/-- The event line's four sector writes, its state, and the waiters that it wakes (R192). DEDUCED (log 48). -/
def writeEvent (o : EngineOp) (line : Nat) (tag : Word) (s : State) : State :=
  let before := s
  let s := (eventBytes o tag).zipIdx.foldl (fun s b => s.spadPut o.block (128 * line + b.2) b.1) s
  let s := s.modEngine o.id (fun o => { o with sresv := [], swritesDone := [line] })
  wakeIfFilled before o.block line (s.lineSet o.block line true o.swz)

/-- A pending fault of an operation. -/
def pendingOf (o : EngineOp) (c : Cause) (aux : DWord) (lines : List Nat) : PendingFault :=
  { cause := c, aux := aux, classC := o.kind.ctr == .c, op := o.id, mmag := none,
    tile := match o.kind with
      | .tld t => some t
      | _ => none,
    lines := lines,
    from_ := some { o with fault := some (c, aux), resv := [], sresv := [], buf := [], sbuf := [] } }

/-- The operation has ended: flags into the group, reservations gone, counters in issue order (R112, R161, R185). -/
def endEngine (o : EngineOp) (faults : List PendingFault) (s : State) : State :=
  let s := s.modEngine o.id (fun o => { o with finished := true, resv := [], sresv := [], buf := [], sbuf := [] })
  sweepEngines o.group (s.modGroup o.group (fun g =>
    { g with flags := g.flags ||| o.flags, faults := g.faults ++ faults }))

/-- TLD's rows and scale bytes (R183). DEDUCED (log 46). -/
def writeTile (o : EngineOp) (t : Nat) (g : Group) : Group :=
  let rows := o.moves.foldr (fun m acc => match m.dst with
    | .tile _ => (o.moveValue m).1 % 2 ^ m.wd + 2 ^ m.wd * acc
    | _ => acc) 0
  let word (w : Nat) : Word := BitVec.ofNat 32 (rows / 2 ^ (32 * w))
  let side (w : Nat) : Word := BitVec.ofNat 32 (patchBits o atSide (32 * w) 32 0).1
  { g with tile := Tab.putAll 0 g.tile ((List.range 2048).map (fun w => (t * 2048 + w, word w))),
           scale := Tab.putAll 0 g.scale ((List.range 128).map (fun w => (t * 128 + w, side w))) }

/-- Earlier work on the tile of a TLD: a queued entry that reads it and has not begun or that writes it, an unread TSTR, or
another TLD (R183, R278, R369, R370). -/
def tldHeld (s : State) (o : EngineOp) (t : Nat) : Bool :=
  s.matq.any (fun m => m.group == o.group && decide (m.id < o.id) &&
    ((m.out.isNone && (matTilesIn m.ins).contains t) || (matTilesOut m.ins).contains t)) ||
  s.engines.any (fun p => p.group == o.group && decide (p.id < o.id) && !p.finished &&
    (p.kind == .tld t || (p.kind == .tstr t && !p.readsDone.contains tileCode)))

/-- ENGINE_COMPLETION: an operation whose work is done ends; a composed stream without an index to read is formed first
(R163, R178, R184, R192). -/
def completeEngine (id : Nat) (s : State) : State :=
  match s.engine? id with
  | none => s
  | some o =>
    if !engineLive s o || o.fault.isSome then s
    else if o.plan.isSome then (if o.reads.all (fun v => o.readsDone.contains v) then afterRead id s else s)
    else
      let written := o.writes.all (fun v => o.writesDone.contains v) && o.swrites.all (fun v => o.swritesDone.contains v)
      match o.kind with
      | .cpy | .tstr _ => if written && o.readAll then endEngine o [] s else s
      | .tld t =>
        if o.readAll && !tldHeld s o t then endEngine o [] (s.modGroup o.group (writeTile o t)) else s
      | .ldh line tag _ =>
        if o.readAll && o.handled s then
          let s := if o.swritesDone = [] then writeEvent o line tag s else s
          endEngine o ((o.handlerFault.map (fun f => pendingOf o f.1 f.2 [])).toList) s
        else s
      | .coll =>
        if collDone o then endEngine o [] s else s

def execEngineCompletion (op : Nat) (s : State) : Host.Outcome State Fault Refusal := .next (completeEngine op s)

/-! ## Faults (R140, R187) -/

/-- The fault that an operation has met: one found in its stream or by its peers, a scratchpad line with another tag or
empty for too long, or a sector whose translation fails. DEDUCED (log 47). -/
def engineFaultOf (s : State) (o : EngineOp) : Option (Cause × DWord) :=
  let off (l : Nat) : DWord := BitVec.ofNat 64 (128 * l)
  let lim := emptyLimit s o.group
  let sector (need : Need) (v : Nat) : Option (Cause × DWord) :=
    match o.place s v need with
    | .prot => some (.prot, BitVec.ofNat 64 (32 * v))
    | .pf => some (.pf, BitVec.ofNat 64 (32 * v))
    | .ok .window pa => if windowSector s o.ctx pa (need == .w) then none else some (.prot, BitVec.ofNat 64 (32 * v))
    | _ => none
  match o.fault with
  | some f => some f
  | none =>
    match o.sreads.find? (fun v =>
        !o.sreadsDone.contains v && s.lineFull o.block (v / 4) && s.lineTag o.block (v / 4) != o.swz) with
    | some v => some (.swz, off (v / 4))
    | none =>
      match o.emptySince.find? (fun e => decide (e.2 + lim ≤ s.now)) with
      | some e => some (.emptyto, off e.1)
      | none =>
        match (o.reads.filter (fun v => !o.readsDone.contains v && v != tileCode)).findSome? (sector .r) with
        | some f => some f
        | none => (o.writes.filter (fun v => !o.writesDone.contains v)).findSome? (sector .w)

/-- ENGINE_FAULT: the operation ends; its fault waits for delivery to the issuing group, and its reservations are
released unwritten (R140, R161, R187). The spec does not say what becomes of the flags that the operation has raised: they
are discarded. Nor what becomes of running handlers of a request: they run on, and the event line stays empty.
DESIGN CHOICE (log 83). -/
def execEngineFault (op : Nat) (s : State) : Host.Outcome State Fault Refusal :=
  .next (match s.engine? op with
    | none => s
    | some o =>
      if !engineLive s o then s
      else
        match engineFaultOf s o with
        | none => s
        | some (c, aux) =>
          let f := pendingOf o c aux o.sresv
          deliverToUser o.group f (endEngine { o with flags := 0 } [f] s))

/-! ## Handlers (R38, R189) -/

/-- A handler slot of a block that holds no handler: the lowest number, as R38 says only "a free slot".
DESIGN CHOICE (log 84). -/
def freeHandlerSlot (s : State) (bi n : Nat) : Option Nat :=
  (List.range n).find? (fun h => s.groups.all (fun g =>
    g.block != bi || g.retired || (match g.handler with
      | some x => x.slot != h
      | none => true)))

/-- The core of a block on which handler slot h lies, and its quarter there (R38, R44). -/
def handlerQuarter (groups cores h : Nat) : Nat :=
  let j := h % cores
  let on := ((List.range groups).filter (fun gIdx => gIdx * cores / groups == j)).length
  (on + h / cores) % 4

/-- The 256 bytes of a burst: its elements, then the fill element repeated. -/
def burstBits (o : EngineOp) (b : Burst) : Nat :=
  (List.range (2048 / b.w)).foldr (fun i acc =>
    (match b.bits[i]? with
     | some p => o.sourceBits p b.w
     | none => b.fill) % 2 ^ b.w + 2 ^ b.w * acc) 0

/-- The handler group of a burst at its birth. -/
def handlerGroup (s : State) (o : EngineOp) (b : Burst) (slot : Nat) (tag : Word) (entry : DWord) (blk : Block) (d : Desc) :
    Group :=
  let n := (d.blkX * d.blkY * d.blkZ + 15) / 16
  let bits := b.kept.getD (burstBits o b)
  let vec := (List.range 4).flatMap (fun k => allLanes.map (fun L =>
    (k * 16 + L, BitVec.ofNat 32 (bits / 2 ^ (32 * (4 * L + k))))))
  let gid := ((s.group? o.group).map (fun g => g.groupId)).getD 0
  let uni : List (Nat × Word) := (b.coords.zipIdx.map (fun c => (c.2, BitVec.ofNat 32 c.1))) ++
    [(5, BitVec.ofNat 32 b.valid), (6, BitVec.ofNat 32 b.seq), (7, tag), (8, d.args.extractLsb' 0 32),
     (9, d.args.extractLsb' 32 32), (10, gid)]
  { block := o.block, idx := slot, handler := some { slot := slot, issuer := o.group, op := o.id, seq := b.seq }, die := blk.die,
    core := blk.cores.getD (slot % blk.cores.length) 0, quarter := handlerQuarter n blk.cores.length slot,
    place := blk.hplaces.getD slot .first,
    present := 0xFFFF, helpers := 0, ended := 0, retired := false, nv := 8 * d.hvregs, ns := 16, nt := 0, na := 0,
    vec := Tab.putAll 0 [] vec, uni := Tab.putAll 0 [] uni, pred := [], tile := [], scale := [], acc := [], carry := [],
    affine := 0, flags := 0, arm := 0, inflight := [], stream := none, cntL := 0, cntS := 0, cntC := 0, cntT := 0,
    splits := [Split.fresh 0 entry 0xFFFF], rets := List.replicate 16 [], faults := [] }

/-- The first burst that may be born: every sector of its elements has been read, now or for an earlier birth (R163, R193).
DEDUCED (log 48). -/
def nextBurst (o : EngineOp) : Option Burst :=
  o.bursts.find? (fun b => !b.born && (b.kept.isSome || b.bits.all (fun p => match p with
    | .mem bit => o.readsDone.contains (bit / 256)
    | _ => true)))

/-- HANDLER_BIRTH: a burst is born as a handler group in a free slot of its block. DEDUCED (log 48). -/
def execHandlerBirth (op : Nat) (s : State) : Host.Outcome State Fault Refusal :=
  .next (match s.engine? op with
    | none => s
    | some o =>
      match o.kind, nextBurst o, s.block? o.block with
      | .ldh _ tag entry, some b, some blk =>
        match s.launch? blk.launch with
        | none => s
        | some l =>
          if !engineLive s o || o.fault.isSome || o.plan.isSome ||
              (!o.awaited s && ((s.ctx? o.ctx).any (fun c => c.stopping && !c.saveComplete) || blk.stopped)) then s
          else
            match freeHandlerSlot s o.block l.desc.hslots with
            | none => s
            | some slot =>
              let s : State := { s with groups := s.groups ++ [handlerGroup s o b slot tag entry blk l.desc] }
              s.modEngine op (fun o =>
                { o with bursts := o.bursts.map (fun c => if c.seq = b.seq then { c with born := true, kept := some (b.kept.getD (burstBits o b)) } else c) })
      | _, _, _ => s)

/-- The end of a handler: its flags enter the issuing group's, its burst has ended and its slot is free; after the last
handler the event line is written (R190, R192, R318). DEDUCED (log 48). -/
def endHandler (gi : Nat) (h : HandlerId) (s : State) : State :=
  match s.group? gi with
  | none => s
  | some g =>
    let fl := g.mergeAll.flags
    let s := s.modGroup gi Group.retire
    let s := s.modGroup h.issuer (fun g => { g with flags := g.flags ||| fl })
    let s := s.modEngine h.op (fun o =>
      { o with bursts := o.bursts.map (fun b => if b.seq = h.seq then { b with ended := true } else b) })
    match s.engine? h.op with
    | none => s
    | some o =>
      match o.kind with
      | .ldh line tag _ => if o.readAll && o.handled s && o.fault.isNone then writeEvent o line tag s else s
      | _ => s

/-- HEND (R191, R318). -/
def execHend (s : State) : Host.Outcome State Fault Refusal :=
  runInstr .hend ⟨false, 15⟩ (fun k s =>
    match k.g.handler with
    | none => trapAt k .hnd 0 k.e s
    | some h =>
      if k.g.cntL != 0 || k.g.cntS != 0 || k.g.cntC != 0 then
        s.modSplit k.gi k.si (fun p => { p with wait := .retire, age := 0, reserved := false })
      else
        match k.g.faults.head? with
        | some f => stopHandler h k.gi f.cause f.aux s
        | none =>
          let s := s.modGroup k.gi (fun g => g.endLanes k.e)
          if ((s.group? k.gi).map (fun g => g.splits == [])).getD false then endHandler k.gi h s else s) s

end Sys2Proof.Machine
end

