-- ==== Sys2Proof/Machine/Sched.lean ====
section
/-! DEFINITION. The schedule of splits: fetch of the next instruction, readiness, merges, joins, live places, the timeouts
and the services that end a split's wait (R25, R27, R28, R31, R34 to R37, R49, R71, R81, R130, R138 to R140, R157, R263). -/

namespace Sys2Proof.Machine

open Sys2Proof

/-! ## Fetch (R71, R81) -/

/-- What the fetch at a program counter finds: an instruction with its size, a fault, or a page that a service must
map. -/
inductive Fetched where
  | instr (i : Instr) (size : Nat)
  | trap (c : Cause) (aux : DWord)
  | park (va : DWord)
deriving DecidableEq, Repr

/-- The words behind word 0, as far as they go. -/
def fetchRest (s : State) (g : Group) (pc : DWord) : List Nat → List Word → Except Fetched (List Word)
  | [], acc => .ok acc
  | i :: rest, acc =>
    let va := pc + BitVec.ofNat 64 (4 * i)
    match fetchWord s g va .x with
    | .word w => fetchRest s g pc rest (acc ++ [w])
    | .prot => .error (.trap .prot va)
    | .pf => .error (.trap .pf va)
    | .replay => .error (.park va)

/-- An instruction whose words leave .text is BRT at its address (R71). -/
def inTextRun (s : State) (g : Group) (pc : DWord) (n : Nat) : Bool :=
  ((s.groupCtx? g).map (fun c => c.textHolds pc.toNat n)).getD false

/-- The instruction at a program counter: its words fetched, then decoded; a word that decodes to none is ILL (R80). A
program counter outside .text is BRT, whatever the page there would give (R71). -/
def fetchInstr (s : State) (g : Group) (pc : DWord) : Fetched :=
  if !inTextRun s g pc 4 then .trap .brt pc
  else
    match fetchWord s g pc .x with
    | .prot => .trap .prot pc
    | .pf => .trap .pf pc
    | .replay => .park pc
    | .word w0 =>
      let n := wordCount (lenOf w0)
      if !inTextRun s g pc (4 * n) then .trap .brt pc
      else
        match fetchRest s g pc ((List.range n).drop 1) [w0] with
        | .error f => f
        | .ok ws =>
          match decode ws with
          | .ok (i, k) => .instr i (4 * k)
          | .error _ => .instr (.ill w0) 4

/-! ## Readiness (R25, R34, R35) -/

/-- The scoreboard file number of a register file. -/
def fileCode : RegFile → Nat
  | .vec => 0 | .uni => 1 | .pred => 2 | .tile => 3 | .acc => 4

/-- No register or predicate of the instruction is held (R35). -/
def holdsClear (p : Split) (i : Instr) : Bool :=
  i.opnds.all (fun o => p.holds.all (fun h =>
    h.file != fileCode o.file || decide (h.first + h.count ≤ o.first) || decide (o.first + o.count ≤ h.first)))

/-- Some earlier access, or gathered read, of the lanes of a mask is not performed. -/
def lanesBusy (s : State) (gi : Nat) (m : LaneMask) : Bool :=
  s.acc.any (fun a => a.group == gi && a.lanes.any (fun l => l.stage != .done && (a.lanesOf l &&& m) != 0)) ||
  s.matq.any (fun q => q.group == gi && q.unread.any (fun x => m.getLsbD (x.1 / 4)))

/-- The counter that an instruction raises (R184). -/
def raises : Instr → Ctr
  | .ld _ | .lds _ | .ldx _ | .ldu _ | .atom _ | .atoms _ => .l
  | .st _ | .sts _ | .sfill _ | .sempty _ => .s
  | .cpy _ | .ldh _ | .coll _ => .c
  | .tld _ | .tstr _ => .t
  | _ => .uncounted

/-- Orbit and channel operations, each of which is an access that R155 counts. -/
def alwaysShared : Instr → Bool
  | .oadd _ | .oalight _ | .oboard _ | .ocap _ | .ocas _ | .omax _ | .omin _ | .oswp _ | .chpeek _ | .chrecv _
  | .chsend _ => true
  | _ => false

/-- An engine operation that installs reservations, which R155 counts as one access, with the index reads of a composed
destination (R161, R328). -/
def EngineOp.installs (o : EngineOp) : Bool := o.resv != [] || o.sresv != []

/-- Between two states a group has issued an access that R155 counts, anew or as a replay of parked lanes, while another
was outstanding: such an instruction does not issue yet. -/
def overShared (before after : State) (gi : Nat) : Bool :=
  let other (id : Nat) : Bool :=
    before.acc.any (fun b => b.id != id && b.group == gi && b.shared && !b.done) || before.orbitOps.any (fun o => o.group == gi)
  sharedOut before gi &&
    (after.acc.any (fun a => a.group == gi && a.shared && other a.id &&
      (match before.access? a.id with
       | none => true
       | some b => b.lanes != a.lanes && b.lanes.any (fun l => l.stage == .parked))) ||
      after.engines.any (fun o => decide (before.nextId ≤ o.id) && o.group == gi && o.installs))

/-- Between two states a group has issued an access to HBM behind one that is not sure to be performed: such an instruction does
not issue yet, so that no drain has to wait for an access which cannot come to its home (R263). DEDUCED (log 80). -/
def behindHeld (before after : State) (gi : Nat) : Bool :=
  after.acc.any (fun a => a.group == gi && a.lanes.any (fun l =>
    l.stage == .issued && l.space == .hbm && !(before.access? a.id).any (fun b => b.lanes.contains l) &&
      (gatherHolds after a l || !clearPath after (earlier after a).reverse a l)))

def isEngine : Instr → Bool
  | .cpy _ | .ldh _ | .coll _ | .tld _ | .tstr _ => true
  | _ => false

def isMatrix : Instr → Bool
  | .mma _ | .mmag _ | .mmat _ | .aexp _ | .amode _ | .ard _ | .awr _ | .mzero _ | .mcarry _ | .mscan _ | .tmov _ | .trd _
  | .twr _ => true
  | _ => false

/-- The instruction waits for the group's unfinished instructions: FLAGS, BAR, CBAR, EXIT (R113, R305, R313). -/
def waitsForGroup : Instr → Bool
  | .flags _ | .bar _ | .cbar _ | .exit _ => true
  | _ => false

/-- The resource that an instruction occupies under R34, and for how many cycles: the pipe, or the uniform unit. R34 classes an
address that is a vector, and a destination that is uniform: a store, SEMPTY, SFILL or PREF whose operands are all uniform goes to
the uniform unit. DEDUCED (log 63). DESIGN CHOICE (log 102). -/
def uniformClass : Instr → Bool
  | .bra g _ | .call g _ => g == ⟨false, 15⟩
  | .braJoin x => x.guard == ⟨false, 15⟩
  | .brdec x => x.guard == ⟨false, 15⟩ && x.dU
  | .brx x | .callx x => x.guard == ⟨false, 15⟩ && x.aU
  | .waitc _ _ _ _ _ | .bkpt _ _ | .exit _ | .hend | .nop _ | .yield _ => true
  | .st x | .sts x => x.dU && x.aU && (x.cU || !Fields.idx x)
  | .sempty x | .sfill x | .pref x => x.aU && (x.cU || !Fields.idx x)
  | .svc _ | .trap _ | .bar _ | .cbar _ | .evsig _ | .evwait _ | .cpy _ | .ldh _ | .coll _ | .tld _ | .tstr _ | .ldu _
  | .sleep _ | .flags _ | .swr _ | .unimp _ | .ill _ => true
  | i => match i.rule? with
    | some (x, _) => x.dU
    | none => false

/-- Keys of `busy`: a quarter's issue port, its uniform unit, and each pipe, holding the first free cycle. -/
def portKey (g : Group) : Nat := ((g.die * 20 + g.core) * 4 + g.quarter) * 32
def unitKey (g : Group) : Nat := portKey g + 1
def pipeKey (g : Group) : Nat := portKey g + 16 + g.place.k % 16

/-- The key of the bank that holds a quarter's uniform file (R61). -/
def uniBankKey (g : Group) : Nat := portKey g + 4

/-- The banks that an instruction's registers lie in: the vector bank of the group's pipe, the uniform bank of its quarter (R61). -/
def touchedBanks (g : Group) (i : Instr) : List Nat :=
  (if i.opnds.any (fun o => o.file == .vec) then [pipeKey g] else []) ++
    (if i.opnds.any (fun o => o.file == .uni) then [uniBankKey g] else [])

/-- The bank behind a window byte of the register file (R57, R61). -/
def bankAt (s : State) (cn pa : Nat) : List Nat :=
  match winPlace s cn pa with
  | .vec gi _ _ _ => ((s.group? gi).map pipeKey).toList
  | .uni gi _ _ => ((s.group? gi).map uniBankKey).toList
  | _ => []

/-- Accesses to banks: each is awake, and its 256 cycles begin anew (R61). -/
def touchBanks (ks : List Nat) (s : State) : State :=
  if ks = [] then s
  else { s with bankLast := ks.foldl (fun t k => t.put 0 k s.now) s.bankLast, drowsy := s.drowsy.filter (fun k => !ks.contains k) }

/-- The resource of an instruction; matrix instructions share the way to their core's queue. -/
def resourceKey (g : Group) (i : Instr) : Nat :=
  if isMatrix i then portKey g + 3 else if uniformClass i then unitKey g else pipeKey g

/-- Cycles that an instruction holds its resource beyond its issue (R34). -/
def resourceTime (i : Instr) : Nat := if isMatrix i then 0 else if uniformClass i then 1 else 16

/-- The key of a quarter's FP64 unit, and the instructions that occupy it (R108). -/
def fp64Key (g : Group) : Nat := portKey g + 2

def usesFp64 (i : Instr) : Bool :=
  match i.rule?, i.extOpcode with
  | some (x, _), some (maj, _) => x.ty == .f64 && (maj == 16 || maj == 17 || maj == 18)
  | _, _ => false

/-- The resources of an instruction with the cycles for which it holds each (R34, R108). DEDUCED (log 63). -/
def resources (g : Group) (i : Instr) : List (Nat × Nat) :=
  (resourceKey g i, resourceTime i) :: (if usesFp64 i then [(fp64Key g, 4)] else [])

/-- Another split has reserved the resource by its age (R36). -/
def reservedByElder (s : State) (gi : Nat) (g : Group) (p : Split) (key : Nat) : Bool :=
  s.groups.zipIdx.any (fun x =>
    let h := x.1
    decide (portKey h = portKey g) && h.splits.any (fun q =>
      q.reserved && q.run == .live && !(x.2 == gi && q.idx == p.idx) && decide (p.age < q.age) &&
      (match fetchInstr s h q.pc with
       | .instr i _ => (resources h i).any (fun r => r.1 == key)
       | _ => false)))

/-- A split's wait has ended by itself: the condition of WAITC, of an end of lanes, of a channel, or the page of a
replay, so that its instruction executes again. -/
def waitOver (s : State) (g : Group) (p : Split) : Bool :=
  match p.wait with
  | .none => true
  | .waitc t c st l => countersWithin g t c st l || g.faults.any (waitcCovers t c)
  | .retire => if g.handler.isSome then g.cntL == 0 && g.cntS == 0 && g.cntC == 0 else g.counted
  | .chanSend li ch =>
    match s.channel? li ch with
    | some c => decide (0 < c.credits) || blockDone s li c.cons
    | none => true
  | .chanRecv li ch =>
    match s.channel? li ch with
    | some c => decide (0 < c.count) || blockDone s li c.prod
    | none => true
  | .yield till => decide (till ≤ s.now)
  | _ => false

/-- The die's counter has passed the value at which the block last stopped (R368). -/
def Block.timePassed (s : State) (b : Block) : Bool := b.lastTime.all (fun v => decide (v.toNat < (s.timeOf b.die).toNat))

/-- The core on which an agent's lanes run. -/
def agentCore (s : State) (a : Agent) : Option (Nat × Nat) :=
  match a with
  | .core d k => some (d, k)
  | .handler gi => (s.group? gi).map (fun g => (g.die, g.core))
  | _ => none

/-- A context maps a granule of HBM. -/
def ctxMaps (s : State) (cn n : Nat) : Bool :=
  (s.ctx? cn).any (fun c => c.maps.any (fun m => m.space == .hbm && decide (m.target ≤ 4096 * n) &&
    decide (4096 * n < m.target + m.pages * m.psize)))

/-- A group stands still: parked for emulation, retired, its block stopped or not yet resumed, or its core reached by the
request of a drain of a granule of its context (R84, R157, R368). -/
def groupHeld (s : State) (_gi : Nat) (g : Group) : Bool :=
  g.retired || ((s.block? g.block).map (fun b => (b.stopped && !awaitedHandler s g) || b.complete || !b.timePassed s)).getD true ||
  g.splits.any (fun p => match p.wait with
    | .emulation _ => true
    | _ => false) ||
  s.granules.any (fun d => match d.drain with
    | some x => x.asked.any (fun a => agentCore s a == some (g.die, g.core)) && ctxMaps s (s.groupCtx g) d.num
    | none => false)

/-- The key of a core in `matUsed`. -/
def coreKey (die core : Nat) : Nat := die * 20 + core

/-- A core's matrix queue has no entry left that was free at the start of the cycle (R34). -/
def queueFull (s : State) (die core : Nat) : Bool :=
  decide (4 ≤ max (s.matUsed.get 0 (coreKey die core)) (coreQueue s die core).length)

/-- What an instruction must wait for beside its registers to be ready: a counter below 63, a free entry of the matrix queue
behind every entry of the group that a stop has cancelled, and the completions of R113 (R34, R113, R210). -/
def hazardFree (s : State) (gi : Nat) (g : Group) (p : Split) (i : Instr) : Bool :=
  holdsClear p i &&
  (raises i == .uncounted || decide (g.ctr (raises i) < 63)) &&
  !(isMatrix i && (queueFull s g.die g.core || s.matq.any (fun m => m.group == gi && m.cancelled))) &&
  !(waitsForGroup i && (g.inflight != [] || g.stream.any (fun st => st.kind == .lanes) || s.matq.any (fun m => m.group == gi))) &&
  !((match i with
    | .clk x | .time x => x.dU
    | _ => false) && g.inflight.any (fun m => m.read.isSome))

/-- A split is ready (R35): live, its wait over, its registers clear and its resource free. DEDUCED (log 65). -/
def ready (s : State) (gi : Nat) (g : Group) (p : Split) : Bool :=
  p.run == .live && ctxRuns s g && !groupHeld s gi g && waitOver s g p &&
  (match fetchInstr s g p.pc with
   | .instr i _ => hazardFree s gi g p i && (resources g i).all (fun r => decide (s.busy.get 0 r.1 ≤ s.now))
   | _ => true)

/-- A ready split may still not issue: an elder split has reserved its resource (R36); its orbit or channel operation would be a
second access that R155 counts; or its engine, orbit, channel, barrier or service operation stands behind accesses of its lanes
that are not performed (R47, R147, R160). Such a split ages all the same. DEDUCED (log 65). -/
def heldOff (s : State) (gi : Nat) (g : Group) (p : Split) : Bool :=
  match fetchInstr s g p.pc with
  | .instr i _ =>
    (resources g i).any (fun r => reservedByElder s gi g p r.1) || (alwaysShared i && sharedOut s gi) ||
      ((isEngine i || alwaysShared i || (match i with
        | .bar _ | .cbar _ | .svc _ => true
        | _ => false)) && lanesBusy s gi p.mask)
  | _ => false

/-! ## Joins and merges (R27, R28) -/

/-- The innermost join record. -/
def Split.inner (p : Split) : Option Join := p.joins.getLast?

/-- A split stands at the address of its innermost join record. -/
def Split.atJoin (p : Split) : Bool := (p.inner.map (fun j => j.addr == p.pc)).getD false

/-- A split at the address of its innermost join record starts to wait there; one that stands aside by YIELD has waited since it
came there (R28, R37). -/
def enterJoin (now : Nat) (p : Split) : Split :=
  if p.run != .trapped && p.pend == 0 && p.atJoin then
    match p.wait with
    | .none => { p with wait := .join, since := now }
    | .yield till => if till ≤ now then { p with wait := .join } else p
    | _ => p
  else p

/-- A split waits at its join point, the 16 cycles of a YIELD apart. -/
def Split.joining (p : Split) : Bool :=
  p.run != .trapped && (p.wait == .join || (match p.wait with
    | .yield _ => p.pend == 0 && p.atJoin
    | _ => false))

/-- The split of the lower index absorbs another: masks and scoreboards unite, shared join records stay (R27). R27 is
silent on the rest: the merged split takes the greater age, either reservation and the longer stall, and a YIELD wait
only from the lower index. DESIGN CHOICE (log 78). -/
def Split.absorb (p q : Split) : Split :=
  { p with mask := p.mask ||| q.mask, holds := p.holds ++ q.holds, run := if p.run == .live || q.run == .live then .live else .dormant,
           order := min p.order q.order, joins := p.joins.filter (fun j => q.joins.any (fun k => k.id == j.id)),
           age := max p.age q.age, reserved := p.reserved || q.reserved, stall := max p.stall q.stall,
           wait := if p.wait == .retire then .none else p.wait }

/-- The splits that have arrived at a join point merge, those of one call depth with each other: a RET behind the join pops each
split's own return address, whether or not they arrived together (R27, R28, R31). DEDUCED (log 78). -/
def mergeDepths (ps : List Split) : List Split :=
  ps.foldl (fun ms p => if ms.any (fun m => m.depth == p.depth) then ms.map (fun m => if m.depth = p.depth then m.absorb p else m)
    else ms ++ [p]) []

/-- A split goes on with a join record popped; a YIELD that it executed keeps it aside for its 16 cycles. -/
def Split.pass (j : Join) (p : Split) : Split :=
  { p with wait := if p.wait == .join then .none else p.wait, joins := p.joins.filter (fun k => k.id != j.id) }

/-- One join record whose lanes have all arrived: the arrived splits merge and go on with the record popped. -/
def completeJoin (g : Group) (j : Join) : Group :=
  let here := g.splits.filter (fun p => p.joining && (p.inner.map (fun k => k.id == j.id)).getD false)
  let got := here.foldl (fun m p => m ||| p.mask) g.ended
  if here ≠ [] ∧ j.lanes &&& ~~~got = 0 then
    let merged := mergeDepths here
    { g with splits := g.splits.filterMap (fun q =>
        if here.any (fun p => p.idx == q.idx) then (merged.find? (fun m => m.idx == q.idx)).map (Split.pass j) else some q) }
  else g

def completeJoins (g : Group) : Group :=
  (g.splits.filterMap (fun p => if p.joining then p.inner else none)).foldl completeJoin g

/-- A split may merge with another at the same place (R27): it stands at an instruction boundary, which a split at an
EXIT or HEND that waits for its counters does, as the instruction has had no effect yet. -/
def Split.mergeable (p : Split) : Bool :=
  p.run != .trapped && p.pend == 0 && !p.joining && (match p.wait with
    | .none | .yield _ | .retire => true
    | _ => false)

/-- One merge of the first pair that stands at one program counter and depth. -/
def mergeOnce (g : Group) : Group :=
  match g.splits.findSome? (fun p => (g.splits.find? (fun q => decide (p.idx < q.idx) && p.mergeable && q.mergeable &&
      p.pc == q.pc && p.depth == q.depth)).map (fun q => (p, q))) with
  | none => g
  | some (p, q) =>
    { g with splits := g.splits.filterMap (fun r =>
        if r.idx = p.idx then some (p.absorb q) else if r.idx = q.idx then none else some r) }

/-- Every split that stands at its innermost join address waits there. -/
def enterJoins (now : Nat) (g : Group) : Group := { g with splits := g.splits.map (enterJoin now) }

/-- Joins are entered and completed, and equal splits merge, once. A split whose inner record has been popped at the address
of the next one waits again before any merge. -/
def settleOnce (now : Nat) (g : Group) : Group := mergeOnce (enterJoins now (completeJoins (enterJoins now g)))

/-- The same until nothing changes; each change pops a join record, merges two splits or starts a wait, so `n` of 160
suffices for 16 splits with 8 records. -/
def settleLoop (now : Nat) : Nat → Group → Group
  | 0, g => g
  | n + 1, g =>
    let t := settleOnce now g
    if t.splits = g.splits then g else settleLoop now n t

/-- The instruction boundary of a group (R27, R28). -/
def settleGroup (now : Nat) (g : Group) : Group :=
  if g.splits.length ≤ 1 && g.splits.all (fun p => p.joins == []) then g else settleLoop now 160 g

def settle (s : State) : State := { s with groups := s.groups.map (settleGroup s.now) }

/-- JOIN_TIMEOUT: after 1,024 cycles a split proceeds alone and its record is dissolved for every sibling (R28). A group that stands
still under a stop waits at no join (R51). -/
def execJoinTimeout (gi si : Nat) (s : State) : Host.Outcome State Fault Refusal :=
  .next (match ((s.group? gi).filter (fun g => mayTrap s gi && onCores s g.block)).bind (fun g => g.split? si) with
    | none => s
    | some p =>
      match p.inner with
      | none => s
      | some j =>
        if p.wait == .join && decide (p.since + 1024 ≤ s.now) then
          s.modGroup gi (fun g => { g with splits := g.splits.map (fun q =>
            let r := { q with joins := q.joins.filter (fun k => k.id != j.id) }
            if (q.idx == si || (q.wait == .join && (q.inner.map (fun k => k.id == j.id)).getD false)) then
              { r with wait := .none }
            else r) })
        else s)

/-! ## Live places (R25) -/

/-- An access has a lane that waits on an empty line (R130). -/
def onEmptyLine (s : State) (id : Nat) : Bool :=
  (s.access? id).any (fun a => a.lanes.any (fun l => l.stage == .waitingEmpty))

/-- A split waits on memory in the sense of R25, its stall apart. -/
def waitsOnMemory (s : State) (p : Split) : Bool :=
  match p.wait with
  | .join | .bar _ | .cbar _ | .evwait _ _ _ _ | .orbit _ | .chanSend _ _ | .chanRecv _ _ => true
  | .access id => onEmptyLine s id
  | _ => false

/-- A scoreboard entry waits on an outstanding load, or on a matrix-queue entry that writes vector registers (R25). -/
def Hold.onMemory (s : State) (h : Hold) : Bool :=
  s.acc.any (fun a => a.id == h.op) || (h.file == 0 && s.matq.any (fun m => m.id == h.op))

/-- A split stands at an instruction whose registers such an entry holds. -/
def memoryHeld (s : State) (g : Group) (p : Split) : Bool :=
  p.wait == .none &&
  (match fetchInstr s g p.pc with
   | .instr i _ => !holdsClear { p with holds := p.holds.filter (Hold.onMemory s) } i
   | _ => false)

/-- It has stood there for more than 32 cycles. -/
def stalledLong (s : State) (g : Group) (p : Split) : Bool := decide (32 < p.stall) && memoryHeld s g p

/-- SPLIT_DORMANT: a live split that waits on memory gives up its live place (R25). -/
def execSplitDormant (gi si : Nat) (s : State) : Host.Outcome State Fault Refusal :=
  .next (match s.group? gi with
    | none => s
    | some g =>
      match g.split? si with
      | none => s
      | some p =>
        if p.run == .live && ((waitsOnMemory s p && !waitOver s g p) || stalledLong s g p) then
          s.modSplit gi si (fun p => { p with run := .dormant, order := nextOrder g.splits })
        else s)

/-- A dormant split may be made live again: it has stopped waiting. -/
def wakeable (s : State) (g : Group) (p : Split) : Bool :=
  p.run == .dormant && (match p.wait with
    | .none => !stalledLong s g p
    | .access id => !onEmptyLine s id
    | .chanSend _ _ | .chanRecv _ _ => waitOver s g p
    | .waitc _ _ _ _ | .retire | .yield _ | .sleep _ _ | .replay _ | .emulation _ | .service _ _ => true
    | _ => false)

/-- SPLIT_ACTIVATE: the oldest dormant split that may run takes a free live place (R25). -/
def execSplitActivate (gi : Nat) (s : State) : Host.Outcome State Fault Refusal :=
  .next (match s.group? gi with
    | none => s
    | some g =>
      if 4 ≤ liveCount g.splits then s
      else
        let ps := g.splits.filter (wakeable s g)
        match ps.foldl (fun (m : Option Split) p => match m with
          | none => some p
          | some q => if p.order < q.order then some p else some q) none with
        | none => s
        | some p => s.modSplit gi p.idx (fun p => { p with run := .live }))

/-- WAIT_AGE_RESERVATION: an age of 256 reserves the resource of the split's next instruction (R36). -/
def execWaitAgeReservation (gi si : Nat) (s : State) : Host.Outcome State Fault Refusal :=
  .next (s.modSplit gi si (fun p => if 256 ≤ p.age then { p with reserved := true } else p))

/-- YIELD_EXPIRY: the 16 cycles of a YIELD are over (R37). -/
def execYieldExpiry (gi si : Nat) (s : State) : Host.Outcome State Fault Refusal :=
  .next (s.modSplit gi si (fun p => match p.wait with
    | .yield till => if till ≤ s.now then { p with wait := .none } else p
    | _ => p))

/-- SLEEP_WAKE: the die's counter has reached the instant (R258, R363). -/
def execSleepWake (gi si : Nat) (s : State) : Host.Outcome State Fault Refusal :=
  .next (match s.group? gi with
    | none => s
    | some g => s.modSplit gi si (fun p => match p.wait with
      | .sleep instant next => if instant.toNat ≤ (s.timeOf g.die).toNat then p.goto next else p
      | _ => p))

/-! ## Barrier watchdog (R49) -/

/-- The splits that wait at a barrier, in ascending core, quarter, group slot and split (R231). -/
def barrierWaiters (s : State) (bi id : Nat) : List (Nat × Nat) :=
  let span := barrierSpan s bi id
  let all := (s.groups.zipIdx).flatMap (fun x =>
    if span.contains x.1.block then
      (x.1.splits.filter (waitsAt id)).map (fun p => (((x.1.die * 20 + x.1.core) * 4 + x.1.quarter) * 64 + x.1.place.k, x.2, p.idx))
    else [])
  (all.mergeSort (fun a b => decide (a.1 < b.1) || (a.1 == b.1 && decide (a.2.2 ≤ b.2.2)))).map (fun x => (x.2.1, x.2.2))

/-- The watchdog limit of a block's context. DESIGN CHOICE (log 30). DEDUCED (log 60). -/
def watchdogLimit (s : State) (bi : Nat) : Nat :=
  2 ^ ((((s.block? bi).bind (fun b => s.launch? b.launch)).bind (fun l => s.ctx? l.ctx)).map (fun c => c.wdexp)).getD 26

/-- BARRIER_WATCHDOG: the barrier is abandoned, and each split that waits there takes BARWD (R49); none does while a stop request
has reached one of them (R237). DEDUCED (log 60). -/
def execBarrierWatchdog (bi id : Nat) (s : State) : Host.Outcome State Fault Refusal :=
  .next (
    let count := ((s.block? (barrierKeeper s bi id)).map (fun b => b.barCount.get 0 id)).getD 0
    let ws := barrierWaiters s bi id
    if count ≤ watchdogLimit s bi ∨ ¬ ws.all (fun w => mayTrap s w.1) then s
    else
      let t := ws.foldl (fun s w =>
        match (s.group? w.1).bind (fun g => (g.split? w.2).map (fun p => (g, p))) with
        | some (g, p) => takeTrap w.1 w.2 .barwd (BitVec.ofNat 64 id) (p.mask &&& ~~~g.helpers) 0 s
        | none => s) s
      t.modBlock (barrierKeeper s bi id) (fun b => { b with barCount := b.barCount.put 0 id 0 }))

/-! ## Empty lines and pages (R130, R138 to R140) -/

/-- EMPTY_LINE_TIMEOUT: 2^EMPTYEXP cycles after its first empty line, the split takes EMPTYTO with its unfinished lanes
(R130). DEDUCED (log 32). -/
def execEmptyLineTimeout (acc : Nat) (s : State) : Host.Outcome State Fault Refusal :=
  .next (match s.access? acc with
    | none => s
    | some a =>
      match a.waitFrom with
      | none => s
      | some t =>
        if a.done || decide (s.now < t + emptyLimit s a.group) || !mayTrap s a.group then s
        else
          let left := a.lanes.filter (fun l => l.stage != .done)
          let mask := maskOf (fun L => left.any (fun l => l.lane == L))
          let aux := lowest (left.map (fun l => BitVec.ofNat 64 (l.addr / 128 * 128)))
          takeTrap a.group a.split .emptyto aux mask mask (dropUnperformed acc s))

/-- The page that an engine operation of a group misses, oldest operation first (R140). -/
def engineMiss (s : State) (gi : Nat) : Option (EngineOp × DWord) :=
  s.engines.findSome? (fun o =>
    if o.group = gi ∧ o.finished = false then
      let miss (need : Need) (v : Nat) : Option (EngineOp × DWord) :=
        match o.place s v need with
        | .replay => some (o, BitVec.ofNat 64 (32 * v))
        | _ => none
      match (o.reads.filter (fun v => !o.readsDone.contains v && v != tileCode)).findSome? (miss .r) with
      | some r => some r
      | none => (o.writes.filter (fun v => !o.writesDone.contains v)).findSome? (miss .w)
    else none)

/-- The service maps the page of an address. DEDUCED (log 57). -/
def mapPage (cn va : Nat) (s : State) : State :=
  s.modCtx cn (fun c => match mapFind c.maps va with
    | some m => { c with resident := addNew (m.page va) c.resident }
    | none => c)

/-- A declined replay: PF with the unfinished lanes; where none has been performed with those of the instruction, and at a fetch
with the split's. -/
def declineReplay (gi si : Nat) (g : Group) (p : Split) (va : DWord) (s : State) : State :=
  let mask := (if p.pend = 0 then p.act else p.pend) &&& ~~~g.helpers
  takeTrap gi si .pf va mask mask (dropParkedAt gi si p.pc s)

/-- PAGE_FAULT_SERVICE: the service answers a replayable miss of a split, or with a split number of 16 that of the
group's engine operations (R138 to R140). DEDUCED (log 32, 57). -/
def execPageFaultService (gi si : Nat) (ans : PageAnswer) (s : State) : Host.Outcome State Fault Refusal :=
  .next (match s.group? gi with
    | none => s
    | some g =>
      if 16 ≤ si then
        match engineMiss s gi with
        | none => s
        | some (o, va) =>
          match ans with
          | .mapped => mapPage o.ctx va.toNat s
          | .declined => s.modEngine o.id (fun o => { o with fault := some (.pf, va) })
      else
        match g.split? si with
        | none => s
        | some p =>
          match p.wait with
          | .replay va =>
            (match ans with
             | .mapped => (mapPage (s.groupCtx g) va.toNat s).modSplit gi si (fun p => { p with wait := .none })
             | .declined => if mayTrap s gi then declineReplay gi si g p va s else s)
          | _ => s)

/-! ## Drains (R157) -/

/-- The access that waits for a drain of a granule: a lane that has gone to the home, an engine operation, or firmware. -/
def drainGoal (s : State) (n : Nat) : Option (Waiter × Agent × Bool) :=
  let needs (a : Agent) (w : Bool) : Bool := (nextClass (s.granule n).cls a w).2
  (s.acc.findSome? (fun a => a.lanes.findSome? (fun l =>
    if l.space = .hbm ∧ l.addr / 4096 = n ∧ needs (a.agent s) a.kind.writes ∧ arrived? s a l = true then
      some (Waiter.lane a.id l.lane, a.agent s, a.kind.writes)
    else none))).orElse (fun _ =>
  (s.engines.findSome? (fun o => (o.waits s n).bind (fun w =>
    if needs (.engine o.id) w then some (Waiter.agent (.engine o.id), Agent.engine o.id, w) else none))).orElse (fun _ =>
  (s.fwOut.head?.filter (fun f => f.touches s n)).bind (fun f =>
    if needs f.agent f.writes then some (Waiter.agent f.agent, f.agent, f.writes) else none)))

/-- DRAIN_REQUEST: the request reaches a holder, whose core's groups stop; when the holder has no access left at the
granule's home, its dirty lines go back and it acknowledges (R157 steps 1 to 3). DEDUCED (log 80). -/
def execDrainRequest (granule : Nat) (holder : Agent) (s : State) : Host.Outcome State Fault Refusal :=
  .next (
    let g := s.granule granule
    match (g.drain.orElse (fun _ => (drainGoal s granule).map (fun x =>
        { to_ := (nextClass g.cls x.2.1 x.2.2).1, by_ := some x, asked := [], stopped := [] }))) with
    | none => s
    | some d =>
      if !g.holders.contains holder then s.setGranule { g with drain := some d }
      else
        let d := { d with asked := addNew holder d.asked }
        if quiet s holder granule then
          drainHolders granule d.to_ [holder]
            (s.setGranule { g with drain := some { d with stopped := addNew holder d.stopped } })
        else s.setGranule { g with drain := some d })

/-- DRAIN_POINT: every holder has acknowledged, and the state flips as the triggering access asks; that access and the
others that the home holds come next (R157 steps 4 and 5). The drain of a command ends with the command (R158). -/
def execDrainPoint (granule : Nat) (s : State) : Host.Outcome State Fault Refusal :=
  .next (
    let g := s.granule granule
    match g.drain with
    | none => s
    | some d =>
      match d.by_ with
      | none => s
      | some (w, a, wr) =>
        if g.holders.all (fun h => d.stopped.contains h) then
          let c := nextClass g.cls a wr
          let to_ := if c.2 then c.1 else d.to_
          let s := drainHolders granule to_ g.holders s
          s.setGranule { g with cls := to_, holders := lineHolders s granule, drain := none,
                                held := w :: (arrivals s g).filter (fun x => x != w) }
        else s)

end Sys2Proof.Machine
end

