-- ==== Sys2Proof/Machine/Firmware.lean ====
section
/-! DEFINITION. What firmware and the command processors read and write in a context's memory: completion records, the
context control block, the save directory and trace records (R238, R240, R249, R250, R259). -/

namespace Sys2Proof.Machine

open Sys2Proof Sys2Proof.Num

/-! ## Accesses of firmware (R151, R249) -/

/-- Every byte of a range lies in pages of the context that satisfy a test; `n` bounds the walk over mappings. -/
def coversFrom (c : Ctx) (p : Mapping → Bool) : Nat → Nat → Nat → Bool
  | 0, _, _ => false
  | n + 1, va, stop =>
    if stop ≤ va then true
    else
      match mapFind c.maps va with
      | none => false
      | some m => p m && coversFrom c p n (m.va + m.pages * m.psize) stop

/-- A range of n bytes lies in pages of the context that satisfy a test. -/
def Ctx.covers (c : Ctx) (va n : Nat) (p : Mapping → Bool) : Bool := coversFrom c p (c.maps.length + 1) va (va + n)

/-- A byte of a context's memory as firmware reads it. -/
def fwByte (s : State) (cn va : Nat) : Byte :=
  match (s.ctx? cn).bind (fun c => mapFind c.maps va) with
  | none => 0
  | some m => spaceGet s cn 0 m.space (m.phys va)

def fwBytes (s : State) (cn va n : Nat) : List Byte := (List.range n).map (fun k => fwByte s cn (va + k))

/-- A run of n bytes within a line is read by an agent at its home; none while it waits there on a reservation or a drain (R151,
R157, R161). -/
def getLine (a : Agent) (cn : Nat) (sp : Space) (pa n : Nat) (s : State) : Option State :=
  if (spanKeys s cn sp pa n).any (reservedKey s) then none else if sp = .hbm then claimNow s a pa false else some s

/-- Bytes that firmware reads: a context, a virtual address and their number. -/
abbrev FwRun := Nat × Nat × Nat

/-- The parts of a run within one line each: context, place and number of bytes; unmapped bytes have none. -/
def FwRun.parts (s : State) (r : FwRun) : List (Nat × Space × Nat × Nat) :=
  (lineRuns r.2.1 r.2.2).filterMap (fun x =>
    (fwPlace s r.1 x.1).map (fun p => (r.1, p.1, p.2, lineRun x.1 (r.2.2 - x.2))))

/-- Such parts are read in order; none while one waits at its home. -/
def claimReads : List (Nat × Space × Nat × Nat) → State → Option State
  | [], s => some s
  | (cn, sp, pa, n) :: rest, s => (getLine .firmware cn sp pa n s).bind (claimReads rest)

/-- Firmware reads runs of contexts' memory: it does so after its earlier accesses, and every granule that it reads passes the
classifier (R151). The bytes are then `fwBytes`. DEDUCED (log 24). -/
def fwTouch (rs : List FwRun) (s : State) : Option State :=
  if s.fwOut != [] then none else claimReads (rs.flatMap (FwRun.parts s)) s

/-- Firmware's work that begins with reads. Where one of them waits at a home, they are among its outstanding accesses, for which
drains open and lines are recalled, and the work comes again behind them (R157, R161). DEDUCED (log 24). -/
def fwRead (rs : List FwRun) (body : State → State) (s : State) : State :=
  match fwTouch rs s with
  | some t => body t
  | none => if s.fwOut = [] then rs.foldl (fun s r => s.post (.load r.1 r.2.1 r.2.2)) s else s

/-- One run of bytes within a line is stored by an agent at its home; none while it waits there on a reservation, a drain or
the host's copy (R151, R161, R166). Window storage that admits no store takes nothing. DEDUCED (log 24). -/
def putLine (a : Agent) (cn : Nat) (sp : Space) (pa : Nat) (bs : List Byte) (s : State) : Option State :=
  let put (s : State) : State := (bs.zipIdx).foldl (fun s b => spacePut s cn 0 sp (pa + b.2) b.1) s
  if (spanKeys s cn sp pa bs.length).any (reservedKey s) then none
  else
    match sp with
    | .hbm =>
      if hostHolds s pa then none
      else (claimNow s a pa true).map (fun s => wakeEvents pa bs.length (s.memPutBytes pa bs))
    | .window => if streamHolds s cn pa bs.length then none else some (wakeWindow s cn pa bs.length (put s))
    | _ => some (put s)

/-- Firmware stores one run of bytes within a line; an unmapped address takes nothing. -/
def fwPut (a : Agent) (cn va : Nat) (bs : List Byte) (s : State) : Option State :=
  match fwPlace s cn va with
  | none => some s
  | some (sp, pa) => putLine a cn sp pa bs s

/-- Firmware reads one run of n bytes within a line; an unmapped address has nothing. -/
def fwGet (cn va n : Nat) (s : State) : Option State :=
  match fwPlace s cn va with
  | none => some s
  | some (sp, pa) => getLine .firmware cn sp pa n s

/-- The event word of a raise: one atomic addition, with the waits that it ends (R43, R303, R304). -/
def fwRaise (cn va : Nat) (v : DWord) (s : State) : Option State :=
  fwPut .firmware cn va (bytesLE 8 (natLE (fwBytes s cn va 8) + v.toNat)) s

/-- MSI-X vectors (R245). -/
def msixVectors : Nat := 2048

/-- A vector is raised, if the MSI-X table has it. The spec numbers no vector: a ring's is its function's number, a trap queue's
its context's, in one space. DESIGN CHOICE (log 98). -/
def State.raiseVector (s : State) (v : Nat) : State := if v < msixVectors then { s with msix := s.msix ++ [v] } else s

/-- Firmware's outstanding accesses are performed in order as far as they can be; each turn of the loop ends one line's run
or one entry, so `n` bounds their number. -/
def flushFwN : Nat → State → State
  | 0, s => s
  | n + 1, s =>
    match s.fwOut with
    | [] => s
    | f :: rest =>
      let next (s : State) (fs : List FwAccess) : State := flushFwN n { s with fwOut := fs }
      match f with
      | .vector v => next (s.raiseVector v) rest
      | .completion c => next ({ s with completions := s.completions ++ [c] }.raiseVector c.fn) rest
      | .raise cn va v =>
        (match fwRaise cn va v s with
         | some t => next t rest
         | none => s)
      | .load cn va m =>
        let k := lineRun va m
        (match fwGet cn va k s with
         | some t => next t (if m ≤ k then rest else .load cn (va + k) (m - k) :: rest)
         | none => s)
      | .store a cn va bs =>
        let k := lineRun va bs.length
        (match fwPut a cn va (bs.take k) s with
         | some t => next t (if bs.length ≤ k then rest else .store a cn (va + k) (bs.drop k) :: rest)
         | none => s)

/-- The pieces that firmware has still to perform. -/
def FwAccess.pieces : FwAccess → Nat
  | .store _ _ _ bs => bs.length / 128 + 2
  | .load _ _ n => n / 128 + 2
  | _ => 1

def flushFw (s : State) : State := if s.fwOut = [] then s else flushFwN ((s.fwOut.map FwAccess.pieces).sum) s

/-- An event word is raised by a value: an addition that firmware has in hand (R43). -/
def raiseEvent (cn va : Nat) (v : DWord) (s : State) : State := s.post (.raise cn va v)

/-! ## The end of a launch (R250) -/

/-- What the record of a faulting completion write holds (R231, R250). -/
def doneFault (c : Cause) (l : Launch) : TrapRec := splitlessRecord c l.descVa l.desc.done

/-- The page of DONE at the end of a launch: unmapped is PF, without W it is PROT. -/
def doneCheck (s : State) (l : Launch) : Option Cause :=
  match (s.ctx? l.ctx).bind (fun c => mapFind c.maps l.desc.done.toNat) with
  | none => some .pf
  | some m => if m.r && m.w && !m.window then none else some .prot

/-- STATUS and REASON, then +1 to DONE; a write that faults appends a record instead. -/
def signalDone (l : Launch) (status reason : Nat) (s : State) : State :=
  match doneCheck s l with
  | some c => appendRecord l.ctx (doneFault c l) s
  | none =>
    let va := l.desc.done.toNat
    raiseEvent l.ctx va 1 (fwStore l.ctx (va + 8) (bytesLE 4 status ++ bytesLE 4 reason) s)

/-- A launch ends: its phase, and its completion record. -/
def endLaunch (li : Nat) (ph : Phase) (s : State) : State :=
  match s.launch? li with
  | none => s
  | some l =>
    let s := s.modLaunch li (fun l => { l with phase := ph })
    match ph with
    | .refused r => signalDone l 1 r s
    | .killed => signalDone l 2 0 s
    | _ => signalDone l 0 0 s

/-! ## The control block and the save directory (R238, R240) -/

/-- STATE of the control block. -/
def CtxState.code : CtxState → Nat
  | .ready => 1 | .running => 2 | .saved => 3 | .killed => 4

/-- Bytes 0 to 151 of the control block. DESIGN CHOICE (log 18). -/
def Ctx.block (c : Ctx) : List Byte :=
  bytesLE 4 c.num ++ bytesLE 1 c.state.code ++ bytesLE 1 ((c.reason.map causeCode).getD 0) ++ bytesLE 2 c.part ++
  (List.range 16).map (fun v => BitVec.ofNat 8 (c.bind.getD v 0xFF)) ++ bytesLE 8 c.savePool.toNat ++
  bytesLE 8 c.trapq.toNat ++ bytesLE 4 c.head ++ bytesLE 4 c.tail ++ bytesLE 1 c.wdexp ++
  bytesLE 1 (if c.debug then 1 else 0) ++ List.replicate 6 0#8 ++ bytesLE 8 c.savePool.toNat ++
  (List.range 8).flatMap (fun t => bytesLE 2 (c.quota.getD t 0)) ++
  (List.range 16).flatMap (fun k => bytesLE 4 (((c.svclog.getD k none)).getD 0xFFFFFFFF)) ++ bytesLE 8 c.poolSize

/-- The 64 host queue states of 32 bytes (bytes 2,048 to 4,095). DESIGN CHOICE (log 18). -/
def Ctx.queueBytes (c : Ctx) : List Byte :=
  (List.range 64).flatMap (fun q =>
    let x := c.queues.getD q { prio := 0, ring := 0, waiting := [] }
    bytesLE 32 (Config.queueState x.prio x.ring x.waiting))

/-- The blocks of a context that have started and not completed. -/
def State.ctxBlocks (s : State) (cn : Nat) : List (Nat × Block) :=
  (s.blocks.zipIdx.map (fun x => (x.2, x.1))).filter (fun x =>
    !x.2.complete && ((s.launch? x.2.launch).map (fun l => l.ctx == cn)).getD false)

/-- The save directory's bytes. DESIGN CHOICE (log 18). -/
def saveDir (s : State) (cn : Nat) : List Byte :=
  let bs := s.ctxBlocks cn
  bytesLE 8 bs.length ++ bs.flatMap (fun b =>
    bytesLE 4 (((s.launch? b.2.launch).map (fun l => l.id.toNat)).getD 0) ++ bytesLE 4 b.2.lin ++
      bytesLE 8 b.2.saveArea.toNat)

/-- A virtual address of a context lies where it lay in a state before. -/
def samePlace (before s : State) (cn va : Nat) : Bool := fwPlace before cn va == fwPlace s cn va

/-- Firmware writes what has changed in the control blocks and save directories since a state, and all of one whose page has
just been mapped. DESIGN CHOICE (log 18). -/
def syncBlocks (before s : State) : State :=
  s.ctxs.foldl (fun s c =>
    let old := before.ctx? c.num
    let here := samePlace before s c.num c.ccb.toNat
    let s := if old.map Ctx.block = some c.block && here then s else fwStore c.num c.ccb.toNat c.block s
    let s := if old.map (fun o => o.queues) = some c.queues && here then s
      else fwStore c.num (c.ccb.toNat + 2048) c.queueBytes s
    if saveDir before c.num = saveDir s c.num && old.isSome && samePlace before s c.num c.savePool.toNat then s
    else fwStore c.num c.savePool.toNat (saveDir s c.num) s) s

/-! ## Commands (R249) -/

/-- The common part of a command (R249). -/
def instrCmd : Instr → Option Cmd
  | .queueSetup c _ _ _ | .submit c _ _ _ | .eventSignal c _ _ | .map c _ | .unmap c _ | .reclassify c _ | .logApply c _
  | .ctxCreate c _ _ _ _ _ _ _ _ | .ctxDestroy c | .ctxSave c | .ctxRestore c _ _ _ | .ctxKill c | .splitResume c _ _ _ _
  | .orbitQuota c _ | .portBind c _ | .trapqAck c _ | .partCreate c _ _ | .partDestroy c _ | .powerCap c _
  | .icacheInval c _ _ | .emuInstall c _ _ _ | .traceSetup c _ _ _ _ | .ptpSetup c _ _ _ | .timeStatus c | .attest c _
  | .lifecycle c _ _ => some c
  | _ => none

/-- FLAGS and bytes 12 to 15 are zero. -/
def plainCmd (c : Cmd) : Bool := c.flags == 0 && c.pad == 0

/-- The command of a ring entry. -/
def ringCmd : RingEntry → Option Cmd
  | .known i => instrCmd i
  | .unknown c => some c

/-- The end of a command: firmware writes its completion record and then raises the ring's MSI-X vector, and the ring's next
command is at the head. The record of a command with CTX 0 goes to host memory, and one whose CTX names no context leaves none, as
its COMPL lies nowhere. DESIGN CHOICE (log 95). -/
def complete (c : Cmd) (status : Nat) (value : DWord) (s : State) : State :=
  let s := fwStore c.ctx c.compl.toNat (bytesLE 4 c.seq.toNat ++ bytesLE 4 status ++ bytesLE 8 value.toNat) s
  let s := s.post (.completion { fn := c.fn, seq := c.seq, status := status, value := value })
  let es := s.taken.get [] c.fn
  if (es.head?.bind ringCmd) = some c then { s with taken := s.taken.put [] c.fn (es.drop 1) } else s

/-- A command of a context: undefined FLAGS bits set are an invalid argument, and so are bytes 12 to 15 that are not zero
and a context that does not exist. -/
def onCtx (c : Cmd) (flagsOk : Bool) (body : Ctx → State → State) (s : State) : Host.Outcome State Fault Refusal :=
  .next (
    if !flagsOk || c.pad != 0 then complete c 1 0 s
    else
      match s.ctx? c.ctx with
      | none => complete c 1 0 s
      | some x => body x s)

/-! ## Trace records (R259) -/

/-- One event for a trace: its die, kind, core, context, ID and DATA. -/
structure TraceEv where
  die : Nat
  kind : Nat
  core : Nat
  ctx : Nat
  id : Nat
  data : Nat

/-- The engine that writes the trace records of a die: its number is that of no operation (R259). DESIGN CHOICE (log 35). -/
def traceAgent (die : Nat) : Agent := .engine (2 ^ 64 + die)

/-- A record written as an engine's sector at the next ring position, or dropped and counted when the ring is full. The spec gives
the kind mask no layout: bit k of its 32 bits admits records of KIND k. DESIGN CHOICE (log 35, 106). -/
def writeTrace (e : TraceEv) (s : State) : State :=
  match s.traces.find? (fun t => t.die == e.die && t.mask.getLsbD e.kind) with
  | none => s
  | some t =>
    let upd (f : Trace → Trace) (s : State) : State := { s with traces := s.traces.map (fun u => if u.die = e.die then f u else u) }
    if t.size < 32 * (t.pos + 1) then upd (fun t => { t with dropped := t.dropped + 1 }) s
    else
      upd (fun t => { t with pos := t.pos + 1 }) (s.post (.store (traceAgent e.die) t.ctx (t.ring.toNat + 32 * t.pos)
        (bytesLE 8 (s.timeOf e.die).toNat ++ bytesLE 1 e.kind ++ bytesLE 1 e.core ++ bytesLE 2 e.ctx ++ bytesLE 4 e.id ++
          bytesLE 16 e.data)))

/-- The events of launches between two states. -/
def traceLaunches (a b : State) : List TraceEv :=
  b.launches.zipIdx.filterMap (fun (x : Launch × Nat) =>
    let l := x.1
    let old : Phase := ((a.launch? x.2).map (fun l => l.phase)).getD .queued
    let ev (k : Nat) : Option TraceEv := some { die := ctxDie b l.ctx, kind := k, core := 0xFF, ctx := l.ctx, id := l.id.toNat, data := 0 }
    if old = l.phase then none
    else
      match l.phase with
      | .queued => none
      | .admitted => ev 1
      | _ => ev 2)

/-- The events of blocks between two states: a pre-emption when a block has left its cores or its context has been saved, a
migration when it stands elsewhere than where it last stood (R45). -/
def traceBlocks (a b : State) : List TraceEv :=
  b.blocks.zipIdx.flatMap (fun (x : Block × Nat) =>
    let n := x.1
    let cn := ((b.launch? n.launch).map (fun l => l.ctx)).getD 0
    let ev (k : Nat) : List TraceEv := [{ die := n.die, kind := k, core := n.cores.headD 0xFF, ctx := cn, id := n.lin, data := 0 }]
    match a.block? x.2 with
    | none => ev 3
    | some o =>
      let was := if o.cores = [] then o.lastCores else o.cores
      let saved (s : State) : Bool := (s.ctx? cn).any (fun c => c.state == .saved)
      (if n.complete && !o.complete then ev 4 else []) ++
        (if (n.cores = [] && o.cores ≠ []) || (n.cores ≠ [] && saved b && !saved a) then
          [{ die := o.die, kind := 8, core := o.cores.headD 0xFF, ctx := cn, id := n.lin, data := 0 }] else []) ++
        (if n.cores ≠ [] && (n.cores ≠ was || n.die ≠ o.die) then ev 9 else []))

/-- The bytes that an operation has moved: those of the destination elements that it has written, of a tile once all is read,
and of a handled read's bursts that have been born. -/
def EngineOp.moved (o : EngineOp) : Nat :=
  let written (m : Move) : Bool := match m.dst with
    | .mem b => o.writesDone.contains (b / 256)
    | .spad b => o.swritesDone.contains (b / 256)
    | .tile _ | .side _ => o.fault.isNone && o.reads.all (fun v => o.readsDone.contains v)
    | _ => false
  (((o.moves.filter written).map (fun m => m.wd)).sum +
    ((o.bursts.filter (fun b => b.born || b.ended)).map (fun b => b.w * b.bits.length)).sum) / 8

/-- The events of engine operations between two states: issue with the counter class (C 2, T 3), completion with the bytes
moved, which an operation that a kill ends has not, and steps of collectives. -/
def traceEngines (a b : State) : List TraceEv :=
  let ev (s : State) (o : EngineOp) (k data : Nat) : TraceEv :=
    { die := ((s.group? o.group).map (fun g => g.die)).getD 0, kind := k,
      core := ((s.group? o.group).map (fun g => g.core)).getD 0xFF, ctx := o.ctx, id := o.id, data := data }
  let cls (o : EngineOp) : Nat := if o.kind.ctr = .t then 3 else 2
  (b.engines.filter (fun o => decide (a.nextId ≤ o.id))).map (fun o => ev b o 5 (cls o)) ++
  (a.engines.filter (fun o => !o.finished && (b.engine? o.id).all (fun p => p.finished) &&
    (b.ctx? o.ctx).any (fun c => c.state != .killed))).map (fun o => ev a o 6 o.moved) ++
  b.engines.flatMap (fun o =>
    match o.coll, (a.engine? o.id).bind (fun p => p.coll) with
    | some c, some d => (List.range (c.step - d.step)).map (fun k => ev b o 10 (d.step + k))
    | _, _ => [])

/-- The group of a trap record. -/
def TrapRec.group? (s : State) (cn : Nat) (r : TrapRec) : Option Group :=
  s.groups.find? (fun g => g.groupId == r.group && s.groupCtx g == cn &&
    (s.block? g.block).any (fun b => BitVec.ofNat 32 b.lin == r.block))

/-- The traps between two states, with the cause code, on the die and core of the trapping split. -/
def traceTraps (a b : State) : List TraceEv :=
  b.ctxs.flatMap (fun c =>
    let same (q r : TrapRec) : Bool := { q with seq := r.seq, consumed := r.consumed } == r
    let old (r : TrapRec) : Bool := (a.ctx? c.num).any (fun o => o.traps.any (fun q => same q r))
    (c.traps.filter (fun r => !old r)).map (fun r =>
      let g := r.group? a c.num
      { die := (g.map (fun g => g.die)).getD (ctxDie b c.num), kind := 7, core := (g.map (fun g => g.core)).getD 0xFF,
        ctx := c.num, id := r.block.toNat, data := causeCode r.cause }))

/-- The throttle events between two states (R20). -/
def traceThrottles (a b : State) : List TraceEv :=
  (List.range 9).flatMap (fun d =>
    if a.perf.throttles.get 0 d < b.perf.throttles.get 0 d then
      [{ die := d, kind := 11, core := 0xFF, ctx := 0, id := 0, data := 0 }]
    else [])

/-- Trace records of everything that happened between two states. DESIGN CHOICE (log 35). -/
def traceStep (before s : State) : State :=
  if s.traces = [] then s
  else
    (traceLaunches before s ++ traceBlocks before s ++ traceEngines before s ++ traceTraps before s ++ traceThrottles before s).foldl
      (fun s e => writeTrace e s) s

end Sys2Proof.Machine
end

