-- ==== Sys2Proof/Machine/SaveArea.lean ====
section
/-! DEFINITION. The save area of a block: its size, its bytes and the state that a restore reads back (R62, R193, R210,
R238, R239). -/

namespace Sys2Proof.Machine

open Sys2Proof Sys2Proof.Num

/-! ## Extents of a launch (R22, R39, R225) -/

/-- Blocks of the grid. -/
def Desc.blocks (d : Desc) : Nat := d.gridX * d.gridY * d.gridZ

/-- Bytes of the channel buffers that a block consumes: 64 per slot, rounded up to 128 per channel. -/
def bufferBytes (chans : List Channel) (lin : Nat) : Nat :=
  ((chans.filter (fun c => c.cons == lin)).map Channel.bytes).sum

/-- Scratchpad lines of a block on each of its cores (R40). -/
def Desc.linesPerCore (d : Desc) (buffers : Nat) : Nat :=
  (d.scratch + buffers + 128 * d.cores - 1) / (128 * d.cores)

/-! ## Groups of a block -/

/-- The groups of a block by index, with none for those that have retired. -/
def State.groupOf (s : State) (bi i : Nat) : Option Group :=
  s.groups.find? (fun g => g.block == bi && g.idx == i && g.handler.isNone && !g.retired)
/-- The group whose registers the storage of a handler slot holds: the latest one there. -/
def State.slotStore (s : State) (bi h : Nat) : Option Group :=
  s.groups.reverse.find? (fun g => g.block == bi && g.handler.any (fun x => x.slot == h))
/-- The handler that runs in a slot. -/
def State.handlerAt (s : State) (bi h : Nat) : Option Group :=
  s.groups.find? (fun g => g.block == bi && !g.retired && (match g.handler with
    | some x => x.slot == h
    | none => false))

/-! ## Section bytes -/

def wordsLE (ws : List Word) : List Byte := ws.flatMap (fun w => bytesLE 4 w.toNat)

/-- A byte list cut or filled with zeros to n bytes. -/
def padTo (n : Nat) (bs : List Byte) : List Byte := (List.range n).map (fun k => bs.getD k 0)

def vecSection (nv : Nat) (g : Group) : List Byte :=
  wordsLE ((List.range nv).flatMap (fun k => allLanes.map (fun L => g.vec.get 0 (k * 16 + L))))
def uniSection (ns : Nat) (g : Group) : List Byte := wordsLE ((List.range ns).map g.uget)
def predSection (g : Group) : List Byte :=
  (List.range 15).flatMap (fun p => bytesLE 2 (g.pget p).toNat) ++ [0, 0]

/-- A split entry (R239). -/
def splitEntry (s : State) (p : Split) : List Byte :=
  padTo 128 (padTo 16 (bytesLE 8 p.pc.toNat ++ bytesLE 2 p.mask.toNat ++ bytesLE 2 (pendOf s p).toNat ++ bytesLE 1 p.depth ++
      bytesLE 1 (runCode p.run) ++ bytesLE 1 ((p.cause.map causeCode).getD 0) ++ bytesLE 1 p.joins.length) ++
    padTo 96 (p.joins.flatMap (fun j => bytesLE 8 j.addr.toNat ++ bytesLE 2 j.lanes.toNat ++ [0, 0])) ++
    bytesLE 4 p.order)

/-- Split table and return stacks, the oldest address of a stack first. DEDUCED (log 64). -/
def splitSection (s : State) (g : Group) : List Byte :=
  (List.range 16).flatMap (fun i => padTo 128 (((g.split? i).map (splitEntry s)).getD [])) ++
  allLanes.flatMap (fun L => padTo 256 ((g.rets.getD L []).reverse.flatMap (fun a => bytesLE 8 a.toNat)))

/-- Counters and flags, and an MMAG fault that waits for delivery (R203). -/
def counterSection (g : Group) : List Byte :=
  let m := g.faults.find? (fun f => f.mmag.isSome)
  bytesLE 1 g.cntL ++ bytesLE 1 g.cntS ++ bytesLE 1 g.cntC ++ bytesLE 1 g.cntT ++ bytesLE 1 g.flags.toNat ++
  bytesLE 1 g.arm.toNat ++ [0, 0] ++ bytesLE 8 ((m.map (fun f => causeCode f.cause)).getD 0) ++
  bytesLE 8 (((m.bind (fun f => f.mmag)).map (fun a => a.2.toNat)).getD 0)

def tileSection (nt : Nat) (g : Group) : List Byte :=
  (List.range nt).flatMap (fun t => wordsLE ((List.range 2048).map (g.tileWord t) ++ (List.range 128).map (g.scaleWord t)))

def accSection (na : Nat) (g : Group) : List Byte :=
  (List.range 16).map (fun i => if g.affine.getLsbD i then 1#8 else 0#8) ++
  (List.range na).flatMap (fun t => wordsLE ((List.range 4096).map (g.accWord t) ++ (List.range 128).map (g.carryWord t)))

/-- A cancelled matrix entry (R210). -/
def matrixEntry (s : State) (m : MatEntry) : List Byte :=
  padTo 576 (padTo 32 (padTo 20 (wordsLE (encode m.ins)) ++
      bytesLE 4 (((s.group? m.group).map (fun g => g.groupId.toNat)).getD 0)) ++
    padTo 32 (bytesLE 8 m.uniB.toNat) ++ wordsLE m.vals)

/-- Arrivals and the watchdog count of a barrier. -/
def barrierEntry (s : State) (bi id : Nat) : List Byte :=
  let there (i : Nat) : Bool := ((s.groupOf bi i).map (arrived id)).getD false
  (List.range 128).map (fun k => BitVec.ofNat 8 (((List.range 8).map (fun b => if there (8 * k + b) then 2 ^ b else 0)).sum)) ++
  bytesLE 8 (((s.block? (barrierKeeper s bi id)).map (fun b => b.barCount.get 0 id)).getD 0)

/-- A handler slot: busy, the place of its request in section 12, and the sequence number of its burst. -/
def handlerEntry (s : State) (bi h : Nat) : List Byte :=
  match (s.handlerAt bi h).bind (fun g => g.handler) with
  | some x =>
    let at_ := ((savedOps s bi).findIdx? (fun o => o.id == x.op)).getD 0
    [1, 0, 0, 0] ++ bytesLE 4 at_ ++ bytesLE 4 x.seq ++ bytesLE 4 0
  | none => List.replicate 16 0#8

/-- Channels: roles, credits and counts by number, then the consumed buffers. -/
def channelSection (s : State) (b : Block) : List Byte :=
  let cs := s.channels.filter (fun c => c.launch == b.launch)
  cs.flatMap (fun c =>
    let role := (if c.prod = b.lin then 1 else 0) + (if c.cons = b.lin then 2 else 0)
    padTo 16 (bytesLE 1 role ++ bytesLE 1 c.credits ++ bytesLE 1 c.head ++ bytesLE 1 c.count)) ++
  (cs.filter (fun c => c.cons == b.lin)).flatMap (fun c => (List.range c.bytes).map (fun k => b.scratch.get 0 (chanBase s c + k)))

/-- The 128 bytes of a layout record (R172). -/
def Record.bytes (r : Record) : List Byte :=
  padTo 128 (bytesLE 8 r.base.toNat ++ bytesLE 8 r.scale.toNat ++ r.ext.flatMap (bytesLE 4) ++
    (r.stride.drop 1).flatMap (bytesLE 8) ++ r.box.flatMap (bytesLE 2) ++ bytesLE 1 r.fmt ++ bytesLE 1 r.sgran ++
    bytesLE 1 r.swz ++ bytesLE 1 r.rank ++ bytesLE 2 r.flags ++ bytesLE 4 r.clamp.toNat ++ bytesLE 4 r.fill.toNat ++
    bytesLE 8 r.link.toNat)

/-- A checkpoint of an operation (R193, R238). R238 gives an entry two records, while a copy between global tensors with a composed
source reads three: it holds the producer's and the consumer's, and no destination record. DEDUCED (log 21).
DESIGN CHOICE (log 104). -/
def checkpointEntry (s : State) (o : EngineOp) : List Byte :=
  let gid := ((s.group? o.group).map (fun g => g.groupId.toNat)).getD 0
  let summary := match o.kind with
    | .ldh _ tag _ => (eventBytes { o with bursts := o.bursts.filter (fun b => b.ended) } tag).take 24
    | _ => []
  let pend := (o.bursts.filter (fun b => !b.ended)).map (fun b => b.seq)
  let rows := o.rows
  let mask := (List.range ((rows.length + 7) / 8)).map (fun k =>
    BitVec.ofNat 8 (((List.range 8).map (fun b => if rows.getD (8 * k + b) false then 2 ^ b else 0)).sum))
  let tail_ := mask ++ pend.flatMap (bytesLE 4)
  let size := o.entrySize
  padTo size (bytesLE 4 size ++ bytesLE 4 gid ++ padTo 24 (wordsLE o.words) ++
    padTo 256 ((o.recs.take 2).flatMap Record.bytes) ++ padTo 40 (wordsLE o.org) ++
    bytesLE 8 ((o.fault.map (fun f => causeCode f.1)).getD 0) ++ padTo 24 summary ++ bytesLE 4 pend.length ++
    bytesLE 4 rows.length ++ tail_)

/-- The thirteen sections of a block's save area. Section 6 has entries for the groups alone: a handler slot has no accumulator
(R190). DEDUCED (log 17). DESIGN CHOICE (log 104). -/
def saveSections (s : State) (bi : Nat) (b : Block) (d : Desc) : List (List Byte) :=
  let gs (n : Nat) (f : Group → List Byte) : List Byte :=
    (List.range d.groups).flatMap (fun i => padTo n (((s.groupOf bi i).map f).getD []))
  let hs (n : Nat) (f : Group → List Byte) : List Byte :=
    (List.range d.hslots).flatMap (fun h => padTo n (((s.slotStore bi h).map f).getD []))
  let per (n : Nat) (f : Group → List Byte) : List Byte := gs n f ++ hs n f
  [ gs (64 * d.vregs) (vecSection d.vregs) ++ hs (512 * d.hvregs) (vecSection (8 * d.hvregs)),
    gs (4 * d.sregs) (uniSection d.sregs) ++ hs 64 (uniSection 16),
    per 32 predSection,
    per 6144 (splitSection s),
    per 24 counterSection,
    gs (8704 * d.tiles) (tileSection d.tiles),
    gs (16 + 16896 * d.accs) (accSection d.accs),
    (s.matq.filter (fun m => ((s.group? m.group).map (fun g => g.block)).getD 0 == bi)).flatMap (matrixEntry s),
    (List.range d.scratch).map (fun k => b.scratch.get 0 k) ++ (List.range (d.scratch / 128)).map (fun l => b.lines.get 0 l),
    (List.range 20).flatMap (barrierEntry s bi),
    (List.range d.hslots).flatMap (handlerEntry s bi),
    channelSection s b,
    (savedOps s bi).flatMap (checkpointEntry s) ]

/-- The sizes that a block's sections can reach: room that firmware takes when the block starts. -/
def saveSizes (d : Desc) (nch buffers : Nat) : List Nat :=
  let n := d.groups + d.hslots
  [ 64 * d.vregs * d.groups + 512 * d.hvregs * d.hslots, 4 * d.sregs * d.groups + 64 * d.hslots, 32 * n, 6144 * n, 24 * n,
    8704 * d.tiles * d.groups, (16 + 16896 * d.accs) * d.groups, 576 * 4 * d.cores, d.scratch + d.scratch / 128, 2720,
    16 * d.hslots, 16 * nch + buffers, checkpointRoom d ]

/-- Offsets of sections of given sizes: each at a multiple of 256 behind the header, an empty one at 0. -/
def sectionOffsets (sizes : List Nat) : List (Nat × Nat) × Nat :=
  sizes.foldl (fun (acc : List (Nat × Nat) × Nat) n =>
    if n = 0 then (acc.1 ++ [(0, 0)], acc.2) else (acc.1 ++ [(acc.2, n)], (acc.2 + n + 255) / 256 * 256)) ([], 256)

/-- The bytes that a save area takes. DEDUCED (log 17). -/
def saveSize (d : Desc) (nch buffers : Nat) : Nat := (sectionOffsets (saveSizes d nch buffers)).2

/-- The header (R238). -/
def saveHeader (status reason lin lid descVa saved : Nat) (sect : List (Nat × Nat)) : List Byte :=
  padTo 256 (bytesLE 4 0x53415645 ++ bytesLE 2 1 ++ bytesLE 1 status ++ bytesLE 1 reason ++ bytesLE 4 lin ++ bytesLE 4 lid ++
    bytesLE 8 descVa ++ bytesLE 8 saved ++ padTo 208 (sect.flatMap (fun x => bytesLE 8 x.1 ++ bytesLE 8 x.2)))

/-- A block's save area written whole and made valid (R235 step 7). DEDUCED (log 19). -/
def writeSave (bi : Nat) (s : State) : State :=
  match s.block? bi with
  | none => s
  | some b =>
    match s.launch? b.launch with
    | none => s
    | some l =>
      let secs := saveSections s bi b l.desc
      let tab := (sectionOffsets (secs.map List.length)).1
      let at_ (off : Nat) : Nat := b.saveArea.toNat + off
      let s := (tab.zip secs).foldl (fun s x => if x.2 = [] then s else fwStore l.ctx (at_ x.1.1) x.2 s) s
      fwStore l.ctx (at_ 0)
        (saveHeader 1 0x11 b.lin l.id.toNat l.descVa.toNat (s.timeOf b.die).toNat tab) s

/-- STATUS and REASON of a save area whose context has been killed: invalid, 0x12 (R238). -/
def spoilSave (cn : Nat) (area : DWord) (s : State) : State := fwStore cn (area.toNat + 6) (bytesLE 1 2 ++ bytesLE 1 0x12) s

/-! ## Restore (R62, R237) -/

/-- A table read from a run of little-endian words. -/
def wordTab (rd : Nat → Byte) (off n : Nat) (key : Nat → Nat) : List (Nat × Word) :=
  (List.range n).map (fun i => (key i, BitVec.ofNat 32 (natLE ((List.range 4).map (fun k => rd (off + 4 * i + k))))))

/-- RUN of R239 read back. -/
def runOf : Nat → Option Run
  | 1 => some .live | 2 => some .dormant | 3 => some .trapped | _ => none

/-- A join record read back: one that a split of the group holds keeps its identity, and so do equal new ones at one depth. -/
def joinOf (g : Group) (k addr lanes : Nat) : Join :=
  let same (j : Join) : Bool := j.addr.toNat == addr && j.lanes.toNat == lanes
  match (g.splits.filterMap (fun p => p.joins[k]?.filter same)).head? with
  | some j => j
  | none => { id := 2 ^ 64 + (addr * 65536 + lanes) * 8 + k, addr := BitVec.ofNat 64 addr, lanes := BitVec.ofNat 16 lanes }

/-- A split entry read back (R239). The schedule state of a split that was there stays, and its wait while its place and its
lanes are unchanged; none is a free entry. DESIGN CHOICE (log 93). -/
def readSplit (s : State) (rd : Nat → Byte) (off : Nat) (g : Group) (i : Nat) : Option Split :=
  let n (o k : Nat) : Nat := natLE ((List.range k).map (fun j => rd (off + 128 * i + o + j)))
  (runOf (n 13 1)).map (fun run =>
    let pc := BitVec.ofNat 64 (n 0 8)
    let mask := BitVec.ofNat 16 (n 8 2)
    let pend := BitVec.ofNat 16 (n 10 2)
    let p := (g.split? i).getD (Split.fresh i pc mask)
    let same := p.pc == pc && p.mask == mask && pendOf s p == pend && p.run == run
    { p with pc := pc, mask := mask, depth := n 12 1, run := run,
             cause := [Cause.ill, .unimp, .opr, .mal, .pf, .prot, .swz, .emptyto, .brt, .hnd, .orb, .chn, .arith, .bkpt, .svc,
               .trap, .preempt, .kill, .barwd].find? (fun c => run == .trapped && causeCode c == n 14 1),
             joins := (List.range (n 15 1)).map (fun k => joinOf g k (n (16 + 12 * k) 8) (n (24 + 12 * k) 2)),
             order := n 112 4, pend := if same then p.pend else pend, wait := if same then p.wait else .none })

/-- A split table that R25 and R239 allow: every lane that has not ended stands in one split, at most four splits are live, a
TRAPPED split has a cause, and depths and numbers of join records are in range. -/
def tableOk (g : Group) (ps : List Split) : Bool :=
  ps.foldl (fun (m : LaneMask) p => m ||| p.mask) 0 == (g.present &&& ~~~g.ended) &&
  (ps.map (fun p => (lanesOf p.mask).length)).sum == (lanesOf (g.present &&& ~~~g.ended)).length &&
  decide (liveCount ps ≤ 4) &&
  ps.all (fun p => p.mask != 0 && decide (p.depth ≤ 32) && decide (p.joins.length ≤ 8) && (p.run != .trapped || p.cause.isSome))

/-- The split table and the return stacks of a group read back from section 3 (R57, R238, R239, R358). Contents that are no split
table are not taken. DESIGN CHOICE (log 93). -/
def Group.readSplits (s : State) (rd : Nat → Byte) (off : Nat) (g : Group) : Group :=
  let ps := (List.range 16).filterMap (readSplit s rd off g)
  if !tableOk g ps then g
  else
    let stack (L : Nat) : List DWord :=
      match ps.find? (fun p => p.mask.getLsbD L) with
      | none => g.rets.getD L []
      | some p => ((List.range p.depth).map (fun e =>
          BitVec.ofNat 64 (natLE ((List.range 8).map (fun j => rd (off + 2048 + 256 * L + 8 * e + j)))))).reverse
    { g with splits := ps, rets := allLanes.map stack }

/-- A group's registers, predicates, FLAGS, ARM, tiles and accumulators as a save area holds them; `at_` gives the
places of the group in sections 0, 1, 2, 4, 5 and 6. DEDUCED (log 19). -/
def Group.restore (rd : Nat → Byte) (at_ : Nat → Nat) (g : Group) : Group :=
  let tw := wordTab rd (at_ 5)
  let aw := wordTab rd (at_ 6 + 16)
  { g with
    vec := Tab.putAll 0 [] (wordTab rd (at_ 0) (16 * g.nv) id),
    uni := Tab.putAll 0 [] (wordTab rd (at_ 1) g.ns id),
    pred := Tab.putAll 0 [] ((List.range 15).map (fun p =>
      (p, BitVec.ofNat 16 (natLE [rd (at_ 2 + 2 * p), rd (at_ 2 + 2 * p + 1)])))),
    flags := (rd (at_ 4 + 4)).extractLsb' 0 6, arm := (rd (at_ 4 + 5)).extractLsb' 0 6,
    tile := Tab.putAll 0 [] ((tw (2176 * g.nt) id).filterMap (fun x =>
      if x.1 % 2176 < 2048 then some (x.1 / 2176 * 2048 + x.1 % 2176, x.2) else none)),
    scale := Tab.putAll 0 [] ((tw (2176 * g.nt) id).filterMap (fun x =>
      if x.1 % 2176 < 2048 then none else some (x.1 / 2176 * 128 + x.1 % 2176 - 2048, x.2))),
    affine := if g.na = 0 then g.affine else maskOf (fun i => (rd (at_ 6 + i)).getLsbD 0),
    acc := Tab.putAll 0 [] ((aw (4224 * g.na) id).filterMap (fun x =>
      if x.1 % 4224 < 4096 then some (x.1 / 4224 * 4096 + x.1 % 4224, x.2) else none)),
    carry := Tab.putAll 0 [] ((aw (4224 * g.na) id).filterMap (fun x =>
      if x.1 % 4224 < 4096 ∨ 16 ≤ x.1 / 4224 then none else some (x.1 / 4224 * 128 + x.1 % 4224 - 4096, x.2))) }

/-- Section 11 read back: the producer's credits by the producer's block, the consumer's head and count, and the consumed
buffers with the scratchpad (R225). -/
def restoreChannels (rd : Nat → Byte) (off : Nat) (b : Block) (s : State) : State :=
  let cs := s.channels.filter (fun c => c.launch == b.launch)
  let byte (k j : Nat) : Nat := (rd (off + 16 * k + j)).toNat
  let s := cs.zipIdx.foldl (fun s x => s.modChannel b.launch x.1.num (fun c =>
    let c := if c.prod = b.lin then { c with credits := byte x.2 1 } else c
    if c.cons = b.lin then { c with head := byte x.2 2, count := byte x.2 3 } else c)) s
  let mine := cs.filter (fun c => c.cons == b.lin)
  (mine.foldl (fun (acc : State × Nat) c =>
    let bytes := (List.range c.bytes).map (fun k => (chanBase s c + k, rd (acc.2 + k)))
    (acc.1.modBlock (blockOf s c.launch c.cons) (fun b => { b with scratch := Tab.putAll 0 b.scratch bytes }), acc.2 + c.bytes))
    (s, off + 16 * cs.length)).1

/-- The bytes of a group's entry, or of a handler slot's, in sections 0 to 6. -/
def entrySizes (d : Desc) : List Nat := [64 * d.vregs, 4 * d.sregs, 32, 6144, 24, 8704 * d.tiles, 16 + 16896 * d.accs]

/-- The offsets of the sections of a block's save area. -/
def sectionTable (s : State) (bi : Nat) (b : Block) (d : Desc) : List (Nat × Nat) :=
  (sectionOffsets ((saveSections s bi b d).map List.length)).1

/-- The entries of a saved group in sections 0 to 4 written again: what a split-resume command changes (R232). -/
def writeGroup (gi : Nat) (s : State) : State :=
  match (s.group? gi).bind (fun g => (s.block? g.block).bind (fun b => (s.launch? b.launch).map (fun l => (g, b, l)))) with
  | none => s
  | some (g, b, l) =>
    let d := l.desc
    let tab := sectionTable s g.block b d
    ([vecSection d.vregs g, uniSection d.sregs g, predSection g, splitSection s g, counterSection g].zipIdx).foldl (fun s x =>
      fwStore l.ctx (b.saveArea.toNat + (tab.getD x.2 (0, 0)).1 + (entrySizes d).getD x.2 0 * g.idx) x.1 s) s

/-- A block's groups, handler slots, scratchpad and channels read back from its save area. DEDUCED (log 19). -/
def readSave (bi : Nat) (s : State) : State :=
  match s.block? bi with
  | none => s
  | some b =>
    match s.launch? b.launch with
    | none => s
    | some l =>
      let d := l.desc
      let tab := sectionTable s bi b d
      let off (k : Nat) : Nat := (tab.getD k (0, 0)).1
      let rd (o : Nat) : Byte := fwByte s l.ctx (b.saveArea.toNat + o)
      let each (k : Nat) : Nat := (entrySizes d).getD k 0
      let slot (k h : Nat) : Nat := off k + each k * d.groups + [512 * d.hvregs, 64, 32, 6144, 24].getD k 0 * h
      let s : State := { s with groups := s.groups.zipIdx.map (fun (x : Group × Nat) =>
        let g := x.1
        if g.block ≠ bi then g
        else
          match g.handler with
          | none => if g.retired then g else (g.restore rd (fun k => off k + each k * g.idx)).readSplits s rd (off 3 + each 3 * g.idx)
          | some h => if holdsSlot s x.2 g then g.restore rd (fun k => slot k h.slot) else g) }
      let s := s.modBlock bi (fun b => { b with
        scratch := Tab.putAll 0 [] ((List.range d.scratch).map (fun k => (k, rd (off 8 + k)))),
        lines := Tab.putAll 0 [] ((List.range (d.scratch / 128)).map (fun k => (k, rd (off 8 + d.scratch + k) &&& 0x0F#8))) })
      restoreChannels rd (off 11) b s

/-- STATUS of a block's save area is 1 (R238). -/
def saveValid (s : State) (cn : Nat) (b : Block) : Bool := fwByte s cn (b.saveArea.toNat + 6) == 1

end Sys2Proof.Machine
end

