-- ==== Sys2Proof/Machine/Place.lean ====
section
/-! DEFINITION. Room for a block: what its groups and handlers take, the test of R40, and where the distributor's own
search puts a block (R33, R38, R40, R44, R52, R57, R127). -/

namespace Sys2Proof.Machine

open Sys2Proof

/-! ## What is used -/

/-- What a group or a handler slot holds on a core: its quarter and place, bytes of its pipe, uniform bytes, and how many
tiles and accumulator slots. -/
structure Use where
  die : Nat
  core : Nat
  quarter : Nat
  place : SlotPlace
  vb : Nat
  ub : Nat
  nt : Nat
  na : Nat
deriving DecidableEq, Repr

/-- Scratchpad lines that a block holds on a core. -/
structure Lines where
  die : Nat
  core : Nat
  base : Nat
  n : Nat
deriving DecidableEq, Repr

/-- What is used on the cores of the package. -/
structure Occ where
  uses : List Use
  lines : List Lines
deriving DecidableEq, Repr

/-- Two runs meet. -/
def overlaps (a n b m : Nat) : Bool := n != 0 && m != 0 && decide (a < b + m) && decide (b < a + n)

/-- Two places that cannot be held at once. -/
def Use.clash (u v : Use) : Bool :=
  u.die == v.die && u.core == v.core &&
    ((u.quarter == v.quarter &&
        (u.place.k == v.place.k ||
         (u.place.k % 16 == v.place.k % 16 && overlaps u.place.vbase u.vb v.place.vbase v.vb) ||
         overlaps u.place.ubase u.ub v.place.ubase v.ub)) ||
      u.place.tiles.any v.place.tiles.contains || u.place.accs.any v.place.accs.contains)

/-- A place lies inside its stores. -/
def Use.inside (u : Use) : Bool :=
  decide (u.core < 20) && decide (u.quarter < 4) && decide (u.place.k < 64) && decide (u.place.vbase + u.vb ≤ 16384) &&
  decide (u.place.ubase + u.ub ≤ 65536) && u.place.vbase % 64 == 0 && u.place.ubase % 4 == 0 &&
  u.place.tiles.length == u.nt && u.place.accs.length == u.na && decide u.place.tiles.Nodup && decide u.place.accs.Nodup &&
  u.place.tiles.all (fun t => decide (t < 64)) && u.place.accs.all (fun a => decide (a < 64))

/-- No two places of a list clash. -/
def clashFree : List Use → Bool
  | [] => true
  | u :: us => us.all (fun v => !u.clash v) && clashFree us

/-! ## The spots of a block (R44) -/

/-- The first group on core j of a block. -/
def firstOn (d : Desc) (j : Nat) : Nat := (j * d.groups + d.cores - 1) / d.cores

/-- Core and quarter of group g. -/
def groupSpot (d : Desc) (g : Nat) : Nat × Nat :=
  let j := g * d.cores / d.groups
  (j, (g - firstOn d j) % 4)

/-- Core and quarter of handler slot h. -/
def handlerSpot (d : Desc) (h : Nat) : Nat × Nat := (h % d.cores, handlerQuarter d.groups d.cores h)

/-- What a block holds at a placement: its groups', then its handlers' places. -/
def placementUses (die : Nat) (d : Desc) (p : Placement) : List Use :=
  (p.slots.zipIdx.map (fun x =>
    let q := groupSpot d x.2
    { die := die, core := p.cores.getD q.1 0, quarter := q.2, place := x.1, vb := 64 * d.vregs, ub := 4 * d.sregs,
      nt := d.tiles, na := d.accs : Use })) ++
  (p.hslots.zipIdx.map (fun x =>
    let q := handlerSpot d x.2
    { die := die, core := p.cores.getD q.1 0, quarter := q.2, place := x.1, vb := 512 * d.hvregs, ub := 64, nt := 0, na := 0 }))

def placementLines (die n : Nat) (p : Placement) : List Lines :=
  (p.cores.zip p.sbase).map (fun x => { die := die, core := x.1, base := x.2, n := n })

/-- A block holds core-local storage: it has started, has not completed and is not evicted or saved. -/
def State.resident (s : State) (b : Block) : Bool :=
  !b.complete && b.cores != [] &&
    ((s.launch? b.launch).bind (fun l => s.ctx? l.ctx)).any (fun c => c.state == .ready || c.state == .running)

/-- What the resident blocks hold. A retired group's storage is free (R32); handler slots stay with their block. -/
def occupied (s : State) (except : Option Nat) : Occ :=
  let bs := (s.blocks.zipIdx).filter (fun (x : Block × Nat) => s.resident x.1 && some x.2 != except)
  let uses := bs.flatMap (fun (x : Block × Nat) =>
    match s.launch? x.1.launch with
    | none => []
    | some l =>
      let d := l.desc
      (s.groups.filterMap (fun (g : Group) =>
        if g.block = x.2 ∧ g.handler = none ∧ g.retired = false then
          some { die := g.die, core := g.core, quarter := g.quarter, place := g.place, vb := 64 * g.nv, ub := 4 * g.ns,
                 nt := g.nt, na := g.na : Use }
        else none)) ++
      placementUses x.1.die d { cores := x.1.cores, sbase := [], slots := [], hslots := x.1.hplaces, saveArea := 0 })
  let lines := bs.flatMap (fun (x : Block × Nat) =>
    match s.launch? x.1.launch with
    | none => []
    | some l =>
      let n := l.desc.linesPerCore (bufferBytes (s.channels.filter (fun c => c.launch == x.1.launch)) x.1.lin)
      (x.1.cores.zip x.1.sbase).map (fun y => { die := x.1.die, core := y.1, base := y.2, n := n : Lines }))
  { uses := uses, lines := lines }

/-- A placement on a die obeys R40 and R44 beside what is used there: vector and uniform registers and scratchpad lines as
one run each from the bases of R57 and R127, tiles and accumulator slots anywhere. DESIGN CHOICE (log 15). -/
def placementOk (o : Occ) (die : Nat) (d : Desc) (buffers : Nat) (p : Placement) : Bool :=
  let us := placementUses die d p
  let n := d.linesPerCore buffers
  let ls := placementLines die n p
  p.cores.length == d.cores && p.sbase.length == d.cores && p.slots.length == d.groups && p.hslots.length == d.hslots &&
  decide p.cores.Nodup && p.cores.all (fun k => decide (k < 20)) && us.all Use.inside && clashFree us &&
  us.all (fun u => o.uses.all (fun v => !u.clash v)) &&
  ls.all (fun l => decide (l.base + l.n ≤ 16384) &&
    o.lines.all (fun m => m.die != l.die || m.core != l.core || !overlaps l.base l.n m.base m.n))

/-! ## The distributor's search -/

/-- The lowest base at which a run of n fits beside used runs. -/
def gap (used : List (Nat × Nat)) (n size : Nat) : Option Nat :=
  if n = 0 then some 0
  else
    ((0 :: used.map (fun u => u.1 + u.2)).filter (fun b =>
      decide (b + n ≤ size) && used.all (fun u => !overlaps b n u.1 u.2))).min?

/-- The lowest n of the 64 numbers that are not used. -/
def scattered (used : List Nat) (n : Nat) : Option (List Nat) :=
  let free := (List.range 64).filter (fun t => !used.contains t)
  if n ≤ free.length then some (free.take n) else none

/-- The uses on a core. -/
def Occ.on (o : Occ) (die core : Nat) : List Use := o.uses.filter (fun u => u.die == die && u.core == core)

/-- A place in a pipe of a quarter for one slot, when there is one. -/
def placeIn (us : List Use) (die core q pipe vb ub nt na : Nat) : Option Use :=
  let mine := us.filter (fun u => u.quarter == q)
  let pipeUses := (mine.filter (fun u => u.place.k % 16 == pipe)).map (fun u => (u.place.vbase, u.vb))
  match ([pipe, pipe + 16, pipe + 32, pipe + 48].filter (fun k => mine.all (fun u => u.place.k != k))).head?,
    gap pipeUses vb 16384, gap (mine.map (fun u => (u.place.ubase, u.ub))) ub 65536,
    scattered (us.flatMap (fun u => u.place.tiles)) nt, scattered (us.flatMap (fun u => u.place.accs)) na with
  | some k, some v, some u, some t, some a =>
    some { die := die, core := core, quarter := q, place := { k := k, vbase := v, ubase := u, tiles := t, accs := a },
           vb := vb, ub := ub, nt := nt, na := na }
  | _, _, _, _, _ => none

/-- n more slots of one size in a pipe. -/
def placeMany (place : List Use → Option Use) : Nat → List Use → Option (List Use)
  | 0, us => some us
  | n + 1, us => (place us).bind (fun u => placeMany place n (us ++ [u]))

/-- The pairs of groups and handlers that a pipe has vector space and slots for. -/
def pipePairs (us : List Use) (q pipe vb hb : Nat) : List (Nat × Nat) :=
  let mine := us.filter (fun u => u.quarter == q && u.place.k % 16 == pipe)
  let runs := mine.map (fun u => (u.place.vbase, u.vb))
  let put (n size : Nat) (rs : List (Nat × Nat)) : Option (List (Nat × Nat)) :=
    (List.range n).foldl (fun acc _ => acc.bind (fun rs => (gap rs size 16384).map (fun b => (b, size) :: rs))) (some rs)
  let free := 4 - mine.length
  (List.range (free + 1)).flatMap (fun g => (List.range (free + 1 - g)).filterMap (fun h =>
    if ((put g vb runs).bind (put h hb)).isSome then some (g, h) else none))

/-- The best plan for each number of groups placed so far: the most handlers, and groups and handlers per pipe. -/
abbrev PipePlan := List (Option (Nat × List (Nat × Nat)))

/-- One more pipe enters the plan. -/
def addPipe (ng : Nat) (pairs : List (Nat × Nat)) (t : PipePlan) : PipePlan :=
  (List.range (ng + 1)).map (fun G =>
    pairs.foldl (fun best p =>
      if G < p.1 then best
      else
        match t.getD (G - p.1) none with
        | none => best
        | some (h, pl) =>
          match best with
          | none => some (h + p.2, pl ++ [p])
          | some (h', _) => if h' < h + p.2 then some (h + p.2, pl ++ [p]) else best) none)

/-- The groups and handlers of a block on one quarter, pipe by pipe: none when no choice of slots holds them.
DESIGN CHOICE (log 15). -/
def planQuarter (us : List Use) (q vb hb ng nh : Nat) : Option (List (Nat × Nat)) :=
  match ((List.range 16).foldl (fun t p => addPipe ng (pipePairs us q p vb hb) t) ([some (0, [])] : PipePlan)).getD ng none with
  | some (h, pl) => if nh ≤ h then some pl else none
  | none => none

/-- The places of a quarter's groups and handlers. -/
def seatQuarter (us : List Use) (die core q : Nat) (d : Desc) (ng nh : Nat) : Option (List Use × List Use) :=
  (planQuarter us q (64 * d.vregs) (512 * d.hvregs) ng nh).bind (fun pl =>
    let groups := (pl.zipIdx).foldl (fun (acc : Option (List Use)) x =>
      acc.bind (placeMany (fun us => placeIn us die core q x.2 (64 * d.vregs) (4 * d.sregs) d.tiles d.accs) x.1.1)) (some us)
    groups.bind (fun gs =>
      let all := (pl.zipIdx).foldl (fun (acc : Option (List Use)) x =>
        acc.bind (fun us => placeMany (fun us => placeIn us die core q x.2 (512 * d.hvregs) 64 0 0)
          (min x.1.2 (nh - (us.length - gs.length))) us)) (some gs)
      all.map (fun hs => ((gs.drop us.length), hs.drop gs.length))))

/-- Groups and handlers of a block's core j by quarter: their numbers in the block. -/
def onQuarter (d : Desc) (j q : Nat) : List Nat × List Nat :=
  ((List.range d.groups).filter (fun g => groupSpot d g == (j, q)),
   (List.range d.hslots).filter (fun h => handlerSpot d h == (j, q)))

/-- The places on one core of the groups and handlers of the block's core j, keyed by their numbers. -/
def seatCore (o : Occ) (die core j : Nat) (d : Desc) : Option (List (Nat × SlotPlace) × List (Nat × SlotPlace)) :=
  ((List.range 4).foldl (fun (acc : Option (List Use × List (Nat × SlotPlace) × List (Nat × SlotPlace))) q =>
    acc.bind (fun a =>
      let (gs, hs) := onQuarter d j q
      (seatQuarter a.1 die core q d gs.length hs.length).map (fun r =>
        (a.1 ++ r.1 ++ r.2, a.2.1 ++ gs.zip (r.1.map (fun u => u.place)), a.2.2 ++ hs.zip (r.2.map (fun u => u.place))))))
    (some (o.on die core, [], []))).map (fun a => a.2)

/-- The first core of the die, none of those chosen, that holds the block's core j. -/
def seatRole (o : Occ) (die lines j : Nat) (d : Desc) (chosen : List Nat) :
    Option (Nat × Nat × List (Nat × SlotPlace) × List (Nat × SlotPlace)) :=
  (List.range 20).findSome? (fun core =>
    if chosen.contains core then none
    else
      match gap ((o.lines.filter (fun l => l.die == die && l.core == core)).map (fun l => (l.base, l.n))) lines 16384,
        seatCore o die core j d with
      | some b, some (gs, hs) => some (core, b, gs, hs)
      | _, _ => none)

/-- The place of an entry by number. -/
def placeNo (l : List (Nat × SlotPlace)) (n : Nat) : SlotPlace :=
  ((l.find? (fun x => x.1 == n)).map (fun x => x.2)).getD .first

/-- A placement of a block on a die beside what is used there; none when the search finds no room.
DESIGN CHOICE (log 15). -/
def seat (o : Occ) (die : Nat) (d : Desc) (buffers : Nat) (area : DWord) : Option Placement :=
  ((List.range d.cores).foldl
    (fun (acc : Option (List Nat × List Nat × List (Nat × SlotPlace) × List (Nat × SlotPlace))) j =>
      acc.bind (fun a => (seatRole o die (d.linesPerCore buffers) j d a.1).map (fun r =>
        (a.1 ++ [r.1], a.2.1 ++ [r.2.1], a.2.2.1 ++ r.2.2.1, a.2.2.2 ++ r.2.2.2)))) (some ([], [], [], []))).map
    (fun a => { cores := a.1, sbase := a.2.1, slots := (List.range d.groups).map (placeNo a.2.2.1),
                hslots := (List.range d.hslots).map (placeNo a.2.2.2), saveArea := area })

/-- What is used once a block has a placement. -/
def Occ.add (o : Occ) (die : Nat) (d : Desc) (buffers : Nat) (p : Placement) : Occ :=
  { uses := o.uses ++ placementUses die d p, lines := o.lines ++ placementLines die (d.linesPerCore buffers) p }

/-- Placements of the blocks lin, lin + 1, … of a grid, each on its cohort's die; none when one finds no room. -/
def seatAll (bind : List Nat) (chans : List Channel) (d : Desc) : Nat → Nat → Occ → Option (List (Nat × Placement))
  | 0, _, _ => some []
  | n + 1, lin, o =>
    let die := bind.getD (lin % bind.length) 0
    let f := bufferBytes chans lin
    (seat o die d f 0).bind (fun p =>
      (seatAll bind chans d n (lin + 1) (o.add die d f p)).map (fun r => (lin, p) :: r))

/-! ## The whole grid (R41)

A greedy search may fail where some seating holds the grid. The search below tries every choice of cores; on each core it
packs what falls there jointly. -/

/-- What a search has put on one core: blocks with their roles and line counts. -/
structure CoreLoad where
  die : Nat
  core : Nat
  roles : List (Nat × Nat × Nat)
deriving DecidableEq, Repr

/-- The groups and handlers of a core's roles on a quarter, by block. -/
def CoreLoad.quarter (c : CoreLoad) (d : Desc) (q : Nat) : List (Nat × Nat) × List (Nat × Nat) :=
  (c.roles.flatMap (fun r => ((onQuarter d r.2.1 q).1.map (fun g => (r.1, g)))),
   c.roles.flatMap (fun r => ((onQuarter d r.2.1 q).2.map (fun h => (r.1, h)))))

/-- The places of everything on a core, packed together: (block, number) with its place, groups and handlers apart, and each
block's line base. -/
def CoreLoad.pack (o : Occ) (d : Desc) (c : CoreLoad) :
    Option (List ((Nat × Nat) × SlotPlace) × List ((Nat × Nat) × SlotPlace) × List (Nat × Nat)) :=
  let lines := c.roles.foldl (fun (acc : Option (List (Nat × Nat) × List (Nat × Nat))) r =>
    acc.bind (fun a => (gap a.1 r.2.2 16384).map (fun b => (a.1 ++ [(b, r.2.2)], a.2 ++ [(r.1, b)]))))
    (some ((o.lines.filter (fun l => l.die == c.die && l.core == c.core)).map (fun l => (l.base, l.n)), []))
  let seats := (List.range 4).foldl
    (fun (acc : Option (List Use × List ((Nat × Nat) × SlotPlace) × List ((Nat × Nat) × SlotPlace))) q =>
      acc.bind (fun a =>
        let (gs, hs) := c.quarter d q
        (seatQuarter a.1 c.die c.core q d gs.length hs.length).map (fun r =>
          (a.1 ++ r.1 ++ r.2, a.2.1 ++ gs.zip (r.1.map (fun u => u.place)), a.2.2 ++ hs.zip (r.2.map (fun u => u.place))))))
    (some (o.on c.die c.core, [], []))
  lines.bind (fun l => seats.map (fun a => (a.2.1, a.2.2, l.2)))

/-- Every choice of n distinct cores. -/
def coreChoices : Nat → List (List Nat)
  | 0 => [[]]
  | n + 1 => (coreChoices n).flatMap (fun l => ((List.range 20).filter (fun k => !l.contains k)).map (fun k => l ++ [k]))

/-- One more role on a core. -/
def addRole (die core : Nat) (r : Nat × Nat × Nat) (cs : List CoreLoad) : List CoreLoad :=
  if cs.any (fun c => c.die == die && c.core == core) then
    cs.map (fun c => if c.die = die ∧ c.core = core then { c with roles := c.roles ++ [r] } else c)
  else cs ++ [{ die := die, core := core, roles := [r] }]

/-- The blocks lin, lin + 1, … on cores such that every core holds what falls on it; none when no choice does. -/
def chooseCores (o : Occ) (bind : List Nat) (chans : List Channel) (d : Desc) : Nat → Nat → List CoreLoad →
    List (Nat × List Nat) → Option (List CoreLoad × List (Nat × List Nat))
  | 0, _, cs, done => some (cs, done)
  | n + 1, lin, cs, done =>
    let die := bind.getD (lin % bind.length) 0
    let lines := d.linesPerCore (bufferBytes chans lin)
    (coreChoices d.cores).findSome? (fun ks =>
      let cs' := ks.zipIdx.foldl (fun cs k => addRole die k.1 (lin, k.2, lines) cs) cs
      if cs'.all (fun c => c.die != die || !ks.contains c.core || (c.pack o d).isSome) then
        chooseCores o bind chans d n (lin + 1) cs' (done ++ [(lin, ks)])
      else none)

/-- The place of a block's entry. -/
def placeOf (l : List ((Nat × Nat) × SlotPlace)) (lin n : Nat) : SlotPlace :=
  ((l.find? (fun x => x.1 == (lin, n))).map (fun x => x.2)).getD .first

/-- The placements that a choice of cores gives. -/
def choicePlacements (o : Occ) (bind : List Nat) (d : Desc) (cs : List CoreLoad) (done : List (Nat × List Nat)) :
    List (Nat × Placement) :=
  let packed := cs.filterMap (fun c => (c.pack o d).map (fun p => (c.die, c.core, p)))
  done.map (fun b =>
    let die := bind.getD (b.1 % bind.length) 0
    let mine := packed.filter (fun p => p.1 == die)
    let gs := mine.flatMap (fun p => p.2.2.1)
    let hs := mine.flatMap (fun p => p.2.2.2.1)
    let base (k : Nat) : Nat :=
      ((mine.find? (fun p => p.2.1 == k)).bind (fun p => (p.2.2.2.2.find? (fun y => y.1 == b.1)).map (fun y => y.2))).getD 0
    (b.1, { cores := b.2, sbase := b.2.map base, slots := (List.range d.groups).map (placeOf gs b.1),
            hslots := (List.range d.hslots).map (placeOf hs b.1), saveArea := 0 }))

/-- Placements of a whole grid, each block on its cohort's die: the greedy search's, else those of the search through every
choice of cores; none when no seating holds the grid (R41). -/
def seatGrid (bind : List Nat) (chans : List Channel) (d : Desc) (o : Occ) : Option (List (Nat × Placement)) :=
  (seatAll bind chans d d.blocks 0 o).orElse (fun _ =>
    (chooseCores o bind chans d d.blocks 0 [] []).map (fun r => choicePlacements o bind d r.1 r.2))

/-! ## Save areas (R238) -/

/-- Save areas of a context's blocks in use: address and size. -/
def State.saveAreas (s : State) (cn : Nat) : List (Nat × Nat) :=
  (s.ctxBlocks cn).filterMap (fun b => (s.launch? b.2.launch).map (fun l =>
    let cs := s.channels.filter (fun c => c.launch == b.2.launch)
    (b.2.saveArea.toNat, saveSize l.desc cs.length (bufferBytes cs b.2.lin))))

/-- The save pool behind its directory, with room for one more entry. -/
def poolRoom (s : State) (c : Ctx) : Nat × Nat :=
  (c.savePool.toNat + 8 + 16 * ((s.ctxBlocks c.num).length + 1), c.savePool.toNat + c.poolSize)

/-- A save area of n bytes may be taken at an address; the directory's new entry must not meet another area.
DEDUCED (log 17). -/
def areaOk (s : State) (c : Ctx) (at_ n : Nat) : Bool :=
  let (lo, hi) := poolRoom s c
  decide (lo ≤ at_) && decide (at_ + n ≤ hi) &&
    (s.saveAreas c.num).all (fun a => decide (lo ≤ a.1) && !overlaps at_ n a.1 a.2)

/-- The highest place for a save area: at the end of the pool, or below an area in use. The spec does not say where in the pool
firmware takes an area. DESIGN CHOICE (log 100). -/
def findArea (s : State) (c : Ctx) (n : Nat) : Option Nat :=
  ((((poolRoom s c).2 :: (s.saveAreas c.num).map (fun a => a.1)).map (fun e => e - n)).filter (fun a => areaOk s c a n)).max?

end Sys2Proof.Machine
end

