-- ==== Sys2Proof/Machine/Launch.lean ====
section
/-! DEFINITION. Launches and blocks: descriptors, admission, block start and completion, pre-emption, migration and kill
(R22 to R24, R31, R32, R38 to R46, R51, R56, R213, R224, R225, R228, R235, R238, R241, R250, R253). -/

namespace Sys2Proof.Machine

open Sys2Proof Sys2Proof.Num

/-! ## Descriptors (R39) -/

def parseDesc (bs : List Byte) : Desc :=
  { entry := BitVec.ofNat 64 (fieldLE bs 0 8), args := BitVec.ofNat 64 (fieldLE bs 8 8), gridX := fieldLE bs 16 4,
    gridY := fieldLE bs 20 4, gridZ := fieldLE bs 24 4, blkX := fieldLE bs 28 2, blkY := fieldLE bs 30 2,
    blkZ := fieldLE bs 32 2, cores := fieldLE bs 34 1, progress := fieldLE bs 35 1, vregs := fieldLE bs 36 2,
    sregs := fieldLE bs 38 2, tiles := fieldLE bs 40 1, accs := fieldLE bs 41 1, hslots := fieldLE bs 42 1,
    hvregs := fieldLE bs 43 1, scratch := fieldLE bs 44 4, chtab := BitVec.ofNat 64 (fieldLE bs 48 8),
    nch := fieldLE bs 56 1, emptyExp := fieldLE bs 57 1, colltab := BitVec.ofNat 64 (fieldLE bs 64 8),
    done := BitVec.ofNat 64 (fieldLE bs 72 8), orbReq := (List.range 8).map (fun t => fieldLE bs (80 + 2 * t) 2),
    reservedZero := ((bs.drop 58).take 6 ++ (bs.drop 96).take 32).all (fun b => b == 0) }

/-- The fields that R39 checks at admission. -/
def Desc.ok (c : Ctx) (d : Desc) : Bool :=
  c.inText d.entry && decide (1 ≤ d.gridX) && decide (1 ≤ d.gridY) && decide (1 ≤ d.gridZ) && decide (d.blocks < 2 ^ 32) &&
  decide (1 ≤ d.lanes) && decide (d.lanes ≤ 16384) && decide (1 ≤ d.cores) && decide (d.cores ≤ 4) &&
  decide (d.groups ≤ 256 * d.cores) && decide (d.progress ≤ 2) && decide (8 ≤ d.vregs) && decide (d.vregs ≤ 256) &&
  d.vregs % 8 == 0 && decide (16 ≤ d.sregs) && decide (d.sregs ≤ 1024) && d.sregs % 16 == 0 && decide (d.tiles ≤ 16) &&
  decide (d.accs ≤ 32) && decide (d.hslots ≤ 64) &&
  (d.hslots == 0 || (decide (1 ≤ d.hvregs) && decide (d.hvregs ≤ 32))) && d.scratch % 128 == 0 &&
  decide (d.scratch ≤ d.cores * 2 ^ 21) && decide (d.nch ≤ 64) && (d.nch == 0 || d.progress == 0) &&
  (d.emptyExp == 0 || (decide (8 ≤ d.emptyExp) && decide (d.emptyExp ≤ 32))) && d.reservedZero

/-! ## The tables of a launch (R224, R253) -/

/-- A channel declaration with its coordinates inside the grid, as the channel at launch start. -/
def channelEntry (li : Nat) (d : Desc) (num : Nat) (bs : List Byte) : Option Channel :=
  let lin (o : Nat) : Option Nat :=
    let x := fieldLE bs o 4
    let y := fieldLE bs (o + 4) 4
    let z := fieldLE bs (o + 8) 4
    if x < d.gridX ∧ y < d.gridY ∧ z < d.gridZ then some (x + d.gridX * (y + d.gridY * z)) else none
  let depth := fieldLE bs 24 1
  match lin 0, lin 12 with
  | some p, some q =>
    if 1 ≤ depth ∧ depth ≤ 64 ∧ (bs.drop 25).all (fun b => b == 0) then
      some { launch := li, num := num, prod := p, cons := q, depth := depth, head := 0, count := 0, credits := depth, flying := 0 }
    else none
  | _, _ => none

/-- The channels that a launch declares; none is REASON 4. -/
def channelTable (s : State) (c : Ctx) (li : Nat) (d : Desc) : Option (List Channel) :=
  if d.nch = 0 then some []
  else if !c.covers d.chtab.toNat (32 * d.nch) (fun m => m.r) then none
  else
    (List.range d.nch).foldr (fun k acc =>
      match channelEntry li d k (fwBytes s c.num (d.chtab.toNat + 32 * k) 32), acc with
      | some e, some l => some (e :: l)
      | _, _ => none) (some [])

/-- The collective schedule table is readable and each of its entries is accepted; otherwise REASON 5. -/
def collTableOk (s : State) (c : Ctx) (d : Desc) : Bool :=
  d.colltab == 0 ||
    (c.covers d.colltab.toNat 16 (fun m => m.r) &&
      (let hd := fwBytes s c.num d.colltab.toNat 16
       let n := fieldLE hd 0 4
       (hd.drop 4).all (fun b => b == 0) && c.covers d.colltab.toNat (16 + 128 * n) (fun m => m.r) &&
        (List.range n).all (fun k =>
          (parseEntry (fwBytes s c.num (d.colltab.toNat + 16 + 128 * k) 128)).ok c.ports)))

/-! ## Refusal (R40, R41, R250) -/

/-- One block fits on an empty die of the context: the block of the grid with the fewest buffer bytes.
DESIGN CHOICE (log 15). -/
def blockFits (c : Ctx) (chans : List Channel) (d : Desc) : Bool :=
  let f := ((List.range (min d.blocks (chans.length + 1))).map (bufferBytes chans)).min?.getD 0
  c.bind != [] && (seat { uses := [], lines := [] } 0 d f 0).isSome

/-- The whole grid fits in the empty partition: a core holds at most 256 groups (R40, R41). -/
def gridFits (c : Ctx) (chans : List Channel) (d : Desc) : Bool :=
  decide (d.blocks ≤ 5120 * c.bind.length) && (seatGrid c.bind chans d { uses := [], lines := [] }).isSome

/-- The REASON for which a launch is refused, or its channels. DEDUCED (log 14). -/
def admissionCheck (s : State) (c : Ctx) (li : Nat) (d : Desc) : Except Nat (List Channel) :=
  let chans := channelTable s c li d
  if !d.ok c then .error 1
  else if !blockFits c (chans.getD []) d then .error 2
  else if (List.range 8).any (fun t => decide (c.quota.getD t 0 < d.orbReq.getD t 0)) then .error 3
  else
    match chans with
    | none => .error 4
    | some cs =>
      if !collTableOk s c d then .error 5
      else if d.progress == 0 && !gridFits c cs d then .error 6
      else .ok cs

/-! ## Block start (R22 to R24, R31, R38, R44, R56, R238) -/

/-- The lanes of a group below a linear id. -/
def lanesBelow (n g : Nat) : LaneMask := maskOf (fun L => decide (16 * g + L < n))

/-- A group at block start: registers zero, the uniform values of R24, ARM as its kernel's Xanuz record has it (R97, R111),
one split at the entry. DEDUCED (log 70). -/
def newGroup (bi : Nat) (b : Block) (l : Launch) (place : Placement) (i : Nat) : Group :=
  let d := l.desc
  let q := groupSpot d i
  let present := lanesBelow (4 * ((d.lanes + 3) / 4)) i
  let uni : List (Nat × Word) := [(0, d.args.extractLsb' 0 32), (1, d.args.extractLsb' 32 32), (2, BitVec.ofNat 32 b.x),
    (3, BitVec.ofNat 32 b.y), (4, BitVec.ofNat 32 b.z), (5, l.id), (6, BitVec.ofNat 32 i), (7, BitVec.ofNat 32 d.lanes)]
  { block := bi, idx := i, handler := none, die := b.die, core := place.cores.getD q.1 0, quarter := q.2,
    place := place.slots.getD i .first, present := present,
    helpers := present &&& ~~~(lanesBelow d.lanes i), ended := 0, retired := false, nv := d.vregs, ns := d.sregs,
    nt := d.tiles, na := d.accs, vec := [], uni := Tab.putAll 0 [] uni, pred := [], tile := [], scale := [], acc := [],
    carry := [], affine := 0, flags := 0, arm := l.arm, inflight := [], stream := none, cntL := 0, cntS := 0, cntC := 0, cntT := 0,
    splits := [Split.fresh 0 d.entry present], rets := List.replicate 16 [], faults := [] }

/-- The storage of a handler slot that no handler has used: its registers are zero (R38, R56). -/
def idleSlot (bi : Nat) (b : Block) (l : Launch) (h : Nat) : Group :=
  let q := handlerSpot l.desc h
  { block := bi, idx := h, handler := some { slot := h, issuer := 0, op := 0, seq := 0 }, die := b.die,
    core := b.cores.getD q.1 0, quarter := q.2, place := b.hplaces.getD h .first,
    present := 0xFFFF, helpers := 0, ended := 0xFFFF, retired := true, nv := 8 * l.desc.hvregs, ns := 16, nt := 0, na := 0,
    vec := [], uni := [], pred := [], tile := [], scale := [], acc := [], carry := [], affine := 0, flags := 0, arm := 0,
    inflight := [], stream := none, cntL := 0, cntS := 0, cntC := 0, cntT := 0, splits := [], rets := List.replicate 16 [], faults := [] }

/-- Block lin of a launch starts at a placement. DEDUCED (log 70). -/
def startBlock (li lin die : Nat) (place : Placement) (s : State) : State :=
  match s.launch? li with
  | none => s
  | some l =>
    let d := l.desc
    let bi := s.blocks.length
    let b : Block :=
      { launch := li, lin := lin, x := lin % d.gridX, y := lin / d.gridX % d.gridY, z := lin / (d.gridX * d.gridY), die := die,
        cores := place.cores, sbase := place.sbase, scratch := [], lines := [], barCount := [], hplaces := place.hslots,
        lastCores := [], saveArea := place.saveArea, stopped := false, complete := false, lastTime := none }
    let s := fwStore l.ctx place.saveArea.toNat
      (saveHeader 0 0 lin l.id.toNat l.descVa.toNat 0 []) s
    let s := { s with blocks := s.blocks ++ [b], groups := s.groups ++ (List.range d.groups).map (newGroup bi b l place) ++ (List.range d.hslots).map (idleSlot bi b l) }
    s.modLaunch li (fun l => { l with started := l.started ++ [lin] })

/-- The channels of a launch. -/
def State.channelsOf (s : State) (li : Nat) : List Channel := s.channels.filter (fun c => c.launch == li)

/-- The die of a block (R44). -/
def cohortDie (c : Ctx) (lin : Nat) : Nat := c.bind.getD (lin % c.bind.length) 0

/-- A block that waits to be resumed: evicted from its cores (R42, R45). -/
def evictedBlock (s : State) (li : Nat) : Option (Nat × Block) :=
  (s.blocks.zipIdx.map (fun (x : Block × Nat) => (x.2, x.1))).find? (fun x => x.2.launch == li && !x.2.complete && x.2.cores == [])

/-- The block of a linear index that waits to be resumed. -/
def evictedAt (s : State) (li lin : Nat) : Option (Nat × Block) :=
  (s.blocks.zipIdx.map (fun (x : Block × Nat) => (x.2, x.1))).find?
    (fun x => x.2.launch == li && x.2.lin == lin && !x.2.complete && x.2.cores == [])

/-- The lowest linear index of a launch's blocks that have not started. -/
def nextLin (l : Launch) : Option Nat :=
  (List.range (min l.desc.blocks (l.started.length + 1))).find? (fun k => !l.started.contains k)

/-- A block that may start next: the lowest one, or any one of a weakly parallel launch (R41). DEDUCED (log 16). -/
def startable (l : Launch) (lin : Nat) : Bool :=
  if l.desc.progress = 2 then decide (lin < l.desc.blocks) && !l.started.contains lin else nextLin l == some lin

/-- A launch may place blocks: admitted, in a running context. -/
def mayPlace (s : State) (l : Launch) (c : Ctx) : Bool :=
  l.phase == .admitted && c.state == .running && !c.stopping && !s.frozen

/-! ## Moving a block (R45, R46, R51) -/

/-- A lane access that pre-emption does not wait for: performed, parked for a replay, or waiting on an empty line. -/
def LaneAcc.haltable (l : LaneAcc) : Bool := l.stage == .done || l.stage == .parked || l.stage == .waitingEmpty

/-- The work of some groups is halted: accesses performed, instructions complete, matrix entries complete or cancelled,
operations that may not checkpoint ended, and no routine or service that has made an access still to end (R45, R85, R210,
R235). DEDUCED (log 20). -/
def haltDone (s : State) (gis : List Nat) (allEngines : Bool) : Bool :=
  s.routines.all (fun r => !gis.contains r.1) &&
  s.acc.all (fun a => !gis.contains a.group || a.lanes.all LaneAcc.haltable) &&
  s.groups.zipIdx.all (fun (x : Group × Nat) => !gis.contains x.2 || (x.1.inflight == [] && x.1.stream.isNone)) &&
  s.matq.all (fun m => !gis.contains m.group || m.cancelled) &&
  s.engines.all (fun o => !gis.contains o.group || o.finished || (!allEngines && !o.runsOn s))

/-- A queued entry that has not begun waits: on an empty line or on an outstanding TLD or TSTR (R210). -/
def matWaits (s : State) (m : MatEntry) : Bool := m.out.isNone && (m.emptySince != [] || tileBusy s m)

/-- The entries of some groups that a stop cancels: those that wait, and those behind one of these groups' that waits on the
same core (R210). -/
def cancelWaiting (gis : List Nat) (s : State) : State :=
  let stuck (before : List MatEntry) (m : MatEntry) : Bool :=
    (m :: before.filter (fun n => gis.contains n.group && n.die == m.die && n.core == m.core)).any (fun n =>
      n.cancelled || matWaits s n)
  { s with matq := s.matq.zipIdx.map (fun (x : MatEntry × Nat) =>
      if gis.contains x.1.group && x.1.out.isNone && stuck (s.matq.take x.2) x.1 then { x.1 with cancelled := true } else x.1) }

/-- The unfinished lanes of a split's wait on an empty line. -/
def emptyLanes (s : State) (id : Nat) : LaneMask :=
  match s.access? id with
  | some a => maskOf (fun L => a.lanes.any (fun l => l.lane == L && l.stage == .waitingEmpty))
  | none => 0

/-- A split abandons its wait: its program counter stays at the waiting instruction (R51). An access with a lane still to be
performed goes on until none is. -/
def abandonWait (gi si : Nat) (s : State) : State :=
  match (s.group? gi).bind (fun g => g.split? si) with
  | none => s
  | some p =>
    let clear (pend : LaneMask) (s : State) : State := s.modSplit gi si (fun p => { p with wait := .none, pend := pend })
    match p.wait with
    | .access id =>
      if (s.access? id).any (fun a => a.lanes.any (fun l => l.stage == .issued)) then s
      else clear (emptyLanes s id) (dropUnperformed id s)
    | .emulation _ => if s.routineAt gi si = 0 then clear p.pend s else s
    | .waitc _ _ _ _ | .evwait _ _ _ _ | .sleep _ _ | .chanSend _ _ | .chanRecv _ _ | .yield _ | .retire => clear p.pend s
    | .orbit op => clear p.pend { s with orbitOps := s.orbitOps.filter (fun o => o.id != op) }
    | _ => s

/-- A split starts anew: its age is zero and a join wait begins again (R36, R51). -/
def Split.rested (now : Nat) (p : Split) : Split := { p with age := 0, reserved := false, since := now }

/-- Every split of a group abandons its wait and starts anew. -/
def haltGroup (gi : Nat) (s : State) : State :=
  match s.group? gi with
  | none => s
  | some g =>
    let s := g.splits.foldl (fun s p => abandonWait gi p.idx s) s
    s.modGroup gi (fun g => { g with splits := g.splits.map (Split.rested s.now) })

/-- The stop request reaches the groups of a block or a context: waits are abandoned and waiting entries cancelled
(R51, R210, R235 steps 1 to 4). DEDUCED (log 20). -/
def stopGroups (gis : List Nat) (s : State) : State := gis.foldl (fun s gi => haltGroup gi s) (cancelWaiting gis s)

/-- Sectors that an operation has written itself. -/
def EngineOp.writtenKeys (s : State) (o : EngineOp) : List LineKey :=
  o.writesDone.filterMap (fun v =>
    match o.place s v .w with
    | .ok sp pa => some (sectorKey s o.ctx sp pa)
    | _ => none) ++
  o.swritesDone.map (fun v => (Space.scratch, o.block, v))

/-- The sectors of an operation's unfinished moves, and of bursts that have never been born, are read again after a
checkpoint; a stored tile is not, nor a sector that a finished row of the operation has overwritten (R182, R193).
DEDUCED (log 21). -/
def EngineOp.checkpoint (s : State) (o : EngineOp) : EngineOp :=
  if o.finished || (o.coll.map (fun c => c.localDone)).getD false then o
  else
    let open_ (p : Place) : Bool :=
      match p with
      | .mem b => !o.writesDone.contains (b / 256)
      | .spad b => !o.swritesDone.contains (b / 256)
      | _ => true
    let srcs := (o.moves.filter (fun m => open_ m.dst)).map (fun m => m.src) ++
      (o.bursts.filter (fun b => !b.ended && b.kept.isNone)).flatMap (fun b => b.bits)
    let gone := o.writtenKeys s
    let lost (v : Nat) : Bool :=
      match o.place s v .r with
      | .ok sp pa => gone.contains (sectorKey s o.ctx sp pa)
      | _ => false
    let again := (memSectors srcs).filter (fun v => !lost v)
    let spads := (spadSectors srcs).filter (fun v => !gone.contains (.scratch, o.block, v))
    { o with readsDone := o.readsDone.filter (fun v => !again.contains v),
             sreadsDone := o.sreadsDone.filter (fun v => !spads.contains v), emptySince := [],
             bursts := o.bursts.map (fun b => if b.ended then b else { b with born := false }) }

/-- The handlers of a block that have not ended leave, once they have been saved as groups; each is born again from its
burst (R193). DEDUCED (log 20). -/
def withdrawHandlers (bi : Nat) (s : State) : State :=
  let mine (g : Group) : Bool := g.block == bi && g.handler.isSome && !g.retired
  let gis := ((s.groups.zipIdx).filter (fun (x : Group × Nat) => mine x.1)).map (fun x => x.2)
  { s with
    groups := s.groups.map (fun g => if mine g then { g with splits := [], retired := true, stream := none, faults := [] } else g),
    acc := s.acc.filter (fun a => !gis.contains a.group),
    engines := (s.engines.filter (fun o => !gis.contains o.group)).map (fun o => if o.block = bi then o.checkpoint s else o) }

/-- The groups of a block, handlers included. -/
def State.blockGroups (s : State) (bi : Nat) : List Nat :=
  ((s.groups.zipIdx).filter (fun (x : Group × Nat) => x.1.block == bi && !x.1.retired)).map (fun x => x.2)

/-- Those that a stop request halts: the handlers of a request that runs to its end go on (R193). DEDUCED (log 94). -/
def State.haltGroups (s : State) (gis : List Nat) : List Nat :=
  gis.filter (fun gi => (s.group? gi).any (fun g => !g.retired && !awaitedHandler s g))

/-- A block's groups halt; the counter at the stop is kept (R368). DEDUCED (log 20). -/
def haltBlock (bi : Nat) (s : State) : State :=
  ((s.blockGroups bi).foldl (fun s gi => haltGroup gi s) s).modBlock bi (fun b => { b with lastTime := some (s.timeOf b.die) })

/-- A block leaves its cores: its groups and handlers halt and are saved, and its engine operations checkpoint (R193, R235
steps 5 to 7). DEDUCED (log 20). -/
def saveBlock (bi : Nat) (s : State) : State := withdrawHandlers bi (writeSave bi (haltBlock bi s))

/-- The private granules of the block's old cores follow it, or become SHARED while another block of its context remains
there; their lines leave the old cores (R46). -/
def movePrivate (bi cn : Nat) (oldDie : Nat) (old : List Nat) (newDie : Nat) (new : List Nat) (s : State) : State :=
  let others (k : Nat) : Bool :=
    (s.ctxBlocks cn).any (fun b => b.1 != bi && b.2.die == oldDie && b.2.cores.contains k)
  let frames := ((s.ctx? cn).map (fun c => c.maps)).getD []
  let owned (n : Nat) : Bool :=
    frames.any (fun m => m.space == .hbm && decide (m.target ≤ 4096 * n) && decide (4096 * n < m.target + m.pages * m.psize))
  let left (l : L1Line) : Bool :=
    match (s.granule (l.line / 32)).cls with
    | .private_ d k _ => decide (d = oldDie) && old.contains k && l.die == d && l.core == k && owned (l.line / 32)
    | _ => false
  let stays := decide (oldDie = newDie) && decide (old = new)
  { s with
    l1 := s.l1.filter (fun l => stays || !left l),
    granules := s.granules.map (fun g =>
      match g.cls with
      | .private_ d k dirty =>
        match old.findIdx? (fun c => decide (d = oldDie) && c == k) with
        | some j =>
          let k' := new.getD j 0
          if (d = newDie ∧ k = k') ∨ owned g.num = false then g
          else if others k then { g with cls := .shared, holders := [] }
          else { g with cls := .private_ newDie k' dirty, holders := [.core newDie k'] }
        | none => g
      | _ => g) }

/-- A block's groups take new places. -/
def reseatBlock (bi die : Nat) (place : Placement) (s : State) : State :=
  match (s.block? bi).bind (fun b => (s.launch? b.launch).map (fun l => l.desc)) with
  | none => s
  | some d =>
    let s : State := { s with groups := s.groups.map (fun (g : Group) =>
      if g.block ≠ bi then g
      else
        match g.handler with
        | none =>
          if g.retired then g
          else
            let q := groupSpot d g.idx
            { g with die := die, core := place.cores.getD q.1 0, quarter := q.2, place := place.slots.getD g.idx g.place,
                     splits := g.splits.map (Split.rested s.now) }
        | some h =>
          let q := handlerSpot d h.slot
          { g with die := die, core := place.cores.getD q.1 0, quarter := q.2, place := place.hslots.getD h.slot g.place }) }
    let s : State := { s with matq := s.matq.map (fun (m : MatEntry) =>
      match s.group? m.group with
      | some g => if g.block = bi then { m with die := g.die, core := g.core, lines := m.lines, latch := [], emptySince := [] } else m
      | none => m) }
    s.modBlock bi (fun b => { b with die := die, cores := place.cores, sbase := place.sbase, hplaces := place.hslots,
                                     stopped := false })

/-- A stopped block resumes on a die at a placement, with its private granules moved from the cores that it last held.
DEDUCED (log 19). -/
def resumeBlock (bi die : Nat) (place : Placement) (oldDie : Nat) (old : List Nat) (s : State) : State :=
  match (s.block? bi).bind (fun b => s.launch? b.launch) with
  | none => s
  | some l => reseatBlock bi die place (movePrivate bi l.ctx oldDie old die place.cores s)

/-- The save area of a block, which firmware reads before the block resumes (R151, R237). -/
def saveRun (s : State) (l : Launch) (b : Block) : FwRun :=
  let cs := s.channels.filter (fun c => c.launch == b.launch)
  (l.ctx, b.saveArea.toNat, saveSize l.desc cs.length (bufferBytes cs b.lin))

/-- BLOCK_START: a block of the launch starts, or an evicted one is read back from its valid save area and resumes, where
the placement has room (R41, R44, R45, R237, R238). DEDUCED (log 16). -/
def execBlockStart (li lin : Nat) (place : Placement) (s : State) : Host.Outcome State Fault Refusal :=
  .next (match (s.launch? li).bind (fun l => (s.ctx? l.ctx).map (fun c => (l, c))) with
    | none => s
    | some (l, c) =>
      if !mayPlace s l c then s
      else
        match evictedAt s li lin with
        | some (bi, b) =>
          let die := cohortDie c b.lin
          if placementOk (occupied s none) die l.desc (bufferBytes (s.channelsOf li) b.lin) place && saveValid s l.ctx b then
            fwRead [saveRun s l b] (fun s => readSave bi (resumeBlock bi die place b.die b.lastCores s)) s
          else s
        | none =>
          let die := cohortDie c lin
          let f := bufferBytes (s.channelsOf li) lin
          if startable l lin && placementOk (occupied s none) die l.desc f place &&
              areaOk s c place.saveArea.toNat (saveSize l.desc (s.channelsOf li).length f) then
            startBlock li lin die place s
          else s)

/-! ## Admission (R40 to R42) -/

/-- The value of an event word that a launch depends on; none when its page is not mapped. -/
def depValue (s : State) (cn : Nat) (va : DWord) : Option Nat :=
  ((s.ctx? cn).bind (fun c => mapFind c.maps va.toNat)).map (fun _ => natLE (fwBytes s cn va.toNat 8))

/-- Every event that a launch depends on has reached its value. -/
def depsReached (s : State) (l : Launch) : Bool :=
  l.deps.all (fun d => ((depValue s l.ctx d.1).map (fun v => decide (d.2.toNat ≤ v))).getD false)

/-- The placements and save areas of a concurrent launch's whole grid beside what runs. -/
def wholeGrid (s : State) (c : Ctx) (chans : List Channel) (d : Desc) : Option (List (Nat × Placement)) :=
  seatGrid c.bind chans d (occupied s none)

/-- A launch that admission accepts can be admitted now: a concurrent one waits, and those after it in the arbitration with
it, until its whole grid and its save areas have room (R41, R42). -/
def hasRoom (s : State) (c : Ctx) (cs : List Channel) (d : Desc) : Bool :=
  d.progress != 0 ||
    ((wholeGrid s c cs d).isSome &&
      (findArea s c (((List.range d.blocks).map (fun b => saveSize d cs.length (bufferBytes cs b))).sum + 16 * d.blocks)).isSome)

/-- The queues of a partition whose head is eligible: priority, context, queue and launch. -/
def eligibleHeads (s : State) (part : Nat) : List (Nat × Nat × Nat × Nat) :=
  s.ctxs.flatMap (fun c =>
    if c.part = part ∧ (c.state = .ready ∨ c.state = .running) ∧ c.stopping = false then
      (c.queues.zipIdx).filterMap (fun (q : HostQueue × Nat) =>
        match q.1.waiting with
        | li :: _ =>
          (s.launch? li).bind (fun l =>
            if depsReached s l then some (q.1.prio, c.num, q.2, li) else none)
        | [] => none)
    else [])

/-- The head that is served next: the highest priority, then round-robin after the queue served last (R42). -/
def pickHead (s : State) (part : Nat) : Option (Nat × Nat × Nat × Nat) :=
  let hs := eligibleHeads s part
  let top := (hs.map (fun h => h.1)).foldl max 0
  let key (h : Nat × Nat × Nat × Nat) : Nat := h.2.1 * 64 + h.2.2.1
  let least (l : List (Nat × Nat × Nat × Nat)) : Option (Nat × Nat × Nat × Nat) :=
    l.foldl (fun m h => match m with
      | none => some h
      | some n => if key h < key n then some h else some n) none
  let mine := hs.filter (fun h => h.1 == top)
  let last := s.rrLast.get 0 (part * 8 + top)
  (least (mine.filter (fun h => decide (last < key h + 1)))).orElse (fun _ => least mine)

/-- The blocks of a concurrent launch start together, each with its save area. DEDUCED (log 16). -/
def startAll (li : Nat) (c : Ctx) : List (Nat × Placement) → State → State
  | [], s => s
  | (lin, p) :: rest, s =>
    let n := ((s.launch? li).map (fun l =>
      saveSize l.desc (s.channelsOf li).length (bufferBytes (s.channelsOf li) lin))).getD 0
    let area := BitVec.ofNat 64 ((findArea s c n).getD 0)
    startAll li c rest (startBlock li lin (cohortDie c lin) { p with saveArea := area } s)

/-- The event words that the waiting heads of a partition depend on, which firmware reads (R42, R151). -/
def depRuns (part : Nat) (s : State) : List FwRun :=
  (s.ctxs.filter (fun c => c.part == part)).flatMap (fun c =>
    (c.queues.filterMap (fun q => q.waiting.head?.bind s.launch?)).flatMap (fun l => l.deps.map (fun d => (c.num, d.1.toNat, 8))))

/-- The tables of a launch, which it reads at admission (R151, R224, R253). -/
def tableRuns (cn : Nat) (d : Desc) (s : State) : List FwRun :=
  let n := if d.colltab = 0 then 0 else fieldLE (fwBytes s cn d.colltab.toNat 16) 0 4
  (if d.nch = 0 then [] else [(cn, d.chtab.toNat, 32 * d.nch)]) ++
    (if d.colltab = 0 then [] else [(cn, d.colltab.toNat, 16 + 128 * n)])

/-- The head at the front of the arbitration is admitted or refused. -/
def admitHead (part prio cn qn li : Nat) (l : Launch) (c : Ctx) (s : State) : State :=
  let pop (s : State) : State :=
    { s with rrLast := s.rrLast.put 0 (part * 8 + prio) (cn * 64 + qn + 1) }.modCtx cn (fun c =>
      { c with queues := modNth (fun q => { q with waiting := q.waiting.drop 1 }) c.queues qn })
  match admissionCheck s c li l.desc with
  | .error r => endLaunch li (.refused r) (pop s)
  | .ok cs =>
    if !hasRoom s c cs l.desc then s
    else
      let grid := if l.desc.progress = 0 then (wholeGrid s c cs l.desc).getD [] else []
      let s := ((pop s).modLaunch li (fun l => { l with phase := .admitted })).modCtx cn (fun c => { c with state := .running })
      startAll li c grid { s with channels := s.channels ++ cs }

/-- LAUNCH_ADMISSION: the next eligible launch of a partition is admitted or refused (R40 to R42, R250).
DEDUCED (log 16). -/
def execLaunchAdmission (part : Nat) (s : State) : Host.Outcome State Fault Refusal :=
  .next (
    if s.frozen then s
    else
      fwRead (depRuns part s) (fun s =>
        match pickHead s part with
        | none => s
        | some (prio, cn, qn, li) =>
          match s.launch? li, s.ctx? cn with
          | some l, some c => fwRead (tableRuns cn l.desc s) (admitHead part prio cn qn li l c) s
          | _, _ => s) s)

/-! ## Completion (R32, R228, R250) -/

/-- A block's groups have retired, its handlers ended and its engine operations completed. -/
def blockEnded (s : State) (bi : Nat) : Bool :=
  s.groups.all (fun g => g.block != bi || g.retired) && s.engines.all (fun o => o.block != bi || o.finished) &&
    s.acc.all (fun a => ((s.group? a.group).map (fun g => g.block != bi)).getD true)

/-- The channel instructions that wait when a block completes take CHN (R228). -/
def channelWaiters (li lin : Nat) (s : State) : State :=
  (s.groups.zipIdx).foldl (fun s (x : Group × Nat) =>
    x.1.splits.foldl (fun s p =>
      let hit : Option Nat :=
        match p.wait with
        | .chanSend l ch => if l = li ∧ ((s.channel? l ch).map (fun c => c.cons == lin)).getD false then some ch else none
        | .chanRecv l ch =>
          if l = li ∧ ((s.channel? l ch).map (fun c => c.prod == lin && c.count == 0)).getD false then some ch else none
        | _ => none
      match hit with
      | some ch => takeTrap x.2 p.idx .chn (BitVec.ofNat 64 ch) (p.act &&& ~~~x.1.helpers) 0 s
      | none => s) s) s

/-- Data left in the buffers that a block consumes is discarded (R228). -/
def discardBuffers (li lin : Nat) (s : State) : State :=
  { s with channels := s.channels.map (fun c => if c.launch = li ∧ c.cons = lin then { c with count := 0 } else c) }

/-- BLOCK_COMPLETE: the block's save area returns to the pool, and the last block completes its launch. -/
def execBlockComplete (bi : Nat) (s : State) : Host.Outcome State Fault Refusal :=
  .next (match s.block? bi with
    | none => s
    | some b =>
      if b.complete || !onCores s bi || !blockEnded s bi then s
      else
        let s := s.modBlock bi (fun b => { b with complete := true })
        let s := discardBuffers b.launch b.lin (channelWaiters b.launch b.lin s)
        let s := s.modLaunch b.launch (fun l => { l with finished := l.finished + 1 })
        match s.launch? b.launch with
        | none => s
        | some l =>
          if l.phase = .admitted ∧ l.finished = l.desc.blocks then endLaunch b.launch .completed s else s)

/-! ## Pre-emption and migration of blocks (R42, R45) -/

/-- The priority of a launch's queue. -/
def launchPrio (s : State) (l : Launch) : Nat :=
  (((s.ctx? l.ctx).bind (fun c => c.queues[l.queue]?)).map (fun q => q.prio)).getD 0

/-- A launch of a higher priority of the partition lacks room for a block. -/
def higherWaits (s : State) (c : Ctx) (l : Launch) : Bool :=
  s.launches.any (fun m =>
    ((s.ctx? m.ctx).map (fun d => d.part == c.part && (d.state == .ready || d.state == .running))).getD false &&
    decide (launchPrio s l < launchPrio s m) &&
    ((m.phase == .admitted && (nextLin m).isSome) || (m.phase == .queued && depsReached s m)))

/-- A stop of a block that is withdrawn: its splits start anew where they stand (R51). -/
def withdrawStop (bi : Nat) (s : State) : State :=
  { s with groups := s.groups.map (fun (g : Group) => if g.block = bi then { g with splits := g.splits.map (Split.rested s.now) } else g) }.modBlock bi
    (fun b => { b with stopped := false })

/-- BLOCK_PREEMPTION: a resident block of a weakly parallel launch stops for a launch of a higher priority; the event
that finds its work halted evicts it, and a stop that no launch needs any more is withdrawn. DEDUCED (log 20). -/
def execBlockPreemption (bi : Nat) (s : State) : Host.Outcome State Fault Refusal :=
  .next (match (s.block? bi).bind (fun b => (s.launch? b.launch).bind (fun l => (s.ctx? l.ctx).map (fun c => (b, l, c)))) with
    | none => s
    | some (b, l, c) =>
      if l.desc.progress ≠ 2 ∨ l.phase ≠ .admitted ∨ c.state ≠ .running ∨ b.complete ∨ b.cores = [] then s
      else if higherWaits s c l = false then
        (if b.stopped then withdrawStop bi s else s)
      else
        let s := stopGroups (s.haltGroups (s.blockGroups bi)) (s.modBlock bi (fun b => { b with stopped := true }))
        if haltDone s (s.blockGroups bi) false then (saveBlock bi s).modBlock bi (fun b => { b with cores := [], sbase := [], lastCores := b.cores })
        else s)

/-- MIGRATION: a block stops; once its work is halted, the migration point moves its private granules and it resumes at
the new placement (R45, R46). A block of a concurrent launch migrates only with its context (R41). DEDUCED (log 20). -/
def execMigration (bi : Nat) (place : Placement) (s : State) : Host.Outcome State Fault Refusal :=
  .next (match (s.block? bi).bind (fun b => (s.launch? b.launch).bind (fun l => (s.ctx? l.ctx).map (fun c => (b, l, c)))) with
    | none => s
    | some (b, l, c) =>
      if !mayPlace s l c || b.complete || b.cores == [] || l.desc.progress == 0 ||
          !placementOk (occupied s (some bi)) b.die l.desc (bufferBytes (s.channelsOf b.launch) b.lin) place then s
      else
        let s := stopGroups (s.haltGroups (s.blockGroups bi)) (s.modBlock bi (fun b => { b with stopped := true }))
        if haltDone s (s.blockGroups bi) false then
          resumeBlock bi b.die place b.die b.cores (withdrawHandlers bi (haltBlock bi s))
        else s)

/-! ## Kill (R169, R213, R228, R241) -/

/-- The groups of a context. -/
def State.ctxGroups (s : State) (cn : Nat) : List Nat :=
  ((s.groups.zipIdx).filter (fun (x : Group × Nat) => s.groupCtx x.1 == cn)).map (fun x => x.2)

/-- Slots tagged with a context are cleared and their tags returned. -/
def clearSlots (cn : Nat) (s : State) : State :=
  { s with slots := s.slots.filter (fun x => x.2.tag.toNat != cn) }

/-- The schedule entries of a context's unfinished launches, with their addresses, where their tables are accepted (R253). -/
def ctxEntries (s : State) (c : Ctx) : List (Nat × SchedEntry) :=
  s.launches.flatMap (fun l =>
    if l.ctx = c.num ∧ (l.phase = .queued ∨ l.phase = .admitted) ∧ l.desc.colltab ≠ 0 ∧ collTableOk s c l.desc = true then
      (List.range (fieldLE (fwBytes s c.num l.desc.colltab.toNat 4) 0 4)).map (fun k =>
        let va := (tableEntry l.desc.colltab k).toNat
        (va, parseEntry (fwBytes s c.num va 128)))
    else [])

/-- The peers of a killed context learn of the kill: those of its collectives that run, and those of every schedule entry, whose
later operations will not come (R256). DEDUCED (log 23). -/
def tellPeers (cn : Nat) (s : State) : State :=
  let entries := ((s.ctx? cn).map (ctxEntries s)).getD []
  let s := s.engines.foldl (fun s o =>
    match o.coll with
    | some c => if o.ctx = cn ∧ o.finished = false then tellEnd c .ended s else s
    | none => s) s
  entries.foldl (fun s e =>
    ((List.range e.2.ndev).filter (fun r => r != e.2.rank && e.2.ports.getD r 0xFF != 0xFF)).foldl (fun s r =>
      sendMsg e.2.ports e.2.session (collIndex s cn e.1 e.2.session) .dead [] r s) s) s

/-- A kill of a context with a subcode. DEDUCED (log 23). -/
def killCtx (cn sub : Nat) (s : State) : State :=
  match s.ctx? cn with
  | none => s
  | some c =>
    if c.state = .killed then s
    else
      let gis := s.ctxGroups cn
      let lis := ((s.launches.zipIdx).filter (fun (x : Launch × Nat) => x.1.ctx == cn)).map (fun x => x.2)
      let s := clearSlots cn (tellPeers cn s)
      let s : State := { s with
        groups := s.groups.zipIdx.map (fun (x : Group × Nat) =>
          if gis.contains x.2 then { x.1 with splits := [], retired := true, inflight := [], stream := none } else x.1),
        acc := s.acc.filter (fun a => !gis.contains a.group),
        engines := s.engines.filter (fun o => o.ctx != cn),
        matq := s.matq.filter (fun m => !gis.contains m.group),
        orbitOps := s.orbitOps.filter (fun o => !gis.contains o.group),
        routines := s.routines.filter (fun r => !gis.contains r.1),
        channels := s.channels.filter (fun c => !lis.contains c.launch),
        offers := s.offers.filter (fun o => match o.2.1 with
          | .emulationComplete gi _ _ | .svcServiceComplete gi _ _ => !gis.contains gi
          | _ => true) }
      let unfinished := lis.filter (fun li => ((s.launch? li).map (fun l => l.phase == .queued || l.phase == .admitted)).getD false)
      let stopped := c.stopping
      let s := if stopped then (s.ctxBlocks cn).foldl (fun s b => spoilSave cn b.2.saveArea s) s else s
      let s : State := { s with blocks := s.blocks.map (fun (b : Block) => if lis.contains b.launch then { b with complete := true } else b) }
      let s := s.modCtx cn (fun c => { c with state := .killed, reason := some .kill, stopping := false,
                                               saveCmd := none, svclog := List.replicate 16 none, queues := c.queues.map (fun q => { q with waiting := [] }) })
      let s := match c.saveCmd with
        | some cmd => complete cmd 4 0 s
        | none => s
      let s := unfinished.foldl (fun s li => endLaunch li .killed s) s
      let s := appendRecord cn (splitlessRecord .kill 0 (BitVec.ofNat 64 sub)) s
      assignCalls (flushTraps cn (((s.ctx? cn).map (fun c => c.traps.length)).getD 0) s)

end Sys2Proof.Machine
end

