-- ==== Sys2Proof/Machine/CodeObject.lean ====
section
/-! DEFINITION. Code objects: the file that the loader reads, its checks, its image, the commands that bring it into a
context, and what a Xanuz module may hold (R94 to R98). The machine itself executes what these leave in memory. -/

namespace Sys2Proof.Machine

open Sys2Proof

/-! ## The file (R94, R95, R97) -/

/-- A section entry. -/
structure ImgSection where
  kind : Nat
  align : Nat
  fileOff : Nat
  imgOff : Nat
  size : Nat
deriving DecidableEq, Repr

/-- A symbol entry. -/
structure Sym where
  name : Nat
  sect : Nat
  bind : Nat
  skind : Nat
  value : Nat
  size : Nat
deriving DecidableEq, Repr

/-- A relocation entry; `zero` holds its reserved bytes. -/
structure Reloc where
  sect : Nat
  rkind : Nat
  zero : Nat
  sym : Nat
  offset : Nat
  addend : DWord
deriving DecidableEq, Repr

/-- The Xanuz record of a kernel and the image offsets of its BAR instructions. -/
structure Xanuz where
  forms : Nat
  arm : Nat
  bars : List Nat
  zero : Nat
deriving DecidableEq, Repr

/-- A kernel descriptor; `zero` holds its reserved bytes. -/
structure Kernel where
  entry : Nat
  blk : List Nat
  cores : Nat
  progress : Nat
  vregs : Nat
  sregs : Nat
  tiles : Nat
  accs : Nat
  hslots : Nat
  hvregs : Nat
  scratch : Nat
  nch : Nat
  emptyExp : Nat
  chtab : Nat
  orbReq : List Nat
  name : Nat
  zero : Nat
  xanuz : Option Xanuz
deriving DecidableEq, Repr

/-- A code object as its header and tables give it; `strtab` is the file offset of the names. -/
structure CodeObject where
  magic : Nat
  version : Nat
  gen : Nat
  flags : Nat
  strtab : Nat
  sections : List ImgSection
  symbols : List Sym
  relocs : List Reloc
  kernels : List Kernel
deriving DecidableEq, Repr

def parseSection (bs : List Byte) (o : Nat) : ImgSection :=
  { kind := fieldLE bs o 4, align := fieldLE bs (o + 4) 4, fileOff := fieldLE bs (o + 8) 8, imgOff := fieldLE bs (o + 16) 8,
    size := fieldLE bs (o + 24) 8 }

def parseSym (bs : List Byte) (o : Nat) : Sym :=
  { name := fieldLE bs o 4, sect := fieldLE bs (o + 4) 1, bind := fieldLE bs (o + 5) 1, skind := fieldLE bs (o + 6) 2,
    value := fieldLE bs (o + 8) 8, size := fieldLE bs (o + 16) 8 }

def parseReloc (bs : List Byte) (o : Nat) : Reloc :=
  { sect := fieldLE bs o 1, rkind := fieldLE bs (o + 1) 1, zero := fieldLE bs (o + 2) 2, sym := fieldLE bs (o + 4) 4,
    offset := fieldLE bs (o + 8) 8, addend := BitVec.ofNat 64 (fieldLE bs (o + 16) 8) }

def parseXanuz (bs : List Byte) (o : Nat) : Xanuz :=
  { forms := fieldLE bs o 1, arm := fieldLE bs (o + 1) 1,
    bars := (List.range (fieldLE bs (o + 2) 2)).map (fun k => fieldLE bs (fieldLE bs (o + 8) 8 + 8 * k) 8),
    zero := fieldLE bs (o + 4) 4 + fieldLE bs (o + 16) 16 }

def parseKernel (bs : List Byte) (xan : Bool) (o : Nat) : Kernel :=
  { entry := fieldLE bs o 8, blk := (List.range 3).map (fun d => fieldLE bs (o + 8 + 2 * d) 2), cores := fieldLE bs (o + 14) 1,
    progress := fieldLE bs (o + 15) 1, vregs := fieldLE bs (o + 16) 2, sregs := fieldLE bs (o + 18) 2,
    tiles := fieldLE bs (o + 20) 1, accs := fieldLE bs (o + 21) 1, hslots := fieldLE bs (o + 22) 1,
    hvregs := fieldLE bs (o + 23) 1, scratch := fieldLE bs (o + 24) 4, nch := fieldLE bs (o + 28) 1,
    emptyExp := fieldLE bs (o + 29) 1, chtab := fieldLE bs (o + 32) 8,
    orbReq := (List.range 8).map (fun t => fieldLE bs (o + 40 + 2 * t) 2), name := fieldLE bs (o + 56) 4,
    zero := fieldLE bs (o + 30) 2 + fieldLE bs (o + 60) 4, xanuz := if xan then some (parseXanuz bs (o + 64)) else none }

/-- The file's header and tables; no check is made here. DESIGN CHOICE (log 72). -/
def parseObject (bs : List Byte) : CodeObject :=
  let flags := fieldLE bs 8 4
  let xan := flags / 2 % 2 == 1
  { magic := fieldLE bs 0 4, version := fieldLE bs 4 2, gen := fieldLE bs 6 2, flags := flags,
    strtab := fieldLE bs 56 8,
    sections := (List.range 4).map (fun k => parseSection bs (fieldLE bs 16 8 + 32 * k)),
    symbols := (List.range (fieldLE bs 12 4)).map (fun k => parseSym bs (fieldLE bs 24 8 + 24 * k)),
    relocs := (List.range (fieldLE bs 40 4)).map (fun k => parseReloc bs (fieldLE bs 32 8 + 24 * k)),
    kernels := (List.range (fieldLE bs 44 4)).map (fun k =>
      parseKernel bs xan (fieldLE bs 48 8 + (if xan then 96 else 64) * k)) }

/-- The bytes of a zero-terminated name at an offset of STRTAB (R94). -/
def CodeObject.nameAt (o : CodeObject) (bs : List Byte) (off : Nat) : List Byte :=
  (bs.drop (o.strtab + off)).takeWhile (fun b => b != 0)

/-- The kernel of a name, and the symbol. -/
def CodeObject.kernelNamed (o : CodeObject) (bs name : List Byte) : Option Kernel :=
  o.kernels.find? (fun k => o.nameAt bs k.name == name)
def CodeObject.symNamed (o : CodeObject) (bs name : List Byte) : Option Sym :=
  o.symbols.find? (fun y => o.nameAt bs y.name == name)

/-! ## The image and the loader's checks (R94, R96) -/

/-- Why the loader refuses a file. -/
inductive LoadError where
  /-- MAGIC, VERSION or GEN is wrong -/
  | magic | version | gen
  /-- a reserved field is nonzero, or an RKIND is not 1 -/
  | reserved | rkind
  /-- a relocation in .text that is not at the first word of a literal -/
  | literal
  /-- an instruction of a Xanuz module that R98 excludes, at its image offset -/
  | thread (offset : Nat)
  /-- a Xanuz kernel without a permitted form, with an extent outside 1 to 16,384, or whose BARLIST does not ascend -/
  | forms | extent | barList
deriving DecidableEq, Repr

def sectionBytes (bs : List Byte) (c : ImgSection) : List Byte := (bs.drop c.fileOff).take c.size

/-- The image: each section at its place, zeros between them. -/
def CodeObject.image (o : CodeObject) (bs : List Byte) : List Byte :=
  o.sections.foldl (fun img c => if c.size = 0 then img else padTo c.imgOff img ++ sectionBytes bs c) []

/-- The words of .text, each instruction's offset in words with its decoding, in order. -/
def sweepText (ws : List Word) : Nat → Nat → List (Nat × Nat × Except DecodeError Instr)
  | 0, _ => []
  | fuel + 1, at_ =>
    match ws.drop at_ with
    | [] => []
    | w :: rest => (at_, lenOf w, (decode (w :: rest)).map (·.1)) :: sweepText ws fuel (at_ + wordCount (lenOf w))

def CodeObject.text (o : CodeObject) (bs : List Byte) : List (Nat × Nat × Except DecodeError Instr) :=
  match o.sections with
  | c :: _ => let ws := wordsOfBytes (sectionBytes bs c); sweepText ws ws.length 0
  | [] => []

/-- The byte offsets of the first words of the literals in .text. -/
def CodeObject.literals (o : CodeObject) (bs : List Byte) : List Nat :=
  (o.text bs).filterMap (fun x => if 2 ≤ x.2.1 then some (4 * (x.1 + wordCount x.2.1 - 2)) else none)

/-- Step 1 of R96 and the rule of step 3 for .text. DESIGN CHOICE (log 72). -/
def CodeObject.refusal (o : CodeObject) (bs : List Byte) : Option LoadError :=
  if o.magic ≠ 0x4F424E42 then some .magic
  else if o.version ≠ 1 then some .version
  else if o.gen < 1 ∨ 3 < o.gen then some .gen
  else if 4 ≤ o.flags ∨ o.relocs.any (fun r => r.zero != 0) ∨ o.kernels.any (fun k => k.zero != 0 ||
      (match k.xanuz with | some x => x.zero != 0 || decide (64 ≤ x.arm) | none => false)) then some .reserved
  else if o.relocs.any (fun r => r.rkind != 1) then some .rkind
  else if o.relocs.any (fun r => r.sect == 0 && !(o.literals bs).contains r.offset) then some .literal
  else none

/-- Step 3 of R96: every relocation writes base + VALUE + ADDEND as 64 bits. -/
def CodeObject.relocated (o : CodeObject) (bs : List Byte) (base : Nat) : List Byte :=
  o.relocs.foldl (fun img r =>
    match o.sections[r.sect]?, o.symbols[r.sym]? with
    | some c, some y =>
      let p := c.imgOff + r.offset
      img.take p ++ bytesLE 8 (base + y.value + r.addend.toNat) ++ img.drop (p + 8)
    | _, _ => img) (o.image bs)

/-- The permissions of a section by its kind (step 4 of R96), as bits of the attributes of MAP. -/
def sectionAttr (kind : Nat) : BitVec 8 :=
  match kind with
  | 0 => 4
  | 1 | 2 => 1
  | _ => 3

/-- Steps 2 to 5 of R96 as commands and host writes, by the driver that supplies a base, the commands' rings and the frames:
each section mapped at its place behind the base, its relocated bytes written to the frames, and the range invalidation of
.text. DESIGN CHOICE (log 72). -/
def CodeObject.loadTurns (o : CodeObject) (bs : List Byte) (base : Nat) (cmd : Nat → Cmd) (frame : Nat → Nat) : List Instr :=
  let img := o.relocated bs base
  o.sections.zipIdx.flatMap (fun (x : ImgSection × Nat) =>
    if x.1.size = 0 then []
    else
      let body := (img.drop x.1.imgOff).take x.1.size
      .map (cmd x.2) { va := BitVec.ofNat 64 (base + x.1.imgOff), target := BitVec.ofNat 64 (frame x.2),
                       pages := (x.1.size + 65535) / 65536, psize := 0, attr := sectionAttr x.1.kind, report := 0,
                       rest := List.replicate 10 0 } ::
        (List.range ((x.1.size + 4095) / 4096)).map (fun j =>
          Instr.hostAccess (frame x.2 + 4096 * j) (.write ((body.drop (4096 * j)).take 4096)))) ++
  [.icacheInval (cmd 4) (BitVec.ofNat 64 base) ((o.sections[0]?.map (fun c => c.size)).getD 0)]

/-- The launch descriptor that the driver makes of a kernel (R95), with what the caller supplies. DESIGN CHOICE (log 72). -/
def Kernel.desc (k : Kernel) (base : Nat) (gx gy gz : Nat) (args done colltab : DWord) : Desc :=
  { entry := BitVec.ofNat 64 (base + k.entry), args := args, gridX := gx, gridY := gy, gridZ := gz, blkX := k.blk.getD 0 0,
    blkY := k.blk.getD 1 0, blkZ := k.blk.getD 2 0, cores := k.cores, progress := k.progress, vregs := k.vregs,
    sregs := k.sregs, tiles := k.tiles, accs := k.accs, hslots := k.hslots, hvregs := k.hvregs, scratch := k.scratch,
    chtab := if k.chtab = 0 then 0 else BitVec.ofNat 64 (base + k.chtab), nch := k.nch, emptyExp := k.emptyExp,
    colltab := colltab, done := done, orbReq := k.orbReq, reservedZero := true }

/-! ## Xanuz modules (R97, R98) -/

/-- The registers of a kernel's declared counts hold every register that an instruction names. -/
def Kernel.limitsOk (k : Kernel) (i : Instr) : Bool :=
  i.opnds.all (fun o => decide (o.first + o.count ≤
    match o.file with
    | .vec => min k.vregs 256
    | .uni => k.sregs
    | .pred => 16
    | .tile => k.tiles
    | .acc => k.accs))

/-- The list of R98: what a thread program may not contain. DESIGN CHOICE (log 72). -/
def threadExcluded (i : Instr) : Bool :=
  (match i.rule? with
   | some (x, _) => x.moda != .none
   | none => false) ||
  match i with
  | .qbcast _ | .qswap _ | .shuf _ | .gvote _ | .greduce _ | .gscan _ => true
  | .srd x => x.dU || [0, 1, 2, 12, 13, 14, 15, 18, 19].contains x.var.toNat
  | .swr _ | .flags _ | .cbar _ | .evsig _ | .evwait _ | .hend | .cpy _ | .ldh _ | .tld _ | .tstr _ | .coll _ => true
  | .mma _ | .mmag _ | .mmat _ | .aexp _ | .amode _ | .ard _ | .awr _ | .mzero _ | .mcarry _ | .mscan _ | .tmov _ | .trd _
  | .twr _ | .oadd _ | .oalight _ | .oboard _ | .ocap _ | .ocas _ | .omax _ | .omin _ | .oswp _ | .chpeek _ | .chrecv _
  | .chsend _ => true
  | .st _ | .sts _ => false
  | i => (i.rule?.map (fun r => r.1.dU)).getD false

/-- The kernel whose extent an image offset lies in: the last entry at or below it. -/
def CodeObject.kernelAt (o : CodeObject) (off : Nat) : Option Kernel :=
  o.kernels.foldl (fun best k =>
    if k.entry ≤ off ∧ (best.map (fun b => b.entry)).getD 0 ≤ k.entry then some k else best) none

/-- An instruction at a byte offset that the translator refuses: ILL, OPR against the kernel's counts, excluded, or a BAR
that BARLIST does not hold. -/
def CodeObject.offends (o : CodeObject) (off : Nat) (d : Except DecodeError Instr) : Bool :=
  match d, o.kernelAt off with
  | .error _, _ => true
  | .ok _, none => false
  | .ok i, some k =>
    !i.wf || !k.limitsOk i || threadExcluded i ||
      (match i with
       | .bar _ => !((k.xanuz.map (fun x => x.bars)).getD []).contains off
       | _ => false)

/-- A list ascends. -/
def ascends : List Nat → Bool
  | a :: b :: rest => decide (a < b) && ascends (b :: rest)
  | _ => true

/-- The threads of a kernel's block extent. -/
def Kernel.threads (k : Kernel) : Nat := (k.blk.getD 0 0) * (k.blk.getD 1 0) * (k.blk.getD 2 0)

/-- The translator's refusal of a module: its first offending instruction, or a kernel whose record or extent breaks R97. -/
def CodeObject.threadRefusal (o : CodeObject) (bs : List Byte) : Option LoadError :=
  if o.flags / 2 % 2 = 0 then none
  else
    match (o.text bs).find? (fun x => o.offends (4 * x.1) x.2.2) with
    | some x => some (.thread (4 * x.1))
    | none =>
      if o.kernels.any (fun k => (k.xanuz.map (fun x => x.forms % 8 == 0)).getD true) then some .forms
      else if o.kernels.any (fun k => decide (k.threads < 1) || decide (16384 < k.threads)) then some .extent
      else if o.kernels.any (fun k => (k.xanuz.map (fun x => !ascends x.bars)).getD false) then some .barList
      else none

/-! ## Loading (R96 to R98) -/

/-- The .text that a load brings into a context, with the arm masks of a module's kernels; no launch may name it until its
invalidation has completed (R96, R97). -/
def CodeObject.codeText (o : CodeObject) (base : Nat) : CodeText :=
  { lo := base, hi := base + (o.sections[0]?.map (fun c => c.size)).getD 0,
    arms := o.kernels.filterMap (fun k => k.xanuz.map (fun x => (base + k.entry, BitVec.ofNat 6 x.arm))), ready := false }

/-- The loader reads a file: one that it refuses leaves nothing, nor does a module that the translator refuses, so no launch
of it starts; otherwise its .text is known to the context and its commands and writes come next. DEDUCED (log 26).
DESIGN CHOICE (log 72). -/
def loadObject (c : Cmd) (file : List Byte) (base : Nat) (frames : List Nat) (s : State) : State :=
  let o := parseObject file
  if base % 65536 ≠ 0 ∨ (o.refusal file).isSome ∨ (o.threadRefusal file).isSome ∨ (s.ctx? c.ctx).isNone then s
  else
    let turns := o.loadTurns file base (fun k => { c with seq := c.seq + BitVec.ofNat 32 k }) (fun k => frames.getD k 0)
    { s with agenda := turns.map Turn.event ++ s.agenda }.modCtx c.ctx (fun x => { x with texts := x.texts ++ [o.codeText base] })

end Sys2Proof.Machine
end

