-- ==== Sys2Proof/Machine/Bits.lean ====
section
/-! DEFINITION. Logic, shifts, bit fields and byte permutation: majors 10 and 11 (R280, R285, R286, R333, R354,
R359). -/

namespace Sys2Proof.Machine

open Sys2Proof

/-- The width of a type's operand. -/
def tyWidth (ty : Ty) : Nat := if ty.wide then 64 else 32

/-- The bits of a value under a function of the bit number, bits 0 to n − 1. -/
def buildBits (f : Nat → Bool) (n : Nat) : DWord :=
  (List.range n).foldl (fun v j => if f j then v ||| BitVec.ofNat 64 (2 ^ j) else v) 0

/-- LOP3 (R333). -/
def lop3Op (table : Nat) (w : Nat) (a b c : DWord) : DWord :=
  buildBits (fun j => table.testBit
    ((if a.getLsbD j then 1 else 0) + (if b.getLsbD j then 2 else 0) + (if c.getLsbD j then 4 else 0))) w

/-- ROT, SAR, SHL, SHR by the amount B[5:0] (R359). -/
def rotOp (w : Nat) (a b : DWord) : DWord := buildBits (fun j => a.getLsbD ((j + w - b.toNat % 64 % w) % w)) w
def sarOp (w : Nat) (a b : DWord) : DWord :=
  buildBits (fun j => a.getLsbD (if j + b.toNat % 64 < w then j + b.toNat % 64 else w - 1)) w
def shlOp (w : Nat) (a b : DWord) : DWord :=
  buildBits (fun j => decide (b.toNat % 64 ≤ j) && a.getLsbD (j - b.toNat % 64)) w
def shrOp (w : Nat) (a b : DWord) : DWord :=
  buildBits (fun j => decide (j + b.toNat % 64 < w) && a.getLsbD (j + b.toNat % 64)) w

/-- BFE (R285): bit k of the field, A beyond its width read as the sign of a signed type. -/
def bfeOp (sgn : Bool) (w : Nat) (a b : DWord) : DWord :=
  let pos := b.toNat % 64
  let len := min (b.toNat / 256 % 256) w
  let f (i : Nat) : Bool := if pos + i < w then a.getLsbD (pos + i) else sgn && a.getLsbD (w - 1)
  if len = 0 then 0 else buildBits (fun j => if j < len then f j else sgn && f (len - 1)) w

/-- BFI (R286). -/
def bfiOp (w : Nat) (a b c : DWord) : DWord :=
  let pos := b.toNat % 64
  let len := b.toNat / 256 % 256
  buildBits (fun j => if pos ≤ j ∧ j < pos + len then a.getLsbD (j - pos) else c.getLsbD j) w

/-- One byte of PRMT under its selector (R354). -/
def prmtByte (a c : Word) (sel : Byte) : Byte :=
  let y := (c ++ a).extractLsb' (8 * (sel.toNat % 8)) 8
  let y := if sel.getLsbD 4 then (if y.getLsbD 7 then 0xFF#8 else 0#8) else y
  let y := if sel.getLsbD 5 then ~~~y else y
  if sel.getLsbD 3 then 0#8 else y

/-- PRMT (R354). -/
def prmtOp (a b c : Word) : Word :=
  prmtByte a c (b.extractLsb' 24 8) ++ prmtByte a c (b.extractLsb' 16 8) ++ prmtByte a c (b.extractLsb' 8 8) ++
    prmtByte a c (b.extractLsb' 0 8)

/-- A shift or field instruction: B is one 32-bit register whatever the type. -/
def aluB32 (i : Instr) (x : Ext) (f : DWord → DWord → DWord) (s : State) : Host.Outcome State Fault Refusal :=
  aluExt i x x.ty.wide (fun g L => (f (opA g x x.ty.wide L) (opB g x false L), 0)) s

def execAnd (x : Ext) (s : State) := alu2 (.and x) x (fun a b => (a &&& b, 0)) s
def execOr (x : Ext) (s : State) := alu2 (.or x) x (fun a b => (a ||| b, 0)) s
def execXor (x : Ext) (s : State) := alu2 (.xor x) x (fun a b => (a ^^^ b, 0)) s
def execLop3 (x : Ext) (s : State) :=
  alu3 (.lop3 x) x (fun a b c => (lop3Op (x.var.toNat % 256) (tyWidth x.ty) a b c, 0)) s
def execRot (x : Ext) (s : State) := aluB32 (.rot x) x (rotOp (tyWidth x.ty)) s
def execSar (x : Ext) (s : State) := aluB32 (.sar x) x (sarOp (tyWidth x.ty)) s
def execShl (x : Ext) (s : State) := aluB32 (.shl x) x (shlOp (tyWidth x.ty)) s
def execShr (x : Ext) (s : State) := aluB32 (.shr x) x (shrOp (tyWidth x.ty)) s
def execBfe (x : Ext) (s : State) := aluB32 (.bfe x) x (bfeOp x.ty.signed (tyWidth x.ty)) s
def execBfi (x : Ext) (s : State) : Host.Outcome State Fault Refusal :=
  aluExt (.bfi x) x x.ty.wide
    (fun g L => (bfiOp (tyWidth x.ty) (opA g x x.ty.wide L) (opB g x false L) (opC g x x.ty.wide L), 0)) s
def execPrmt (x : Ext) (s : State) :=
  alu3 (.prmt x) x (fun a b c => (lo32 (prmtOp (low a) (low b) (low c)), 0)) s

end Sys2Proof.Machine
end

