-- ==== Sys2Proof/Machine/MemCommands.lean ====
section
/-! DEFINITION. Commands and events of translation: MAP, UNMAP, RECLASSIFY, the invalidation logs, translations that arrive,
instruction-cache invalidation and event signals (R12, R43, R96, R121 to R124, R136, R142 to R144, R158, R168, R377). -/

namespace Sys2Proof.Machine

open Sys2Proof

/-! ## Invalidation logs (R142, R143) -/

def State.dieLog (s : State) (die : Nat) : DieLog :=
  (s.logs.find? (fun l => l.die == die)).getD { die := die, entries := [], applied := 0 }

def State.setDieLog (s : State) (l : DieLog) : State := { s with logs := s.logs.filter (fun m => m.die != l.die) ++ [l] }

/-- An entry covers part of a run of virtual addresses. -/
def LogEntry.hits (e : LogEntry) (va n : Nat) : Bool :=
  decide (va < e.va + e.pages * pageBytes e.psize) && decide (e.va < va + n)

/-- A bus page that an entry's range named when it was appended. -/
def LogEntry.hitsBus (e : LogEntry) (page : Nat) : Bool := e.bus.any (fun b => decide (b.1 ≤ page) && decide (page < b.1 + b.2))

/-- A die applies its log up to the newest entry: matching cached translations go, on the I/O die those of the ATS
translation cache, and APPLIED moves (R142). DEDUCED (log 58). -/
def applyLog (s : State) (die : Nat) : State :=
  let es := (s.dieLog die).entries
  let s := if die = ioDie then { s with atc := s.atc.filter (fun a => !es.any (fun e => e.hitsBus a.1)) }
    else { s with tlb := s.tlb.filter (fun t => !(t.die == die && es.any (fun e => e.ctx == t.ctx && e.hits t.va t.map.psize))) }
  s.setDieLog { die := die, entries := [], applied := s.logSeq }

def applyLogs (dies : List Nat) (s : State) : State := dies.foldl applyLog s

/-- The pages of host bus addresses that a run of a context's virtual addresses is mapped to: first page and number.
DEDUCED (log 29). -/
def busPages (s : State) (cn va n : Nat) : List (Nat × Nat) :=
  (((s.ctx? cn).map (fun c => c.maps)).getD []).filterMap (fun m =>
    let lo := max m.va va
    let hi := min (m.va + m.pages * m.psize) (va + n)
    if m.host && decide (lo < hi) then some (m.phys lo / 4096, (hi - lo) / 4096) else none)

/-- An entry appended to the log of every die of a list and of the I/O die, whose translation cache it concerns too; a ring
of 4,096 entries that would overflow makes every die apply its log first. DESIGN CHOICE (log 28). -/
def appendLog (dies : List Nat) (va pages psize kind cn : Nat) (s : State) : State :=
  let dies := dies ++ [ioDie]
  let s := if dies.any (fun d => decide (4096 ≤ (s.dieLog d).entries.length)) then applyLogs dies s else s
  let e : LogEntry := { seq := s.logSeq, va := va, pages := pages, psize := psize, kind := kind, ctx := cn,
                        bus := busPages s cn va (pages * pageBytes psize) }
  let s := { s with logSeq := s.logSeq + 1 }
  dies.foldl (fun s d => let l := s.dieLog d; s.setDieLog { l with entries := l.entries ++ [e] }) s

/-- The dies of a partition, and of a context's partition. -/
def partDies (s : State) (p : Nat) : List Nat := ((s.part? p).map (fun p => p.dies)).getD []

/-- LOG_APPLY: the log-apply requests of the dies in a mask, compute dies or the I/O die. -/
def execLogApply (c : Cmd) (dies : List Nat) (s : State) : Host.Outcome State Fault Refusal :=
  .next (if plainCmd c = false ∨ dies.any (fun d => decide (9 ≤ d) && d != ioDie) then complete c 1 0 s
    else complete c 0 0 (applyLogs dies s))

/-! ## MAP (R122, R144, R377) -/

/-- The rules of R377 that the three memory commands share. -/
def argsOk (m : MemArgs) : Bool :=
  decide (m.psize ≤ 2) && decide (1 ≤ m.pages) && m.va.toNat % pageBytes m.psize == 0 &&
    decide (m.va.toNat + m.pages * pageBytes m.psize ≤ 2 ^ 57) && m.rest.all (fun b => b == 0)

def argsSize (m : MemArgs) : Nat := m.pages * pageBytes m.psize

/-- The mapping that a MAP asks for. -/
def argsMapping (m : MemArgs) : Mapping :=
  { va := m.va.toNat, pages := m.pages, psize := pageBytes m.psize, target := m.target.toNat, r := m.attr.getLsbD 0,
    w := m.attr.getLsbD 1, x := m.attr.getLsbD 2, host := m.attr.getLsbD 3, window := m.attr.getLsbD 4,
    demand := m.attr.getLsbD 5 }

/-- The run of virtual addresses of a mapping meets another. -/
def Mapping.meets (m : Mapping) (va n : Nat) : Bool := overlaps m.va (m.pages * m.psize) va n

/-- A run of 64 KiB at a window address holds storage that R57 and R124 list: the last such run of a core ends with the line-state
bytes (R124). -/
def windowListed (pa : Nat) : Bool :=
  let x := pa - windowBase
  decide (windowBase ≤ pa) && decide (x / 2 ^ 36 < 9) && decide (x % 2 ^ 36 / 2 ^ 26 < 20) && decide (x % 2 ^ 26 < 0xA04000)

/-- The frame of a context's control block: the 4 KiB page of HBM behind its address (R240). -/
def Ctx.block? (c : Ctx) : Option Nat :=
  (mapFind c.maps c.ccb.toNat).bind (fun m => if m.space = .hbm then some (m.phys c.ccb.toNat / 4096 * 4096) else none)

/-- The target of a mapping is populated: HBM of enabled dies of the context's partition, but no control block of a context, which
firmware alone maps (R240); or window addresses, of which every 64 KiB name listed storage and every page holds an allocation of the
context (R122, R124). DEDUCED (log 27). -/
def targetOk (s : State) (c : Ctx) (m : Mapping) (n : Nat) : Bool :=
  if m.host then !m.window
  else if m.window then
    (List.range (n / 65536)).all (fun k => windowListed (m.target + 65536 * k)) &&
      (List.range (n / m.psize)).all (fun p =>
        (List.range m.psize).any (fun k => winPlace s c.num (m.target + m.psize * p + k) != .none_))
  else
    decide (m.target + n ≤ 9 * 2 ^ 37) &&
      (List.range 9).all (fun d => !overlaps m.target n (d * 2 ^ 37) (2 ^ 37) ||
        (enabledDie s d && (partDies s c.part).contains d)) &&
      s.retiredFrames.all (fun f => !overlaps m.target n (f * 2 ^ 16) (2 ^ 16)) &&
      s.ctxs.all (fun x => x.block?.all (fun f => !overlaps m.target n f 4096))

/-- Frames that an unmap took away and that some die may still reach through a stale translation, or an access of a lane or
a stream that has been translated already (R143). DEDUCED (log 27). -/
def frameBusy (s : State) (target n : Nat) : Bool :=
  s.frames.any (fun f => overlaps f.1 f.2.1 target n &&
    s.logs.any (fun l => l.die != ioDie && l.entries.any (fun e => e.seq == f.2.2))) ||
  s.acc.any (fun a => a.lanes.any (fun l => l.stage != .done && l.stage != .parked && l.space == .hbm &&
    overlaps l.addr a.bytes target n))

/-- Frames of a run that the context does not hold yet are zeroed, and what instruction caches hold of them goes
(R144). -/
def zeroFrames (c : Ctx) (base n : Nat) (s : State) : State :=
  let held (pa : Nat) : Bool :=
    c.maps.any (fun m => m.space == .hbm && decide (m.target ≤ pa) && decide (pa < m.target + m.pages * m.psize))
  let new (pa : Nat) : Bool := decide (base ≤ pa) && decide (pa < base + n) && !held pa
  { s with mem := s.mem.filter (fun x => !(new x.1)), icache := s.icache.filter (fun e => !(new (32 * e.sector))) }

/-- MAP. While a frame may still be reached through an earlier translation, the command waits. DEDUCED (log 27). -/
def execMap (c : Cmd) (m : MemArgs) (s : State) : Host.Outcome State Fault Refusal :=
  onCtx c (c.flags == 0) (fun x s =>
    let mp := argsMapping m
    if !argsOk m || m.report != 0 || decide (64 ≤ m.attr.toNat) || m.target.toNat % pageBytes m.psize != 0 || (mp.w && !mp.r) ||
        !targetOk s x mp (argsSize m) || x.maps.any (fun o => o.meets mp.va (argsSize m)) then complete c 1 0 s
    else if mp.space == .hbm && frameBusy s mp.target (argsSize m) then s
    else
      let s := if mp.space = .hbm then zeroFrames x mp.target (argsSize m) s else s
      complete c 0 0 (s.modCtx c.ctx (fun x => { x with maps := x.maps ++ [mp] }))) s

/-! ## Reclassification (R158) -/

/-- The granules of a test pass through steps 1 to 4 of a drain with every holder, to UNCLASSIFIED: the request reaches every
holder, whose groups stop, and once all are quiet the states flip together; until then the answer is none and the command
waits (R157, R158). -/
def drainAll (p : Nat → Bool) (s : State) : State × Bool :=
  let mine := s.granules.filter (fun g => p g.num && g.cls != .unclassified)
  if mine.all (fun g => g.drain.all (fun d => d.by_.isNone) && g.holders.all (fun h => quiet s h g.num)) then
    let s := mine.foldl (fun s g => drainHolders g.num .unclassified g.holders s) s
    ({ s with granules := s.granules.map (fun g =>
        if p g.num && g.cls != .unclassified then
          { g with cls := .unclassified, holders := lineHolders s g.num, drain := none, held := arrivals s g }
        else g) }, true)
  else
    ({ s with granules := s.granules.map (fun g =>
        if p g.num && g.cls != .unclassified && g.drain.isNone then
          { g with drain := some { to_ := .unclassified, by_ := none, asked := g.holders, stopped := [] } }
        else g) }, false)

/-- The parts of a mapping inside and outside a run of virtual addresses. -/
def Mapping.inside (m : Mapping) (va n : Nat) : Option Mapping :=
  let lo := max m.va va
  let hi := min (m.va + m.pages * m.psize) (va + n)
  if lo < hi then some { m with va := lo, target := m.target + (lo - m.va), pages := (hi - lo) / m.psize } else none

/-- The part inside for a run that may cover part of a page, in pages of 64 KiB (R377). -/
def Mapping.insideFine (m : Mapping) (va n : Nat) : Option Mapping :=
  if m.psize < 65536 then m.inside va n else { m with pages := m.pages * (m.psize / 65536), psize := 65536 }.inside va n

def Mapping.outside (m : Mapping) (va n : Nat) : List Mapping :=
  let stop := m.va + m.pages * m.psize
  (if m.va < va then [{ m with pages := (min va stop - m.va) / m.psize }] else []) ++
  (if va + n < stop then
    let lo := max m.va (va + n)
    [{ m with va := lo, target := m.target + (lo - m.va), pages := (stop - lo) / m.psize }]
   else [])

/-- The run covers only part of some page of the mapping. -/
def Mapping.cut (m : Mapping) (va n : Nat) : Bool :=
  m.meets va n && ((decide (m.va < va) && (va - m.va) % m.psize != 0) ||
    (decide (va + n < m.va + m.pages * m.psize) && (va + n - m.va) % m.psize != 0))

/-- An HBM granule lies in one of some mappings. -/
def granuleIn (ms : List Mapping) (g : Nat) : Bool :=
  ms.any (fun m => m.space == .hbm && decide (m.target ≤ 4096 * g) && decide (4096 * g < m.target + m.pages * m.psize))

/-- A run of virtual addresses leaves a context: its mappings, its log entry, its frames. -/
def unmapRange (cn va pages psize : Nat) (gone : List Mapping) (s : State) : State :=
  let n := pages * pageBytes psize
  let dies := partDies s (((s.ctx? cn).map (fun x => x.part)).getD 0)
  let seq := s.logSeq
  let s := appendLog dies va pages psize 0 cn s
  let hbm := gone.filter (fun m => m.space == .hbm)
  let still := s.frames.filter (fun f => s.logs.any (fun l => l.entries.any (fun e => e.seq == f.2.2)))
  let s : State := { s with frames := still ++ hbm.map (fun (m : Mapping) => (m.target, m.pages * m.psize, seq)) }
  s.modCtx cn (fun x =>
    { x with maps := x.maps.flatMap (fun m => if m.meets va n then m.outside va n else [m]),
             resident := x.resident.filter (fun p => !(decide (va ≤ p) && decide (p < va + n))),
             texts := x.texts.filter (fun t => !overlaps t.lo (t.hi - t.lo) va n) })

/-- UNMAP (R377). -/
def execUnmap (c : Cmd) (m : MemArgs) (s : State) : Host.Outcome State Fault Refusal :=
  onCtx c (c.flags == 0) (fun x s =>
    let va := m.va.toNat
    let gone := x.maps.filterMap (fun o => o.inside va (argsSize m))
    if !argsOk m || m.target != 0 || m.attr != 0 || m.report != 0 || x.maps.any (fun o => o.cut va (argsSize m)) then complete c 1 0 s
    else if gone = [] then complete c 0 0 s
    else
      match drainAll (granuleIn gone) s with
      | (s, false) => s
      | (s, true) =>
        complete c 0 (BitVec.ofNat 64 ((gone.map (fun o => o.pages * o.psize)).sum))
          (unmapRange c.ctx va m.pages m.psize gone s)) s

/-- Code and report byte of a granule's previous state. -/
def GranClass.code : GranClass → Nat
  | .unclassified => 0 | .private_ _ _ _ => 1 | .readonly => 2 | .shared => 3
def GranClass.report (g : GranClass) : Nat :=
  match g with
  | .private_ _ _ true => 5
  | g => g.code

/-- RECLASSIFY: granules of mapped HBM pages return to UNCLASSIFIED; VALUE and REPORT tell their previous states. -/
def execReclassify (c : Cmd) (m : MemArgs) (s : State) : Host.Outcome State Fault Refusal :=
  onCtx c (c.flags == 0) (fun x s =>
    let n := argsSize m / 4096
    if !argsOk m || m.target != 0 || m.attr != 0 ||
        (m.report != 0 && !x.covers m.report.toNat n (fun o => o.r && o.w && !o.window)) then complete c 1 0 s
    else
      let prev (k : Nat) : GranClass :=
        match mapFind x.maps (m.va.toNat + 4096 * k) with
        | some o => if o.space = .hbm then (s.granule (o.phys (m.va.toNat + 4096 * k) / 4096)).cls else .unclassified
        | none => .unclassified
      let value := (List.range (min 32 n)).foldr (fun k acc => (prev k).code * 4 ^ k + acc) 0
      let report := (List.range n).map (fun k => BitVec.ofNat 8 (prev k).report)
      match drainAll (granuleIn (x.maps.filterMap (fun o => o.insideFine m.va.toNat (argsSize m)))) s with
      | (s, false) => s
      | (s, true) =>
        complete c 0 (BitVec.ofNat 64 value) (if m.report = 0 then s else fwStore c.ctx m.report.toNat report s)) s

/-! ## Event signals (R43, R249) -/

/-- EVENT_SIGNAL: an atomic addition as EVSIG makes it, which firmware has in hand; it is performed at its home before the
completion record is written. DEDUCED (log 24). -/
def execEventSignal (c : Cmd) (va value : DWord) (s : State) : Host.Outcome State Fault Refusal :=
  onCtx c (c.flags == 0) (fun x s =>
    if va.toNat % 8 ≠ 0 ∨ 2 ^ 57 ≤ va.toNat then complete c 1 0 s
    else
      match mapFind x.maps va.toNat with
      | none => complete c 1 0 s
      | some m =>
        if !m.r || !m.w || m.window || !x.present m va.toNat || s.ccbPage c.ctx va.toNat then complete c 1 0 s
        else complete c 0 0 (raiseEvent c.ctx va.toNat value s)) s

/-! ## Instruction caches (R168) -/

/-- ICACHE_INVAL: the sectors of a range leave the instruction caches of every die, and a code object whose .text lies in the
range may be named from then on (R96). -/
def execIcacheInval (c : Cmd) (va : DWord) (bytes : Nat) (s : State) : Host.Outcome State Fault Refusal :=
  onCtx c (c.flags == 0) (fun x s =>
    let ms := x.maps.filter (fun m => m.space == .hbm && m.meets va.toNat bytes)
    let hit (sector : Nat) : Bool := ms.any (fun m =>
      let lo := max m.va va.toNat
      let hi := min (m.va + m.pages * m.psize) (va.toNat + bytes)
      overlaps (m.phys lo) (hi - lo) (32 * sector) 32)
    let s := s.modCtx c.ctx (fun x => { x with texts := x.texts.map (fun t =>
      if va.toNat ≤ t.lo ∧ t.hi ≤ va.toNat + bytes then { t with ready := true } else t) })
    complete c 0 0 { s with icache := s.icache.filter (fun e => !hit e.sector) }) s

/-- Sectors that a core's instruction cache holds: 128 KiB (R13). -/
def icacheSectors : Nat := 4096

/-- A core's fetch brings a sector into its instruction cache as memory holds it; when the cache is full, the sector that
entered it first leaves (R13, R126, R168). The cores and slices of a disabled die are off (R11). DESIGN CHOICE (log 79). -/
def fillSector (die core sector : Nat) (s : State) : State :=
  if (s.icacheFind die core sector).isSome || !enabledCore s die core || !enabledDie s (homeDie (32 * sector)) then s
  else
    let mine (e : ISector) : Bool := e.die == die && e.core == core
    let kept := if (s.icache.filter mine).length < icacheSectors then s.icache
      else s.icache.eraseP mine
    { s with icache := kept ++ [{ die := die, core := core, sector := sector, bytes := s.memBytes (32 * sector) 32 }] }

/-- A sector leaves a core's instruction cache, which the hardware may do at any time (R126, R168). -/
def dropSector (die core sector : Nat) (s : State) : State :=
  { s with icache := s.icache.filter (fun e => !(e.die == die && e.core == core && e.sector == sector)) }

/-! ## Translations that arrive (R13, R123, R136) -/

/-- PAGE_WALK_COMPLETION: the walker returns a translation, which the die's second-level TLB takes; a first level takes it at
its next lookup of the page (R13, R136). DEDUCED (log 58). -/
def execPageWalkCompletion (die ctx : Nat) (va : DWord) (s : State) : Host.Outcome State Fault Refusal :=
  .next (tlbWalk die ctx va.toNat s)

/-- ATS_TRANSLATION: a completion fills the I/O die's translation cache. DEDUCED (log 29). -/
def execAtsTranslation (bus host : Nat) (s : State) : Host.Outcome State Fault Refusal :=
  .next { s with atc := s.atc.filter (fun a => a.1 != bus) ++ [(bus, host)] }

/-- ATS_INVALIDATION: the host's request is logged on every die of the partition and on the I/O die, and completes when
each has applied it; the host may translate otherwise from then on. DEDUCED (log 29). -/
def execAtsInvalidation (part ctx : Nat) (va : DWord) (pages : Nat) (s : State) : Host.Outcome State Fault Refusal :=
  .next (
    let dies := partDies s part
    if dies = [] then s
    else
      let s := applyLogs (dies ++ [ioDie]) (appendLog dies va.toNat pages 0 2 ctx s)
      { s with atsEpoch := s.atsEpoch + 1 })

end Sys2Proof.Machine
end

