-- ==== Sys2Proof/Machine/Orbit.lean ====
section
/-! DEFINITION. The Orbit: its slots, the instructions of major 48, and the passes at which they are performed (R211 to
R218, R345 to R348). -/

namespace Sys2Proof.Machine

open Sys2Proof Sys2Proof.Num

/-! ## The ring (R211, R212) -/

/-- The place of a die in the ring: 0, 1, 2, 5, 4, 3, 6, 7, 8. -/
def ringPlace (die : Nat) : Nat := if die = 3 then 5 else if die = 5 then 3 else die

/-- The stage of a core's station. -/
def station (die core : Nat) : Nat := 2 + 28 * ringPlace die + core

/-- The stage at which a position stands in a cycle. -/
def stageAt (pos now : Nat) : Nat := (pos + now) % 256

/-- The position that stands at a stage in a cycle. -/
def posAt (stage now : Nat) : Nat := (stage + 256 - now % 256) % 256

def State.slot (s : State) (id : Nat) : Slot := s.slots.get Slot.free id
def State.setSlot (s : State) (id : Nat) (v : Slot) : State := { s with slots := s.slots.put Slot.free id v }

/-! ## Issue -/

/-- An operation waits for its pass; its split is not ready until then (R346). -/
def issueOrbit (k : Issue) (o : OrbitOp) (s : State) : State :=
  ({ s with nextId := o.id + 1, orbitOps := s.orbitOps ++ [o] }).modSplit k.gi k.si (fun p =>
    { p with wait := .orbit o.id, since := s.now, age := 0, reserved := false })

/-- The operation that an instruction issues. -/
def orbitOp (k : Issue) (kind : OrbKind) (x : Ext) (slot : Nat) (key : Word) (b cmp : Nat → Word) (s : State) : OrbitOp :=
  { id := s.nextId, group := k.gi, split := k.si, die := k.g.die, core := k.g.core, kind := kind, ty := x.ty, slot := slot,
    key := key, d := x.d.toNat, e := k.e, act := k.real, b := allLanes.map b, cmp := allLanes.map cmp, issue := s.now,
    passes := 0, next := k.nextPc }

/-- An operation other than OBOARD: a slot id with bits 31:11 set is ORB at issue (R216, R218). -/
def orbitBody (kind : OrbKind) (x : Ext) (k : Issue) (s : State) : State :=
  let id := k.g.uget x.a.toNat
  if k.real = 0 then advance k s
  else if 2048 ≤ id.toNat then trapAt k .orb (0#32 ++ id) k.e s
  else
    issueOrbit k (orbitOp k kind x id.toNat (k.g.uget (x.a.toNat + 1)) (fun L => low (opB k.g x false L))
      (fun L => low (opD k.g x false L)) s) s

def execOadd (x : Ext) (s : State) : Host.Outcome State Fault Refusal := runInstr (.oadd x) x.guard (orbitBody .add x) s
def execOalight (x : Ext) (s : State) : Host.Outcome State Fault Refusal :=
  runInstr (.oalight x) x.guard (orbitBody .alight x) s
def execOcap (x : Ext) (s : State) : Host.Outcome State Fault Refusal := runInstr (.ocap x) x.guard (orbitBody .cap x) s
def execOcas (x : Ext) (s : State) : Host.Outcome State Fault Refusal := runInstr (.ocas x) x.guard (orbitBody .cas x) s
def execOmax (x : Ext) (s : State) : Host.Outcome State Fault Refusal := runInstr (.omax x) x.guard (orbitBody .max x) s
def execOmin (x : Ext) (s : State) : Host.Outcome State Fault Refusal := runInstr (.omin x) x.guard (orbitBody .min x) s
def execOswp (x : Ext) (s : State) : Host.Outcome State Fault Refusal := runInstr (.oswp x) x.guard (orbitBody .swp x) s

/-- OBOARD scans a track (R217, R348). -/
def execOboard (x : Ext) (s : State) : Host.Outcome State Fault Refusal :=
  runInstr (.oboard x) x.guard (fun k s =>
    if k.real = 0 then advance k s
    else
      issueOrbit k (orbitOp k (.board (x.var.toNat % 8) (x.c.toNat % 16)) x 0 (low (opB k.g x false 0))
        (fun L => low (opA k.g x false L)) (fun _ => 0) s) s) s

/-! ## Passes -/

/-- The new payload word and the flags of one lane (R216). -/
def orbNew (kind : OrbKind) (ty : Ty) (old b cmp : Nat) : Nat × FlagBits :=
  let pick (isMax : Bool) : Nat × FlagBits :=
    if ty = .f32 then
      let r := fminmax isMax (dec f32 old) (dec f32 b)
      ((Num.round f32 .rne r.1).1, r.2)
    else atomNew (if isMax then 2 else 1) ty old b 0
  match kind with
  | .add => atomNew (if ty = .f32 then 8 else 0) ty old b 0
  | .max => pick true
  | .min => pick false
  | .swp => (b, 0)
  | .cas => atomNew 7 ty old cmp b
  | .alight | .cap | .board _ _ => (old, 0)

/-- The operation has ended: its split continues. -/
def endOrbit (o : OrbitOp) (s : State) : State :=
  ({ s with orbitOps := s.orbitOps.filter (fun q => q.id != o.id) }).modSplit o.group o.split (fun p =>
    if p.wait = Wait.orbit o.id then p.goto o.next else p)

/-- The context may use the slot with the key (R216). -/
def slotAllows (s : State) (o : OrbitOp) (sl : Slot) : Bool :=
  match s.group? o.group with
  | none => false
  | some g => sl.tag == BitVec.ofNat 16 (s.groupCtx g) && sl.held && sl.key == o.key

/-- The rewrite of a slot by an operation other than OBOARD (R216). -/
def rewriteSlot (o : OrbitOp) (sl : Slot) : Slot :=
  match o.kind with
  | .alight => { sl with held := false, key := 0, payload := List.replicate 16 0 }
  | kind =>
    { sl with payload := allLanes.map (fun L =>
        let old := sl.payload.getD L 0
        if o.act.getLsbD L then
          BitVec.ofNat 32 (orbNew kind o.ty old.toNat (o.b.getD L 0).toNat (o.cmp.getD L 0).toNat).1
        else old) }

/-- The flags that the lanes of an operation raise. -/
def orbitFlags (o : OrbitOp) (sl : Slot) : FlagBits :=
  lanesFlags o.act (fun L =>
    (orbNew o.kind o.ty (sl.payload.getD L 0).toNat (o.b.getD L 0).toNat (o.cmp.getD L 0).toNat).2)

/-- The pass of an operation that names its slot: the rewrite, or ORB. A lane that has ended takes no result (R56). -/
def passNamed (o : OrbitOp) (s : State) : State :=
  let sl := s.slot o.slot
  if slotAllows s o sl then
    let s := (s.setSlot o.slot (rewriteSlot o sl)).modGroup o.group (fun g =>
      let g := g.vsetLanes false o.d (o.e &&& ~~~g.ended) (fun L => if o.act.getLsbD L then lo32 (sl.payload.getD L 0) else 0)
      g.raise true s.now (orbitFlags o sl))
    endOrbit o s
  else
    let s : State := { s with orbitOps := s.orbitOps.filter (fun q => q.id != o.id) }
    takeTrap o.group o.split .orb (BitVec.ofNat 64 o.slot) o.act 0 s

/-- OBOARD's result: the slot id and key with a true predicate, or failure (R217). -/
def boardResult (o : OrbitOp) (pc : Nat) (id : Option Nat) (s : State) : State :=
  endOrbit o (s.modGroup o.group (fun g =>
    if g.retired then g
    else
      match id with
      | some n => ((g.uset o.d (BitVec.ofNat 32 n)).uset (o.d + 1) o.key).pset pc (o.e &&& ~~~g.ended) o.e
      | none => (g.uset o.d 0xFFFFFFFF#32).pset pc (o.e &&& ~~~g.ended) 0))

/-- One examination of an OBOARD: the slot that passes its station (R214, R217). -/
def passBoard (o : OrbitOp) (track pc : Nat) (s : State) : State :=
  let id := track * 256 + posAt (station o.die o.core) s.now
  let sl := s.slot id
  let cn := ((s.group? o.group).map s.groupCtx).getD 0
  if sl.tag == BitVec.ofNat 16 cn && !sl.held then
    let sl : Slot := { sl with held := true, key := o.key,
                               payload := allLanes.map (fun L => if o.act.getLsbD L then o.b.getD L 0 else 0) }
    boardResult o pc (some id) (s.setSlot id sl)
  else
    { s with orbitOps := s.orbitOps.map (fun q => if q.id = o.id then { q with passes := q.passes + 1 } else q) }

/-- The operation passes in this cycle: 2 cycles or more after its issue, its slot at the station, no older operation
of the station on the slot, and none performed on it in this pass (R214). An OBOARD examines one slot a cycle. -/
def passDue (s : State) (o : OrbitOp) : Bool :=
  match o.kind with
  | .board _ _ => decide (o.issue + 2 + o.passes ≤ s.now) && decide (o.passes < 256)
  | _ =>
    decide (o.issue + 2 ≤ s.now) && stageAt (o.slot % 256) s.now == station o.die o.core &&
    s.orbitOps.all (fun q => decide (o.id ≤ q.id) || q.die != o.die || q.core != o.core || q.slot != o.slot ||
      (match q.kind with
       | .board _ _ => true
       | _ => false)) &&
    !s.orbitPassed.contains (station o.die o.core, o.slot, s.now)

/-- ORBIT_PASS: one pending operation is performed at its pass, or one OBOARD examines the slot at its station (R164,
R214, R216, R217). -/
def orbitPass (id : Nat) (s : State) : State :=
  match s.orbitOps.find? (fun o => o.id == id) with
  | none => s
  | some o =>
    if !passDue s o then s
    else
      match o.kind with
      | .board track pc => passBoard o track pc s
      | _ => passNamed o { s with orbitPassed := s.orbitPassed ++ [(station o.die o.core, o.slot, s.now)] }

def execOrbitPass (op : Nat) (s : State) : Host.Outcome State Fault Refusal := .next (orbitPass op s)

/-- OBOARD_TIMEOUT: 256 passes without a boarding (R217). -/
def oboardTimeout (id : Nat) (s : State) : State :=
  match s.orbitOps.find? (fun o => o.id == id) with
  | none => s
  | some o =>
    match o.kind with
    | .board _ pc => if 256 ≤ o.passes then boardResult o pc none s else s
    | _ => s

def execOboardTimeout (op : Nat) (s : State) : Host.Outcome State Fault Refusal := .next (oboardTimeout op s)

/-- The order of the passes of one cycle: by stage; at a station the named operation, then OBOARDs by issue (R164,
R214). -/
def orbitOrder (ops : List OrbitOp) : List OrbitOp :=
  let isBoard (o : OrbitOp) : Bool := match o.kind with
    | .board _ _ => true
    | _ => false
  (List.range 256).flatMap (fun st =>
    let here := ops.filter (fun o => station o.die o.core == st)
    here.filter (fun o => !isBoard o) ++ here.filter isBoard)

/-- Every pass of the present cycle. -/
def orbitCycle (s : State) : State :=
  if s.orbitOps = [] then { s with orbitPassed := [] }
  else
    let s : State := { s with orbitPassed := s.orbitPassed.filter (fun p => p.2.2 == s.now) }
    (orbitOrder s.orbitOps).foldl (fun s o => oboardTimeout o.id (orbitPass o.id s)) s

end Sys2Proof.Machine
end

