-- ==== Sys2Proof/Machine/CtxCommands.lean ====
section
/-! DEFINITION. Commands on contexts, queues, traps and partitions; emulation and services (R14, R15, R42, R83 to R85, R213,
R220, R231, R232, R234, R235, R237, R240, R249, R251). -/

namespace Sys2Proof.Machine

open Sys2Proof

/-! ## The trap queue (R231) -/

/-- HEAD moves past the consumed records at the front of the ring, and waiting records move in. DEDUCED (log 56). -/
def advanceHead (cn : Nat) : Nat → State → State
  | 0, s => s
  | n + 1, s =>
    match s.ctx? cn with
    | none => s
    | some c =>
      match c.traps with
      | r :: _ =>
        if r.consumed && decide (c.head < c.tail) then
          advanceHead cn n (flushTraps cn 1 (s.modCtx cn (fun c => { c with traps := c.traps.drop 1, head := c.head + 1 })))
        else s
      | [] => s

/-- The records of a context that satisfy a test are consumed; the calls that move into the ring behind them find service
cores. DEDUCED (log 56). -/
def consume (cn : Nat) (p : TrapRec → Bool) (s : State) : State :=
  let s := s.modCtx cn (fun c => { c with traps := c.traps.map (fun r => if p r then { r with consumed := true } else r) })
  assignCalls (advanceHead cn (((s.ctx? cn).map (fun c => c.traps.length)).getD 0) s)

/-- The traps of a cycle that has ended move into the rings of their contexts, and service cores take the calls among them
(R231, R240). -/
def queueTraps (s : State) : State :=
  assignCalls (s.ctxs.foldl (fun s c => advanceHead c.num c.traps.length (flushTraps c.num c.traps.length s)) s)

/-- TRAPQ_ACK: every record but those of SVC up to a sequence number is consumed. DEDUCED (log 56). -/
def execTrapqAck (c : Cmd) (seq : Nat) (s : State) : Host.Outcome State Fault Refusal :=
  onCtx c (c.flags == 0) (fun _ s =>
    complete c 0 0 (consume c.ctx (fun r => r.cause != .svc && decide (r.seq.toNat ≤ seq)) s)) s

/-- A call leaves the log of the service cores, and its core takes the next call that waits (R240). -/
def endCall (cn : Nat) (seq : Nat) (s : State) : State :=
  assignCalls (s.modCtx cn (fun c => { c with svclog := c.svclog.map (fun e => if e = some seq then none else e) }))

/-- The record of the service call at which a split waits. -/
def callRecord (s : State) (g : Group) (si : Nat) : Option TrapRec :=
  (s.groupCtx? g).bind (fun c => c.traps.find? (fun r =>
    r.cause == .svc && !r.consumed && r.split.toNat == si && r.group == g.groupId &&
      r.block.toNat == ((s.block? g.block).map (fun b => b.lin)).getD 0))

/-- The service core that runs the call of a record (R240). -/
def callCore (s : State) (cn : Nat) (r : TrapRec) : Option Nat :=
  (s.ctx? cn).bind (fun c => c.svclog.findIdx? (fun e => e == some r.seq.toNat))

/-- The record of a split's service call is consumed, and the call leaves the log. -/
def eatCall (g : Group) (si : Nat) (s : State) : State :=
  match callRecord s g si with
  | some r => endCall (s.groupCtx g) r.seq.toNat (consume (s.groupCtx g) (fun q => q.cause == .svc && q.seq == r.seq) s)
  | none => s

/-! ## Writes into a split's saved state (R84, R232, R234) -/

/-- One write, confined to the lanes of a mask: a lane has the words of a tile, a sideband, an accumulator and its carries that TWR,
AWR and MCARRY write for it (R204, R206), and a mode is the group's. A register that the group does not have takes nothing.
DEDUCED (log 73). -/
def applyWrite (m : LaneMask) (g : Group) (w : RegWrite) : Group :=
  match w with
  | .vec r L v => if m.getLsbD L && decide (r < g.nv) then g.vset r L v else g
  | .uni r v => if r < g.ns then g.uset r v else g
  | .pred p v => if p < 15 then g.pset p m v else g
  | .flags f => { g with flags := f }
  | .tile t i v => if m.getLsbD (i % 16) && decide (i < 2048) && decide (t < g.nt) then { g with tile := g.tile.put 0 (2048 * t + i) v } else g
  | .scale t i v => if m.getLsbD (i % 16) && decide (i < 128) && decide (t < g.nt) then { g with scale := g.scale.put 0 (128 * t + i) v } else g
  | .acc t i v => if m.getLsbD (i / 256) && decide (t < g.na) then { g with acc := g.acc.put 0 (4096 * t + i) v } else g
  | .carry t i v => if m.getLsbD (i / 8) && decide (t < g.na) && decide (t < 16) then { g with carry := g.carry.put 0 (128 * t + i) v } else g
  | .affine t on =>
    if m != 0 && decide (t < g.na) then
      { g with affine := if on then g.affine ||| (1#16 <<< t) else g.affine &&& ~~~(1#16 <<< t) }
    else g

def applyWrites (gi : Nat) (m : LaneMask) (ws : List RegWrite) (s : State) : State :=
  s.modGroup gi (fun g => ws.foldl (applyWrite m) g)

/-- One access of the proxy or of a service core, performed at its place as the group's own would be; none while it must
wait. What a load reads is left for the routine (R84, R146, R161, R234). A page that does not grant the access takes no part
in it: the routine ends in the fault. DEDUCED (log 73). -/
def proxyAccess (a : Agent) (die : Nat) (u : TlbUnit) (cn : Nat) (acc : ProxyAccess) (s : State) : Option State :=
  match acc with
  | .load va n =>
    ((lineRuns va.toNat n).foldl (fun (o : Option State) r => o.bind (fun s =>
      match xlate s die u cn (BitVec.ofNat 64 r.1) .r with
      | .ok sp pa => getLine a cn sp pa (lineRun r.1 (n - r.2)) s
      | _ => some s)) (some s)).map (fun s =>
        { s with loaded := (List.range n).map (fun k =>
            match xlate s die u cn (va + BitVec.ofNat 64 k) .r with
            | .ok sp pa => spaceGet s cn 0 sp pa
            | _ => 0) })
  | .store va bs =>
    (lineRuns va.toNat bs.length).foldl (fun (o : Option State) r => o.bind (fun s =>
      match xlate s die u cn (BitVec.ofNat 64 r.1) .w with
      | .ok sp pa => putLine a cn sp pa ((bs.drop r.2).take (lineRun r.1 (bs.length - r.2))) s
      | _ => some s)) (some s)

/-- The HBM places of such an access, line by line, and whether it writes them. -/
def proxyWaits (s : State) (die : Nat) (u : TlbUnit) (cn : Nat) (acc : ProxyAccess) : List (Nat × Bool) :=
  let at_ (va n : Nat) (w : Bool) : List (Nat × Bool) := (lineRuns va n).filterMap (fun r =>
    match xlate s die u cn (BitVec.ofNat 64 r.1) (if w then .w else .r) with
    | .ok .hbm pa => some (pa, w)
    | _ => none)
  match acc with
  | .load va n => at_ va.toNat n false
  | .store va bs => at_ va.toNat bs.length true

/-- The next access of a split's routine or service, one at a time: the event that performs it counts it, and the events of
other agents may come before the next (R84). One that has to wait is kept, and its drain begins (R157). -/
def routineStep (a : Agent) (gi si : Nat) (g : Group) (i : Instr) (acc : ProxyAccess) (s : State) : State :=
  match proxyAccess a g.die g.lanesTlb (s.groupCtx g) acc s with
  | some t => (t.setRoutine gi si (s.routineAt gi si + 1)).accept i
  | none => offer a i (proxyWaits s g.die g.lanesTlb (s.groupCtx g) acc) s

/-- The bytes of the instruction at a split's address: the length that bits 1:0 of its first word give (R71). -/
def sizeAt (s : State) (g : Group) (pc : DWord) : Option Nat :=
  match fetchWord s g pc .x with
  | .word w => some (4 * wordCount (lenOf w))
  | _ => none

/-- An access, an orbit operation or a gathered read of the group has been issued and is not performed. An LDS that waits on an empty
line or an access that waits for a replay stands at an instruction of a split that the routine precedes (R84). -/
def inFlight (s : State) (gi : Nat) : Bool :=
  s.acc.any (fun a => a.group == gi && a.lanes.any (fun l => l.stage == .issued)) || s.orbitOps.any (fun o => o.group == gi) ||
    s.matq.any (fun m => m.group == gi && m.unread != [])

/-- EMULATION_COMPLETE: the routine's next access is performed; when all are, the routine ends, with results in the lanes of
E only, and the group returns to its scheduler (R84). An empty E leaves nothing but the advance. DEDUCED (log 73). -/
def execEmulationComplete (gi si : Nat) (r : EmuResult) (s : State) : Host.Outcome State Fault Refusal :=
  .next (match (s.group? gi).bind (fun g => (g.split? si).map (fun p => (g, p))) with
    | none => s
    | some (g, p) =>
      match p.wait with
      | .emulation w0 =>
        if inFlight s gi || s.frozen || !onCores s g.block then s
        else
          let e := guardLanes g p (guardOf w0)
          let ended := s.setRoutine gi si 0
          (match r with
           | .declined => takeTrap gi si .ill (0#32 ++ w0) (p.mask &&& ~~~g.helpers) 0 ended
           | .fault c aux => if deliverable c then takeTrap gi si c aux (e &&& ~~~g.helpers) 0 ended else s
           | .done accs ws =>
             match (if e = 0 then [] else accs)[s.routineAt gi si]? with
             | some a => routineStep .proxy gi si g (.emulationComplete gi si r) a s
             | none =>
               (applyWrites gi e (if e = 0 then [] else ws) ended).modSplit gi si (fun p =>
                 p.goto (p.pc + BitVec.ofNat 64 (4 * wordCount (lenOf w0)))))
      | _ => s)

/-- Where a split continues behind its SVC. -/
def afterCall (s : State) (g : Group) (p : Split) : DWord :=
  match p.wait with
  | .service _ next => next
  | _ => p.pc + BitVec.ofNat 64 ((sizeAt s g p.pc).getD 12)

/-- SVC_SERVICE_COMPLETE: the service core that runs the call performs its next access; when all are performed, the record is
consumed and the split resumes behind the SVC, or takes the cause in which the service ends (R231, R234, R367).
DEDUCED (log 73). -/
def execSvcServiceComplete (gi si : Nat) (r : SvcResult) (s : State) : Host.Outcome State Fault Refusal :=
  .next (match (s.group? gi).bind (fun g => (g.split? si).map (fun p => (g, p))) with
    | none => s
    | some (g, p) =>
      if p.run != .trapped || p.cause != some .svc || s.frozen || !onCores s g.block || lanesBusy s gi p.mask then s
      else
        match (callRecord s g si).bind (fun q => (callCore s (s.groupCtx g) q).map (fun n => (q, n))) with
        | none => s
        | some (rec_, core) =>
          let ended := eatCall g si (s.setRoutine gi si 0)
          let retake (c : Cause) (aux : DWord) : State := takeTrap gi si c aux rec_.mask 0 (untrap gi si p.pc 0 ended)
          (match r with
           | .undefinedService => retake .opr rec_.aux
           | .fault c aux => if deliverable c then retake c aux else s
           | .resume accs ws =>
             match accs[s.routineAt gi si]? with
             | some a => routineStep (.service core) gi si g (.svcServiceComplete gi si r) a s
             | none => untrap gi si (afterCall s g p) 0 (applyWrites gi rec_.mask ws ended)))

/-! ## Queues (R42, R249, R250) -/

/-- QUEUE_SETUP. -/
def execQueueSetup (c : Cmd) (queue prio : Nat) (ring : DWord) (s : State) : Host.Outcome State Fault Refusal :=
  onCtx c (c.flags == 0) (fun x s =>
    if 64 ≤ queue ∨ 8 ≤ prio then complete c 1 0 s
    else
      complete c 0 0 (s.modCtx x.num (fun x =>
        { x with queues := modNth (fun q => { q with prio := prio, ring := ring }) x.queues queue }))) s

/-- The next launch id: 0 and the ids that unfinished launches hold are passed over; `n` bounds their number. -/
def freeId (held : List (BitVec 32)) : Nat → BitVec 32 → BitVec 32
  | 0, v => v
  | n + 1, v => if v = 0 ∨ held.contains v then freeId held n (v + 1) else v

/-- The arm mask of the kernel at an entry address (R97, R111). -/
def Ctx.armOf (c : Ctx) (entry : DWord) : FlagBits :=
  ((c.texts.findSome? (fun t => t.arms.find? (fun a => a.1 == entry.toNat))).map (fun a => a.2)).getD 0

/-- SUBMIT: firmware reads the descriptor, makes the checks of R250, and the launch waits in its queue (R151).
DEDUCED (log 13). -/
def execSubmit (c : Cmd) (queue : Nat) (desc : DWord) (deps : List (DWord × DWord)) (s : State) :
    Host.Outcome State Fault Refusal :=
  onCtx c (c.flags == 0) (fun x s =>
    if x.state = .killed then complete c 4 0 s
    else if decide (64 ≤ queue) || decide (2 < deps.length) || !x.covers desc.toNat 128 (fun m => m.r) then complete c 1 0 s
    else
      fwRead [(x.num, desc.toNat, 128)] (fun s =>
        let d := parseDesc (fwBytes s x.num desc.toNat 128)
        if d.done.toNat % 16 != 0 || !x.covers d.done.toNat 16 (fun m => m.r && m.w && !m.window) then complete c 1 0 s
        else
          let held := (s.launches.filter (fun l => l.ctx == x.num && (l.phase == .queued || l.phase == .admitted))).map (fun l => l.id)
          let id := freeId held (held.length + 1) x.nextLaunch
          let li := s.launches.length
          let l : Launch := { ctx := x.num, id := id, queue := queue, descVa := desc, desc := d, deps := deps, phase := .queued,
                              arm := x.armOf d.entry, started := [], finished := 0 }
          let s := { s with launches := s.launches ++ [l] }
          complete c 0 (0#32 ++ id) (s.modCtx x.num (fun x =>
            { x with nextLaunch := id + 1, queues := modNth (fun q => { q with waiting := q.waiting ++ [li] }) x.queues queue }))) s) s

/-! ## Contexts (R15, R240, R249) -/

/-- A list names exactly the dies of a partition, each once. -/
def isPerm (dies l : List Nat) : Bool := decide l.Nodup && l.length == dies.length && l.all (fun d => dies.contains d)

/-- The dies of a partition in ascending order, or a permutation of them (R15). -/
def bindTable (dies : List Nat) (perm : Option (List Nat)) : Option (List Nat) :=
  match perm with
  | none => some (dies.mergeSort (fun a b => decide (a ≤ b)))
  | some l => if isPerm dies l then some l else none

/-- The DEBUG bit is permitted in a context in a life-cycle state (R248): in DEPLOYED only where the owner's signed policy
permits it. DESIGN CHOICE (log 90). -/
def debugOk (l : LifeState) (cn : Nat) : Bool := l != .deployed || Config.ownerPolicy cn

/-- The lowest 64 KiB frame of some dies that no context maps, that no stale translation may reach and that is not retired: it begins
a die or ends what lies below it. -/
def freeFrame (s : State) (dies : List Nat) : Option Nat :=
  let up (a : Nat) : Nat := (a + 65535) / 65536 * 65536
  let held := (s.ctxs.flatMap (fun c => (c.maps.filter (fun m => m.space == .hbm)).map (fun m => up (m.target + m.pages * m.psize)))) ++
    s.frames.map (fun f => up (f.1 + f.2.1)) ++ s.retiredFrames.map (fun f => (f + 1) * 65536) ++
    s.acc.flatMap (fun a => a.lanes.map (fun l => up (l.addr + a.bytes)))
  ((dies.map (fun d => d * 2 ^ 37) ++ held).filter (fun f =>
    dies.contains (f / 2 ^ 37) && !frameBusy s f 65536 && s.retiredFrames.all (fun r => r != f / 65536) &&
      s.ctxs.all (fun c => c.maps.all (fun m => m.space != .hbm || !overlaps m.target (m.pages * m.psize) f 65536)))).min?

/-- The mapping of a context's control block: 4 KiB of a frame, read-only (R240). -/
def blockMapping (ccb frame : Nat) : Mapping :=
  { va := ccb, pages := 1, psize := 4096, target := frame, r := true, w := false, x := false, host := false, window := false,
    demand := false }

/-- CTX_CREATE: the new context gets the lowest free number, and firmware maps its control block's page read-only. The command gives
that page by its virtual address: the frame behind it is the lowest free one of the context's dies, zeroed, and where none is free
the command is refused. DESIGN CHOICE (log 18, 30). -/
def execCtxCreate (c : Cmd) (part wdexp : Nat) (debug : Bool) (perm : Option (List Nat)) (ccb trapq pool : DWord)
    (poolSize : Nat) (s : State) : Host.Outcome State Fault Refusal :=
  .next (
    match (s.part? part).bind (fun p => bindTable p.dies perm) with
    | none => complete c 1 0 s
    | some bind =>
      if plainCmd c = false ∨ ccb.toNat % 4096 ≠ 0 ∨ 2 ^ 57 ≤ ccb.toNat ∨ 64 ≤ wdexp then complete c 1 0 s
      else
        match freeFrame s bind with
        | none => complete c 2 0 s
        | some frame =>
        match ((List.range (s.ctxs.length + 1)).map (fun k => k + 1)).find? (fun n =>
            decide (n ≤ 65535) && s.ctxs.all (fun x => x.num != n)) with
        | none => complete c 2 0 s
        | some n =>
          if debug && !debugOk s.life n then complete c 3 0 s
          else
          let x : Ctx :=
            { num := n, state := .ready, reason := none, part := part, bind := bind, debug := debug,
              wdexp := if wdexp = 0 then 26 else wdexp, ccb := ccb, trapq := trapq, savePool := pool, poolSize := poolSize,
              head := 0, tail := 0, traps := [], quota := List.replicate 8 0, svclog := List.replicate 16 none,
              queues := List.replicate 64 { prio := 0, ring := 0, waiting := [] }, nextLaunch := 1, maps := [blockMapping ccb.toNat frame],
              resident := [], texts := [], ports := 0, stopping := false, saveComplete := false, saveCmd := none }
          let s := zeroFrames { x with maps := [] } frame 65536 s
          complete c 0 (BitVec.ofNat 64 n) { s with ctxs := s.ctxs ++ [x] })

/-- The granules of a killed context's frames return to UNCLASSIFIED (R158, R169). -/
def releaseGranules (ms : List Mapping) (s : State) : State :=
  { s with granules := s.granules.filter (fun g => !granuleIn ms g.num) }

/-- A dead context leaves, with all its mappings; its number is free again. -/
def removeCtx (x : Ctx) (s : State) : State :=
  let s := releaseGranules x.maps (x.maps.foldl (fun s m =>
    unmapRange x.num m.va m.pages (if m.psize ≤ 2 ^ 16 then 0 else if m.psize = 2 ^ 21 then 1 else 2) [m] s) s)
  { s with ctxs := s.ctxs.filter (fun y => y.num != x.num), tlb := s.tlb.filter (fun t => t.ctx != x.num),
           collCount := s.collCount.filter (fun k => k.1 != x.num) }

/-- CTX_DESTROY: kill unless it is dead; once what firmware writes of the kill is in memory and the context's granules are
drained, STATE is free, the completion is written and everything unmapped (R158, R240). DEDUCED (log 22). -/
def execCtxDestroy (c : Cmd) (s : State) : Host.Outcome State Fault Refusal :=
  onCtx c (c.flags == 0) (fun x s =>
    let s := flushFw (clearSlots x.num (killCtx x.num 1 s))
    if s.fwOut != [] then s
    else
      match drainAll (granuleIn x.maps) s with
      | (s, false) => s
      | (s, true) =>
        let t := flushFw (complete c 0 0 (fwStore x.num (x.ccb.toNat + 4) (bytesLE 1 0) s))
        if t.fwOut != [] then s else removeCtx x t) s

/-- CTX_KILL: subcode 1. A context that is dead already is in a wrong state. DEDUCED (log 22). -/
def execCtxKill (c : Cmd) (s : State) : Host.Outcome State Fault Refusal :=
  onCtx c (c.flags == 0) (fun x s => if x.state = .killed then complete c 4 0 s else complete c 0 0 (killCtx x.num 1 s)) s

/-! ## Pre-emption of a context (R85, R193, R210, R235, R237) -/

/-- The groups that a stop request halts: with COMPLETE the handlers run on, as their requests must end (R193). -/
def stopped (s : State) (cn : Nat) (allEngines : Bool) : List Nat :=
  (s.haltGroups (s.ctxGroups cn)).filter (fun gi => (s.group? gi).any (fun g => !(allEngines && g.handler.isSome)))

/-- A service call in progress of a group is withdrawn where a test on its accesses so far allows it: the SVC traps again on
resume (R235). -/
def withdrawCalls (may : Nat → Bool) (gi : Nat) (s : State) : State :=
  match s.group? gi with
  | none => s
  | some g =>
    (g.splits.filter (fun p => p.run == .trapped && p.cause == some .svc)).foldl (fun s p =>
      if (callRecord s g p.idx).isSome && may (s.routineAt gi p.idx) then untrap gi p.idx p.pc 0 (eatCall g p.idx s) else s) s

/-- CTX_SAVE: the stop request; waits are abandoned and calls that have made no access withdrawn. The command completes when
the context is saved, and while it waits nothing begins anew. DEDUCED (log 20, 22). -/
def execCtxSave (c : Cmd) (s : State) : Host.Outcome State Fault Refusal :=
  onCtx c (decide (c.flags.toNat < 2)) (fun x s =>
    if x.saveCmd = some c then s
    else if x.stopping || !(x.state == .ready || x.state == .running) then complete c 4 0 s
    else
      (s.ctxGroups x.num).foldl (fun s gi => withdrawCalls (fun n => n == 0) gi s)
        (stopGroups (stopped s x.num (c.flags.getLsbD 0)) (s.modCtx x.num (fun x =>
          { x with stopping := true, saveComplete := c.flags.getLsbD 0, saveCmd := some c })))) s

/-- A credit of one of the context's channels is on its way to the producer: the saved state would miss it (R225, R227). -/
def creditsFly (s : State) (cn : Nat) : Bool :=
  s.channels.any (fun c => decide (0 < c.flying) && (s.launch? c.launch).any (fun l => l.ctx == cn))

/-- CONTEXT_SAVED: work in flight has ended; engines checkpoint, the save areas become valid and STATE becomes SAVED (R235
steps 4 to 7). DEDUCED (log 20, 22). -/
def execContextSaved (ctx : Nat) (s : State) : Host.Outcome State Fault Refusal :=
  .next (match s.ctx? ctx with
    | none => s
    | some x =>
      let gis := s.ctxGroups ctx
      if !x.stopping || s.frozen then s
      else
      let s := stopGroups (stopped s ctx x.saveComplete) s
      if !haltDone s gis x.saveComplete || creditsFly s ctx then s
      else
        let bs := ((s.ctxBlocks ctx).filter (fun b => b.2.cores != [])).map (fun b => b.1)
        let s := gis.foldl (fun s gi => withdrawCalls (fun _ => true) gi s) s
        let s := bs.foldl (fun s bi => saveBlock bi s) s
        let s := applyLogs x.bind s
        let s := s.modCtx ctx (fun x =>
          { x with state := .saved, reason := some .preempt, stopping := false, saveCmd := none })
        match x.saveCmd with
        | some c => complete c 0 0 s
        | none => s)

/-- A placement of every saved block that stood on cores, each beside those before it. -/
def placesOk (s : State) (bind : List Nat) : Occ → List (Nat × Block) → List Placement → Bool
  | _, [], [] => true
  | o, (_, b) :: bs, p :: ps =>
    match s.launch? b.launch with
    | none => false
    | some l =>
      let f := bufferBytes (s.channelsOf b.launch) b.lin
      let die := bind.getD (b.lin % bind.length) 0
      placementOk o die l.desc f p && placesOk s bind (o.add die l.desc f p) bs ps
  | _, _, _ => false

/-- The save areas of some blocks, which firmware reads (R151, R237). -/
def saveRuns (s : State) (bs : List (Nat × Block)) : List FwRun :=
  bs.filterMap (fun b => (s.launch? b.2.launch).map (fun l => saveRun s l b.2))

/-! ### Frames of a context that moves to another partition (R14, R15) -/

/-- The place of an HBM address when virtual die j moves from one physical die to another. -/
def movedPa (old new : List Nat) (pa : Nat) : Nat :=
  match old.findIdx? (fun d => d == pa / 2 ^ 37) with
  | some j => new.getD j 0 * 2 ^ 37 + pa % 2 ^ 37
  | none => pa

/-- A mapping with its HBM frames moved so, a part for each die that it spans. -/
def Mapping.moved (old new : List Nat) (m : Mapping) : List Mapping :=
  if m.space != .hbm then [m]
  else
    (List.range 9).filterMap (fun d =>
      let lo := max m.target (d * 2 ^ 37)
      let hi := min (m.target + m.pages * m.psize) ((d + 1) * 2 ^ 37)
      if lo < hi then
        some { m with va := m.va + (lo - m.target), target := movedPa old new lo, pages := (hi - lo) / m.psize }
      else none)

/-- An HBM address lies in one of some mappings. -/
def heldBy (ms : List Mapping) (pa : Nat) : Bool :=
  ms.any (fun m => m.space == .hbm && decide (m.target ≤ pa) && decide (pa < m.target + m.pages * m.psize))

/-- The frames that a context would take are free: no context maps them, none may still be reached, none is retired. -/
def framesFree (s : State) (ms : List Mapping) : Bool :=
  ms.all (fun m => m.space != .hbm ||
    (s.ctxs.all (fun c => c.maps.all (fun o => o.space != .hbm || !overlaps o.target (o.pages * o.psize) m.target (m.pages * m.psize))) &&
      !frameBusy s m.target (m.pages * m.psize) &&
      s.retiredFrames.all (fun f => !overlaps m.target (m.pages * m.psize) (f * 2 ^ 16) (2 ^ 16))))

/-- A core on which a block of the context stands or last stood. -/
def ctxCore (s : State) (cn die core : Nat) : Bool :=
  (s.ctxBlocks cn).any (fun b => b.2.die == die && (b.2.cores.contains core || b.2.lastCores.contains core))

/-- The records of a context's granules at their new frames: the class goes with the data, and a PRIVATE granule, which migration
then gives to the block's new core, stays PRIVATE (R46); one of a core of no block of the context is UNCLASSIFIED. -/
def movedGranules (x : Ctx) (new : List Nat) (s : State) : List Granule :=
  (s.granules.filter (fun g => heldBy x.maps (4096 * g.num))).filterMap (fun g =>
    let keep (hs : List Agent) : Option Granule :=
      some { num := movedPa x.bind new (4096 * g.num) / 4096, cls := g.cls, holders := hs, drain := none, held := [] }
    match g.cls with
    | .private_ d k _ => if ctxCore s x.num d k then keep [.core d k] else none
    | .unclassified => none
    | _ => keep [])

/-- Firmware copies the frames of a context to the dies of its new partition, where its mappings lead from then on, with the classes
of their granules; no cached translation, line or sector of them stays, and frames that no other context maps return to
UNCLASSIFIED. -/
def moveFrames (x : Ctx) (new : List Nat) (s : State) : State :=
  let maps := x.maps.flatMap (Mapping.moved x.bind new)
  let others := (s.ctxs.filter (fun c => c.num != x.num)).flatMap (fun c => c.maps)
  let left (pa : Nat) : Bool := heldBy x.maps pa && !heldBy others pa
  let cleared := s.mem.filter (fun c => !heldBy maps c.1)
  let s : State := { s with
    mem := (s.mem.filter (fun c => heldBy x.maps c.1)).foldl (fun m c => Tab.put 0 m (movedPa x.bind new c.1) c.2) cleared,
    granules := (movedGranules x new s).foldl (fun gs g => putGranule g gs) (s.granules.filter (fun g => !left (4096 * g.num))),
    dir := s.dir.filter (fun d => !left (128 * d.line)), l1 := s.l1.filter (fun l => !left (128 * l.line)),
    cleanLines := s.cleanLines.filter (fun l => !left (128 * l.1)),
    icache := s.icache.filter (fun e => !left (32 * e.sector) && !heldBy maps (32 * e.sector)),
    tlb := s.tlb.filter (fun t => t.ctx != x.num) }
  s.modCtx x.num (fun x => { x with maps := maps })

/-- CTX_RESTORE: a SAVED context takes the dies of a partition of its size, and its blocks are read back from their valid save
areas and resume (R15, R46, R237, R238). The spec does not say what becomes of the context's frames when it moves to another
partition: firmware copies them to the same offsets of the dies that take their place, so that no context reaches a die outside
its partition (R14); where a frame there is taken, the command is refused. DESIGN CHOICE (log 85). DEDUCED (log 31). -/
def execCtxRestore (c : Cmd) (part : Nat) (perm : Option (List Nat)) (places : List Placement) (s : State) :
    Host.Outcome State Fault Refusal :=
  onCtx c (c.flags == 0) (fun x s =>
    if x.state ≠ .saved then complete c 4 0 s
    else
      match (s.part? part).bind (fun p => bindTable p.dies perm) with
      | none => complete c 1 0 s
      | some bind =>
        let bs := (s.ctxBlocks x.num).filter (fun b => b.2.cores != [])
        let away := part != x.part
        if bind.length ≠ x.bind.length ∨ bs.any (fun b => !saveValid s x.num b.2) then complete c 1 0 s
        else if !placesOk s bind (occupied s none) bs places || (away && !framesFree s (x.maps.flatMap (Mapping.moved x.bind bind))) then
          complete c 2 0 s
        else
          fwRead (saveRuns s bs) (fun s =>
          let s := if away then moveFrames x bind s else s
          let run := s.launches.any (fun l => l.ctx == x.num && l.phase == .admitted)
          let s := applyLogs bind s
          let s := s.modCtx x.num (fun x => { x with bind := bind, part := part, state := if run then .running else .ready })
          let s := (bs.zip places).foldl (fun s y =>
            let b := y.1.2
            (readSave y.1.1 (resumeBlock y.1.1 (bind.getD (b.lin % bind.length) 0) y.2 b.die b.cores s))) s
          complete c 0 0 s) s) s

/-! ## SPLIT_RESUME (R232) -/

/-- The record of a split's trap waits for a place in the ring, and the split stays stopped until then (R231). -/
def recordWaits (s : State) (g : Group) (si : Nat) : Bool :=
  (s.groupCtx? g).any (fun c => (c.traps.drop c.inRing).any (fun r =>
    r.cause != .svc && r.split.toNat == si && r.group == g.groupId &&
      r.block.toNat == ((s.block? g.block).map (fun b => b.lin)).getD 0))

/-- What SPLIT_RESUME does to the split of a group of the context; `saved` marks a block whose state lies in its save area, to
which firmware writes it. The spec does not say how SKIP ends where the word at PC cannot be fetched, so that its length is not
known: with STATUS 1. DESIGN CHOICE (log 105). -/
def resumeSplit (c : Cmd) (x : Ctx) (gi si : Nat) (w : List RegWrite) (act : ResumeAction) (saved : Bool) (s : State) : State :=
  match (s.group? gi).bind (fun g => (g.split? si).map (fun p => (g, p))) with
  | none => complete c 1 0 s
  | some (g, p) =>
    if s.groupCtx g ≠ x.num ∨ p.run ≠ .trapped ∨ p.cause = some .svc then complete c 1 0 s
    else if act ≠ .kill ∧ recordWaits s g si then s
    else
      let s' := applyWrites gi p.mask w s
      let done (s : State) : State := complete c 0 0 (if saved then writeGroup gi s else s)
      match act with
      | .retry => done (untrap gi si p.pc (if p.cause = some .pf ∨ p.cause = some .emptyto then p.pend else 0) s')
      | .skip =>
        (match sizeAt s g p.pc with
         | some n => done (untrap gi si (p.pc + BitVec.ofNat 64 n) 0 s')
         | none => complete c 1 0 s)
      | .goto pc => if s.inText g pc then done (untrap gi si pc 0 s') else complete c 1 0 s
      | .kill => complete c 0 0 (killCtx x.num 1 s')

/-- The block of a group of a context whose state lies in its save area: it stands on no core (R235). -/
def savedBlock? (s : State) (cn gi : Nat) : Option (Nat × Block) :=
  (s.group? gi).bind (fun g =>
    if s.groupCtx g = cn ∧ g.retired = false ∧ onCores s g.block = false then (s.block? g.block).map (fun b => (g.block, b)) else none)

/-- SPLIT_RESUME: writes into the split's registers, then RETRY, SKIP, GOTO or KILL. The state of a block that stands on no core
is read from its save area, changed and written there. DEDUCED (log 32, 62). -/
def execSplitResume (c : Cmd) (gi si : Nat) (w : List RegWrite) (act : ResumeAction) (s : State) :
    Host.Outcome State Fault Refusal :=
  onCtx c (c.flags == 0) (fun x s =>
    if x.state = .killed then complete c 4 0 s
    else
      match savedBlock? s x.num gi with
      | none => resumeSplit c x gi si w act false s
      | some b => fwRead (saveRuns s [b]) (fun s => resumeSplit c x gi si w act true (readSave b.1 s)) s) s

/-! ## Orbit quotas (R213) -/

/-- The slots of a track that satisfy a test, ascending. -/
def trackSlots (s : State) (t : Nat) (p : Slot → Bool) : List Nat :=
  ((List.range 256).map (fun k => t * 256 + k)).filter (fun id => p (s.slot id))

/-- One track's quota set: the lowest free positions are tagged, or the highest unheld slots untagged and cleared. -/
def setQuota (cn t q : Nat) (s : State) : State :=
  let mine := trackSlots s t (fun v => v.tag.toNat == cn)
  if mine.length ≤ q then
    ((trackSlots s t (fun v => v.tag == 0)).take (q - mine.length)).foldl (fun s id =>
      s.setSlot id { s.slot id with tag := BitVec.ofNat 16 cn }) s
  else
    ((mine.filter (fun id => !(s.slot id).held)).reverse.take (mine.length - q)).foldl (fun s id => s.setSlot id Slot.free) s

/-- A track cannot take a quota: too few free positions, or held slots above it. -/
def quotaBad (s : State) (cn t q : Nat) : Bool :=
  let mine := trackSlots s t (fun v => v.tag.toNat == cn)
  decide (q < (mine.filter (fun id => (s.slot id).held)).length) ||
    decide (mine.length + (trackSlots s t (fun v => v.tag == 0)).length < q)

/-- ORBIT_QUOTA. DEDUCED (log 22). -/
def execOrbitQuota (c : Cmd) (quota : List Nat) (s : State) : Host.Outcome State Fault Refusal :=
  onCtx c (c.flags == 0) (fun x s =>
    if quota.length ≠ 8 then complete c 1 0 s
    else if x.state = .killed then complete c 4 0 s
    else if (List.range 8).any (fun t => quotaBad s x.num t (quota.getD t 0)) then complete c 2 0 s
    else
      let s := (List.range 8).foldl (fun s t => setQuota x.num t (quota.getD t 0) s) s
      complete c 0 0 (s.modCtx x.num (fun x => { x with quota := quota }))) s

/-- PORT_BIND (R251). -/
def execPortBind (c : Cmd) (mask : BitVec 12) (s : State) : Host.Outcome State Fault Refusal :=
  onCtx c (c.flags == 0) (fun x s => complete c 0 0 (s.modCtx x.num (fun x => { x with ports := mask }))) s

/-! ## Partitions (R14, R220, R242) -/

/-- The dies lose everything they hold: HBM, slices and core-local storage (R14, R247). -/
def wipeDies (dies : List Nat) (s : State) : State :=
  let on (pa : Nat) : Bool := dies.contains (pa / 2 ^ 37)
  { s with
    mem := s.mem.filter (fun x => !on x.1), granules := s.granules.filter (fun g => !on (4096 * g.num)),
    dir := s.dir.filter (fun d => !on (128 * d.line)), l1 := s.l1.filter (fun l => !dies.contains l.die),
    icache := s.icache.filter (fun e => !dies.contains e.die && !on (32 * e.sector)),
    tlb := s.tlb.filter (fun t => !dies.contains t.die), logs := s.logs.filter (fun l => !dies.contains l.die),
    frames := s.frames.filter (fun f => !on f.1) }

/-- No context keeps a mapping onto the HBM of some dies: one that was restored onto another partition has kept its mappings
onto them until they left their own (R14). DESIGN CHOICE (log 85). -/
def unmapDies (dies : List Nat) (s : State) : State :=
  let on (m : Mapping) : Bool := m.space == .hbm && dies.any (fun d => overlaps m.target (m.pages * m.psize) (d * 2 ^ 37) (2 ^ 37))
  { s with ctxs := s.ctxs.map (fun x => { x with maps := x.maps.filter (fun m => !on m) }),
           tlb := s.tlb.filter (fun t => !on t.map) }

/-- PART_CREATE: enabled dies that no partition holds; weights from 1 to 8 for the four channels, or none for the
defaults. Which STATUS an empty mask gets, or one that names a disabled die or a die of another partition, the spec does not say:
it is 1 here, invalid argument. The spec does not say what becomes of virtual function n + 1 when its partition goes: its TDISP state and session
stay, and the next partition of the number takes them over. DESIGN CHOICE (log 7, 30, 86). -/
def execPartCreate (c : Cmd) (dies : List Nat) (weights : List Nat) (s : State) : Host.Outcome State Fault Refusal :=
  .next (
    let free (d : Nat) : Bool := enabledDie s d && s.parts.all (fun p => !p.dies.contains d)
    if plainCmd c = false ∨ dies = [] ∨ ¬ dies.Nodup ∨ ¬ dies.all free ∨
        ¬ (weights = [] ∨ (weights.length = 4 ∧ weights.all (fun w => decide (1 ≤ w) && decide (w ≤ 8)))) then
      complete c 1 0 s
    else
      match (List.range 9).find? (fun n => s.parts.all (fun p => p.num != n)) with
      | none => complete c 2 0 s
      | some n =>
        let p : Part := { num := n, dies := dies.mergeSort (fun a b => decide (a ≤ b)),
                          weights := if weights = [] then [2, 2, 1, 4] else weights }
        let i := Iface.fresh (n + 1)
        complete c 0 (BitVec.ofNat 64 n)
          { s with parts := s.parts ++ [p], ifaces := if s.ifaces.any (fun j => j.fn == n + 1) then s.ifaces else s.ifaces ++ [i] })

/-- PART_DESTROY: a partition that still has contexts is refused; else its dies are wiped, and no mapping leads to them any
more (R14). DEDUCED (log 22). -/
def execPartDestroy (c : Cmd) (part : Nat) (s : State) : Host.Outcome State Fault Refusal :=
  .next (match s.part? part with
    | none => complete c 1 0 s
    | some p =>
      if !plainCmd c then complete c 1 0 s
      else if s.ctxs.any (fun x => x.part == part) then complete c 4 0 s
      else complete c 0 0 (unmapDies p.dies (wipeDies p.dies { s with parts := s.parts.filter (fun q => q.num != part) })))

/-! ## Emulation libraries (R83) -/

/-- EMU_INSTALL: a library whose signature fails is refused; it holds at most one decoder for each of majors 56 to 63.
DEDUCED (log 31). -/
def execEmuInstall (c : Cmd) (library : DWord) (signatureOk : Bool) (majors : List Nat) (s : State) :
    Host.Outcome State Fault Refusal :=
  .next (
    if plainCmd c = false ∨ ¬ majors.Nodup ∨ majors.any (fun m => decide (m < 56) || decide (63 < m)) ∨ 2 ^ 57 ≤ library.toNat then
      complete c 1 0 s
    else if !signatureOk then complete c 3 0 s
    else complete c 0 0 { s with emuMajors := majors })

end Sys2Proof.Machine
end

