-- ==== Sys2Proof/Machine/Coherence.lean ====
section
/-! DEFINITION. The directory protocol between L1s and homes (R170, R171, R220). Values are kept in the single order alone; the
protocol moves the states of lines and never a value. -/

namespace Sys2Proof.Machine

open Sys2Proof

/-! ## Messages and their channels (R170, R220) -/

/-- The messages of the protocol, and the other traffic of the mesh: sectors of engine operations, accesses to windows and HOST
pages with their data, channel data and credits. -/
inductive Msg where
  | read | readExclusive | upgrade | data | invalidation | forward | snoop | drainRequest | ack | noData | writeBack
  | engineSector | plainRequest | plainData | channelData | channelCredit
deriving DecidableEq, Repr

/-- The virtual channel of a message, by the class that the core holds for the line's granule: requests and data of READONLY
lines on VC0 and VC1, data of PRIVATE lines on VC1, those of any other on VC3; what the home sends unasked on VC0; answers on VC1;
engines on VC2; windows, HOST pages and channels on VC3. The channel of a request for a PRIVATE line is open; it is VC3 here.
DESIGN CHOICE (log 41). -/
def Msg.vc (c : Option LineClass) : Msg → Nat
  | .read | .readExclusive | .upgrade => if c = some .readonly then 0 else 3
  | .data => if c = some .readonly ∨ c = some .private_ then 1 else 3
  | .invalidation | .forward | .snoop | .drainRequest => 0
  | .ack | .noData | .writeBack => 1
  | .engineSector => 2
  | .plainRequest | .plainData | .channelData | .channelCredit => 3

/-- What carries data travels on the data plane, the rest on the control plane (R219). -/
def Msg.hasData : Msg → Bool
  | .data | .writeBack | .engineSector | .plainData | .channelData => true
  | _ => false

/-- The message of an event of the protocol, of an engine or of a channel, with the class that decides its channel. -/
def eventMsg (s : State) : Instr → Option (Msg × Option LineClass)
  | .coherenceRead d k l => some (.read, classHeld s d k (l / 32))
  | .readExclusive d k l => some (.readExclusive, classHeld s d k (l / 32))
  | .upgrade d k l => some (.upgrade, classHeld s d k (l / 32))
  | .dataResponse d k l => some (.data, classHeld s d k (l / 32))
  | .invalidation _ _ _ => some (.invalidation, none)
  | .forward _ _ _ => some (.forward, none)
  | .acknowledgement d k l => some (if l1State s d k l = some .mi then .noData else .ack, none)
  | .writeBack _ _ _ => some (.writeBack, none)
  | .backInvalidateSnoop _ => some (.snoop, none)
  | .backInvalidateResponse _ => some (.ack, none)
  | .drainRequest _ _ => some (.drainRequest, none)
  | .engineSectorRead _ _ | .engineSectorWrite _ _ => some (.engineSector, none)
  | .channelCredit _ _ => some (.channelCredit, none)
  | _ => none

/-- The plane (0 data, 1 control) and the channel on which the message of an event travels (R170, R219, R220). -/
def eventChannel (s : State) (i : Instr) : Option (Nat × Nat) :=
  (eventMsg s i).map (fun x => (if x.1.hasData then 0 else 1, x.1.vc x.2))

/-! ## The home -/

/-- A request goes before another: an earlier cycle, or the same one with a lower die, then a lower core (R171). -/
def HomeReq.before (a b : HomeReq) : Bool :=
  decide (a.at_ < b.at_) || (a.at_ == b.at_ && (decide (a.die < b.die) || (a.die == b.die && decide (a.core < b.core))))

/-- The requests of a line in order of arrival, those of one cycle by die and core (R171). -/
def enqueueReq (line : Nat) (r : HomeReq) (s : State) : State :=
  let d := s.dirLine line
  s.setDirLine { d with queue := d.queue.takeWhile (fun q => !r.before q) ++ r :: d.queue.dropWhile (fun q => !r.before q) }

/-- The home begins its next request: invalidations and forwards leave, or the grant follows at once. -/
def beginReq (d : DirLine) (r : HomeReq) : DirLine :=
  let me := (r.die, r.core)
  let grant (st : DirState) (owner : Option (Nat × Nat)) (sh : List (Nat × Nat)) : DirLine :=
    { d with st := st, owner := owner, sharers := sh, awaiting := [], serving := none }
  let others := d.sharers.filter (fun c => c != me)
  if !r.excl then
    match d.st, d.owner with
    | .i, _ => grant .em (some me) []
    | .s, _ => grant .s none (addNew me d.sharers)
    | _, some o => if o = me then grant d.st (some me) d.sharers else { d with st := .fw, awaiting := [o], serving := some r }
    | _, none => grant .em (some me) []
  else
    match d.owner with
    | some o =>
      let wait := (if o = me then [] else [o]) ++ others
      if wait = [] then grant .em (some me) []
      else { d with st := if o = me then .iv else .fw, awaiting := wait, serving := some r }
    | none => if others = [] then grant .em (some me) [] else { d with st := .iv, awaiting := others, serving := some r }

/-- An idle home serves the next requests that arrived before a cycle, as those of one cycle are ordered first; `n` bounds
their number. -/
def serveLine (now : Nat) : Nat → DirLine → DirLine
  | 0, d => d
  | n + 1, d =>
    match d.serving, d.queue with
    | none, r :: rest => if r.at_ < now then serveLine now n (beginReq { d with queue := rest } r) else d
    | _, _ => d

def serve (line : Nat) (s : State) : State :=
  let d := s.dirLine line
  s.setDirLine (serveLine s.now d.queue.length d)

/-- Every home serves what arrived in the cycles before (R171). -/
def serveHomes (s : State) : State :=
  ((s.dir.filter (fun d => d.queue != [] && d.serving.isNone)).map (fun d => d.line)).foldl (fun s l => serve l s) s

/-- A request leaves for its home on the channel of the class that its core holds. -/
def request (die core line : Nat) (m : Msg) (st : L1State) (s : State) : State :=
  let r : HomeReq := { die := die, core := core, excl := m != .read, upgrade := m == .upgrade, at_ := s.now,
                       vc := m.vc (classHeld s die core (line / 32)) }
  enqueueReq line r (s.setL1 die core line (some st) none)

/-- The core to which the granule of a line is PRIVATE: it holds the lines without the directory (R170). -/
def privateTo (s : State) (line : Nat) : Option (Nat × Nat) :=
  match (s.granule (line / 32)).cls with
  | .private_ d k _ => some (d, k)
  | _ => none

/-- An L1 without the line asks for it, which takes a way of its set; a line of a granule PRIVATE to the core comes without
directory traffic, and one that is PRIVATE to another waits for its drain. The core and the line's home are those of enabled
dies (R11, R13, R157, R170). -/
def askLine (die core line : Nat) (m : Msg) (st granted : L1State) (s : State) : State :=
  if (s.l1Find die core line).isSome || !enabledCore s die core || !enabledDie s (homeDie (128 * line)) || !roomFor s die core line then s
  else
    match privateTo s line with
    | none => request die core line m st (makeRoom die core line s)
    | some k =>
      if k = (die, core) then
        let s := makeRoom die core line s
        let s := if granted = .m then keepClean line s else s
        learnClass die core (line / 32) (some .private_) (s.setL1 die core line (some granted) none)
      else s

/-- COHERENCE_READ: a core's read request. DEDUCED (log 41). -/
def execCoherenceRead (die core line : Nat) (s : State) : Host.Outcome State Fault Refusal :=
  .next (askLine die core line .read .is .e s)

/-- READ_EXCLUSIVE. DEDUCED (log 41). -/
def execReadExclusive (die core line : Nat) (s : State) : Host.Outcome State Fault Refusal :=
  .next (askLine die core line .readExclusive .im .m s)

/-- UPGRADE: an L1 that holds S or O asks for ownership. If its copy is invalidated before the home serves it, the home
answers with data, as to a read-exclusive (R171). DEDUCED (log 41). -/
def execUpgrade (die core line : Nat) (s : State) : Host.Outcome State Fault Refusal :=
  .next (match l1State s die core line with
    | some .s | some .o =>
      if (privateTo s line).isSome then (keepClean line s).setL1 die core line (some .m) none
      else request die core line .upgrade .sm s
    | _ => s)

/-- INVALIDATION: a sharer's L1 drops its copy (the owner gets a forward); an upgrade outstanding becomes a read-exclusive. DEDUCED (log 41). -/
def execInvalidation (die core line : Nat) (s : State) : Host.Outcome State Fault Refusal :=
  .next (
    if !(s.dirLine line).awaiting.contains (die, core) || (s.dirLine line).owner == some (die, core) then s
    else
      match l1State s die core line with
      | some .sm => s.setL1 die core line (some .im) none
      | some .s | some .o | some .e | some .m => s.setL1 die core line none none
      | _ => s)

/-- An owner honours a forward: it keeps a shared copy for a read, and drops the line otherwise. -/
def honour (die core line : Nat) (excl : Bool) (s : State) : State :=
  match l1State s die core line with
  | some .m | some .o => s.setL1 die core line (if excl then none else some .o) none
  | some .e => s.setL1 die core line (if excl then none else some .s) none
  | _ => s

/-- The core has an access to the line that it has not performed. -/
def pendingAt (s : State) (die core line : Nat) : Bool :=
  s.acc.any (fun a => (s.group? a.group).any (fun g => g.die == die && g.core == core) &&
    a.lanes.any (fun l => l.stage == .issued && l.space == .hbm && l.addr / 128 == line))

/-- FORWARD: the owner sends the data; while its own grant is outstanding it holds the forward, and it honours a held one once
its pending access is performed; in MI it has no data. DEDUCED (log 41). -/
def execForward (die core line : Nat) (s : State) : Host.Outcome State Fault Refusal :=
  .next (
    let d := s.dirLine line
    match d.serving with
    | none => s
    | some r =>
      if d.owner ≠ some (die, core) ∨ d.awaiting.contains (die, core) = false then s
      else
        match l1State s die core line with
        | some .im => s.setL1 die core line (some .im) (some (r.die, r.core))
        | some .sm => s.setL1 die core line (some .sm) (some (r.die, r.core))
        | _ =>
          if ((s.l1Find die core line).bind (fun l => l.heldForward)).isSome && pendingAt s die core line then s
          else honour die core line r.excl s)

/-- The home's grant to the request that it serves, when nothing is awaited: E only where no other copy is left (R170). -/
def grantServed (ownerKeeps : Option L1State) (d : DirLine) : DirLine :=
  match d.serving with
  | none => d
  | some r =>
    if d.awaiting ≠ [] then d
    else
      let me := (r.die, r.core)
      let base := { d with serving := none, awaiting := [] }
      if r.excl then { base with st := .em, owner := some me, sharers := [] }
      else
        match ownerKeeps with
        | some .o => { base with st := .o, sharers := addNew me d.sharers }
        | some .s => { base with st := .s, owner := none, sharers := addNew me (addNew (d.owner.getD me) d.sharers) }
        | _ =>
          if d.sharers.filter (fun c => c != me) = [] then { base with st := .em, owner := some me, sharers := [] }
          else { base with st := .s, owner := none, sharers := addNew me d.sharers }

/-- The home has the answer to a forward from an owner in MI and its write-back: it acknowledges the write-back, which ends at
the L1, and grants the request (R171). -/
def endForward (die core line : Nat) (d : DirLine) (s : State) : State :=
  serve line ((s.setL1 die core line none none).setDirLine
    (grantServed none { d with awaiting := d.awaiting.filter (fun c => c != (die, core)), wbHere := false }))

/-- ACKNOWLEDGEMENT: the home hears from a sharer it invalidated or an owner it forwarded to. The no-data answer of an owner in
MI ends the forward when the write-back has arrived, and otherwise leaves the home waiting for it. DEDUCED (log 41). -/
def execAcknowledgement (die core line : Nat) (s : State) : Host.Outcome State Fault Refusal :=
  .next (
    let d := s.dirLine line
    let st := l1State s die core line
    if !d.awaiting.contains (die, core) then s
    else if d.owner = some (die, core) then
      match st with
      | some .mi => if d.wbHere then endForward die core line d s else s.setDirLine { d with st := .wbf }
      | some .m | some .e | some .im | some .sm => s
      | st =>
        if ((s.l1Find die core line).bind (fun l => l.heldForward)).isSome then s
        else
          serve line (s.setDirLine (grantServed st { d with awaiting := d.awaiting.filter (fun c => c != (die, core)) }))
    else
      match st with
      | some .s | some .o | some .sm => s
      | _ => serve line (s.setDirLine (grantServed none { d with awaiting := d.awaiting.filter (fun c => c != (die, core)) })))

/-- DATA_RESPONSE: data or a grant arrives at the requesting L1 with the class of the granule (R153); a forward that it holds
waits for its pending access. DEDUCED (log 41). -/
def execDataResponse (die core line : Nat) (s : State) : Host.Outcome State Fault Refusal :=
  .next (
    let d := s.dirLine line
    let me := (die, core)
    let held := (s.l1Find die core line).bind (fun l => l.heldForward)
    let learn (s : State) : State := learnClass die core (line / 32) (s.granule (line / 32)).cls.lineClass s
    match l1State s die core line with
    | some .is =>
      if d.owner = some me then learn (s.setL1 die core line (some .e) none)
      else if d.sharers.contains me then learn (s.setL1 die core line (some .s) none)
      else s
    | some .im | some .sm =>
      if d.owner = some me then learn ((keepClean line s).setL1 die core line (some .m) held) else s
    | _ => s)

/-- L1_EVICTION: a dirty line is sent back and its data no longer held; a PRIVATE line goes without the directory.
DEDUCED (log 41). -/
def execL1Eviction (die core line : Nat) (s : State) : Host.Outcome State Fault Refusal :=
  .next (match l1State s die core line with
    | some .m | some .o => s.setL1 die core line (if (privateTo s line).isSome then none else some .mi) none
    | _ => s)

/-- WRITE_BACK: the home takes the data and acknowledges. While a forward is open, the data are the answer to it, whichever of
the write-back and the no-data answer arrives first (R171). DEDUCED (log 41). -/
def execWriteBack (die core line : Nat) (s : State) : Host.Outcome State Fault Refusal :=
  .next (
    let d := s.dirLine line
    if l1State s die core line ≠ some .mi ∨ d.owner ≠ some (die, core) then s
    else
      match d.st with
      | .fw => s.setDirLine { d with wbHere := true }
      | .wbf => endForward die core line d s
      | _ =>
        serve line ((s.setL1 die core line none none).setDirLine
          { d with owner := none, st := if d.sharers = [] then .i else .s }))

end Sys2Proof.Machine
end

