-- ==== Sys2Proof/Machine/Pred.lean ====
section
/-! DEFINITION. Comparison, predicates and selection: major 12 (R322, R350, R351, R360). -/

namespace Sys2Proof.Machine

open Sys2Proof Sys2Proof.Num

/-- The condition codes of ICMP (R119): 0 eq, 1 ne, 2 lt, 3 le, 4 gt, 5 ge. -/
def icmpOp (cc : Nat) (a b : Int) : Bool :=
  match cc with
  | 0 => decide (a = b)
  | 1 => decide (a ≠ b)
  | 2 => decide (a < b)
  | 3 => decide (a ≤ b)
  | 4 => decide (b < a)
  | _ => decide (b ≤ a)

/-- ICMP (R322). -/
def execIcmp (x : Ext) (s : State) : Host.Outcome State Fault Refusal :=
  predExt (.icmp x) x (fun g L =>
    (icmpOp (x.var.toNat % 8) (elemInt x.ty (opA g x x.ty.wide L) 0) (elemInt x.ty (opB g x x.ty.wide L) 0), 0)) s

/-- PLOP: bit 2·pA + pB of the table (R350). -/
def execPlop (x : Ext) (s : State) : Host.Outcome State Fault Refusal :=
  predExt (.plop x) x (fun g L =>
    (x.var.getLsbD ((if (g.pget (x.a.toNat % 16)).getLsbD L then 2 else 0)
      + (if (g.pget (x.b.toNat % 16)).getLsbD L then 1 else 0)), 0)) s

/-- The predicate as a lane mask: bits of absent lanes read 0, and pT reads as 0xFFFF (R351). -/
def predMask (g : Group) (p : Nat) : LaneMask := if p = 15 then 0xFFFF#16 else g.pget p &&& g.present

/-- PMOV in its two directions (R351). -/
def execPmov (x : Ext) (s : State) : Host.Outcome State Fault Refusal :=
  if x.var = 0 then predExt (.pmov x) x (fun g L => ((g.rget x.aU false x.a.toNat L).getLsbD L, 0)) s
  else aluExt (.pmov x) x false (fun g _ => (0#48 ++ predMask g (x.a.toNat % 16), 0)) s

/-- SEL (R360). -/
def execSel (x : Ext) (s : State) : Host.Outcome State Fault Refusal :=
  aluExt (.sel x) x x.ty.wide (fun g L =>
    (if (g.pget (x.c.toNat % 16)).getLsbD L then opA g x x.ty.wide L else opB g x x.ty.wide L, 0)) s

end Sys2Proof.Machine
end

