-- ==== Sys2Proof/Machine/Exchange.lean ====
section
/-! DEFINITION. Exchanges between lanes, votes, reductions and scans: majors 24 and 25 (R116, R315 to R317, R355,
R356). -/

namespace Sys2Proof.Machine

open Sys2Proof Sys2Proof.Num

/-- An exchange: D[L] ← A of a source lane (R356). -/
def exchange (i : Instr) (x : Ext) (src : Group → Nat → Nat) (s : State) : Host.Outcome State Fault Refusal :=
  aluExt i x x.ty.wide (fun g L => (g.rget x.aU x.ty.wide x.a.toNat (src g L), 0)) s

def execQbcast (x : Ext) (s : State) := exchange (.qbcast x) x (fun _ L => L / 4 * 4 + x.var.toNat % 4) s
def execQswap (x : Ext) (s : State) := exchange (.qswap x) x (fun _ L => L ^^^ (x.var.toNat % 4)) s
def execShuf (x : Ext) (s : State) := exchange (.shuf x) x (fun g L => (opB g x false L).toNat % 16) s

/-- GVOTE (R317): ballot into D, any and all into a predicate; helpers do not vote. -/
def execGvote (x : Ext) (s : State) : Host.Outcome State Fault Refusal :=
  runInstr (.gvote x) x.guard (fun k s =>
    let m := k.real &&& k.g.pget (x.a.toNat % 16)
    advance k (s.modGroup k.gi (fun g =>
      if x.var = 0 then writeD x false k.e (fun _ => 0#48 ++ m) g
      else writeP x k.e (fun _ => if x.var = 1 then decide (m ≠ 0) else decide (m = k.real)) g))) s

/-! ## Reductions and scans -/

/-- The operations of GREDUCE and GSCAN (R315): 0 add, 1 min, 2 max, 3 and, 4 or, 5 xor. -/
def redIdentity (ty : Ty) (op : Nat) : Nat :=
  let w := (tyShape ty).1
  let fl := ty == .f32 || ty == .f64
  match op with
  | 0 => if fl then 2 ^ (w - 1) else 0
  | 1 => if fl then ((2 ^ (ofTy ty).ew - 1) * 2 ^ (ofTy ty).fw) else wrap w (intMax ty.signed w)
  | 2 => if fl then ((2 ^ (ofTy ty).ew - 1) * 2 ^ (ofTy ty).fw) + 2 ^ (w - 1) else wrap w (intMin ty.signed w)
  | 3 => 2 ^ w - 1
  | _ => 0

/-- One ⊕ of R116: float nodes round by RM and canonicalise NaNs; integer add wraps or saturates with IOV. -/
def redOp (ty : Ty) (op : Nat) (rm : Rm) (sat : Bool) (a b : Nat) : Nat × FlagBits :=
  let w := (tyShape ty).1
  if ty = .f32 ∨ ty = .f64 then
    let f := ofTy ty
    let va := dec f a
    let vb := dec f b
    match op with
    | 0 => fop2 f rm false (addFlags rm) va vb
    | _ => let r := fminmax (op == 2) va vb; ((Num.round f .rne r.1).1, r.2)
  else
    match op with
    | 0 => satInt sat ty.signed w flIov (intOf ty.signed w a + intOf ty.signed w b)
    | 1 => (wrap w (min (intOf ty.signed w a) (intOf ty.signed w b)), 0)
    | 2 => (wrap w (max (intOf ty.signed w a) (intOf ty.signed w b)), 0)
    | 3 => (a &&& b, 0)
    | 4 => (a ||| b, 0)
    | _ => (a ^^^ b, 0)

/-- The leaves: A of each lane of E that is no helper, the identity elsewhere. -/
def redLeaves (x : Ext) (k : Issue) : List Nat :=
  allLanes.map (fun L =>
    if k.real.getLsbD L then (opA k.g x x.ty.wide L).toNat else redIdentity x.ty (Fields.scale x))

/-- Neighbours combined: one level of the tree of R116. -/
def treeLevel (op : Nat → Nat → Nat × FlagBits) : List Nat → List Nat × FlagBits
  | a :: b :: rest =>
    let (ys, fl) := treeLevel op rest
    let (y, fl') := op a b
    (y :: ys, fl ||| fl')
  | l => (l, 0)

/-- The fixed pairwise tree over 16 leaves. -/
def tree16 (op : Nat → Nat → Nat × FlagBits) (xs : List Nat) : Nat × FlagBits :=
  let (y1, f1) := treeLevel op xs
  let (y2, f2) := treeLevel op y1
  let (y3, f3) := treeLevel op y2
  let (y4, f4) := treeLevel op y3
  (y4.headD 0, f1 ||| f2 ||| f3 ||| f4)

/-- One Kogge–Stone stage with distance d. -/
def scanStage (op : Nat → Nat → Nat × FlagBits) (d : Nat) (zf : List Nat × FlagBits) : List Nat × FlagBits :=
  let rs := allLanes.map (fun i => if d ≤ i then op (zf.1.getD (i - d) 0) (zf.1.getD i 0) else (zf.1.getD i 0, 0))
  (rs.map (·.1), rs.foldl (fun f r => f ||| r.2) zf.2)

/-- The four stages of GSCAN. -/
def scan16 (op : Nat → Nat → Nat × FlagBits) (xs : List Nat) : List Nat × FlagBits :=
  scanStage op 8 (scanStage op 4 (scanStage op 2 (scanStage op 1 (xs, 0))))

/-- GREDUCE (R316). -/
def execGreduce (x : Ext) (s : State) : Host.Outcome State Fault Refusal :=
  runInstr (.greduce x) x.guard (fun k s =>
    let r := tree16 (redOp x.ty (Fields.scale x) x.rm x.sat) (redLeaves x k)
    advance k (s.modGroup k.gi (fun g =>
      (writeD x x.ty.wide k.e (fun _ => BitVec.ofNat 64 r.1) g).raise x.dU s.now (if k.real = 0 then 0 else r.2)))) s

/-- GSCAN, inclusive or exclusive (R316). -/
def execGscan (x : Ext) (s : State) : Host.Outcome State Fault Refusal :=
  runInstr (.gscan x) x.guard (fun k s =>
    let r := scan16 (redOp x.ty (Fields.scale x) x.rm x.sat) (redLeaves x k)
    let val (L : Nat) : Nat :=
      if x.var.getLsbD 3 then (if L = 0 then redIdentity x.ty (Fields.scale x) else r.1.getD (L - 1) 0)
      else r.1.getD L 0
    advance k (s.modGroup k.gi (fun g =>
      (writeD x x.ty.wide k.e (fun L => BitVec.ofNat 64 (val L)) g).raise false s.now (if k.real = 0 then 0 else r.2)))) s

end Sys2Proof.Machine
end

