-- ==== Sys2Proof/Machine/Outside.lean ====
section
/-! DEFINITION. The host, links, errors, security, recovery, power and time: the commands and events of the package's
outside (R18, R19, R59, R61, R145, R166, R212, R219, R222, R242 to R251, R257, R259). -/

namespace Sys2Proof.Machine

open Sys2Proof

/-! ## Package reset and life cycle (R248) -/

/-- The device's writes to the host that a reset leaves standing: those of a partition whose interface leaves RUN with it are
discarded, and the root port accepts the others (R247). -/
def settleHost (s : State) : State :=
  let t : State := { s with posted := s.posted.filter (fun w => !s.ifaces.any (fun i => i.fn == w.1 + 1 && i.tdisp == .run)) }
  t.rootAccept t.posted.length

/-- A package reset: every memory is wiped and every counter is zero. What lies outside the device stays: host memory and
what has been delivered to the host; so do the fuses and the life-cycle state. Each die is tested; one that fails is off, and
the reset does not complete when the transit path through any die fails (R11). DESIGN CHOICE (log 7). DEDUCED (log 37). -/
def resetPackage (s : State) : State :=
  let n := s.resets + 1
  let failed := (List.range 9).filter (fun d => s.fused != some d && !Config.dieTest n d)
  { State.reset with
    agenda := s.agenda, hostMem := (settleHost s).hostMem, msix := s.msix, completions := s.completions, fused := s.fused,
    parts := [firstPart ((List.range 9).filter (fun d => s.fused != some d && !failed.contains d))],
    failed := failed, life := s.life, resets := n,
    up := (List.range 9).all (Config.transitTest n) }

/-- PACKAGE_RESET. DEDUCED (log 37). -/
def execPackageReset (s : State) : Host.Outcome State Fault Refusal := .next (resetPackage s)

/-- The transitions of the life-cycle table and who may sign them. -/
def lifeStep (l target : LifeState) (by_ : Signer) : Bool :=
  match l, target with
  | .manufacture, .provisioned | .provisioned, .deployed | .deployed, .returned => by_ != .unsigned
  | .returned, .provisioned => by_ == .osique
  | _, _ => false

/-- LIFECYCLE: a signed transition, followed by a package reset once its completion record is written; one that the table or its
signer does not allow gets STATUS 3. DEDUCED (log 31, 37). -/
def execLifecycle (c : Cmd) (target : LifeState) (signer : Signer) (s : State) : Host.Outcome State Fault Refusal :=
  .next (
    if !plainCmd c then complete c 1 0 s
    else if !lifeStep s.life target signer then complete c 3 0 s
    else
      let t := flushFw (complete c 0 0 s)
      if t.fwOut != [] then s else resetPackage { t with life := target })

/-- The life-cycle states by number, in the order of their table (R248). -/
def lifeCode : LifeState → Nat
  | .manufacture => 0 | .provisioned => 1 | .deployed => 2 | .returned => 3

/-- ATTEST: a report signed with the identity key, which MANUFACTURE lacks and RETURNED has revoked (R246, R248).
DESIGN CHOICE (log 12). -/
def execAttest (c : Cmd) (nonce : DWord) (s : State) : Host.Outcome State Fault Refusal :=
  .next (
    if !plainCmd c then complete c 1 0 s
    else if s.life == .manufacture || s.life == .returned then complete c 3 0 s
    else complete c 0 (Config.attestReport nonce s.emuMajors s.fused (lifeCode s.life)) s)

/-! ## Power and clock (R18, R19) -/

/-- POWER_CAP: 2,400 to 4,000 W. DEDUCED (log 31). -/
def execPowerCap (c : Cmd) (watts : Nat) (s : State) : Host.Outcome State Fault Refusal :=
  .next (if plainCmd c = false ∨ watts < 2400 ∨ 4000 < watts then complete c 1 0 s else complete c 0 0 { s with powerCap := watts })

/-- SUPPLY_SAG: the package's clock period is stretched by a quarter of the nominal period, up to twice it.
DEDUCED (log 39). -/
def execSupplySag (die : Nat) (s : State) : Host.Outcome State Fault Refusal :=
  .next { s with sag := addNew die s.sag, stretch := min 4 (s.stretch + 1), clearing := 0,
                 perf := { s.perf with sag := s.perf.sag + 1 } }

/-- SAG_CLEAR: when no die sags any more, the period returns to nominal over 64 cycles. DEDUCED (log 39). -/
def execSagClear (die : Nat) (s : State) : Host.Outcome State Fault Refusal :=
  .next (
    let left := s.sag.filter (fun d => d != die)
    if left = [] ∧ s.sag ≠ [] then { s with sag := left, clearing := 64, stretchFrom := s.stretch }
    else { s with sag := left })

/-- The register banks that hold an allocation: the pipes and uniform files of the groups on their cores; the others are
power-gated (R61). -/
def allocatedBanks (s : State) : List Nat :=
  ((s.groups.zipIdx.filter (fun (x : Group × Nat) => stored s x.2 x.1)).flatMap (fun x => [pipeKey x.1, uniBankKey x.1])).eraseDups

/-- BANK_DROWSY: an allocated register bank that has not been accessed for 256 cycles goes drowsy (R61).
DESIGN CHOICE (log 66). -/
def execBankDrowsy (bank : Nat) (s : State) : Host.Outcome State Fault Refusal :=
  .next (if s.bankLast.get 0 bank + 256 ≤ s.now ∧ (allocatedBanks s).contains bank = true then { s with drowsy := addNew bank s.drowsy }
    else s)

/-! ## Router heads (R219 to R223) -/

/-- A port of a stop carries traffic. The local port of a bridge stop is its link, powered down where the stop faces no die; that
of a core, slice or HBM stop of a disabled die is off. The mesh ports carry transit flits everywhere (R11). -/
def portUsable (s : State) (die stop : Nat) (p : MeshPort) : Bool :=
  p != .local_ || (match stopMap[stop]? with
    | some (.bridge side) => (facing die side).isSome
    | some _ => enabledDie s die
    | none => false)

/-- Two flits stand in one channel buffer of one input. -/
def MeshHead.sameBuffer (x h : MeshHead) : Bool :=
  x.die == h.die && x.stop == h.stop && x.plane == h.plane && x.vc == h.vc && x.port == h.port

/-- Flits of a channel buffer (R220). -/
def bufferFlits : Nat := 4

/-- The die on which a bridge stop's link ends. -/
def bridgeTo (die stop : Nat) : Option Nat :=
  match stopMap[stop]? with
  | some (.bridge side) => facing die side
  | _ => none

/-- The die to which a flit leaves its own, through the local port of a bridge stop (R11, R219). -/
def MeshHead.leavesTo (h : MeshHead) : Option Nat := if h.out = .local_ then bridgeTo h.die h.stop else none

/-- The link that carries the next flit of a plane from one die to another: of the data links the one that has carried fewer, of
those that are up (R11, R243). The spec does not say how the two data links share their flits. DESIGN CHOICE (log 71). -/
def State.bridgeLink (s : State) (f t plane : Nat) (received : Bool) : Option Link :=
  let n (l : Link) : Nat := if received then (s.linkCounts l).1 else (s.linkCounts l).2
  let lanes : List BridgeLane := if plane = 1 then [.control] else [.data0, .data1]
  ((lanes.map (Link.bridge f t)).filter (fun l => !s.linksDown.contains l)).foldl (fun m l => match m with
    | none => some l
    | some k => if n l < n k then some l else some k) none

/-- A flit arrives in its channel buffer of 4 flits, behind those that stand there: at a stop of the map, on one of two planes and
four channels. One that comes over a bridge has passed its link, which is up (R243). The flits themselves are the surroundings' (R10,
R11, R219, R220). DESIGN CHOICE (log 71). -/
def headArrive (h : MeshHead) (s : State) : State :=
  let from_ := if h.port = .local_ then bridgeTo h.die h.stop else none
  let link := from_.bind (fun d => s.bridgeLink d h.die h.plane true)
  if 9 ≤ h.die ∨ stopMap.length ≤ h.stop ∨ 2 ≤ h.plane ∨ 4 ≤ h.vc ∨ portUsable s h.die h.stop h.port = false ∨
      portUsable s h.die h.stop h.out = false ∨ bufferFlits ≤ (s.heads.filter h.sameBuffer).length ∨
      (from_.isSome = true ∧ link = none) then s
  else
    let s := link.elim s (fun l => s.countFlit l true)
    { s with heads := s.heads ++ [{ h with age := 0, promoted := false }] }

/-- The router behind an output holds a credit for a channel, or holds none any more (R220, R222). -/
def setCredits (o : MeshOut) (vc : Nat) (held : Bool) (s : State) : State :=
  { s with heads := s.heads.map (fun h =>
      if h.die = o.die ∧ h.stop = o.stop ∧ h.plane = o.plane ∧ h.out = o.port ∧ h.vc = vc then { h with credit := held } else h) }

/-- A flit that won an output drives its set-up wire at a router ahead (R221). -/
def driveSetUp (o : MeshOut) (s : State) : State :=
  if portUsable s o.die o.stop o.port then { s with setUps := addNew o s.setUps } else s

/-- The heads: the first flit of each buffer (R222). -/
def headsOf (fs : List MeshHead) : List MeshHead :=
  fs.foldl (fun acc h => if acc.any h.sameBuffer then acc else acc ++ [h]) []

/-- The channels that a short budget throttles at a local port: VC2 first, then VC1 and VC0, never VC3 (R20, R223). -/
def throttledVc (short : Nat) (vc : Nat) : Bool := (decide (1 ≤ short) && vc == 2) || (decide (2 ≤ short) && vc != 3)

/-- A head requests its output: the next router holds a credit, the link of a bridge stop is up, and no throttling holds it at its
local port (R222, R223, R243). -/
def MeshHead.requests (s : State) (h : MeshHead) : Bool :=
  h.credit && !(h.port == .local_ && throttledVc (s.short.get 0 h.die) h.vc) &&
    h.leavesTo.all (fun d => (s.bridgeLink h.die d h.plane false).isSome)

def MeshHead.output (h : MeshHead) : MeshOut := { die := h.die, stop := h.stop, plane := h.plane, port := h.out }

/-- The order of the ports: local, north, east, south, west (R222). -/
def portOrder : List MeshPort := [.local_, .north, .east, .south, .west]

/-- The first head by port among some, the ports taken in an order. R222 orders heads by port alone: of several channels at one port
the one that arrived first goes. DESIGN CHOICE (log 101). -/
def firstByPort (ports : List MeshPort) (hs : List MeshHead) : Option MeshHead :=
  ports.findSome? (fun p => hs.find? (fun h => h.port == p))

/-- The weights of the partition that holds a die, or the defaults (R220). -/
def vcWeights (s : State) (die : Nat) : List Nat :=
  ((s.parts.find? (fun p => p.dies.contains die)).map (fun p => p.weights)).getD [2, 2, 1, 4]

def State.rrOf (s : State) (o : MeshOut) : MeshRr :=
  (s.meshRr.find? (fun r => r.out == o)).getD { out := o, cur := [0, 0, 0, 0], last := [none, none, none, none] }

/-- The ports behind one in the order, and round again (R222). Before the first grant the round begins at the local port, and a grant
to a promoted head or a set-up does not move it, which R222 leaves open. DESIGN CHOICE (log 101). -/
def portsAfter (p : Option MeshPort) : List MeshPort :=
  match p.bind (fun p => portOrder.findIdx? (fun q => q == p)) with
  | some i => portOrder.drop (i + 1) ++ portOrder.take (i + 1)
  | none => portOrder

/-- A grant of the smooth weighted round robin among requesting heads: the round robins after it, and the winner (R222). -/
def weightedGrant (w : List Nat) (r : MeshRr) (hs : List MeshHead) : MeshRr × Option MeshHead :=
  let asks (v : Nat) : Bool := hs.any (fun h => h.vc == v)
  let cur := (List.range 4).map (fun v => r.cur.getD v 0 + if asks v then (w.getD v 0 : Int) else 0)
  let total : Int := (((List.range 4).filter asks).map (fun v => (w.getD v 0 : Int))).sum
  let best := [3, 0, 1, 2].foldl (fun (m : Option Nat) v =>
    if !asks v then m
    else match m with
      | none => some v
      | some u => if cur.getD u 0 < cur.getD v 0 then some v else some u) none
  match best with
  | none => (r, none)
  | some v =>
    let win := firstByPort (portsAfter ((r.last.getD v none))) (hs.filter (fun h => h.vc == v))
    ({ r with cur := modNth (fun c => c - total) cur v, last := modNth (fun _ => win.map (fun h => h.port)) r.last v }, win)

/-- One output's grant for the next cycle: a promoted head, else a set-up reservation, else the latched heads (R222). -/
def grantOutput (s : State) (o : MeshOut) (hs : List MeshHead) : MeshRr × Option MeshHead :=
  match firstByPort portOrder (hs.filter (fun h => h.promoted)) with
  | some h => (s.rrOf o, some h)
  | none => if s.setUps.contains o then (s.rrOf o, none) else weightedGrant (vcWeights s o.die) (s.rrOf o) hs

/-- The flits after a cycle: a granted head leaves, the age of a head that asked in vain rises, and the flits behind stay. -/
def passHeads (s : State) (granted : List MeshHead) : List MeshHead → List MeshHead → List MeshHead
  | [], _ => []
  | h :: rest, seen =>
    if seen.any h.sameBuffer then h :: passHeads s granted rest seen
    else if granted.contains h then passHeads s granted rest (h :: seen)
    else
      (if h.requests s then { h with age := h.age + 1, promoted := h.promoted || decide (48 ≤ h.age + 1) } else h) ::
        passHeads s granted rest (h :: seen)

/-- A granted head leaves its die over a bridge, whose link counts it (R243). -/
def sendFlit (h : MeshHead) (s : State) : State :=
  (h.leavesTo.bind (fun d => s.bridgeLink h.die d h.plane false)).elim s (fun l => s.countFlit l false)

/-- One cycle of the routers: each output that is asked for is granted, a granted head leaves, and the age of one that asked
in vain rises (R222). DESIGN CHOICE (log 71). -/
def routeCycle (s : State) : State :=
  let asking := (headsOf s.heads).filter (MeshHead.requests s)
  let grants := ((asking.map MeshHead.output).eraseDups).map (fun o => (o, grantOutput s o (asking.filter (fun h => h.output == o))))
  let gone := grants.filterMap (fun g => g.2.2)
  { gone.foldl (fun s h => sendFlit h s) s with
    setUps := [],
    meshRr := s.meshRr.filter (fun r => grants.all (fun g => g.1 != r.out)) ++ grants.map (fun g => g.2.1),
    heads := passHeads s gone s.heads [] }

/-- HEAD_PROMOTION: a head whose age counter has reached 48 is promoted (R222). -/
def execHeadPromotion (die stop plane vc : Nat) (port : MeshPort) (s : State) : Host.Outcome State Fault Refusal :=
  .next { s with heads := s.heads.map (fun h =>
    if h.die = die ∧ h.stop = stop ∧ h.plane = plane ∧ h.vc = vc ∧ h.port = port ∧ 48 ≤ h.age then { h with promoted := true }
    else h) }

/-! ## Time (R257) and trace (R259) -/

/-- PTP_SETUP: the master runs as a slave-only clock over one of three transports. -/
def execPtpSetup (c : Cmd) (domain transport : Nat) (stepOk : Bool) (s : State) : Host.Outcome State Fault Refusal :=
  .next (
    if plainCmd c = false ∨ 256 ≤ domain ∨ 3 ≤ transport then complete c 1 0 s
    else complete c 0 0 { s with ptp := some (domain, transport, stepOk),
                                 servo := if s.servo = .locked then .locked else .locking })

/-- Servo states as numbers. -/
def Servo.code : Servo → Nat
  | .freeRun => 0 | .locking => 1 | .locked => 2 | .holdover => 3

/-- TIME_STATUS. DESIGN CHOICE (log 12). -/
def execTimeStatus (c : Cmd) (s : State) : Host.Outcome State Fault Refusal :=
  .next (if !plainCmd c then complete c 1 0 s else complete c 0 (Config.timeStatusLayout s.servo.code s.servoOffset) s)

/-- Each die's copy of the nanosecond counter for a value of the master: within 2 ns of it, and never falling (R257).
DESIGN CHOICE (log 10). -/
def spreadTime (m : DWord) (t : Tab DWord) : Tab DWord :=
  (List.range 9).foldl (fun t d =>
    t.put 0 d (BitVec.ofNat 64 (max (t.get 0 d).toNat (m.toNat + (Config.dieSkew d m.toNat).val - 2)))) t

/-- PTP_MESSAGE: an offset of the counter behind the PTP master is stepped when it is over 1 ms, forward and permitted, and
slewed otherwise. DESIGN CHOICE (log 11). -/
def execPtpMessage (offsetNs : Int) (s : State) : Host.Outcome State Fault Refusal :=
  .next (match s.ptp with
    | none => s
    | some (_, _, stepOk) =>
      if 1000000 < offsetNs ∧ stepOk = true then
        let m := s.nsMaster + BitVec.ofInt 64 offsetNs
        { s with nsMaster := m, dieNs := spreadTime m s.dieNs, servoOffset := 0, servo := .locking }
      else
        let ppm : Int := (Config.servoSlew offsetNs).val
        { s with servoOffset := offsetNs, slew := if offsetNs < 0 then -ppm else ppm,
                 servo := if Config.servoLocked offsetNs then .locked else .locking })

/-- SERVO_HOLDOVER: the PTP master is lost. -/
def execServoHoldover (s : State) : Host.Outcome State Fault Refusal :=
  .next (if s.servo = .locked ∨ s.servo = .locking then { s with servo := .holdover } else s)

/-- TRACE_SETUP: a die's ring and its mask of record kinds. -/
def execTraceSetup (c : Cmd) (die : Nat) (ring : DWord) (size : Nat) (mask : BitVec 32) (s : State) :
    Host.Outcome State Fault Refusal :=
  onCtx c (c.flags == 0) (fun x s =>
    if 9 ≤ die then complete c 1 0 s
    else
      let t : Trace := { die := die, ctx := x.num, ring := ring, size := size, mask := mask, pos := 0, dropped := 0 }
      complete c 0 0 { s with traces := s.traces.filter (fun u => u.die != die) ++ [t] }) s

/-! ## Host accesses (R166) -/

/-- The partition that holds the die of an HBM address. -/
def partAt (s : State) (pa : Nat) : Option Part := s.parts.find? (fun p => p.dies.contains (pa / 2 ^ 37))

/-- A host access of the partition's memory gets Unsupported Request between an interface's leaving RUN and the end of the
scrub (R247). DESIGN CHOICE (log 36). -/
def hostRefused (s : State) (pa : Nat) : Bool := (partAt s pa).any (fun p => s.scrubbing.contains (p.num + 1))

/-- A frame that holds a context's control block, which is read-only to the driver (R240). -/
def ccbFrame (s : State) (pa : Nat) : Bool :=
  s.ctxs.any (fun c => fwPlace s c.num c.ccb.toNat == some (.hbm, pa / 4096 * 4096))

/-- A host access that the device takes: of populated memory, within one granule, of no partition that is being scrubbed, and no
write of a control block. -/
def hostValid (s : State) (pa n : Nat) (write : Bool) : Bool :=
  decide (n ≠ 0) && decide (pa + n ≤ 9 * 2 ^ 37) && pa / 4096 == (pa + n - 1) / 4096 && enabledDie s (pa / 2 ^ 37) && !hostRefused s pa &&
    !(write && ccbFrame s pa)

/-- The host's access of n bytes at its place: it waits on reserved lines and on drains. -/
def hostPlace (s : State) (pa n : Nat) (write : Bool) : Option State :=
  if !hostValid s pa n write then none
  else if (List.range ((pa + n - 1) / 128 - pa / 128 + 1)).any (fun k => reserved s (pa / 128 + k)) then none
  else claimNow s .host pa write

/-- Bytes that the host writes; none while the access waits. -/
def hostStore (pa : Nat) (bs : List Byte) (s : State) : Option State :=
  (hostPlace s pa bs.length true).map (fun s => wakeEvents pa bs.length (s.memPutBytes pa bs))

/-- The new value of an AtomicOp (R134, R245). -/
def atomicValue (a : HostAtomic) (n old operand cmp : Nat) : Nat :=
  match a with
  | .fetchAdd => (old + operand) % 2 ^ (8 * n)
  | .swap => operand % 2 ^ (8 * n)
  | .cas => if old = cmp % 2 ^ (8 * n) then operand % 2 ^ (8 * n) else old

/-- The bytes that a host access touches and whether it writes; none for a dropped copy. -/
def hostSpan : HostOp → Option (Nat × Bool)
  | .read n _ => some (n, false)
  | .write bs | .evict bs => some (bs.length, true)
  | .atomic _ n _ _ => some (n, true)
  | .dropCopy => none

/-- A host access that takes place has been accepted; one that has to wait is kept, and its drain begins (R157, R166). -/
def hostKept (pa : Nat) (op : HostOp) (before : State) (t : Option State) : State :=
  match t with
  | some t => t.accept (.hostAccess pa op)
  | none =>
    match hostSpan op with
    | some (n, w) => if hostValid before pa n w then offer .host (.hostAccess pa op) [(pa, w)] before else before
    | none => before

/-- HOST_ACCESS: a read, with a copy of the line granted or not, a write, a dirty eviction, which keeps its line until the
home accepts it, a copy dropped, or an AtomicOp of 4 or 8 bytes, one access that answers the old value (R166, R245). -/
def execHostAccess (pa : Nat) (op : HostOp) (s : State) : Host.Outcome State Fault Refusal :=
  .next (match op with
    | .read n keep =>
      hostKept pa op s ((hostPlace s pa n false).map (fun s =>
        let s := { s with hostData := s.memBytes pa n }
        if keep then s.setDirLine { s.dirLine (pa / 128) with hostHolder := true } else s))
    | .write bs => hostKept pa op s (hostStore pa bs s)
    | .evict bs =>
      if hostHolds s pa then
        hostKept pa op s ((hostStore pa bs s).map (fun s =>
          s.setDirLine { s.dirLine (pa / 128) with hostHolder := false, snooping := false }))
      else s
    | .atomic a n operand cmp =>
      if (n ≠ 4 ∧ n ≠ 8) ∨ pa % n ≠ 0 then s
      else
        hostKept pa op s ((hostPlace s pa n true).map (fun s =>
          let old := s.memBytes pa n
          wakeEvents pa n ({ s with hostData := old }.memPutBytes pa (bytesLE n (atomicValue a n (natLE old) operand cmp)))))
    | .dropCopy =>
      if hostHolds s pa then s.setDirLine { s.dirLine (pa / 128) with hostHolder := false, snooping := false } else s)

/-- BACK_INVALIDATE_SNOOP: the home calls the host's copy back before a device write. -/
def execBackInvalidateSnoop (line : Nat) (s : State) : Host.Outcome State Fault Refusal :=
  .next (if hostHolds s (128 * line) then s.setDirLine { s.dirLine line with snooping := true } else s)

/-- BACK_INVALIDATE_RESPONSE: the host's copy has gone, and the device write may proceed. -/
def execBackInvalidateResponse (line : Nat) (s : State) : Host.Outcome State Fault Refusal :=
  .next (if (s.dirLine line).snooping then s.setDirLine { s.dirLine line with hostHolder := false, snooping := false } else s)

/-! ## Device registers and the debugger (R59, R249) -/

/-- Entries of a command ring (R249). -/
def ringEntries : Nat := 4096

/-- HDM decoders (R245). -/
def hdmDecoders : Nat := 8

/-- REGISTER_WRITE: a doorbell hands the function's new ring entries to the firmware, which executes them in order; the
other registers hold what is written (R245, R249). -/
def execRegisterWrite (r : DevReg) (v : DWord) (s : State) : Host.Outcome State Fault Refusal :=
  .next (match r with
    | .doorbell fn =>
      let taken := s.taken.get [] fn
      let new := s.rings.get [] fn
      let room := ringEntries - taken.length
      { s with rings := s.rings.put [] fn (new.drop room), taken := s.taken.put [] fn (taken ++ new.take room) }
    | .msix k => if k < msixVectors then { s with msixTable := s.msixTable.put 0 k v } else s
    | .hdm k => if k < hdmDecoders then { s with hdm := s.hdm.put 0 k v } else s
    | .other a => { s with devRegs := s.devRegs.put 0 a v })

/-- The driver writes a command into its function's ring; the device sees it at the next doorbell (R249). -/
def writeRing (fn : Nat) (e : RingEntry) (s : State) : State :=
  let es := s.rings.get [] fn
  if es.length < ringEntries then { s with rings := s.rings.put [] fn (es ++ [e]) } else s

/-- The context that holds an allocation at a window address. -/
def windowOwner (s : State) (pa : Nat) : Option Nat :=
  (s.ctxs.find? (fun c => winPlace s c.num pa != .none_)).map (fun c => c.num)

/-- DEBUGGER_ACCESS: storage without an allocation reads zero and refuses writes, with a not-allocated status (R59). The spec
gives the debugger no access size, no alignment and no other status: an access is one word, at an address that is no multiple
of 4 it is answered as not allocated, and a write to split state or to bytes 30 and 31 of a predicate slot changes nothing and
is answered as allocated. As every access it waits for a reserved line (R161). DESIGN CHOICE (log 34). -/
def execDebuggerAccess (pa : Nat) (op : DbgOp) (s : State) : Host.Outcome State Fault Refusal :=
  .next (
    let owner := if pa % 4 = 0 ∧ windowBase ≤ pa then windowOwner s pa else none
    match owner with
    | none => { s with dbgResult := some (false, 0) }
    | some cn =>
      if windowReserved s cn pa 4 || (op != .read && streamHolds s cn pa 4) then s
      else
      let s := touchBanks (bankAt s cn pa) s
      match op with
      | .read => { s with dbgResult := some (true, BitVec.ofNat 32 (spaceRead s cn 0 .window pa 4)) }
      | .write w => { wakeWindow s cn pa 4 (spaceWrite s cn 0 .window pa 4 w.toNat) with dbgResult := some (true, w) })

/-! ## Links (R219, R243, R251) -/

/-- Bridge hops from die a to die b: along the row, then along the column. -/
def dieRoute (a b : Nat) : List (Nat × Nat) :=
  let row := a / 3
  let cols := if a % 3 ≤ b % 3 then (List.range (b % 3 - a % 3)).map (fun i => (a + i, a + i + 1))
    else (List.range (a % 3 - b % 3)).map (fun i => (a - i, a - i - 1))
  let c := row * 3 + b % 3
  cols ++ (if row ≤ b / 3 then (List.range (b / 3 - row)).map (fun i => (c + 3 * i, c + 3 * i + 3))
    else (List.range (row - b / 3)).map (fun i => (c - 3 * i, c - 3 * i - 3)))

/-- Hops between a compute die and the service dies, both ways (R11, R219). -/
def serviceRoutes (d : Nat) : List (Nat × Nat) :=
  let top := d % 3
  let low := 6 + d % 3
  dieRoute d top ++ [(top, frontDie), (frontDie, top)] ++ dieRoute top d ++ dieRoute d low ++
    [(low, ioDie), (ioDie, low)] ++ dieRoute low d

/-- The link exists: a lane between two bridge stops that face each other, or one of twelve ports (R11, R251). -/
def linkExists (l : Link) : Bool :=
  match l with
  | .bridge f t _ => bridged f t
  | .port n => decide (n < 12)

/-- A partition uses a link: a route between its dies, or between one and a service die, crosses it in either direction
(R243). -/
def usesLink (s : State) (p : Part) (l : Link) : Bool :=
  match l with
  | .bridge f t _ =>
    let crosses (r : List (Nat × Nat)) : Bool := r.contains (f, t) || r.contains (t, f)
    p.dies.any (fun a => crosses (serviceRoutes a) || p.dies.any (fun b => crosses (dieRoute a b)))
  | .port n => s.ctxs.any (fun c => c.part == p.num && c.ports.getLsbD n)

/-- Every context of a partition is killed (R242). -/
def killPart (p sub : Nat) (s : State) : State :=
  (s.ctxs.filter (fun c => c.part == p)).foldl (fun s c => killCtx c.num sub s) s

/-- LINK_TAG_FAILURE: the flit is dropped, the link stays down, and every partition that uses it is killed; a collective over a port
whose binding its context has given up ends with PF, as the port goes down (R243, R256). -/
def execLinkTagFailure (link : Link) (s : State) : Host.Outcome State Fault Refusal :=
  .next (
    if !linkExists link then s
    else
    let s' := (s.parts.filter (fun p => usesLink s p link)).foldl (fun s p => killPart p.num 4 s) s
    let s' : State := { s' with linksDown := if s'.linksDown.contains link then s'.linksDown else s'.linksDown ++ [link] }
    match link with
    | .port n => portDown n s'
    | _ => s')

/-- KEY_ROTATION: new keys for a link before a nonce counter would wrap; its counters start anew (R243). -/
def execKeyRotation (link : Link) (s : State) : Host.Outcome State Fault Refusal :=
  .next (
    if !linkExists link then s else s.rotateKeys link)

/-- LINK_CRC_REPLAY: the link layer replays a flit; nothing else differs. -/
def execLinkCrcReplay (port : Nat) (s : State) : Host.Outcome State Fault Refusal :=
  .next (if port < 12 then { s with perf := { s.perf with crcReplays := s.perf.crcReplays + 1 } } else s)

/-! ## Errors (R145, R212, R242) -/

/-- A partition stop: its contexts are killed and its dies wiped. DESIGN CHOICE (log 36). -/
def stopPart (p sub : Nat) (s : State) : State := wipeDies (partDies s p) (flushFw (killPart p sub s))

/-- A dirty line that an error has lost counts as never performed: memory holds what the line's home held (R169). -/
def loseLine (line : Nat) (s : State) : State :=
  if dirtyLine s line then
    let s : State := { s with l1 := s.l1.filter (fun l => l.line != line) }
    match s.cleanLines.find? (fun c => c.1 == line) with
    | some c => recordCopies line (s.memPutBytes (128 * line) c.2)
    | none => s
  else s

/-- UNCORRECTABLE_ERROR, by where it lies. DEDUCED (log 67). -/
def execUncorrectableError (site : ErrSite) (s : State) : Host.Outcome State Fault Refusal :=
  .next (match site with
    | .read ctx line | .scrubbed ctx line => loseLine line (killCtx ctx 2 s)
    | .structural part => stopPart part 2 s
    | .freeFrame f => { s with retiredFrames := addNew f s.retiredFrames }
    | .slot id =>
      let sl := s.slot id
      if sl.held then (killCtx sl.tag.toNat 2 s).setSlot id Slot.free else s.setSlot id { Slot.free with tag := sl.tag })

/-- PATROL_SCRUB: a visit without an error. -/
def execPatrolScrub (_line : Nat) (s : State) : Host.Outcome State Fault Refusal :=
  .next { s with perf := { s.perf with scrubs := s.perf.scrubs + 1 } }

/-- A corrected single-bit error is counted (R145). -/
def correctError (s : State) : State := { s with perf := { s.perf with corrected := s.perf.corrected + 1 } }

/-- ORBIT_RING_BREAK: every partition with a context that holds a slot is stopped, so each of those contexts is killed with
subcode 5 (R212, R242). DEDUCED (log 40). -/
def execOrbitRingBreak (s : State) : Host.Outcome State Fault Refusal :=
  .next (
    let holders := s.ctxs.filter (fun c => s.slots.any (fun x => x.2.held && x.2.tag.toNat == c.num))
    { (holders.map (fun c => c.part)).eraseDups.foldl (fun s p => stopPart p 5 s) s with ringBroken := true })

/-! ## Trusted interfaces (R246, R247) -/

def modIface (fn : Nat) (f : Iface → Iface) (s : State) : State :=
  { s with ifaces := s.ifaces.map (fun i => if i.fn = fn then f i else i) }

/-- An interface leaves RUN: the partition's writes that the root port has not accepted are discarded, then its contexts are
killed; the scrub follows (R247 steps 1 and 2). DESIGN CHOICE (log 36). -/
def leaveRun (fn : Nat) (s : State) : State :=
  let s := killPart (fn - 1) 3 { s with posted := s.posted.filter (fun w => w.1 != fn - 1) }
  { s with scrubbing := addNew fn s.scrubbing }

/-- Step 3 of R247, once what firmware writes of the kills is in memory: the partition's storage is scrubbed. An interface
that a message has stopped is then in CONFIG_UNLOCKED; one whose session has expired stays in ERROR. -/
def scrubIface (fn : Nat) (s : State) : State :=
  if s.scrubbing.contains fn && s.fwOut == [] then
    wipeDies (partDies s (fn - 1)) (modIface fn (fun i => if i.session && i.tdisp == .error then { i with tdisp := .unlocked } else i)
      { s with scrubbing := s.scrubbing.filter (fun k => k != fn) })
  else s

/-- Selective IDE streams of the host port (R245). -/
def ideStreams : Nat := 16

/-- SPDM_REQUEST: measurements, a session authenticated by the identity key, the IDE keys, and the TDISP messages, which a
session carries. An interface returns to CONFIG_UNLOCKED only when its partition is scrubbed (R246, R247).
DESIGN CHOICE (log 36). -/
def execSpdmRequest (fn : Nat) (m : SpdmMsg) (s : State) : Host.Outcome State Fault Refusal :=
  .next (match s.ifaces.find? (fun i => i.fn == fn) with
    | none => s
    | some i =>
      match m with
      | .measurements => s
      | .openSession =>
        if s.life == .manufacture || s.life == .returned || s.scrubbing.contains fn then s
        else modIface fn (fun i => { i with session := true }) s
      | .ideKeys none => if i.session then modIface fn (fun i => { i with ideKeys := true }) s else s
      | .ideKeys (some n) =>
        if i.session && decide ((s.ifaces.flatMap (fun j => j.streams)).length < ideStreams) && decide (n < 256) then
          modIface fn (fun i => { i with streams := addNew n i.streams }) s
        else s
      | .lock => if i.session && i.tdisp == .unlocked then modIface fn (fun i => { i with tdisp := .locked }) s else s
      | .start => if i.session && i.tdisp == .locked then modIface fn (fun i => { i with tdisp := .run }) s else s
      | .stop =>
        if !i.session || s.scrubbing.contains fn then s
        else if i.tdisp = .run then modIface fn (fun i => { i with tdisp := .error }) (leaveRun fn s)
        else modIface fn (fun i => { i with tdisp := .unlocked }) s)

/-- SPDM_SESSION_EXPIRY: the interface moves to ERROR. -/
def execSpdmSessionExpiry (fn : Nat) (s : State) : Host.Outcome State Fault Refusal :=
  .next (match s.ifaces.find? (fun i => i.fn == fn) with
    | none => s
    | some i =>
      if i.session then
        modIface fn (fun i => { i with tdisp := .error, session := false, ideKeys := false, streams := [] })
          (if i.tdisp = .run then leaveRun fn s else s)
      else s)

/-! ## Recovery (R244) -/

/-- Recovery freezes every scheduler, and each core halts at instruction boundaries as steps 2 to 5 of R235 say: waits are
abandoned and waiting matrix entries cancelled; nothing is saved (R244 step 1). -/
def freeze (s : State) : State :=
  { stopGroups (s.haltGroups (List.range s.groups.length)) s with frozen := true }

/-- SERVICE_WATCHDOG_EXPIRY: recovery freezes every scheduler and kills each context that has a call in progress on the
failed service core; the next cycle ends it. DEDUCED (log 38). -/
def execServiceWatchdogExpiry (n : Nat) (s : State) : Host.Outcome State Fault Refusal :=
  .next (
    let hit := s.ctxs.filter (fun c => (c.svclog.getD n none).isSome)
    freeze (hit.foldl (fun s c => killCtx c.num 6 s) s))

/-- INTERNAL_ERROR_REPORT: recovery of a command processor, the distributor or firmware. An admission is one event, so no
launch is ever in flight in one. DEDUCED (log 38). -/
def execInternalErrorReport (s : State) : Host.Outcome State Fault Refusal := .next (freeze s)

/-- LOCKSTEP_DISAGREEMENT: the package resets. DEDUCED (log 37). -/
def execLockstepDisagreement (s : State) : Host.Outcome State Fault Refusal := .next (resetPackage s)

/-- RECOVERY_TIMEOUT: a recovery that has not ended resets the package. DEDUCED (log 37). -/
def execRecoveryTimeout (s : State) : Host.Outcome State Fault Refusal := .next (if s.frozen then resetPackage s else s)

/-! ## One cycle -/

/-- A waiting split at a barrier advances the barrier's watchdog count, unless its context is saved (R49).
DEDUCED (log 60). -/
def countBarriers (s : State) : State :=
  (List.range 20).foldl (fun s id =>
    (s.blocks.zipIdx).foldl (fun s (x : Block × Nat) =>
      if barrierKeeper s x.2 id != x.2 then s
      else
        let span := barrierSpan s x.2 id
        if s.groups.any (fun g => span.contains g.block && onCores s g.block && g.splits.any (waitsAt id)) then
          s.modBlock x.2 (fun b => { b with barCount := b.barCount.put 0 id (b.barCount.get 0 id + 1) })
        else s) s) s

/-- The nanosecond counter's advance in one cycle: 0.625 ns, longer under clock stretch and by the slew, in units of
1/32 ns times 10^6; each die's copy follows (R18, R257). -/
def advanceTime (s : State) : State :=
  let part := s.nsSub + (20 + 5 * s.stretch) * (1000000 + s.slew).toNat
  let m := s.nsMaster + BitVec.ofNat 64 (part / 32000000)
  { s with nsMaster := m, nsSub := part % 32000000, dieNs := spreadTime m s.dieNs }

/-- The clock's stretch returns to nominal over 64 cycles, whatever it was when the last sag cleared (R18).
DEDUCED (log 39). -/
def advanceStretch (s : State) : State :=
  if s.clearing = 0 then s
  else { s with clearing := s.clearing - 1, stretch := (s.stretchFrom * (s.clearing - 1) + 63) / 64 }

/-- A die whose current budget is short in a cycle is throttled, which changes timing only and is counted (R20).
DESIGN CHOICE (log 71). -/
def countThrottles (s : State) : State :=
  { s with perf := { s.perf with throttles := (List.range 9).foldl (fun t d =>
      if s.short.get 0 d = 0 then t else t.put 0 d (t.get 0 d + 1)) s.perf.throttles } }

/-- How short each die's current budget is in the cycle that begins (R20). DESIGN CHOICE (log 71). -/
def sampleBudget (s : State) : State :=
  { s with short := (List.range 9).foldl (fun t d => t.put 0 d (Config.budgetShort d s.powerCap s.now).val) [] }

/-- The wait age of every split that was ready rises, where the quarter has issued nothing in this cycle; an issue has
raised the ages of the splits beside it (R36). A split that a memory operation keeps at its instruction counts the cycle
(R25). DEDUCED (log 65). -/
def advanceAges (s : State) : State :=
  { s with groups := s.groups.zipIdx.map (fun (x : Group × Nat) =>
      { x.1 with splits := x.1.splits.map (fun p =>
          let p := if decide (s.busy.get 0 (portKey x.1) ≤ s.now) && ready s x.2 x.1 p then { p with age := p.age + 1 } else p
          { p with stall := if memoryHeld s x.1 p then p.stall + 1 else 0 }) }) }

/-- The entries of each core's matrix queue at the start of a cycle (R34). -/
def countQueues (s : State) : State :=
  { s with matUsed := ((s.matq.map (fun m => (m.die, m.core))).eraseDups).foldl (fun t k =>
      t.put 0 (coreKey k.1 k.2) (coreQueue s k.1 k.2).length) [] }

/-- One cycle: ages, time, the passes of the Orbit, completions of instructions, heads, barrier counts, the requests that the
homes serve, the traps of the cycle before; a recovery ends. DESIGN CHOICE (log 1). DEDUCED (log 37). -/
def tickCycle (s : State) : State :=
  let s := countThrottles (advanceAges s)
  let s := countQueues (advanceStretch (advanceTime (sampleBudget { s with cycle := s.cycle + 1, frozen := false })))
  let s := orbitCycle s
  let s : State := { s with
    groups := s.groups.map (fun (g : Group) =>
      let g := if g.stream.any (fun st => decide (st.since + 16 ≤ s.now)) then { g with stream := none } else g
      if g.inflight = [] then g else g.mergeDue s.now s.cycle (s.timeOf g.die)) }
  queueTraps (serveHomes (countBarriers (routeCycle s)))

end Sys2Proof.Machine
end

