-- ==== Sys2Proof/Machine/Short.lean ====
section
/-! DEFINITION. The short formats that only move or compute registers: majors 1, 2 and 3, and NOP and YIELD of
major 7 (R277, R306, R321, R340, R343, R376). -/

namespace Sys2Proof.Machine

open Sys2Proof

/-- A 64-bit word's number of set bits from bit 0 to bit n − 1. -/
def countBits (v : Word) : Nat → Nat
  | 0 => 0
  | n + 1 => countBits v n + (if v.getLsbD n then 1 else 0)

/-- Zero bits above the highest set bit among bits 0 to n − 1. -/
def leadZeros (v : Word) : Nat → Nat
  | 0 => 0
  | n + 1 => if v.getLsbD n then 0 else leadZeros v n + 1

/-- A major 1 instruction: D ← f(A) in each lane of E (R277). -/
def short1 (i : Instr) (gd : Guard) (d a : BitVec 8) (f : Word → Word) (s : State) : Host.Outcome State Fault Refusal :=
  aluShort i gd d false (fun g L => lo32 (f (g.vget a.toNat L))) s

/-- ABS (R277). -/
def absOp (a : Word) : Word := if a.getLsbD 31 then 0 - a else a
/-- BREV (R277, R290). -/
def brevOp (a : Word) : Word := a.reverse
/-- CLZ (R277, R297). -/
def clzOp (a : Word) : Word := BitVec.ofNat 32 (leadZeros a 32)
/-- FABS and FNEG (R306). -/
def fabsOp (a : Word) : Word := a &&& 0x7FFFFFFF#32
def fnegOp (a : Word) : Word := a ^^^ 0x80000000#32
/-- NOT (R344). -/
def notOp (a : Word) : Word := a ^^^ 0xFFFFFFFF#32
/-- POPC (R352). -/
def popcOp (a : Word) : Word := BitVec.ofNat 32 (countBits a 32)

def execAbs (gd : Guard) (d a : BitVec 8) (s : State) := short1 (.abs gd d a) gd d a absOp s
def execBrev (gd : Guard) (d a : BitVec 8) (s : State) := short1 (.brev gd d a) gd d a brevOp s
def execClz (gd : Guard) (d a : BitVec 8) (s : State) := short1 (.clz gd d a) gd d a clzOp s
def execFabs (gd : Guard) (d a : BitVec 8) (s : State) := short1 (.fabs gd d a) gd d a fabsOp s
def execFneg (gd : Guard) (d a : BitVec 8) (s : State) := short1 (.fneg gd d a) gd d a fnegOp s
def execMovShort (gd : Guard) (d a : BitVec 8) (s : State) := short1 (.movShort gd d a) gd d a id s
def execNot (gd : Guard) (d a : BitVec 8) (s : State) := short1 (.not gd d a) gd d a notOp s
def execPopc (gd : Guard) (d a : BitVec 8) (s : State) := short1 (.popc gd d a) gd d a popcOp s

/-- IADDI with IMM11 (R321). -/
def execIaddi (gd : Guard) (d : BitVec 8) (imm : BitVec 11) (s : State) : Host.Outcome State Fault Refusal :=
  aluShort (.iaddi gd d imm) gd d false (fun g L => lo32 (g.vget d.toNat L + imm.signExtend 32)) s

/-- IADDI with a literal (R321). -/
def execIaddiLiteral (gd : Guard) (d : BitVec 8) (lit : DWord) (s : State) : Host.Outcome State Fault Refusal :=
  aluShort (.iaddiLiteral gd d lit) gd d false (fun g L => lo32 (g.vget d.toNat L + low lit)) s

/-- MOVI with IMM11 (R340). -/
def execMovi (gd : Guard) (d : BitVec 8) (imm : BitVec 11) (s : State) : Host.Outcome State Fault Refusal :=
  aluShort (.movi gd d imm) gd d false (fun _ _ => lo32 (imm.signExtend 32)) s

/-- MOVI with a literal: a pair when D is even, one register when it is odd (R69, R340). -/
def execMoviLiteral (gd : Guard) (d : BitVec 8) (lit : DWord) (s : State) : Host.Outcome State Fault Refusal :=
  aluShort (.moviLiteral gd d lit) gd d (d.toNat % 2 == 0) (fun _ _ => lit) s

/-- NOP has no effect beyond its issue (R37, R343). -/
def execNop (gd : Guard) (s : State) : Host.Outcome State Fault Refusal := runInstr (.nop gd) gd advance s

/-- YIELD: the age returns to zero and the split is not ready for the next 16 cycles; nothing when E is empty
(R37, R376). -/
def execYield (gd : Guard) (s : State) : Host.Outcome State Fault Refusal :=
  runInstr (.yield gd) gd (fun k s =>
    let s' := advance k s
    if k.e = 0 then s' else s'.modSplit k.gi k.si (fun p => { p with wait := .yield (s.now + 17) })) s

end Sys2Proof.Machine
end

