-- ==== Sys2Proof/Machine/Dispatch.lean ====
section
/-! DEFINITION. The meaning of every instruction and event, by constructor. -/

namespace Sys2Proof.Machine

open Sys2Proof

def exec (i : Instr) (s : State) : Host.Outcome State Fault Refusal :=
  match i with
  | .abs g d a => Sys2Proof.Machine.execAbs g d a s
  | .brev g d a => Sys2Proof.Machine.execBrev g d a s
  | .clz g d a => Sys2Proof.Machine.execClz g d a s
  | .fabs g d a => Sys2Proof.Machine.execFabs g d a s
  | .fneg g d a => Sys2Proof.Machine.execFneg g d a s
  | .movShort g d a => Sys2Proof.Machine.execMovShort g d a s
  | .not g d a => Sys2Proof.Machine.execNot g d a s
  | .popc g d a => Sys2Proof.Machine.execPopc g d a s
  | .iaddi g d imm => Sys2Proof.Machine.execIaddi g d imm s
  | .iaddiLiteral g d lit => Sys2Proof.Machine.execIaddiLiteral g d lit s
  | .movi g d imm => Sys2Proof.Machine.execMovi g d imm s
  | .moviLiteral g d lit => Sys2Proof.Machine.execMoviLiteral g d lit s
  | .bra g off => Sys2Proof.Machine.execBra g off s
  | .braJoin x => Sys2Proof.Machine.execBraJoin x s
  | .call g off => Sys2Proof.Machine.execCall g off s
  | .waitc g t c st l => Sys2Proof.Machine.execWaitc g t c st l s
  | .bkpt g code => Sys2Proof.Machine.execBkpt g code s
  | .exit g => Sys2Proof.Machine.execExit g s
  | .hend => Sys2Proof.Machine.execHend s
  | .nop g => Sys2Proof.Machine.execNop g s
  | .ret g => Sys2Proof.Machine.execRet g s
  | .yield g => Sys2Proof.Machine.execYield g s
  | .iadd x => Sys2Proof.Machine.execIadd x s
  | .imax x => Sys2Proof.Machine.execImax x s
  | .imin x => Sys2Proof.Machine.execImin x s
  | .isub x => Sys2Proof.Machine.execIsub x s
  | .mov x => Sys2Proof.Machine.execMov x s
  | .idot4 x => Sys2Proof.Machine.execIdot4 x s
  | .imad x => Sys2Proof.Machine.execImad x s
  | .imul x => Sys2Proof.Machine.execImul x s
  | .imulh x => Sys2Proof.Machine.execImulh x s
  | .and x => Sys2Proof.Machine.execAnd x s
  | .lop3 x => Sys2Proof.Machine.execLop3 x s
  | .or x => Sys2Proof.Machine.execOr x s
  | .rot x => Sys2Proof.Machine.execRot x s
  | .sar x => Sys2Proof.Machine.execSar x s
  | .shl x => Sys2Proof.Machine.execShl x s
  | .shr x => Sys2Proof.Machine.execShr x s
  | .xor x => Sys2Proof.Machine.execXor x s
  | .bfe x => Sys2Proof.Machine.execBfe x s
  | .bfi x => Sys2Proof.Machine.execBfi x s
  | .prmt x => Sys2Proof.Machine.execPrmt x s
  | .icmp x => Sys2Proof.Machine.execIcmp x s
  | .plop x => Sys2Proof.Machine.execPlop x s
  | .pmov x => Sys2Proof.Machine.execPmov x s
  | .sel x => Sys2Proof.Machine.execSel x s
  | .lea x => Sys2Proof.Machine.execLea x s
  | .fadd x => Sys2Proof.Machine.execFadd x s
  | .ffma x => Sys2Proof.Machine.execFfma x s
  | .fmul x => Sys2Proof.Machine.execFmul x s
  | .fclass x => Sys2Proof.Machine.execFclass x s
  | .fcmp x => Sys2Proof.Machine.execFcmp x s
  | .fmax x => Sys2Proof.Machine.execFmax x s
  | .fmin x => Sys2Proof.Machine.execFmin x s
  | .fcos x => Sys2Proof.Machine.execFcos x s
  | .fexp2 x => Sys2Proof.Machine.execFexp2 x s
  | .flog2 x => Sys2Proof.Machine.execFlog2 x s
  | .frcp x => Sys2Proof.Machine.execFrcp x s
  | .frsq x => Sys2Proof.Machine.execFrsq x s
  | .fsin x => Sys2Proof.Machine.execFsin x s
  | .fsqrt x => Sys2Proof.Machine.execFsqrt x s
  | .ftanh x => Sys2Proof.Machine.execFtanh x s
  | .cvt x => Sys2Proof.Machine.execCvt x s
  | .pack x => Sys2Proof.Machine.execPack x s
  | .req x => Sys2Proof.Machine.execReq x s
  | .unpack x => Sys2Proof.Machine.execUnpack x s
  | .gvote x => Sys2Proof.Machine.execGvote x s
  | .qbcast x => Sys2Proof.Machine.execQbcast x s
  | .qswap x => Sys2Proof.Machine.execQswap x s
  | .shuf x => Sys2Proof.Machine.execShuf x s
  | .greduce x => Sys2Proof.Machine.execGreduce x s
  | .gscan x => Sys2Proof.Machine.execGscan x s
  | .brdec x => Sys2Proof.Machine.execBrdec x s
  | .brx x => Sys2Proof.Machine.execBrx x s
  | .callx x => Sys2Proof.Machine.execCallx x s
  | .svc x => Sys2Proof.Machine.execSvc x s
  | .trap x => Sys2Proof.Machine.execTrap x s
  | .bar x => Sys2Proof.Machine.execBar x s
  | .cbar x => Sys2Proof.Machine.execCbar x s
  | .evsig x => Sys2Proof.Machine.execEvsig x s
  | .evwait x => Sys2Proof.Machine.execEvwait x s
  | .ld x => Sys2Proof.Machine.execLd x s
  | .st x => Sys2Proof.Machine.execSt x s
  | .lds x => Sys2Proof.Machine.execLds x s
  | .ldx x => Sys2Proof.Machine.execLdx x s
  | .sts x => Sys2Proof.Machine.execSts x s
  | .atom x => Sys2Proof.Machine.execAtom x s
  | .atoms x => Sys2Proof.Machine.execAtoms x s
  | .sempty x => Sys2Proof.Machine.execSempty x s
  | .sfe x => Sys2Proof.Machine.execSfe x s
  | .sfill x => Sys2Proof.Machine.execSfill x s
  | .ldu x => Sys2Proof.Machine.execLdu x s
  | .pref x => Sys2Proof.Machine.execPref x s
  | .cpy x => Sys2Proof.Machine.execCpy x s
  | .ldh x => Sys2Proof.Machine.execLdh x s
  | .tld x => Sys2Proof.Machine.execTld x s
  | .tstr x => Sys2Proof.Machine.execTstr x s
  | .coll x => Sys2Proof.Machine.execColl x s
  | .mma x => Sys2Proof.Machine.execMma x s
  | .mmag x => Sys2Proof.Machine.execMmag x s
  | .mmat x => Sys2Proof.Machine.execMmat x s
  | .aexp x => Sys2Proof.Machine.execAexp x s
  | .amode x => Sys2Proof.Machine.execAmode x s
  | .ard x => Sys2Proof.Machine.execArd x s
  | .awr x => Sys2Proof.Machine.execAwr x s
  | .mzero x => Sys2Proof.Machine.execMzero x s
  | .mcarry x => Sys2Proof.Machine.execMcarry x s
  | .mscan x => Sys2Proof.Machine.execMscan x s
  | .tmov x => Sys2Proof.Machine.execTmov x s
  | .trd x => Sys2Proof.Machine.execTrd x s
  | .twr x => Sys2Proof.Machine.execTwr x s
  | .oadd x => Sys2Proof.Machine.execOadd x s
  | .oalight x => Sys2Proof.Machine.execOalight x s
  | .oboard x => Sys2Proof.Machine.execOboard x s
  | .ocap x => Sys2Proof.Machine.execOcap x s
  | .ocas x => Sys2Proof.Machine.execOcas x s
  | .omax x => Sys2Proof.Machine.execOmax x s
  | .omin x => Sys2Proof.Machine.execOmin x s
  | .oswp x => Sys2Proof.Machine.execOswp x s
  | .chpeek x => Sys2Proof.Machine.execChpeek x s
  | .chrecv x => Sys2Proof.Machine.execChrecv x s
  | .chsend x => Sys2Proof.Machine.execChsend x s
  | .clk x => Sys2Proof.Machine.execClk x s
  | .sleep x => Sys2Proof.Machine.execSleep x s
  | .time x => Sys2Proof.Machine.execTime x s
  | .flags x => Sys2Proof.Machine.execFlags x s
  | .srd x => Sys2Proof.Machine.execSrd x s
  | .swr x => Sys2Proof.Machine.execSwr x s
  | .vdhop x => Sys2Proof.Machine.execVdhop x s
  | .unimp w0 => Sys2Proof.Machine.execUnimp w0 s
  | .ill w0 => Sys2Proof.Machine.execIll w0 s
  | .emulationComplete gi si r => Sys2Proof.Machine.execEmulationComplete gi si r s
  | .svcServiceComplete gi si r => Sys2Proof.Machine.execSvcServiceComplete gi si r s
  | .queueSetup c queue prio ring => Sys2Proof.Machine.execQueueSetup c queue prio ring s
  | .submit c queue desc deps => Sys2Proof.Machine.execSubmit c queue desc deps s
  | .eventSignal c va value => Sys2Proof.Machine.execEventSignal c va value s
  | .map c m => Sys2Proof.Machine.execMap c m s
  | .unmap c m => Sys2Proof.Machine.execUnmap c m s
  | .reclassify c m => Sys2Proof.Machine.execReclassify c m s
  | .logApply c dies => Sys2Proof.Machine.execLogApply c dies s
  | .ctxCreate c part wdexp debug perm ccb trapq pool poolSize => Sys2Proof.Machine.execCtxCreate c part wdexp debug perm ccb trapq pool poolSize s
  | .ctxDestroy c => Sys2Proof.Machine.execCtxDestroy c s
  | .ctxSave c => Sys2Proof.Machine.execCtxSave c s
  | .contextSaved ctx => Sys2Proof.Machine.execContextSaved ctx s
  | .ctxRestore c part perm places => Sys2Proof.Machine.execCtxRestore c part perm places s
  | .ctxKill c => Sys2Proof.Machine.execCtxKill c s
  | .splitResume c gi si w act => Sys2Proof.Machine.execSplitResume c gi si w act s
  | .orbitQuota c quota => Sys2Proof.Machine.execOrbitQuota c quota s
  | .portBind c mask => Sys2Proof.Machine.execPortBind c mask s
  | .trapqAck c seq => Sys2Proof.Machine.execTrapqAck c seq s
  | .partCreate c dies weights => Sys2Proof.Machine.execPartCreate c dies weights s
  | .partDestroy c part => Sys2Proof.Machine.execPartDestroy c part s
  | .powerCap c watts => Sys2Proof.Machine.execPowerCap c watts s
  | .icacheInval c va bytes => Sys2Proof.Machine.execIcacheInval c va bytes s
  | .emuInstall c library signatureOk majors => Sys2Proof.Machine.execEmuInstall c library signatureOk majors s
  | .traceSetup c die ring size mask => Sys2Proof.Machine.execTraceSetup c die ring size mask s
  | .ptpSetup c domain transport stepOk => Sys2Proof.Machine.execPtpSetup c domain transport stepOk s
  | .timeStatus c => Sys2Proof.Machine.execTimeStatus c s
  | .attest c nonce => Sys2Proof.Machine.execAttest c nonce s
  | .lifecycle c target signer => Sys2Proof.Machine.execLifecycle c target signer s
  | .launchAdmission part => Sys2Proof.Machine.execLaunchAdmission part s
  | .blockStart li lin place => Sys2Proof.Machine.execBlockStart li lin place s
  | .blockComplete bi => Sys2Proof.Machine.execBlockComplete bi s
  | .blockPreemption bi => Sys2Proof.Machine.execBlockPreemption bi s
  | .migration bi place => Sys2Proof.Machine.execMigration bi place s
  | .splitDormant gi si => Sys2Proof.Machine.execSplitDormant gi si s
  | .splitActivate gi => Sys2Proof.Machine.execSplitActivate gi s
  | .joinTimeout gi si => Sys2Proof.Machine.execJoinTimeout gi si s
  | .waitAgeReservation gi si => Sys2Proof.Machine.execWaitAgeReservation gi si s
  | .yieldExpiry gi si => Sys2Proof.Machine.execYieldExpiry gi si s
  | .sleepWake gi si => Sys2Proof.Machine.execSleepWake gi si s
  | .barrierWatchdog bi id => Sys2Proof.Machine.execBarrierWatchdog bi id s
  | .emptyLineTimeout acc => Sys2Proof.Machine.execEmptyLineTimeout acc s
  | .loadDataReturn acc lane => Sys2Proof.Machine.execLoadDataReturn acc lane s
  | .storePerformed acc lane => Sys2Proof.Machine.execStorePerformed acc lane s
  | .pageFaultService gi si ans => Sys2Proof.Machine.execPageFaultService gi si ans s
  | .remoteRetry port ctx va bytes refusals => Sys2Proof.Machine.execRemoteRetry port ctx va bytes refusals s
  | .drainRequest granule holder => Sys2Proof.Machine.execDrainRequest granule holder s
  | .drainPoint granule => Sys2Proof.Machine.execDrainPoint granule s
  | .engineSectorRead op sector => Sys2Proof.Machine.execEngineSectorRead op sector s
  | .engineSectorWrite op sector => Sys2Proof.Machine.execEngineSectorWrite op sector s
  | .engineCompletion op => Sys2Proof.Machine.execEngineCompletion op s
  | .engineFault op => Sys2Proof.Machine.execEngineFault op s
  | .handlerBirth op => Sys2Proof.Machine.execHandlerBirth op s
  | .matrixEntryStart die core => Sys2Proof.Machine.execMatrixEntryStart die core s
  | .matrixEntryComplete die core => Sys2Proof.Machine.execMatrixEntryComplete die core s
  | .mmagCancel die core => Sys2Proof.Machine.execMmagCancel die core s
  | .orbitPass op => Sys2Proof.Machine.execOrbitPass op s
  | .oboardTimeout op => Sys2Proof.Machine.execOboardTimeout op s
  | .channelCredit li ch => Sys2Proof.Machine.execChannelCredit li ch s
  | .headPromotion die stop plane vc port => Sys2Proof.Machine.execHeadPromotion die stop plane vc port s
  | .coherenceRead die core line => Sys2Proof.Machine.execCoherenceRead die core line s
  | .readExclusive die core line => Sys2Proof.Machine.execReadExclusive die core line s
  | .upgrade die core line => Sys2Proof.Machine.execUpgrade die core line s
  | .invalidation die core line => Sys2Proof.Machine.execInvalidation die core line s
  | .forward die core line => Sys2Proof.Machine.execForward die core line s
  | .acknowledgement die core line => Sys2Proof.Machine.execAcknowledgement die core line s
  | .dataResponse die core line => Sys2Proof.Machine.execDataResponse die core line s
  | .writeBack die core line => Sys2Proof.Machine.execWriteBack die core line s
  | .l1Eviction die core line => Sys2Proof.Machine.execL1Eviction die core line s
  | .backInvalidateSnoop line => Sys2Proof.Machine.execBackInvalidateSnoop line s
  | .hostAccess pa op => Sys2Proof.Machine.execHostAccess pa op s
  | .atsInvalidation part ctx va pages => Sys2Proof.Machine.execAtsInvalidation part ctx va pages s
  | .atsTranslation bus host => Sys2Proof.Machine.execAtsTranslation bus host s
  | .remoteWrite port ctx va bytes => Sys2Proof.Machine.execRemoteWrite port ctx va bytes s
  | .collPeerMessage session k m => Sys2Proof.Machine.execCollPeerMessage session k m s
  | .linkCrcReplay port => Sys2Proof.Machine.execLinkCrcReplay port s
  | .linkTagFailure link => Sys2Proof.Machine.execLinkTagFailure link s
  | .keyRotation link => Sys2Proof.Machine.execKeyRotation link s
  | .uncorrectableError site => Sys2Proof.Machine.execUncorrectableError site s
  | .patrolScrub line => Sys2Proof.Machine.execPatrolScrub line s
  | .orbitRingBreak => Sys2Proof.Machine.execOrbitRingBreak s
  | .spdmRequest fn m => Sys2Proof.Machine.execSpdmRequest fn m s
  | .spdmSessionExpiry fn => Sys2Proof.Machine.execSpdmSessionExpiry fn s
  | .serviceWatchdogExpiry n => Sys2Proof.Machine.execServiceWatchdogExpiry n s
  | .internalErrorReport => Sys2Proof.Machine.execInternalErrorReport s
  | .lockstepDisagreement => Sys2Proof.Machine.execLockstepDisagreement s
  | .recoveryTimeout => Sys2Proof.Machine.execRecoveryTimeout s
  | .packageReset => Sys2Proof.Machine.execPackageReset s
  | .supplySag die => Sys2Proof.Machine.execSupplySag die s
  | .sagClear die => Sys2Proof.Machine.execSagClear die s
  | .ptpMessage offsetNs => Sys2Proof.Machine.execPtpMessage offsetNs s
  | .debuggerAccess pa op => Sys2Proof.Machine.execDebuggerAccess pa op s
  | .registerWrite r v => Sys2Proof.Machine.execRegisterWrite r v s
  | .bankDrowsy bank => Sys2Proof.Machine.execBankDrowsy bank s
  | .pageWalkCompletion die ctx va => Sys2Proof.Machine.execPageWalkCompletion die ctx va s
  | .backInvalidateResponse line => Sys2Proof.Machine.execBackInvalidateResponse line s
  | .parnarPortDown port => Sys2Proof.Machine.execParnarPortDown port s
  | .servoHoldover => Sys2Proof.Machine.execServoHoldover s

end Sys2Proof.Machine
end

