-- ==== Sys2Proof/Machine/Policy.lean ====
section
/-! DEFINITION. What one turn of the machine does, and which turn comes next (R34 to R36, R61, R164). A turn issues the next
instruction of a split, lets one event or command take place, or ends the cycle. -/

namespace Sys2Proof.Machine

open Sys2Proof Sys2Proof.Num

/-! ## The choice of a quarter (R36, R155) -/

/-- The instruction at a split would be a second access that R155 counts, or an access behind one that is held: it does not
issue yet. -/
def stalled (s : State) (gi : Nat) (g : Group) (p : Split) : Bool :=
  (sharedOut s gi || s.acc.any (fun a => a.group == gi && !a.done)) &&
    (match fetchInstr s g p.pc with
     | .instr i _ =>
       (match exec i { s with curG := gi, curS := p.idx } with
        | .next t => overShared s t gi || behindHeld s t gi
        | _ => false)
     | _ => false)

/-- A split can issue in this cycle: it is ready, no reservation, no order and not R155 holds it off, and its quarter has issued
nothing yet (R33, R36). -/
def issuable (s : State) (gi : Nat) (g : Group) (p : Split) : Bool :=
  ready s gi g p && decide (s.busy.get 0 (portKey g) ≤ s.now) && !heldOff s gi g p && !stalled s gi g p

/-- The first split goes before the second: a greater age, then the lower group slot, then the lower index (R36). -/
def outranks (g : Group) (p : Split) (h : Group) (q : Split) : Bool :=
  decide (q.age < p.age) || (p.age == q.age &&
    (decide (g.place.k < h.place.k) || (g.place.k == h.place.k && decide (p.idx < q.idx))))

/-- The split is the one that its quarter chooses. -/
def chosen (s : State) (gi : Nat) (g : Group) (p : Split) : Bool :=
  s.groups.zipIdx.all (fun (x : Group × Nat) =>
    portKey x.1 != portKey g || x.1.splits.all (fun q =>
      (x.2 == gi && q.idx == p.idx) || !outranks x.1 q g p || !issuable s x.2 x.1 q))

/-- The quarter's place in the rotating order of a cycle (R34). -/
def quarterTurn (s : State) (g : Group) : Nat := (g.quarter + 4 - s.now % 4) % 4

/-- The split's next instruction goes to the matrix queue. -/
def matrixNext (s : State) (g : Group) (p : Split) : Bool :=
  match fetchInstr s g p.pc with
  | .instr i _ => isMatrix i
  | _ => false

/-- A quarter of the core that comes first in the rotating order has a matrix instruction to issue: the queue's entries
are offered to it first, and join in that order (R34, R196). -/
def queueTaken (s : State) (g : Group) : Bool :=
  s.groups.zipIdx.any (fun (x : Group × Nat) =>
    x.1.die == g.die && x.1.core == g.core && decide (quarterTurn s x.1 < quarterTurn s g) &&
      x.1.splits.any (fun q => matrixNext s x.1 q && issuable s x.2 x.1 q && chosen s x.2 x.1 q))

/-- The split issues when its turn comes: its quarter chooses it, and no other quarter's claim on the matrix queue goes
before. -/
def mayIssue (s : State) (gi : Nat) (g : Group) (p : Split) : Bool :=
  issuable s gi g p && chosen s gi g p && !(matrixNext s g p && queueTaken s g)

/-! ## One issue -/

/-- The resources of an issue are busy for their cycles, and 4 more when it wakes a drowsy bank (R34, R61).
DESIGN CHOICE (log 66, 71). -/
def occupy (g : Group) (i : Instr) (s : State) : State :=
  let banks := touchedBanks g i
  let extra := if banks.any (fun k => s.drowsy.contains k) then 4 else 0
  let busy := (resources g i).foldl (fun t r => t.put 0 r.1 (s.now + r.2 + extra)) s.busy
  touchBanks banks { s with busy := busy.put 0 (portKey g) (s.now + 1) }

/-- An issue returns the age of its split to zero, and every other split of the quarter that was ready has waited this
cycle (R36). -/
def ageQuarter (gi si : Nat) (g : Group) (s : State) : State :=
  { s with groups := s.groups.zipIdx.map (fun (x : Group × Nat) =>
      if portKey x.1 = portKey g then
        { x.1 with splits := x.1.splits.map (fun p =>
            if x.2 = gi ∧ p.idx = si then { p with age := 0, reserved := false }
            else if ready s x.2 x.1 p then { p with age := p.age + 1 }
            else p) }
      else x.1) }

/-- Entries that have joined the matrix queue of a core since a state (R34). -/
def countEntries (before : State) (g : Group) (s : State) : State :=
  let key := coreKey g.die g.core
  let n := (coreQueue s g.die g.core).length - (coreQueue before g.die g.core).length
  if n = 0 then s
  else { s with matUsed := s.matUsed.put 0 key (max (s.matUsed.get 0 key) (coreQueue before g.die g.core).length + n) }

/-- The virtual addresses that an issue has translated for lanes: those of accesses that it entered. -/
def enteredVas (before s : State) (gi : Nat) : List DWord :=
  s.acc.flatMap (fun (a : Access) =>
    if a.group = gi then
      (a.lanes.filter (fun l => l.stage == .issued && l.space != .scratch &&
        !(before.access? a.id).any (fun b => b.lanes.contains l))).map (fun l => l.va)
    else [])

/-- The lookups of an issue in its block's partition of the first-level TLB: the fetch, the lanes, a branch table (R136). -/
def useTlb (gi si : Nat) (g : Group) (i : Instr) (before s : State) : State :=
  let table := match i with
    | .brx x => ((g.split? si).map (brxReads x g)).getD []
    | _ => []
  let fetch := ((g.split? si).map (fun p => p.pc)).toList
  (fetch ++ table ++ enteredVas before s gi).foldl (fun s va => tlbUse g.die g.lanesTlb (before.groupCtx g) va.toNat s) s

/-- The lanes on which an instruction of a split acts: those of E (R72). -/
def actLanes (g : Group) (si : Nat) (i : Instr) : LaneMask :=
  ((g.split? si).map (fun p => guardLanes g p (guardOf (word0 i)))).getD 0

/-- How the lanes of an instruction stream through the pipe, when it occupies the pipe (R34, R58). DESIGN CHOICE (log 92). -/
def streamKind (i : Instr) : Option StreamKind :=
  if resourceTime i != 16 then none
  else
    some (match i with
      | .greduce _ | .gscan _ | .gvote _ => .combined
      | .bra _ _ | .braJoin _ | .brdec _ | .brx _ | .call _ _ | .callx _ | .ret _ | .sfe _ | .pref _ => .operands
      | i => if raises i == .uncounted && !alwaysShared i then .lanes else .operands)

/-- The lanes of an issued instruction begin to stream (R34, R58). -/
def beginStream (gi : Nat) (i : Instr) (before : State) (g : Group) : Group :=
  match (before.group? gi).bind (fun h => (h.split? before.curS).map (fun p => (h, p))) with
  | some (h, p) =>
    (match streamKind i with
     | some kd =>
       if g.retired then g
       else
         { g with stream := some { kind := kd, since := before.now, ins := i, split := p, vec := h.vec, uni := h.uni, pred := h.pred,
                                   past := 0, bits := 0 } }
     | none => g)
  | none => g

/-- What follows the meaning of an issued instruction: its translations are the most recently used, its resources are taken,
its lanes stream, and the split stands at its new place since now. -/
def afterInstr (gi si : Nat) (g : Group) (i : Instr) (before s : State) : State :=
  let t := (useTlb gi si g i before s).modGroup gi (beginStream gi i { before with curS := si })
  settle ((occupy g i (countEntries before g t)).modSplit gi si (fun p => { p with since := s.now, act := actLanes g si i }))

/-- The lanes that a fault of the fetch concerns. -/
def fetchLanes (g : Group) (p : Split) : LaneMask := (if p.pend = 0 then p.mask else p.pend) &&& ~~~g.helpers

/-- The next instruction of a split is fetched and executed; a fetch that fails traps or parks the split (R71, R81,
R139). -/
def issueAt (gi si : Nat) (g : Group) (p : Split) (s : State) : Host.Outcome State Fault Refusal :=
  match fetchInstr s g p.pc with
  | .trap c aux => .next (settle (takeTrap gi si c aux (fetchLanes g p) (if c = .pf then fetchLanes g p else p.pend) s))
  | .park va =>
    .next (s.modSplit gi si (fun p =>
      { p with wait := .replay va, act := if p.pend = 0 then p.mask else p.pend, age := 0, reserved := false }))
  | .instr i _ =>
    match exec i { ageQuarter gi si g s with curG := gi, curS := si } with
    | .next t => .next (afterInstr gi si g i s t)
    | .fault f => .fault f
    | .refused r => .refused r

/-- The turn of a split. One that cannot issue keeps its place and nothing changes. DESIGN CHOICE (log 69). -/
def issueTurn (gi si : Nat) (s : State) : Host.Outcome State Fault Refusal :=
  match (s.group? gi).bind (fun g => (g.split? si).map (fun p => (g, p))) with
  | none => .next s
  | some (g, p) =>
    if (s.groupCtx? g).isNone then .fault .noContext
    else if mayIssue s gi g p then issueAt gi si g p s
    else .next s

/-! ## One event -/

/-- An instruction that a split issues, and no event of the package. -/
def fromSplit (i : Instr) : Bool :=
  encode i != [] || (match i with
    | .ill _ => true
    | _ => false)

/-- One event takes place, and the boundaries that it reaches are settled. DESIGN CHOICE (log 3). -/
def eventTurn (i : Instr) (s : State) : Host.Outcome State Fault Refusal :=
  if fromSplit i then .next s
  else
    match exec i s with
    | .next t => .next (settle t)
    | .fault f => .fault f
    | .refused r => .refused r

/-! ## Commands (R249) -/

/-- The firmware turns to the head of a function's ring: it begins once what it has written of the command before is performed,
and a command that must wait stays at the head. An entry with another opcode is an invalid argument. DEDUCED (log 22). -/
def commandTurn (fn : Nat) (s : State) : Host.Outcome State Fault Refusal :=
  let es := s.taken.get [] fn
  let drop : State := { s with taken := s.taken.put [] fn (es.drop 1) }
  if s.fwOut != [] then .next s
  else
    match es.head? with
    | none => .next s
    | some (.unknown c) => if c.fn = fn then .next (complete c 1 0 s) else .next drop
    | some (.known i) =>
      match instrCmd i with
      | some c => if c.fn = fn then eventTurn i s else .next drop
      | none => .next drop

/-- A command that the driver gives to its function's ring, and that the firmware takes up at once when it is the head. -/
def driverTurn (i : Instr) (c : Cmd) (s : State) : Host.Outcome State Fault Refusal :=
  let es := s.taken.get [] c.fn
  let s : State := if es.contains (.known i) || decide (ringEntries ≤ es.length) then s
    else { s with taken := s.taken.put [] c.fn (es ++ [.known i]) }
  if (s.taken.get [] c.fn).head? = some (.known i) then commandTurn c.fn s else .next s

/-! ## One turn -/

/-- The state that an outcome holds, or the one before. -/
def stateOr (s : State) : Host.Outcome State Fault Refusal → State
  | .next t => t
  | _ => s

/-- The first matrix entry that a stop had cancelled and whose group runs again joins its core's queue behind the others, when
there is a free place; it executes anew (R210). -/
def rejoin (s : State) : State :=
  match s.matq.find? (fun m => m.cancelled && (s.group? m.group).any (fun g => ctxRuns s g && onCores s g.block &&
      !(s.block? g.block).any (fun b => b.stopped) && decide ((coreQueue s m.die m.core).length < 4))) with
  | none => s
  | some m =>
    { s with matq := s.matq.filter (fun n => n.id != m.id) ++
        [{ m with cancelled := false, latch := [], emptySince := [] }] }

/-- Every such entry, in queue order. -/
def rejoinAll (s : State) : State := (s.matq.filter (fun m => m.cancelled)).foldl (fun s _ => rejoin s) s

/-- At the end of a cycle each core's matrix engine has ended and begun what that cycle ends and begins (R196, R197). -/
def matrixDue (s : State) : State :=
  let s := rejoinAll s
  (s.matq.map (fun m => (m.die, m.core))).eraseDups.foldl (fun s k =>
    let s := stateOr s (execMatrixEntryComplete k.1 k.2 s)
    let s := stateOr s (execMmagCancel k.1 k.2 s)
    stateOr s (execMatrixEntryStart k.1 k.2 s)) s

/-- What a turn does. -/
def act (t : Turn) (s : State) : Host.Outcome State Fault Refusal :=
  match t with
  | .issue gi si => issueTurn gi si s
  | .event i =>
    (match instrCmd i with
     | some c => driverTurn i c s
     | none => eventTurn i s)
  | .command fn => commandTurn fn s
  | .load c file base frames => .next (loadObject c file base frames s)
  | .fetchFill die core sector => .next (fillSector die core sector s)
  | .fetchDrop die core sector => .next (dropSector die core sector s)
  | .rootAccept n => .next (s.rootAccept n)
  | .scrub fn => .next (scrubIface fn s)
  | .corrected => .next (correctError s)
  | .headArrive h => .next (headArrive h s)
  | .credits o vc held => .next (setCredits o vc held s)
  | .setUp o => .next (driveSetUp o s)
  | .ringWrite fn e => .next (writeRing fn e s)
  | .walkAhead op => .next (walkAhead op s)
  | .tick => .next (settle (tickCycle (matrixDue s)))

/-- One turn. A package whose last reset has not completed does nothing but reset again (R11). DESIGN CHOICE (log 1, 3). -/
def turn (t : Turn) (s : State) : Host.Outcome State Fault Refusal :=
  if s.up || t == .event .packageReset then act t s else .next s

/-! ## Lanes in the pipe (R34, R58) -/

/-- The group after the instruction of a stream has executed in some lanes on the registers that they have still to read. -/
def Stream.result (st : Stream) (gi : Nat) (lanes : LaneMask) (s : State) : Option Group :=
  let p := { st.split with pend := lanes }
  let s := s.modGroup gi (fun g => { g.streamed st with inflight := [], splits := [p] })
  match exec st.ins { s with curG := gi, curS := p.idx } with
  | .next t => t.group? gi
  | _ => none

/-- The lanes of a stream's instruction, by its guard on the registers still to be read (R72). -/
def Stream.lanes (st : Stream) (g : Group) : LaneMask := guardLanes (g.streamed st) st.split (guardOf (word0 st.ins))

/-- The flags that some lanes of a stream raise. -/
def Stream.flags (st : Stream) (gi : Nat) (lanes : LaneMask) (s : State) : FlagBits :=
  if lanes = 0 then 0
  else ((st.result gi lanes s).map (fun g => g.inflight.foldl (fun f m => f ||| m.bits) 0)).getD 0

/-- The results of the lanes that have still to enter the pipe, from the registers as they are now; the flags of those that have
entered since the last change are settled as they were before (R58). -/
def restream (before : State) (gi : Nat) (g g0 : Group) (st st0 : Stream) (s : State) : State :=
  let ahead := st.ahead s.now
  let entered := st0.lanes g0 &&& ~~~(st0.ahead s.now) &&& ~~~(maskOf (fun L => decide (L < st0.past)))
  let settled := st0.bits ||| st0.flags gi entered before
  let e := st.lanes g &&& ahead
  let out := (if e = 0 then none else st.result gi e s).getD (g.streamed st)
  let bits := settled ||| st.flags gi e s
  let write (h : Group) (o : Opnd) : Group :=
    (List.range o.count).foldl (fun h k =>
      match o.file with
      | .vec => h.vsetLanes false (o.first + k) ahead (fun L => 0#32 ++ out.vget (o.first + k) L)
      | .pred => h.pset (o.first + k) ahead (out.pget (o.first + k))
      | _ => h) h
  s.modGroup gi (fun h =>
    let h := st.ins.opnds.foldl write h
    { h with
      inflight := h.inflight.filter (fun m => m.due != st.since + 16 || m.read.isSome) ++
        (if bits = 0 then [] else [{ due := st.since + 16, bits := bits, read := none }]),
      stream := some { st with past := s.now - st.since, bits := settled } })

/-- A turn that has changed the registers of a group whose lanes stream: the lanes still to come act on them. -/
def restreamAll (before s : State) : State :=
  (List.range s.groups.length).foldl (fun t gi =>
    match before.group? gi, s.group? gi with
    | some g0, some g =>
      (match g0.stream, g.stream with
       | some st0, some st =>
         if st.kind = .lanes ∧ st.since = st0.since ∧ (g.vec ≠ g0.vec ∨ g.pred ≠ g0.pred ∨ st.vec ≠ st0.vec ∨ st.uni ≠ st0.uni ∨ st.pred ≠ st0.pred)
         then restream before gi g g0 st st0 t else t
       | _, _ => t)
    | _, _ => t) s

/-! ## What follows a turn -/

/-- The banks into which completions of a turn have written: loads and atomics, matrix entries, orbit operations, reads made at a
completion, and window sectors of an engine, whatever the values (R61). -/
def writtenBanks (a b : State) : List Nat :=
  let bank (gi : Nat) (uni : Bool) : List Nat :=
    ((a.group? gi).map (fun g => if uni then uniBankKey g else pipeKey g)).toList
  a.acc.flatMap (fun (c : Access) =>
    let open_ := c.lanes.any (fun l => l.stage != .done && !(b.access? c.id).any (fun d => d.lanes.contains l))
    match c.kind with
    | .ld | .lds | .ldx _ | .atom _ | .atoms _ => if open_ then bank c.group false else []
    | .ldu => if open_ then bank c.group true else []
    | _ => []) ++
  a.matq.flatMap (fun (m : MatEntry) =>
    if m.out.any (fun o => o.vec != []) && b.matq.all (fun n => n.id != m.id) then bank m.group false else []) ++
  a.orbitOps.flatMap (fun (o : OrbitOp) =>
    if b.orbitOps.any (fun p => p.id == o.id) then []
    else match o.kind with
      | .board _ _ => bank o.group true
      | _ => bank o.group false) ++
  a.groups.zipIdx.flatMap (fun (x : Group × Nat) =>
    if x.1.inflight.any (fun m => m.read.isSome && !(b.group? x.2).any (fun g => g.inflight.contains m)) then bank x.2 false else []) ++
  a.engines.flatMap (fun (o : EngineOp) =>
    match b.engine? o.id with
    | none => []
    | some p => (p.writesDone.filter (fun v => !o.writesDone.contains v)).flatMap (fun v =>
        match o.place a v .w with
        | .ok .window pa => bankAt a o.ctx pa
        | _ => []))

/-- A group's registers have been written into the banks of its place: those of another place than before, or of the same one when its
block came back to its cores (R61). -/
def broughtIn (a b : State) (g h : Group) : Bool :=
  pipeKey g != pipeKey h || uniBankKey g != uniBankKey h || (!onCores a h.block && onCores b h.block)

/-- The banks whose registers a turn has changed or written, or that a lane or an engine has read through a window (R61). -/
def usedBanks (a b : State) : List Nat :=
  writtenBanks a b ++
  (b.groups.zipIdx).flatMap (fun (x : Group × Nat) =>
    match a.group? x.2 with
    | none => [pipeKey x.1, uniBankKey x.1]
    | some g =>
      if broughtIn a b g x.1 then [pipeKey x.1, uniBankKey x.1]
      else (if g.vec = x.1.vec then [] else [pipeKey x.1]) ++ (if g.uni = x.1.uni then [] else [uniBankKey x.1])) ++
  a.acc.flatMap (fun (c : Access) =>
    (c.lanes.filter (fun l => l.space == .window && l.stage == .issued &&
        !((b.access? c.id).any (fun d => d.lanes.contains l)))).flatMap (fun l =>
      bankAt a (((a.group? c.group).map (fun g => a.groupCtx g)).getD 0) l.addr)) ++
  a.engines.flatMap (fun (o : EngineOp) =>
    match b.engine? o.id with
    | none => []
    | some p => (p.readsDone.filter (fun v => v != tileCode && !o.readsDone.contains v)).flatMap (fun v =>
        match o.place a v .r with
        | .ok .window pa => bankAt a o.ctx pa
        | _ => []))

/-- The TLBs hold what their sizes allow: partitions of a first level are redrawn when blocks arrive or leave (R136). -/
def trimTlbs (s : State) : State := { s with tlb := tlbTrim s s.tlb }

/-- What follows a turn: lanes still to enter the pipe act on what it changed, the banks it used are awake, firmware's control
blocks and the trace follow what it changed, firmware's accesses are performed as far as they can be, homes note what has
come during a drain, and the TLBs are drawn for the blocks that stand on the cores then (R58, R61, R136, R151, R157, R240,
R259). DESIGN CHOICE (log 35). -/
def record (before : State) (o : Host.Outcome State Fault Refusal) : Host.Outcome State Fault Refusal :=
  match o with
  | .next t => .next (trimTlbs (noteArrivals (flushFw (traceStep before (syncBlocks before (touchBanks (usedBanks before t) (restreamAll before t)))))))
  | .fault f => .fault f
  | .refused r => .refused r

/-! ## What comes next when nothing is prescribed

Where the rules leave the order of independent events open, the agenda of the state prescribes it. An empty agenda lets
the machine run by itself: the first event below that changes something, then the quarters' issues, then the end of the
cycle. -/

/-- Events of groups, splits and barriers. -/
def splitTurns (s : State) : List Instr :=
  (s.groups.zipIdx).flatMap (fun (x : Group × Nat) =>
    let act : List Instr :=
      if decide (liveCount x.1.splits < 4) && x.1.splits.any (wakeable s x.1) then [.splitActivate x.2] else []
    let per : List Instr := x.1.splits.flatMap (fun p =>
      (if p.run == .live && (waitsOnMemory s p || 32 < p.stall) then [Instr.splitDormant x.2 p.idx] else []) ++
      (if 256 ≤ p.age ∧ p.reserved = false then [.waitAgeReservation x.2 p.idx] else []) ++
      (match p.wait with
       | .yield till => if till ≤ s.now then [.yieldExpiry x.2 p.idx] else []
       | .sleep _ _ => [.sleepWake x.2 p.idx]
       | .join => if p.since + 1024 ≤ s.now then [.joinTimeout x.2 p.idx] else []
       | _ => []))
    act ++ per) ++
  (s.blocks.zipIdx).flatMap (fun (x : Block × Nat) =>
    (x.1.barCount.filter (fun e => decide (watchdogLimit s x.2 < e.2))).map (fun e => Instr.barrierWatchdog x.2 e.1))

/-- Accesses that may be performed, and their timeouts. -/
def accessTurns (s : State) : List Instr :=
  s.acc.flatMap (fun a =>
    (if a.waitFrom.isSome then [Instr.emptyLineTimeout a.id] else []) ++
    (a.lanes.filter (fun l => l.stage == .issued)).map (fun l =>
      if a.kind.isStore then .storePerformed a.id l.lane else .loadDataReturn a.id l.lane))

/-- The drains that accesses wait for (R157). -/
def drainTurns (s : State) : List Instr :=
  s.granules.flatMap (fun g =>
    if g.drain.isSome || (drainGoal s g.num).isSome then
      g.holders.map (fun h => Instr.drainRequest g.num h) ++ [.drainPoint g.num]
    else [])

/-- A device write waits for a line that the host holds (R166). -/
def wantedBack (s : State) (line : Nat) : Bool :=
  s.acc.any (fun a => a.kind.writes && a.lanes.any (fun l => l.stage == .issued && l.space == .hbm && l.addr / 128 == line)) ||
  s.engines.any (fun o => !o.finished && (o.writes.filter (fun v => !o.writesDone.contains v)).any (fun v =>
    match o.place s v .w with
    | .ok .hbm pa => pa / 128 == line
    | _ => false)) ||
  s.fwOut.head?.any (fun f => f.writes && f.touches s (line / 32))

/-- Messages of the directory protocol that are due (R170, R171), and host copies that are called back (R166). -/
def lineTurns (s : State) : List Instr :=
  s.dir.flatMap (fun d =>
    (d.awaiting.flatMap (fun k =>
      [Instr.invalidation k.1 k.2 d.line, .forward k.1 k.2 d.line, .acknowledgement k.1 k.2 d.line])) ++
    (if d.hostHolder && d.snooping then [.backInvalidateResponse d.line]
     else if d.hostHolder && wantedBack s d.line then [.backInvalidateSnoop d.line] else [])) ++
  (s.l1.filter (fun l => l.st.moving)).flatMap (fun l =>
    [Instr.dataResponse l.die l.core l.line, .writeBack l.die l.core l.line])

/-- Work of the engines, handlers, matrix queues and channels. -/
def unitTurns (s : State) : List Instr :=
  s.engines.flatMap (fun o =>
    if o.finished then []
    else
      Instr.engineFault o.id ::
        ((o.reads.filter (fun v => !o.readsDone.contains v)).map (fun v => Instr.engineSectorRead o.id v) ++
         (o.sreads.filter (fun v => !o.sreadsDone.contains v)).map (fun v => Instr.engineSectorRead o.id (spadBase + v)) ++
         (o.writes.filter (fun v => !o.writesDone.contains v)).map (fun v => Instr.engineSectorWrite o.id v) ++
         (o.swrites.filter (fun v => !o.swritesDone.contains v)).map (fun v => Instr.engineSectorWrite o.id (spadBase + v)) ++
         (if o.bursts.any (fun b => !b.born) then [.handlerBirth o.id] else []) ++ [.engineCompletion o.id])) ++
  (s.matq.map (fun m => (m.die, m.core))).eraseDups.flatMap (fun k =>
    [Instr.matrixEntryComplete k.1 k.2, .matrixEntryStart k.1 k.2, .mmagCancel k.1 k.2]) ++
  (s.channels.filter (fun c => decide (0 < c.flying))).map (fun c => Instr.channelCredit c.launch c.num) ++
  s.retries.map (fun r => Instr.remoteRetry r.port r.ctx r.va r.bytes r.refusals)

/-- The placement of a launch's next block beside what runs, with its save area (R44, R238). -/
def nextPlacement (s : State) (li : Nat) : Option (Nat × Placement) :=
  match (s.launch? li).bind (fun l => (s.ctx? l.ctx).map (fun c => (l, c))) with
  | none => none
  | some (l, c) =>
    if !mayPlace s l c then none
    else
      let f (lin : Nat) : Nat := bufferBytes (s.channelsOf li) lin
      match evictedBlock s li with
      | some (_, b) =>
        if higherWaits s c l then none
        else (seat (occupied s none) (cohortDie c b.lin) l.desc (f b.lin) b.saveArea).map (fun p => (b.lin, p))
      | none =>
        (nextLin l).bind (fun lin =>
          (findArea s c (saveSize l.desc (s.channelsOf li).length (f lin))).bind (fun area =>
            (seat (occupied s none) (cohortDie c lin) l.desc (f lin) (BitVec.ofNat 64 area)).map (fun p => (lin, p))))

/-- Admission, placement, completion and saving of work. -/
def firmwareTurns (s : State) : List Instr :=
  (s.blocks.zipIdx).flatMap (fun (x : Block × Nat) => if x.1.complete then [] else [Instr.blockComplete x.2]) ++
  (s.ctxs.filter (fun c => c.stopping)).map (fun c => Instr.contextSaved c.num) ++
  (s.launches.zipIdx).flatMap (fun (x : Launch × Nat) =>
    if x.1.phase = .admitted then
      (if x.1.desc.progress = 2 then
          ((s.blocks.zipIdx).filter (fun (b : Block × Nat) => b.1.launch == x.2)).map (fun (b : Block × Nat) =>
            Instr.blockPreemption b.2)
        else []) ++
        (match nextPlacement s x.2 with
         | some (lin, p) => [.blockStart x.2 lin p]
         | none => [])
    else []) ++
  s.parts.map (fun p => Instr.launchAdmission p.num)

/-- Register banks that have rested. DESIGN CHOICE (log 2). -/
def restTurns (s : State) : List Instr :=
  ((allocatedBanks s).filter (fun k => decide (s.bankLast.get 0 k + 256 ≤ s.now) && !s.drowsy.contains k)).map Instr.bankDrowsy

/-- Commands that wait in the rings, scrubs, and posted writes that the root port accepts. DESIGN CHOICE (log 2). -/
def outsideTurns (s : State) : List Turn :=
  (s.taken.filter (fun r => r.2 != [])).map (fun r => Turn.command r.1) ++ s.scrubbing.map Turn.scrub ++
    (if s.posted = [] then [] else [.rootAccept s.posted.length])

/-- The first turn of a list that changes the state. DESIGN CHOICE (log 2). -/
def firstEffective (s : State) (ts : List Turn) : Option Turn :=
  ts.find? (fun t => match turn t s with
    | .next u => decide (u ≠ s)
    | _ => true)

/-- The split that issues next: its quarter's choice, with the quarters in the rotating order. DESIGN CHOICE (log 2). -/
def nextIssue (s : State) : Option Turn :=
  (List.range 4).findSome? (fun r =>
    (s.groups.zipIdx).findSome? (fun (x : Group × Nat) =>
      if quarterTurn s x.1 = r then
        (x.1.splits.find? (fun p => mayIssue s x.2 x.1 p)).map (fun p => Turn.issue x.2 p.idx)
      else none))

/-- The events that a machine running by itself considers, in order. DESIGN CHOICE (log 2). -/
def dueEvents (s : State) : List Instr :=
  splitTurns s ++ accessTurns s ++ s.offers.map (fun o => o.2.1) ++ drainTurns s ++ lineTurns s ++ unitTurns s ++ firmwareTurns s ++ restTurns s

/-- The turn of a machine that runs by itself. DESIGN CHOICE (log 2). -/
def freeTurn (s : State) : Turn :=
  ((firstEffective s ((dueEvents s).map Turn.event)).orElse (fun _ =>
    (firstEffective s (outsideTurns s)).orElse (fun _ => nextIssue s))).getD .tick

/-! ## One step -/

/-- The turn that the agenda prescribes is taken from it; an empty agenda leaves the choice to the machine.
DESIGN CHOICE (log 1, 71). -/
def stepState (s : State) : Host.Outcome State Fault Refusal :=
  match s.agenda with
  | [] => record s (turn (freeTurn s) s)
  | t :: rest => record { s with agenda := rest } (turn t { s with agenda := rest })

end Sys2Proof.Machine
end

