-- ==== Sys2Proof/Machine/Load.lean ====
section
/-! DEFINITION. A loaded program: a partition, a context with one page of code, and a launch whose one block of one group
stands at that page, as the commands PART_CREATE, CTX_CREATE, MAP, QUEUE_SETUP and SUBMIT with an admission and a block
start leave them (R14, R15, R22 to R24, R39, R71). -/

namespace Sys2Proof.Machine

open Sys2Proof

/-- The virtual address of the loaded code, and its frame on die 0. -/
def loadVa : Nat := 0x10000
def loadPa : Nat := 0x10000

/-- One group of 16 lanes with every register that a group can be allocated. -/
def loadDesc : Desc :=
  { entry := BitVec.ofNat 64 loadVa, args := 0, gridX := 1, gridY := 1, gridZ := 1, blkX := 16, blkY := 1, blkZ := 1, cores := 1,
    progress := 0, vregs := 256, sregs := 1024, tiles := 16, accs := 32, hslots := 0, hvregs := 0, scratch := 1024, chtab := 0,
    nch := 0, emptyExp := 0, colltab := 0, done := BitVec.ofNat 64 (loadVa + 0x8000), orbReq := [0, 0, 0, 0, 0, 0, 0, 0],
    reservedZero := true }

/-- A context with 64 KiB at the load address, its .text the first half of it. DESIGN CHOICE (log 4). -/
def loadCtx : Ctx :=
  { num := 1, state := .running, reason := none, part := 0, bind := [0], debug := false, wdexp := 26, ccb := 0, trapq := 0,
    savePool := 0, poolSize := 0, head := 0, tail := 0, traps := [], quota := [0, 0, 0, 0, 0, 0, 0, 0],
    svclog := List.replicate 16 none, queues := [{ prio := 0, ring := 0, waiting := [] }], nextLaunch := 2,
    maps := [{ va := loadVa, pages := 1, psize := 65536, target := loadPa, r := true, w := true, x := true, host := false,
               window := false, demand := false }],
    resident := [], texts := [{ lo := loadVa, hi := loadVa + 0x8000, arms := [], ready := true }], ports := 0, stopping := false, saveComplete := false,
    saveCmd := none }

def loadLaunch : Launch :=
  { ctx := 1, id := 1, queue := 0, descVa := 0, desc := loadDesc, deps := [], phase := .admitted,
    arm := 0, started := [0], finished := 0 }

def loadPlace : Placement :=
  { cores := [0], sbase := [0], slots := [{ SlotPlace.first with tiles := List.range 16, accs := List.range 32 }], hslots := [], saveArea := 0 }

def loadBlock : Block :=
  { launch := 0, lin := 0, x := 0, y := 0, z := 0, die := 0, cores := [0], sbase := [0], scratch := [], lines := [],
    barCount := [], hplaces := [], lastCores := [], saveArea := 0, stopped := false, complete := false, lastTime := none }

def loadGroup : Group := newGroup 0 loadBlock loadLaunch loadPlace 0

/-- A state with the words of one program loaded at the group's program counter, which issues next. What would stand in
the way of its issue is cleared: older work, cached translations and sectors, busy resources, a recovery or a reset that has
not completed. -/
def loadWords (ws : List Word) (s : State) : State :=
  let s : State := { s with
    agenda := [.issue 0 0], parts := [{ num := 0, dies := [0], weights := [] }], ctxs := [loadCtx], launches := [loadLaunch],
    blocks := [loadBlock], groups := [loadGroup], channels := [], acc := [], engines := [], matq := [], matUsed := [], orbitOps := [],
    granules := [], tlb := [], icache := [], busy := [], frozen := false, up := true, fwOut := [], taken := [], routines := [],
    scrubbing := [], drowsy := [], offers := [] }
  s.memPutBytes loadPa (ws.flatMap wordBytes)

end Sys2Proof.Machine
end

