-- ==== Sys2Proof/Machine/Step.lean ====
section
/-! DEFINITION. One step of the machine, and the state with one instruction laid where it fetches next. -/

namespace Sys2Proof.Machine

open Sys2Proof

/-- One turn: what the agenda prescribes, else the machine's own next turn. -/
def step (s : State) : Host.Outcome State Fault Refusal := stepState s

/-- The state with an opcode-table word (bits above `nbits` zero) loaded as the next instruction.
DESIGN CHOICE (log 4, 76). -/
def State.withFetchWord (s : State) (nbits w : Nat) : State := loadWords (wordsOfNat (w % 2 ^ nbits)) s

end Sys2Proof.Machine
end

