-- ==== Sys2Proof/Laws/Decode.lean ====
section
/-! SUPPORT. Decoding of encoded fields: each field of a word that the encoder builds is read back, and an extended
instruction's words decode to it. -/

namespace Sys2Proof

/-! ## Fields -/

theorem modaOf_modaBits (m : SrcMod) : modaOf (modaBits m) = some m := by
  cases m with
  | none => decide
  | rot g d => cases g <;> (revert d; decide)
  | bfly g d => cases g <;> (revert d; decide)
  | bcast g d => cases g <;> (revert d; decide)

theorem tyOfCode_code (t : Ty) : Ty.ofCode t.code = some t := by cases t <;> decide

theorem rmOf_rmBits (r : Rm) : rmOf (rmBits r) = r := by cases r <;> decide

/-- Word 0 of the extended format, field by field (R74). -/
theorem extWord0_fields (maj sub : Nat) (d : BitVec 10) (pn : Bool) (pg : BitVec 4) (len : BitVec 2) :
    let w := BitVec.ofNat 9 sub ++ d ++ (BitVec.ofBool pn ++ pg) ++ BitVec.ofNat 6 maj ++ len
    w.extractLsb' 0 2 = len ∧ w.extractLsb' 2 6 = BitVec.ofNat 6 maj ∧ w.extractLsb' 8 4 = pg ∧ w.getLsbD 12 = pn ∧
      w.extractLsb' 13 10 = d ∧ w.extractLsb' 23 9 = BitVec.ofNat 9 sub := by
  refine ⟨?_, ?_, ?_, ?_, ?_, ?_⟩ <;>
    simp (disch := omega) [-Nat.reduceAdd, BitVec.extractLsb'_append_eq_of_le, BitVec.extractLsb'_append_eq_of_add_le,
      BitVec.extractLsb'_eq_self, BitVec.getLsbD_append, -BitVec.getLsbD_eq_getElem]

/-- Word 1 (R74). -/
theorem extWord1_fields (a b c : BitVec 10) :
    let w := 0#2 ++ c ++ b ++ a
    w.extractLsb' 0 10 = a ∧ w.extractLsb' 10 10 = b ∧ w.extractLsb' 20 10 = c ∧ w.extractLsb' 30 2 = 0#2 := by
  refine ⟨?_, ?_, ?_, ?_⟩ <;>
    simp (disch := omega) [-Nat.reduceAdd, BitVec.extractLsb'_append_eq_of_le, BitVec.extractLsb'_append_eq_of_add_le,
      BitVec.extractLsb'_eq_self]

/-- Word 2 (R74). -/
theorem extWord2_fields (var : BitVec 9) (sat dU aU bU cU : Bool) (rm : BitVec 2) (ty : BitVec 4) (moda : BitVec 12) :
    let w := var ++ BitVec.ofBool sat ++ rm ++
      (BitVec.ofBool dU ++ BitVec.ofBool aU ++ BitVec.ofBool bU ++ BitVec.ofBool cU) ++ ty ++ moda
    w.extractLsb' 0 12 = moda ∧ w.extractLsb' 12 4 = ty ∧ w.getLsbD 16 = cU ∧ w.getLsbD 17 = bU ∧ w.getLsbD 18 = aU ∧
      w.getLsbD 19 = dU ∧ w.extractLsb' 20 2 = rm ∧ w.getLsbD 22 = sat ∧ w.extractLsb' 23 9 = var := by
  refine ⟨?_, ?_, ?_, ?_, ?_, ?_, ?_, ?_, ?_⟩ <;>
    simp (disch := omega) [-Nat.reduceAdd, BitVec.extractLsb'_append_eq_of_le, BitVec.extractLsb'_append_eq_of_add_le,
      BitVec.extractLsb'_eq_self, BitVec.getLsbD_append, -BitVec.getLsbD_eq_getElem]

/-- The formats S2 and SI share the low 21 bits; the two high fields of S2 (R73). -/
theorem s2Word_fields (maj min : Nat) (d a : BitVec 8) (pn : Bool) (pg : BitVec 4) (len : BitVec 2) :
    let w := BitVec.ofNat 3 min ++ a ++ d ++ (BitVec.ofBool pn ++ pg) ++ BitVec.ofNat 6 maj ++ len
    w.extractLsb' 0 2 = len ∧ w.extractLsb' 2 6 = BitVec.ofNat 6 maj ∧ w.extractLsb' 8 4 = pg ∧ w.getLsbD 12 = pn ∧
      w.extractLsb' 13 8 = d ∧ w.extractLsb' 21 8 = a ∧ w.extractLsb' 29 3 = BitVec.ofNat 3 min := by
  refine ⟨?_, ?_, ?_, ?_, ?_, ?_, ?_⟩ <;>
    simp (disch := omega) [-Nat.reduceAdd, BitVec.extractLsb'_append_eq_of_le, BitVec.extractLsb'_append_eq_of_add_le,
      BitVec.extractLsb'_eq_self, BitVec.getLsbD_append, -BitVec.getLsbD_eq_getElem]

theorem siWord_fields (maj len : Nat) (d : BitVec 8) (imm : BitVec 11) (pn : Bool) (pg : BitVec 4) :
    let w := imm ++ d ++ (BitVec.ofBool pn ++ pg) ++ BitVec.ofNat 6 maj ++ BitVec.ofNat 2 len
    w.extractLsb' 0 2 = BitVec.ofNat 2 len ∧ w.extractLsb' 2 6 = BitVec.ofNat 6 maj ∧ w.extractLsb' 8 4 = pg ∧
      w.getLsbD 12 = pn ∧ w.extractLsb' 13 8 = d ∧ w.extractLsb' 21 11 = imm := by
  refine ⟨?_, ?_, ?_, ?_, ?_, ?_⟩ <;>
    simp (disch := omega) [-Nat.reduceAdd, BitVec.extractLsb'_append_eq_of_le, BitVec.extractLsb'_append_eq_of_add_le,
      BitVec.extractLsb'_eq_self, BitVec.getLsbD_append, -BitVec.getLsbD_eq_getElem]

theorem sbWord_fields (maj : Nat) (off : BitVec 19) (pn : Bool) (pg : BitVec 4) :
    let w := off ++ (BitVec.ofBool pn ++ pg) ++ BitVec.ofNat 6 maj ++ 0#2
    w.extractLsb' 0 2 = 0#2 ∧ w.extractLsb' 2 6 = BitVec.ofNat 6 maj ∧ w.extractLsb' 8 4 = pg ∧ w.getLsbD 12 = pn ∧
      w.extractLsb' 13 19 = off := by
  refine ⟨?_, ?_, ?_, ?_, ?_⟩ <;>
    simp (disch := omega) [-Nat.reduceAdd, BitVec.extractLsb'_append_eq_of_le, BitVec.extractLsb'_append_eq_of_add_le,
      BitVec.extractLsb'_eq_self, BitVec.getLsbD_append, -BitVec.getLsbD_eq_getElem]

theorem swWord_fields (t c s l : BitVec 4) (pn : Bool) (pg : BitVec 4) :
    let w := 0#3 ++ t ++ c ++ s ++ l ++ (BitVec.ofBool pn ++ pg) ++ 6#6 ++ 0#2
    w.extractLsb' 0 2 = 0#2 ∧ w.extractLsb' 2 6 = 6#6 ∧ w.extractLsb' 8 4 = pg ∧ w.getLsbD 12 = pn ∧
      w.extractLsb' 13 4 = l ∧ w.extractLsb' 17 4 = s ∧ w.extractLsb' 21 4 = c ∧ w.extractLsb' 25 4 = t ∧
        w.extractLsb' 29 3 = 0#3 := by
  refine ⟨?_, ?_, ?_, ?_, ?_, ?_, ?_, ?_, ?_⟩ <;>
    simp (disch := omega) [-Nat.reduceAdd, BitVec.extractLsb'_append_eq_of_le, BitVec.extractLsb'_append_eq_of_add_le,
      BitVec.extractLsb'_eq_self, BitVec.getLsbD_append, -BitVec.getLsbD_eq_getElem]

/-! ## Literals and words -/

theorem litOf_litWords (v : DWord) : litOf (v.extractLsb' 0 32) (v.extractLsb' 32 32) = v := by
  unfold litOf
  have h : v.extractLsb' 32 32 ++ v.extractLsb' 0 32 = v.extractLsb' 0 (32 + 32) :=
    BitVec.extractLsb'_append_extractLsb'_eq_extractLsb' (by omega)
  rw [h]
  exact BitVec.extractLsb'_eq_self

/-- Words in memory order read back as words. -/
theorem wordsOfBytes_wordBytes (w : Word) (bs : List Byte) : wordsOfBytes (wordBytes w ++ bs) = w :: wordsOfBytes bs := by
  have h : w.extractLsb' 24 8 ++ w.extractLsb' 16 8 ++ w.extractLsb' 8 8 ++ w.extractLsb' 0 8 = w := by
    ext i hi
    simp
    grind
  simp only [wordBytes, List.cons_append, List.nil_append, wordsOfBytes]
  exact congrArg (· :: wordsOfBytes bs) h

theorem wordsOfBytes_flatMap (ws : List Word) (bs : List Byte) :
    wordsOfBytes (ws.flatMap wordBytes ++ bs) = ws ++ wordsOfBytes bs := by
  induction ws with
  | nil => rfl
  | cons w ws ih => rw [List.flatMap_cons, List.append_assoc, wordsOfBytes_wordBytes, ih, List.cons_append]

/-! ## Whole instructions -/

/-- Three words whose fields are those of an instruction give its fields. -/
theorem extOf_of_fields {w0 w1 w2 : Word} {x : Ext} (hpn : w0.getLsbD 12 = x.guard.pn) (hpg : w0.extractLsb' 8 4 = x.guard.pg)
    (hd : w0.extractLsb' 13 10 = x.d) (h1 : w1.extractLsb' 0 10 = x.a ∧ w1.extractLsb' 10 10 = x.b ∧
      w1.extractLsb' 20 10 = x.c ∧ w1.extractLsb' 30 2 = 0#2)
    (h2 : w2.extractLsb' 0 12 = modaBits x.moda ∧ w2.extractLsb' 12 4 = x.ty.code ∧ w2.getLsbD 16 = x.cU ∧
      w2.getLsbD 17 = x.bU ∧ w2.getLsbD 18 = x.aU ∧ w2.getLsbD 19 = x.dU ∧ w2.extractLsb' 20 2 = rmBits x.rm ∧
        w2.getLsbD 22 = x.sat ∧ w2.extractLsb' 23 9 = x.var) :
    extOf w0 w1 w2 x.lit = some x := by
  obtain ⟨ha, hb, hc, hz⟩ := h1
  obtain ⟨hm, ht, hcU, hbU, haU, hdU, hrm, hsat, hvar⟩ := h2
  simp only [extOf, guardOf, hpn, hpg, hd, ha, hb, hc, hz, hm, ht, hcU, hbU, haU, hdU, hrm, hsat, hvar, tyOfCode_code,
    modaOf_modaBits, rmOf_rmBits]
  rfl

/-- What the decoder makes of the words of an extended instruction, from their fields. -/
theorem decodeExt_of_fields {w0 w1 w2 : Word} {maj sub : Nat} {mk : Ext → Instr} {x : Ext} (rest : List Word)
    (hmaj : majOf w0 = maj) (hsub : (w0.extractLsb' 23 9).toNat = sub) (hi : extInstr maj sub = some mk)
    (hw : (mk x).wf = true) (hext : ∀ l, x.lit = l → extOf w0 w1 w2 l = some x)
    (hlen : lenOf w0 = if x.lit.isSome then 3 else 1) :
    decodeExt w0 (w1 :: w2 :: ((match x.lit with | none => [] | some v => litWords v) ++ rest)) =
      .ok (mk x, 3 + (match x.lit with | none => 0 | some _ => 2)) := by
  unfold decodeExt
  cases hl : x.lit with
  | none =>
    have h1 : lenOf w0 = 1 := by simpa [hl] using hlen
    simp only [h1, hmaj, hsub, hi, List.nil_append, hext _ hl, accept, hw, if_true]
  | some v =>
    have h3 : lenOf w0 = 3 := by simpa [hl] using hlen
    simp only [h3, hmaj, hsub, hi, litWords, List.cons_append, List.nil_append, litOf_litWords, hext _ hl, accept, hw,
      if_true]

/-- The words of an extended instruction decode to it, whatever follows. -/
theorem decode_extWords {maj sub : Nat} {mk : Ext → Instr} {x : Ext} (hx : extMajors.contains maj = true)
    (hsub : sub < 512) (hi : extInstr maj sub = some mk) (hw : (mk x).wf = true) (rest : List Word) :
    decode (extWords maj sub x ++ rest) = .ok (mk x, (extWords maj sub x).length) := by
  have hm : maj = 8 ∨ maj = 9 ∨ maj = 10 ∨ maj = 11 ∨ maj = 12 ∨ maj = 13 ∨ 16 ≤ maj ∧ maj < 56 := by
    simp [extMajors] at hx; omega
  obtain ⟨hlen, hmj, hpg, hpn, hd, hsb⟩ :=
    extWord0_fields maj sub x.d x.guard.pn x.guard.pg (if x.lit.isSome then 3 else 1)
  have hmaj : majOf (BitVec.ofNat 9 sub ++ x.d ++ guardBits x.guard ++ BitVec.ofNat 6 maj ++
      (if x.lit.isSome then 3 else 1 : BitVec 2)) = maj := by
    unfold majOf
    exact (congrArg BitVec.toNat hmj).trans (by rw [BitVec.toNat_ofNat]; omega)
  have h := decodeExt_of_fields (w1 := 0#2 ++ x.c ++ x.b ++ x.a) (w2 := x.var ++ BitVec.ofBool x.sat ++ rmBits x.rm ++
      (BitVec.ofBool x.dU ++ BitVec.ofBool x.aU ++ BitVec.ofBool x.bU ++ BitVec.ofBool x.cU) ++ x.ty.code ++
        modaBits x.moda) rest hmaj ((congrArg BitVec.toNat hsb).trans (by rw [BitVec.toNat_ofNat]; omega)) hi hw
    (fun l hl => hl ▸ extOf_of_fields hpn hpg hd (extWord1_fields x.a x.b x.c) (extWord2_fields ..))
    ((congrArg BitVec.toNat hlen).trans (by cases x.lit <;> rfl))
  have hne : extMajors.contains maj = true ∧ ¬ 56 ≤ maj ∧ maj ≠ 1 ∧ maj ≠ 7 ∧ ¬ (maj = 2 ∨ maj = 3) ∧
      ¬ (maj = 4 ∨ maj = 5 ∨ maj = 6) := ⟨hx, by omega, by omega, by omega, by omega, by omega⟩
  simp only [extWords, List.cons_append, List.nil_append, decode]
  rw [hmaj, if_neg hne.2.1, if_neg hne.2.2.1, if_neg hne.2.2.2.1, if_neg hne.2.2.2.2.1, if_neg hne.2.2.2.2.2, if_pos hx]
  exact h.trans (by cases x.lit <;> rfl)

end Sys2Proof
end

