-- ==== Sys2Proof/Laws/PerInstr.lean ====
section
/-! SUPPORT. Claims for every instruction, one lemma for each constructor: the words of a well-formed instruction decode to
it, whatever follows them (R70 to R80). -/

namespace Sys2Proof.Laws.RoundTrip

open Sys2Proof

/-- The words that encode a well-formed instruction decode to it and tell its length; an event has no words. -/
def Statement (i : Instr) : Prop :=
  i.wf = true → encode i ≠ [] → ∀ rest, decode (encode i ++ rest) = .ok (i, (encode i).length)

/-- A short word decodes by its major. -/
theorem decode_short {w0 : Word} {maj : Nat} {r : Except DecodeError (Instr × Nat)} (hmaj : majOf w0 = maj)
    (hlen : lenOf w0 = 0) (h1 : maj = 1 → decodeMajor1 w0 = r) (h7 : maj = 7 → decodeMajor7 w0 = r)
    (hb : maj = 4 ∨ maj = 5 ∨ maj = 6 → decodeSB w0 = r) (hm : maj = 1 ∨ maj = 7 ∨ maj = 4 ∨ maj = 5 ∨ maj = 6)
    (rest : List Word) : decode (w0 :: rest) = r := by
  unfold decode
  rcases hm with h | h | h | h | h <;> subst h <;> simp_all

/-- The fields that majors 1 and 7 read from an S2 word. -/
theorem s2_fields (maj min : Nat) (g : Guard) (d a : BitVec 8) (hmaj : maj < 64) (hmin : min < 8) :
    majOf (s2Word maj min g d a) = maj ∧ lenOf (s2Word maj min g d a) = 0 ∧ guardOf (s2Word maj min g d a) = g ∧
      (s2Word maj min g d a).extractLsb' 13 8 = d ∧ (s2Word maj min g d a).extractLsb' 21 8 = a ∧
        ((s2Word maj min g d a).extractLsb' 29 3).toNat = min := by
  obtain ⟨hl, hm, hpg, hpn, hd, ha, hn⟩ := s2Word_fields maj min d a g.pn g.pg 0#2
  refine ⟨(congrArg BitVec.toNat hm).trans ?_, congrArg BitVec.toNat hl, congrArg₂ Guard.mk hpn hpg, hd, ha,
    (congrArg BitVec.toNat hn).trans ?_⟩ <;> rw [BitVec.toNat_ofNat] <;> omega

theorem si_fields (maj len : Nat) (g : Guard) (d : BitVec 8) (imm : BitVec 11) (hmaj : maj < 64) (hlen : len < 4) :
    majOf (siWord maj len g d imm) = maj ∧ lenOf (siWord maj len g d imm) = len ∧ guardOf (siWord maj len g d imm) = g ∧
      (siWord maj len g d imm).extractLsb' 13 8 = d ∧ (siWord maj len g d imm).extractLsb' 21 11 = imm := by
  obtain ⟨hl, hm, hpg, hpn, hd, hi⟩ := siWord_fields maj len d imm g.pn g.pg
  refine ⟨(congrArg BitVec.toNat hm).trans ?_, (congrArg BitVec.toNat hl).trans ?_, congrArg₂ Guard.mk hpn hpg, hd, hi⟩ <;>
    rw [BitVec.toNat_ofNat] <;> omega

theorem sb_fields (maj : Nat) (g : Guard) (off : BitVec 19) (hmaj : maj < 64) :
    majOf (sbWord maj g off) = maj ∧ lenOf (sbWord maj g off) = 0 ∧ guardOf (sbWord maj g off) = g ∧
      (sbWord maj g off).extractLsb' 13 19 = off := by
  obtain ⟨hl, hm, hpg, hpn, ho⟩ := sbWord_fields maj off g.pn g.pg
  refine ⟨(congrArg BitVec.toNat hm).trans ?_, congrArg BitVec.toNat hl, congrArg₂ Guard.mk hpn hpg, ho⟩
  rw [BitVec.toNat_ofNat]; omega

/-- An event has no words. -/
theorem no_words {i : Instr} (h : encode i = []) : Statement i := fun _ hne => absurd h hne

/-- An instruction of major 1. -/
theorem major1 {i : Instr} {min : Nat} {g : Guard} {d a : BitVec 8} (he : encode i = [s2Word 1 min g d a]) (hmin : min < 8)
    (hd : ∀ w : Word, (w.extractLsb' 29 3).toNat = min → guardOf w = g → w.extractLsb' 13 8 = d → w.extractLsb' 21 8 = a →
      decodeMajor1 w = accept i 1) : Statement i := by
  intro hw _ rest
  obtain ⟨hm, hl, hg, h13, h21, h29⟩ := s2_fields 1 min g d a (by omega) hmin
  rw [he, List.singleton_append]
  refine decode_short hm hl (fun _ => ?_) (by omega) (by omega) (by omega) rest
  rw [hd _ h29 hg h13 h21, accept, if_pos hw]; rfl

/-- An instruction of major 7. -/
theorem major7 {i : Instr} {min : Nat} {g : Guard} {a : BitVec 8} (he : encode i = [s2Word 7 min g 0 a]) (hmin : min < 8)
    (hd : ∀ w : Word, (w.extractLsb' 29 3).toNat = min → guardOf w = g → w.extractLsb' 13 8 = 0 → w.extractLsb' 21 8 = a →
      decodeMajor7 w = accept i 1) : Statement i := by
  intro hw _ rest
  obtain ⟨hm, hl, hg, h13, h21, h29⟩ := s2_fields 7 min g 0 a (by omega) hmin
  rw [he, List.singleton_append]
  refine decode_short hm hl (by omega) (fun _ => ?_) (by omega) (by omega) rest
  rw [hd _ h29 hg h13 h21, accept, if_pos hw]; rfl

/-- An extended instruction. -/
theorem extended {maj sub : Nat} {mk : Ext → Instr} {x : Ext} (he : encode (mk x) = extWords maj sub x)
    (hx : extMajors.contains maj = true) (hsub : sub < 512) (hi : extInstr maj sub = some mk) : Statement (mk x) := by
  intro hw _ rest
  rw [he]
  exact decode_extWords hx hsub hi hw rest

theorem abs (g : Guard) (d a : BitVec 8) : Statement (.abs g d a) :=
  major1 (min := 0) rfl (by omega) (fun w h hg hd ha => by simp [decodeMajor1, h, hg, hd, ha])

theorem brev (g : Guard) (d a : BitVec 8) : Statement (.brev g d a) :=
  major1 (min := 1) rfl (by omega) (fun w h hg hd ha => by simp [decodeMajor1, h, hg, hd, ha])

theorem clz (g : Guard) (d a : BitVec 8) : Statement (.clz g d a) :=
  major1 (min := 2) rfl (by omega) (fun w h hg hd ha => by simp [decodeMajor1, h, hg, hd, ha])

theorem fabs (g : Guard) (d a : BitVec 8) : Statement (.fabs g d a) :=
  major1 (min := 3) rfl (by omega) (fun w h hg hd ha => by simp [decodeMajor1, h, hg, hd, ha])

theorem fneg (g : Guard) (d a : BitVec 8) : Statement (.fneg g d a) :=
  major1 (min := 4) rfl (by omega) (fun w h hg hd ha => by simp [decodeMajor1, h, hg, hd, ha])

theorem movShort (g : Guard) (d a : BitVec 8) : Statement (.movShort g d a) :=
  major1 (min := 5) rfl (by omega) (fun w h hg hd ha => by simp [decodeMajor1, h, hg, hd, ha])

theorem not (g : Guard) (d a : BitVec 8) : Statement (.not g d a) :=
  major1 (min := 6) rfl (by omega) (fun w h hg hd ha => by simp [decodeMajor1, h, hg, hd, ha])

theorem popc (g : Guard) (d a : BitVec 8) : Statement (.popc g d a) :=
  major1 (min := 7) rfl (by omega) (fun w h hg hd ha => by simp [decodeMajor1, h, hg, hd, ha])

theorem iaddi (g : Guard) (d : BitVec 8) (imm : BitVec 11) : Statement (.iaddi g d imm) := by
  intro hw _ rest
  obtain ⟨hm, hl, hg, hd, hi⟩ := si_fields 2 0 g d imm (by omega) (by omega)
  simp [encode, decode, decodeSI, hm, hl, hg, hd, hi, accept, hw]

theorem iaddiLiteral (g : Guard) (d : BitVec 8) (lit : DWord) : Statement (.iaddiLiteral g d lit) := by
  intro hw _ rest
  obtain ⟨hm, hl, hg, hd, hi⟩ := si_fields 2 2 g d 0#11 (by omega) (by omega)
  simp [encode, decode, decodeSI, hm, hl, hg, hd, hi, litWords, litOf_litWords, accept, hw]

theorem movi (g : Guard) (d : BitVec 8) (imm : BitVec 11) : Statement (.movi g d imm) := by
  intro hw _ rest
  obtain ⟨hm, hl, hg, hd, hi⟩ := si_fields 3 0 g d imm (by omega) (by omega)
  simp [encode, decode, decodeSI, hm, hl, hg, hd, hi, accept, hw]

theorem moviLiteral (g : Guard) (d : BitVec 8) (lit : DWord) : Statement (.moviLiteral g d lit) := by
  intro hw _ rest
  obtain ⟨hm, hl, hg, hd, hi⟩ := si_fields 3 2 g d 0#11 (by omega) (by omega)
  simp [encode, decode, decodeSI, hm, hl, hg, hd, hi, litWords, litOf_litWords, accept, hw]

theorem bra (g : Guard) (off : BitVec 19) : Statement (.bra g off) := by
  intro hw _ rest
  obtain ⟨hm, hl, hg, ho⟩ := sb_fields 4 g off (by omega)
  simp [encode, decode, decodeSB, hm, hl, hg, ho, accept, hw]

theorem braJoin (x : Ext) : Statement (.braJoin x) := extended (maj := 28) (sub := 0) rfl (by decide) (by omega) rfl

theorem call (g : Guard) (off : BitVec 19) : Statement (.call g off) := by
  intro hw _ rest
  obtain ⟨hm, hl, hg, ho⟩ := sb_fields 5 g off (by omega)
  simp [encode, decode, decodeSB, hm, hl, hg, ho, accept, hw]

/-- The fields of a WAITC word. -/
theorem decodeSB_waitc {w : Word} {g : Guard} {t c s l : BitVec 4} (hmaj : majOf w = 6) (hg : guardOf w = g)
    (h13 : w.extractLsb' 13 4 = l) (h17 : w.extractLsb' 17 4 = s) (h21 : w.extractLsb' 21 4 = c)
    (h25 : w.extractLsb' 25 4 = t) (h29 : w.extractLsb' 29 3 = 0#3) : decodeSB w = accept (.waitc g t c s l) 1 := by
  simp [decodeSB, hmaj, hg, h13, h17, h21, h25, h29]

theorem waitc (g : Guard) (t c s l : BitVec 4) : Statement (.waitc g t c s l) := by
  intro hw _ rest
  obtain ⟨hl, hm, hpg, hpn, h13, h17, h21, h25, h29⟩ := swWord_fields t c s l g.pn g.pg
  refine decode_short (maj := 6) (congrArg BitVec.toNat hm) (congrArg BitVec.toNat hl) (by omega) (by omega) (fun _ => ?_)
    (by omega) rest
  refine (decodeSB_waitc (congrArg BitVec.toNat hm) (congrArg₂ Guard.mk hpn hpg) h13 h17 h21 h25 h29).trans ?_
  rw [accept, if_pos hw]
  rfl

theorem bkpt (g : Guard) (code : BitVec 8) : Statement (.bkpt g code) :=
  major7 (min := 0) rfl (by omega) (fun w h hg hd ha => by simp [decodeMajor7, h, hg, hd, ha])

theorem exit (g : Guard) : Statement (.exit g) :=
  major7 (min := 1) rfl (by omega) (fun w h hg hd ha => by simp [decodeMajor7, h, hg, hd, ha])

theorem hend : Statement .hend :=
  major7 (min := 2) rfl (by omega) (fun w h hg hd ha => by simp [decodeMajor7, h, hg, hd, ha])

theorem nop (g : Guard) : Statement (.nop g) :=
  major7 (min := 3) rfl (by omega) (fun w h hg hd ha => by simp [decodeMajor7, h, hg, hd, ha])

theorem ret (g : Guard) : Statement (.ret g) :=
  major7 (min := 4) rfl (by omega) (fun w h hg hd ha => by simp [decodeMajor7, h, hg, hd, ha])

theorem yield (g : Guard) : Statement (.yield g) :=
  major7 (min := 5) rfl (by omega) (fun w h hg hd ha => by simp [decodeMajor7, h, hg, hd, ha])

theorem iadd (x : Ext) : Statement (.iadd x) := extended (maj := 8) (sub := 0) rfl (by decide) (by omega) rfl

theorem imax (x : Ext) : Statement (.imax x) := extended (maj := 8) (sub := 1) rfl (by decide) (by omega) rfl

theorem imin (x : Ext) : Statement (.imin x) := extended (maj := 8) (sub := 2) rfl (by decide) (by omega) rfl

theorem isub (x : Ext) : Statement (.isub x) := extended (maj := 8) (sub := 3) rfl (by decide) (by omega) rfl

theorem mov (x : Ext) : Statement (.mov x) := extended (maj := 8) (sub := 4) rfl (by decide) (by omega) rfl

theorem idot4 (x : Ext) : Statement (.idot4 x) := extended (maj := 9) (sub := 0) rfl (by decide) (by omega) rfl

theorem imad (x : Ext) : Statement (.imad x) := extended (maj := 9) (sub := 1) rfl (by decide) (by omega) rfl

theorem imul (x : Ext) : Statement (.imul x) := extended (maj := 9) (sub := 2) rfl (by decide) (by omega) rfl

theorem imulh (x : Ext) : Statement (.imulh x) := extended (maj := 9) (sub := 3) rfl (by decide) (by omega) rfl

theorem and (x : Ext) : Statement (.and x) := extended (maj := 10) (sub := 0) rfl (by decide) (by omega) rfl

theorem lop3 (x : Ext) : Statement (.lop3 x) := extended (maj := 10) (sub := 1) rfl (by decide) (by omega) rfl

theorem or (x : Ext) : Statement (.or x) := extended (maj := 10) (sub := 2) rfl (by decide) (by omega) rfl

theorem rot (x : Ext) : Statement (.rot x) := extended (maj := 10) (sub := 3) rfl (by decide) (by omega) rfl

theorem sar (x : Ext) : Statement (.sar x) := extended (maj := 10) (sub := 4) rfl (by decide) (by omega) rfl

theorem shl (x : Ext) : Statement (.shl x) := extended (maj := 10) (sub := 5) rfl (by decide) (by omega) rfl

theorem shr (x : Ext) : Statement (.shr x) := extended (maj := 10) (sub := 6) rfl (by decide) (by omega) rfl

theorem xor (x : Ext) : Statement (.xor x) := extended (maj := 10) (sub := 7) rfl (by decide) (by omega) rfl

theorem bfe (x : Ext) : Statement (.bfe x) := extended (maj := 11) (sub := 0) rfl (by decide) (by omega) rfl

theorem bfi (x : Ext) : Statement (.bfi x) := extended (maj := 11) (sub := 1) rfl (by decide) (by omega) rfl

theorem prmt (x : Ext) : Statement (.prmt x) := extended (maj := 11) (sub := 2) rfl (by decide) (by omega) rfl

theorem icmp (x : Ext) : Statement (.icmp x) := extended (maj := 12) (sub := 0) rfl (by decide) (by omega) rfl

theorem plop (x : Ext) : Statement (.plop x) := extended (maj := 12) (sub := 1) rfl (by decide) (by omega) rfl

theorem pmov (x : Ext) : Statement (.pmov x) := extended (maj := 12) (sub := 2) rfl (by decide) (by omega) rfl

theorem sel (x : Ext) : Statement (.sel x) := extended (maj := 12) (sub := 3) rfl (by decide) (by omega) rfl

theorem lea (x : Ext) : Statement (.lea x) := extended (maj := 13) (sub := 0) rfl (by decide) (by omega) rfl

theorem fadd (x : Ext) : Statement (.fadd x) := extended (maj := 16) (sub := 0) rfl (by decide) (by omega) rfl

theorem ffma (x : Ext) : Statement (.ffma x) := extended (maj := 16) (sub := 1) rfl (by decide) (by omega) rfl

theorem fmul (x : Ext) : Statement (.fmul x) := extended (maj := 16) (sub := 2) rfl (by decide) (by omega) rfl

theorem fclass (x : Ext) : Statement (.fclass x) := extended (maj := 17) (sub := 0) rfl (by decide) (by omega) rfl

theorem fcmp (x : Ext) : Statement (.fcmp x) := extended (maj := 17) (sub := 1) rfl (by decide) (by omega) rfl

theorem fmax (x : Ext) : Statement (.fmax x) := extended (maj := 17) (sub := 2) rfl (by decide) (by omega) rfl

theorem fmin (x : Ext) : Statement (.fmin x) := extended (maj := 17) (sub := 3) rfl (by decide) (by omega) rfl

theorem fcos (x : Ext) : Statement (.fcos x) := extended (maj := 18) (sub := 0) rfl (by decide) (by omega) rfl

theorem fexp2 (x : Ext) : Statement (.fexp2 x) := extended (maj := 18) (sub := 1) rfl (by decide) (by omega) rfl

theorem flog2 (x : Ext) : Statement (.flog2 x) := extended (maj := 18) (sub := 2) rfl (by decide) (by omega) rfl

theorem frcp (x : Ext) : Statement (.frcp x) := extended (maj := 18) (sub := 3) rfl (by decide) (by omega) rfl

theorem frsq (x : Ext) : Statement (.frsq x) := extended (maj := 18) (sub := 4) rfl (by decide) (by omega) rfl

theorem fsin (x : Ext) : Statement (.fsin x) := extended (maj := 18) (sub := 5) rfl (by decide) (by omega) rfl

theorem fsqrt (x : Ext) : Statement (.fsqrt x) := extended (maj := 18) (sub := 6) rfl (by decide) (by omega) rfl

theorem ftanh (x : Ext) : Statement (.ftanh x) := extended (maj := 18) (sub := 7) rfl (by decide) (by omega) rfl

theorem cvt (x : Ext) : Statement (.cvt x) := extended (maj := 19) (sub := 0) rfl (by decide) (by omega) rfl

theorem pack (x : Ext) : Statement (.pack x) := extended (maj := 19) (sub := 1) rfl (by decide) (by omega) rfl

theorem req (x : Ext) : Statement (.req x) := extended (maj := 19) (sub := 2) rfl (by decide) (by omega) rfl

theorem unpack (x : Ext) : Statement (.unpack x) := extended (maj := 19) (sub := 3) rfl (by decide) (by omega) rfl

theorem gvote (x : Ext) : Statement (.gvote x) := extended (maj := 24) (sub := 0) rfl (by decide) (by omega) rfl

theorem qbcast (x : Ext) : Statement (.qbcast x) := extended (maj := 24) (sub := 1) rfl (by decide) (by omega) rfl

theorem qswap (x : Ext) : Statement (.qswap x) := extended (maj := 24) (sub := 2) rfl (by decide) (by omega) rfl

theorem shuf (x : Ext) : Statement (.shuf x) := extended (maj := 24) (sub := 3) rfl (by decide) (by omega) rfl

theorem greduce (x : Ext) : Statement (.greduce x) := extended (maj := 25) (sub := 0) rfl (by decide) (by omega) rfl

theorem gscan (x : Ext) : Statement (.gscan x) := extended (maj := 25) (sub := 1) rfl (by decide) (by omega) rfl

theorem brdec (x : Ext) : Statement (.brdec x) := extended (maj := 28) (sub := 1) rfl (by decide) (by omega) rfl

theorem brx (x : Ext) : Statement (.brx x) := extended (maj := 28) (sub := 2) rfl (by decide) (by omega) rfl

theorem callx (x : Ext) : Statement (.callx x) := extended (maj := 28) (sub := 3) rfl (by decide) (by omega) rfl

theorem svc (x : Ext) : Statement (.svc x) := extended (maj := 29) (sub := 0) rfl (by decide) (by omega) rfl

theorem trap (x : Ext) : Statement (.trap x) := extended (maj := 29) (sub := 1) rfl (by decide) (by omega) rfl

theorem bar (x : Ext) : Statement (.bar x) := extended (maj := 30) (sub := 0) rfl (by decide) (by omega) rfl

theorem cbar (x : Ext) : Statement (.cbar x) := extended (maj := 30) (sub := 1) rfl (by decide) (by omega) rfl

theorem evsig (x : Ext) : Statement (.evsig x) := extended (maj := 30) (sub := 2) rfl (by decide) (by omega) rfl

theorem evwait (x : Ext) : Statement (.evwait x) := extended (maj := 30) (sub := 3) rfl (by decide) (by omega) rfl

theorem ld (x : Ext) : Statement (.ld x) := extended (maj := 32) (sub := 0) rfl (by decide) (by omega) rfl

theorem st (x : Ext) : Statement (.st x) := extended (maj := 32) (sub := 1) rfl (by decide) (by omega) rfl

theorem lds (x : Ext) : Statement (.lds x) := extended (maj := 33) (sub := 0) rfl (by decide) (by omega) rfl

theorem ldx (x : Ext) : Statement (.ldx x) := extended (maj := 33) (sub := 1) rfl (by decide) (by omega) rfl

theorem sts (x : Ext) : Statement (.sts x) := extended (maj := 33) (sub := 2) rfl (by decide) (by omega) rfl

theorem atom (x : Ext) : Statement (.atom x) := extended (maj := 34) (sub := 0) rfl (by decide) (by omega) rfl

theorem atoms (x : Ext) : Statement (.atoms x) := extended (maj := 35) (sub := 0) rfl (by decide) (by omega) rfl

theorem sempty (x : Ext) : Statement (.sempty x) := extended (maj := 36) (sub := 0) rfl (by decide) (by omega) rfl

theorem sfe (x : Ext) : Statement (.sfe x) := extended (maj := 36) (sub := 1) rfl (by decide) (by omega) rfl

theorem sfill (x : Ext) : Statement (.sfill x) := extended (maj := 36) (sub := 2) rfl (by decide) (by omega) rfl

theorem ldu (x : Ext) : Statement (.ldu x) := extended (maj := 37) (sub := 0) rfl (by decide) (by omega) rfl

theorem pref (x : Ext) : Statement (.pref x) := extended (maj := 37) (sub := 1) rfl (by decide) (by omega) rfl

theorem cpy (x : Ext) : Statement (.cpy x) := extended (maj := 40) (sub := 0) rfl (by decide) (by omega) rfl

theorem ldh (x : Ext) : Statement (.ldh x) := extended (maj := 41) (sub := 0) rfl (by decide) (by omega) rfl

theorem tld (x : Ext) : Statement (.tld x) := extended (maj := 42) (sub := 0) rfl (by decide) (by omega) rfl

theorem tstr (x : Ext) : Statement (.tstr x) := extended (maj := 42) (sub := 1) rfl (by decide) (by omega) rfl

theorem coll (x : Ext) : Statement (.coll x) := extended (maj := 43) (sub := 0) rfl (by decide) (by omega) rfl

theorem mma (x : Ext) : Statement (.mma x) := extended (maj := 44) (sub := 0) rfl (by decide) (by omega) rfl

theorem mmag (x : Ext) : Statement (.mmag x) := extended (maj := 44) (sub := 1) rfl (by decide) (by omega) rfl

theorem mmat (x : Ext) : Statement (.mmat x) := extended (maj := 44) (sub := 2) rfl (by decide) (by omega) rfl

theorem aexp (x : Ext) : Statement (.aexp x) := extended (maj := 45) (sub := 0) rfl (by decide) (by omega) rfl

theorem amode (x : Ext) : Statement (.amode x) := extended (maj := 45) (sub := 1) rfl (by decide) (by omega) rfl

theorem ard (x : Ext) : Statement (.ard x) := extended (maj := 45) (sub := 2) rfl (by decide) (by omega) rfl

theorem awr (x : Ext) : Statement (.awr x) := extended (maj := 45) (sub := 3) rfl (by decide) (by omega) rfl

theorem mzero (x : Ext) : Statement (.mzero x) := extended (maj := 45) (sub := 4) rfl (by decide) (by omega) rfl

theorem mcarry (x : Ext) : Statement (.mcarry x) := extended (maj := 46) (sub := 0) rfl (by decide) (by omega) rfl

theorem mscan (x : Ext) : Statement (.mscan x) := extended (maj := 46) (sub := 1) rfl (by decide) (by omega) rfl

theorem tmov (x : Ext) : Statement (.tmov x) := extended (maj := 47) (sub := 0) rfl (by decide) (by omega) rfl

theorem trd (x : Ext) : Statement (.trd x) := extended (maj := 47) (sub := 1) rfl (by decide) (by omega) rfl

theorem twr (x : Ext) : Statement (.twr x) := extended (maj := 47) (sub := 2) rfl (by decide) (by omega) rfl

theorem oadd (x : Ext) : Statement (.oadd x) := extended (maj := 48) (sub := 0) rfl (by decide) (by omega) rfl

theorem oalight (x : Ext) : Statement (.oalight x) := extended (maj := 48) (sub := 1) rfl (by decide) (by omega) rfl

theorem oboard (x : Ext) : Statement (.oboard x) := extended (maj := 48) (sub := 2) rfl (by decide) (by omega) rfl

theorem ocap (x : Ext) : Statement (.ocap x) := extended (maj := 48) (sub := 3) rfl (by decide) (by omega) rfl

theorem ocas (x : Ext) : Statement (.ocas x) := extended (maj := 48) (sub := 4) rfl (by decide) (by omega) rfl

theorem omax (x : Ext) : Statement (.omax x) := extended (maj := 48) (sub := 5) rfl (by decide) (by omega) rfl

theorem omin (x : Ext) : Statement (.omin x) := extended (maj := 48) (sub := 6) rfl (by decide) (by omega) rfl

theorem oswp (x : Ext) : Statement (.oswp x) := extended (maj := 48) (sub := 7) rfl (by decide) (by omega) rfl

theorem chpeek (x : Ext) : Statement (.chpeek x) := extended (maj := 49) (sub := 0) rfl (by decide) (by omega) rfl

theorem chrecv (x : Ext) : Statement (.chrecv x) := extended (maj := 49) (sub := 1) rfl (by decide) (by omega) rfl

theorem chsend (x : Ext) : Statement (.chsend x) := extended (maj := 49) (sub := 2) rfl (by decide) (by omega) rfl

theorem clk (x : Ext) : Statement (.clk x) := extended (maj := 52) (sub := 0) rfl (by decide) (by omega) rfl

theorem sleep (x : Ext) : Statement (.sleep x) := extended (maj := 52) (sub := 1) rfl (by decide) (by omega) rfl

theorem time (x : Ext) : Statement (.time x) := extended (maj := 52) (sub := 2) rfl (by decide) (by omega) rfl

theorem flags (x : Ext) : Statement (.flags x) := extended (maj := 53) (sub := 0) rfl (by decide) (by omega) rfl

theorem srd (x : Ext) : Statement (.srd x) := extended (maj := 53) (sub := 1) rfl (by decide) (by omega) rfl

theorem swr (x : Ext) : Statement (.swr x) := extended (maj := 53) (sub := 2) rfl (by decide) (by omega) rfl

theorem vdhop (x : Ext) : Statement (.vdhop x) := extended (maj := 53) (sub := 3) rfl (by decide) (by omega) rfl

theorem unimp (w0 : Word) : Statement (.unimp w0) := by
  intro hw _ rest
  have hmaj : 56 ≤ majOf w0 := by simpa [Instr.wf, majOf] using hw
  have hlen : (encode (.unimp w0)).length = wordCount (lenOf w0) := by
    simp only [encode, List.length_cons, List.length_replicate]
    have : 1 ≤ wordCount (lenOf w0) := by unfold wordCount; split <;> omega
    omega
  rw [hlen]
  simp [encode, decode, hmaj]

theorem ill (w0 : Word) : Statement (.ill w0) := no_words rfl

theorem emulationComplete (gi si : Nat) (r : EmuResult) : Statement (.emulationComplete gi si r) := no_words rfl

theorem svcServiceComplete (gi si : Nat) (r : SvcResult) : Statement (.svcServiceComplete gi si r) := no_words rfl

theorem queueSetup (c : Cmd) (queue prio : Nat) (ring : DWord) :
    Statement (.queueSetup c queue prio ring) := no_words rfl

theorem submit (c : Cmd) (queue : Nat) (desc : DWord) (deps : List (DWord × DWord)) :
    Statement (.submit c queue desc deps) := no_words rfl

theorem eventSignal (c : Cmd) (va value : DWord) : Statement (.eventSignal c va value) := no_words rfl

theorem map (c : Cmd) (m : MemArgs) : Statement (.map c m) := no_words rfl

theorem unmap (c : Cmd) (m : MemArgs) : Statement (.unmap c m) := no_words rfl

theorem reclassify (c : Cmd) (m : MemArgs) : Statement (.reclassify c m) := no_words rfl

theorem logApply (c : Cmd) (dies : List Nat) : Statement (.logApply c dies) := no_words rfl

theorem ctxCreate (c : Cmd) (part wdexp : Nat) (debug : Bool) (perm : Option (List Nat)) (ccb trapq pool : DWord)
    (poolSize : Nat) : Statement (.ctxCreate c part wdexp debug perm ccb trapq pool poolSize) := no_words rfl

theorem ctxDestroy (c : Cmd) : Statement (.ctxDestroy c) := no_words rfl

theorem ctxSave (c : Cmd) : Statement (.ctxSave c) := no_words rfl

theorem contextSaved (ctx : Nat) : Statement (.contextSaved ctx) := no_words rfl

theorem ctxRestore (c : Cmd) (part : Nat) (perm : Option (List Nat)) (places : List Placement) :
    Statement (.ctxRestore c part perm places) := no_words rfl

theorem ctxKill (c : Cmd) : Statement (.ctxKill c) := no_words rfl

theorem splitResume (c : Cmd) (gi si : Nat) (w : List RegWrite) (act : ResumeAction) :
    Statement (.splitResume c gi si w act) := no_words rfl

theorem orbitQuota (c : Cmd) (quota : List Nat) : Statement (.orbitQuota c quota) := no_words rfl

theorem portBind (c : Cmd) (mask : BitVec 12) : Statement (.portBind c mask) := no_words rfl

theorem trapqAck (c : Cmd) (seq : Nat) : Statement (.trapqAck c seq) := no_words rfl

theorem partCreate (c : Cmd) (dies : List Nat) (weights : List Nat) :
    Statement (.partCreate c dies weights) := no_words rfl

theorem partDestroy (c : Cmd) (part : Nat) : Statement (.partDestroy c part) := no_words rfl

theorem powerCap (c : Cmd) (watts : Nat) : Statement (.powerCap c watts) := no_words rfl

theorem icacheInval (c : Cmd) (va : DWord) (bytes : Nat) : Statement (.icacheInval c va bytes) := no_words rfl

theorem emuInstall (c : Cmd) (library : DWord) (signatureOk : Bool) (majors : List Nat) :
    Statement (.emuInstall c library signatureOk majors) := no_words rfl

theorem traceSetup (c : Cmd) (die : Nat) (ring : DWord) (size : Nat) (mask : BitVec 32) :
    Statement (.traceSetup c die ring size mask) := no_words rfl

theorem ptpSetup (c : Cmd) (domain transport : Nat) (stepOk : Bool) :
    Statement (.ptpSetup c domain transport stepOk) := no_words rfl

theorem timeStatus (c : Cmd) : Statement (.timeStatus c) := no_words rfl

theorem attest (c : Cmd) (nonce : DWord) : Statement (.attest c nonce) := no_words rfl

theorem lifecycle (c : Cmd) (target : LifeState) (signer : Signer) :
    Statement (.lifecycle c target signer) := no_words rfl

theorem launchAdmission (part : Nat) : Statement (.launchAdmission part) := no_words rfl

theorem blockStart (li lin : Nat) (place : Placement) : Statement (.blockStart li lin place) := no_words rfl

theorem blockComplete (bi : Nat) : Statement (.blockComplete bi) := no_words rfl

theorem blockPreemption (bi : Nat) : Statement (.blockPreemption bi) := no_words rfl

theorem migration (bi : Nat) (place : Placement) : Statement (.migration bi place) := no_words rfl

theorem splitDormant (gi si : Nat) : Statement (.splitDormant gi si) := no_words rfl

theorem splitActivate (gi : Nat) : Statement (.splitActivate gi) := no_words rfl

theorem joinTimeout (gi si : Nat) : Statement (.joinTimeout gi si) := no_words rfl

theorem waitAgeReservation (gi si : Nat) : Statement (.waitAgeReservation gi si) := no_words rfl

theorem yieldExpiry (gi si : Nat) : Statement (.yieldExpiry gi si) := no_words rfl

theorem sleepWake (gi si : Nat) : Statement (.sleepWake gi si) := no_words rfl

theorem barrierWatchdog (bi id : Nat) : Statement (.barrierWatchdog bi id) := no_words rfl

theorem emptyLineTimeout (acc : Nat) : Statement (.emptyLineTimeout acc) := no_words rfl

theorem loadDataReturn (acc lane : Nat) : Statement (.loadDataReturn acc lane) := no_words rfl

theorem storePerformed (acc lane : Nat) : Statement (.storePerformed acc lane) := no_words rfl

theorem pageFaultService (gi si : Nat) (ans : PageAnswer) : Statement (.pageFaultService gi si ans) := no_words rfl

theorem remoteRetry (port ctx : Nat) (va : DWord) (bytes : List Byte) (refusals : Nat) :
    Statement (.remoteRetry port ctx va bytes refusals) := no_words rfl

theorem drainRequest (granule : Nat) (holder : Agent) : Statement (.drainRequest granule holder) := no_words rfl

theorem drainPoint (granule : Nat) : Statement (.drainPoint granule) := no_words rfl

theorem engineSectorRead (op sector : Nat) : Statement (.engineSectorRead op sector) := no_words rfl

theorem engineSectorWrite (op sector : Nat) : Statement (.engineSectorWrite op sector) := no_words rfl

theorem engineCompletion (op : Nat) : Statement (.engineCompletion op) := no_words rfl

theorem engineFault (op : Nat) : Statement (.engineFault op) := no_words rfl

theorem handlerBirth (op : Nat) : Statement (.handlerBirth op) := no_words rfl

theorem matrixEntryStart (die core : Nat) : Statement (.matrixEntryStart die core) := no_words rfl

theorem matrixEntryComplete (die core : Nat) : Statement (.matrixEntryComplete die core) := no_words rfl

theorem mmagCancel (die core : Nat) : Statement (.mmagCancel die core) := no_words rfl

theorem orbitPass (op : Nat) : Statement (.orbitPass op) := no_words rfl

theorem oboardTimeout (op : Nat) : Statement (.oboardTimeout op) := no_words rfl

theorem channelCredit (li ch : Nat) : Statement (.channelCredit li ch) := no_words rfl

theorem headPromotion (die stop plane vc : Nat) (port : MeshPort) :
    Statement (.headPromotion die stop plane vc port) := no_words rfl

theorem coherenceRead (die core line : Nat) : Statement (.coherenceRead die core line) := no_words rfl

theorem readExclusive (die core line : Nat) : Statement (.readExclusive die core line) := no_words rfl

theorem upgrade (die core line : Nat) : Statement (.upgrade die core line) := no_words rfl

theorem invalidation (die core line : Nat) : Statement (.invalidation die core line) := no_words rfl

theorem forward (die core line : Nat) : Statement (.forward die core line) := no_words rfl

theorem acknowledgement (die core line : Nat) : Statement (.acknowledgement die core line) := no_words rfl

theorem dataResponse (die core line : Nat) : Statement (.dataResponse die core line) := no_words rfl

theorem writeBack (die core line : Nat) : Statement (.writeBack die core line) := no_words rfl

theorem l1Eviction (die core line : Nat) : Statement (.l1Eviction die core line) := no_words rfl

theorem backInvalidateSnoop (line : Nat) : Statement (.backInvalidateSnoop line) := no_words rfl

theorem hostAccess (pa : Nat) (op : HostOp) : Statement (.hostAccess pa op) := no_words rfl

theorem atsInvalidation (part ctx : Nat) (va : DWord) (pages : Nat) :
    Statement (.atsInvalidation part ctx va pages) := no_words rfl

theorem atsTranslation (bus host : Nat) : Statement (.atsTranslation bus host) := no_words rfl

theorem remoteWrite (port ctx : Nat) (va : DWord) (bytes : List Byte) :
    Statement (.remoteWrite port ctx va bytes) := no_words rfl

theorem collPeerMessage (session k : Nat) (m : PeerMsg) : Statement (.collPeerMessage session k m) := no_words rfl

theorem linkCrcReplay (port : Nat) : Statement (.linkCrcReplay port) := no_words rfl

theorem linkTagFailure (link : Link) : Statement (.linkTagFailure link) := no_words rfl

theorem keyRotation (link : Link) : Statement (.keyRotation link) := no_words rfl

theorem uncorrectableError (site : ErrSite) : Statement (.uncorrectableError site) := no_words rfl

theorem patrolScrub (line : Nat) : Statement (.patrolScrub line) := no_words rfl

theorem orbitRingBreak : Statement .orbitRingBreak := no_words rfl

theorem spdmRequest (fn : Nat) (m : SpdmMsg) : Statement (.spdmRequest fn m) := no_words rfl

theorem spdmSessionExpiry (fn : Nat) : Statement (.spdmSessionExpiry fn) := no_words rfl

theorem serviceWatchdogExpiry (n : Nat) : Statement (.serviceWatchdogExpiry n) := no_words rfl

theorem internalErrorReport : Statement .internalErrorReport := no_words rfl

theorem lockstepDisagreement : Statement .lockstepDisagreement := no_words rfl

theorem recoveryTimeout : Statement .recoveryTimeout := no_words rfl

theorem packageReset : Statement .packageReset := no_words rfl

theorem supplySag (die : Nat) : Statement (.supplySag die) := no_words rfl

theorem sagClear (die : Nat) : Statement (.sagClear die) := no_words rfl

theorem ptpMessage (offsetNs : Int) : Statement (.ptpMessage offsetNs) := no_words rfl

theorem debuggerAccess (pa : Nat) (op : DbgOp) : Statement (.debuggerAccess pa op) := no_words rfl

theorem registerWrite (r : DevReg) (v : DWord) : Statement (.registerWrite r v) := no_words rfl

theorem bankDrowsy (bank : Nat) : Statement (.bankDrowsy bank) := no_words rfl

theorem pageWalkCompletion (die ctx : Nat) (va : DWord) : Statement (.pageWalkCompletion die ctx va) := no_words rfl

theorem backInvalidateResponse (line : Nat) : Statement (.backInvalidateResponse line) := no_words rfl

theorem parnarPortDown (port : Nat) : Statement (.parnarPortDown port) := no_words rfl

theorem servoHoldover : Statement .servoHoldover := no_words rfl

end Sys2Proof.Laws.RoundTrip
end

