-- ==== Sys2Proof/Safety.lean ====
section
/-! DEFINITION. The terms in which claims speak of runs: the invariant of the machine, what executes, what a register
instruction, a trap and a command leave, and what they leave unchanged. -/

namespace Sys2Proof.Machine

open Sys2Proof Sys2Proof.Num

/-! ## The invariant -/

/-- A state is sound when its memory has the canonical form. -/
def State.Inv (s : State) : Prop := Memory.wf s.mem = true

/-! ## Execution -/

/-- A group and its split execute an instruction whose registers are all allocated (R25, step 4 of R81). -/
def Executes (s : State) (g : Group) (p : Split) (i : Instr) : Prop := s.issuer? = some (g, p) ∧ limitsOk g i = true

/-- The issue of an instruction under a guard by a split (R72). -/
def issueOf (s : State) (g : Group) (p : Split) (i : Instr) (gd : Guard) : Issue :=
  { gi := s.curG, si := s.curS, g := g, sp := p, e := guardLanes g p gd, size := sizeOf i, word0 := word0 i }

/-- The address behind an instruction. -/
def behind (p : Split) (i : Instr) : DWord := p.pc + BitVec.ofNat 64 (sizeOf i)

/-! ## What stays -/

/-- Only one group differs: memory, every other group, and every other part of the package are as before. -/
def OnlyGroup (s t : State) (gi : Nat) : Prop :=
  t = { s with groups := t.groups } ∧ t.groups.length = s.groups.length ∧ ∀ j, j ≠ gi → t.group? j = s.group? j

/-- Of a group only registers, predicates, flags and splits differ: tiles, accumulators, counters, return stacks, lanes
and placement are as before. -/
def RegistersOnly (g h : Group) : Prop :=
  h = { g with vec := h.vec, uni := h.uni, pred := h.pred, flags := h.flags, inflight := h.inflight, splits := h.splits }

/-- One split moves to an address, and every other split stays as it is. -/
def Continues (g h : Group) (p : Split) (pc : DWord) : Prop :=
  h.splits = g.splits.map (fun q => if q.idx = p.idx then q.goto pc else q)

/-- An instruction changes registers of its group alone, and its split stands behind it. -/
def RegisterEffect (s t : State) (g : Group) (p : Split) (i : Instr) (regs : Group → Prop) : Prop :=
  OnlyGroup s t s.curG ∧
    ∃ h, t.group? s.curG = some h ∧ RegistersOnly g h ∧ Continues g h p (behind p i) ∧ regs h

/-! ## Registers written -/

/-- The word that a value puts into register r when it is written to register d, or to the pair d and d + 1 (R54). -/
def destWord (wide : Bool) (d : Nat) (v : DWord) (r : Nat) : Option Word :=
  if r = d then some (v.extractLsb' 0 32) else if wide = true ∧ r = d + 1 then some (v.extractLsb' 32 32) else none

/-- A value of each lane written to a vector register or pair, in the lanes of a mask that are present; every other
vector register, and every other lane, is as before (R65, R72). -/
def VectorWritten (g h : Group) (e : LaneMask) (wide : Bool) (d : Nat) (val : Nat → DWord) : Prop :=
  ∀ r L, h.vget r L =
    match destWord wide d (val L) r with
    | some w => if e.getLsbD L && g.present.getLsbD L then w else g.vget r L
    | none => g.vget r L

/-- A value written to a uniform register or pair when E is not empty; every other uniform register is as before. -/
def UniformWritten (g h : Group) (e : LaneMask) (wide : Bool) (d : Nat) (v : DWord) : Prop :=
  ∀ r, h.uget r =
    match destWord wide d v r with
    | some w => if e = 0 then g.uget r else w
    | none => g.uget r

/-- D of an extended instruction written in the class that it names; the other class and the predicates are as before. -/
def DWritten (g h : Group) (x : Ext) (e : LaneMask) (wide : Bool) (val : Nat → DWord) : Prop :=
  h.pred = g.pred ∧
    (if x.dU then UniformWritten g h e wide x.d.toNat (val 0) ∧ h.vec = g.vec
     else VectorWritten g h e wide x.d.toNat val ∧ h.uni = g.uni)

/-- A predicate written in the lanes of a mask that are present; pT and every other predicate are as before (R53). -/
def PredicateWritten (g h : Group) (e : LaneMask) (d : Nat) (val : Nat → Bool) : Prop :=
  h.vec = g.vec ∧ h.uni = g.uni ∧
    ∀ q L, L < 16 → (h.pget q).getLsbD L =
      if q = d ∧ q ≠ 15 ∧ e.getLsbD L = true ∧ g.present.getLsbD L = true then val L else (g.pget q).getLsbD L

/-- Flags raised: at once by an instruction with a uniform result, 16 cycles after issue by one with a vector result (R34,
R112). -/
def FlagsRaised (g h : Group) (uni : Bool) (now : Nat) (fl : FlagBits) : Prop :=
  if uni then h.flags = g.flags ||| fl ∧ h.inflight = g.inflight
  else h.flags = g.flags ∧
    h.inflight = g.inflight ++ (if fl = 0 then [] else [{ due := now + 16, bits := fl, read := none }])

/-- No flag changes. -/
def FlagsSame (g h : Group) : Prop := h.flags = g.flags ∧ h.inflight = g.inflight

/-- What a register instruction with a result of D's class leaves: `f` gives each lane's value and flags. -/
def AluEffect (s t : State) (g : Group) (p : Split) (i : Instr) (x : Ext) (wide : Bool) (f : Nat → DWord × FlagBits) :
    Prop :=
  let e := guardLanes g p x.guard
  RegisterEffect s t g p i (fun h => DWritten g h x e wide (fun L => (f L).1) ∧
    FlagsRaised g h x.dU s.now (resultFlags (issueOf s g p i x.guard) x.dU (fun L => (f L).2)))

/-- An extended instruction completes with each lane's value and flags in D, whatever its operands. -/
def AluCompletes (mk : Ext → Instr) (wide : Ext → Bool) (f : Ext → State → Group → Nat → DWord × FlagBits) : Prop :=
  ∀ x s g p, Executes s g p (mk x) →
    ∃ t, exec (mk x) s = .next t ∧ AluEffect s t g p (mk x) x (wide x) (f x s g)

/-- An extended instruction completes with each lane's truth value in the predicate D, and raises flags. -/
def PredicateCompletes (mk : Ext → Instr) (f : Ext → Group → Nat → Bool × FlagBits) : Prop :=
  ∀ x s g p, Executes s g p (mk x) →
    ∃ t, exec (mk x) s = .next t ∧
      RegisterEffect s t g p (mk x) (fun h =>
        PredicateWritten g h (guardLanes g p x.guard) (x.d.toNat % 16) (fun L => (f x g L).1) ∧
        FlagsRaised g h false s.now
          (resultFlags (issueOf s g p (mk x) x.guard) false (fun L => (f x g L).2)))

/-- A short instruction completes with each lane's value in the vector register D, or the pair, and no flag. -/
def ShortCompletes (i : Instr) (gd : Guard) (d : Nat) (wide : Bool) (f : Group → Nat → DWord) : Prop :=
  ∀ s g p, Executes s g p i →
    ∃ t, exec i s = .next t ∧
      RegisterEffect s t g p i (fun h =>
        h.pred = g.pred ∧ h.uni = g.uni ∧ FlagsSame g h ∧ VectorWritten g h (guardLanes g p gd) wide d (f g))

/-! ## Splits, traps and waits -/

/-- Only the executing split differs: it becomes `f` of what it was. -/
def SplitBecomes (s t : State) (g : Group) (p : Split) (f : Split → Split) : Prop :=
  OnlyGroup s t s.curG ∧
    t.group? s.curG = some { g with splits := g.splits.map (fun q => if q.idx = p.idx then f q else q) }

/-- The instruction has no effect but that its split stands behind it. -/
def PassesBy (s t : State) (g : Group) (p : Split) (i : Instr) : Prop :=
  SplitBecomes s t g p (fun q => q.goto (behind p i))

/-- The lanes that an instruction which traps leaves unfinished: those that an earlier execution of it left, where that one has
performed others; none otherwise (R230, R232). -/
def unfinished (g : Group) (p : Split) (gd : Guard) : LaneMask :=
  if guardLanes g { p with pend := 0 } gd &&& ~~~p.pend &&& ~~~g.helpers = 0 then 0 else p.pend

/-- The state in which the executing split has trapped at its instruction with a cause and AUX for the lanes of a mask that are
no helpers (R230). -/
def trapped (s : State) (g : Group) (p : Split) (i : Instr) (c : Cause) (aux : DWord) (mask : LaneMask) : State :=
  takeTrap s.curG s.curS c aux (mask &&& ~~~g.helpers) (unfinished g p (guardOf (word0 i))) s

/-- A read that its instruction's completion makes, 16 cycles after issue: the split goes on with D held until then
(R112, R258). -/
def ReadsLater (s t : State) (g : Group) (p : Split) (i : Instr) (x : Ext) (kind : LateKind) (wide : Bool) : Prop :=
  let read : LateRead := { kind := kind, reg := x.d.toNat, lanes := guardLanes g p x.guard, op := s.nextId }
  let hold : Hold := { op := s.nextId, file := 0, first := x.d.toNat, count := if wide then 2 else 1 }
  t = { s with groups := t.groups, nextId := s.nextId + 1 } ∧ (∀ j, j ≠ s.curG → t.group? j = s.group? j) ∧
    t.group? s.curG = some { g with
      inflight := g.inflight ++ [{ due := s.now + 16, bits := 0, read := some read }],
      splits := g.splits.map (fun q =>
        if q.idx = p.idx then { q.goto (behind p i) with holds := q.holds ++ [hold] } else q) }

/-- The join records after a branch with a join address: a ninth is not pushed (R28). -/
def joinsAfter (s : State) (p : Split) (join : Option DWord) : List Join :=
  match join with
  | some a => if p.joins.length < 8 then p.joins ++ [{ id := s.nextId, addr := a, lanes := p.mask }] else p.joins
  | none => p.joins

/-- The lanes of the executing split leave for their targets: each lane of it stands at its own address and depth in a split
with the given join records, every other split stays, and of the group only splits and return stacks differ (R26). -/
def Divides (s t : State) (g : Group) (p : Split) (next : Nat → DWord × Nat) (joins : List Join) (regs : Group → Prop) :
    Prop :=
  t = { s with groups := t.groups, nextId := t.nextId } ∧ (∀ j, j ≠ s.curG → t.group? j = s.group? j) ∧
    ∃ h, t.group? s.curG = some h ∧ regs { h with splits := g.splits } ∧
      (∀ L, p.mask.getLsbD L = true →
        ∃ q ∈ h.splits, q.mask.getLsbD L = true ∧ q.pc = (next L).1 ∧ q.depth = (next L).2 ∧ q.joins = joins) ∧
      (∀ q ∈ h.splits, q ∈ g.splits ∨
        ∀ L, q.mask.getLsbD L = true → p.mask.getLsbD L = true ∧ q.pc = (next L).1 ∧ q.depth = (next L).2) ∧
      ∀ q ∈ g.splits, q.idx ≠ p.idx → q ∈ h.splits

/-! ## Accesses -/

/-- What an issued memory instruction asks for: its kind, size, counter, the lanes that access, their addresses and data, the
registers that it holds, and whether its split waits for it. -/
structure AccessForm where
  kind : AccKind
  bytes : Nat
  ty : Ty
  d : Nat
  ctr : Ctr
  lanes : List Nat
  addr : Nat → DWord
  check : DWord → LaneCheck
  data : Nat → BitVec 128
  data2 : Nat → DWord
  holds : List Hold
  stays : Bool

/-- An access joins the outstanding ones, its counter rises by one, its registers are held and its split moves on or waits
for it; of the group only counters, splits and what `regs` says differ, and nothing else of the package does (R132, R184). -/
def AccessJoins (s t : State) (g : Group) (p : Split) (i : Instr) (f : AccessForm) (regs : Group → Prop) : Prop :=
  t = { s with groups := t.groups, acc := t.acc, nextId := s.nextId + 1 } ∧ (∀ j, j ≠ s.curG → t.group? j = s.group? j) ∧
    (∃ a, t.acc = s.acc ++ [a] ∧ a.id = s.nextId ∧ a.group = s.curG ∧ a.split = s.curS ∧ a.pc = p.pc ∧
      a.kind = f.kind ∧ a.bytes = f.bytes ∧ a.ty = f.ty ∧ a.d = f.d ∧ a.ctr = f.ctr ∧ a.next = behind p i ∧
      a.lanes.map (fun l => l.lane) = f.lanes ∧
      ∀ l ∈ a.lanes, l.stage = .issued ∧ l.va = f.addr l.lane ∧ f.check l.va = .ok l.space l.addr ∧
        l.data = f.data l.lane ∧ l.data2 = f.data2 l.lane) ∧
    ∃ h, t.group? s.curG = some h ∧ regs h ∧
      h = { g with vec := h.vec, pred := h.pred, cntL := g.cntL + (if f.ctr = .l then 1 else 0),
                   cntS := g.cntS + (if f.ctr = .s then 1 else 0), splits := h.splits } ∧
      h.splits = g.splits.map (fun q =>
        if q.idx = p.idx then
          let q := { q with holds := q.holds ++ f.holds.map (fun (k : Hold) => { k with op := s.nextId }) }
          if f.stays then { q with wait := .access s.nextId, age := 0, reserved := false } else q.goto (behind p i)
        else q)

/-- The lanes of E that are no helpers. -/
def realLanes (g : Group) (p : Split) (gd : Guard) : LaneMask := guardLanes g p gd &&& ~~~g.helpers

/-- An instruction holds no access of its own with lanes that wait for a replay. -/
def NoneParked (s : State) (p : Split) : Prop :=
  ∀ a ∈ s.acc, a.group = s.curG → a.split = s.curS → a.pc = p.pc → ∀ l ∈ a.lanes, l.stage ≠ .parked

/-- Every lane that accesses reaches a place. -/
def AllReach (f : AccessForm) : Prop :=
  f.lanes ≠ [] ∧ ∀ L ∈ f.lanes, ∃ sp pa, f.check (f.addr L) = .ok sp pa

/-- Helper lanes of E receive zero in n bytes from D on, and false in a predicate (R23). -/
def HelpersZero (g h : Group) (p : Split) (x : Ext) (n : Nat) (pd : Option Nat) : Prop :=
  let helper (L : Nat) : Bool := (guardLanes g p x.guard &&& g.helpers).getLsbD L
  h.uni = g.uni ∧
    (∀ r L, h.vget r L =
      if helper L = true ∧ x.d.toNat ≤ r ∧ r < x.d.toNat + (n + 3) / 4 then 0 else g.vget r L) ∧
    ∀ q L, (h.pget q).getLsbD L =
      if some q = pd ∧ q ≠ 15 ∧ helper L = true ∧ g.present.getLsbD L = true then false else (g.pget q).getLsbD L

/-- The form of a memory instruction's access of each lane that is no helper. -/
def laneForm (s : State) (g : Group) (p : Split) (x : Ext) (kd : AccKind) (n : Nat) (ctr : Ctr) (scratch : Bool)
    (data : Nat → BitVec 128) (data2 : Nat → DWord) (holds : List Hold) : AccessForm :=
  { kind := kd, bytes := n, ty := x.ty, d := x.d.toNat, ctr := ctr, lanes := lanesOf (realLanes g p x.guard), addr := effAddr g x,
    check := if scratch then checkScratch s g n else checkVirtual s g kd n, data := data, data2 := data2, holds := holds,
    stays := kd == .lds }

/-- What the read-modify-write operations leave, by their numbers, over words and pairs: sum, smaller and larger by signedness, and,
or, exclusive or, the operand, the replacement where the old value is the compared one, and the rounded float sum (R134). -/
def AtomicValues : Prop :=
  (∀ a b r : Word,
    let new (op : Nat) (ty : Ty) : Word := BitVec.ofNat 32 (atomNew op ty a.toNat b.toNat r.toNat).1
    (∀ ty, ty = .u32 ∨ ty = .s32 → new 0 ty = a + b) ∧
    new 1 .u32 = (if a.toNat ≤ b.toNat then a else b) ∧ new 1 .s32 = (if a.toInt ≤ b.toInt then a else b) ∧
    new 2 .u32 = (if a.toNat ≤ b.toNat then b else a) ∧ new 2 .s32 = (if a.toInt ≤ b.toInt then b else a) ∧
    new 3 .u32 = a &&& b ∧ new 4 .u32 = a ||| b ∧ new 5 .u32 = a ^^^ b ∧ new 6 .u32 = b ∧
    new 7 .u32 = (if a = b then r else a) ∧
    ∀ x : Ext, x.ty = .f32 → x.rm = .rne → x.sat = false → x.var = 0 →
      let sum := farith2 addFlags x (0#32 ++ a) (0#32 ++ b)
      new 8 .f32 = sum.1.extractLsb' 0 32 ∧ (atomNew 8 .f32 a.toNat b.toNat r.toNat).2 = sum.2) ∧
  ∀ a b r : DWord,
    let new (op : Nat) (ty : Ty) : DWord := BitVec.ofNat 64 (atomNew op ty a.toNat b.toNat r.toNat).1
    (∀ ty, ty = .u64 ∨ ty = .s64 → new 0 ty = a + b) ∧
    new 1 .u64 = (if a.toNat ≤ b.toNat then a else b) ∧ new 1 .s64 = (if a.toInt ≤ b.toInt then a else b) ∧
    new 2 .u64 = (if a.toNat ≤ b.toNat then b else a) ∧ new 2 .s64 = (if a.toInt ≤ b.toInt then b else a) ∧
    new 3 .u64 = a &&& b ∧ new 4 .u64 = a ||| b ∧ new 5 .u64 = a ^^^ b ∧ new 6 .u64 = b ∧
    new 7 .u64 = if a = b then r else a

/-- What the orbit operations leave of a payload word, with B and the compared D (R216). -/
def OrbitValues : Prop :=
  ∀ a b d : Word,
    let new (k : OrbKind) (ty : Ty) : Word := BitVec.ofNat 32 (orbNew k ty a.toNat b.toNat d.toNat).1
    (∀ ty, ty = .u32 ∨ ty = .s32 → new .add ty = a + b) ∧
    new .min .u32 = (if a.toNat ≤ b.toNat then a else b) ∧ new .min .s32 = (if a.toInt ≤ b.toInt then a else b) ∧
    new .max .u32 = (if a.toNat ≤ b.toNat then b else a) ∧ new .max .s32 = (if a.toInt ≤ b.toInt then b else a) ∧
    (∀ ty, new .swp ty = b ∧ new .cas ty = (if a = d then b else a) ∧ new .cap ty = a ∧ new .alight ty = a) ∧
    ∀ x : Ext, x.ty = .f32 → x.rm = .rne → x.sat = false → x.var = 0 →
      let is (k : OrbKind) (v : DWord × FlagBits) : Prop :=
        new k .f32 = v.1.extractLsb' 0 32 ∧ (orbNew k .f32 a.toNat b.toNat d.toNat).2 = v.2
      is .add (farith2 addFlags x (0#32 ++ a) (0#32 ++ b)) ∧ is .max (fminmaxOp true x (0#32 ++ a) (0#32 ++ b)) ∧
      is .min (fminmaxOp false x (0#32 ++ a) (0#32 ++ b))

/-- A lane of an outstanding access may take its place. -/
def Performing (s : State) (id lane : Nat) (a : Access) (l : LaneAcc) (g : Group) : Prop :=
  s.access? id = some a ∧ a.lanes.find? (fun m => m.lane == lane) = some l ∧ s.group? a.group = some g ∧
    lanePerformable s a l = true

/-- Every other lane of an access has been performed. -/
def LastLane (a : Access) (lane : Nat) : Prop := ∀ m ∈ a.lanes, m.lane ≠ lane → m.stage = .done

/-- The number that stands at a lane's place. -/
def placeValue (s : State) (a : Access) (g : Group) (l : LaneAcc) : Nat :=
  spaceRead s (s.groupCtx g) g.block l.space l.addr a.bytes

/-- The value that a load leaves, by the sign of its type (R131, R326). -/
def extended (a : Access) (v : Nat) : Nat :=
  if a.bytes < 4 ∧ a.ty.signed = true ∧ 2 ^ (8 * a.bytes - 1) ≤ v then 2 ^ 32 + v - 2 ^ (8 * a.bytes) else v

/-- The words of a value stand in one lane of the vector registers from the access's destination on; every other one is as
before. -/
def LaneReceives (g h : Group) (a : Access) (lane v : Nat) : Prop :=
  ∀ r L, h.vget r L = if L = lane ∧ a.d ≤ r ∧ r < a.d + (a.bytes + 3) / 4 then
    BitVec.ofNat 32 (v / 2 ^ (32 * (r - a.d))) else g.vget r L

/-- One lane of a predicate other than pT has a value; every other lane, and every other predicate, is as before (R53). -/
def LanePredicate (g h : Group) (pd lane : Nat) (b : Bool) : Prop :=
  ∀ q L, (h.pget q).getLsbD L = if q = pd ∧ q ≠ 15 ∧ L = lane then b else (g.pget q).getLsbD L

/-! ## Engine operations -/

/-- What waits at a home for the instruction that the issuing split stands at. -/
def issueWaiter (s : State) (g : Group) : Waiter := .issue s.curG s.curS (((g.split? s.curS).map (fun p => p.pc)).getD 0)

/-- n bytes of one line that the issuing split can read at issue, with the state after: from HBM, as the home admits, or from
host memory, and in both at a line that no operation reserves and, where R155 counts the access, with no other such access
outstanding (R155, R161, R175). -/
def ReadsLine (s : State) (g : Group) (va : DWord) (n : Nat) (bs : List Byte) (t : State) : Prop :=
  ∃ pa,
    (xlate s g.die g.engineTlb (s.groupCtx g) va .r = .ok .hbm pa ∧ reserved s (pa / 128) = false ∧
      (sharedOut s s.curG && sharedPlace s g .hbm pa) = false ∧
      claimAs s (issueWaiter s g) (groupAgent s.curG g) pa false = some t ∧ bs = s.memBytes pa n) ∨
    (xlate s g.die g.engineTlb (s.groupCtx g) va .r = .ok .host pa ∧ reservedKey s (.host, 0, pa / 128) = false ∧ sharedOut s s.curG = false ∧
      t = s ∧
      bs = (List.range n).map (fun j => s.hostGet (pa + j)))

/-- The lines of n bytes read one after another. -/
def ReadsRuns (g : Group) (n : Nat) : List (Nat × Nat) → State → List Byte → State → Prop
  | [], s, bs, t => bs = [] ∧ t = s
  | r :: rest, s, bs, t => ∃ cs u ds,
    ReadsLine s g (BitVec.ofNat 64 r.1) (lineRun r.1 (n - r.2)) cs u ∧ ReadsRuns g n rest u ds t ∧ bs = cs ++ ds

/-- n bytes that the issuing split can read at issue, line by line in ascending order, with the state after (R175, R254). -/
def ReadsBytes (s : State) (g : Group) (va : DWord) (n : Nat) (bs : List Byte) (t : State) : Prop :=
  ReadsRuns g n (lineRuns va.toNat n) s bs t

/-- A layout record that it can read, at a multiple of 128. -/
def ReadsRecord (s : State) (g : Group) (va : DWord) (r : Record) (t : State) : Prop :=
  va.toNat % 128 = 0 ∧ ∃ bs, ReadsBytes s g va 128 bs t ∧ r = parseRecord bs

/-- The consumer's record of an index producer, read after it; any other record has none (R178). -/
def ReadsLink (s : State) (g : Group) (rq : RecPair) (t : State) : Prop :=
  if rq.1.role = 1 then ∃ q, rq.2 = some q ∧ ReadsRecord s g rq.1.link q t else rq.2 = none ∧ t = s

/-- A record with its box at an origin meets the rules of R172 to R178, and faults on no element outside its tensor. -/
def GoodBox (rq : RecPair) (org : List Int) : Prop :=
  rq.ok = true ∧ rq.limitsOk org = true ∧ outsideOf rq.1 (rq.ownStream org) = none

/-- An engine instruction whose records have been read, with u the state then, starts its operation as soon as the lines that it
writes can be reserved and no fault that waits for delivery left unwritten what it uses: one operation more, its counter one higher, the split behind the instruction, and no byte of memory
changed (R161, R184, R187, R188). -/
def StartsEngine (s u : State) (g : Group) (p : Split) (i : Instr) (o : EngineOp) (post : State → Prop) : Prop :=
  ∀ w, (∀ f ∈ g.faults, o.uses u s.curG g f = false) → installable u o = true →
    claimLines (issueWaiter s g) (.engine o.id) (o.lines u) u = .ok () w → ∃ t h, exec i s = .next t ∧
    t.engines = s.engines ++ [o] ∧ t.nextId = s.nextId + 1 ∧ t.mem = s.mem ∧ t.hostMem = s.hostMem ∧ t.posted = s.posted ∧
    t.group? s.curG = some h ∧ Continues g h p (behind p i) ∧
    h = { g with splits := h.splits, cntC := g.cntC + (if o.kind.ctr = .c then 1 else 0),
                 cntT := g.cntT + (if o.kind.ctr = .t then 1 else 0) } ∧
    (∀ j, j ≠ s.curG → t.group? j = s.group? j) ∧ post t

/-- The memories and the contexts are as before. -/
def MemorySame (s t : State) : Prop :=
  t.mem = s.mem ∧ t.hostMem = s.hostMem ∧ t.posted = s.posted ∧ t.blocks = s.blocks ∧ t.ctxs = s.ctxs

/-- Every register, flag, tile and accumulator of every group is as before. -/
def RegistersSame (s t : State) : Prop :=
  ∀ gi h, s.group? gi = some h → ∃ h', t.group? gi = some h' ∧ h'.vec = h.vec ∧ h'.uni = h.uni ∧ h'.pred = h.pred ∧
    h'.flags = h.flags ∧ h'.acc = h.acc ∧ h'.tile = h.tile

/-- A split stands at an address and waits for nothing. -/
def GoesOn (t : State) (gi si : Nat) (pc : DWord) : Prop :=
  ∃ h q, t.group? gi = some h ∧ h.split? si = some q ∧ q.pc = pc ∧ q.wait = .none

/-- Of the package only one group differs, and of it only the split of an index, which is now p'. -/
def SplitNow (s t : State) (gi : Nat) (g : Group) (si : Nat) (p' : Split) : Prop :=
  OnlyGroup s t gi ∧ ∃ h, t.group? gi = some h ∧ h = { g with splits := h.splits } ∧ h.split? si = some p' ∧
    ∀ q ∈ g.splits, q.idx ≠ si → q ∈ h.splits

/-- A split of a group has trapped at an address with a cause, its unfinished lanes kept (R130, R230). -/
def Trapped (t : State) (gi si : Nat) (c : Cause) (pc : DWord) (pend : LaneMask) : Prop :=
  ∃ h q, t.group? gi = some h ∧ h.split? si = some q ∧ q.run = .trapped ∧ q.cause = some c ∧ q.pc = pc ∧
    q.pend = pend ∧ q.wait = .none

end Sys2Proof.Machine
end

