-- ==== Sys2Proof/Certificates/Slice0/Obligations.lean ====
section
/-! DEFINITION. The statements about the machine that the provers prove. -/

open Sys2Proof Sys2Proof.Machine Sys2Proof.Num

/-! ## Decoding -/

/-- R70 to R80: the bytes of any well-formed instruction decode to it and tell its number of words, whatever bytes follow. -/
def Obligations.DecodeOfEncode : Prop :=
  ∀ (i : Instr) (rest : List Byte), i.wf = true → encode i ≠ [] →
    decodeBytes ((encode i).flatMap wordBytes ++ rest) = .ok (i, (encode i).length)

/-- R79, R80: a word 0 of a major that carries no instructions decodes to none, and one of majors 56 to 63 to the
instruction that traps as UNIMP, with the length that its low bits give. -/
def Obligations.MajorsWithoutInstructions : Prop :=
  ∀ (w0 : Word) (rest : List Word),
    (majOf w0 ∈ [0, 14, 15, 20, 21, 22, 23, 26, 27, 31, 38, 39, 50, 51, 54, 55] →
      decode (w0 :: rest) = .error .reservedMajor) ∧
    (56 ≤ majOf w0 → decode (w0 :: rest) = .ok (.unimp w0, wordCount (lenOf w0)))

/-- Words that the spec prints beside its examples decode to the instructions that they stand for. -/
def Obligations.PrintedWordsDecode : Prop :=
  decode [0x2040_2F04#32] = .ok (.brev ⟨false, 15⟩ 1 2, 1) ∧
  decode [0x4040_2F04#32] = .ok (.clz ⟨false, 15⟩ 1 2, 1) ∧
  decode [0xC040_2F04#32] = .ok (.not ⟨false, 15⟩ 1 2, 1) ∧
  decode [0xE040_2F04#32] = .ok (.popc ⟨false, 15⟩ 1 2, 1) ∧
  decode [0x4000_0F1C#32] = .ok (.hend, 1)

/-! ## Register instructions -/

/-- R277, R306, R340: what ABS, CLZ, FABS, FNEG and the short MOV write into every lane of E of a vector register, with no
flag, no other register and nothing else of the package changed; MOVI writes the sign-extended IMM11, or the literal to the
pair D and D + 1 when D is even and its low word to D when D is odd. -/
def Obligations.ShortFormatResults : Prop :=
  ∀ (gd : Guard) (d a : BitVec 8) (imm : BitVec 11) (lit : DWord),
    let each (i : Instr) (f : Word → Word) : Prop :=
      ShortCompletes i gd d.toNat false (fun g L => 0#32 ++ f (g.vget a.toNat L))
    each (.abs gd d a) (fun v => if v.toInt < 0 then -v else v) ∧
    each (.clz gd d a) (fun v => BitVec.ofNat 32 (((List.range 32).reverse.takeWhile (fun j => !v.getLsbD j)).length)) ∧
    each (.fabs gd d a) (fun v => v &&& 0x7FFF_FFFF#32) ∧
    each (.fneg gd d a) (fun v => v ^^^ 0x8000_0000#32) ∧
    each (.movShort gd d a) (fun v => v) ∧
    ShortCompletes (.movi gd d imm) gd d.toNat false (fun _ _ => 0#32 ++ imm.signExtend 32) ∧
    ShortCompletes (.moviLiteral gd d lit) gd d.toNat (d.toNat % 2 == 0) (fun _ _ => lit)

/-- R290, R344, R352: BREV reverses bits, NOT inverts them, POPC counts those that are set, in each lane of E; their
majors, MIN values and printed words. -/
def Obligations.BrevNotPopc : Prop :=
  (∀ (gd : Guard) (d a : BitVec 8),
    let each (i : Instr) (f : Word → Word) : Prop :=
      ShortCompletes i gd d.toNat false (fun g L => 0#32 ++ f (g.vget a.toNat L))
    each (.brev gd d a) (fun v => v.reverse) ∧
    each (.not gd d a) (fun v => v ^^^ 0xFFFF_FFFF#32) ∧
    each (.popc gd d a) (fun v => BitVec.ofNat 32 ((List.range 32).countP v.getLsbD)) ∧
    encode (.brev gd d a) = [s2Word 1 1 gd d a] ∧ encode (.not gd d a) = [s2Word 1 6 gd d a] ∧
    encode (.popc gd d a) = [s2Word 1 7 gd d a]) ∧
  encode (.brev ⟨false, 15⟩ 1 2) = [0x2040_2F04#32] ∧ encode (.not ⟨false, 15⟩ 1 2) = [0xC040_2F04#32] ∧
  encode (.popc ⟨false, 15⟩ 1 2) = [0xE040_2F04#32]

/-- R321: IADDI adds the sign-extended IMM11, or the literal's low word, to D modulo 2^32 in each lane of E and sets no flag;
a D at or above the vector count is OPR. -/
def Obligations.IaddiAdds : Prop :=
  ∀ (gd : Guard) (d : BitVec 8) (imm : BitVec 11) (lit : DWord),
    ShortCompletes (.iaddi gd d imm) gd d.toNat false (fun g L => 0#32 ++ (g.vget d.toNat L + imm.signExtend 32)) ∧
    ShortCompletes (.iaddiLiteral gd d lit) gd d.toNat false
      (fun g L => 0#32 ++ (g.vget d.toNat L + lit.extractLsb' 0 32)) ∧
    ∀ i, i = .iaddi gd d imm ∨ i = .iaddiLiteral gd d lit → ∀ s g p, s.issuer? = some (g, p) → g.nv ≤ d.toNat →
      exec i s = .next (trapped s g p i .opr (0#32 ++ word0 i) p.mask)

/-- R53, R81 (step 4), R229: an instruction of a split that names a register, tile or accumulator that is not allocated takes
OPR with word 0, whatever its guard, for the active lanes that are no helpers. -/
def Obligations.UnallocatedRegisterIsOpr : Prop :=
  ∀ (i : Instr) (s : State) (g : Group) (p : Split), fromSplit i = true → s.issuer? = some (g, p) →
    limitsOk g i = false → exec i s = .next (trapped s g p i .opr (0#32 ++ word0 i) p.mask)

/-- R34, R104, R112, R320 to R324: the integer instructions complete with the exact result of their operands, wrapped or
saturated to the type, in D of either class; over one 32-bit element that is the sum, difference, product or multiply-add
modulo 2^32, the high word of the product, and a clamped sum that sets SAT, and over four packed elements the sum of each;
IDOT4 is C and the four byte products, wrapped once or clamped once with IOV. That flags of a vector D enter 16 cycles after
the issue is the model's choice (log 55). -/
def Obligations.IntegerResults : Prop :=
  (let two (mk : Ext → Instr) (f : Ext → DWord → DWord → DWord × FlagBits) : Prop :=
     AluCompletes mk (fun x => x.ty.wide) (fun x _ g L => f x (opA g x x.ty.wide L) (opB g x x.ty.wide L))
   let three (mk : Ext → Instr) (f : Ext → DWord → DWord → DWord → DWord × FlagBits) : Prop :=
     AluCompletes mk (fun x => x.ty.wide)
       (fun x _ g L => f x (opA g x x.ty.wide L) (opB g x x.ty.wide L) (opC g x x.ty.wide L))
   two .iadd (fun x => int2 (· + ·) x.ty x.sat) ∧ two .isub (fun x => int2 (· - ·) x.ty x.sat) ∧
   two .imax (fun x => int2 max x.ty false) ∧ two .imin (fun x => int2 min x.ty false) ∧
   three .idot4 (fun x => idot4Op x.ty x.sat) ∧ three .imad (fun x => imadOp x.ty x.sat) ∧
   two .imul (fun x => imulOp x.ty x.sat) ∧ two .imulh (fun x => imulhOp x.ty)) ∧
  (∀ a b : Word,
     int2 (· + ·) .u32 false (0#32 ++ a) (0#32 ++ b) = (0#32 ++ (a + b), 0) ∧
     int2 (· + ·) .s32 false (0#32 ++ a) (0#32 ++ b) = (0#32 ++ (a + b), 0) ∧
     int2 (· - ·) .s32 false (0#32 ++ a) (0#32 ++ b) = (0#32 ++ (a - b), 0) ∧
     imulOp .u32 false (0#32 ++ a) (0#32 ++ b) = (0#32 ++ (a * b), 0) ∧
     imulhOp .u32 (0#32 ++ a) (0#32 ++ b) = (0#32 ++ ((a.setWidth 64 * b.setWidth 64).extractLsb' 32 32), 0) ∧
     int2 (· + ·) .u32 true (0#32 ++ a) (0#32 ++ b) =
       (if a.toNat + b.toNat < 2 ^ 32 then (0#32 ++ (a + b), 0) else (0#32 ++ 0xFFFF_FFFF#32, flSat))) ∧
  (∀ a b c : Word,
     let part (v : Word) (i : Nat) : BitVec 8 := v.extractLsb' (8 * i) 8
     let plain : Nat := (List.range 4).foldl (fun t i => t + (part a i).toNat * (part b i).toNat) c.toNat
     let signed : Int := (List.range 4).foldl (fun t i => t + (part a i).toInt * (part b i).toInt) c.toInt
     let dot (ty : Ty) (sat : Bool) : DWord × FlagBits := idot4Op ty sat (0#32 ++ a) (0#32 ++ b) (0#32 ++ c)
     dot .u8x4 false = (0#32 ++ BitVec.ofNat 32 plain, 0) ∧ dot .s8x4 false = (0#32 ++ BitVec.ofInt 32 signed, 0) ∧
     dot .u8x4 true = (if plain < 2 ^ 32 then (0#32 ++ BitVec.ofNat 32 plain, 0) else (0#32 ++ 0xFFFF_FFFF#32, flIov)) ∧
     dot .s8x4 true = (if signed < -(2 ^ 31) then (0#32 ++ 0x8000_0000#32, flIov)
       else if 2 ^ 31 ≤ signed then (0#32 ++ 0x7FFF_FFFF#32, flIov) else (0#32 ++ BitVec.ofInt 32 signed, 0)) ∧
     imadOp .s32 false (0#32 ++ a) (0#32 ++ b) (0#32 ++ c) = (0#32 ++ (a * b + c), 0) ∧
     ∀ i, i < 4 → (int2 (· + ·) .u8x4 false (0#32 ++ a) (0#32 ++ b)).1.extractLsb' (8 * i) 8 = part a i + part b i)

/-- R280, R332, R333, R339, R360: AND, OR, XOR, MOV and LEA complete with the bits of their operands; LOP3 with the table's
bit A + 2B + 4C of the operands' bits; SEL with A or B, bits unchanged, by the predicate C of each lane. -/
def Obligations.LogicResults : Prop :=
  let two (mk : Ext → Instr) (f : DWord → DWord → DWord) : Prop :=
    AluCompletes mk (fun x => x.ty.wide) (fun x _ g L => (f (opA g x x.ty.wide L) (opB g x x.ty.wide L), 0))
  two .and (· &&& ·) ∧ two .or (· ||| ·) ∧ two .xor (· ^^^ ·) ∧
  AluCompletes .mov (fun x => x.ty.wide) (fun x _ g L =>
    (match x.lit with
     | some v => litBits x.ty.wide v
     | none => opA g x x.ty.wide L, 0)) ∧
  AluCompletes .lea (fun _ => true) (fun x _ g L => (opA g x true L + (opB g x false L <<< Fields.scale x), 0)) ∧
  AluCompletes .lop3 (fun x => x.ty.wide) (fun x _ g L =>
    (lop3Op (x.var.toNat % 256) (tyWidth x.ty) (opA g x x.ty.wide L) (opB g x x.ty.wide L) (opC g x x.ty.wide L), 0)) ∧
  AluCompletes .sel (fun x => x.ty.wide) (fun x _ g L =>
    (if (g.pget (x.c.toNat % 16)).getLsbD L then opA g x x.ty.wide L else opB g x x.ty.wide L, 0)) ∧
  ∀ (table w : Nat) (a b c : DWord) (i : Nat), w ≤ 64 → (lop3Op table w a b c).getLsbD i =
    (decide (i < w) && table.testBit ((a.getLsbD i).toNat + 2 * (b.getLsbD i).toNat + 4 * (c.getLsbD i).toNat))

/-- R285, R286, R354, R359: the shifts by B[5:0], the field instructions and the byte permutation complete with the bits that
their rules give; a shift by the width or more leaves zeros or copies of the sign; bit i of BFI is bit i − pos of A inside
the field and bit i of C outside it; bit i of BFE is bit pos + i of A in the field, beyond A's width its sign, and above the
field the field's sign, zeros for an unsigned type; a byte of PRMT is the byte of A and C that its selector names, filled with its
sign, complemented or zero. -/
def Obligations.ShiftAndFieldResults : Prop :=
  (let amount (g : Group) (x : Ext) (L : Nat) : Nat := (opB g x false L).toNat % 64
   let cut (x : Ext) (v : DWord) : DWord := if x.ty.wide then v else 0#32 ++ v.extractLsb' 0 32
   let shift (mk : Ext → Instr) (f : Ext → DWord → Nat → DWord) : Prop :=
     AluCompletes mk (fun x => x.ty.wide) (fun x _ g L => (f x (opA g x x.ty.wide L) (amount g x L), 0))
   shift .shl (fun x a n => cut x (a <<< n)) ∧
   shift .shr (fun x a n => cut x (cut x a >>> n)) ∧
   shift .sar (fun x a n =>
     if x.ty.wide then a.sshiftRight n else 0#32 ++ (a.extractLsb' 0 32).sshiftRight n) ∧
   shift .rot (fun x a n =>
     if x.ty.wide then a.rotateLeft n else 0#32 ++ (a.extractLsb' 0 32).rotateLeft n) ∧
   AluCompletes .bfe (fun x => x.ty.wide)
     (fun x _ g L => (bfeOp x.ty.signed (tyWidth x.ty) (opA g x x.ty.wide L) (opB g x false L), 0)) ∧
   AluCompletes .bfi (fun x => x.ty.wide) (fun x _ g L =>
     (bfiOp (tyWidth x.ty) (opA g x x.ty.wide L) (opB g x false L) (opC g x x.ty.wide L), 0)) ∧
   AluCompletes .prmt (fun x => x.ty.wide) (fun x _ g L =>
     (0#32 ++ prmtOp (low (opA g x x.ty.wide L)) (low (opB g x x.ty.wide L)) (low (opC g x x.ty.wide L)), 0))) ∧
  (∀ (w : Nat) (a b c : DWord) (i : Nat), w ≤ 64 → i < w →
     (bfiOp w a b c).getLsbD i =
       if b.toNat % 64 ≤ i ∧ i < b.toNat % 64 + b.toNat / 256 % 256 then a.getLsbD (i - b.toNat % 64) else c.getLsbD i) ∧
  (∀ (sgn : Bool) (w : Nat) (a b : DWord) (i : Nat), w = 32 ∨ w = 64 → i < w →
     let len := min (b.toNat / 256 % 256) w
     let field (j : Nat) : Bool :=
       if b.toNat % 64 + j < w then a.getLsbD (b.toNat % 64 + j) else sgn && a.getLsbD (w - 1)
     (bfeOp sgn w a b).getLsbD i = if i < len then field i else sgn && decide (0 < len) && field (len - 1)) ∧
  ∀ (a b c : Word) (k : Nat), k < 4 →
    let sel : Byte := b.extractLsb' (8 * k) 8
    let n := sel.toNat % 8
    let y : Byte := if n < 4 then a.extractLsb' (8 * n) 8 else c.extractLsb' (8 * (n - 4)) 8
    let filled : Byte := if sel.getLsbD 4 then (if y.getLsbD 7 then 0xFF#8 else 0#8) else y
    (prmtOp a b c).extractLsb' (8 * k) 8 =
      if sel.getLsbD 3 then 0#8 else if sel.getLsbD 5 then ~~~filled else filled

/-- R322: ICMP writes the truth of A cc B, with the conditions =, ≠, <, ≤, > and ≥, as signed for types 0 and 2 and unsigned for
1 and 3, into the lanes of E of the predicate D and sets no flag; pT discards the write. -/
def Obligations.IcmpCompares : Prop :=
  PredicateCompletes .icmp (fun x g L =>
    let value (v : DWord) : Int :=
      match x.ty with
      | .s32 => (v.extractLsb' 0 32).toInt
      | .u32 => (v.extractLsb' 0 32).toNat
      | .s64 => v.toInt
      | .u64 => v.toNat
      | _ => elemInt x.ty v 0
    let a := value (opA g x x.ty.wide L)
    let b := value (opB g x x.ty.wide L)
    (match x.var.toNat % 8 with
     | 0 => decide (a = b)
     | 1 => decide (a ≠ b)
     | 2 => decide (a < b)
     | 3 => decide (a ≤ b)
     | 4 => decide (a > b)
     | _ => decide (a ≥ b), 0))

/-- R350: PLOP writes bit 2·pA + pB of the table into each lane of E of the predicate D and sets no flag; a write to pT is
discarded. -/
def Obligations.PlopLooksUp : Prop :=
  PredicateCompletes .plop (fun x g L =>
    (x.var.getLsbD (2 * ((g.pget (x.a.toNat % 16)).getLsbD L).toNat + ((g.pget (x.b.toNat % 16)).getLsbD L).toNat), 0))

/-- R317, R351: PMOV moves a register's bits into a predicate, or a predicate's lane mask into a register; GVOTE gives the
ballot of the lanes of E that are no helpers, or whether any or all of them hold A. -/
def Obligations.PredicateMovesAndVotes : Prop :=
  (∀ x s g p, Executes s g p (.pmov x) → ∃ t, exec (.pmov x) s = .next t ∧
    if x.var = 0 then
      RegisterEffect s t g p (.pmov x) (fun h =>
        PredicateWritten g h (guardLanes g p x.guard) (x.d.toNat % 16)
          (fun L => (g.rget x.aU false x.a.toNat L).getLsbD L) ∧ FlagsSame g h)
    else
      RegisterEffect s t g p (.pmov x) (fun h =>
        DWritten g h x (guardLanes g p x.guard) false (fun _ => 0#48 ++ predMask g (x.a.toNat % 16)) ∧ FlagsSame g h)) ∧
  (∀ x s g p, Executes s g p (.gvote x) → ∃ t, exec (.gvote x) s = .next t ∧
    let e := guardLanes g p x.guard
    let voters := e &&& ~~~g.helpers
    let yes := voters &&& g.pget (x.a.toNat % 16)
    RegisterEffect s t g p (.gvote x) (fun h => FlagsSame g h ∧
      if x.var = 0 then DWritten g h x e false (fun _ => 0#48 ++ yes)
      else PredicateWritten g h e (x.d.toNat % 16) (fun _ => if x.var = 1 then yes != 0 else yes == voters)))

/-! ## Float instructions -/

/-- R34, R106, R107, R109, R112, R307 to R312, R314: the float instructions and the eight functions of major 18 complete with
the rounded result of every element in D and raise the flags of the lanes that are no helpers; an exact cancellation is +0, and
−0 in RDN. Over f32 a NaN operand gives the canonical NaN, and INV when it signals; FMAX and FMIN give the other operand for
one NaN and order −0 below +0; FCMP decides its eight conditions and FCLASS sets its one bit by the bits of the operands; no
sum saturated by SAT is infinite; FFMA rounds once; and the functions give the special results of R312's table and its
examples. That flags of a vector D enter 16 cycles after the issue is the model's choice (log 55). -/
def Obligations.FloatResults : Prop :=
  ((let two (mk : Ext → Instr) (f : Ext → DWord → DWord → DWord × FlagBits) : Prop :=
      AluCompletes mk (fun x => x.ty.wide) (fun x _ g L => f x (opA g x x.ty.wide L) (opB g x x.ty.wide L))
    two .fadd (farith2 addFlags) ∧ two .fmul (farith2 (fun _ => mulFlags)) ∧ two .fmax (fminmaxOp true) ∧
    two .fmin (fminmaxOp false) ∧
    AluCompletes .ffma (fun x => x.ty.wide)
      (fun x _ g L => ffmaOp x (opA g x x.ty.wide L) (opB g x x.ty.wide L) (opC g x x.ty.wide L)) ∧
    AluCompletes .fclass (fun _ => false) (fun x _ g L => (fclassOp x (opA g x x.ty.wide L), 0)) ∧
    PredicateCompletes .fcmp (fun x g L => fcmpOp x (opA g x x.ty.wide L) (opB g x x.ty.wide L))) ∧
   (let one (mk : Ext → Instr) (fn : Fun) : Prop :=
      AluCompletes mk (fun x => x.ty.wide) (fun x _ g L => funcOp fn x (opA g x x.ty.wide L))
    one .fcos .cos ∧ one .fexp2 .exp2 ∧ one .flog2 .log2 ∧ one .frcp .rcp ∧ one .frsq .rsq ∧ one .fsin .sin ∧
    one .fsqrt .sqrt ∧ one .ftanh .tanh)) ∧
  (∀ (rm : Rm) (n : Bool) (m : Nat) (e : Int), m ≠ 0 →
     addFlags rm (.fin n m e) (.fin (!n) m e) = (zero (rm == .rdn), 0)) ∧
  (let exp (a : Word) : BitVec 8 := a.extractLsb' 23 8
   let frac (a : Word) : BitVec 23 := a.extractLsb' 0 23
   let neg (a : Word) : Bool := a.getLsbD 31
   let nan (a : Word) : Bool := exp a == 0xFF#8 && frac a != 0
   let signals (a : Word) : Bool := nan a && !a.getLsbD 22
   let rank (a : Word) : Int := if neg a then -((a.extractLsb' 0 31).toNat : Int) else (a.extractLsb' 0 31).toNat
   let canonical : DWord := 0x7FC0_0000#64
   (∀ (x : Ext) (a b c : Word), x.ty = .f32 →
     let inv : FlagBits := if signals a || signals b then flInv else 0
     let add := farith2 addFlags x (0#32 ++ a) (0#32 ++ b)
     (nan a || nan b → add = (canonical, inv) ∧ farith2 (fun _ => mulFlags) x (0#32 ++ a) (0#32 ++ b) = (canonical, inv)) ∧
     (nan a || nan b || nan c → (ffmaOp x (0#32 ++ a) (0#32 ++ b) (0#32 ++ c)).1 = canonical) ∧
     (x.sat = true → add.1 = canonical ∨ add.1.extractLsb' 23 8 ≠ 0xFF#8) ∧
     (x.var = 0 →
       let pick (larger : Bool) : Word :=
         if rank a = rank b then (if neg a = larger then b else a) else if (rank a < rank b) = larger then b else a
       (∀ larger, fminmaxOp larger x (0#32 ++ a) (0#32 ++ b) =
         (if nan a && nan b then canonical else 0#32 ++ (if nan a then b else if nan b then a else pick larger), inv)) ∧
       fcmpOp x (0#32 ++ a) (0#32 ++ b) =
         (let ordered := !(nan a || nan b)
          match x.c.toNat % 8 with
          | 0 => ordered && rank a == rank b
          | 1 => !(ordered && rank a == rank b)
          | 2 => ordered && rank a < rank b
          | 3 => ordered && rank a ≤ rank b
          | 4 => ordered && rank b < rank a
          | 5 => ordered && rank b ≤ rank a
          | 6 => ordered
          | _ => !ordered, inv) ∧
       fclassOp x (0#32 ++ a) = BitVec.ofNat 64 (2 ^ (
         if nan a then (if signals a then 0 else 1)
         else if exp a = 0xFF#8 then (if neg a then 2 else 9)
         else if exp a ≠ 0 then (if neg a then 3 else 8)
         else if frac a ≠ 0 then (if neg a then 4 else 7)
         else if neg a then 5 else 6))) ∧
     ∀ fn, fn ∈ [Fun.cos, .exp2, .log2, .rcp, .rsq, .sin, .sqrt, .tanh] → nan a →
       funcOp fn x (0#32 ++ a) = (canonical, if signals a then flInv else 0)) ∧
   ∀ x : Ext, x.ty = .f32 → x.rm = .rne → x.sat = false → x.var = 0 →
     (∀ y, y ∈ ([(.cos, 0x7F80_0000#32, 0x7FC0_0000#32, flInv), (.sin, 0xFF80_0000#32, 0x7FC0_0000#32, flInv),
         (.exp2, 0x7F80_0000#32, 0x7F80_0000#32, 0), (.exp2, 0xFF80_0000#32, 0#32, 0),
         (.log2, 0x7F80_0000#32, 0x7F80_0000#32, 0), (.log2, 0x8000_0000#32, 0xFF80_0000#32, flDz),
         (.log2, 0xBF80_0000#32, 0x7FC0_0000#32, flInv), (.rcp, 0xFF80_0000#32, 0x8000_0000#32, 0),
         (.rcp, 0x8000_0000#32, 0xFF80_0000#32, flDz), (.rsq, 0#32, 0x7F80_0000#32, flDz),
         (.rsq, 0xFF80_0000#32, 0x7FC0_0000#32, flInv), (.sqrt, 0x8000_0000#32, 0x8000_0000#32, 0),
         (.sqrt, 0xBF80_0000#32, 0x7FC0_0000#32, flInv), (.tanh, 0xFF80_0000#32, 0xBF80_0000#32, 0),
         (.cos, 0x8000_0000#32, 0x3F80_0000#32, 0), (.sin, 0x8000_0000#32, 0x8000_0000#32, 0),
         (.exp2, 0x4040_0000#32, 0x4100_0000#32, 0), (.exp2, 0xC316_0000#32, 0#32, 0),
         (.rcp, 0x4040_0000#32, 0x3EAA_AAAB#32, 0), (.rcp, 1#32, 0x7F80_0000#32, 0),
         (.rsq, 0x4080_0000#32, 0x3F00_0000#32, 0), (.tanh, 0x41A0_0000#32, 0x3F80_0000#32, 0)] :
         List (Fun × Word × Word × FlagBits)) →
       funcOp y.1 x (0#32 ++ y.2.1) = (0#32 ++ y.2.2.1, y.2.2.2)) ∧
     ffmaOp x 0x3F80_0800#64 0x3F80_0800#64 0xBF80_1000#64 = (0x3380_0000#64, 0) ∧
     farith2 (fun _ => mulFlags) x 0x3F80_0800#64 0x3F80_0800#64 = (0x3F80_1000#64, 0))

/-- R34, R109, R112, R117, R300, R301, R349, R357, R373: the conversions complete with every element's converted value; UNPACK
fills one register for each element; the examples of R109, R301, R349, R357 and R373 come out as printed, and a saturating
conversion turns an infinity into the largest finite value of its sign with SAT. That flags of a vector D enter 16 cycles after
the issue is the model's choice (log 55). -/
def Obligations.ConversionResults : Prop :=
  AluCompletes .cvt (fun x => x.ty.wide) (fun x _ g L =>
    cvt x.ty ((Fields.cvtSrc x).getD .s32) x.rm x.sat (opA g x ((Fields.cvtSrc x).getD .s32).wide L)) ∧
  AluCompletes .pack (fun _ => false) (fun x _ g L => packOp x g L) ∧
  AluCompletes .req (fun _ => false) (fun x _ g L => reqOp x (opA g x false L) (opB g x false L)) ∧
  (∀ y, y ∈ ([(.s32, .f32, .rne, false, 0x4020_0000#64, 2#64, 0), (.s32, .f32, .rtz, false, 0xC02C_CCCD#64, 0xFFFF_FFFE#64, 0),
      (.u32, .f32, .rne, false, 0xBECC_CCCD#64, 0#64, 0), (.u32, .f32, .rne, false, 0xBF80_0000#64, 0#64, flInv),
      (.s32, .f32, .rne, false, 0x4F32_D05E#64, 0x7FFF_FFFF#64, flInv), (.f32, .s32, .rne, false, 16777217#64, 0x4B80_0000#64, 0),
      (.f32, .s32, .rup, false, 16777217#64, 0x4B80_0001#64, 0), (.s32, .u32, .rne, false, 0xFFFF_FFFF#64, 0xFFFF_FFFF#64, 0),
      (.s32, .u32, .rne, true, 0xFFFF_FFFF#64, 0x7FFF_FFFF#64, flSat),
      (.f32, .f64, .rne, false, 0x4807_8287_F49C_4A1D#64, 0x7F80_0000#64, 0),
      (.f32, .f64, .rne, true, 0x4807_8287_F49C_4A1D#64, 0x7F7F_FFFF#64, flSat)] :
      List (Ty × Ty × Rm × Bool × DWord × DWord × FlagBits)) →
    cvt y.1 y.2.1 y.2.2.1 y.2.2.2.1 y.2.2.2.2.1 = y.2.2.2.2.2) ∧
  (∀ (f : Fmt) (rm : Rm) (n : Bool) (top : Nat), (f, top) ∈ [(f32, 0x7F7F_FFFF), (f16, 0x7BFF), (bf16, 0x7F7F), (e4m3, 0x7E),
      (e5m2, 0x7B), (e2m1, 7)] → narrowSat f rm noBound (.inf n) = ((if n then 2 ^ (f.width - 1) else 0) + top, flSat)) ∧
  (∀ b, b = dec f32 0x42C8_0000 → narrowSat e4m3 .rne b (dec f32 0x42C2_0000) = (0x6C, 0) ∧
    narrowSat e4m3 .rne b (dec f32 0x42CA_0000) = (0x6C, flSat) ∧ narrowSat e4m3 .rne b (.inf false) = (0x6C, flSat)) ∧
  (∀ x : Ext, x.rm = .rne →
    (x.ty = .e4m3x4 → reqOp x 0x7F01_7E38#64 0x7E7F#64 = (0x7F02_7E40#64, flSat)) ∧
    (x.ty = .e2m1x8 → reqOp x 0x7125#64 0x8180#64 = (0x5013#64, 0))) ∧
  (∀ (x : Ext) (g : Group) (L : Nat), x.ty = .e4m3x4 → x.rm = .rne → x.aU = true →
    g.uget x.a.toNat = 0x3F80_0000#32 → g.uget (x.a.toNat + 1) = 0xC000_0000#32 → g.uget (x.a.toNat + 2) = 0x43FA_0000#32 →
    g.uget (x.a.toNat + 3) = 0x7FC0_0000#32 →
      packOp x g L = if x.sat then (0x7F7E_C038#64, flSat) else (0x7F7F_C038#64, flInv)) ∧
  ([0, 1, 2, 3].map (fun k => (unpackElem .e4m3x4 0x7F7E_C038#64 k).1) = [0x3F80_0000, 0xC000_0000, 0x43E0_0000, 0x7FC0_0000]) ∧
  ∀ x s g p, Executes s g p (.unpack x) → ∃ t, exec (.unpack x) s = .next t ∧
    let e := guardLanes g p x.guard
    let elem (r L : Nat) : Word := BitVec.ofNat 32 (unpackElem x.ty (opA g x false L) (r - x.d.toNat)).1
    let fills (r : Nat) : Prop := x.d.toNat ≤ r ∧ r < x.d.toNat + x.ty.packCount
    RegisterEffect s t g p (.unpack x) (fun h => h.pred = g.pred ∧
      FlagsRaised g h x.dU s.now (resultFlags (issueOf s g p (.unpack x) x.guard) x.dU (fun L =>
        (List.range x.ty.packCount).foldl (fun b k => b ||| (unpackElem x.ty (opA g x false L) k).2) 0)) ∧
      if x.dU then h.vec = g.vec ∧
        ∀ r, (fills r ∧ e ≠ 0 → h.uget r = elem r 0) ∧ (¬(fills r ∧ e ≠ 0) → h.uget r = g.uget r)
      else h.uni = g.uni ∧ ∀ r L,
        let writes : Prop := fills r ∧ e.getLsbD L = true ∧ g.present.getLsbD L = true
        (writes → h.vget r L = elem r L) ∧ (¬writes → h.vget r L = g.vget r L))

/-! ## Lanes -/

/-- R34, R112, R116, R316, R355, R356: the exchanges complete with A of the lane that the rule names, in E or not; GREDUCE with
the root of the fixed tree over the lanes of E that are no helpers, and GSCAN with each lane's prefix; the tree combines
neighbours pairwise in four levels, the scan lanes at distances 1, 2, 4 and 8; the operations over 32-bit integers and floats, the
identities, and the runs that R316 prints. That flags of a vector D enter 16 cycles after the issue is the model's choice
(log 55). -/
def Obligations.LaneExchangesAndReductions : Prop :=
  (let from_ (mk : Ext → Instr) (src : Ext → Group → Nat → Nat) : Prop :=
     AluCompletes mk (fun x => x.ty.wide) (fun x _ g L => (g.rget x.aU x.ty.wide x.a.toNat (src x g L), 0))
   from_ .qbcast (fun x _ L => L / 4 * 4 + x.var.toNat % 4) ∧ from_ .qswap (fun x _ L => L ^^^ (x.var.toNat % 4)) ∧
   from_ .shuf (fun x g L => (opB g x false L).toNat % 16)) ∧
  ((let leaves (x : Ext) (g : Group) (p : Split) : List Nat := allLanes.map (fun L =>
      if (guardLanes g p x.guard &&& ~~~g.helpers).getLsbD L then (opA g x x.ty.wide L).toNat
      else redIdentity x.ty (Fields.scale x))
    let flags (g : Group) (p : Split) (x : Ext) (fl : FlagBits) : FlagBits :=
      if guardLanes g p x.guard &&& ~~~g.helpers = 0 then 0 else fl
    (∀ x s g p, Executes s g p (.greduce x) → ∃ t, exec (.greduce x) s = .next t ∧
      let r := tree16 (redOp x.ty (Fields.scale x) x.rm x.sat) (leaves x g p)
      RegisterEffect s t g p (.greduce x) (fun h => FlagsRaised g h x.dU s.now (flags g p x r.2) ∧
        DWritten g h x (guardLanes g p x.guard) x.ty.wide (fun _ => BitVec.ofNat 64 r.1))) ∧
    (∀ x s g p, Executes s g p (.gscan x) → ∃ t, exec (.gscan x) s = .next t ∧
      let r := scan16 (redOp x.ty (Fields.scale x) x.rm x.sat) (leaves x g p)
      RegisterEffect s t g p (.gscan x) (fun h => FlagsRaised g h false s.now (flags g p x r.2) ∧
        DWritten g h x (guardLanes g p x.guard) x.ty.wide (fun L => BitVec.ofNat 64
          (if x.var.getLsbD 3 then (if L = 0 then redIdentity x.ty (Fields.scale x) else r.1.getD (L - 1) 0)
           else r.1.getD L 0))))) ∧
   (∀ (op : Nat → Nat → Nat) (x : Nat → Nat),
      let t (i j : Nat) : Nat := op (op (x i) (x (i + 1))) (op (x j) (x (j + 1)))
      (tree16 (fun a b => (op a b, 0)) (allLanes.map x)).1 = op (op (t 0 2) (t 4 6)) (op (t 8 10) (t 12 14)) ∧
      ∀ z : Nat → Nat → Nat, (∀ i, z 0 i = x i) →
        (∀ n i, z (n + 1) i = if 2 ^ n ≤ i then op (z n (i - 2 ^ n)) (z n i) else z n i) →
        ∀ L, L < 16 → (scan16 (fun a b => (op a b, 0)) (allLanes.map x)).1.getD L 0 = z 4 L) ∧
   (∀ (a b : Word) (rm : Rm),
      let r (ty : Ty) (op : Nat) (sat : Bool) : Nat × FlagBits := redOp ty op rm sat a.toNat b.toNat
      r .u32 0 false = ((a + b).toNat, 0) ∧ r .s32 0 false = ((a + b).toNat, 0) ∧
      r .u32 0 true = (if a.toNat + b.toNat < 2 ^ 32 then (a.toNat + b.toNat, 0) else (2 ^ 32 - 1, flIov)) ∧
      r .u32 1 false = (min a.toNat b.toNat, 0) ∧ r .u32 2 false = (max a.toNat b.toNat, 0) ∧
      r .s32 1 false = (if a.toInt ≤ b.toInt then a.toNat else b.toNat, 0) ∧
      r .s32 2 false = (if a.toInt ≤ b.toInt then b.toNat else a.toNat, 0) ∧
      r .u32 3 false = ((a &&& b).toNat, 0) ∧ r .u32 4 false = ((a ||| b).toNat, 0) ∧
      r .u32 5 false = ((a ^^^ b).toNat, 0) ∧
      ∀ x : Ext, x.ty = .f32 → x.rm = rm → x.sat = false → x.var = 0 →
        let is (op : Nat) (v : DWord × FlagBits) : Prop :=
          BitVec.ofNat 32 (r .f32 op false).1 = v.1.extractLsb' 0 32 ∧ (r .f32 op false).2 = v.2
        is 0 (farith2 addFlags x (0#32 ++ a) (0#32 ++ b)) ∧ is 1 (fminmaxOp false x (0#32 ++ a) (0#32 ++ b)) ∧
        is 2 (fminmaxOp true x (0#32 ++ a) (0#32 ++ b))) ∧
   (let of (ty : Ty) : List Nat := (List.range 6).map (redIdentity ty)
    of .u32 = [0, 2 ^ 32 - 1, 0, 2 ^ 32 - 1, 0, 0] ∧ of .s32 = [0, 2 ^ 31 - 1, 2 ^ 31, 2 ^ 32 - 1, 0, 0] ∧
    of .u64 = [0, 2 ^ 64 - 1, 0, 2 ^ 64 - 1, 0, 0] ∧ of .s64 = [0, 2 ^ 63 - 1, 2 ^ 63, 2 ^ 64 - 1, 0, 0] ∧
    (of .f32).take 3 = [0x8000_0000, 0x7F80_0000, 0xFF80_0000] ∧
    (of .f64).take 3 = [0x8000_0000_0000_0000, 0x7FF0_0000_0000_0000, 0xFFF0_0000_0000_0000]) ∧
   (let leaves : List Nat := [0x3F80_0000, 0x3380_0000, 0x3380_0000, 0x3380_0000] ++ List.replicate 12 0x8000_0000
    (tree16 (redOp .f32 0 .rne false) leaves).1 = 0x3F80_0001 ∧
    (scan16 (redOp .f32 0 .rne false) leaves).1.take 4 = [0x3F80_0000, 0x3F80_0000, 0x3F80_0001, 0x3F80_0001]))

/-! ## Special registers, time and traps -/

/-- R343, R353, R376: NOP and PREF only go on; YIELD goes on and is not ready for 16 cycles, or at once when E is empty. -/
def Obligations.InstructionsWithoutResult : Prop :=
  ∀ (gd : Guard) (x : Ext) (s : State) (g : Group) (p : Split),
    (Executes s g p (.nop gd) → ∃ t, exec (.nop gd) s = .next t ∧ PassesBy s t g p (.nop gd)) ∧
    (Executes s g p (.pref x) → ∃ t, exec (.pref x) s = .next t ∧ PassesBy s t g p (.pref x)) ∧
    (Executes s g p (.yield gd) → ∃ t, exec (.yield gd) s = .next t ∧
      if guardLanes g p gd = 0 then PassesBy s t g p (.yield gd)
      else SplitBecomes s t g p (fun q => { q.goto (behind p (.yield gd)) with wait := .yield (s.now + 17) }))

/-- R34, R44, R67, R68, R112, R364: SRD reads the numbered special register, FLAGS and ARM at completion when D is a vector
register; SWR writes FLAGS and ARM; every other number is OPR; and the values of all twenty registers: those of the lane, the
split, the group and its block, the launch's grid, number and context, and the virtual dies. That a vector D of FLAGS or ARM is
read 16 cycles after the issue is the model's choice (log 55). -/
def Obligations.SpecialRegisterAccess : Prop :=
  (∀ (x : Ext) (s : State) (g : Group) (p : Split),
     (Executes s g p (.srd x) →
       (x.var.toNat < 20 → ¬(x.dU = false ∧ (x.var = 14 ∨ x.var = 15)) → ∃ t, exec (.srd x) s = .next t ∧
         RegisterEffect s t g p (.srd x) (fun h => FlagsSame g h ∧
           DWritten g h x (guardLanes g p x.guard) false (fun L => 0#32 ++ specialReg s g p x.var.toNat L))) ∧
       (x.dU = false → x.var = 14 ∨ x.var = 15 → ∃ t, exec (.srd x) s = .next t ∧
         if guardLanes g p x.guard = 0 then PassesBy s t g p (.srd x)
         else ReadsLater s t g p (.srd x) x (if x.var = 14 then .flags else .arm) false) ∧
       (20 ≤ x.var.toNat → exec (.srd x) s = .next (trapped s g p (.srd x) .opr (0#32 ++ word0 (.srd x)) p.mask))) ∧
     (Executes s g p (.swr x) →
       let v : FlagBits := (g.uget x.a.toNat).extractLsb' 0 6
       (x.var = 14 → ∃ t, exec (.swr x) s = .next t ∧ RegisterEffect s t g p (.swr x) (fun h =>
         h = { g with flags := if guardLanes g p x.guard = 0 then g.flags else v, splits := h.splits })) ∧
       (x.var = 15 → ∃ t, exec (.swr x) s = .next t ∧ OnlyGroup s t s.curG ∧ ∃ h, t.group? s.curG = some h ∧
         Continues g h p (behind p (.swr x)) ∧
         h = { g with arm := if guardLanes g p x.guard = 0 then g.arm else v, splits := h.splits }) ∧
       (x.var ≠ 14 → x.var ≠ 15 → exec (.swr x) s = .next (trapped s g p (.swr x) .opr (0#32 ++ word0 (.swr x)) p.mask)))) ∧
  (∀ (s : State) (g : Group) (p : Split) (L : Nat), L < 16 →
     specialReg s g p 0 L = BitVec.ofNat 32 L ∧ specialReg s g p 1 L = BitVec.ofNat 32 (L / 4) ∧
     specialReg s g p 2 L = (match g.handler with
       | none => BitVec.ofNat 32 g.idx
       | some h => 0xFFFF_0000#32 + BitVec.ofNat 32 h.slot) ∧
     specialReg s g p 13 L = BitVec.ofNat 32 p.idx ∧ (specialReg s g p 14 L).toNat = g.flags.toNat ∧
     (specialReg s g p 15 L).toNat = g.arm.toNat ∧ (specialReg s g p 18 L).toNat = g.helpers.toNat ∧
     (specialReg s g p 19 L).toNat = p.mask.toNat ∧
     specialReg s g p 12 L = BitVec.ofNat 32 g.core ∧
     ∀ b, s.block? g.block = some b → specialReg s g p 3 L = BitVec.ofNat 32 b.x ∧
       specialReg s g p 4 L = BitVec.ofNat 32 b.y ∧ specialReg s g p 5 L = BitVec.ofNat 32 b.z ∧
       ∀ l, s.launch? b.launch = some l → specialReg s g p 6 L = BitVec.ofNat 32 l.desc.gridX ∧
         specialReg s g p 7 L = BitVec.ofNat 32 l.desc.gridY ∧ specialReg s g p 8 L = BitVec.ofNat 32 l.desc.gridZ ∧
         specialReg s g p 16 L = l.id ∧ specialReg s g p 17 L = BitVec.ofNat 32 l.ctx ∧
         ∀ c, s.ctx? l.ctx = some c → specialReg s g p 9 L = BitVec.ofNat 32 (b.lin % c.bind.length) ∧
           specialReg s g p 11 L = BitVec.ofNat 32 c.bind.length ∧
           ∀ v, c.bind.Nodup → c.bind[v]? = some g.die → specialReg s g p 10 L = BitVec.ofNat 32 v)

/-- R17, R313: FLAGS reads the flags that every earlier instruction has raised and clears those that B names, in one step;
VDHOP counts the grid steps between the dies bound to two virtual numbers, and gives all ones when one is unbound. -/
def Obligations.FlagsAndVdhop : Prop :=
  (∀ (x : Ext) (s : State) (g : Group) (p : Split), Executes s g p (.flags x) → ∃ t, exec (.flags x) s = .next t ∧
     let all : FlagBits := g.inflight.foldl (fun f m => f ||| m.bits) g.flags
     if guardLanes g p x.guard = 0 then PassesBy s t g p (.flags x)
     else RegisterEffect s t g p (.flags x) (fun h => h.vec = g.vec ∧ h.pred = g.pred ∧
       UniformWritten g h (guardLanes g p x.guard) false x.d.toNat (0#58 ++ all) ∧
       h.flags = all &&& ~~~((opB g x false 0).extractLsb' 0 6) ∧ ∀ m ∈ h.inflight, m.bits = 0)) ∧
  (AluCompletes .vdhop (fun _ => false) (fun x s g L =>
     let die (v : DWord) : Option Nat := (s.bindOf g)[v.toNat]?
     (match die (opA g x false L), die (opB g x false L) with
      | some p, some q => 0#32 ++ BitVec.ofNat 32
          (((p % 3 : Int) - (q % 3 : Int)).natAbs + ((p / 3 : Int) - (q / 3 : Int)).natAbs)
      | _, _ => 0#32 ++ 0xFFFF_FFFF#32, 0)))

/-- R34, R112, R258, R296, R363: CLK reads the package cycle and TIME the nanosecond counter of the group's die, a uniform D at
once and a vector D at completion, which writes what it reads then and frees D; SLEEP goes on when its instant has come and
waits for it otherwise. That the completion of a vector D lies 16 cycles after the issue is the model's choice (log 55). -/
def Obligations.TimeInstructions : Prop :=
  (∀ (x : Ext) (s : State) (g : Group) (p : Split),
     let reads (i : Instr) (kind : LateKind) (v : DWord) : Prop := Executes s g p i → ∃ t, exec i s = .next t ∧
       if guardLanes g p x.guard = 0 then PassesBy s t g p i
       else if x.dU then RegisterEffect s t g p i (fun h =>
         FlagsSame g h ∧ DWritten g h x (guardLanes g p x.guard) true (fun _ => v))
       else ReadsLater s t g p i x kind true
     reads (.clk x) .clk s.cycle ∧ reads (.time x) .time (s.dieNs.get 0 g.die) ∧
     (Executes s g p (.sleep x) → ∃ t, exec (.sleep x) s = .next t ∧
       let now := s.dieNs.get 0 g.die
       let instant := if x.var.getLsbD 0 then now + opB g x true 0 else opB g x true 0
       if guardLanes g p x.guard = 0 ∨ instant ≤ now then PassesBy s t g p (.sleep x)
       else SplitBecomes s t g p (fun q => { q with wait := .sleep instant (behind p (.sleep x)) }))) ∧
  (∀ (clk time : DWord) (g : Group) (due : Nat) (bits : FlagBits) (r : LateRead),
     let h := g.complete clk time { due := due, bits := bits, read := some r }
     let wide := r.kind == .clk || r.kind == .time
     let v : DWord := match r.kind with
       | .flags => 0#58 ++ (g.flags ||| bits)
       | .arm => 0#58 ++ g.arm
       | .clk => clk
       | .time => time
     h.flags = g.flags ||| bits ∧ h.uni = g.uni ∧ h.pred = g.pred ∧
       VectorWritten g h r.lanes wide r.reg (fun _ => v) ∧
       h.splits = g.splits.map (fun p => { p with holds := p.holds.filter (fun k => k.op != r.op) }))

/-- R190, R230, R231: a split of a group that is no handler enters TRAPPED at its instruction, and a record with the cause,
the lanes, the places and AUX joins its context's records: behind those of earlier cycles, and those of one cycle stand in
ascending core, quarter, group slot and split; every other group, context and byte of memory is as before. A record whose
cycle has ended enters the next free place of the ring, with a vector unless it is a SVC's. A handler stops instead, every
split of it with the one that trapped, and its burst ends with the cause and AUX. That all of a handler's splits stop together is the
model's reading (log 75), and that a context's vector has the context's number its choice (log 98). That a record enters the ring only after its cycle has ended is the model's choice (log 25),
as is that HEAD and TAIL count without wrapping and are taken modulo 256 at the ring (log 56). -/
def Obligations.TrapEntry : Prop :=
  (∀ (gi si : Nat) (c : Cause) (aux : DWord) (mask pend : LaneMask) (s : State) (g : Group) (p : Split) (cx : Ctx),
     s.group? gi = some g → g.handler = none → g.split? si = some p → s.ctx? (s.groupCtx g) = some cx →
     let t := takeTrap gi si c aux mask pend s
     let r (n : Nat) : TrapRec :=
       { cause := c, split := BitVec.ofNat 8 si, mask := mask, group := BitVec.ofNat 32 g.idx,
         block := BitVec.ofNat 32 (((s.block? g.block).map (fun b => b.lin)).getD 0), seq := BitVec.ofNat 32 (cx.head + n),
         pc := p.pc, aux := aux, consumed := false, cycle := s.cycle.toNat, order := trapOrder g si }
     let later (q : TrapRec) : Prop := s.cycle.toNat < q.cycle ∨ s.cycle.toNat = q.cycle ∧ trapOrder g si < q.order
     t.group? gi = some (g.modSplit si (fun q =>
       { q with run := .trapped, cause := some c, pend := pend, wait := .none, age := 0, reserved := false })) ∧
     (∀ j, j ≠ gi → t.group? j = s.group? j) ∧
     (∃ pre post, cx.traps = pre ++ post ∧ (∀ q ∈ pre, ¬later q) ∧ (∀ q ∈ post.head?, later q) ∧
       t.ctx? (s.groupCtx g) = some { cx with traps := pre ++ [r pre.length] ++ post.zipIdx.map (fun x =>
         { x.1 with seq := BitVec.ofNat 32 (cx.head + pre.length + 1 + x.2) }) }) ∧
     (∀ n, n ≠ s.groupCtx g → t.ctx? n = s.ctx? n) ∧ t = { s with groups := t.groups, ctxs := t.ctxs }) ∧
  (∀ (g h : Group) (si sj : Nat), g.die = h.die → g.core < 20 → h.core < 20 → g.quarter < 4 → h.quarter < 4 →
     g.place.k < 64 → h.place.k < 64 → si < 16 → sj < 16 → (trapOrder g si < trapOrder h sj ↔
       g.core < h.core ∨ g.core = h.core ∧ (g.quarter < h.quarter ∨ g.quarter = h.quarter ∧
         (g.place.k < h.place.k ∨ g.place.k = h.place.k ∧ si < sj)))) ∧
  (∀ (cn : Nat) (s : State) (cx : Ctx) (r : TrapRec), s.ctx? cn = some cx → cx.traps[cx.tail - cx.head]? = some r →
     let entered : State := { s.modCtx cn (fun c => { c with tail := c.tail + 1 }) with
       fwOut := s.fwOut ++ [.store .firmware cn (cx.trapq.toNat + 32 * (cx.tail % 256)) r.bytes] ++
         (if r.cause = .svc then [] else [.vector cn]) }
     (cx.tail - cx.head < 256 → r.cycle ≠ s.cycle.toNat → flushTraps cn 1 s = entered) ∧
     (256 ≤ cx.tail - cx.head ∨ r.cycle = s.cycle.toNat ∧ cx.state ≠ .killed → flushTraps cn 1 s = s)) ∧
  (∀ (gi si : Nat) (c : Cause) (aux : DWord) (mask pend : LaneMask) (s : State) (g : Group) (h : HandlerId),
     s.group? gi = some g → g.handler = some h →
     let t := takeTrap gi si c aux mask pend s
     t.group? gi =
       some { g with splits := [], retired := true, ended := g.present, vec := [], uni := [], pred := [], stream := none } ∧
     (∀ o, s.engine? h.op = some o → t.engine? h.op = some { o with bursts := o.bursts.map (fun b =>
       if b.seq = h.seq then { b with ended := true, fault := some (c, aux) } else b) }) ∧
     t = { s with groups := t.groups, engines := t.engines, acc := t.acc } ∧
     ∀ a ∈ t.acc, ∃ b ∈ s.acc, b.id = a.id ∧ (a.group ≠ gi → a = b))

/-- R80, R82 to R84, R233, R234, R287: the instructions that trap by themselves: TRAP and SVC with their 16-bit code, BKPT
under DEBUG, ILL and an UNIMP without a decoder with their word; a split that has called a service keeps the address behind its SVC; BKPT without DEBUG is a counted NOP, and an UNIMP with a
decoder parks its split. -/
def Obligations.TrapInstructions : Prop :=
  ∀ (x : Ext) (gd : Guard) (code : BitVec 8) (w0 : Word) (s : State) (g : Group) (p : Split),
    let b16 : DWord := BitVec.ofNat 64 ((opB g x false 0).toNat % 2 ^ 16)
    let some_ (gd : Guard) : Prop := guardLanes g p gd &&& ~~~g.helpers ≠ 0
    (Executes s g p (.trap x) → some_ x.guard →
      exec (.trap x) s = .next (trapped s g p (.trap x) .trap b16 (guardLanes g p x.guard))) ∧
    (Executes s g p (.svc x) → some_ x.guard → g.handler = none →
      exec (.svc x) s = .next ((trapped s g p (.svc x) .svc b16 (guardLanes g p x.guard)).modSplit s.curG s.curS (fun q =>
        { q with wait := .service b16.toNat (behind p (.svc x)) }))) ∧
    (Executes s g p (.svc x) → some_ x.guard → g.handler.isSome →
      exec (.svc x) s = .next (trapped s g p (.svc x) .hnd 0 (guardLanes g p x.guard))) ∧
    (Executes s g p (.bkpt gd code) → some_ gd →
      let debug := ((s.groupCtx? g).map (fun c => c.debug)).getD false
      (debug = true → exec (.bkpt gd code) s = .next (trapped s g p (.bkpt gd code) .bkpt (0#56 ++ code) (guardLanes g p gd))) ∧
      (debug = false → ∃ u, PassesBy s u g p (.bkpt gd code) ∧
        exec (.bkpt gd code) s = .next { u with perf := { s.perf with bkpt := s.perf.bkpt + 1 } })) ∧
    (Executes s g p (.ill w0) → exec (.ill w0) s = .next (takeTrap s.curG s.curS .ill (0#32 ++ w0) (p.mask &&& ~~~g.helpers)
      (unfinished g p (guardOf w0)) s)) ∧
    (Executes s g p (.unimp w0) →
      let s1 : State := { s with perf := { s.perf with unimp := s.perf.unimp + 1 } }
      if s.emuMajors.contains (majOf w0) then
        ∃ t, exec (.unimp w0) s = .next t ∧ SplitBecomes s1 t g p (fun q => { q with wait := .emulation w0 })
      else exec (.unimp w0) s = .next (trapped s1 g p (.unimp w0) .ill (0#32 ++ w0) p.mask))

/-! ## Control flow -/

/-- R26, R28, R288, R289: BRA and BRA with join send the lanes of E to the target and every other active lane behind the
instruction; BRDEC also lowers D and sends the lanes of E whose counter is not yet spent; a branch of a lane that is no
helper to an address outside .text is BRT with that address for the lanes that branch, and a join address outside .text is BRT with it
for all active lanes that are no helpers, once no target is; BRDEC then lowers no counter. -/
def Obligations.BranchesDivide : Prop :=
  ∀ (gd : Guard) (off : BitVec 19) (x : Ext) (s : State) (g : Group) (p : Split),
    let word (v : BitVec 64) : DWord := p.pc + (v <<< 2)
    let lit : DWord := x.lit.getD 0
    let target := word ((lit.extractLsb' 0 32).signExtend 64)
    let join : Option DWord :=
      if lit.extractLsb' 32 32 = 0 then none else some (word ((lit.extractLsb' 32 32).signExtend 64))
    let joinOk : Prop := ∀ a, join = some a → s.inText g a = true
    let dest (i : Instr) (goes : Nat → Bool) (t : DWord) (L : Nat) : DWord × Nat :=
      (if goes L then t else behind p i, p.depth)
    (Executes s g p (.bra gd off) →
      (s.inText g (word (off.signExtend 64)) = true → ∃ t, exec (.bra gd off) s = .next t ∧
        Divides s t g p (dest (.bra gd off) (guardLanes g p gd).getLsbD (word (off.signExtend 64))) p.joins (· = g)) ∧
      (s.inText g (word (off.signExtend 64)) = false → guardLanes g p gd &&& ~~~g.helpers ≠ 0 →
        exec (.bra gd off) s = .next (trapped s g p (.bra gd off) .brt (word (off.signExtend 64)) (guardLanes g p gd)))) ∧
    (Executes s g p (.braJoin x) → s.inText g target = true → joinOk → ∃ t, exec (.braJoin x) s = .next t ∧
      Divides s t g p (dest (.braJoin x) (guardLanes g p x.guard).getLsbD target) (joinsAfter s p join) (· = g)) ∧
    let count (L : Nat) : Word := (opD g x false L).extractLsb' 0 32 - 1
    let goes (L : Nat) : Bool := (guardLanes g p x.guard).getLsbD L &&
      (if x.ty = .s32 then decide (0 < (count L).toInt) else count L != 0)
    let leaves (i : Instr) (m : LaneMask) : Prop :=
      (s.inText g target = false → m &&& ~~~g.helpers ≠ 0 → exec i s = .next (trapped s g p i .brt target m)) ∧
      (s.inText g target = true ∨ m &&& ~~~g.helpers = 0 → ∀ a, join = some a → s.inText g a = false →
        p.mask &&& ~~~g.helpers ≠ 0 → exec i s = .next (trapped s g p i .brt a p.mask))
    (Executes s g p (.braJoin x) → leaves (.braJoin x) (guardLanes g p x.guard)) ∧
    (Executes s g p (.brdec x) → leaves (.brdec x) (maskOf goes)) ∧
    (Executes s g p (.brdec x) → p.run = .live → s.inText g target = true → joinOk → ∃ t, exec (.brdec x) s = .next t ∧
      Divides s t g p (dest (.brdec x) goes target) (joinsAfter s p join) (fun h =>
        RegistersOnly g h ∧ FlagsSame g h ∧
          DWritten g h x (guardLanes g p x.guard) false (fun L => 0#32 ++ count L)))

/-- R29, R291: BRX sends each lane of E to the table entry that its index names, relative to the instruction, when the header
is readable and, for every lane that is no helper, the index is in range, the entry is readable and the target lies in .text;
a helper whose entry gives no such target goes on behind the instruction, and a join address outside .text is BRT. A table that
is no multiple of 8, or a header with a bit of 31 to 16 set, is BRT with the table's address for every lane of E that is no
helper; an index out of range is BRT with it for every offending lane; and an entry outside .text is BRT with the lowest such address
for the lanes that it sends there. -/
def Obligations.BrxBranchesByTable : Prop :=
  ∀ (x : Ext) (s : State) (g : Group) (p : Split) (head join : Word)
      (entry : Nat → Word) (goes : Nat → Bool),
    let word (v : BitVec 64) : DWord := p.pc + (v <<< 2)
    let table := word (((x.lit.getD 0).extractLsb' 0 32).signExtend 64)
    let e := guardLanes g p x.guard
    let idx (L : Nat) : Word := (opA g x false L).extractLsb' 0 32
    let real : LaneMask := e &&& ~~~g.helpers
    let brt (m : LaneMask) : Prop := exec (.brx x) s = .next (trapped s g p (.brx x) .brt table m)
    let fetched (L : Nat) : Fetch := fetchWord s g (table + 8 + 4 * (0#32 ++ idx L)) .r
    Executes s g p (.brx x) → e ≠ 0 →
    (table.toNat % 8 ≠ 0 → real ≠ 0 → brt e) ∧
    (table.toNat % 8 = 0 → fetchWord s g table .r = .word head → fetchWord s g (table + 4) .r = .word join → real ≠ 0 →
      (head.extractLsb' 16 16 ≠ 0 → brt e) ∧
      (head.extractLsb' 16 16 = 0 → (∃ L, L < 16 ∧ real.getLsbD L = true ∧ head.toNat < (idx L).toNat) →
        (∀ L, L < 16 → real.getLsbD L = true → (idx L).toNat ≤ head.toNat → fetched L = .word (entry L)) →
        brt (maskOf (fun L => real.getLsbD L && (decide (head.toNat < (idx L).toNat) ||
          !s.inText g (word ((entry L).signExtend 64)))))) ∧
      (head.extractLsb' 16 16 = 0 →
        (∀ L, L < 16 → real.getLsbD L = true → (idx L).toNat ≤ head.toNat ∧ fetched L = .word (entry L)) →
        let to_ (L : Nat) : DWord := word ((entry L).signExtend 64)
        let out (L : Nat) : Bool := real.getLsbD L && !s.inText g (to_ L)
        ∀ M, M < 16 → out M = true → (∀ L, L < 16 → out L = true → (to_ M).toNat ≤ (to_ L).toNat) →
          exec (.brx x) s = .next (trapped s g p (.brx x) .brt (to_ M) (maskOf out)))) ∧
    (table.toNat % 8 = 0 → fetchWord s g table .r = .word head →
    fetchWord s g (table + 4) .r = .word join → head.extractLsb' 16 16 = 0 →
    (∀ L, e.getLsbD L = true →
      let read := fetchWord s g (table + 8 + 4 * (0#32 ++ idx L)) .r
      (goes L = true → (idx L).toNat ≤ head.toNat ∧ read = .word (entry L) ∧
        s.inText g (word ((entry L).signExtend 64)) = true) ∧
      (goes L = false → g.helpers.getLsbD L = true ∧ (head.toNat < (idx L).toNat ∨
        ∀ w, read = .word w → s.inText g (word (w.signExtend 64)) = false))) →
    let at_ := word (join.signExtend 64)
    (join = 0 ∨ s.inText g at_ = true → ∃ t, exec (.brx x) s = .next t ∧
      Divides s t g p (fun L =>
          (if e.getLsbD L && goes L then word ((entry L).signExtend 64) else behind p (.brx x), p.depth))
        (joinsAfter s p (if join = 0 then none else some at_)) (· = g)) ∧
    (join ≠ 0 → s.inText g at_ = false → p.mask &&& ~~~g.helpers ≠ 0 →
      exec (.brx x) s = .next (trapped s g p (.brx x) .brt at_ p.mask)))

/-- R30, R292, R293, R358: CALL and CALLX push the address behind the instruction for each lane of E and go to the target at
one more depth; RET pops it and goes there at one less; a depth above 32 and a return at depth 0 are OPR, and a target outside
.text is BRT with the lowest such address for the lanes that would go there. -/
def Obligations.CallsAndReturns : Prop :=
  ∀ (gd : Guard) (off : BitVec 19) (x : Ext) (s : State) (g : Group) (p : Split),
    let rets (gd : Guard) (f : List DWord → List DWord) (h : Group) : Prop :=
      h = { g with rets := h.rets } ∧ ∀ L, L < 16 →
        h.rets.getD L [] = if (guardLanes g p gd).getLsbD L then f (g.rets.getD L []) else g.rets.getD L []
    let dest (i : Instr) (gd : Guard) (d : Nat) (t : Nat → DWord) (L : Nat) : DWord × Nat :=
      if (guardLanes g p gd).getLsbD L then (t L, d) else (behind p i, p.depth)
    let strays (i : Instr) (gd : Guard) (target : Nat → DWord) : Prop :=
      let out (L : Nat) : Bool := (guardLanes g p gd &&& ~~~g.helpers).getLsbD L && !s.inText g (target L)
      ∀ M, M < 16 → out M = true → (∀ L, L < 16 → out L = true → (target M).toNat ≤ (target L).toNat) →
        exec i s = .next (trapped s g p i .brt (target M) (maskOf out))
    let calls (i : Instr) (gd : Guard) (target : Nat → DWord) : Prop := Executes s g p i → guardLanes g p gd ≠ 0 →
      (p.depth < 32 → strays i gd target) ∧
      (p.depth < 32 → (∀ L, (guardLanes g p gd).getLsbD L = true → s.inText g (target L) = true) →
        ∃ t, exec i s = .next t ∧
          Divides s t g p (dest i gd (p.depth + 1) target) p.joins (rets gd (fun r => behind p i :: r))) ∧
      (32 ≤ p.depth → exec i s = .next (trapped s g p i .opr (0#32 ++ word0 i) (guardLanes g p gd)))
    calls (.call gd off) gd (fun _ => p.pc + (off.signExtend 64 <<< 2)) ∧
    calls (.callx x) x.guard (fun L => opA g x true L) ∧
    (Executes s g p (.ret gd) → guardLanes g p gd ≠ 0 →
      let back (L : Nat) : DWord := (g.rets.getD L []).headD 0
      (p.depth ≠ 0 → strays (.ret gd) gd back) ∧
      (p.depth ≠ 0 → (∀ L, (guardLanes g p gd).getLsbD L = true → s.inText g (back L) = true) →
        ∃ t, exec (.ret gd) s = .next t ∧
          Divides s t g p (dest (.ret gd) gd (p.depth - 1) back) p.joins (rets gd List.tail)) ∧
      (p.depth = 0 → exec (.ret gd) s = .next (trapped s g p (.ret gd) .opr (0#32 ++ word0 (.ret gd)) (guardLanes g p gd))))

/-! ## Waiting, barriers and the end of lanes -/

/-- R186, R187: WAITC goes on when every counter that it names is at or below its bound and waits otherwise; a pending fault
that it covers is taken at it first. That of several such faults the oldest is taken is the model's choice (log 74). -/
def Obligations.WaitcWaitsForCounters : Prop :=
  ∀ (gd : Guard) (t c s_ l : BitVec 4) (s : State) (g : Group) (p : Split),
    let i : Instr := .waitc gd t c s_ l
    let within (bound : BitVec 4) (n : Nat) : Prop := bound = 15 ∨ n ≤ bound.toNat
    let covers (f : PendingFault) : Bool := f.mmag.isSome || (if f.classC then c != 15 else t != 15)
    Executes s g p i →
      (guardLanes g p gd = 0 → ∃ u, exec i s = .next u ∧ PassesBy s u g p i) ∧
      (guardLanes g p gd ≠ 0 → (∀ f ∈ g.faults, covers f = false) → ∃ u, exec i s = .next u ∧
        (within t g.cntT ∧ within c g.cntC ∧ within s_ g.cntS ∧ within l g.cntL → PassesBy s u g p i) ∧
        (¬(within t g.cntT ∧ within c g.cntC ∧ within s_ g.cntS ∧ within l g.cntL) → SplitBecomes s u g p (fun q =>
          { q with wait := .waitc t.toNat c.toNat s_.toNat l.toNat, age := 0, reserved := false }))) ∧
      ∀ f, guardLanes g p gd ≠ 0 → g.faults.find? covers = some f →
        exec i s = .next (trapped (s.modGroup s.curG (fun g => { g with faults := g.faults.erase f })) g p i f.cause f.aux
          (guardLanes g p gd))

/-- R47 to R49, R113, R284, R294: BAR, and CBAR of a concurrent launch, arrive at their barrier, whose watchdog count starts
from zero with its first waiter, and every barrier that this completes is released; armed flags that are set make them ARITH,
then a handler makes them HND, and before both a launch that is not concurrent makes CBAR PROT. A barrier of a block is released
when every split of every group of the block that has not retired and is no handler waits at it, one of CBAR when every such split of
every block of the cohort does, and then each of those splits stands behind its instruction; otherwise nothing changes. That CBAR's
PROT comes before HND also in a handler is the model's reading (log 59). -/
def Obligations.BarriersArrive : Prop :=
  (∀ (x : Ext) (s : State) (g : Group) (p : Split),
     let armed : FlagBits := g.inflight.foldl (fun f m => f ||| m.bits) g.flags &&& g.arm
     let quiet : Prop := ∀ f ∈ g.faults, f.mmag = none
     let e := guardLanes g p x.guard
     let arrives (i : Instr) (id : Nat) (w : Wait) : Prop :=
       let others : Prop :=
         ∃ h ∈ s.groups, h.block ∈ barrierSpan s g.block id ∧ ∃ q ∈ h.splits, waitsAt id q = true
       (quiet → armed = 0 → g.handler = none → ∃ u v, exec i s = .next (releaseBarriers g.block u) ∧
         u = { v with blocks := u.blocks } ∧
         SplitBecomes s v g p (fun q => { q with wait := w, since := s.now, age := 0, reserved := false }) ∧
         (others → u.blocks = s.blocks) ∧ (¬others → u.blocks = (s.modBlock (barrierKeeper s g.block id) (fun b =>
           { b with barCount := b.barCount.put 0 id 0 })).blocks)) ∧
       (quiet → armed ≠ 0 → exec i s = .next (trapped s g p i .arith (0#58 ++ armed) e)) ∧
       (quiet → armed = 0 → g.handler.isSome → exec i s = .next (trapped s g p i .hnd 0 e))
     let whole : Bool := ((s.groupLaunch? g).map (fun l => l.desc.progress == 0)).getD false
     (Executes s g p (.bar x) → arrives (.bar x) (x.var.toNat % 16) (.bar (x.var.toNat % 16))) ∧
     (Executes s g p (.cbar x) →
       (whole = true → arrives (.cbar x) (16 + x.var.toNat % 4) (.cbar (x.var.toNat % 4))) ∧
       (whole = false → exec (.cbar x) s = .next (trapped s g p (.cbar x) .prot 0 e)))) ∧
  (∀ (bi id : Nat) (s : State) (b : Block), s.block? bi = some b →
     let dies : Nat := (((s.launch? b.launch).bind (fun l => s.ctx? l.ctx)).map (fun c => c.bind.length)).getD 1
     let spans (bj : Nat) : Prop := if id < 16 then bj = bi else
       ∃ d, s.block? bj = some d ∧ d.launch = b.launch ∧ d.lin % dies = b.lin % dies
     let counts (g : Group) : Prop := g ∈ s.groups ∧ spans g.block ∧ g.retired = false ∧ g.handler = none
     let t := releaseBarrier bi id s
     ((∃ g, counts g ∧ ∃ p ∈ g.splits, waitsAt id p = true) → (∀ g, counts g → ∀ p ∈ g.splits, waitsAt id p = true) →
       ∀ gi g, s.group? gi = some g → (¬spans g.block → t.group? gi = some g) ∧
         (spans g.block → t.group? gi = some
           { g with splits := g.splits.map (fun p => if waitsAt id p then p.goto (p.pc + 12) else p) })) ∧
     ((∃ g, counts g ∧ ∃ p ∈ g.splits, waitsAt id p = false) → t = s))

/-- R32, R187, R305: EXIT ends the lanes of E: they leave their splits, and the group retires with its last lane that is no
helper; a last lane waits for the group's counters first, and then takes a pending fault at the EXIT with its lanes not ended.
Before that armed flags that are set make EXIT ARITH, and a handler makes it HND; a split that has waited so is not checked for armed
flags again. That of several pending faults the oldest is taken is the
model's choice (log 74). -/
def Obligations.ExitEndsLanes : Prop :=
  ∀ (gd : Guard) (s : State) (g : Group) (p : Split),
    let e := guardLanes g p gd
    let last : Prop := g.present &&& ~~~g.helpers &&& ~~~g.ended &&& ~~~e = 0
    let zero : Prop := g.cntL = 0 ∧ g.cntS = 0 ∧ g.cntC = 0 ∧ g.cntT = 0
    let armed : FlagBits := g.inflight.foldl (fun f m => f ||| m.bits) g.flags &&& g.arm
    let quiet : Prop := ∀ f ∈ g.faults, f.mmag = none
    (Executes s g p (.exit gd) → e ≠ 0 → p.wait ≠ .retire → quiet → armed ≠ 0 →
      exec (.exit gd) s = .next (trapped s g p (.exit gd) .arith (0#58 ++ armed) e)) ∧
    (Executes s g p (.exit gd) → e ≠ 0 → p.wait = .retire ∨ quiet ∧ armed = 0 → g.handler.isSome = true →
      exec (.exit gd) s = .next (trapped s g p (.exit gd) .hnd 0 e)) ∧
    (Executes s g p (.exit gd) → e ≠ 0 → g.handler = none → p.wait = .retire ∨ quiet ∧ armed = 0 →
      ((last → zero ∧ g.faults = []) → ∃ u h, exec (.exit gd) s = .next (releaseBarriers g.block u) ∧
        OnlyGroup s u s.curG ∧ u.group? s.curG = some h ∧ (∀ L, e.getLsbD L = true → h.ended.getLsbD L = true) ∧
        (∀ q ∈ h.splits, q.mask &&& e = 0) ∧ (last → h.retired = true ∧ h.splits = []) ∧
        (¬last → h.retired = g.retired ∧ h.vec = g.vec ∧ h.uni = g.uni ∧ h.pred = g.pred)) ∧
      (last → ¬zero → ∃ t, exec (.exit gd) s = .next t ∧
        SplitBecomes s t g p (fun q => { q with wait := .retire, age := 0, reserved := false })) ∧
      ∀ f rest, last → zero → g.faults = f :: rest → exec (.exit gd) s =
        .next (trapped (s.modGroup s.curG (fun g => { g with faults := rest })) g p (.exit gd) f.cause f.aux e))

/-- R128, R190 to R192, R318: HEND of a handler's last split ends the handler when its counters are zero and it has no fault: its
flags enter the issuing group's, whether or not its operation still stands, and its burst has ended; with the request's last
handler the event line is written and full. A split of several ends its lanes alone; counters that are not zero make it wait,
and a fault met in that wait stops the handler; outside a handler it is HND. That of several such faults the oldest stops it (log 74),
and that flags and event line are written in HEND's own step, whether or not the request has ended (log 48), are the model's choices. -/
def Obligations.HendEndsHandler : Prop :=
  ∀ (s : State) (g : Group) (p : Split), Executes s g p .hend →
    (g.handler = none → exec .hend s = .next (trapped s g p .hend .hnd 0 (guardLanes g p ⟨false, 15⟩))) ∧
    (∀ h, g.handler = some h →
      let zero : Prop := g.cntL = 0 ∧ g.cntS = 0 ∧ g.cntC = 0
      (¬zero → ∃ t, exec .hend s = .next t ∧
        SplitBecomes s t g p (fun q => { q with wait := .retire, age := 0, reserved := false })) ∧
      (∀ f rest, zero → g.faults = f :: rest → exec .hend s = .next (takeTrap s.curG s.curS f.cause f.aux 0 0 s)) ∧
      (zero → g.faults = [] → p.pend = 0 → (∃ q ∈ g.splits, q.mask &&& ~~~p.mask ≠ 0) → ∃ t y, exec .hend s = .next t ∧
        OnlyGroup s t s.curG ∧ t.group? s.curG = some y ∧ y = { g with ended := y.ended, splits := y.splits, rets := y.rets } ∧
        y.ended = g.ended ||| p.mask ∧
        y.splits = (g.splits.map (fun q => { q with mask := q.mask &&& ~~~p.mask })).filter (fun q => q.mask != 0)) ∧
      ∀ o line tag entry b, zero → g.faults = [] → g.splits = [p] → p.pend = 0 → h.issuer ≠ s.curG →
        s.engine? h.op = some o → (∀ q ∈ s.engines, q.id = h.op → q = o) → o.group = h.issuer →
        (∀ x, s.group? h.issuer = some x → x.handler = none) → o.kind = .ldh line tag entry → o.fault = none →
        o.readAll = true → (s.block? o.block).isSome = true → (∀ c ∈ o.bursts, c.born = true ∧ (c.seq = h.seq ∨ c.ended = true)) →
        (∀ c ∈ o.bursts, c.fault = none) → b ∈ o.bursts → b.seq = h.seq → o.bursts.length < 2 ^ 32 →
        (∀ a ∈ s.acc, a.done = true) → s.orbitOps = [] → (∀ q ∈ s.engines, q.id ≠ h.op → q.finished = true) →
        ∃ t q, exec .hend s = .next t ∧ t.engine? h.op = some q ∧ q.sresv = [] ∧ q.swritesDone = [line] ∧
          t.lineFull o.block line = true ∧ t.lineTag o.block line = o.swz % 8 ∧ t.mem = s.mem ∧
          let field (off : Nat) : Nat := natLE ((List.range 4).map (fun j => t.spadGet o.block (128 * line + off + j)))
          field 0 = o.bursts.length ∧ field 4 = (o.bursts.map (fun c => c.valid)).sum % 2 ^ 32 ∧ field 8 = 0 ∧
          field 12 = 0xFFFF_FFFF ∧ field 16 = 0 ∧ field 20 = tag.toNat ∧
          ∀ j, 24 ≤ j → j < 128 → t.spadGet o.block (128 * line + j) = 0) ∧
    ∀ h x, g.handler = some h → g.cntL = 0 → g.cntS = 0 → g.cntC = 0 → g.faults = [] → g.splits = [p] → p.pend = 0 →
      h.issuer ≠ s.curG → s.group? h.issuer = some x →
      (∀ o, s.engine? h.op = some o → ∃ b ∈ o.bursts, b.seq ≠ h.seq ∧ b.ended = false) →
      ∃ t y, exec .hend s = .next t ∧ t.group? s.curG = some y ∧ y.retired = true ∧ y.splits = [] ∧
        t.group? h.issuer = some { x with flags := x.flags ||| g.inflight.foldl (fun f m => f ||| m.bits) g.flags } ∧
        (∀ j, j ≠ s.curG → j ≠ h.issuer → t.group? j = s.group? j) ∧
        t.engine? h.op = (s.engine? h.op).map (fun o =>
          { o with bursts := o.bursts.map (fun b => if b.seq = h.seq then { b with ended := true } else b) }) ∧
        t = { s with groups := t.groups, engines := t.engines }

/-! ## Memory -/

/-- R131 to R135, R184, R282, R283, R325 to R331, R361, R365: the memory instructions of lanes whose addresses all reach a
place issue one access of every lane of E that is no helper, at the addresses and with the data of their rules; helper lanes
of a load receive zero; LDS alone makes its split wait. With no such lane in E an instruction makes no access and goes on. -/
def Obligations.LaneAccessesIssue : Prop :=
  ∀ (x : Ext) (s : State) (g : Group) (p : Split),
    let n := 2 ^ Fields.sz x
    let w := 4 * x.ty.regs
    let hold (file first count : Nat) : Hold := { op := 0, file := file, first := first, count := count }
    let dst (n : Nat) : List Hold := [hold (if x.dU then 1 else 0) x.d.toNat ((n + 3) / 4)]
    let stored (n L : Nat) : BitVec 128 := BitVec.ofNat 128 (((List.range ((n + 3) / 4)).map (fun j =>
      2 ^ (32 * j) * ((if x.dU then g.uget (x.d.toNat + j) else g.vget (x.d.toNat + j) L)).toNat)).sum % 2 ^ (8 * n))
    let zero : Nat → BitVec 128 := fun _ => 0
    let none_ : Nat → DWord := fun _ => 0
    let repl (L : Nat) : DWord := g.rget false x.ty.wide (x.d.toNat + x.ty.regs) L
    let issues (i : Instr) (f : AccessForm) (regs : Group → Prop) : Prop := guardLanes g p x.guard &&& g.ended = 0 →
      (Executes s g p i → realLanes g p x.guard = 0 → ∃ t h, exec i s = .next t ∧ OnlyGroup s t s.curG ∧
        t.group? s.curG = some h ∧ Continues g h p (behind p i) ∧ regs h ∧
        h = { g with vec := h.vec, pred := h.pred, splits := h.splits }) ∧
      (Executes s g p i → NoneParked s p → AllReach f →
        (f.check = checkScratch s g f.bytes →
          ∀ k ∈ g.faults, ∀ L ∈ f.lanes, (f.addr L).toNat / 128 ∉ k.lines) →
        (∀ k ∈ g.faults, ∀ L ∈ f.lanes, ∀ pa, f.check (f.addr L) = .ok .window pa →
          k.covers s s.curG g pa = false) →
        ∃ t, exec i s = .next t ∧ AccessJoins s t g p i f regs)
    let form := laneForm s g p x
    issues (.ld x) (form .ld n .l false zero none_ (dst n)) (fun h => HelpersZero g h p x n none) ∧
    issues (.st x) (form .st n .s false (stored n) none_ []) (fun h => h.vec = g.vec ∧ h.pred = g.pred) ∧
    issues (.lds x) (form .lds n .l true zero none_ (dst n)) (fun h => HelpersZero g h p x n none) ∧
    issues (.sts x) (form .sts n .s true (stored n) none_ []) (fun h => h.vec = g.vec ∧ h.pred = g.pred) ∧
    issues (.ldx x) (form (.ldx (Fields.varHi x)) w .l true zero none_ (dst w ++ [hold 2 (Fields.varHi x) 1]))
      (fun h => HelpersZero g h p x w (some (Fields.varHi x))) ∧
    issues (.atom x) (form (.atom (Fields.varHi x)) w .l false (stored w) repl (dst w))
      (fun h => HelpersZero g h p x w none) ∧
    issues (.atoms x) (form (.atoms (Fields.varHi x)) w .l true (stored w) repl (dst w))
      (fun h => HelpersZero g h p x w none) ∧
    issues (.sempty x) (form .sempty 1 .s true (stored 1) none_ []) (fun h => h.vec = g.vec ∧ h.pred = g.pred) ∧
    issues (.sfill x) (form (.sfill (Fields.sz x)) 1 .s true (stored 1) none_ [])
      (fun h => h.vec = g.vec ∧ h.pred = g.pred) ∧
    issues (.sfe x) (form (.sfe (x.d.toNat % 16)) 1 .uncounted true zero none_ [hold 2 (x.d.toNat % 16) 1])
      (fun h => HelpersZero g h p x 0 (some (x.d.toNat % 16)))

/-- R50, R302 to R304, R330: LDU, EVSIG and EVWAIT issue one access for their split, by its lowest lane of E that is no
helper; LDU does so where it reaches nothing that a faulted operation left unfinished; EVSIG and EVWAIT make the split wait
for it. With no such lane in E they make no access and go on, and LDU of helpers alone writes zero. -/
def Obligations.SplitAccessesIssue : Prop :=
  ∀ (x : Ext) (s : State) (g : Group) (p : Split),
    let lane : List Nat := (lanesOf (realLanes g p x.guard)).take 1
    let n := 2 ^ Fields.sz x
    let load : AccessForm :=
      { kind := .ldu, bytes := n, ty := x.ty, d := x.d.toNat, ctr := .l, lanes := lane, addr := effAddr g x, check := checkVirtual s g .ldu n,
        data := fun _ => 0, data2 := fun _ => 0,
        holds := [{ op := 0, file := if x.dU then 1 else 0, first := x.d.toNat, count := (n + 3) / 4 }], stays := false }
    let event (kd : AccKind) : AccessForm :=
      { kind := kd, bytes := 8, ty := .u64, d := 0, ctr := .uncounted, lanes := lane, addr := fun _ => g.rget true true x.a.toNat 0,
        check := checkVirtual s g kd 8, data := fun _ => 0, data2 := fun _ => opB g x x.ty.wide 0, holds := [],
        stays := true }
    let issues (i : Instr) (f : AccessForm) : Prop := Executes s g p i → NoneParked s p → AllReach f →
      (i = .ldu x → ∀ k ∈ g.faults, ∀ L ∈ f.lanes, ∀ pa, f.check (f.addr L) = .ok .window pa →
        k.covers s s.curG g pa = false) →
      ∃ t, exec i s = .next t ∧ AccessJoins s t g p i f (fun h => h.vec = g.vec ∧ h.pred = g.pred)
    let none_ (i : Instr) : Prop := Executes s g p i → realLanes g p x.guard = 0 →
      (i = .ldu x → guardLanes g p x.guard = 0) → ∃ t, exec i s = .next t ∧ PassesBy s t g p i
    issues (.ldu x) load ∧ issues (.evsig x) (event .evsig) ∧ issues (.evwait x) (event .evwait) ∧
    none_ (.ldu x) ∧ none_ (.evsig x) ∧ none_ (.evwait x) ∧
    (Executes s g p (.ldu x) → realLanes g p x.guard = 0 → guardLanes g p x.guard ≠ 0 → g.retired = false →
      ∃ t h, exec (.ldu x) s = .next t ∧ OnlyGroup s t s.curG ∧ t.group? s.curG = some h ∧
        Continues g h p (behind p (.ldu x)) ∧ h = { g with uni := h.uni, splits := h.splits } ∧
        ∀ r, h.uget r = if x.d.toNat ≤ r ∧ r < x.d.toNat + (n + 3) / 4 then 0 else g.uget r)

/-- R121, R125, R132, R138: an aligned address below 2^57 that no cached translation covers reaches the place that its
context's mapping gives when the mapping grants the access and the page is present; a misaligned one is MAL, one that no
mapping covers PF, one without the grant PROT whether its page is present or not; and a lane that is no helper with a misaligned address makes LD and ST trap
with the lowest one, before any lane is performed and with every register unchanged. -/
def Obligations.AddressChecks : Prop :=
  ∀ (s : State) (g : Group) (kd : AccKind) (n : Nat) (va : DWord) (c : Ctx) (m : Mapping), 0 < n →
    let uncached : Prop := s.tlbFind g.die g.lanesTlb (s.groupCtx g) va.toNat = none
    (va.toNat % n ≠ 0 → checkVirtual s g kd n va = .mal) ∧
    (va.toNat % n = 0 → 2 ^ 57 ≤ va.toNat → checkVirtual s g kd n va = .prot) ∧
    (va.toNat % n = 0 → va.toNat < 2 ^ 57 → uncached → s.ctx? (s.groupCtx g) = some c →
      (mapFind c.maps va.toNat = none → checkVirtual s g kd n va = .pf) ∧
      (mapFind c.maps va.toNat = some m → m.grants kd.need = false →
        checkVirtual s g kd n va = .prot) ∧
      (mapFind c.maps va.toNat = some m → c.present m va.toNat = true → m.grants kd.need = true → m.host = false →
        m.window = false → (kd.need ≠ .r → c.ccb.toNat / 4096 ≠ va.toNat / 4096) → checkVirtual s g kd n va = .ok .hbm (m.target + (va.toNat - m.va)))) ∧
    ∀ (x : Ext) (p : Split) (i : Instr), (i = .ld x ∧ kd = .ld) ∨ (i = .st x ∧ kd = .st) → Executes s g p i →
      n = 2 ^ Fields.sz x → (∀ f ∈ g.faults, ∀ L pa, checkVirtual s g kd n (effAddr g x L) = .ok .window pa →
        f.covers s s.curG g pa = false) →
      let bad : LaneMask := maskOf (fun L => (realLanes g p x.guard).getLsbD L &&
        checkVirtual s g kd n (effAddr g x L) == .mal)
      bad ≠ 0 → ∃ u a, exec i s = .next (takeTrap s.curG s.curS .mal a bad (unfinished g p (guardOf (word0 i))) u) ∧ u.mem = s.mem ∧
        (u.group? s.curG).map (fun h => (h.vec, h.uni, h.pred)) = some (g.vec, g.uni, g.pred) ∧
        (∀ y ∈ u.acc, ∃ z ∈ s.acc, z.id = y.id) ∧
        ∃ L, bad.getLsbD L = true ∧ a = effAddr g x L ∧
          ∀ M, bad.getLsbD M = true → (effAddr g x L).toNat ≤ (effAddr g x M).toNat

/-- R123, R147, R148, R156, R167, R304, R365: a lane of ST that may be performed stores the low bytes of its data at its
address in HBM, or as a posted write at the host address that its bus address translates to; every other byte of both, and every register of every group, is as before, and a split that waits for an event
word which the store makes great enough goes on while the word's address still leads there. -/
def Obligations.StoresPerform : Prop :=
  ∀ (id lane : Nat) (s : State) (a : Access) (l : LaneAcc) (g : Group), Performing s id lane a l g → a.kind = .st →
    let byte (k : Nat) : Byte := BitVec.ofNat 8 (l.data.toNat / 2 ^ (8 * k))
    let stored (pa : Nat) (old : Byte) : Byte := if l.addr ≤ pa ∧ pa < l.addr + a.bytes then byte (pa - l.addr) else old
    (l.space = .hbm → ∃ t, exec (.storePerformed id lane) s = .next t ∧ (∀ pa, t.memGet pa = stored pa (s.memGet pa)) ∧
      t.hostMem = s.hostMem ∧ t.posted = s.posted ∧ t.blocks = s.blocks ∧ t.ctxs = s.ctxs ∧ RegistersSame s t ∧
      ∀ gi h q va wpa ge nxt, s.group? gi = some h → (h.splits.map (fun q => q.idx)).Nodup → q ∈ h.splits →
        q.wait = .evwait va wpa ge nxt → wpa < l.addr + a.bytes → l.addr < wpa + 8 → ge.toNat ≤ natLE (t.memBytes wpa 8) →
        xlate s h.die h.lanesTlb (s.groupCtx h) va .r = .ok .hbm wpa → GoesOn t gi q.idx nxt) ∧
    (l.space = .host → l.addr % 4096 + a.bytes ≤ 4096 → ∃ t, exec (.storePerformed id lane) s = .next t ∧
      (let to_ := s.hostPa l.addr
       ∀ pa, t.hostGet pa = if to_ ≤ s.hostPa pa ∧ s.hostPa pa < to_ + a.bytes then byte (s.hostPa pa - to_)
         else s.hostGet pa) ∧
      t.mem = s.mem ∧ t.hostMem = s.hostMem ∧ t.posted.drop a.bytes = s.posted ∧ t.blocks = s.blocks ∧ t.ctxs = s.ctxs ∧
      RegistersSame s t)

/-- R65, R123, R134, R147, R184, R185, R326, R327: a lane of LD that may be performed receives the bytes at its place, extended to
its register by the type's sign, and memory is as before; the last lane of a group's only such access lowers L, and a lane that
has ended keeps its registers. A lane of ATOM on HBM, and of ADD, SWP or CAS at a host address, receives the old value there and
leaves the operation's, as the operations over words and pairs say. That the newest posted write to a host address is what the device reads is the model's choice (log 9). -/
def Obligations.LoadsPerform : Prop :=
  AtomicValues ∧ ∀ (id lane : Nat) (s : State) (a : Access) (l : LaneAcc) (g : Group), Performing s id lane a l g →
    g.present.getLsbD lane = true → a.bytes ∈ [1, 2, 4, 8, 16] →
    let old := placeValue s a g l
    let new (op : Nat) : Nat := (atomNew op a.ty old (l.data.toNat % 2 ^ (8 * a.bytes))
      (l.data2.toNat % 2 ^ (8 * a.bytes))).1 % 2 ^ (8 * a.bytes)
    (a.kind = .ld → g.ended.getLsbD lane = true → ∃ t h, exec (.loadDataReturn id lane) s = .next t ∧
      t.group? a.group = some h ∧ h.vec = g.vec ∧ h.uni = g.uni ∧ h.pred = g.pred ∧ MemorySame s t) ∧
    (g.ended.getLsbD lane = false →
    (a.kind = .ld → ∃ t h, exec (.loadDataReturn id lane) s = .next t ∧ t.group? a.group = some h ∧
      LaneReceives g h a lane (extended a old) ∧ h.uni = g.uni ∧ h.pred = g.pred ∧ MemorySame s t ∧
      ∀ pre post, s.acc = pre ++ a :: post →
        (∀ b ∈ pre ++ post, b.id ≠ a.id ∧ ¬ (b.group = a.group ∧ b.ctr = .l)) → a.ctr = .l → LastLane a lane →
        h.cntL = g.cntL - 1 ∧ ∀ b ∈ t.acc, b.id ≠ a.id) ∧
    (∀ op, a.kind = .atom op → l.space = .hbm → a.bytes = 4 ∨ a.bytes = 8 → ∃ t h,
      exec (.loadDataReturn id lane) s = .next t ∧ t.group? a.group = some h ∧ LaneReceives g h a lane old ∧
      h.uni = g.uni ∧ h.pred = g.pred ∧ (∀ pa, pa < l.addr ∨ l.addr + a.bytes ≤ pa → t.memGet pa = s.memGet pa) ∧
      natLE (t.memBytes l.addr a.bytes) = new op ∧ t.hostMem = s.hostMem ∧
      t.posted = s.posted ∧ t.blocks = s.blocks) ∧
    ∀ op, a.kind = .atom op → op ∈ [0, 6, 7] → l.space = .host → a.bytes = 4 ∨ a.bytes = 8 → l.addr % 4096 + a.bytes ≤ 4096 →
      ∃ t h, exec (.loadDataReturn id lane) s = .next t ∧ t.group? a.group = some h ∧ LaneReceives g h a lane old ∧
      h.uni = g.uni ∧ h.pred = g.pred ∧ t.mem = s.mem ∧ t.hostMem = s.hostMem ∧ t.blocks = s.blocks ∧
      let to_ := s.hostPa l.addr
      ∀ pa, t.hostGet pa = if to_ ≤ s.hostPa pa ∧ s.hostPa pa < to_ + a.bytes then
        BitVec.ofNat 8 (new op / 2 ^ (8 * (s.hostPa pa - to_))) else s.hostGet pa)

/-- R123, R147, R302 to R304, R330: LDU receives the bytes at its place in the uniform registers from D on; EVSIG adds B to the
event word, on HBM or in host memory, modulo 2^64 and its split goes on; EVWAIT goes on when the word has reached B and otherwise waits for it, with no
byte of memory changed. -/
def Obligations.SplitAccessesPerform : Prop :=
  ∀ (id lane : Nat) (s : State) (a : Access) (l : LaneAcc) (g : Group), Performing s id lane a l g →
    let old := placeValue s a g l
    (a.kind = .ldu → g.retired = false → a.bytes ∈ [1, 2, 4, 8, 16] → ∃ t h, exec (.loadDataReturn id lane) s = .next t ∧
      t.group? a.group = some h ∧
      (∀ r, h.uget r = if a.d ≤ r ∧ r < a.d + (a.bytes + 3) / 4 then
        BitVec.ofNat 32 (extended a old / 2 ^ (32 * (r - a.d))) else g.uget r) ∧
      h.vec = g.vec ∧ h.pred = g.pred ∧ MemorySame s t) ∧
    ∀ p, a.bytes = 8 → g.split? a.split = some p → p.wait = .access id →
      (a.kind = .evsig → l.space = .hbm → (g.splits.map (fun q => q.idx)).Nodup → ∃ t,
        exec (.loadDataReturn id lane) s = .next t ∧ GoesOn t a.group a.split a.next ∧
        natLE (t.memBytes l.addr 8) = (old + l.data2.toNat) % 2 ^ 64 ∧
        (∀ pa, pa < l.addr ∨ l.addr + 8 ≤ pa → t.memGet pa = s.memGet pa) ∧ t.hostMem = s.hostMem ∧
        t.posted = s.posted ∧ t.blocks = s.blocks ∧ t.ctxs = s.ctxs ∧ RegistersSame s t) ∧
      (a.kind = .evsig → l.space = .host → l.addr % 4096 + 8 ≤ 4096 → (g.splits.map (fun q => q.idx)).Nodup → ∃ t,
        exec (.loadDataReturn id lane) s = .next t ∧ GoesOn t a.group a.split a.next ∧ t.mem = s.mem ∧
        t.hostMem = s.hostMem ∧ t.blocks = s.blocks ∧ t.ctxs = s.ctxs ∧ RegistersSame s t ∧
        let to_ := s.hostPa l.addr
        ∀ pa, t.hostGet pa = if to_ ≤ s.hostPa pa ∧ s.hostPa pa < to_ + 8 then
          BitVec.ofNat 8 ((old + l.data2.toNat) % 2 ^ 64 / 2 ^ (8 * (s.hostPa pa - to_))) else s.hostGet pa) ∧
      (a.kind = .evwait → ∃ t, exec (.loadDataReturn id lane) s = .next t ∧ MemorySame s t ∧ RegistersSame s t ∧
        (l.data2.toNat ≤ old → GoesOn t a.group a.split a.next) ∧
        (old < l.data2.toNat → ∃ h q, t.group? a.group = some h ∧ h.split? a.split = some q ∧
          q.wait = .evwait l.va l.addr l.data2 a.next ∧ q.pc = p.pc))

/-- R128, R130, R134, R159, R329, R331, R361, R362: LDS reads a full line and its split goes on with the last lane, or waits on
an empty one; LDX reads bytes and FULL together; SFE reads FULL; ATOMS changes bytes alone; STS stores bytes and fills the
line; SEMPTY and SFILL change its state alone; a fill performs the lanes of LDS that wait on the line. The LDS here uses no line that a
faulted operation of its group has left unwritten. -/
def Obligations.BankAccessesPerform : Prop :=
  AtomicValues ∧ ∀ (id lane : Nat) (s : State) (a : Access) (l : LaneAcc) (g : Group), Performing s id lane a l g →
    g.present.getLsbD lane = true → g.ended.getLsbD lane = false → a.bytes ∈ [1, 2, 4, 8, 16] → l.space = .scratch → (s.block? g.block).isSome = true →
    let old := placeValue s a g l
    let bi := g.block
    let line := l.addr / 128
    let full := s.lineFull bi line
    let reads (post : State → Group → Prop) : Prop := ∃ t h, exec (.loadDataReturn id lane) s = .next t ∧
      t.group? a.group = some h ∧ h.uni = g.uni ∧ MemorySame s t ∧ post t h
    let fills (post : State → Prop) : Prop := ∃ t, exec (.storePerformed id lane) s = .next t ∧ t.mem = s.mem ∧
      t.hostMem = s.hostMem ∧ t.ctxs = s.ctxs ∧ (∀ bj, bj ≠ bi → t.block? bj = s.block? bj) ∧
      (∀ m, m ≠ line → t.lineGet bi m = s.lineGet bi m) ∧ (full = true → RegistersSame s t) ∧ post t
    let onlyLdsWaits : Prop := ∀ w ∈ s.acc, ∀ m ∈ w.lanes, m.stage = .waitingEmpty → w.kind = .lds
    let wakes (t : State) : Prop := full = false → ∀ w ∈ s.acc, ∀ gw, s.group? w.group = some gw → gw.block = bi →
      ∀ m ∈ w.lanes, m.stage = .waitingEmpty → m.addr / 128 = line →
        ∀ w' ∈ t.acc, w'.id = w.id → ∀ m' ∈ w'.lanes, m'.lane = m.lane → m'.stage = .done
    (a.kind = .lds → (∀ f ∈ g.faults, line ∉ f.lines) → full = true → reads (fun t h => LaneReceives g h a lane (extended a old) ∧ h.pred = g.pred ∧
      ∀ p, LastLane a lane → g.split? a.split = some p → p.wait = .access id → GoesOn t a.group a.split a.next)) ∧
    (a.kind = .lds → (∀ f ∈ g.faults, line ∉ f.lines) → full = false → ∃ t b, exec (.loadDataReturn id lane) s = .next t ∧ t = { s with acc := t.acc } ∧
      t.access? id = some b ∧ b.waitFrom = some (a.waitFrom.getD s.now) ∧
      b.lanes = a.lanes.map (fun m => if m.lane = lane then { m with stage := .waitingEmpty } else m)) ∧
    (∀ pd, a.kind = .ldx pd → reads (fun _ h => LaneReceives g h a lane (if full then old else 0) ∧
      LanePredicate g h pd lane full)) ∧
    (∀ pd, a.kind = .sfe pd → reads (fun _ h => h.vec = g.vec ∧ LanePredicate g h pd lane full)) ∧
    (∀ op, a.kind = .atoms op → a.bytes = 4 ∨ a.bytes = 8 → ∃ t h, exec (.loadDataReturn id lane) s = .next t ∧
      t.group? a.group = some h ∧ LaneReceives g h a lane old ∧ h.uni = g.uni ∧ h.pred = g.pred ∧
      t.mem = s.mem ∧ t.hostMem = s.hostMem ∧ (∀ m, t.lineGet bi m = s.lineGet bi m) ∧
      (∀ off, off < l.addr ∨ l.addr + a.bytes ≤ off → t.spadGet bi off = s.spadGet bi off) ∧
      natLE ((List.range a.bytes).map (fun k => t.spadGet bi (l.addr + k))) =
        (atomNew op a.ty old (l.data.toNat % 2 ^ (8 * a.bytes)) (l.data2.toNat % 2 ^ (8 * a.bytes))).1 %
          2 ^ (8 * a.bytes)) ∧
    (a.kind = .sts → full = true ∨ onlyLdsWaits → fills (fun t => t.lineFull bi line = true ∧
      t.lineTag bi line = s.lineTag bi line ∧ wakes t ∧
      ∀ off, t.spadGet bi off = if l.addr ≤ off ∧ off < l.addr + a.bytes then
        BitVec.ofNat 8 (l.data.toNat / 2 ^ (8 * (off - l.addr))) else s.spadGet bi off)) ∧
    (a.kind = .sempty → fills (fun t => t.lineFull bi line = false ∧ t.lineTag bi line = s.lineTag bi line ∧
      RegistersSame s t ∧ ∀ off, t.spadGet bi off = s.spadGet bi off)) ∧
    ∀ tag, a.kind = .sfill tag → full = true ∨ onlyLdsWaits → fills (fun t => t.lineFull bi line = true ∧
      t.lineTag bi line = tag % 8 ∧ wakes t ∧ ∀ off, t.spadGet bi off = s.spadGet bi off)

/-! ## Engines -/

/-- R160 to R162, R172 to R183, R188, R253, R254, R298, R299, R328, R369, R370, R378: CPY with any lane in E, TLD, TSTR and LDH
with one that is no helper, and COLL with any lane in E of a split that has one, trap, wait or start as their checks say. One that starts adds one unfinished operation of
its group, raises its counter by one and goes on; no byte of memory changes. Each completes, with the operation that its
operands describe, when its records (and COLL's table entry) can be read, meet their rules and agree with its other operands,
its destination is no composed stream, and the lines that it writes can be reserved. That the records, and COLL's table entry,
are read line by line at the issue (log 42), that COLL's streams stand at the origin 0 (log 44) and that a composed tile of rank
1 is measured by its consumer (log 81) are the model's choices. -/
def Obligations.EngineInstructionsIssue : Prop :=
  ∀ (x : Ext) (s : State) (g : Group) (p : Split),
    let starts (i : Instr) (kind : EngKind → Prop) (ctr : Ctr) (checks : Try Unit) : Prop := Executes s g p i →
      (∀ u, (∀ f ∈ g.faults, f.lines = [] ∧ f.tile = none) → checks = .ok () u → exec i s = .next u ∧ u.mem = s.mem ∧ u.hostMem = s.hostMem ∧ u.posted = s.posted ∧
        (∃ rest o, u.engines = rest ++ [o] ∧ (i ≠ .coll x → rest = s.engines) ∧
          rest.map (fun o => o.id) = s.engines.map (fun o => o.id) ∧ o.id = s.nextId ∧ o.group = s.curG ∧
          o.finished = false ∧ kind o.kind) ∧
        ∃ h, u.group? s.curG = some h ∧ Continues g h p (behind p i) ∧
          h = { g with splits := h.splits, cntC := g.cntC + (if ctr = .c then 1 else 0),
                       cntT := g.cntT + (if ctr = .t then 1 else 0) }) ∧
      (∀ c aux, checks = .trap c aux → exec i s = .next (if c = .pf then
          takeTrap s.curG s.curS .pf aux (realLanes g p x.guard) (realLanes g p x.guard) s
        else trapped s g p i c aux (guardLanes g p x.guard))) ∧
      (∀ va, checks = .park va → ∃ t, exec i s = .next t ∧ SplitBecomes s t g p (fun q =>
        { q with pend := guardLanes g p x.guard, wait := .replay va, age := 0, reserved := false })) ∧
      (∀ w, checks = .stall w → exec i s = .next (match w with
        | some (a, pa, write) => openDrain (.issue s.curG s.curS p.pc) a pa write s
        | none => s))
    let k (i : Instr) : Issue := issueOf s g p i x.guard
    let real : Prop := realLanes g p x.guard ≠ 0
    let acts : Prop := guardLanes g p x.guard ≠ 0 ∧ p.mask &&& ~~~g.helpers ≠ 0
    (guardLanes g p x.guard ≠ 0 → (∀ f ∈ g.faults, f.lines = []) → starts (.cpy x) (· = .cpy) .c
      (if x.var = 0 then cpyGlobal x (k (.cpy x)) s else if x.var = 1 then cpyIn x (k (.cpy x)) s
       else cpyOut x (k (.cpy x)) s)) ∧
    (real → (∀ f ∈ g.faults, f.tile ≠ some x.d.toNat) →
      starts (.tld x) (· = .tld x.d.toNat) .t (tldIssue x (k (.tld x)) s) ∧
      starts (.tstr x) (· = .tstr x.d.toNat) .t (tstrIssue x (k (.tstr x)) s)) ∧
    (real → (∀ f ∈ g.faults, f.lines = []) → starts (.ldh x) (fun kd => ∃ line tag, kd = .ldh line tag (opB g x true 0)) .c
      (ldhIssue x (k (.ldh x)) s)) ∧
    (acts → starts (.coll x) (· = .coll) .c (collIssue x (k (.coll x)) s)) ∧
    let pA := opA g x true 0
    let pB := opB g x true 0
    let org (rq : RecPair) : List Int := originOf g x.c.toNat rq
    let zero : List Int := List.replicate 9 0
    let one (va : DWord) (rq : RecPair) (u : State) : Prop := ∃ v, ReadsRecord s g va rq.1 v ∧ ReadsLink v g rq u
    let two (a b : RecPair) (u : State) : Prop := ∃ v1 v2 v3,
      ReadsRecord s g pA a.1 v1 ∧ ReadsRecord v1 g pB b.1 v2 ∧ ReadsLink v2 g a v3 ∧ ReadsLink v3 g b u
    let placed (rq : RecPair) : Prop := originBad g x.c.toNat rq = false ∧ GoodBox rq (org rq)
    let same (t : State) : Prop := t.blocks = s.blocks
    let free : Prop := ∀ f ∈ g.faults, f.lines = []
    ∀ (a b : RecPair) (u : State),
      let dst : List Place := (b.1.stream (org b)).map sink
      let el := b.elems
      let op (kind : EngKind) (i : Instr) (r : RecPair) : EngineOp :=
        { engineOp (k i) s kind x [r] with fmtS := r.elems.fmt, fmtD := r.elems.fmt }
      let fits (off : DWord) (r : RecPair) : Prop :=
        r.count * r.elems.width % 1024 = 0 ∧ off.toNat % 128 = 0 ∧ off.toNat + r.bytes ≤ s.scratchOf g.block
      (Executes s g p (.cpy x) → guardLanes g p x.guard ≠ 0 → x.var = 0 → two a b u → b.2 = none → placed a → GoodBox b zero → a.count = b.count →
        a.elems.fmt = el.fmt ∨ isFloatFmt a.elems.fmt = true ∧ isFloatFmt el.fmt = true →
        StartsEngine s u g p (.cpy x) (withPlan a (org a) ({ engineOp (k (.cpy x)) s .cpy x [a, b] with
          fmtS := a.elems.fmt, fmtD := el.fmt, clamp := el.clamp,
          moves := joinMoves (sourcePlaces a (org a)) ((b.1.stream zero).map sink) a.elems.width el.width }).plain) same) ∧
      (Executes s g p (.cpy x) → guardLanes g p x.guard ≠ 0 → x.var = 1 → free → one pA a u → placed a → fits (opB g x false 0) a →
        StartsEngine s u g p (.cpy x) (withPlan a (org a) ({ op .cpy (.cpy x) a with
          swz := a.elems.swz,
          moves := joinMoves (sourcePlaces a (org a))
            (spadPlaces a.elems.swz (opB g x false 0).toNat a.elems.width a.count) a.elems.width a.elems.width }).plain) same) ∧
      (Executes s g p (.cpy x) → guardLanes g p x.guard ≠ 0 → x.var = 2 → free → one pB b u → b.2 = none → placed b → fits (opA g x false 0) b →
        StartsEngine s u g p (.cpy x) ({ op .cpy (.cpy x) b with
          swz := el.swz,
          moves := joinMoves (spadPlaces el.swz (opA g x false 0).toNat el.width b.count) dst el.width el.width }).plain
          same) ∧
      (real → (∀ f ∈ g.faults, f.tile ≠ some x.d.toNat) →
        (Executes s g p (.tld x) → one pA a u → placed a → tileOk a (org a) = true →
          StartsEngine s u g p (.tld x) (withPlan a (org a) ({ op (.tld x.d.toNat) (.tld x) a with
            moves := if a.2.isSome then [] else tldMoves a.1 (a.1.stream (org a)) }).plain) same) ∧
        (Executes s g p (.tstr x) → one pA b u → b.2 = none → placed b → tileOk b (org b) = true →
          StartsEngine s u g p (.tstr x) { ({ op (.tstr x.d.toNat) (.tstr x) b with
            moves := tstrMoves el (b.1.stream (org b)) }).plain with reads := [tileCode] } same)) ∧
      (Executes s g p (.ldh x) → real → free → g.handler = none → handlerSlots s g ≠ 0 → one pA a u → placed a → 0 ≤ a.o0 (org a) →
        s.inText g pB = true → (g.uget x.d.toNat).toNat % 128 = 0 → (g.uget x.d.toNat).toNat < s.scratchOf g.block →
        let line := (g.uget x.d.toNat).toNat / 128
        let bursts := if a.2.isSome then [] else burstsOf a.1 a.rowLen (a.1.stream (org a))
        StartsEngine s u g p (.ldh x) (withPlan a (org a) { op (.ldh line (g.uget (x.d.toNat + 1)) pB) (.ldh x) a with
          swz := a.elems.swz, bursts := bursts, reads := memSectors (bursts.flatMap (fun b => b.bits)), sresv := [line] })
          (fun t => t.lineFull g.block line = false)) ∧
      ∀ (v w : State) (tab : DWord) (head entry : List Byte),
        let idx := (g.uget x.c.toNat).toNat
        let e := (g.uget (x.c.toNat + 1)).toNat
        let n := (g.uget (x.c.toNat + 2)).toNat
        let en := parseEntry entry
        let kind := Fields.collKind x
        let mode := (x.var.extractLsb' 2 1).toNat
        Executes s g p (.coll x) → acts → two a b v → (s.descOf g).map (fun d => d.colltab) = some tab → tab ≠ 0 → ReadsBytes v g tab 16 head w →
        idx < fieldLE head 0 4 → ReadsBytes w g (tab + 16 + BitVec.ofNat 64 (128 * idx)) 128 entry u →
        x.c.toNat + 3 ≤ g.ns → GoodBox a zero → GoodBox b zero → b.2 = none → 1 ≤ e → e ≤ 2 ^ 20 → n ≤ 6 →
        en.modes / 2 ^ mode % 2 = 1 → a.elems.fmt = x.ty.code.toNat → el.fmt = x.ty.code.toNat → a.count = 2 ^ n * e →
        (kind = 1 → e % en.ndev = 0) → b.count = destCount kind en.ndev e n →
        let places := (b.1.stream zero).map sink
        let c0 : Coll :=
          { session := en.session, k := collIndex s (s.groupCtx g) (tab + 16 + BitVec.ofNat 64 (128 * idx)).toNat en.session, kind := kind, mode := mode, op := Fields.collOp x,
            ty := x.ty, rm := x.rm, ndev := en.ndev, rank := en.rank, e := e, a := n, ports := en.ports, step := 0, acc := [],
            localDone := false, sent := false, reduced := false, params := [], peersDone := [], inbox := [], dst := places,
            remote := [], remoteDone := [] }
        let c : Coll := { c0 with remote := placeBytes (collRemote c0 places) }
        (∀ m ∈ s.early, m.1 ≠ c.session) → s.portsDown.any c.uses = false →
        let o := ({ op .coll (.coll x) a with
          recs := [a, b].flatMap (fun (r : RecPair) => r.1 :: r.2.toList), fmtD := el.fmt,
          coll := some c, moves := joinMoves (sourcePlaces a zero) (List.replicate a.count .drop) 32 32 }).plain
        StartsEngine s u g p (.coll x) (withPlan a zero { o with
          writes := memSectors (collOwn c places), resv := distinct ((memSectors places).map (fun v => v / 4)) }) same

/-- R146, R160 to R162, R181, R182: an engine operation reads a source sector of HBM whole, and writes a destination sector in
one step; the other bytes of memory, and every register, are as before. -/
def Obligations.EngineSectorsMove : Prop :=
  ∀ (op v pa : Nat) (s u : State) (o : EngineOp), s.engine? op = some o → engineLive s o = true → v < spadBase →
    o.fault = none → o.plan = none → reservedByOther s op (.hbm, 0, pa / 128) = false →
    (o.coll = none → v ∈ o.reads → v ∉ o.readsDone → o.place s v .r = .ok .hbm pa →
      claimNow s (.engine op) pa false = some u → ∃ t o', exec (.engineSectorRead op v) s = .next t ∧
        t.engine? op = some o' ∧ o'.readsDone = o.readsDone ++ [v] ∧
        (∀ j, j < 32 → o'.buf.get 0 (32 * v + j) = s.memGet (pa + j)) ∧
        (∀ a, a < 32 * v ∨ 32 * v + 32 ≤ a → o'.buf.get 0 a = o.buf.get 0 a) ∧ t.mem = s.mem ∧ t.hostMem = s.hostMem ∧
        t.posted = s.posted ∧
        t.groups = s.groups ∧ t.blocks = s.blocks) ∧
    (o.writable = true → v ∈ o.writes → v ∉ o.writesDone → o.runReady atMem (256 * v) 256 = true →
      o.place s v .w = .ok .hbm pa → hostHolds s pa = false → o.sourceFree s (.hbm, 0, pa / 32) = true →
      claimNow s (.engine op) pa true = some u → ∃ t o', exec (.engineSectorWrite op v) s = .next t ∧
        t.engine? op = some o' ∧ o'.writesDone = o.writesDone ++ [v] ∧
        (let r := patchBits o atMem (256 * v) 256 (natLE (s.memBytes pa 32))
         o'.flags = o.flags ||| r.2 ∧ ∀ j, j < 32 → (t.memGet (pa + j)).toNat = r.1 / 2 ^ (8 * j) % 256) ∧
        (∀ a, a < pa ∨ pa + 32 ≤ a → t.memGet a = s.memGet a) ∧ t.hostMem = s.hostMem ∧ t.posted = s.posted ∧
        t.blocks = s.blocks ∧
        ∀ gi h, s.group? gi = some h → ∃ h', t.group? gi = some h' ∧ h' = { h with splits := h'.splits })

/-- R112, R128, R161, R163, R183, R185, R187, R190, R192: an operation whose work is done ends, and its flags enter its group's:
CPY and TSTR when every sector is written, COLL when every element of its destination is, TLD with the rows and the scale
bytes of its tile written then, LDH with its event line written and full, and the fault of the lowest sequence number of its
handlers, if any, waiting for delivery. One that has met a fault ends without its flags, which is the model's choice (log 83),
and its fault waits for delivery, or is taken at an LDS that waits for a line which it leaves unwritten (log 74). Either way its
reservations are gone, the counters fall by the operations that leave in issue order, and no byte of memory changes. -/
def Obligations.EngineOperationsEnd : Prop :=
  ∀ (op : Nat) (s : State) (o : EngineOp) (g : Group), s.engine? op = some o → engineLive s o = true →
    s.group? o.group = some g → (∀ q ∈ s.engines, q.id = op → q = o) →
    let ends (i : Instr) (fl : FlagBits) (faults : List PendingFault) (also : State → Group → Prop) : Prop := ∃ t h,
      exec i s = .next t ∧ t.group? o.group = some h ∧ t.mem = s.mem ∧ t.hostMem = s.hostMem ∧ t.posted = s.posted ∧
      also t h ∧
      t.engines.filter (fun q => !q.finished) = s.engines.filter (fun q => !q.finished && q.id != op) ∧
      (∀ q ∈ t.engines, q.id = op → q.resv = [] ∧ q.sresv = []) ∧
      let left (cl : Ctr) (u : State) : Nat := u.engines.countP (fun q => q.group == o.group && q.kind.ctr == cl)
      h = { g with flags := g.flags ||| fl, faults := g.faults ++ faults, cntC := g.cntC - (left .c s - left .c t),
                   cntT := g.cntT - (left .t s - left .t t), tile := h.tile, scale := h.scale } ∧
      ∀ j, j ≠ o.group → t.group? j = s.group? j
    let plain (t : State) (h : Group) : Prop := t.blocks = s.blocks ∧ h.tile = g.tile ∧ h.scale = g.scale
    let written : Prop := (∀ v ∈ o.writes, v ∈ o.writesDone) ∧ ∀ v ∈ o.swrites, v ∈ o.swritesDone
    let waitsOn (a : Access) : Prop := a.group = o.group ∧ ∃ l ∈ a.lanes, l.stage = .waitingEmpty ∧ l.addr / 128 ∈ o.sresv
    (o.fault = none → o.readAll = true →
      (o.kind = .cpy ∨ (∃ n, o.kind = .tstr n) → written → ends (.engineCompletion op) o.flags [] plain) ∧
      (∀ c, o.kind = .coll → o.coll = some c → o.writable = true → (∀ v ∈ c.remote, v ∈ c.remoteDone) → written →
        ends (.engineCompletion op) o.flags [] plain) ∧
      (∀ n, o.kind = .tld n → tldHeld s o n = false → ends (.engineCompletion op) o.flags [] (fun t h => t.blocks = s.blocks ∧
        (∀ k w, k ≠ n → w < 2048 → h.tileWord k w = g.tileWord k w) ∧
        (∀ k w, k ≠ n → w < 128 → h.scaleWord k w = g.scaleWord k w) ∧
        (∀ w, w < 128 → h.scaleWord n w = BitVec.ofNat 32 (patchBits o atSide (32 * w) 32 0).1) ∧
        let rows := o.moves.filter (fun m => match m.dst with
          | .tile _ => true
          | _ => false)
        ∀ wd k m, wd ∣ 32 → 0 < wd → (∀ r ∈ rows, r.wd = wd) → rows[k]? = some m → k * wd < 65536 →
          (h.tileWord n (k * wd / 32)).toNat / 2 ^ (k * wd % 32) % 2 ^ wd = (o.moveValue m).1 % 2 ^ wd)) ∧
      ∀ line tag entry, o.kind = .ldh line tag entry → o.handled s = true → o.swritesDone = [] →
        (s.block? o.block).isSome = true → (∀ a ∈ s.acc, ∀ l ∈ a.lanes, l.stage ≠ .waitingEmpty) →
        (∀ q ∈ s.engines, q.emptySince = []) → (∀ m ∈ s.matq, m.emptySince = []) → ∀ faults,
        (faults = [] ∧ (∀ b ∈ o.bursts, b.fault = none) ∨ ∃ b ∈ o.bursts, ∃ f, b.fault = some f ∧
          (∀ d ∈ o.bursts, d.fault.isSome = true → d = b ∨ b.seq < d.seq) ∧ faults = [pendingOf o f.1 f.2 []]) →
        ends (.engineCompletion op) o.flags faults (fun t h => h.tile = g.tile ∧ h.scale = g.scale ∧
          t.lineFull o.block line = true ∧ t.lineTag o.block line = o.swz % 8 ∧
          (∀ k, k ≠ o.block → t.block? k = s.block? k) ∧
          (∀ k, k < 128 * line ∨ 128 * line + 128 ≤ k → t.spadGet o.block k = s.spadGet o.block k) ∧
          let field (off : Nat) : Nat := natLE ((List.range 4).map (fun j => t.spadGet o.block (128 * line + off + j)))
          field 0 = o.bursts.length % 2 ^ 32 ∧ field 4 = (o.bursts.map (fun b => b.valid)).sum % 2 ^ 32 ∧
          field 16 = (o.bursts.countP (fun b => b.fault.isSome)) % 2 ^ 32 ∧ field 20 = tag.toNat ∧
          (∀ j, 24 ≤ j → j < 128 → t.spadGet o.block (128 * line + j) = 0) ∧
          ((∀ b ∈ o.bursts, b.fault = none) → field 8 = 0 ∧ field 12 = 0xFFFF_FFFF) ∧
          ∀ b ∈ o.bursts, ∀ f, b.fault = some f → (∀ d ∈ o.bursts, d.fault.isSome = true → d = b ∨ b.seq < d.seq) →
            b.seq < 2 ^ 32 → field 8 = causeCode f.1 ∧ field 12 = b.seq)) ∧
    ∀ c aux, engineFaultOf s o = some (c, aux) →
      ((∀ a ∈ s.acc, ¬waitsOn a) → ends (.engineFault op) 0 [pendingOf o c aux o.sresv] plain) ∧
      ∀ a q, a ∈ s.acc → waitsOn a → (∀ b ∈ s.acc, waitsOn b → b = a) → q ∈ g.splits → q.wait = .access a.id →
        (∀ r ∈ g.splits, r.wait = .access a.id → r = q) → (g.splits.map (fun r => r.idx)).Nodup → g.handler = none →
        mayTrap s o.group = true → ∃ t, exec (.engineFault op) s = .next t ∧ Trapped t o.group q.idx c q.pc 0 ∧ t.mem = s.mem

/-- R38, R189, R193: a burst whose sectors have been read is born as a handler group of its block: 16 lanes at the handler's
entry, the burst's 256 bytes in v0 to v3, those of its first birth when it restarts, its coordinates, sizes and numbers, the launch's
arguments and the issuing group in s0 to s10, and zero in every other register. That the ready burst of the lowest number is born
(log 48), in the free slot of the lowest number (log 84), are the model's choices. -/
def Obligations.HandlerBorn : Prop :=
  ∀ (op slot line : Nat) (tag : Word) (entry : DWord) (s : State) (o : EngineOp) (b : Burst) (blk : Block) (l : Launch),
    s.engine? op = some o → o.id = op → engineLive s o = true → o.kind = .ldh line tag entry → o.fault = none → o.plan = none →
    nextBurst o = some b → s.block? o.block = some blk → blk.stopped = false → s.launch? blk.launch = some l →
    (∀ c, s.ctx? o.ctx = some c → c.stopping = true → c.saveComplete = true) → freeHandlerSlot s o.block l.desc.hslots = some slot →
    let bits := b.kept.getD (burstBits o b)
    ∃ t h, exec (.handlerBirth op) s = .next t ∧ t.groups = s.groups ++ [h] ∧ h.block = o.block ∧
      h.handler = some { slot := slot, issuer := o.group, op := op, seq := b.seq } ∧ h.present = 0xFFFF ∧ h.helpers = 0 ∧
      h.splits = [Split.fresh 0 entry 0xFFFF] ∧ h.flags = 0 ∧
      (b.coords.length = 5 → (∀ r, r < 5 → h.uget r = BitVec.ofNat 32 (b.coords.getD r 0)) ∧
        h.uget 5 = BitVec.ofNat 32 b.valid ∧ h.uget 6 = BitVec.ofNat 32 b.seq ∧ h.uget 7 = tag ∧
        h.uget 8 = l.desc.args.extractLsb' 0 32 ∧ h.uget 9 = l.desc.args.extractLsb' 32 32 ∧
        (∀ x, s.group? o.group = some x → h.uget 10 = x.groupId) ∧ ∀ r, 11 ≤ r → h.uget r = 0) ∧
      (∀ r L, 4 ≤ r → L < 16 → h.vget r L = 0) ∧ (∀ q, q < 15 → h.pget q = 0) ∧
      (∀ r L, r < 4 → L < 16 → h.vget r L = BitVec.ofNat 32 (bits / 2 ^ (32 * (4 * L + r)))) ∧
      t = { s with groups := t.groups, engines := t.engines } ∧
      t.engine? op =
        some { o with bursts := o.bursts.map (fun c =>
          if c.seq = b.seq then { c with born := true, kept := some bits } else c) }

/-! ## Matrix engine -/

/-- R196, R199, R200, R204, R205, R208, R278, R279, R281, R334 to R338, R341, R342, R371, R372: an instruction of majors 44 to
47 with a lane in E joins its core's queue with the registers that it reads at issue, holds its vector destinations and goes
on; where its rule says so it is OPR instead, and a MMAG of which an index lies outside the scratchpad is PROT with the lowest such
offset for the lanes whose rows name them. -/
def Obligations.MatrixInstructionsQueue : Prop :=
  ∀ (x : Ext) (s : State) (g : Group) (p : Split), (∀ f ∈ g.faults, f.tile = none ∧ f.mmag = none) →
    guardLanes g p x.guard ≠ 0 →
    let affine (d : Nat) : Bool := modeAfter s s.curG g d
    let read (first n : Nat) : List Word :=
      (List.range n).flatMap (fun k => allLanes.map (fun L => g.vget (first + k) L))
    let queues (i : Instr) (vals : List Word) (uniB : DWord) (lines holds : List (Nat × Nat)) : Prop :=
      ∃ t, exec i s = .next t ∧ t = { s with groups := t.groups, matq := t.matq, nextId := s.nextId + 1 } ∧
        (∃ m, t.matq = s.matq ++ [m] ∧ m.id = s.nextId ∧ m.die = g.die ∧ m.core = g.core ∧ m.group = s.curG ∧ m.ins = i ∧
          m.e = guardLanes g p x.guard ∧ m.vals = vals ∧ m.uniB = uniB ∧ m.lines = lines ∧ m.out = none) ∧
        (∀ j, j ≠ s.curG → t.group? j = s.group? j) ∧
        t.group? s.curG = some { g with splits := g.splits.map (fun q =>
          if q.idx = p.idx then
            { q.goto (behind p i) with holds := q.holds ++ holds.map (fun (h : Nat × Nat) =>
                ({ op := s.nextId, file := 0, first := h.1, count := h.2 } : Hold)) }
          else q) }
    let issues (i : Instr) (bad : Bool) (vals : List Word) (uniB : DWord) (holds : List (Nat × Nat)) : Prop :=
      Executes s g p i → (bad = false → queues i vals uniB [] holds) ∧
        (bad = true → exec i s = .next (trapped s g p i .opr (0#32 ++ word0 i) (guardLanes g p x.guard)))
    let d := x.d.toNat
    let a := x.a.toNat
    issues (.mma x) (intTy x.ty && affine d) [] 0 [] ∧ issues (.mmat x) (intTy x.ty && affine d) [] 0 [] ∧
    issues (.aexp x) false [] (opB g x true 0) [] ∧
    issues (.amode x) (x.var.getLsbD 0 && decide (g.na ≤ d + 16)) [] 0 [] ∧
    issues (.ard x) (x.var.getLsbD 0 && !affine a) [] (opB g x false 0) [(d, 4)] ∧
    issues (.awr x) (x.var.getLsbD 0 && !affine d) (read a 4) (opB g x false 0) [] ∧
    issues (.mzero x) false [] 0 [] ∧
    issues (.mcarry x) false (if x.var.getLsbD 0 then read a 8 else []) 0 (if x.var.getLsbD 0 then [] else [(d, 8)]) ∧
    issues (.mscan x) (!affine d) [] 0 [] ∧ issues (.tmov x) false [] 0 [] ∧
    issues (.trd x) false [] (opB g x false 0) [(d, 2)] ∧ issues (.twr x) false (read a 2) (opB g x false 0) [] ∧
    (Executes s g p (.mmag x) → intTy x.ty && affine d = false →
      let vals := read a 2 ++ allLanes.map (fun L => g.vget x.c.toNat L)
      let rows := (rowsOf (realLanes g p x.guard)).map (fun i => (i, gatherIdx vals i))
      (∀ f ∈ g.faults, ∀ r ∈ rows, r.2 ∉ f.lines) →
      ((∀ r ∈ rows, r.2 * 128 < s.scratchOf g.block) → queues (.mmag x) vals 0 rows []) ∧
      ∀ r ∈ rows, s.scratchOf g.block ≤ r.2 * 128 → (∀ q ∈ rows, s.scratchOf g.block ≤ q.2 * 128 → r.2 ≤ q.2) →
        exec (.mmag x) s = .next (trapped s g p (.mmag x) .prot (BitVec.ofNat 64 (r.2 * 128)) (maskOf (fun L =>
          rows.any (fun q => decide (s.scratchOf g.block ≤ q.2 * 128) && q.1 / 4 == L)))))

/-- R114, R115, R196, R197, R199, R200, R202 to R208, R279, R281, R336: the head of a core's queue begins when its core is free, its die's current budget
is not short and nothing of its group holds it back, and computes its result then; it writes what it changes in its last cycle, and leaves the queue; a MMAG that
has met a wrong tag or an empty line for too long leaves it without a write, and its fault waits for delivery. TMOV copies a
tile and its sideband, an affine AMODE leaves offsets 0 and gains 1, MZERO clears the rows of E, ARD and AWR move column c of
rows 4L + k to and from registers k of lane L, MCARRY the carries of columns 4L + k, TRD and TWR words L and 16 + L of a row. MMA and MMAT give each
element of a row of E its accumulate, MMAG each element of a target row the accumulates of its gathered rows in ascending order,
AEXP each row of E its codes and scales, MSCAN the pairs of the network and the carries, and no other row, slot, tile or column
changes. The printed runs of R114, R207 and R336 come out as printed; an integer accumulate within INT32 is the exact sum, and a
float run with a NaN, 0 × ∞ or both infinities is NaN. In which cycle an entry computes and writes is the model's reading (log 52),
as is the sum of a run with special values (log 53). -/
def Obligations.MatrixEntriesRun : Prop :=
  (∀ (die core : Nat) (s : State) (m : MatEntry) (g : Group), matHead s die core = some m → s.group? m.group = some g →
     (m.out = none → s.busy.get 0 (matKey die core) ≤ s.now → budgetDelays s die core = false → tileBusy s m = false →
       (∀ r ∈ m.lines, ∃ y ∈ m.latch, y.1 = r.2) → wrongTags m = [] →
       exec (.matrixEntryStart die core) s = .next { s with matq := s.matq.map (fun q =>
         if q.id = m.id then
           { m with out := some (matResult m g), endsAt := s.now + matCycles m.ins - 1 }
         else q) }) ∧
     (∀ o, m.out = some o → m.endsAt ≤ s.now → ∃ t, exec (.matrixEntryComplete die core) s = .next t ∧
       t = { s with groups := t.groups, matq := s.matq.filter (fun q => q.id != m.id), busy := t.busy } ∧
       t.busy.get 0 (matKey die core) = s.now + 1 ∧ (∀ j, j ≠ m.group → t.group? j = s.group? j) ∧
       ∃ h, t.group? m.group = some h ∧ h.flags = g.flags ||| o.flags ∧
         h = { g.applyMat o with splits := g.splits.map (fun p =>
           { p with holds := p.holds.filter (fun k => k.op != m.id) }) }) ∧
     (∀ c off, gatherFault s m = some (c, off) → ∃ t, exec (.mmagCancel die core) s = .next t ∧
       t = { s with groups := t.groups, matq := s.matq.filter (fun q => q.id != m.id) } ∧
       (∀ j, j ≠ m.group → t.group? j = s.group? j) ∧
       ∃ f, t.group? m.group = some { g with faults := g.faults ++ [f] } ∧ f.cause = c ∧ f.aux = BitVec.ofNat 64 off)) ∧
  (∀ (x : Ext) (g : Group),
     (∀ w, w < 2048 → (g.applyMat (tmovOut x g)).tileWord x.d.toNat w = g.tileWord x.a.toNat w) ∧
     (∀ w, w < 128 → (g.applyMat (tmovOut x g)).scaleWord x.d.toNat w = g.scaleWord x.a.toNat w) ∧
     (x.var.getLsbD 0 = true → x.d.toNat < 16 → (∀ w, w < 4096 → (g.applyMat (amodeOut x g)).accWord x.d.toNat w = 0 ∧
       (g.applyMat (amodeOut x g)).accWord (x.d.toNat + 16) w = 0x3F80_0000#32) ∧
       (g.applyMat (amodeOut x g)).affine.getLsbD x.d.toNat = true) ∧
     ∀ (e : LaneMask) (c k L : Nat), k < 4 → e.getLsbD L = true → g.present.getLsbD L = true → x.var.getLsbD 0 = false →
       (g.applyMat (ardOut x g e c)).vget (x.d.toNat + k) L = g.accWord x.a.toNat ((4 * L + k) * 64 + c)) ∧
  (∀ (x : Ext) (g : Group) (e : LaneMask) (c k L : Nat) (vals : List Word), k < 4 → L < 16 → e.getLsbD L = true → c < 64 →
    (∀ j, j < 64 → (g.applyMat (mzeroOut x g e)).accWord x.d.toNat ((4 * L + k) * 64 + j) = 0) ∧
    (x.var.getLsbD 0 = false →
      (g.applyMat (awrOut x e c vals)).accWord x.d.toNat ((4 * L + k) * 64 + c) = vals.getD (k * 16 + L) 0 ∧
      (k < 2 → (g.applyMat (twrOut x e c vals)).tileWord x.d.toNat (32 * c + 16 * k + L) = vals.getD (k * 16 + L) 0 ∧
        (g.present.getLsbD L = true →
          (g.applyMat (trdOut x g e c)).vget (x.d.toNat + k) L = g.tileWord x.a.toNat (32 * c + 16 * k + L))))) ∧
  (∀ (x : Ext) (g : Group) (e : LaneMask) (vals : List Word),
    let d := x.d.toNat
    let a := x.a.toNat
    let b := x.b.toNat
    let inE (w : Nat) : Bool := e.getLsbD (w / 256)
    -- the accumulators: MMA, MMAT, MMAG
    (∀ slot w, w < 4096 →
      (g.applyMat (mmaOut x g e)).accWord slot w = (if slot = d ∧ inE w = true then (accumulate x.ty (x.var.getLsbD 0)
          (fun q => sideByte g a (8 * (w / 64) + q)) (fun q => sideByte g b (8 * (w % 64) + q)) (tileRow g a (w / 64))
          (tileRow g b (w % 64)) (g.accWord d w)).1 else g.accWord slot w) ∧
      (g.applyMat (mmatOut x g e)).accWord slot w = (if slot = d ∧ inE w = true then (accTern x.ty.signed
          (tileRow g a (w / 64)) (fun m => tileRow g (b + m) (w % 64)) (g.accWord d w)).1 else g.accWord slot w) ∧
      ∀ latch, (g.applyMat (mmagOut x g e vals latch)).accWord slot w = if slot = d then
          ((rowsOf (e &&& ~~~g.helpers)).filter (fun i => gatherTgt vals i == w / 64)).foldl (fun acc i =>
            (accumulate x.ty (x.var.getLsbD 0) (fun _ => 0) (fun _ => 0)
              (natLE (unswizzle (x.var.extractLsb' 1 3).toNat (gatherIdx vals i)
                (((latch.find? (fun l => l.1 == gatherIdx vals i)).map (fun l => l.2.2)).getD [])))
              (tileRow g b (w % 64)) acc).1) (g.accWord d w)
        else g.accWord slot w) ∧
    (∀ z n ch k (bs : List Byte), bs.length = 128 → ch < 8 → k < 16 →
      (unswizzle z n bs).getD (16 * ch + k) 0 = bs.getD (16 * (ch ^^^ swz z n) + k) 0) ∧
    -- AEXP: the exported part of a row, its sideband bytes, and nothing else
    (∀ uniB, x.ty ∈ [.bf16x2, .f16x2, .e4m3x4, .e5m2x4, .e2m1x8, .s8x4, .u8x4] →
      let part := x.var.toNat % 4
      let w := (tyShape x.ty).1
      let row (i : Nat) : List Nat × List Nat × FlagBits := exportRow x (dec f32 (uniB.extractLsb' 0 32).toNat)
        (dec f32 (uniB.extractLsb' 32 32).toNat) ((List.range 64).map (fun j => g.accWord a (i * 64 + j)))
      let h := g.applyMat (aexpOut x g e uniB)
      8 * w * (part + 1) ≤ 128 → h.acc = g.acc ∧ h.vec = g.vec ∧
      (∀ t q, q < 2048 → h.tileWord t q =
        if t = d ∧ e.getLsbD (q / 128) = true ∧ 2 * w * part ≤ q % 32 ∧ q % 32 < 2 * w * (part + 1) then
          BitVec.ofNat 32 (packElems w (row (q / 32)).1 / 2 ^ (32 * (q % 32 - 2 * w * part)))
        else g.tileWord t q) ∧
      ∀ t i k, i < 64 → k < 8 → sideByte h t (8 * i + k) =
        if t ≠ d ∨ e.getLsbD (i / 4) = false ∨ intTy x.ty = true then sideByte g t (8 * i + k)
        else if x.ty = .e2m1x8 then
          (if k / 2 = part then (row i).2.1.getD (k % 2) 0 % 256 else sideByte g t (8 * i + k))
        else if k < 32 / w then 0x7F else 0) ∧
    -- MSCAN
    (d < 16 →
      let h := g.applyMat (mscanOut x g e)
      let net (c : Nat) : List Pair := ((List.range 6).foldl mscanStage ((List.range 64).map (fun i =>
        if e.getLsbD (i / 4) then ((g.accWord (d + 16) (i * 64 + c)).toNat, (g.accWord d (i * 64 + c)).toNat)
        else (0x3F80_0000, 0)), 0)).1
      (∀ slot w, w < 4096 → h.accWord slot w =
        let p := (net (w % 64)).getD (w / 64) (0, 0)
        if inE w = false ∨ (slot ≠ d ∧ slot ≠ d + 16) then g.accWord slot w
        else BitVec.ofNat 32 (if slot = d then (fma32 p.1 (g.carryWord d (2 * (w % 64) + 1)).toNat p.2).1 else p.1)) ∧
      (∀ c, c < 64 → let p := (net c).getD 63 (0, 0)
        h.carryWord d (2 * c) = BitVec.ofNat 32 (gainMul (g.carryWord d (2 * c)).toNat p.1).1 ∧
        h.carryWord d (2 * c + 1) = BitVec.ofNat 32 (fma32 p.1 (g.carryWord d (2 * c + 1)).toNat p.2).1) ∧
      ∀ slot k, slot ≠ d → k < 128 → h.carryWord slot k = g.carryWord slot k) ∧
    -- MCARRY: registers 0 to 3 of lane L hold the gains, 4 to 7 the offsets, of columns 4L to 4L + 3
    (∀ r L, r < 8 → L < 16 →
      let cell := 2 * (4 * L + r % 4) + r / 4
      (x.var.getLsbD 0 = false → (g.applyMat (mcarryOut x g e vals)).carry = g.carry ∧
        (a < 16 → (g.applyMat (mcarryOut x g e vals)).vget (d + r) L =
          if e.getLsbD L = true ∧ g.present.getLsbD L = true then g.carryWord a cell else g.vget (d + r) L)) ∧
      (x.var.getLsbD 0 = true → (g.applyMat (mcarryOut x g e vals)).vec = g.vec ∧
        (d < 16 → ∀ slot, slot < 16 → (g.applyMat (mcarryOut x g e vals)).carryWord slot cell =
          if slot = d ∧ e.getLsbD L = true then vals.getD (r * 16 + L) 0 else g.carryWord slot cell)))) ∧
  -- the accumulates themselves
  (∀ (sa sb : Bool) (rowA rowB : Nat) (acc : Word),
    let sum (n : Nat) : Int := acc.toInt + ((List.range n).map (fun k =>
      intOf sa 8 (rowElem 8 rowA k) * intOf sb 8 (rowElem 8 rowB k))).sum
    (∀ n, n ≤ 128 → -(2 ^ 31) ≤ sum n ∧ sum n < 2 ^ 31) → accInt sa sb rowA rowB acc = (BitVec.ofInt 32 (sum 128), 0)) ∧
  (∀ terms : List (Val × Val),
    let has (p : Val × Val → Bool) : Prop := ∃ t ∈ terms, p t = true
    let inf (n : Bool) : Prop := has (fun t => (mulV t.1 t.2).1 == .inf n)
    let invalid : Prop := has (fun t => (mulV t.1 t.2).2) ∨ (inf false ∧ inf true)
    (has (fun t => t.1.isNan || t.2.isNan) → (runSum terms).1 = .nan false) ∧
    (invalid → runSum terms = (.nan false, true)) ∧
    ((runSum terms).2 = true ↔ invalid ∨ has (fun t => t.1.isSig || t.2.isSig)) ∧
    (∀ n, inf n → ¬inf (!n) → ¬has (fun t => t.1.isNan || t.2.isNan || (mulV t.1 t.2).2) → (runSum terms).1 = .inf n)) ∧
  (let run (row : Nat) : Word × FlagBits := accFloat .bf16x2 .bf16x2 (fun _ => 0) (fun _ => 0) row row 0
   run (0x4580 + 0x3F80 * 2 ^ 16 + 0x3F80 * 2 ^ 32) = (0x4B80_0001#32, 0) ∧
   run (0x4580 + 0x3F80 * 2 ^ (16 * 31) + 0x3F80 * 2 ^ (16 * 32)) = (0x4B80_0000#32, 0)) ∧
  accTern true 0x39 (fun m => if m = 0 then 0x64647F else 0) 0x7FFF_FFC0#32 = (0x7FFF_FF9B#32, flIov ||| flTrn) ∧
  (∀ x : Ext, x.ty = .e4m3x4 → x.rm = .rne → exportRow x (dec f32 0x3F00_0000) (dec f32 0x4370_0000)
    ([0x3F80_0000#32, 0x42C8_0000#32, 0x4416_0000#32] ++ List.replicate 61 0#32) =
      ([0x30, 0x64, 0x77] ++ List.replicate 61 0, [], flSat)) ∧
  (∀ i, i < 64 → ((List.range 6).foldl mscanStage (List.replicate 4 (0x4000_0000, 0x3F80_0000) ++
      List.replicate 60 (0x3F80_0000, 0), 0)).1.getD i (0, 0) =
    ([(0x4000_0000, 0x3F80_0000), (0x4080_0000, 0x4040_0000), (0x4100_0000, 0x40E0_0000)].getD i (0x4180_0000, 0x4170_0000))) ∧
  gainMul 0x00FF_FFFF 0x3F00_0000 = (0x0080_0000, 0) ∧ gainMul 0x0D80_0000 0x2B80_0000 = (0, flGuf) ∧
  gainMul 0x8D80_0000 0x2B80_0000 = (0x8000_0000, flGuf) ∧ gainMul 0x8D80_0000 0x0D80_0000 = (0x8000_0000, 0)

/-! ## Orbit and channels -/

/-- R214, R216 to R218, R345 to R348: an orbit instruction with a lane that is no helper issues one operation with the
operands that it reads then, and its split waits for the pass; a slot number of 2048 or more is ORB. -/
def Obligations.OrbitInstructionsIssue : Prop :=
  ∀ (x : Ext) (s : State) (g : Group) (p : Split), realLanes g p x.guard ≠ 0 →
    let issues (i : Instr) (kind : OrbKind) (slot : Nat) (key : Word) (b cmp : Nat → DWord) : Prop :=
      ∃ t o, exec i s = .next t ∧ t = { s with groups := t.groups, orbitOps := s.orbitOps ++ [o], nextId := s.nextId + 1 } ∧
        (∀ j, j ≠ s.curG → t.group? j = s.group? j) ∧
        t.group? s.curG = some { g with splits := g.splits.map (fun q => if q.idx = p.idx then
          { q with wait := .orbit s.nextId, since := s.now, age := 0, reserved := false } else q) } ∧
        o.id = s.nextId ∧ o.group = s.curG ∧ o.split = s.curS ∧ o.die = g.die ∧ o.core = g.core ∧ o.kind = kind ∧
        o.ty = x.ty ∧ o.slot = slot ∧ o.key = key ∧ o.d = x.d.toNat ∧ o.e = guardLanes g p x.guard ∧
        o.act = realLanes g p x.guard ∧ o.issue = s.now ∧ o.passes = 0 ∧ o.next = behind p i ∧
        ∀ L, L < 16 → o.b.getD L 0 = (b L).extractLsb' 0 32 ∧ o.cmp.getD L 0 = (cmp L).extractLsb' 0 32
    let named (i : Instr) (kind : OrbKind) : Prop := Executes s g p i →
      let slot := g.uget x.a.toNat
      (slot.toNat < 2048 → issues i kind slot.toNat (g.uget (x.a.toNat + 1)) (opB g x false)
        (opD g x false)) ∧
      (2048 ≤ slot.toNat → exec i s = .next (trapped s g p i .orb (0#32 ++ slot) (guardLanes g p x.guard)))
    named (.oadd x) .add ∧ named (.oalight x) .alight ∧ named (.ocap x) .cap ∧ named (.ocas x) .cas ∧
    named (.omax x) .max ∧ named (.omin x) .min ∧ named (.oswp x) .swp ∧
    (Executes s g p (.oboard x) →
      issues (.oboard x) (.board (x.var.toNat % 8) (x.c.toNat % 16)) 0 ((opB g x false 0).extractLsb' 0 32) (opA g x false)
        (fun _ => 0))

/-- R214, R216, R217: at its pass an operation rewrites the slot that it may use and its lanes receive the old payload, an
operation that may not use its slot is ORB, an OBOARD takes a free slot of its context, and after 256 passes fails; the other
slots and all memory are as before. -/
def Obligations.OrbitPasses : Prop :=
  OrbitValues ∧ ∀ (op : Nat) (s : State) (o : OrbitOp) (g : Group), s.orbitOps.find? (fun q => q.id == op) = some o →
    s.group? o.group = some g →
    let ends (t : State) (h : Group) : Prop := t.group? o.group = some h ∧ t.orbitOps = s.orbitOps.filter (fun q => q.id != op) ∧
      h.splits = g.splits.map (fun p => if p.idx = o.split ∧ p.wait = .orbit op then p.goto o.next else p) ∧
      t.mem = s.mem ∧ t.hostMem = s.hostMem ∧ t.posted = s.posted
    (passDue s o = true → (∀ tr pc, o.kind ≠ .board tr pc) →
      let sl := s.slot o.slot
      (slotAllows s o sl = true → ∃ t h, exec (.orbitPass op) s = .next t ∧ ends t h ∧
        (∀ j, j ≠ o.slot → t.slot j = s.slot j) ∧ (t.slot o.slot).tag = sl.tag ∧
        (o.kind = .alight → t.slot o.slot = { payload := List.replicate 16 0, key := 0, tag := sl.tag, held := false }) ∧
        (o.kind ≠ .alight → (t.slot o.slot).held = sl.held ∧ (t.slot o.slot).key = sl.key ∧
          ∀ L, L < 16 → (t.slot o.slot).payload.getD L 0 = if o.act.getLsbD L then BitVec.ofNat 32 (orbNew o.kind o.ty
            (sl.payload.getD L 0).toNat (o.b.getD L 0).toNat (o.cmp.getD L 0).toNat).1 else sl.payload.getD L 0) ∧
        VectorWritten g h (o.e &&& ~~~g.ended) false o.d (fun L => if o.act.getLsbD L then 0#32 ++ sl.payload.getD L 0 else 0) ∧
        h.uni = g.uni ∧ h.pred = g.pred) ∧
      (slotAllows s o sl = false → ∃ u, exec (.orbitPass op) s =
        .next (takeTrap o.group o.split .orb (BitVec.ofNat 64 o.slot) o.act 0 u) ∧
        u = { s with orbitOps := s.orbitOps.filter (fun q => q.id != op), orbitPassed := u.orbitPassed })) ∧
    ∀ track pc, o.kind = .board track pc → pc ≠ 15 → g.retired = false →
      let lanes : LaneMask := o.e &&& ~~~g.ended &&& g.present
      (passDue s o = true →
        let id := track * 256 + posAt (station o.die o.core) s.now
        (s.slot id).tag = BitVec.ofNat 16 (s.groupCtx g) → (s.slot id).held = false →
        ∃ t h, exec (.orbitPass op) s = .next t ∧ ends t h ∧ (∀ j, j ≠ id → t.slot j = s.slot j) ∧
          (t.slot id).held = true ∧ (t.slot id).key = o.key ∧ (t.slot id).tag = (s.slot id).tag ∧
          (∀ L, L < 16 → (t.slot id).payload.getD L 0 = if o.act.getLsbD L then o.b.getD L 0 else 0) ∧
          h.uget o.d = BitVec.ofNat 32 id ∧ h.uget (o.d + 1) = o.key ∧ h.vec = g.vec ∧
          h.pget pc = (g.pget pc &&& ~~~lanes) ||| lanes) ∧
      (256 ≤ o.passes → ∃ t h, exec (.oboardTimeout op) s = .next t ∧ ends t h ∧ t.slots = s.slots ∧
        h.uget o.d = 0xFFFF_FFFF#32 ∧ h.vec = g.vec ∧ h.pget pc = g.pget pc &&& ~~~lanes)

/-- R224 to R228, R295: CHSEND with a credit writes its message behind the full slots of the channel's buffer in the consumer's
scratchpad, CHRECV takes the oldest one into its lanes and sends a credit flit, CHPEEK tells whether the one or the other is there,
both with zero for helper lanes, and CHANNEL_CREDIT gives the producer its credit back; without a credit or a message the split waits, and an instruction that may not use the channel is CHN. -/
def Obligations.ChannelsCarryMessages : Prop :=
  (∀ (x : Ext) (s : State) (g : Group) (p : Split), guardLanes g p x.guard ≠ 0 → p.mask &&& ~~~g.helpers ≠ 0 →
    let n := (opB g x false 0).toNat
    let real (L : Nat) : Bool := (realLanes g p x.guard).getLsbD L
    let e := guardLanes g p x.guard
    let channels (c : Channel) (f : Channel → Channel) : List Channel :=
      s.channels.map (fun d => if d.launch = c.launch ∧ d.num = c.num then f d else d)
    let buffer (c : Channel) : Nat := blockOf s c.launch c.cons
    (Executes s g p (.chsend x) →
      (channelFor s g n true = none → exec (.chsend x) s = .next (trapped s g p (.chsend x) .chn (BitVec.ofNat 64 n) e)) ∧
      ∀ c, channelFor s g n true = some c → blockDone s c.launch c.cons = false → ∃ t, exec (.chsend x) s = .next t ∧
        if c.credits = 0 then SplitBecomes s t g p (fun q =>
          { q with wait := .chanSend c.launch c.num, since := s.now, age := 0, reserved := false })
        else ∃ u, PassesBy s u g p (.chsend x) ∧
          t = { u with blocks := t.blocks, channels := channels c (fun d =>
            { d with credits := d.credits - 1, count := d.count + 1 }) } ∧
          t.blocks.map (fun b => { b with scratch := [] }) = s.blocks.map (fun b => { b with scratch := [] }) ∧
          let base := chanBase s c + 64 * ((c.head + c.count) % c.depth)
          ((s.block? (buffer c)).isSome = true → ∀ L b, L < 16 → b < 4 → t.spadGet (buffer c) (base + 4 * L + b) =
            if real L then (opA g x false L).extractLsb' (8 * b) 8 else 0) ∧
          ∀ bi off, bi ≠ buffer c ∨ off < base ∨ base + 64 ≤ off → t.spadGet bi off = s.spadGet bi off) ∧
    (Executes s g p (.chrecv x) →
      (channelFor s g n false = none → exec (.chrecv x) s = .next (trapped s g p (.chrecv x) .chn (BitVec.ofNat 64 n) e)) ∧
      ∀ c, channelFor s g n false = some c →
        (c.count = 0 → blockDone s c.launch c.prod = false → ∃ t, exec (.chrecv x) s = .next t ∧
          SplitBecomes s t g p (fun q =>
            { q with wait := .chanRecv c.launch c.num, since := s.now, age := 0, reserved := false })) ∧
        (c.count ≠ 0 → ∃ t u, exec (.chrecv x) s = .next t ∧
          t = { u with channels := channels c (fun d =>
            { d with head := (d.head + 1) % d.depth, count := d.count - 1, flying := d.flying + 1 }) } ∧
          let byte (L b : Nat) : Byte := s.spadGet (buffer c) (chanBase s c + 64 * c.head + 4 * L + b)
          RegisterEffect s u g p (.chrecv x) (fun h => FlagsSame g h ∧ h.uni = g.uni ∧ h.pred = g.pred ∧
            VectorWritten g h e false x.d.toNat (fun L =>
              if real L then 0#32 ++ byte L 3 ++ byte L 2 ++ byte L 1 ++ byte L 0 else 0)))) ∧
    (Executes s g p (.chpeek x) →
      let space := x.var.getLsbD 0
      (channelFor s g n space = none → exec (.chpeek x) s = .next (trapped s g p (.chpeek x) .chn (BitVec.ofNat 64 n) e)) ∧
      ∀ c, channelFor s g n space = some c → ∃ t, exec (.chpeek x) s = .next t ∧
        RegisterEffect s t g p (.chpeek x) (fun h => FlagsSame g h ∧ PredicateWritten g h e (x.d.toNat % 16) (fun L =>
          real L && (if space then decide (c.credits ≠ 0) else decide (c.count ≠ 0)))))) ∧
  ∀ (li ch : Nat) (s : State), exec (.channelCredit li ch) s = .next { s with channels := s.channels.map (fun c =>
    if c.launch = li ∧ c.num = ch ∧ c.flying ≠ 0 then { c with flying := c.flying - 1, credits := c.credits + 1 }
    else c) }

/-! ## Commands -/

/-- R151, R161, R166, R249: a command's end: firmware has its 16-byte record to store at the completion address, then the ring's
MSI-X vector to raise, and the ring goes past the command; nothing else changes. When nothing reserves or holds back the line
of a plain HBM page there, the record is stored and the host sees it; an addition to an event word adds its value. No other byte
of memory changes. That the record of a command with CTX 0 goes to a bus address of host memory (log 95), that a ring's vector is
its function's number (log 98) and when firmware performs its accesses (log 24) are the model's choices. -/
def Obligations.CompletionRecordWritten : Prop :=
  let keeps (s t : State) : Prop := t.hostMem = s.hostMem ∧ t.posted = s.posted ∧ t.ctxs = s.ctxs ∧ t.launches = s.launches ∧
    t.blocks = s.blocks ∧ RegistersSame s t
  (∀ (c : Cmd) (status : Nat) (value : DWord) (s : State),
    let t := complete c status value s
    let bytes : List Byte := bytesLE 4 c.seq.toNat ++ bytesLE 4 status ++ bytesLE 8 value.toNat
    let seen : Completion := { fn := c.fn, seq := c.seq, status := status, value := value }
    t = { s with taken := t.taken, fwOut := s.fwOut ++ [.store .firmware c.ctx c.compl.toNat bytes, .completion seen] } ∧
    (∀ fn, t.taken.get [] fn = if fn = c.fn ∧ (s.taken.get [] fn).head?.bind ringCmd = some c then (s.taken.get [] fn).drop 1
      else s.taken.get [] fn) ∧
    (s.fwOut = [] → c.ctx = 0 → c.compl.toNat % 16 = 0 → s.engines = [] → let f := flushFw t
      f.fwOut = [] ∧ f.mem = s.mem ∧ ∀ k, k < 16 → f.hostGet (c.compl.toNat + k) = bytes.getD k 0) ∧
    ∀ x m u, s.fwOut = [] → c.ctx ≠ 0 → c.fn < 2048 → s.ctx? c.ctx = some x → mapFind x.maps c.compl.toNat = some m → m.space = .hbm →
      c.compl.toNat % 16 = 0 → reserved t (m.phys c.compl.toNat / 128) = false → hostHolds t (m.phys c.compl.toNat) = false →
      claimNow t .firmware (m.phys c.compl.toNat) true = some u →
      let pa := m.phys c.compl.toNat
      let f := flushFw t
      f.fwOut = [] ∧ f.completions = s.completions ++ [seen] ∧ f.msix = s.msix ++ [c.fn] ∧ keeps s f ∧
      ∀ a, f.memGet a = if pa ≤ a ∧ a < pa + 16 then bytes.getD (a - pa) 0 else s.memGet a) ∧
  ∀ (cn va : Nat) (v : DWord) (s u : State) (x : Ctx) (m : Mapping), s.fwOut = [.raise cn va v] → cn ≠ 0 → s.ctx? cn = some x →
    (∀ k, k < 8 → mapFind x.maps (va + k) = some m) → m.space = .hbm → va % 8 = 0 → reserved s (m.phys va / 128) = false →
    hostHolds s (m.phys va) = false → claimNow s .firmware (m.phys va) true = some u →
    let pa := m.phys va
    let f := flushFw s
    f.fwOut = [] ∧ keeps s f ∧ natLE (f.memBytes pa 8) = (natLE (s.memBytes pa 8) + v.toNat) % 2 ^ 64 ∧
    ∀ a, a < pa ∨ pa + 8 ≤ a → f.memGet a = s.memGet a

/-- R14, R42, R43, R83, R97, R111, R151, R213, R220, R231, R246, R248 to R251, R257, R259: the commands on queues, events,
traps, quotas, ports, power, traces, time, attestation, life cycle, emulation and partitions complete with STATUS 0 when their
arguments are valid, and each changes what it names. The lowest free partition number and the dies and weights that a partition may
have (logs 7, 30), what SUBMIT checks (log 13), the checks and the order of the other commands (log 31), what a reset keeps (log 37)
and what a partition's end unmaps (log 85) are the model's choices. -/
def Obligations.SettingCommandsComplete : Prop :=
  ∀ (c : Cmd) (s : State), plainCmd c = true →
    let done (i : Instr) (value : DWord) (u : State) : Prop := exec i s = .next (complete c 0 value u)
    let onX (x : Ctx) (f : Ctx → Ctx) (s : State) : State := s.modCtx x.num f
    (∀ x, s.ctx? c.ctx = some x →
      (∀ queue prio ring, queue < 64 → prio < 8 → done (.queueSetup c queue prio ring) 0
        (onX x (fun x => { x with queues := modNth (fun q => { q with prio := prio, ring := ring }) x.queues queue }) s)) ∧
      (∀ seq, done (.trapqAck c seq) 0 (consume c.ctx (fun r => r.cause != .svc && decide (r.seq.toNat ≤ seq)) s)) ∧
      (∀ mask, done (.portBind c mask) 0 (onX x (fun x => { x with ports := mask }) s)) ∧
      (∀ quota, quota.length = 8 → x.state ≠ .killed →
        (∀ t, t < 8 → quotaBad s x.num t (quota.getD t 0) = false) → done (.orbitQuota c quota) 0
          (onX x (fun x => { x with quota := quota })
            ((List.range 8).foldl (fun s t => setQuota x.num t (quota.getD t 0) s) s))) ∧
      (∀ die ring size mask, die < 9 → done (.traceSetup c die ring size mask) 0 { s with
        traces := s.traces.filter (fun u => u.die != die) ++
          [{ die := die, ctx := x.num, ring := ring, size := size, mask := mask, pos := 0, dropped := 0 }] }) ∧
      (∀ va value m, va.toNat % 8 = 0 → va.toNat < 2 ^ 57 → mapFind x.maps va.toNat = some m → m.r = true → m.w = true →
        m.window = false → x.present m va.toNat = true → s.ccbPage c.ctx va.toNat = false →
        done (.eventSignal c va value) 0 { s with fwOut := s.fwOut ++ [.raise c.ctx va.toNat value] }) ∧
      (∀ queue desc deps v, queue < 64 → deps.length ≤ 2 → x.state ≠ .killed → s.launches.length + 2 ≤ 2 ^ 32 →
        x.covers desc.toNat 128 (fun m => m.r) = true → fwTouch [(x.num, desc.toNat, 128)] s = some v →
        let d := parseDesc (fwBytes v x.num desc.toNat 128)
        d.done.toNat % 16 = 0 → x.covers d.done.toNat 16 (fun m => m.r && m.w && !m.window) = true →
        ∃ id u, id ≠ 0 ∧ done (.submit c queue desc deps) (0#32 ++ id) u ∧
          (∀ l ∈ s.launches, l.ctx = x.num → l.phase = .queued ∨ l.phase = .admitted → l.id ≠ id) ∧
          u.launches = s.launches ++ [{ ctx := x.num, id := id, queue := queue, descVa := desc, desc := d, deps := deps,
                                        phase := .queued, arm := x.armOf d.entry, started := [], finished := 0 }] ∧
          u = { (onX x (fun x => { x with nextLaunch := id + 1, queues := modNth (fun q =>
            { q with waiting := q.waiting ++ [s.launches.length] }) x.queues queue }) v) with launches := u.launches })) ∧
    (∀ watts, 2400 ≤ watts → watts ≤ 4000 → done (.powerCap c watts) 0 { s with powerCap := watts }) ∧
    (∀ domain transport stepOk, domain < 256 → transport < 3 → done (.ptpSetup c domain transport stepOk) 0
      { s with ptp := some (domain, transport, stepOk), servo := if s.servo = .locked then .locked else .locking }) ∧
    (∃ value, done (.timeStatus c) value s) ∧
    (∀ nonce, s.life = .provisioned ∨ s.life = .deployed → ∃ value, done (.attest c nonce) value s) ∧
    (∀ target by_, lifeStep s.life target by_ = true → (flushFw (complete c 0 0 s)).fwOut = [] →
      exec (.lifecycle c target by_) s = .next (resetPackage { flushFw (complete c 0 0 s) with life := target })) ∧
    (∀ library majors, majors.Nodup → (∀ m ∈ majors, 56 ≤ m ∧ m ≤ 63) → library.toNat < 2 ^ 57 →
      done (.emuInstall c library true majors) 0 { s with emuMajors := majors }) ∧
    (∀ dies weights n, dies ≠ [] → dies.Nodup → (∀ d ∈ dies, enabledDie s d = true ∧ ∀ p ∈ s.parts, d ∉ p.dies) →
      weights = [] ∨ (weights.length = 4 ∧ ∀ w ∈ weights, 1 ≤ w ∧ w ≤ 8) → n < 9 → (∀ p ∈ s.parts, p.num ≠ n) →
      (∀ m, m < n → ∃ p ∈ s.parts, p.num = m) → ∃ u, done (.partCreate c dies weights) (BitVec.ofNat 64 n) u ∧
        u = { s with parts := u.parts, ifaces := u.ifaces } ∧ ∃ p, u.parts = s.parts ++ [p] ∧ p.num = n ∧
          p.dies.Perm dies ∧ p.weights = if weights = [] then [2, 2, 1, 4] else weights) ∧
    ∀ p, s.part? p.num = some p → (∀ x ∈ s.ctxs, x.part ≠ p.num) → done (.partDestroy c p.num) 0
      (unmapDies p.dies (wipeDies p.dies { s with parts := s.parts.filter (fun q => q.num != p.num) }))

/-- R96, R122, R123, R136, R142 to R144, R158, R168, R377: the commands of translation complete with STATUS 0 when their
arguments are valid: MAP adds its mapping over zeroed frames, UNMAP takes its range away and logs it, RECLASSIFY returns
granules to UNCLASSIFIED and tells their previous states, LOG_APPLY applies the logs, ICACHE_INVAL drops sectors; and
translations arrive and are invalidated. That a window page needs an allocation and a frame in use holds a MAP back (log 27), that a
full log is applied at once (log 28), what ATS_TRANSLATION and ATS_INVALIDATION do (logs 29, 88) and what a page walk brings in
(log 58) are the model's choices. -/
def Obligations.TranslationCommandsComplete : Prop :=
  ∀ (c : Cmd) (m : MemArgs) (s : State) (x : Ctx), plainCmd c = true → s.ctx? c.ctx = some x →
    let done (i : Instr) (value : DWord) (u : State) : Prop := exec i s = .next (complete c 0 value u)
    let n := m.pages * pageBytes m.psize
    let mp := argsMapping m
    let gone := x.maps.filterMap (fun o => o.inside m.va.toNat n)
    (argsOk m = true → m.report = 0 → m.attr.toNat < 64 → m.target.toNat % pageBytes m.psize = 0 →
      (mp.w = true → mp.r = true) → targetOk s x mp n = true → (∀ o ∈ x.maps, o.meets mp.va n = false) →
      (mp.space = .hbm → frameBusy s mp.target n = false) → done (.map c m) 0
        ((if mp.space = .hbm then zeroFrames x mp.target n s else s).modCtx c.ctx (fun x => { x with maps := x.maps ++ [mp] }))) ∧
    (∀ pa, (zeroFrames x mp.target n s).memGet pa = if mp.target ≤ pa ∧ pa < mp.target + n ∧
        (∀ o ∈ x.maps, o.space = .hbm → pa < o.target ∨ o.target + o.pages * o.psize ≤ pa) then 0 else s.memGet pa) ∧
    (argsOk m = true → m.target = 0 → m.attr = 0 → m.report = 0 → (∀ o ∈ x.maps, o.cut m.va.toNat n = false) →
      (gone = [] → done (.unmap c m) 0 s) ∧
      ∀ u, gone ≠ [] → drainAll (granuleIn gone) s = (u, true) →
        done (.unmap c m) (BitVec.ofNat 64 ((gone.map (fun o => o.pages * o.psize)).sum))
          (unmapRange c.ctx m.va.toNat m.pages m.psize gone u)) ∧
    (argsOk m = true → m.target = 0 → m.attr = 0 → m.report = 0 →
      let fine := x.maps.filterMap (fun o => o.insideFine m.va.toNat n)
      ∀ u, drainAll (granuleIn fine) s = (u, true) → ∃ value, done (.reclassify c m) value u ∧ u = { s with granules := u.granules, l1 := u.l1, dir := u.dir } ∧
        (∀ g ∈ u.granules, granuleIn fine g.num = true → g.cls = .unclassified) ∧
        (∀ g ∈ s.granules, granuleIn fine g.num = false → g ∈ u.granules) ∧
        ∀ k o, k < 32 → k < n / 4096 → mapFind x.maps (m.va.toNat + 4096 * k) = some o → o.space = .hbm →
          value.toNat / 4 ^ k % 4 = (s.granule (o.phys (m.va.toNat + 4096 * k) / 4096)).cls.code) ∧
    (∀ dies, (∀ d ∈ dies, d < 9 ∨ d = ioDie) → done (.logApply c dies) 0 (applyLogs dies s)) ∧
    (∀ va bytes, ∃ keep : Nat → Bool, done (.icacheInval c va bytes) 0
        { s.modCtx c.ctx (fun x => { x with texts := x.texts.map (fun t =>
            if va.toNat ≤ t.lo ∧ t.hi ≤ va.toNat + bytes then { t with ready := true } else t) }) with
          icache := s.icache.filter (fun e => keep e.sector) } ∧
      ∀ o ∈ x.maps, o.host = false → o.window = false → ∀ a, o.va ≤ a → a < o.va + o.pages * o.psize → va.toNat ≤ a →
        a < va.toNat + bytes → keep (o.phys a / 32) = false) ∧
    (∀ die va o, mapFind x.maps va.toNat = some o → x.present o va.toNat = true → s.tlbFind die .second c.ctx va.toNat = none →
      die ∈ x.bind → ∃ t, exec (.pageWalkCompletion die c.ctx va) s = .next t ∧ t = { s with tlb := t.tlb } ∧
        t.tlbFind die .second c.ctx va.toNat = some o ∧
        ∀ e ∈ t.tlb, e ∈ s.tlb ∨ (e.die = die ∧ e.ctx = c.ctx ∧ e.va = o.page va.toNat ∧ e.map = o ∧ e.part = .second)) ∧
    (∀ bus host, exec (.atsTranslation bus host) s =
      .next { s with atc := s.atc.filter (fun a => a.1 != bus) ++ [(bus, host)] }) ∧
    ∀ p va pages, s.part? p.num = some p → p.dies ≠ [] → ∃ t, exec (.atsInvalidation p.num c.ctx va pages) s = .next t ∧
      t.mem = s.mem ∧ t.atsEpoch = s.atsEpoch + 1 ∧
      (∀ d ∈ p.dies, (t.dieLog d).entries = [] ∧ (t.dieLog d).applied = s.logSeq + 1) ∧
      (∀ a ∈ t.atc, ∀ b ∈ busPages s c.ctx va.toNat (pages * 65536), a.1 < b.1 ∨ b.1 + b.2 ≤ a.1) ∧
      ∀ e ∈ t.tlb, e.die ∈ p.dies → e.die ≠ ioDie → e.ctx = c.ctx →
        e.va + e.map.psize ≤ va.toNat ∨ va.toNat + pages * 65536 ≤ e.va

/-- R15, R158, R235, R237, R238, R240, R248, R249: CTX_CREATE adds a context with the lowest free number, its control block's page
mapped read-only over a zeroed frame, CTX_SAVE asks a running one to stop, CONTEXT_SAVED saves one whose work has halted, CTX_RESTORE seats a saved one, CTX_KILL kills one,
CTX_DESTROY removes it once its block's STATE is 0. The frame of the control block and the write of STATE 0 before the unmapping
(log 18), the WDEXP 0 that is taken as 26 (log 30), commands that wait by taking their turn again
(log 22), the order of a save's steps (log 20), and the copy of the frames of a context that is restored onto another partition
(log 85) are the model's choices. -/
def Obligations.ContextCommandsComplete : Prop :=
  ∀ (c : Cmd) (s : State),
    let bindOf (part : Nat) (perm : Option (List Nat)) : Option (List Nat) :=
      (s.part? part).bind (fun p => bindTable p.dies perm)
    (∀ part wdexp debug perm ccb trapq pool size bind n, plainCmd c = true → bindOf part perm = some bind →
      ccb.toNat % 4096 = 0 → ccb.toNat < 2 ^ 57 → wdexp < 64 → (debug = true → debugOk s.life n = true) → 1 ≤ n → n ≤ 65535 →
      (∀ x ∈ s.ctxs, x.num ≠ n) → (∀ k, 1 ≤ k → k < n → ∃ x ∈ s.ctxs, x.num = k) →
      (freeFrame s bind = none → exec (.ctxCreate c part wdexp debug perm ccb trapq pool size) s = .next (complete c 2 0 s)) ∧
      ∀ frame, freeFrame s bind = some frame → ∃ (x : Ctx) (u : State),
        exec (.ctxCreate c part wdexp debug perm ccb trapq pool size) s =
          .next (complete c 0 (BitVec.ofNat 64 n) { u with ctxs := s.ctxs ++ [x] }) ∧
        u = { s with mem := u.mem, icache := u.icache } ∧
        (∀ pa, u.memGet pa = if frame ≤ pa ∧ pa < frame + 65536 then 0 else s.memGet pa) ∧
        frame / 2 ^ 37 ∈ bind ∧ frame / 65536 ∉ s.retiredFrames ∧ frameBusy s frame 65536 = false ∧
        (∀ y ∈ s.ctxs, ∀ m ∈ y.maps, m.space = .hbm → frame + 65536 ≤ m.target ∨ m.target + m.pages * m.psize ≤ frame) ∧
        x.maps = [{ va := ccb.toNat, pages := 1, psize := 4096, target := frame, r := true, w := false, x := false, host := false,
                    window := false, demand := false }] ∧
        x.num = n ∧ x.state = .ready ∧ x.part = part ∧ x.bind = bind ∧ x.debug = debug ∧ x.ccb = ccb ∧ x.trapq = trapq ∧
        x.head = 0 ∧ x.tail = 0 ∧ x.traps = [] ∧ x.texts = [] ∧
        x.wdexp = if wdexp = 0 then 26 else wdexp) ∧
    ∀ x, s.ctx? c.ctx = some x → c.pad = 0 →
      (c.flags.toNat < 2 →
        (x.saveCmd = some c → exec (.ctxSave c) s = .next s) ∧
        (x.saveCmd ≠ some c → x.stopping = false → x.state = .ready ∨ x.state = .running →
          exec (.ctxSave c) s = .next ((s.ctxGroups x.num).foldl (fun s gi => withdrawCalls (fun n => n == 0) gi s)
            (stopGroups (stopped s x.num (c.flags.getLsbD 0)) (s.modCtx x.num (fun x =>
              { x with stopping := true, saveComplete := c.flags.getLsbD 0, saveCmd := some c })))))) ∧
      (c.flags = 0 → x.state ≠ .killed → exec (.ctxKill c) s = .next (complete c 0 0 (killCtx x.num 1 s))) ∧
      (c.flags = 0 →
        let k := flushFw (clearSlots x.num (killCtx x.num 1 s))
        (k.fwOut ≠ [] → exec (.ctxDestroy c) s = .next k) ∧
        ∀ u, k.fwOut = [] → drainAll (granuleIn x.maps) k = (u, true) →
          (flushFw (complete c 0 0 (fwStore x.num (x.ccb.toNat + 4) (bytesLE 1 0) u))).fwOut = [] → ∃ t, exec (.ctxDestroy c) s = .next t ∧ t.ctx? c.ctx = none ∧
            t.completions.getLast? = some { fn := c.fn, seq := c.seq, status := 0, value := 0 }) ∧
      (x.stopping = true → s.frozen = false → let v := stopGroups (stopped s x.num x.saveComplete) s
        haltDone v (s.ctxGroups x.num) x.saveComplete = true → creditsFly v x.num = false → ∃ t y, exec (.contextSaved x.num) s = .next t ∧
        t.ctx? x.num = some y ∧ y.state = .saved ∧ y.reason = some .preempt ∧ y.stopping = false ∧ y.saveCmd = none) ∧
      ∀ part perm places bind v, c.flags = 0 → x.state = .saved → bindOf part perm = some bind →
        bind.length = x.bind.length →
        let bs := (s.ctxBlocks x.num).filter (fun b => b.2.cores != [])
        (∀ b ∈ bs, saveValid s x.num b.2 = true) → placesOk s bind (occupied s none) bs places = true →
        (part ≠ x.part → framesFree s (x.maps.flatMap (Mapping.moved x.bind bind)) = true) →
        fwTouch (saveRuns s bs) s = some v →
        ∃ t y, exec (.ctxRestore c part perm places) s = .next t ∧ t.ctx? x.num = some y ∧ y.bind = bind ∧ y.part = part ∧
          (y.state = .running ∨ y.state = .ready)

/-- R169, R213, R228, R231, R241: a kill of a context: it is KILLED, nothing of it runs or is outstanding, its slots are
cleared, its record of the kill stands behind every earlier one and names the subcode, and no register of another context's
groups changes. -/
def Obligations.KillEndsContext : Prop :=
  ∀ (cn sub : Nat) (s : State) (c : Ctx), s.ctx? cn = some c → c.state ≠ .killed →
    let t := killCtx cn sub s
    (∃ d, t.ctx? cn = some d ∧ d.state = .killed ∧ d.reason = some .kill ∧ d.stopping = false ∧
      ∃ pre r post, d.traps = pre ++ r :: post ∧ r.cause = .kill ∧ r.aux = BitVec.ofNat 64 sub ∧ r.split = 0xFF ∧
        ∀ q ∈ post.head?, s.cycle.toNat < q.cycle ∨ (s.cycle.toNat = q.cycle ∧ lastOrder < q.order)) ∧
    (∀ n d, n ≠ cn → s.ctx? n = some d → ∃ e, t.ctx? n = some e ∧ e = { d with svclog := e.svclog }) ∧
    (∀ gi g, s.group? gi = some g → s.groupCtx g = cn → ∃ h, t.group? gi = some h ∧ h.retired = true ∧ h.splits = []) ∧
    (∀ gi g, s.group? gi = some g → s.groupCtx g ≠ cn → ∃ h, t.group? gi = some h ∧ h = { g with splits := h.splits }) ∧
    (∀ o ∈ t.engines, o.ctx ≠ cn) ∧ (∀ e ∈ t.slots, e.2.tag.toNat ≠ cn) ∧
    ∀ a ∈ t.acc, ∀ g, s.group? a.group = some g → s.groupCtx g ≠ cn

/-- R84, R146, R232, R234, R367: SPLIT_RESUME, the end of an emulation and the end of a service let a split go on: RETRY at its
instruction with the unfinished lanes of a page fault, SKIP behind it, GOTO at an address in .text, the emulated instruction
behind its words with results in the lanes of E only, the service at the address that the SVC kept; a trapped split becomes dormant, youngest of
its group, and stays stopped while its record waits for a place in the ring; the state of a block off the cores is read from
its save area and written there. A routine makes one access at a time, and one that declines leaves ILL. The order of accesses
and what an access that faults does (log 73), and what SPLIT_RESUME checks and writes (logs 32, 62), are the model's choices. -/
def Obligations.SplitsResume : Prop :=
  ∀ (s : State) (gi si : Nat) (g : Group) (p : Split), s.group? gi = some g → g.split? si = some p →
    let dormant (h : Group) (pc : DWord) (pend : LaneMask) : Prop :=
      h = { g with splits := g.splits.map (fun q => if q.idx = si then
        { q with run := .dormant, cause := none, pc := pc, pend := pend, wait := .none, order := nextOrder g.splits } else q) }
    (∀ c x, plainCmd c = true → s.ctx? c.ctx = some x → s.groupCtx g = x.num → x.state = .ready ∨ x.state = .running →
      p.run = .trapped → p.cause ≠ some .svc → onCores s g.block = true →
      let resumes (act : ResumeAction) (pc : DWord) (pend : LaneMask) : Prop :=
        ∃ u h, exec (.splitResume c gi si [] act) s = .next (complete c 0 0 u) ∧ u = { s with groups := u.groups } ∧
          u.group? gi = some h ∧ dormant h pc pend
      (recordWaits s g si = true → ∀ w act, act ≠ .kill → exec (.splitResume c gi si w act) s = .next s) ∧
      (recordWaits s g si = false →
        resumes .retry p.pc (if p.cause = some .pf ∨ p.cause = some .emptyto then p.pend else 0) ∧
        (∀ n, sizeAt s g p.pc = some n → resumes .skip (p.pc + BitVec.ofNat 64 n) 0) ∧
        ∀ pc, s.inText g pc = true → resumes (.goto pc) pc 0)) ∧
    (∀ c x b v, plainCmd c = true → s.ctx? c.ctx = some x → s.groupCtx g = x.num → x.state ≠ .killed → g.retired = false →
      onCores s g.block = false → s.block? g.block = some b → fwTouch (saveRuns s [(g.block, b)]) s = some v →
      let r := readSave g.block v
      ∀ h q, r.group? gi = some h → h.split? si = some q → r.groupCtx h = x.num → q.run = .trapped → q.cause ≠ some .svc →
        recordWaits r h si = false → ∃ u, exec (.splitResume c gi si [] .retry) s = .next (complete c 0 0 (writeGroup gi u)) ∧
          u = { r with groups := u.groups } ∧ ∃ k, u.group? gi = some k ∧ (k.split? si).map (fun q => (q.run, q.pc, q.cause)) =
            some (.dormant, q.pc, none)) ∧
    (∀ w0 accs ws, p.wait = .emulation w0 → inFlight s gi = false → s.frozen = false → onCores s g.block = true →
      let e := guardLanes g p (guardOf w0)
      let n := s.routineAt gi si
      let i : Instr := .emulationComplete gi si (.done accs ws)
      (∀ a, e ≠ 0 → accs[n]? = some a → exec i s = .next
        (match proxyAccess .proxy g.die g.lanesTlb (s.groupCtx g) a s with
         | some t => (t.setRoutine gi si (n + 1)).accept i
         | none => offer .proxy i (proxyWaits s g.die g.lanesTlb (s.groupCtx g) a) s)) ∧
      (e = 0 ∨ accs.length ≤ n → ∃ t h, exec (.emulationComplete gi si (.done accs ws)) s = .next t ∧
        t = { s with groups := t.groups, routines := t.routines } ∧ t.routineAt gi si = 0 ∧ t.group? gi = some h ∧
        (∀ j, j ≠ gi → t.group? j = s.group? j) ∧
        h.splits = g.splits.map (fun q =>
          if q.idx = si then q.goto (q.pc + BitVec.ofNat 64 (4 * wordCount (lenOf w0))) else q) ∧
        (ws = [] ∨ e = 0 → h = { g with splits := h.splits }) ∧
        (∀ r L, L < 16 → e.getLsbD L = false → h.vget r L = g.vget r L) ∧
        ∀ q L, e.getLsbD L = false → (h.pget q).getLsbD L = (g.pget q).getLsbD L) ∧
      (g.handler = none → ∃ t, exec (.emulationComplete gi si .declined) s = .next t ∧ Trapped t gi si .ill p.pc 0)) ∧
    ∀ r core, p.run = .trapped → p.cause = some .svc → s.frozen = false → onCores s g.block = true →
      lanesBusy s gi p.mask = false → callRecord s g si = some r → callCore s (s.groupCtx g) r = some core → ∃ t h,
        exec (.svcServiceComplete gi si (.resume [] [])) s = .next t ∧ t.group? gi = some h ∧
        dormant h (match p.wait with
          | .service _ next => next
          | _ => p.pc + BitVec.ofNat 64 ((sizeAt s g p.pc).getD 12)) 0 ∧
        ∀ j, j ≠ gi → t.group? j = s.group? j

/-! ## Launches and the schedule -/

/-- R23, R24, R40 to R42, R44 to R46, R97, R111, R151, R225, R228, R237, R250: a launch of the highest eligible priority is
admitted or refused, each block starts with the values of R24 where its placement has room, an evicted one is read back and
resumes, a block completes when its groups, handlers and operations have ended, and blocks are pre-empted and migrate. Which checks admission
makes and in which order (log 13), the values of a save area (log 19), the choice of placements and areas (logs 15, 16, 100), the
steps of a stop (logs 20, 94) and what a restore takes of section 3 (log 93) are the model's choices. -/
def Obligations.LaunchesRun : Prop :=
  ∀ s : State,
    (∀ part h, pickHead s part = some h → h ∈ eligibleHeads s part ∧ ∀ k ∈ eligibleHeads s part, k.1 ≤ h.1 ∧
      let key (x : Nat × Nat × Nat × Nat) : Nat := x.2.1 * 64 + x.2.2.1
      let last := s.rrLast.get 0 (part * 8 + h.1)
      (k.1 = h.1 → (last ≤ key k → last ≤ key h ∧ key h ≤ key k) ∧ (key k < last → last ≤ key h ∨ key h ≤ key k))) ∧
    (∀ part prio cn qn li l c v u, s.frozen = false → fwTouch (depRuns part s) s = some v → pickHead v part = some (prio, cn, qn, li) →
      v.launch? li = some l → v.ctx? cn = some c → fwTouch (tableRuns cn l.desc v) v = some u →
      (∀ r, admissionCheck u c li l.desc = .error r → ∃ t, exec (.launchAdmission part) s = .next t ∧
        t.launch? li = some { l with phase := .refused r } ∧ t.blocks = s.blocks) ∧
      ∀ cs, admissionCheck u c li l.desc = .ok cs →
        (hasRoom u c cs l.desc = false → exec (.launchAdmission part) s = .next u) ∧
        (hasRoom u c cs l.desc = true → ∃ t, exec (.launchAdmission part) s = .next t ∧ t.launch? li = some
          { l with phase := .admitted, started := l.started ++ (if l.desc.progress = 0 then List.range l.desc.blocks else []) } ∧
        t.blocks.length = s.blocks.length + (if l.desc.progress = 0 then l.desc.blocks else 0) ∧
        t.channels = s.channels ++ cs)) ∧
    (∀ li l c place, s.launch? li = some l → s.ctx? l.ctx = some c → mayPlace s l c = true →
      let f (lin : Nat) : Nat := bufferBytes (s.channelsOf li) lin
      (∀ lin, evictedAt s li lin = none → startable l lin = true →
        placementOk (occupied s none) (cohortDie c lin) l.desc (f lin) place = true →
        areaOk s c place.saveArea.toNat (saveSize l.desc (s.channelsOf li).length (f lin)) = true → ∃ t b,
        exec (.blockStart li lin place) s = .next t ∧ t.blocks = s.blocks ++ [b] ∧ b.launch = li ∧ b.lin = lin ∧
        b.die = cohortDie c lin ∧ b.cores = place.cores ∧ b.saveArea = place.saveArea ∧ b.scratch = [] ∧ b.complete = false ∧
        t.launch? li = some { l with started := l.started ++ [lin] } ∧
        t.groups.length = s.groups.length + l.desc.groups + l.desc.hslots ∧
        (∀ gi, gi < s.groups.length → t.group? gi = s.group? gi) ∧
        (∀ i g, l.desc.groups ≤ i → t.group? (s.groups.length + i) = some g → g.retired = true ∧ g.splits = [] ∧
          g.handler.isSome = true ∧ (∀ r L, g.vget r L = 0) ∧ ∀ r, g.uget r = 0) ∧
        ∀ i, i < l.desc.groups → ∃ g, t.group? (s.groups.length + i) = some g ∧ g.block = s.blocks.length ∧ g.idx = i ∧
          g.handler = none ∧ g.nv = l.desc.vregs ∧ g.ns = l.desc.sregs ∧ g.nt = l.desc.tiles ∧ g.na = l.desc.accs ∧
          g.flags = 0 ∧ g.arm = l.arm ∧ g.retired = false ∧ (∀ r L, g.vget r L = 0) ∧ (∀ q, q < 15 → g.pget q = 0) ∧
          g.splits = [Split.fresh 0 l.desc.entry g.present] ∧
          (∀ L, L < 16 → g.present.getLsbD L = decide (16 * i + L < 4 * ((l.desc.lanes + 3) / 4)) ∧
            g.helpers.getLsbD L = (g.present.getLsbD L && !decide (16 * i + L < l.desc.lanes))) ∧
          g.uget 0 = l.desc.args.extractLsb' 0 32 ∧ g.uget 1 = l.desc.args.extractLsb' 32 32 ∧
          g.uget 2 = BitVec.ofNat 32 (lin % l.desc.gridX) ∧
          g.uget 3 = BitVec.ofNat 32 (lin / l.desc.gridX % l.desc.gridY) ∧
          g.uget 4 = BitVec.ofNat 32 (lin / (l.desc.gridX * l.desc.gridY)) ∧ g.uget 5 = l.id ∧
          g.uget 6 = BitVec.ofNat 32 i ∧ g.uget 7 = BitVec.ofNat 32 l.desc.lanes ∧ ∀ r, 8 ≤ r → g.uget r = 0) ∧
      ∀ lin bi b v, evictedAt s li lin = some (bi, b) →
        placementOk (occupied s none) (cohortDie c b.lin) l.desc (f b.lin) place = true → saveValid s l.ctx b = true →
        fwTouch [saveRun s l b] s = some v → ∃ t d, exec (.blockStart li lin place) s = .next t ∧ t.mem = s.mem ∧
        t.block? bi = some d ∧ d = { b with
          die := cohortDie c b.lin, cores := place.cores, sbase := place.sbase,
          hplaces := place.hslots, stopped := false, scratch := d.scratch, lines := d.lines } ∧
        ∀ gi g, s.group? gi = some g → ∃ h, t.group? gi = some h ∧ (g.block ≠ bi → h = g) ∧
          h = { g with die := h.die, core := h.core, quarter := h.quarter, place := h.place, vec := h.vec, uni := h.uni,
                       pred := h.pred, flags := h.flags, arm := h.arm, tile := h.tile, scale := h.scale, acc := h.acc,
                       carry := h.carry, affine := h.affine, splits := h.splits, rets := h.rets } ∧
          (g.block = bi → g.handler = none → g.retired = false → h.die = cohortDie c b.lin ∧
            h.core = place.cores.getD (groupSpot l.desc g.idx).1 0 ∧ h.quarter = (groupSpot l.desc g.idx).2)) ∧
    (∀ bi b, s.block? bi = some b → b.complete = false → b.cores ≠ [] → blockEnded s bi = true → ∃ t,
      exec (.blockComplete bi) s = .next t ∧ t.block? bi = some { b with complete := true } ∧
      (∀ c ∈ t.channels, c.launch = b.launch → c.cons = b.lin → c.count = 0) ∧
      ∀ l, s.launch? b.launch = some l → t.launch? b.launch = some
        { l with finished := l.finished + 1,
                 phase := if l.phase = .admitted ∧ l.finished + 1 = l.desc.blocks then .completed else l.phase }) ∧
    let stop (bi : Nat) : State :=
      stopGroups (s.haltGroups (s.blockGroups bi)) (s.modBlock bi (fun b => { b with stopped := true }))
    (∀ bi b l c, s.block? bi = some b → s.launch? b.launch = some l → s.ctx? l.ctx = some c → l.desc.progress = 2 →
      l.phase = .admitted → c.state = .running → b.complete = false → b.cores ≠ [] →
      (higherWaits s c l = false → exec (.blockPreemption bi) s = .next (if b.stopped then
        State.modBlock { s with groups := s.groups.map (fun (g : Group) =>
            if g.block = bi then { g with splits := g.splits.map (Split.rested s.now) } else g) } bi (fun b =>
          { b with stopped := false }) else s)) ∧
      (higherWaits s c l = true → haltDone (stop bi) ((stop bi).blockGroups bi) false = false →
        exec (.blockPreemption bi) s = .next (stop bi)) ∧
      (higherWaits s c l = true → haltDone (stop bi) ((stop bi).blockGroups bi) false = true → ∃ t,
        exec (.blockPreemption bi) s = .next t ∧
        t.block? bi = some
          { b with stopped := true, cores := [], sbase := [], lastCores := b.cores, lastTime := some (s.timeOf b.die) })) ∧
    ∀ bi b l c place, s.block? bi = some b → s.launch? b.launch = some l → s.ctx? l.ctx = some c → mayPlace s l c = true →
      b.complete = false → b.cores ≠ [] → l.desc.progress ≠ 0 →
      placementOk (occupied s (some bi)) b.die l.desc (bufferBytes (s.channelsOf b.launch) b.lin) place = true →
      (haltDone (stop bi) ((stop bi).blockGroups bi) false = false → exec (.migration bi place) s = .next (stop bi)) ∧
      (haltDone (stop bi) ((stop bi).blockGroups bi) false = true → ∃ t, exec (.migration bi place) s = .next t ∧
        t.mem = s.mem ∧ t.block? bi = some { b with
          cores := place.cores, sbase := place.sbase, hplaces := place.hslots, stopped := false, lastTime := some (s.timeOf b.die) } ∧
        ∀ g ∈ s.granules, ∀ j k dirty m, g.cls = .private_ b.die k dirty → b.cores.findIdx? (fun c => c == k) = some j →
          m ∈ c.maps → m.space = .hbm → m.target ≤ 4096 * g.num → 4096 * g.num < m.target + m.pages * m.psize →
          k ≠ place.cores.getD j 0 → ∃ h ∈ t.granules, h.num = g.num ∧
            h.cls = if (∃ x ∈ s.ctxBlocks l.ctx, x.1 ≠ bi ∧ x.2.die = b.die ∧ k ∈ x.2.cores) then .shared
              else .private_ b.die (place.cores.getD j 0) dirty)

/-- R25, R28, R36, R37, R258: a live split that waits becomes dormant, the oldest that may run takes a free live place, a
join that has lasted 1,024 cycles gives way and its record dissolves, an age of 256 reserves, a YIELD ends after its 16
cycles, and a SLEEP when the counter reaches its instant. -/
def Obligations.SplitSchedule : Prop :=
  ∀ (gi si : Nat) (s : State) (g : Group) (p : Split), s.group? gi = some g → g.split? si = some p →
    let now (i : Instr) (p' : Split) : Prop := ∃ t, exec i s = .next t ∧ SplitNow s t gi g si p'
    (∀ j, mayTrap s gi = true → onCores s g.block = true → p.inner = some j → p.wait = .join →
      (p.since + 1024 ≤ s.now → ∃ t h, exec (.joinTimeout gi si) s = .next t ∧ OnlyGroup s t gi ∧ t.group? gi = some h ∧
        h = { g with splits := h.splits } ∧ (∀ q ∈ h.splits, ∀ k ∈ q.joins, k.id ≠ j.id) ∧
        h.split? si = some { p with joins := p.joins.filter (fun k => k.id != j.id), wait := .none }) ∧
      (s.now < p.since + 1024 → exec (.joinTimeout gi si) s = .next s)) ∧
    (p.run = .live → waitsOnMemory s p = true → waitOver s g p = false →
      now (.splitDormant gi si) { p with run := .dormant, order := nextOrder g.splits }) ∧
    (p.run = .live → 32 < p.stall → memoryHeld s g p = true →
      now (.splitDormant gi si) { p with run := .dormant, order := nextOrder g.splits }) ∧
    (p.run = .live → waitsOnMemory s p = false → p.stall ≤ 32 ∨ memoryHeld s g p = false → now (.splitDormant gi si) p) ∧
    (4 ≤ liveCount g.splits → exec (.splitActivate gi) s = .next s) ∧
    (liveCount g.splits < 4 → (∃ q ∈ g.splits, wakeable s g q = true) →
      ∃ q ∈ g.splits, wakeable s g q = true ∧ (∀ r ∈ g.splits, wakeable s g r = true → q.order ≤ r.order) ∧
        exec (.splitActivate gi) s = .next (s.modSplit gi q.idx (fun q => { q with run := .live }))) ∧
    (256 ≤ p.age → now (.waitAgeReservation gi si) { p with reserved := true }) ∧
    (p.age < 256 → now (.waitAgeReservation gi si) p) ∧
    (∀ till, p.wait = .yield till → (till ≤ s.now → now (.yieldExpiry gi si) { p with wait := .none }) ∧
      (s.now < till → now (.yieldExpiry gi si) p)) ∧
    ∀ instant next, p.wait = .sleep instant next →
      (instant.toNat ≤ (s.timeOf g.die).toNat → now (.sleepWake gi si) (p.goto next)) ∧
      ((s.timeOf g.die).toNat < instant.toNat → now (.sleepWake gi si) p)

/-! ## Waits on memory -/

/-- R49, R130, R138 to R141, R150, R157, R252: the barrier's watchdog traps its waiters with BARWD, an empty line's limit with
EMPTYTO and the unfinished lanes; the page service maps or declines; a drain reaches its holders, each acknowledges when quiet,
without a dirty line left, and ends when every one has; a remote write is performed, waits at its home, or is kept, sent again
after its hint and dropped after 64 refusals. What the watchdog counts (log 60), how the page service maps a page (log 57), when a
holder is quiet and which access a drain serves (log 80), when a refused write is sent again (log 49) and that one without
permission is dropped (log 91) are the model's choices. -/
def Obligations.WaitsEnd : Prop :=
  ∀ s : State,
    (∀ bi id,
      let keeper := barrierKeeper s bi id
      let count := ((s.block? keeper).map (fun b => b.barCount.get 0 id)).getD 0
      (count ≤ watchdogLimit s bi ∨ (∃ w ∈ barrierWaiters s bi id, mayTrap s w.1 = false) →
        exec (.barrierWatchdog bi id) s = .next s) ∧
      (watchdogLimit s bi < count → (∀ w ∈ barrierWaiters s bi id, mayTrap s w.1 = true) → ∃ t b, exec (.barrierWatchdog bi id) s = .next t ∧ t.block? keeper = some b ∧
        b.barCount.get 0 id = 0 ∧ ∀ gi si g p, s.group? gi = some g → g.handler = none → g.split? si = some p →
          waitsAt id p = true → g.block ∈ barrierSpan s bi id → Trapped t gi si .barwd p.pc 0)) ∧
    (∀ id a from_ g p c, s.access? id = some a → a.waitFrom = some from_ → a.done = false → s.group? a.group = some g →
      g.handler = none → g.split? a.split = some p → s.ctx? (s.groupCtx g) = some c →
      let left := maskOf (fun L => a.lanes.any (fun l => l.stage != .done && l.lane == L))
      (s.now < from_ + emptyLimit s a.group ∨ mayTrap s a.group = false → exec (.emptyLineTimeout id) s = .next s) ∧
      (from_ + emptyLimit s a.group ≤ s.now → mayTrap s a.group = true → ∃ t d r, exec (.emptyLineTimeout id) s = .next t ∧
        Trapped t a.group a.split .emptyto p.pc left ∧ t.ctx? (s.groupCtx g) = some d ∧ r ∈ d.traps ∧
        r.cause = .emptyto ∧ r.mask = left ∧ r.pc = p.pc)) ∧
    (∀ gi si g p va c, s.group? gi = some g → si < 16 → g.split? si = some p → p.wait = .replay va →
      s.ctx? (s.groupCtx g) = some c →
      (∀ m, mapFind c.maps va.toNat = some m → ∃ t d, exec (.pageFaultService gi si .mapped) s = .next t ∧
        t = { s with ctxs := t.ctxs, groups := t.groups } ∧ t.ctx? (s.groupCtx g) = some d ∧
        d = { c with resident := d.resident } ∧ (∀ v, v ∈ d.resident ↔ v = m.page va.toNat ∨ v ∈ c.resident) ∧
        SplitNow s { t with ctxs := s.ctxs } gi g si { p with wait := .none }) ∧
      (mayTrap s gi = false → exec (.pageFaultService gi si .declined) s = .next s) ∧
      (g.handler = none → mayTrap s gi = true → ∃ t d r, exec (.pageFaultService gi si .declined) s = .next t ∧
        let left : LaneMask := (if p.pend = 0 then p.act else p.pend) &&& ~~~g.helpers
        Trapped t gi si .pf p.pc left ∧ t.ctx? (s.groupCtx g) = some d ∧ r ∈ d.traps ∧ r.cause = .pf ∧
        r.aux = va ∧ r.mask = left)) ∧
    (∀ gi g o va, s.group? gi = some g → engineMiss s gi = some (o, va) →
      exec (.pageFaultService gi 16 .declined) s = .next (s.modEngine o.id (fun o => { o with fault := some (.pf, va) }))) ∧
    (∀ n holder,
      let gr := s.granule n
      (∀ d, (gr.drain = some d ∨ gr.drain = none ∧ ∃ x, drainGoal s n = some x ∧
          d = { to_ := (nextClass gr.cls x.2.1 x.2.2).1, by_ := some x, asked := [], stopped := [] }) →
        ∃ t e, exec (.drainRequest n holder) s = .next t ∧ t = { s with granules := t.granules, l1 := t.l1, dir := t.dir } ∧
          t.granule n = { gr with drain := some e } ∧ e.to_ = d.to_ ∧ e.by_ = d.by_ ∧
          (∀ a, a ∈ e.asked ↔ a ∈ d.asked ∨ a = holder ∧ holder ∈ gr.holders) ∧
          (∀ a, a ∈ e.stopped ↔ a ∈ d.stopped ∨ a = holder ∧ holder ∈ gr.holders ∧ quiet s holder n = true) ∧
          ∀ die core, holder = .core die core → holder ∈ gr.holders → quiet s holder n = true →
            ∀ l ∈ t.l1, l.die = die → l.core = core → l.inGranule n = true → l.st ≠ .m ∧ l.st ≠ .o) ∧
      (∀ d, gr.drain = some d → d.by_ = none ∨ (∃ h ∈ gr.holders, h ∉ d.stopped) → exec (.drainPoint n) s = .next s) ∧
      ∀ d w a wr, gr.drain = some d → d.by_ = some (w, a, wr) → (∀ h ∈ gr.holders, h ∈ d.stopped) → ∃ t,
        exec (.drainPoint n) s = .next t ∧ t = { s with granules := t.granules, l1 := t.l1, dir := t.dir } ∧
        (t.granule n).cls = (if (nextClass gr.cls a wr).2 then (nextClass gr.cls a wr).1 else d.to_) ∧
        (t.granule n).drain = none ∧ (t.granule n).holders = lineHolders t n ∧ (t.granule n).held.head? = some w) ∧
    ∀ port cn va bytes, bytes ≠ [] → va.toNat % 32 + bytes.length ≤ 32 → port ∉ s.portsDown →
      let at_ (v : State) : Xlat := xlate v (ctxDie v cn) .second cn va .w
      let misses (v : State) : Prop := at_ v = .pf ∨ at_ v = .replay
      let barred (v : State) (pa : Nat) : Prop :=
        reservedFor v cn (va.toNat / 32) (.hbm, 0, pa / 128) = true ∨ hostHolds v pa = true
      let lands (v : State) (i : Instr) (post : State → Prop) : Prop :=
        ∀ pa u, at_ v = .ok .hbm pa → ¬barred v pa → claimNow v (.parnar port) pa true = some u → ∃ t, exec i s = .next t ∧
          (∀ a, t.memGet a = if pa ≤ a ∧ a < pa + bytes.length then bytes.getD (a - pa) 0 else s.memGet a) ∧ post t
      let w : Instr := .remoteWrite port cn va bytes
      let v := s.countFlit (.port port) true
      lands v w (fun t => t.retries = s.retries) ∧
      (misses v → exec w s = .next (keepRemote port cn va bytes 1 (retryDue s) v)) ∧
      (at_ v = .prot → exec w s = .next v) ∧
      (∀ pa, at_ v = .ok .hbm pa → barred v pa →
        exec w s = .next (remoteWaits port cn va (keepRemote port cn va bytes 0 0 v))) ∧
      ∀ n k, s.retries.find? (fun r => r.port == port && r.ctx == cn && r.va == va && r.bytes == bytes && r.refusals == n) = some k →
        let i : Instr := .remoteRetry port cn va bytes n
        let dropped : State := { s with retries := s.retries.erase k }
        (s.now < k.due → exec i s = .next s) ∧
        (k.due ≤ s.now →
          lands s i (fun t => t.retries = s.retries.erase k) ∧
          (at_ s = .prot → exec i s = .next dropped) ∧
          (∀ pa, at_ s = .ok .hbm pa → barred s pa → exec i s = .next (remoteWaits port cn va s)) ∧
          (misses s → exec i s = .next (if 63 ≤ n then dropped
            else { s with retries := s.retries.map (fun q =>
              if q = k then { q with refusals := n + 1, due := retryDue s } else q) })))

/-! ## Coherence, the host and the links -/

/-- R153, R157, R166, R170, R171: the messages between L1s, homes and the host move states of lines and change no value: a core's
request joins its line's queue in the order of arrival and goes to no directory for a granule PRIVATE to it; the home serves it
in a later cycle, and grants, forwards or invalidates as the line's state says; an invalidated upgrade becomes a read-exclusive,
and a write-back is the answer to an open forward, whichever of it and the no-data answer arrives first. When a message is sent and arrives, that the home serves a request in a later cycle than that of its arrival,
and the channel of a request for a PRIVATE line, are the model's choices (logs 41, 79). -/
def Obligations.CoherenceMoves : Prop :=
  ∀ (die core line : Nat) (s : State),
    let me := (die, core)
    let d := s.dirLine line
    let joins (t : State) (r : HomeReq) : Prop :=
      t.dirLine line = { d with queue := (t.dirLine line).queue } ∧ (t.dirLine line).queue.Perm (r :: d.queue) ∧
      (d.queue.Pairwise (fun a b => b.before a = false) →
        (t.dirLine line).queue.Pairwise (fun a b => b.before a = false))
    let req (m : Msg) : HomeReq :=
      { die := die, core := core, excl := m != .read, upgrade := m == .upgrade, at_ := s.now,
        vc := m.vc (classHeld s die core (line / 32)) }
    (∀ i x m granted, (i = .coherenceRead die core line ∧ x = L1State.is ∧ m = Msg.read ∧ granted = L1State.e) ∨
        (i = .readExclusive die core line ∧ x = .im ∧ m = .readExclusive ∧ granted = .m) → s.l1Find die core line = none →
      enabledCore s die core = true → enabledDie s (homeDie (128 * line)) = true → roomFor s die core line = true →
      (privateTo s line = none → ∃ t, exec i s = .next t ∧ l1State t die core line = some x ∧ joins t (req m)) ∧
      (privateTo s line = some me → ∃ t, exec i s = .next t ∧ l1State t die core line = some granted ∧ t.dirLine line = d) ∧
      ∀ k, privateTo s line = some k → k ≠ me → exec i s = .next s) ∧
    (l1State s die core line = some .s ∨ l1State s die core line = some .o → ∃ t,
      exec (.upgrade die core line) s = .next t ∧
      (privateTo s line = none → l1State t die core line = some .sm ∧ joins t (req .upgrade)) ∧
      (privateTo s line ≠ none → l1State t die core line = some .m ∧ t.dir = s.dir)) ∧
    (∀ r, d.serving = none → d.queue = [r] →
      let t := (serve line s).dirLine line
      (s.now ≤ r.at_ → t = d) ∧
      (r.at_ < s.now → t.queue = [] ∧
        (r.excl = false → d.st = .i → t.st = .em ∧ t.owner = some (r.die, r.core) ∧ t.sharers = [] ∧ t.serving = none) ∧
        (r.excl = false → d.st = .s → t.st = .s ∧ (r.die, r.core) ∈ t.sharers ∧ t.serving = none) ∧
        (∀ o, d.owner = some o → o ≠ (r.die, r.core) → d.sharers = [] → d.st = .em →
          t.st = .fw ∧ t.awaiting = [o] ∧ t.serving = some r) ∧
        ∀ o, r.excl = true → d.owner = none → o ∈ d.sharers → o ≠ (r.die, r.core) →
          t.st = .iv ∧ o ∈ t.awaiting ∧ (r.die, r.core) ∉ t.awaiting ∧ t.serving = some r)) ∧
    (me ∈ d.awaiting → d.owner ≠ some me → ∃ t, exec (.invalidation die core line) s = .next t ∧
      (l1State s die core line = some .sm → l1State t die core line = some .im) ∧
      (l1State s die core line = some .s → l1State t die core line = none)) ∧
    (∀ r, d.serving = some r → d.owner = some me → me ∈ d.awaiting → ∃ t, exec (.forward die core line) s = .next t ∧
      (pendingAt s die core line = false →
        (l1State s die core line = some .m → l1State t die core line = if r.excl then none else some .o) ∧
        (l1State s die core line = some .e → l1State t die core line = if r.excl then none else some .s)) ∧
      (l1State s die core line = some .mi → t = s) ∧
      (l1State s die core line = some .im ∨ l1State s die core line = some .sm →
        l1State t die core line = l1State s die core line ∧
        ∃ l, t.l1Find die core line = some l ∧ l.heldForward = some (r.die, r.core)) ∧
      ∀ l, s.l1Find die core line = some l → l.heldForward ≠ none → l.st = .m → pendingAt s die core line = true → t = s) ∧
    (∀ r, d.serving = some r → d.queue = [] → d.awaiting = [me] → r.excl = true →
      let granted (t : State) : Prop := (t.dirLine line).st = .em ∧ (t.dirLine line).owner = some (r.die, r.core) ∧
        (t.dirLine line).sharers = [] ∧ (t.dirLine line).serving = none
      (l1State s die core line = none → ∃ t, exec (.acknowledgement die core line) s = .next t ∧ granted t) ∧
      (l1State s die core line = some .mi → d.owner = some me →
        (∃ t, exec (.acknowledgement die core line) s = .next t ∧
          (d.wbHere = true → granted t ∧ l1State t die core line = none) ∧
          (d.wbHere = false → (t.dirLine line).st = .wbf ∧ l1State t die core line = some .mi)) ∧
        (d.st = .fw → exec (.writeBack die core line) s = .next (s.setDirLine { d with wbHere := true })) ∧
        (d.st = .wbf → ∃ t, exec (.writeBack die core line) s = .next t ∧ granted t ∧ l1State t die core line = none))) ∧
    (∀ c, d.owner = some me → s.l1Find die core line = some ⟨die, core, line, .im, c, none⟩ → ∃ t l,
      exec (.dataResponse die core line) s = .next t ∧ t.l1Find die core line = some l ∧ l.st = .m ∧
      l.cls = (s.granule (line / 32)).cls.lineClass) ∧
    (l1State s die core line = some .m ∨ l1State s die core line = some .o → ∃ t,
      exec (.l1Eviction die core line) s = .next t ∧
      l1State t die core line = if privateTo s line = none then some .mi else none) ∧
    (l1State s die core line = some .mi → d.owner = some me → d.st ≠ .fw → d.st ≠ .wbf → d.queue = [] → ∃ t,
      exec (.writeBack die core line) s = .next t ∧ l1State t die core line = none ∧ (t.dirLine line).owner = none) ∧
    (hostHolds s (128 * line) = true → ∃ t, exec (.backInvalidateSnoop line) s = .next t ∧ (t.dirLine line).snooping = true) ∧
    (d.snooping = true → ∃ t, exec (.backInvalidateResponse line) s = .next t ∧ hostHolds t (128 * line) = false ∧
      (t.dirLine line).snooping = false)

/-- R10, R59, R61, R145, R166, R212, R219, R222, R242, R243, R245, R249, R251, R255, R256: the host's reads, stores and atomics are
performed at their place, wait there, or change nothing where the device does not take them; the debugger reads and writes words of
allocated window storage and is told where there is none; a register write sets its register, and a doorbell hands over the ring's
entries; a bank goes drowsy after 256 cycles, and a head of age 48 is promoted; a link that fails its tag check or a broken ring
kills the contexts of the partitions that use it, an uncorrectable error the context that it hits, with their subcodes; a port that
goes down ends its collectives with PF, other parameters at a peer with OPR, a peer's end with PF, each told to every partner. That
a debugger address that is no multiple of 4 is not allocated (log 34), what early messages and those of a dead peer do (logs 23,
49) and what an error in a free frame or a slot does (log 67) are the model's choices. -/
def Obligations.OutsideEvents : Prop :=
  ∀ s : State,
    let endures (t : State) (c : Ctx) : Prop := ∃ d, t.ctx? c.num = some d ∧ d = { c with svclog := d.svclog }
    let dies (t : State) (c : Ctx) : Prop := ∃ d, t.ctx? c.num = some d ∧ d.state = .killed
    let alone (c : Ctx) : Prop := c ∈ s.ctxs ∧ ∀ d ∈ s.ctxs, d.num = c.num → d = c
    let stores (t : State) (pa : Nat) (bs : List Byte) : Prop :=
      ∀ a, t.memGet a = if pa ≤ a ∧ a < pa + bs.length then bs.getD (a - pa) 0 else s.memGet a
    (∀ pa n keep u, hostPlace s pa n false = some u → ∃ t, exec (.hostAccess pa (.read n keep)) s = .next t ∧
      t.mem = s.mem ∧ t.hostData = (List.range n).map (fun k => s.memGet (pa + k)) ∧
      (keep = true → hostHolds t pa = true)) ∧
    (∀ pa bs u, hostPlace s pa bs.length true = some u → (∃ t, exec (.hostAccess pa (.write bs)) s = .next t ∧ stores t pa bs) ∧
      (hostHolds s pa = true → ∃ t, exec (.hostAccess pa (.evict bs)) s = .next t ∧ stores t pa bs ∧ hostHolds t pa = false)) ∧
    (∀ pa bs, hostPlace s pa bs.length true = none →
      let stays (op : HostOp) : State :=
        if hostValid s pa bs.length true then offer .host (.hostAccess pa op) [(pa, true)] s else s
      exec (.hostAccess pa (.write bs)) s = .next (stays (.write bs)) ∧
      exec (.hostAccess pa (.evict bs)) s = .next (if hostHolds s pa then stays (.evict bs) else s)) ∧
    (∀ pa k n operand cmp u, n = 4 ∨ n = 8 → pa % n = 0 → hostPlace s pa n true = some u → ∃ t,
      exec (.hostAccess pa (.atomic k n operand cmp)) s = .next t ∧ t.hostData = s.memBytes pa n ∧
      stores t pa (bytesLE n (atomicValue k n (natLE (s.memBytes pa n)) operand cmp))) ∧
    (∀ pa, hostHolds s pa = true → ∃ t, exec (.hostAccess pa .dropCopy) s = .next t ∧ hostHolds t pa = false ∧
      t = { s with dir := t.dir }) ∧
    (∀ pa, pa % 4 ≠ 0 ∨ pa < windowBase ∨ windowOwner s pa = none →
      exec (.debuggerAccess pa .read) s = .next { s with dbgResult := some (false, 0) } ∧
      ∀ w, exec (.debuggerAccess pa (.write w)) s = .next { s with dbgResult := some (false, 0) }) ∧
    (∀ pa cn, pa % 4 = 0 → windowBase ≤ pa → windowOwner s pa = some cn →
      (windowReserved s cn pa 4 = true → ∀ op, exec (.debuggerAccess pa op) s = .next s) ∧
      (streamHolds s cn pa 4 = true → ∀ w, exec (.debuggerAccess pa (.write w)) s = .next s)) ∧
    (∀ pa cn, pa % 4 = 0 → windowBase ≤ pa → windowOwner s pa = some cn → windowReserved s cn pa 4 = false →
      let u := touchBanks (bankAt s cn pa) s
      exec (.debuggerAccess pa .read) s =
        .next { u with dbgResult := some (true, BitVec.ofNat 32 (spaceRead u cn 0 .window pa 4)) } ∧
      ∀ w, streamHolds s cn pa 4 = false → exec (.debuggerAccess pa (.write w)) s =
        .next { wakeWindow u cn pa 4 (spaceWrite u cn 0 .window pa 4 w.toNat) with dbgResult := some (true, w) }) ∧
    (∀ fn v, ∃ t, exec (.registerWrite (.doorbell fn) v) s = .next t ∧ t = { s with rings := t.rings, taken := t.taken } ∧
      t.taken.get [] fn ++ t.rings.get [] fn = s.taken.get [] fn ++ s.rings.get [] fn ∧
      (s.taken.get [] fn).length ≤ (t.taken.get [] fn).length ∧
      (t.rings.get [] fn = [] ∨ 4096 ≤ (t.taken.get [] fn).length) ∧
      ∀ m, m ≠ fn → t.rings.get [] m = s.rings.get [] m ∧ t.taken.get [] m = s.taken.get [] m) ∧
    (∀ k v, ∃ t, exec (.registerWrite (.msix k) v) s = .next t ∧ (k < 2048 → t.msixTable.get 0 k = v) ∧
      (2048 ≤ k → t = s) ∧ ∀ m, m ≠ k → t.msixTable.get 0 m = s.msixTable.get 0 m) ∧
    (∀ k v, ∃ t, exec (.registerWrite (.hdm k) v) s = .next t ∧ (k < 8 → t.hdm.get 0 k = v) ∧ (8 ≤ k → t = s)) ∧
    (∀ bank, exec (.bankDrowsy bank) s = .next (if s.bankLast.get 0 bank + 256 ≤ s.now ∧ bank ∈ allocatedBanks s then
      { s with drowsy := addNew bank s.drowsy } else s)) ∧
    (∀ die stop plane vc port, ∃ t, exec (.headPromotion die stop plane vc port) s = .next t ∧ t = { s with heads := t.heads } ∧
      ∀ h ∈ s.heads, h.die = die → h.stop = stop → h.plane = plane → h.vc = vc → h.port = port →
        (if 48 ≤ h.age then { h with promoted := true } else h) ∈ t.heads) ∧
    (∀ port, port < 12 → ∃ t, exec (.linkCrcReplay port) s = .next t ∧ t = { s with perf := t.perf } ∧
      t.perf.crcReplays = s.perf.crcReplays + 1) ∧
    (∀ link, (linkExists link = false → exec (.linkTagFailure link) s = .next s) ∧
      (linkExists link = true → ∃ t, exec (.linkTagFailure link) s = .next t ∧ link ∈ t.linksDown ∧
        (∀ p ∈ s.parts, usesLink s p link = true → ∀ c, s.ctx? c.num = some c → c.part = p.num → c.state ≠ .killed →
          dies t c) ∧
        ∀ c, alone c → (∀ p ∈ s.parts, usesLink s p link = true → c.part ≠ p.num) → endures t c)) ∧
    (∀ link, linkExists link = false → exec (.keyRotation link) s = .next s) ∧
    (∀ link, linkExists link = true → ∃ t, exec (.keyRotation link) s = .next t ∧ t = { s with keyEpoch := t.keyEpoch, nonces := t.nonces } ∧
      (∀ x ∈ t.nonces, x.1 ≠ link) ∧ ∃ n, (link, n + 1) ∈ t.keyEpoch ∧ ∀ m, (link, m) ∈ t.keyEpoch → m = n + 1) ∧
    (∀ cn line c, s.ctx? cn = some c → c.state ≠ .killed → ∀ site, site = .read cn line ∨ site = .scrubbed cn line →
      ∃ t d r, exec (.uncorrectableError site) s = .next t ∧ t.ctx? cn = some d ∧ d.state = .killed ∧
        r ∈ d.traps ∧ r.cause = .kill ∧ r.aux = 2) ∧
    (∀ f, exec (.uncorrectableError (.freeFrame f)) s = .next { s with retiredFrames := addNew f s.retiredFrames }) ∧
    (∀ id c, (s.slot id).held = true → s.ctx? (s.slot id).tag.toNat = some c → c.state ≠ .killed → ∃ t d,
      exec (.uncorrectableError (.slot id)) s = .next t ∧ (t.slot id).held = false ∧
      t.ctx? (s.slot id).tag.toNat = some d ∧ d.state = .killed) ∧
    (∀ line, ∃ t, exec (.patrolScrub line) s = .next t ∧ t = { s with perf := t.perf } ∧
      t.perf.scrubs = s.perf.scrubs + 1) ∧
    (let holds (c : Ctx) : Prop := ∃ x ∈ s.slots, x.2.held = true ∧ x.2.tag.toNat = c.num
     ∃ t, exec .orbitRingBreak s = .next t ∧ t.ringBroken = true ∧
      (∀ c d, s.ctx? c.num = some c → c.state ≠ .killed → d ∈ s.ctxs → holds d → d.part = c.part → dies t c) ∧
      ∀ c, alone c → (∀ d ∈ s.ctxs, holds d → d.part ≠ c.part) → endures t c) ∧
    (∀ port, ∃ t, exec (.parnarPortDown port) s = .next t ∧
      t = { s with portsDown := t.portsDown, engines := t.engines, outbox := t.outbox, nonces := t.nonces, keyEpoch := t.keyEpoch } ∧
      port ∈ t.portsDown ∧ ∀ o c, s.engine? o.id = some o → o.coll = some c → collOver o = false →
        (∃ r ∈ c.partners, c.ports.getD r 0xFF = port) → { o with fault := some (.pf, lowestUnwritten o) } ∈ t.engines) ∧
    (∀ session n m, (∀ rank, m ≠ .killed rank) → collOp? s session n = none →
      exec (.collPeerMessage session n m) s =
        .next (if collSeen s session n then s else { s with early := s.early ++ [(session, n, m)] })) ∧
    (∀ session n rank, ∃ t, exec (.collPeerMessage session n (.killed rank)) s = .next t ∧
      t = { s with engines := t.engines, outbox := t.outbox, nonces := t.nonces, keyEpoch := t.keyEpoch, early := t.early } ∧
      (session, n, .killed rank) ∈ t.early ∧ ∀ o c, s.engine? o.id = some o → o.coll = some c → c.session = session → n ≤ c.k →
        collOver o = false → { o with fault := some (.pf, lowestUnwritten o) } ∈ t.engines) ∧
    ∀ session n o c, collOp? s session n = some (o, c) →
      let told (m : PeerMsg) (f : Cause × DWord) (what : OutKind) : Prop := s.engine? o.id = some o → collOver o = false →
        ∃ t, exec (.collPeerMessage session n m) s = .next t ∧
          t = { s with engines := t.engines, outbox := t.outbox, nonces := t.nonces, keyEpoch := t.keyEpoch } ∧
          t.engine? o.id = some { o with fault := some f } ∧
          ∀ r ∈ c.partners, ∃ x ∈ t.outbox, x.session = session ∧ x.k = n ∧ x.rank = r ∧ x.what = what ∧ x.vals = []
      let opr : Cause × DWord := (.opr, 0#32 ++ o.words.headD 0)
      (∀ rank kind mode op ty e a,
        ¬ (kind = c.kind ∧ mode = c.mode ∧ op = c.op ∧ ty = c.ty.code.toNat ∧ e = c.e ∧ a = c.a) →
        told (.params rank kind mode op ty e a) opr .mismatch) ∧
      (∀ rank, told (.mismatch rank) opr .mismatch) ∧ (∀ rank, told (.ended rank) (.pf, lowestUnwritten o) .ended) ∧
      ∀ rank, exec (.collPeerMessage session n (.data rank)) s =
        .next (s.modEngine o.id (fun o => { o with coll := some { c with peersDone := addNew rank c.peersDone } }))

/-- R11, R18, R242, R244 to R248, R257: trusted interfaces and their sessions, the scrub of a partition that left RUN, the
recovery pair, package reset with its tests, the stretched clock and the time servo. What a session and its keys allow and when
the scrub takes place (log 36), what a reset keeps and its partition (logs 7, 37), the cycle that ends a recovery (log 38), the
steps of the stretch (log 39), the servo's slew (log 11) and the root port's part (log 89) are the model's choices. -/
def Obligations.SecurityRecoveryTime : Prop :=
  ∀ s : State,
    (∀ fn i, s.ifaces.find? (fun i => i.fn == fn) = some i →
      let iface (t : State) : Option Iface := t.ifaces.find? (fun i => i.fn == fn)
      let now (e : Instr) (j : Iface) : Prop := ∃ t, exec e s = .next t ∧ iface t = some j ∧ t = { s with ifaces := t.ifaces }
      let leaves (e : Instr) (j : Iface) : Prop := ∃ t, exec e s = .next t ∧ iface t = some j ∧ fn ∈ t.scrubbing ∧
        (∀ w ∈ t.posted, w.1 ≠ fn - 1) ∧
        ∀ c, s.ctx? c.num = some c → c.part = fn - 1 → c.state ≠ .killed → ∃ d, t.ctx? c.num = some d ∧ d.state = .killed
      let expired : Iface := { i with tdisp := .error, session := false, ideKeys := false, streams := [] }
      now (.spdmRequest fn .measurements) i ∧
      (s.life ≠ .manufacture → s.life ≠ .returned → fn ∉ s.scrubbing →
        now (.spdmRequest fn .openSession) { i with session := true }) ∧
      (i.session = true → now (.spdmRequest fn (.ideKeys none)) { i with ideKeys := true } ∧
        (∀ n, n < 256 → (s.ifaces.flatMap (fun j => j.streams)).length < 16 →
          now (.spdmRequest fn (.ideKeys (some n))) { i with streams := addNew n i.streams }) ∧
        (∀ n, 16 ≤ (s.ifaces.flatMap (fun j => j.streams)).length → exec (.spdmRequest fn (.ideKeys (some n))) s = .next s) ∧
        (i.tdisp = .unlocked → now (.spdmRequest fn .lock) { i with tdisp := .locked }) ∧
        (i.tdisp = .locked → now (.spdmRequest fn .start) { i with tdisp := .run }) ∧
        (i.tdisp ≠ .run → now (.spdmSessionExpiry fn) expired) ∧ (i.tdisp = .run → leaves (.spdmSessionExpiry fn) expired) ∧
        (fn ∉ s.scrubbing → (i.tdisp ≠ .run → now (.spdmRequest fn .stop) { i with tdisp := .unlocked }) ∧
          (i.tdisp = .run → leaves (.spdmRequest fn .stop) { i with tdisp := .error }))) ∧
      (i.session = false → exec (.spdmRequest fn .stop) s = .next s) ∧
      (fn ∈ s.scrubbing → s.fwOut = [] →
        let t := scrubIface fn s
        fn ∉ t.scrubbing ∧ (∀ a, a / 2 ^ 37 ∈ partDies s (fn - 1) → t.memGet a = 0) ∧
        (i.session = true → i.tdisp = .error → iface t = some { i with tdisp := .unlocked }))) ∧
    (∀ n, ∃ t, exec (.serviceWatchdogExpiry n) s = .next t ∧ t.frozen = true ∧
      ∀ c, s.ctx? c.num = some c → c.state ≠ .killed →
        (c.svclog.getD n none = none → (∀ d ∈ s.ctxs, d.num = c.num → d = c) →
          ∃ d, t.ctx? c.num = some d ∧ d = { c with svclog := d.svclog }) ∧
        (∀ id, c.svclog.getD n none = some id → ∃ d r, t.ctx? c.num = some d ∧ d.state = .killed ∧
          r ∈ d.traps ∧ r.cause = .kill ∧ r.aux = 6)) ∧
    (∃ t, exec .internalErrorReport s = .next t ∧ t.frozen = true ∧ t.ctxs = s.ctxs ∧ t.mem = s.mem ∧
      ∀ gi si g p, s.group? gi = some g → g.split? si = some p → g.retired = false → g.handler = none →
        (∃ till, p.wait = .yield till) ∨ (∃ instant next, p.wait = .sleep instant next) →
        ∃ h q, t.group? gi = some h ∧ h.split? si = some q ∧ q.wait = .none ∧ q.pc = p.pc) ∧
    (∀ i ∈ [Instr.packageReset, .lockstepDisagreement, .recoveryTimeout], ∃ t, exec i s = .next t ∧
      (i = .recoveryTimeout → s.frozen = false → t = s) ∧
      (i ≠ .recoveryTimeout ∨ s.frozen = true → t.mem = [] ∧ t.ctxs = [] ∧ t.launches = [] ∧ t.blocks = [] ∧ t.groups = [] ∧
        t.cycle = 0 ∧ t.nsMaster = 0 ∧ t.life = s.life ∧ t.fused = s.fused ∧ t.frozen = false ∧ t.resets = s.resets + 1 ∧
        (∀ d, d ∈ t.failed ↔ d < 9 ∧ s.fused ≠ some d ∧ Config.dieTest (s.resets + 1) d = false) ∧
        t.parts.map (fun p => (p.num, p.dies)) =
          [(0, (List.range 9).filter (fun d => s.fused != some d && Config.dieTest (s.resets + 1) d))] ∧
        (t.up = true ↔ ∀ d, d < 9 → Config.transitTest (s.resets + 1) d = true))) ∧
    (∀ die, ∃ t, exec (.supplySag die) s = .next t ∧
      t = { s with sag := t.sag, stretch := t.stretch, clearing := 0, perf := t.perf } ∧ die ∈ t.sag ∧
      t.stretch = min 4 (s.stretch + 1)) ∧
    (∀ die, ∃ t, exec (.sagClear die) s = .next t ∧
      t = { s with sag := t.sag, clearing := t.clearing, stretchFrom := t.stretchFrom } ∧ die ∉ t.sag ∧
      (∀ d, d ≠ die → (d ∈ t.sag ↔ d ∈ s.sag)) ∧
      (die ∈ s.sag → t.sag = [] → t.clearing = 64 ∧ t.stretchFrom = s.stretch)) ∧
    (∀ domain transport stepOk, s.ptp = some (domain, transport, stepOk) → ∀ offset : Int,
      (1000000 < offset → stepOk = true →
        let m := s.nsMaster + BitVec.ofInt 64 offset
        exec (.ptpMessage offset) s = .next
          { s with nsMaster := m, dieNs := spreadTime m s.dieNs, servoOffset := 0, servo := .locking }) ∧
      (offset ≤ 1000000 ∨ stepOk = false → ∃ t, exec (.ptpMessage offset) s = .next t ∧
        t = { s with servoOffset := offset, slew := t.slew, servo := t.servo } ∧ -200 ≤ t.slew ∧ t.slew ≤ 200 ∧
        (offset < 0 → t.slew ≤ 0) ∧ (0 ≤ offset → 0 ≤ t.slew) ∧ (t.servo = .locked ∨ t.servo = .locking))) ∧
    (s.ptp = none → ∀ offset, exec (.ptpMessage offset) s = .next s) ∧
    exec .servoHoldover s =
      .next (if s.servo = .locked ∨ s.servo = .locking then { s with servo := .holdover } else s)

/-! ## The step -/

/-- R11, R34 to R36, R70, R71, R80, R81: in a package that is up, a prescribed turn of a split that may issue runs the
instruction that its bytes decode to, in the state in which its quarter's ages have been counted, and after it only the busy
times, banks, queue counts, cached translations, settled splits, streaming lanes, trace records, control blocks and firmware's
accesses follow; the fetch of a well-formed instruction's words inside .text finds it, one outside it gives BRT, words that decode
to none give ILL, and a word comes from the core's instruction cache or from memory. The agenda itself (log 1), that a prescribed
turn of a split that may not issue is dropped (log 3), which addresses are .text (log 26), which split may issue (log 65), when
lanes act (log 92) and what follows a turn (log 35) are the model's choices. -/
def Obligations.StepRunsDecoded : Prop :=
  ∀ (s : State) (gi si : Nat) (rest : List Turn) (g : Group) (p : Split), s.group? gi = some g → g.split? si = some p →
    let u : State := { s with agenda := rest }
    let after (v : State) : State :=
      trimTlbs (noteArrivals (flushFw (traceStep u (syncBlocks u (touchBanks (usedBanks u v) (restreamAll u v))))))
    (∀ i n t, s.agenda = .issue gi si :: rest → s.up = true → (s.groupCtx? g).isSome = true → mayIssue u gi g p = true →
      fetchInstr u g p.pc = .instr i n → exec i { ageQuarter gi si g u with curG := gi, curS := si } = .next t → ∃ v,
      step s = .next (after v) ∧
      v = { t with groups := v.groups, busy := v.busy, bankLast := v.bankLast, drowsy := v.drowsy, matUsed := v.matUsed,
                   tlb := v.tlb } ∧
      v.groups.length = t.groups.length ∧
      ∀ j h, t.group? j = some h → ∃ k, v.group? j = some k ∧ k = { h with splits := k.splits, stream := k.stream }) ∧
    (∃ v, { u with groups := v } = ageQuarter gi si g u ∧ v.length = s.groups.length ∧
      ∀ j h, s.group? j = some h → ∃ k, v[j]? = some k ∧ k = { h with splits := k.splits } ∧
        k.splits.map (fun q => { q with age := 0, reserved := false }) =
          h.splits.map (fun q => { q with age := 0, reserved := false })) ∧
    (s.agenda = .issue gi si :: rest → s.up = true → (s.groupCtx? g).isSome = true → mayIssue u gi g p = false →
      step s = .next (after u)) ∧
    (inTextRun s g p.pc 4 = false → fetchInstr s g p.pc = .trap .brt p.pc) ∧
    (∀ i, i.wf = true → encode i ≠ [] → inTextRun s g p.pc (4 * (encode i).length) = true →
      (∀ k w, (encode i)[k]? = some w → fetchWord s g (p.pc + BitVec.ofNat 64 (4 * k)) .x = .word w) →
      fetchInstr s g p.pc = .instr i (4 * (encode i).length)) ∧
    (∀ ws e, inTextRun s g p.pc (4 * ws.length) = true → decode ws = .error e →
      ws.length = wordCount (lenOf (ws.headD 0)) →
      (∀ k w, ws[k]? = some w → fetchWord s g (p.pc + BitVec.ofNat 64 (4 * k)) .x = .word w) →
      fetchInstr s g p.pc = .instr (.ill (ws.headD 0)) 4) ∧
    ∀ va pa, xlate s g.die g.lanesTlb (s.groupCtx g) va .x = .ok .hbm pa → pa % 4 = 0 →
      (s.icacheFind g.die g.core (pa / 32) = none → fetchWord s g va .x =
        .word (s.memGet (pa + 3) ++ s.memGet (pa + 2) ++ s.memGet (pa + 1) ++ s.memGet pa)) ∧
      ∀ bs, s.icacheFind g.die g.core (pa / 32) = some bs → fetchWord s g va .x =
        .word (bs.getD (pa % 32 + 3) 0 ++ bs.getD (pa % 32 + 2) 0 ++ bs.getD (pa % 32 + 1) 0 ++ bs.getD (pa % 32) 0)

/-- The model's memory keeps its canonical form: every step from a sound state, whatever its agenda prescribes, leads to a
sound state. -/
def Obligations.StepKeepsMemory : Prop :=
  ∀ s t : State, s.Inv → step s = .next t → t.Inv

/-- R244, R248, R257: the machine after reset is sound, its memories read zero, its cycle and nanosecond counters are 0, and
nothing of a context exists. The one partition 0 of all nine dies, of the default weights (log 7), the servo in FREE-RUN, the life state MANUFACTURE, no link or port down and no operation in
progress are the model's choice (log 5, 6), and that unlisted memory reads zero is its reading (log 8). -/
def Obligations.ResetState : Prop :=
  State.reset.Inv ∧ (∀ a, State.reset.memGet a = 0) ∧ (∀ id, State.reset.slot id = Slot.free) ∧ State.reset.cycle = 0 ∧
  State.reset.nsMaster = 0 ∧ State.reset.servo = .freeRun ∧ State.reset.life = .manufacture ∧ State.reset.ctxs = [] ∧
  State.reset.groups = [] ∧ State.reset.acc = [] ∧ State.reset.engines = [] ∧ State.reset.linksDown = [] ∧
  State.reset.portsDown = [] ∧ State.reset.parts.map (fun p => (p.num, p.dies, p.weights)) = [(0, List.range 9, [2, 2, 1, 4])]
end

