-- ==== Sys2Proof/Laws/Dispatch.lean ====
section
/-! SUPPORT. What each arm of the dispatch calls: one equation per instruction, so that no proof unfolds the dispatch. -/

namespace Sys2Proof.Machine

open Sys2Proof

@[simp] theorem exec_abs g d a s : exec (.abs g d a) s = execAbs g d a s := rfl
@[simp] theorem exec_brev g d a s : exec (.brev g d a) s = execBrev g d a s := rfl
@[simp] theorem exec_clz g d a s : exec (.clz g d a) s = execClz g d a s := rfl
@[simp] theorem exec_fabs g d a s : exec (.fabs g d a) s = execFabs g d a s := rfl
@[simp] theorem exec_fneg g d a s : exec (.fneg g d a) s = execFneg g d a s := rfl
@[simp] theorem exec_movShort g d a s : exec (.movShort g d a) s = execMovShort g d a s := rfl
@[simp] theorem exec_not g d a s : exec (.not g d a) s = execNot g d a s := rfl
@[simp] theorem exec_popc g d a s : exec (.popc g d a) s = execPopc g d a s := rfl
@[simp] theorem exec_iaddi g d imm s : exec (.iaddi g d imm) s = execIaddi g d imm s := rfl
@[simp] theorem exec_iaddiLiteral g d lit s : exec (.iaddiLiteral g d lit) s = execIaddiLiteral g d lit s := rfl
@[simp] theorem exec_movi g d imm s : exec (.movi g d imm) s = execMovi g d imm s := rfl
@[simp] theorem exec_moviLiteral g d lit s : exec (.moviLiteral g d lit) s = execMoviLiteral g d lit s := rfl
@[simp] theorem exec_bra g off s : exec (.bra g off) s = execBra g off s := rfl
@[simp] theorem exec_braJoin x s : exec (.braJoin x) s = execBraJoin x s := rfl
@[simp] theorem exec_call g off s : exec (.call g off) s = execCall g off s := rfl
@[simp] theorem exec_waitc g t c st l s : exec (.waitc g t c st l) s = execWaitc g t c st l s := rfl
@[simp] theorem exec_bkpt g code s : exec (.bkpt g code) s = execBkpt g code s := rfl
@[simp] theorem exec_exit g s : exec (.exit g) s = execExit g s := rfl
@[simp] theorem exec_hend s : exec (.hend) s = execHend s := rfl
@[simp] theorem exec_nop g s : exec (.nop g) s = execNop g s := rfl
@[simp] theorem exec_ret g s : exec (.ret g) s = execRet g s := rfl
@[simp] theorem exec_yield g s : exec (.yield g) s = execYield g s := rfl
@[simp] theorem exec_iadd x s : exec (.iadd x) s = execIadd x s := rfl
@[simp] theorem exec_imax x s : exec (.imax x) s = execImax x s := rfl
@[simp] theorem exec_imin x s : exec (.imin x) s = execImin x s := rfl
@[simp] theorem exec_isub x s : exec (.isub x) s = execIsub x s := rfl
@[simp] theorem exec_mov x s : exec (.mov x) s = execMov x s := rfl
@[simp] theorem exec_idot4 x s : exec (.idot4 x) s = execIdot4 x s := rfl
@[simp] theorem exec_imad x s : exec (.imad x) s = execImad x s := rfl
@[simp] theorem exec_imul x s : exec (.imul x) s = execImul x s := rfl
@[simp] theorem exec_imulh x s : exec (.imulh x) s = execImulh x s := rfl
@[simp] theorem exec_and x s : exec (.and x) s = execAnd x s := rfl
@[simp] theorem exec_lop3 x s : exec (.lop3 x) s = execLop3 x s := rfl
@[simp] theorem exec_or x s : exec (.or x) s = execOr x s := rfl
@[simp] theorem exec_rot x s : exec (.rot x) s = execRot x s := rfl
@[simp] theorem exec_sar x s : exec (.sar x) s = execSar x s := rfl
@[simp] theorem exec_shl x s : exec (.shl x) s = execShl x s := rfl
@[simp] theorem exec_shr x s : exec (.shr x) s = execShr x s := rfl
@[simp] theorem exec_xor x s : exec (.xor x) s = execXor x s := rfl
@[simp] theorem exec_bfe x s : exec (.bfe x) s = execBfe x s := rfl
@[simp] theorem exec_bfi x s : exec (.bfi x) s = execBfi x s := rfl
@[simp] theorem exec_prmt x s : exec (.prmt x) s = execPrmt x s := rfl
@[simp] theorem exec_icmp x s : exec (.icmp x) s = execIcmp x s := rfl
@[simp] theorem exec_plop x s : exec (.plop x) s = execPlop x s := rfl
@[simp] theorem exec_pmov x s : exec (.pmov x) s = execPmov x s := rfl
@[simp] theorem exec_sel x s : exec (.sel x) s = execSel x s := rfl
@[simp] theorem exec_lea x s : exec (.lea x) s = execLea x s := rfl
@[simp] theorem exec_fadd x s : exec (.fadd x) s = execFadd x s := rfl
@[simp] theorem exec_ffma x s : exec (.ffma x) s = execFfma x s := rfl
@[simp] theorem exec_fmul x s : exec (.fmul x) s = execFmul x s := rfl
@[simp] theorem exec_fclass x s : exec (.fclass x) s = execFclass x s := rfl
@[simp] theorem exec_fcmp x s : exec (.fcmp x) s = execFcmp x s := rfl
@[simp] theorem exec_fmax x s : exec (.fmax x) s = execFmax x s := rfl
@[simp] theorem exec_fmin x s : exec (.fmin x) s = execFmin x s := rfl
@[simp] theorem exec_fcos x s : exec (.fcos x) s = execFcos x s := rfl
@[simp] theorem exec_fexp2 x s : exec (.fexp2 x) s = execFexp2 x s := rfl
@[simp] theorem exec_flog2 x s : exec (.flog2 x) s = execFlog2 x s := rfl
@[simp] theorem exec_frcp x s : exec (.frcp x) s = execFrcp x s := rfl
@[simp] theorem exec_frsq x s : exec (.frsq x) s = execFrsq x s := rfl
@[simp] theorem exec_fsin x s : exec (.fsin x) s = execFsin x s := rfl
@[simp] theorem exec_fsqrt x s : exec (.fsqrt x) s = execFsqrt x s := rfl
@[simp] theorem exec_ftanh x s : exec (.ftanh x) s = execFtanh x s := rfl
@[simp] theorem exec_cvt x s : exec (.cvt x) s = execCvt x s := rfl
@[simp] theorem exec_pack x s : exec (.pack x) s = execPack x s := rfl
@[simp] theorem exec_req x s : exec (.req x) s = execReq x s := rfl
@[simp] theorem exec_unpack x s : exec (.unpack x) s = execUnpack x s := rfl
@[simp] theorem exec_gvote x s : exec (.gvote x) s = execGvote x s := rfl
@[simp] theorem exec_qbcast x s : exec (.qbcast x) s = execQbcast x s := rfl
@[simp] theorem exec_qswap x s : exec (.qswap x) s = execQswap x s := rfl
@[simp] theorem exec_shuf x s : exec (.shuf x) s = execShuf x s := rfl
@[simp] theorem exec_greduce x s : exec (.greduce x) s = execGreduce x s := rfl
@[simp] theorem exec_gscan x s : exec (.gscan x) s = execGscan x s := rfl
@[simp] theorem exec_brdec x s : exec (.brdec x) s = execBrdec x s := rfl
@[simp] theorem exec_brx x s : exec (.brx x) s = execBrx x s := rfl
@[simp] theorem exec_callx x s : exec (.callx x) s = execCallx x s := rfl
@[simp] theorem exec_svc x s : exec (.svc x) s = execSvc x s := rfl
@[simp] theorem exec_trap x s : exec (.trap x) s = execTrap x s := rfl
@[simp] theorem exec_bar x s : exec (.bar x) s = execBar x s := rfl
@[simp] theorem exec_cbar x s : exec (.cbar x) s = execCbar x s := rfl
@[simp] theorem exec_evsig x s : exec (.evsig x) s = execEvsig x s := rfl
@[simp] theorem exec_evwait x s : exec (.evwait x) s = execEvwait x s := rfl
@[simp] theorem exec_ld x s : exec (.ld x) s = execLd x s := rfl
@[simp] theorem exec_st x s : exec (.st x) s = execSt x s := rfl
@[simp] theorem exec_lds x s : exec (.lds x) s = execLds x s := rfl
@[simp] theorem exec_ldx x s : exec (.ldx x) s = execLdx x s := rfl
@[simp] theorem exec_sts x s : exec (.sts x) s = execSts x s := rfl
@[simp] theorem exec_atom x s : exec (.atom x) s = execAtom x s := rfl
@[simp] theorem exec_atoms x s : exec (.atoms x) s = execAtoms x s := rfl
@[simp] theorem exec_sempty x s : exec (.sempty x) s = execSempty x s := rfl
@[simp] theorem exec_sfe x s : exec (.sfe x) s = execSfe x s := rfl
@[simp] theorem exec_sfill x s : exec (.sfill x) s = execSfill x s := rfl
@[simp] theorem exec_ldu x s : exec (.ldu x) s = execLdu x s := rfl
@[simp] theorem exec_pref x s : exec (.pref x) s = execPref x s := rfl
@[simp] theorem exec_cpy x s : exec (.cpy x) s = execCpy x s := rfl
@[simp] theorem exec_ldh x s : exec (.ldh x) s = execLdh x s := rfl
@[simp] theorem exec_tld x s : exec (.tld x) s = execTld x s := rfl
@[simp] theorem exec_tstr x s : exec (.tstr x) s = execTstr x s := rfl
@[simp] theorem exec_coll x s : exec (.coll x) s = execColl x s := rfl
@[simp] theorem exec_mma x s : exec (.mma x) s = execMma x s := rfl
@[simp] theorem exec_mmag x s : exec (.mmag x) s = execMmag x s := rfl
@[simp] theorem exec_mmat x s : exec (.mmat x) s = execMmat x s := rfl
@[simp] theorem exec_aexp x s : exec (.aexp x) s = execAexp x s := rfl
@[simp] theorem exec_amode x s : exec (.amode x) s = execAmode x s := rfl
@[simp] theorem exec_ard x s : exec (.ard x) s = execArd x s := rfl
@[simp] theorem exec_awr x s : exec (.awr x) s = execAwr x s := rfl
@[simp] theorem exec_mzero x s : exec (.mzero x) s = execMzero x s := rfl
@[simp] theorem exec_mcarry x s : exec (.mcarry x) s = execMcarry x s := rfl
@[simp] theorem exec_mscan x s : exec (.mscan x) s = execMscan x s := rfl
@[simp] theorem exec_tmov x s : exec (.tmov x) s = execTmov x s := rfl
@[simp] theorem exec_trd x s : exec (.trd x) s = execTrd x s := rfl
@[simp] theorem exec_twr x s : exec (.twr x) s = execTwr x s := rfl
@[simp] theorem exec_oadd x s : exec (.oadd x) s = execOadd x s := rfl
@[simp] theorem exec_oalight x s : exec (.oalight x) s = execOalight x s := rfl
@[simp] theorem exec_oboard x s : exec (.oboard x) s = execOboard x s := rfl
@[simp] theorem exec_ocap x s : exec (.ocap x) s = execOcap x s := rfl
@[simp] theorem exec_ocas x s : exec (.ocas x) s = execOcas x s := rfl
@[simp] theorem exec_omax x s : exec (.omax x) s = execOmax x s := rfl
@[simp] theorem exec_omin x s : exec (.omin x) s = execOmin x s := rfl
@[simp] theorem exec_oswp x s : exec (.oswp x) s = execOswp x s := rfl
@[simp] theorem exec_chpeek x s : exec (.chpeek x) s = execChpeek x s := rfl
@[simp] theorem exec_chrecv x s : exec (.chrecv x) s = execChrecv x s := rfl
@[simp] theorem exec_chsend x s : exec (.chsend x) s = execChsend x s := rfl
@[simp] theorem exec_clk x s : exec (.clk x) s = execClk x s := rfl
@[simp] theorem exec_sleep x s : exec (.sleep x) s = execSleep x s := rfl
@[simp] theorem exec_time x s : exec (.time x) s = execTime x s := rfl
@[simp] theorem exec_flags x s : exec (.flags x) s = execFlags x s := rfl
@[simp] theorem exec_srd x s : exec (.srd x) s = execSrd x s := rfl
@[simp] theorem exec_swr x s : exec (.swr x) s = execSwr x s := rfl
@[simp] theorem exec_vdhop x s : exec (.vdhop x) s = execVdhop x s := rfl
@[simp] theorem exec_unimp w0 s : exec (.unimp w0) s = execUnimp w0 s := rfl
@[simp] theorem exec_ill w0 s : exec (.ill w0) s = execIll w0 s := rfl
@[simp] theorem exec_emulationComplete gi si r s : exec (.emulationComplete gi si r) s = execEmulationComplete gi si r s := rfl
@[simp] theorem exec_svcServiceComplete gi si r s : exec (.svcServiceComplete gi si r) s = execSvcServiceComplete gi si r s := rfl
@[simp] theorem exec_queueSetup c queue prio ring s : exec (.queueSetup c queue prio ring) s = execQueueSetup c queue prio ring s := rfl
@[simp] theorem exec_submit c queue desc deps s : exec (.submit c queue desc deps) s = execSubmit c queue desc deps s := rfl
@[simp] theorem exec_eventSignal c va value s : exec (.eventSignal c va value) s = execEventSignal c va value s := rfl
@[simp] theorem exec_map c m s : exec (.map c m) s = execMap c m s := rfl
@[simp] theorem exec_unmap c m s : exec (.unmap c m) s = execUnmap c m s := rfl
@[simp] theorem exec_reclassify c m s : exec (.reclassify c m) s = execReclassify c m s := rfl
@[simp] theorem exec_logApply c dies s : exec (.logApply c dies) s = execLogApply c dies s := rfl
@[simp] theorem exec_ctxCreate c part wdexp debug perm ccb trapq pool poolSize s : exec (.ctxCreate c part wdexp debug perm ccb trapq pool poolSize) s = execCtxCreate c part wdexp debug perm ccb trapq pool poolSize s := rfl
@[simp] theorem exec_ctxDestroy c s : exec (.ctxDestroy c) s = execCtxDestroy c s := rfl
@[simp] theorem exec_ctxSave c s : exec (.ctxSave c) s = execCtxSave c s := rfl
@[simp] theorem exec_contextSaved ctx s : exec (.contextSaved ctx) s = execContextSaved ctx s := rfl
@[simp] theorem exec_ctxRestore c part perm places s : exec (.ctxRestore c part perm places) s = execCtxRestore c part perm places s := rfl
@[simp] theorem exec_ctxKill c s : exec (.ctxKill c) s = execCtxKill c s := rfl
@[simp] theorem exec_splitResume c gi si w act s : exec (.splitResume c gi si w act) s = execSplitResume c gi si w act s := rfl
@[simp] theorem exec_orbitQuota c quota s : exec (.orbitQuota c quota) s = execOrbitQuota c quota s := rfl
@[simp] theorem exec_portBind c mask s : exec (.portBind c mask) s = execPortBind c mask s := rfl
@[simp] theorem exec_trapqAck c seq s : exec (.trapqAck c seq) s = execTrapqAck c seq s := rfl
@[simp] theorem exec_partCreate c dies weights s : exec (.partCreate c dies weights) s = execPartCreate c dies weights s := rfl
@[simp] theorem exec_partDestroy c part s : exec (.partDestroy c part) s = execPartDestroy c part s := rfl
@[simp] theorem exec_powerCap c watts s : exec (.powerCap c watts) s = execPowerCap c watts s := rfl
@[simp] theorem exec_icacheInval c va bytes s : exec (.icacheInval c va bytes) s = execIcacheInval c va bytes s := rfl
@[simp] theorem exec_emuInstall c library signatureOk majors s : exec (.emuInstall c library signatureOk majors) s = execEmuInstall c library signatureOk majors s := rfl
@[simp] theorem exec_traceSetup c die ring size mask s : exec (.traceSetup c die ring size mask) s = execTraceSetup c die ring size mask s := rfl
@[simp] theorem exec_ptpSetup c domain transport stepOk s : exec (.ptpSetup c domain transport stepOk) s = execPtpSetup c domain transport stepOk s := rfl
@[simp] theorem exec_timeStatus c s : exec (.timeStatus c) s = execTimeStatus c s := rfl
@[simp] theorem exec_attest c nonce s : exec (.attest c nonce) s = execAttest c nonce s := rfl
@[simp] theorem exec_lifecycle c target signer s : exec (.lifecycle c target signer) s = execLifecycle c target signer s := rfl
@[simp] theorem exec_launchAdmission part s : exec (.launchAdmission part) s = execLaunchAdmission part s := rfl
@[simp] theorem exec_blockStart li lin place s : exec (.blockStart li lin place) s = execBlockStart li lin place s := rfl
@[simp] theorem exec_blockComplete bi s : exec (.blockComplete bi) s = execBlockComplete bi s := rfl
@[simp] theorem exec_blockPreemption bi s : exec (.blockPreemption bi) s = execBlockPreemption bi s := rfl
@[simp] theorem exec_migration bi place s : exec (.migration bi place) s = execMigration bi place s := rfl
@[simp] theorem exec_splitDormant gi si s : exec (.splitDormant gi si) s = execSplitDormant gi si s := rfl
@[simp] theorem exec_splitActivate gi s : exec (.splitActivate gi) s = execSplitActivate gi s := rfl
@[simp] theorem exec_joinTimeout gi si s : exec (.joinTimeout gi si) s = execJoinTimeout gi si s := rfl
@[simp] theorem exec_waitAgeReservation gi si s : exec (.waitAgeReservation gi si) s = execWaitAgeReservation gi si s := rfl
@[simp] theorem exec_yieldExpiry gi si s : exec (.yieldExpiry gi si) s = execYieldExpiry gi si s := rfl
@[simp] theorem exec_sleepWake gi si s : exec (.sleepWake gi si) s = execSleepWake gi si s := rfl
@[simp] theorem exec_barrierWatchdog bi id s : exec (.barrierWatchdog bi id) s = execBarrierWatchdog bi id s := rfl
@[simp] theorem exec_emptyLineTimeout acc s : exec (.emptyLineTimeout acc) s = execEmptyLineTimeout acc s := rfl
@[simp] theorem exec_loadDataReturn acc lane s : exec (.loadDataReturn acc lane) s = execLoadDataReturn acc lane s := rfl
@[simp] theorem exec_storePerformed acc lane s : exec (.storePerformed acc lane) s = execStorePerformed acc lane s := rfl
@[simp] theorem exec_pageFaultService gi si ans s : exec (.pageFaultService gi si ans) s = execPageFaultService gi si ans s := rfl
@[simp] theorem exec_remoteRetry port ctx va bytes refusals s : exec (.remoteRetry port ctx va bytes refusals) s = execRemoteRetry port ctx va bytes refusals s := rfl
@[simp] theorem exec_drainRequest granule holder s : exec (.drainRequest granule holder) s = execDrainRequest granule holder s := rfl
@[simp] theorem exec_drainPoint granule s : exec (.drainPoint granule) s = execDrainPoint granule s := rfl
@[simp] theorem exec_engineSectorRead op sector s : exec (.engineSectorRead op sector) s = execEngineSectorRead op sector s := rfl
@[simp] theorem exec_engineSectorWrite op sector s : exec (.engineSectorWrite op sector) s = execEngineSectorWrite op sector s := rfl
@[simp] theorem exec_engineCompletion op s : exec (.engineCompletion op) s = execEngineCompletion op s := rfl
@[simp] theorem exec_engineFault op s : exec (.engineFault op) s = execEngineFault op s := rfl
@[simp] theorem exec_handlerBirth op s : exec (.handlerBirth op) s = execHandlerBirth op s := rfl
@[simp] theorem exec_matrixEntryStart die core s : exec (.matrixEntryStart die core) s = execMatrixEntryStart die core s := rfl
@[simp] theorem exec_matrixEntryComplete die core s : exec (.matrixEntryComplete die core) s = execMatrixEntryComplete die core s := rfl
@[simp] theorem exec_mmagCancel die core s : exec (.mmagCancel die core) s = execMmagCancel die core s := rfl
@[simp] theorem exec_orbitPass op s : exec (.orbitPass op) s = execOrbitPass op s := rfl
@[simp] theorem exec_oboardTimeout op s : exec (.oboardTimeout op) s = execOboardTimeout op s := rfl
@[simp] theorem exec_channelCredit li ch s : exec (.channelCredit li ch) s = execChannelCredit li ch s := rfl
@[simp] theorem exec_headPromotion die stop plane vc port s : exec (.headPromotion die stop plane vc port) s = execHeadPromotion die stop plane vc port s := rfl
@[simp] theorem exec_coherenceRead die core line s : exec (.coherenceRead die core line) s = execCoherenceRead die core line s := rfl
@[simp] theorem exec_readExclusive die core line s : exec (.readExclusive die core line) s = execReadExclusive die core line s := rfl
@[simp] theorem exec_upgrade die core line s : exec (.upgrade die core line) s = execUpgrade die core line s := rfl
@[simp] theorem exec_invalidation die core line s : exec (.invalidation die core line) s = execInvalidation die core line s := rfl
@[simp] theorem exec_forward die core line s : exec (.forward die core line) s = execForward die core line s := rfl
@[simp] theorem exec_acknowledgement die core line s : exec (.acknowledgement die core line) s = execAcknowledgement die core line s := rfl
@[simp] theorem exec_dataResponse die core line s : exec (.dataResponse die core line) s = execDataResponse die core line s := rfl
@[simp] theorem exec_writeBack die core line s : exec (.writeBack die core line) s = execWriteBack die core line s := rfl
@[simp] theorem exec_l1Eviction die core line s : exec (.l1Eviction die core line) s = execL1Eviction die core line s := rfl
@[simp] theorem exec_backInvalidateSnoop line s : exec (.backInvalidateSnoop line) s = execBackInvalidateSnoop line s := rfl
@[simp] theorem exec_hostAccess pa op s : exec (.hostAccess pa op) s = execHostAccess pa op s := rfl
@[simp] theorem exec_atsInvalidation part ctx va pages s : exec (.atsInvalidation part ctx va pages) s = execAtsInvalidation part ctx va pages s := rfl
@[simp] theorem exec_atsTranslation bus host s : exec (.atsTranslation bus host) s = execAtsTranslation bus host s := rfl
@[simp] theorem exec_remoteWrite port ctx va bytes s : exec (.remoteWrite port ctx va bytes) s = execRemoteWrite port ctx va bytes s := rfl
@[simp] theorem exec_collPeerMessage session k m s : exec (.collPeerMessage session k m) s = execCollPeerMessage session k m s := rfl
@[simp] theorem exec_linkCrcReplay port s : exec (.linkCrcReplay port) s = execLinkCrcReplay port s := rfl
@[simp] theorem exec_linkTagFailure link s : exec (.linkTagFailure link) s = execLinkTagFailure link s := rfl
@[simp] theorem exec_keyRotation link s : exec (.keyRotation link) s = execKeyRotation link s := rfl
@[simp] theorem exec_uncorrectableError site s : exec (.uncorrectableError site) s = execUncorrectableError site s := rfl
@[simp] theorem exec_patrolScrub line s : exec (.patrolScrub line) s = execPatrolScrub line s := rfl
@[simp] theorem exec_orbitRingBreak s : exec (.orbitRingBreak) s = execOrbitRingBreak s := rfl
@[simp] theorem exec_spdmRequest fn m s : exec (.spdmRequest fn m) s = execSpdmRequest fn m s := rfl
@[simp] theorem exec_spdmSessionExpiry fn s : exec (.spdmSessionExpiry fn) s = execSpdmSessionExpiry fn s := rfl
@[simp] theorem exec_serviceWatchdogExpiry n s : exec (.serviceWatchdogExpiry n) s = execServiceWatchdogExpiry n s := rfl
@[simp] theorem exec_internalErrorReport s : exec (.internalErrorReport) s = execInternalErrorReport s := rfl
@[simp] theorem exec_lockstepDisagreement s : exec (.lockstepDisagreement) s = execLockstepDisagreement s := rfl
@[simp] theorem exec_recoveryTimeout s : exec (.recoveryTimeout) s = execRecoveryTimeout s := rfl
@[simp] theorem exec_packageReset s : exec (.packageReset) s = execPackageReset s := rfl
@[simp] theorem exec_supplySag die s : exec (.supplySag die) s = execSupplySag die s := rfl
@[simp] theorem exec_sagClear die s : exec (.sagClear die) s = execSagClear die s := rfl
@[simp] theorem exec_ptpMessage offsetNs s : exec (.ptpMessage offsetNs) s = execPtpMessage offsetNs s := rfl
@[simp] theorem exec_debuggerAccess pa op s : exec (.debuggerAccess pa op) s = execDebuggerAccess pa op s := rfl
@[simp] theorem exec_registerWrite r v s : exec (.registerWrite r v) s = execRegisterWrite r v s := rfl
@[simp] theorem exec_bankDrowsy bank s : exec (.bankDrowsy bank) s = execBankDrowsy bank s := rfl
@[simp] theorem exec_pageWalkCompletion die ctx va s : exec (.pageWalkCompletion die ctx va) s = execPageWalkCompletion die ctx va s := rfl
@[simp] theorem exec_backInvalidateResponse line s : exec (.backInvalidateResponse line) s = execBackInvalidateResponse line s := rfl
@[simp] theorem exec_parnarPortDown port s : exec (.parnarPortDown port) s = execParnarPortDown port s := rfl
@[simp] theorem exec_servoHoldover s : exec (.servoHoldover) s = execServoHoldover s := rfl

end Sys2Proof.Machine
end

