-- ==== Sys2Proof/Laws/State.lean ====
section
/-! SUPPORT. The fields of an updated state: for each update of the state one rewriting lemma for every field, so that no
proof unfolds a record update. -/

namespace Sys2Proof.Machine

open Sys2Proof

/-- The fields after `State.modGroup`. -/
@[simp] theorem State.modGroup_fields (s : State) (gi : Nat) (f : Group → Group) :
    (s.modGroup gi f).agenda = s.agenda ∧ (s.modGroup gi f).curG = s.curG ∧ (s.modGroup gi f).curS = s.curS ∧
    (s.modGroup gi f).rings = s.rings ∧ (s.modGroup gi f).taken = s.taken ∧ (s.modGroup gi f).cycle = s.cycle ∧
    (s.modGroup gi f).nsMaster = s.nsMaster ∧ (s.modGroup gi f).nsSub = s.nsSub ∧ (s.modGroup gi f).dieNs = s.dieNs ∧
    (s.modGroup gi f).servo = s.servo ∧ (s.modGroup gi f).servoOffset = s.servoOffset ∧
    (s.modGroup gi f).slew = s.slew ∧ (s.modGroup gi f).ptp = s.ptp ∧ (s.modGroup gi f).sag = s.sag ∧
    (s.modGroup gi f).stretch = s.stretch ∧ (s.modGroup gi f).stretchFrom = s.stretchFrom ∧
    (s.modGroup gi f).clearing = s.clearing ∧ (s.modGroup gi f).powerCap = s.powerCap ∧
    (s.modGroup gi f).short = s.short ∧ (s.modGroup gi f).fused = s.fused ∧ (s.modGroup gi f).failed = s.failed ∧
    (s.modGroup gi f).parts = s.parts ∧ (s.modGroup gi f).ctxs = s.ctxs ∧ (s.modGroup gi f).launches = s.launches ∧
    (s.modGroup gi f).blocks = s.blocks ∧ (s.modGroup gi f).groups = modNth f s.groups gi ∧
    (s.modGroup gi f).channels = s.channels ∧ (s.modGroup gi f).rrLast = s.rrLast ∧ (s.modGroup gi f).mem = s.mem ∧
    (s.modGroup gi f).hostMem = s.hostMem ∧ (s.modGroup gi f).posted = s.posted ∧ (s.modGroup gi f).tlb = s.tlb ∧
    (s.modGroup gi f).atc = s.atc ∧ (s.modGroup gi f).atsEpoch = s.atsEpoch ∧ (s.modGroup gi f).logs = s.logs ∧
    (s.modGroup gi f).logSeq = s.logSeq ∧ (s.modGroup gi f).icache = s.icache ∧
    (s.modGroup gi f).granules = s.granules ∧ (s.modGroup gi f).dir = s.dir ∧ (s.modGroup gi f).l1 = s.l1 ∧
    (s.modGroup gi f).frames = s.frames ∧ (s.modGroup gi f).retiredFrames = s.retiredFrames ∧
    (s.modGroup gi f).cleanLines = s.cleanLines ∧ (s.modGroup gi f).nextId = s.nextId ∧
    (s.modGroup gi f).acc = s.acc ∧ (s.modGroup gi f).engines = s.engines ∧ (s.modGroup gi f).matq = s.matq ∧
    (s.modGroup gi f).matUsed = s.matUsed ∧ (s.modGroup gi f).slots = s.slots ∧
    (s.modGroup gi f).orbitOps = s.orbitOps ∧ (s.modGroup gi f).orbitPassed = s.orbitPassed ∧
    (s.modGroup gi f).ringBroken = s.ringBroken ∧ (s.modGroup gi f).retries = s.retries ∧
    (s.modGroup gi f).offers = s.offers ∧ (s.modGroup gi f).fwOut = s.fwOut ∧
    (s.modGroup gi f).collCount = s.collCount ∧ (s.modGroup gi f).outbox = s.outbox ∧
    (s.modGroup gi f).early = s.early ∧ (s.modGroup gi f).routines = s.routines ∧
    (s.modGroup gi f).loaded = s.loaded ∧ (s.modGroup gi f).busy = s.busy ∧ (s.modGroup gi f).bankLast = s.bankLast ∧
    (s.modGroup gi f).drowsy = s.drowsy ∧ (s.modGroup gi f).heads = s.heads ∧ (s.modGroup gi f).setUps = s.setUps ∧
    (s.modGroup gi f).meshRr = s.meshRr ∧ (s.modGroup gi f).msix = s.msix ∧
    (s.modGroup gi f).completions = s.completions ∧ (s.modGroup gi f).hostData = s.hostData ∧
    (s.modGroup gi f).dbgResult = s.dbgResult ∧ (s.modGroup gi f).devRegs = s.devRegs ∧
    (s.modGroup gi f).msixTable = s.msixTable ∧ (s.modGroup gi f).ifaces = s.ifaces ∧
    (s.modGroup gi f).life = s.life ∧ (s.modGroup gi f).portsDown = s.portsDown ∧
    (s.modGroup gi f).linksDown = s.linksDown ∧ (s.modGroup gi f).keyEpoch = s.keyEpoch ∧
    (s.modGroup gi f).nonces = s.nonces ∧ (s.modGroup gi f).hdm = s.hdm ∧ (s.modGroup gi f).scrubbing = s.scrubbing ∧
    (s.modGroup gi f).resets = s.resets ∧ (s.modGroup gi f).up = s.up ∧ (s.modGroup gi f).emuMajors = s.emuMajors ∧
    (s.modGroup gi f).traces = s.traces ∧ (s.modGroup gi f).frozen = s.frozen ∧ (s.modGroup gi f).perf = s.perf := by
  repeat' constructor

/-- The fields after `State.modSplit`. -/
@[simp] theorem State.modSplit_fields (s : State) (gi si : Nat) (f : Split → Split) :
    (s.modSplit gi si f).agenda = s.agenda ∧ (s.modSplit gi si f).curG = s.curG ∧
    (s.modSplit gi si f).curS = s.curS ∧ (s.modSplit gi si f).rings = s.rings ∧
    (s.modSplit gi si f).taken = s.taken ∧ (s.modSplit gi si f).cycle = s.cycle ∧
    (s.modSplit gi si f).nsMaster = s.nsMaster ∧ (s.modSplit gi si f).nsSub = s.nsSub ∧
    (s.modSplit gi si f).dieNs = s.dieNs ∧ (s.modSplit gi si f).servo = s.servo ∧
    (s.modSplit gi si f).servoOffset = s.servoOffset ∧ (s.modSplit gi si f).slew = s.slew ∧
    (s.modSplit gi si f).ptp = s.ptp ∧ (s.modSplit gi si f).sag = s.sag ∧ (s.modSplit gi si f).stretch = s.stretch ∧
    (s.modSplit gi si f).stretchFrom = s.stretchFrom ∧ (s.modSplit gi si f).clearing = s.clearing ∧
    (s.modSplit gi si f).powerCap = s.powerCap ∧ (s.modSplit gi si f).short = s.short ∧
    (s.modSplit gi si f).fused = s.fused ∧ (s.modSplit gi si f).failed = s.failed ∧
    (s.modSplit gi si f).parts = s.parts ∧ (s.modSplit gi si f).ctxs = s.ctxs ∧
    (s.modSplit gi si f).launches = s.launches ∧ (s.modSplit gi si f).blocks = s.blocks ∧
    (s.modSplit gi si f).groups = modNth (fun g => g.modSplit si f) s.groups gi ∧
    (s.modSplit gi si f).channels = s.channels ∧ (s.modSplit gi si f).rrLast = s.rrLast ∧
    (s.modSplit gi si f).mem = s.mem ∧ (s.modSplit gi si f).hostMem = s.hostMem ∧
    (s.modSplit gi si f).posted = s.posted ∧ (s.modSplit gi si f).tlb = s.tlb ∧ (s.modSplit gi si f).atc = s.atc ∧
    (s.modSplit gi si f).atsEpoch = s.atsEpoch ∧ (s.modSplit gi si f).logs = s.logs ∧
    (s.modSplit gi si f).logSeq = s.logSeq ∧ (s.modSplit gi si f).icache = s.icache ∧
    (s.modSplit gi si f).granules = s.granules ∧ (s.modSplit gi si f).dir = s.dir ∧ (s.modSplit gi si f).l1 = s.l1 ∧
    (s.modSplit gi si f).frames = s.frames ∧ (s.modSplit gi si f).retiredFrames = s.retiredFrames ∧
    (s.modSplit gi si f).cleanLines = s.cleanLines ∧ (s.modSplit gi si f).nextId = s.nextId ∧
    (s.modSplit gi si f).acc = s.acc ∧ (s.modSplit gi si f).engines = s.engines ∧
    (s.modSplit gi si f).matq = s.matq ∧ (s.modSplit gi si f).matUsed = s.matUsed ∧
    (s.modSplit gi si f).slots = s.slots ∧ (s.modSplit gi si f).orbitOps = s.orbitOps ∧
    (s.modSplit gi si f).orbitPassed = s.orbitPassed ∧ (s.modSplit gi si f).ringBroken = s.ringBroken ∧
    (s.modSplit gi si f).retries = s.retries ∧ (s.modSplit gi si f).offers = s.offers ∧
    (s.modSplit gi si f).fwOut = s.fwOut ∧ (s.modSplit gi si f).collCount = s.collCount ∧
    (s.modSplit gi si f).outbox = s.outbox ∧ (s.modSplit gi si f).early = s.early ∧
    (s.modSplit gi si f).routines = s.routines ∧ (s.modSplit gi si f).loaded = s.loaded ∧
    (s.modSplit gi si f).busy = s.busy ∧ (s.modSplit gi si f).bankLast = s.bankLast ∧
    (s.modSplit gi si f).drowsy = s.drowsy ∧ (s.modSplit gi si f).heads = s.heads ∧
    (s.modSplit gi si f).setUps = s.setUps ∧ (s.modSplit gi si f).meshRr = s.meshRr ∧
    (s.modSplit gi si f).msix = s.msix ∧ (s.modSplit gi si f).completions = s.completions ∧
    (s.modSplit gi si f).hostData = s.hostData ∧ (s.modSplit gi si f).dbgResult = s.dbgResult ∧
    (s.modSplit gi si f).devRegs = s.devRegs ∧ (s.modSplit gi si f).msixTable = s.msixTable ∧
    (s.modSplit gi si f).ifaces = s.ifaces ∧ (s.modSplit gi si f).life = s.life ∧
    (s.modSplit gi si f).portsDown = s.portsDown ∧ (s.modSplit gi si f).linksDown = s.linksDown ∧
    (s.modSplit gi si f).keyEpoch = s.keyEpoch ∧ (s.modSplit gi si f).nonces = s.nonces ∧
    (s.modSplit gi si f).hdm = s.hdm ∧ (s.modSplit gi si f).scrubbing = s.scrubbing ∧
    (s.modSplit gi si f).resets = s.resets ∧ (s.modSplit gi si f).up = s.up ∧
    (s.modSplit gi si f).emuMajors = s.emuMajors ∧ (s.modSplit gi si f).traces = s.traces ∧
    (s.modSplit gi si f).frozen = s.frozen ∧ (s.modSplit gi si f).perf = s.perf := by
  repeat' constructor

/-- The fields after `State.modBlock`. -/
@[simp] theorem State.modBlock_fields (s : State) (bi : Nat) (f : Block → Block) :
    (s.modBlock bi f).agenda = s.agenda ∧ (s.modBlock bi f).curG = s.curG ∧ (s.modBlock bi f).curS = s.curS ∧
    (s.modBlock bi f).rings = s.rings ∧ (s.modBlock bi f).taken = s.taken ∧ (s.modBlock bi f).cycle = s.cycle ∧
    (s.modBlock bi f).nsMaster = s.nsMaster ∧ (s.modBlock bi f).nsSub = s.nsSub ∧ (s.modBlock bi f).dieNs = s.dieNs ∧
    (s.modBlock bi f).servo = s.servo ∧ (s.modBlock bi f).servoOffset = s.servoOffset ∧
    (s.modBlock bi f).slew = s.slew ∧ (s.modBlock bi f).ptp = s.ptp ∧ (s.modBlock bi f).sag = s.sag ∧
    (s.modBlock bi f).stretch = s.stretch ∧ (s.modBlock bi f).stretchFrom = s.stretchFrom ∧
    (s.modBlock bi f).clearing = s.clearing ∧ (s.modBlock bi f).powerCap = s.powerCap ∧
    (s.modBlock bi f).short = s.short ∧ (s.modBlock bi f).fused = s.fused ∧ (s.modBlock bi f).failed = s.failed ∧
    (s.modBlock bi f).parts = s.parts ∧ (s.modBlock bi f).ctxs = s.ctxs ∧ (s.modBlock bi f).launches = s.launches ∧
    (s.modBlock bi f).blocks = modNth f s.blocks bi ∧ (s.modBlock bi f).groups = s.groups ∧
    (s.modBlock bi f).channels = s.channels ∧ (s.modBlock bi f).rrLast = s.rrLast ∧ (s.modBlock bi f).mem = s.mem ∧
    (s.modBlock bi f).hostMem = s.hostMem ∧ (s.modBlock bi f).posted = s.posted ∧ (s.modBlock bi f).tlb = s.tlb ∧
    (s.modBlock bi f).atc = s.atc ∧ (s.modBlock bi f).atsEpoch = s.atsEpoch ∧ (s.modBlock bi f).logs = s.logs ∧
    (s.modBlock bi f).logSeq = s.logSeq ∧ (s.modBlock bi f).icache = s.icache ∧
    (s.modBlock bi f).granules = s.granules ∧ (s.modBlock bi f).dir = s.dir ∧ (s.modBlock bi f).l1 = s.l1 ∧
    (s.modBlock bi f).frames = s.frames ∧ (s.modBlock bi f).retiredFrames = s.retiredFrames ∧
    (s.modBlock bi f).cleanLines = s.cleanLines ∧ (s.modBlock bi f).nextId = s.nextId ∧
    (s.modBlock bi f).acc = s.acc ∧ (s.modBlock bi f).engines = s.engines ∧ (s.modBlock bi f).matq = s.matq ∧
    (s.modBlock bi f).matUsed = s.matUsed ∧ (s.modBlock bi f).slots = s.slots ∧
    (s.modBlock bi f).orbitOps = s.orbitOps ∧ (s.modBlock bi f).orbitPassed = s.orbitPassed ∧
    (s.modBlock bi f).ringBroken = s.ringBroken ∧ (s.modBlock bi f).retries = s.retries ∧
    (s.modBlock bi f).offers = s.offers ∧ (s.modBlock bi f).fwOut = s.fwOut ∧
    (s.modBlock bi f).collCount = s.collCount ∧ (s.modBlock bi f).outbox = s.outbox ∧
    (s.modBlock bi f).early = s.early ∧ (s.modBlock bi f).routines = s.routines ∧
    (s.modBlock bi f).loaded = s.loaded ∧ (s.modBlock bi f).busy = s.busy ∧ (s.modBlock bi f).bankLast = s.bankLast ∧
    (s.modBlock bi f).drowsy = s.drowsy ∧ (s.modBlock bi f).heads = s.heads ∧ (s.modBlock bi f).setUps = s.setUps ∧
    (s.modBlock bi f).meshRr = s.meshRr ∧ (s.modBlock bi f).msix = s.msix ∧
    (s.modBlock bi f).completions = s.completions ∧ (s.modBlock bi f).hostData = s.hostData ∧
    (s.modBlock bi f).dbgResult = s.dbgResult ∧ (s.modBlock bi f).devRegs = s.devRegs ∧
    (s.modBlock bi f).msixTable = s.msixTable ∧ (s.modBlock bi f).ifaces = s.ifaces ∧
    (s.modBlock bi f).life = s.life ∧ (s.modBlock bi f).portsDown = s.portsDown ∧
    (s.modBlock bi f).linksDown = s.linksDown ∧ (s.modBlock bi f).keyEpoch = s.keyEpoch ∧
    (s.modBlock bi f).nonces = s.nonces ∧ (s.modBlock bi f).hdm = s.hdm ∧ (s.modBlock bi f).scrubbing = s.scrubbing ∧
    (s.modBlock bi f).resets = s.resets ∧ (s.modBlock bi f).up = s.up ∧ (s.modBlock bi f).emuMajors = s.emuMajors ∧
    (s.modBlock bi f).traces = s.traces ∧ (s.modBlock bi f).frozen = s.frozen ∧ (s.modBlock bi f).perf = s.perf := by
  repeat' constructor

/-- The fields after `State.modLaunch`. -/
@[simp] theorem State.modLaunch_fields (s : State) (li : Nat) (f : Launch → Launch) :
    (s.modLaunch li f).agenda = s.agenda ∧ (s.modLaunch li f).curG = s.curG ∧ (s.modLaunch li f).curS = s.curS ∧
    (s.modLaunch li f).rings = s.rings ∧ (s.modLaunch li f).taken = s.taken ∧ (s.modLaunch li f).cycle = s.cycle ∧
    (s.modLaunch li f).nsMaster = s.nsMaster ∧ (s.modLaunch li f).nsSub = s.nsSub ∧
    (s.modLaunch li f).dieNs = s.dieNs ∧ (s.modLaunch li f).servo = s.servo ∧
    (s.modLaunch li f).servoOffset = s.servoOffset ∧ (s.modLaunch li f).slew = s.slew ∧
    (s.modLaunch li f).ptp = s.ptp ∧ (s.modLaunch li f).sag = s.sag ∧ (s.modLaunch li f).stretch = s.stretch ∧
    (s.modLaunch li f).stretchFrom = s.stretchFrom ∧ (s.modLaunch li f).clearing = s.clearing ∧
    (s.modLaunch li f).powerCap = s.powerCap ∧ (s.modLaunch li f).short = s.short ∧
    (s.modLaunch li f).fused = s.fused ∧ (s.modLaunch li f).failed = s.failed ∧ (s.modLaunch li f).parts = s.parts ∧
    (s.modLaunch li f).ctxs = s.ctxs ∧ (s.modLaunch li f).launches = modNth f s.launches li ∧
    (s.modLaunch li f).blocks = s.blocks ∧ (s.modLaunch li f).groups = s.groups ∧
    (s.modLaunch li f).channels = s.channels ∧ (s.modLaunch li f).rrLast = s.rrLast ∧
    (s.modLaunch li f).mem = s.mem ∧ (s.modLaunch li f).hostMem = s.hostMem ∧ (s.modLaunch li f).posted = s.posted ∧
    (s.modLaunch li f).tlb = s.tlb ∧ (s.modLaunch li f).atc = s.atc ∧ (s.modLaunch li f).atsEpoch = s.atsEpoch ∧
    (s.modLaunch li f).logs = s.logs ∧ (s.modLaunch li f).logSeq = s.logSeq ∧ (s.modLaunch li f).icache = s.icache ∧
    (s.modLaunch li f).granules = s.granules ∧ (s.modLaunch li f).dir = s.dir ∧ (s.modLaunch li f).l1 = s.l1 ∧
    (s.modLaunch li f).frames = s.frames ∧ (s.modLaunch li f).retiredFrames = s.retiredFrames ∧
    (s.modLaunch li f).cleanLines = s.cleanLines ∧ (s.modLaunch li f).nextId = s.nextId ∧
    (s.modLaunch li f).acc = s.acc ∧ (s.modLaunch li f).engines = s.engines ∧ (s.modLaunch li f).matq = s.matq ∧
    (s.modLaunch li f).matUsed = s.matUsed ∧ (s.modLaunch li f).slots = s.slots ∧
    (s.modLaunch li f).orbitOps = s.orbitOps ∧ (s.modLaunch li f).orbitPassed = s.orbitPassed ∧
    (s.modLaunch li f).ringBroken = s.ringBroken ∧ (s.modLaunch li f).retries = s.retries ∧
    (s.modLaunch li f).offers = s.offers ∧ (s.modLaunch li f).fwOut = s.fwOut ∧
    (s.modLaunch li f).collCount = s.collCount ∧ (s.modLaunch li f).outbox = s.outbox ∧
    (s.modLaunch li f).early = s.early ∧ (s.modLaunch li f).routines = s.routines ∧
    (s.modLaunch li f).loaded = s.loaded ∧ (s.modLaunch li f).busy = s.busy ∧
    (s.modLaunch li f).bankLast = s.bankLast ∧ (s.modLaunch li f).drowsy = s.drowsy ∧
    (s.modLaunch li f).heads = s.heads ∧ (s.modLaunch li f).setUps = s.setUps ∧
    (s.modLaunch li f).meshRr = s.meshRr ∧ (s.modLaunch li f).msix = s.msix ∧
    (s.modLaunch li f).completions = s.completions ∧ (s.modLaunch li f).hostData = s.hostData ∧
    (s.modLaunch li f).dbgResult = s.dbgResult ∧ (s.modLaunch li f).devRegs = s.devRegs ∧
    (s.modLaunch li f).msixTable = s.msixTable ∧ (s.modLaunch li f).ifaces = s.ifaces ∧
    (s.modLaunch li f).life = s.life ∧ (s.modLaunch li f).portsDown = s.portsDown ∧
    (s.modLaunch li f).linksDown = s.linksDown ∧ (s.modLaunch li f).keyEpoch = s.keyEpoch ∧
    (s.modLaunch li f).nonces = s.nonces ∧ (s.modLaunch li f).hdm = s.hdm ∧
    (s.modLaunch li f).scrubbing = s.scrubbing ∧ (s.modLaunch li f).resets = s.resets ∧
    (s.modLaunch li f).up = s.up ∧ (s.modLaunch li f).emuMajors = s.emuMajors ∧
    (s.modLaunch li f).traces = s.traces ∧ (s.modLaunch li f).frozen = s.frozen ∧
    (s.modLaunch li f).perf = s.perf := by
  repeat' constructor

/-- The fields after `State.modCtx`. -/
@[simp] theorem State.modCtx_fields (s : State) (c : Nat) (f : Ctx → Ctx) :
    (s.modCtx c f).agenda = s.agenda ∧ (s.modCtx c f).curG = s.curG ∧ (s.modCtx c f).curS = s.curS ∧
    (s.modCtx c f).rings = s.rings ∧ (s.modCtx c f).taken = s.taken ∧ (s.modCtx c f).cycle = s.cycle ∧
    (s.modCtx c f).nsMaster = s.nsMaster ∧ (s.modCtx c f).nsSub = s.nsSub ∧ (s.modCtx c f).dieNs = s.dieNs ∧
    (s.modCtx c f).servo = s.servo ∧ (s.modCtx c f).servoOffset = s.servoOffset ∧ (s.modCtx c f).slew = s.slew ∧
    (s.modCtx c f).ptp = s.ptp ∧ (s.modCtx c f).sag = s.sag ∧ (s.modCtx c f).stretch = s.stretch ∧
    (s.modCtx c f).stretchFrom = s.stretchFrom ∧ (s.modCtx c f).clearing = s.clearing ∧
    (s.modCtx c f).powerCap = s.powerCap ∧ (s.modCtx c f).short = s.short ∧ (s.modCtx c f).fused = s.fused ∧
    (s.modCtx c f).failed = s.failed ∧ (s.modCtx c f).parts = s.parts ∧
    (s.modCtx c f).ctxs = s.ctxs.map (fun x => if x.num = c then f x else x) ∧ (s.modCtx c f).launches = s.launches ∧
    (s.modCtx c f).blocks = s.blocks ∧ (s.modCtx c f).groups = s.groups ∧ (s.modCtx c f).channels = s.channels ∧
    (s.modCtx c f).rrLast = s.rrLast ∧ (s.modCtx c f).mem = s.mem ∧ (s.modCtx c f).hostMem = s.hostMem ∧
    (s.modCtx c f).posted = s.posted ∧ (s.modCtx c f).tlb = s.tlb ∧ (s.modCtx c f).atc = s.atc ∧
    (s.modCtx c f).atsEpoch = s.atsEpoch ∧ (s.modCtx c f).logs = s.logs ∧ (s.modCtx c f).logSeq = s.logSeq ∧
    (s.modCtx c f).icache = s.icache ∧ (s.modCtx c f).granules = s.granules ∧ (s.modCtx c f).dir = s.dir ∧
    (s.modCtx c f).l1 = s.l1 ∧ (s.modCtx c f).frames = s.frames ∧ (s.modCtx c f).retiredFrames = s.retiredFrames ∧
    (s.modCtx c f).cleanLines = s.cleanLines ∧ (s.modCtx c f).nextId = s.nextId ∧ (s.modCtx c f).acc = s.acc ∧
    (s.modCtx c f).engines = s.engines ∧ (s.modCtx c f).matq = s.matq ∧ (s.modCtx c f).matUsed = s.matUsed ∧
    (s.modCtx c f).slots = s.slots ∧ (s.modCtx c f).orbitOps = s.orbitOps ∧
    (s.modCtx c f).orbitPassed = s.orbitPassed ∧ (s.modCtx c f).ringBroken = s.ringBroken ∧
    (s.modCtx c f).retries = s.retries ∧ (s.modCtx c f).offers = s.offers ∧ (s.modCtx c f).fwOut = s.fwOut ∧
    (s.modCtx c f).collCount = s.collCount ∧ (s.modCtx c f).outbox = s.outbox ∧ (s.modCtx c f).early = s.early ∧
    (s.modCtx c f).routines = s.routines ∧ (s.modCtx c f).loaded = s.loaded ∧ (s.modCtx c f).busy = s.busy ∧
    (s.modCtx c f).bankLast = s.bankLast ∧ (s.modCtx c f).drowsy = s.drowsy ∧ (s.modCtx c f).heads = s.heads ∧
    (s.modCtx c f).setUps = s.setUps ∧ (s.modCtx c f).meshRr = s.meshRr ∧ (s.modCtx c f).msix = s.msix ∧
    (s.modCtx c f).completions = s.completions ∧ (s.modCtx c f).hostData = s.hostData ∧
    (s.modCtx c f).dbgResult = s.dbgResult ∧ (s.modCtx c f).devRegs = s.devRegs ∧
    (s.modCtx c f).msixTable = s.msixTable ∧ (s.modCtx c f).ifaces = s.ifaces ∧ (s.modCtx c f).life = s.life ∧
    (s.modCtx c f).portsDown = s.portsDown ∧ (s.modCtx c f).linksDown = s.linksDown ∧
    (s.modCtx c f).keyEpoch = s.keyEpoch ∧ (s.modCtx c f).nonces = s.nonces ∧ (s.modCtx c f).hdm = s.hdm ∧
    (s.modCtx c f).scrubbing = s.scrubbing ∧ (s.modCtx c f).resets = s.resets ∧ (s.modCtx c f).up = s.up ∧
    (s.modCtx c f).emuMajors = s.emuMajors ∧ (s.modCtx c f).traces = s.traces ∧ (s.modCtx c f).frozen = s.frozen ∧
    (s.modCtx c f).perf = s.perf := by
  repeat' constructor

/-- The fields after `State.modEngine`. -/
@[simp] theorem State.modEngine_fields (s : State) (id : Nat) (f : EngineOp → EngineOp) :
    (s.modEngine id f).agenda = s.agenda ∧ (s.modEngine id f).curG = s.curG ∧ (s.modEngine id f).curS = s.curS ∧
    (s.modEngine id f).rings = s.rings ∧ (s.modEngine id f).taken = s.taken ∧ (s.modEngine id f).cycle = s.cycle ∧
    (s.modEngine id f).nsMaster = s.nsMaster ∧ (s.modEngine id f).nsSub = s.nsSub ∧
    (s.modEngine id f).dieNs = s.dieNs ∧ (s.modEngine id f).servo = s.servo ∧
    (s.modEngine id f).servoOffset = s.servoOffset ∧ (s.modEngine id f).slew = s.slew ∧
    (s.modEngine id f).ptp = s.ptp ∧ (s.modEngine id f).sag = s.sag ∧ (s.modEngine id f).stretch = s.stretch ∧
    (s.modEngine id f).stretchFrom = s.stretchFrom ∧ (s.modEngine id f).clearing = s.clearing ∧
    (s.modEngine id f).powerCap = s.powerCap ∧ (s.modEngine id f).short = s.short ∧
    (s.modEngine id f).fused = s.fused ∧ (s.modEngine id f).failed = s.failed ∧ (s.modEngine id f).parts = s.parts ∧
    (s.modEngine id f).ctxs = s.ctxs ∧ (s.modEngine id f).launches = s.launches ∧
    (s.modEngine id f).blocks = s.blocks ∧ (s.modEngine id f).groups = s.groups ∧
    (s.modEngine id f).channels = s.channels ∧ (s.modEngine id f).rrLast = s.rrLast ∧
    (s.modEngine id f).mem = s.mem ∧ (s.modEngine id f).hostMem = s.hostMem ∧ (s.modEngine id f).posted = s.posted ∧
    (s.modEngine id f).tlb = s.tlb ∧ (s.modEngine id f).atc = s.atc ∧ (s.modEngine id f).atsEpoch = s.atsEpoch ∧
    (s.modEngine id f).logs = s.logs ∧ (s.modEngine id f).logSeq = s.logSeq ∧ (s.modEngine id f).icache = s.icache ∧
    (s.modEngine id f).granules = s.granules ∧ (s.modEngine id f).dir = s.dir ∧ (s.modEngine id f).l1 = s.l1 ∧
    (s.modEngine id f).frames = s.frames ∧ (s.modEngine id f).retiredFrames = s.retiredFrames ∧
    (s.modEngine id f).cleanLines = s.cleanLines ∧ (s.modEngine id f).nextId = s.nextId ∧
    (s.modEngine id f).acc = s.acc ∧
    (s.modEngine id f).engines = s.engines.map (fun o => if o.id = id then f o else o) ∧
    (s.modEngine id f).matq = s.matq ∧ (s.modEngine id f).matUsed = s.matUsed ∧ (s.modEngine id f).slots = s.slots ∧
    (s.modEngine id f).orbitOps = s.orbitOps ∧ (s.modEngine id f).orbitPassed = s.orbitPassed ∧
    (s.modEngine id f).ringBroken = s.ringBroken ∧ (s.modEngine id f).retries = s.retries ∧
    (s.modEngine id f).offers = s.offers ∧ (s.modEngine id f).fwOut = s.fwOut ∧
    (s.modEngine id f).collCount = s.collCount ∧ (s.modEngine id f).outbox = s.outbox ∧
    (s.modEngine id f).early = s.early ∧ (s.modEngine id f).routines = s.routines ∧
    (s.modEngine id f).loaded = s.loaded ∧ (s.modEngine id f).busy = s.busy ∧
    (s.modEngine id f).bankLast = s.bankLast ∧ (s.modEngine id f).drowsy = s.drowsy ∧
    (s.modEngine id f).heads = s.heads ∧ (s.modEngine id f).setUps = s.setUps ∧
    (s.modEngine id f).meshRr = s.meshRr ∧ (s.modEngine id f).msix = s.msix ∧
    (s.modEngine id f).completions = s.completions ∧ (s.modEngine id f).hostData = s.hostData ∧
    (s.modEngine id f).dbgResult = s.dbgResult ∧ (s.modEngine id f).devRegs = s.devRegs ∧
    (s.modEngine id f).msixTable = s.msixTable ∧ (s.modEngine id f).ifaces = s.ifaces ∧
    (s.modEngine id f).life = s.life ∧ (s.modEngine id f).portsDown = s.portsDown ∧
    (s.modEngine id f).linksDown = s.linksDown ∧ (s.modEngine id f).keyEpoch = s.keyEpoch ∧
    (s.modEngine id f).nonces = s.nonces ∧ (s.modEngine id f).hdm = s.hdm ∧
    (s.modEngine id f).scrubbing = s.scrubbing ∧ (s.modEngine id f).resets = s.resets ∧
    (s.modEngine id f).up = s.up ∧ (s.modEngine id f).emuMajors = s.emuMajors ∧
    (s.modEngine id f).traces = s.traces ∧ (s.modEngine id f).frozen = s.frozen ∧
    (s.modEngine id f).perf = s.perf := by
  repeat' constructor

/-- The fields after `State.modAccess`. -/
@[simp] theorem State.modAccess_fields (s : State) (id : Nat) (f : Access → Access) :
    (s.modAccess id f).agenda = s.agenda ∧ (s.modAccess id f).curG = s.curG ∧ (s.modAccess id f).curS = s.curS ∧
    (s.modAccess id f).rings = s.rings ∧ (s.modAccess id f).taken = s.taken ∧ (s.modAccess id f).cycle = s.cycle ∧
    (s.modAccess id f).nsMaster = s.nsMaster ∧ (s.modAccess id f).nsSub = s.nsSub ∧
    (s.modAccess id f).dieNs = s.dieNs ∧ (s.modAccess id f).servo = s.servo ∧
    (s.modAccess id f).servoOffset = s.servoOffset ∧ (s.modAccess id f).slew = s.slew ∧
    (s.modAccess id f).ptp = s.ptp ∧ (s.modAccess id f).sag = s.sag ∧ (s.modAccess id f).stretch = s.stretch ∧
    (s.modAccess id f).stretchFrom = s.stretchFrom ∧ (s.modAccess id f).clearing = s.clearing ∧
    (s.modAccess id f).powerCap = s.powerCap ∧ (s.modAccess id f).short = s.short ∧
    (s.modAccess id f).fused = s.fused ∧ (s.modAccess id f).failed = s.failed ∧ (s.modAccess id f).parts = s.parts ∧
    (s.modAccess id f).ctxs = s.ctxs ∧ (s.modAccess id f).launches = s.launches ∧
    (s.modAccess id f).blocks = s.blocks ∧ (s.modAccess id f).groups = s.groups ∧
    (s.modAccess id f).channels = s.channels ∧ (s.modAccess id f).rrLast = s.rrLast ∧
    (s.modAccess id f).mem = s.mem ∧ (s.modAccess id f).hostMem = s.hostMem ∧ (s.modAccess id f).posted = s.posted ∧
    (s.modAccess id f).tlb = s.tlb ∧ (s.modAccess id f).atc = s.atc ∧ (s.modAccess id f).atsEpoch = s.atsEpoch ∧
    (s.modAccess id f).logs = s.logs ∧ (s.modAccess id f).logSeq = s.logSeq ∧ (s.modAccess id f).icache = s.icache ∧
    (s.modAccess id f).granules = s.granules ∧ (s.modAccess id f).dir = s.dir ∧ (s.modAccess id f).l1 = s.l1 ∧
    (s.modAccess id f).frames = s.frames ∧ (s.modAccess id f).retiredFrames = s.retiredFrames ∧
    (s.modAccess id f).cleanLines = s.cleanLines ∧ (s.modAccess id f).nextId = s.nextId ∧
    (s.modAccess id f).acc = s.acc.map (fun a => if a.id = id then f a else a) ∧
    (s.modAccess id f).engines = s.engines ∧ (s.modAccess id f).matq = s.matq ∧
    (s.modAccess id f).matUsed = s.matUsed ∧ (s.modAccess id f).slots = s.slots ∧
    (s.modAccess id f).orbitOps = s.orbitOps ∧ (s.modAccess id f).orbitPassed = s.orbitPassed ∧
    (s.modAccess id f).ringBroken = s.ringBroken ∧ (s.modAccess id f).retries = s.retries ∧
    (s.modAccess id f).offers = s.offers ∧ (s.modAccess id f).fwOut = s.fwOut ∧
    (s.modAccess id f).collCount = s.collCount ∧ (s.modAccess id f).outbox = s.outbox ∧
    (s.modAccess id f).early = s.early ∧ (s.modAccess id f).routines = s.routines ∧
    (s.modAccess id f).loaded = s.loaded ∧ (s.modAccess id f).busy = s.busy ∧
    (s.modAccess id f).bankLast = s.bankLast ∧ (s.modAccess id f).drowsy = s.drowsy ∧
    (s.modAccess id f).heads = s.heads ∧ (s.modAccess id f).setUps = s.setUps ∧
    (s.modAccess id f).meshRr = s.meshRr ∧ (s.modAccess id f).msix = s.msix ∧
    (s.modAccess id f).completions = s.completions ∧ (s.modAccess id f).hostData = s.hostData ∧
    (s.modAccess id f).dbgResult = s.dbgResult ∧ (s.modAccess id f).devRegs = s.devRegs ∧
    (s.modAccess id f).msixTable = s.msixTable ∧ (s.modAccess id f).ifaces = s.ifaces ∧
    (s.modAccess id f).life = s.life ∧ (s.modAccess id f).portsDown = s.portsDown ∧
    (s.modAccess id f).linksDown = s.linksDown ∧ (s.modAccess id f).keyEpoch = s.keyEpoch ∧
    (s.modAccess id f).nonces = s.nonces ∧ (s.modAccess id f).hdm = s.hdm ∧
    (s.modAccess id f).scrubbing = s.scrubbing ∧ (s.modAccess id f).resets = s.resets ∧
    (s.modAccess id f).up = s.up ∧ (s.modAccess id f).emuMajors = s.emuMajors ∧
    (s.modAccess id f).traces = s.traces ∧ (s.modAccess id f).frozen = s.frozen ∧
    (s.modAccess id f).perf = s.perf := by
  repeat' constructor

/-- The fields after `State.memPut`. -/
@[simp] theorem State.memPut_fields (s : State) (pa : Nat) (b : Byte) :
    (s.memPut pa b).agenda = s.agenda ∧ (s.memPut pa b).curG = s.curG ∧ (s.memPut pa b).curS = s.curS ∧
    (s.memPut pa b).rings = s.rings ∧ (s.memPut pa b).taken = s.taken ∧ (s.memPut pa b).cycle = s.cycle ∧
    (s.memPut pa b).nsMaster = s.nsMaster ∧ (s.memPut pa b).nsSub = s.nsSub ∧ (s.memPut pa b).dieNs = s.dieNs ∧
    (s.memPut pa b).servo = s.servo ∧ (s.memPut pa b).servoOffset = s.servoOffset ∧ (s.memPut pa b).slew = s.slew ∧
    (s.memPut pa b).ptp = s.ptp ∧ (s.memPut pa b).sag = s.sag ∧ (s.memPut pa b).stretch = s.stretch ∧
    (s.memPut pa b).stretchFrom = s.stretchFrom ∧ (s.memPut pa b).clearing = s.clearing ∧
    (s.memPut pa b).powerCap = s.powerCap ∧ (s.memPut pa b).short = s.short ∧ (s.memPut pa b).fused = s.fused ∧
    (s.memPut pa b).failed = s.failed ∧ (s.memPut pa b).parts = s.parts ∧ (s.memPut pa b).ctxs = s.ctxs ∧
    (s.memPut pa b).launches = s.launches ∧ (s.memPut pa b).blocks = s.blocks ∧ (s.memPut pa b).groups = s.groups ∧
    (s.memPut pa b).channels = s.channels ∧ (s.memPut pa b).rrLast = s.rrLast ∧
    (s.memPut pa b).mem = Tab.put 0 s.mem pa b ∧ (s.memPut pa b).hostMem = s.hostMem ∧
    (s.memPut pa b).posted = s.posted ∧ (s.memPut pa b).tlb = s.tlb ∧ (s.memPut pa b).atc = s.atc ∧
    (s.memPut pa b).atsEpoch = s.atsEpoch ∧ (s.memPut pa b).logs = s.logs ∧ (s.memPut pa b).logSeq = s.logSeq ∧
    (s.memPut pa b).icache = s.icache ∧ (s.memPut pa b).granules = s.granules ∧ (s.memPut pa b).dir = s.dir ∧
    (s.memPut pa b).l1 = s.l1 ∧ (s.memPut pa b).frames = s.frames ∧ (s.memPut pa b).retiredFrames = s.retiredFrames ∧
    (s.memPut pa b).cleanLines = s.cleanLines ∧ (s.memPut pa b).nextId = s.nextId ∧ (s.memPut pa b).acc = s.acc ∧
    (s.memPut pa b).engines = s.engines ∧ (s.memPut pa b).matq = s.matq ∧ (s.memPut pa b).matUsed = s.matUsed ∧
    (s.memPut pa b).slots = s.slots ∧ (s.memPut pa b).orbitOps = s.orbitOps ∧
    (s.memPut pa b).orbitPassed = s.orbitPassed ∧ (s.memPut pa b).ringBroken = s.ringBroken ∧
    (s.memPut pa b).retries = s.retries ∧ (s.memPut pa b).offers = s.offers ∧ (s.memPut pa b).fwOut = s.fwOut ∧
    (s.memPut pa b).collCount = s.collCount ∧ (s.memPut pa b).outbox = s.outbox ∧ (s.memPut pa b).early = s.early ∧
    (s.memPut pa b).routines = s.routines ∧ (s.memPut pa b).loaded = s.loaded ∧ (s.memPut pa b).busy = s.busy ∧
    (s.memPut pa b).bankLast = s.bankLast ∧ (s.memPut pa b).drowsy = s.drowsy ∧ (s.memPut pa b).heads = s.heads ∧
    (s.memPut pa b).setUps = s.setUps ∧ (s.memPut pa b).meshRr = s.meshRr ∧ (s.memPut pa b).msix = s.msix ∧
    (s.memPut pa b).completions = s.completions ∧ (s.memPut pa b).hostData = s.hostData ∧
    (s.memPut pa b).dbgResult = s.dbgResult ∧ (s.memPut pa b).devRegs = s.devRegs ∧
    (s.memPut pa b).msixTable = s.msixTable ∧ (s.memPut pa b).ifaces = s.ifaces ∧ (s.memPut pa b).life = s.life ∧
    (s.memPut pa b).portsDown = s.portsDown ∧ (s.memPut pa b).linksDown = s.linksDown ∧
    (s.memPut pa b).keyEpoch = s.keyEpoch ∧ (s.memPut pa b).nonces = s.nonces ∧ (s.memPut pa b).hdm = s.hdm ∧
    (s.memPut pa b).scrubbing = s.scrubbing ∧ (s.memPut pa b).resets = s.resets ∧ (s.memPut pa b).up = s.up ∧
    (s.memPut pa b).emuMajors = s.emuMajors ∧ (s.memPut pa b).traces = s.traces ∧ (s.memPut pa b).frozen = s.frozen ∧
    (s.memPut pa b).perf = s.perf := by
  repeat' constructor

/-- The fields after `State.hostPut`. -/
@[simp] theorem State.hostPut_fields (s : State) (cn a : Nat) (b : Byte) :
    (s.hostPut cn a b).agenda = s.agenda ∧ (s.hostPut cn a b).curG = s.curG ∧ (s.hostPut cn a b).curS = s.curS ∧
    (s.hostPut cn a b).rings = s.rings ∧ (s.hostPut cn a b).taken = s.taken ∧ (s.hostPut cn a b).cycle = s.cycle ∧
    (s.hostPut cn a b).nsMaster = s.nsMaster ∧ (s.hostPut cn a b).nsSub = s.nsSub ∧
    (s.hostPut cn a b).dieNs = s.dieNs ∧ (s.hostPut cn a b).servo = s.servo ∧
    (s.hostPut cn a b).servoOffset = s.servoOffset ∧ (s.hostPut cn a b).slew = s.slew ∧
    (s.hostPut cn a b).ptp = s.ptp ∧ (s.hostPut cn a b).sag = s.sag ∧ (s.hostPut cn a b).stretch = s.stretch ∧
    (s.hostPut cn a b).stretchFrom = s.stretchFrom ∧ (s.hostPut cn a b).clearing = s.clearing ∧
    (s.hostPut cn a b).powerCap = s.powerCap ∧ (s.hostPut cn a b).short = s.short ∧
    (s.hostPut cn a b).fused = s.fused ∧ (s.hostPut cn a b).failed = s.failed ∧ (s.hostPut cn a b).parts = s.parts ∧
    (s.hostPut cn a b).ctxs = s.ctxs ∧ (s.hostPut cn a b).launches = s.launches ∧
    (s.hostPut cn a b).blocks = s.blocks ∧ (s.hostPut cn a b).groups = s.groups ∧
    (s.hostPut cn a b).channels = s.channels ∧ (s.hostPut cn a b).rrLast = s.rrLast ∧
    (s.hostPut cn a b).mem = s.mem ∧ (s.hostPut cn a b).hostMem = s.hostMem ∧
    (s.hostPut cn a b).posted = (s.ctxPart cn, s.hostPa a, b) :: s.posted ∧ (s.hostPut cn a b).tlb = s.tlb ∧
    (s.hostPut cn a b).atc = s.atc ∧ (s.hostPut cn a b).atsEpoch = s.atsEpoch ∧ (s.hostPut cn a b).logs = s.logs ∧
    (s.hostPut cn a b).logSeq = s.logSeq ∧ (s.hostPut cn a b).icache = s.icache ∧
    (s.hostPut cn a b).granules = s.granules ∧ (s.hostPut cn a b).dir = s.dir ∧ (s.hostPut cn a b).l1 = s.l1 ∧
    (s.hostPut cn a b).frames = s.frames ∧ (s.hostPut cn a b).retiredFrames = s.retiredFrames ∧
    (s.hostPut cn a b).cleanLines = s.cleanLines ∧ (s.hostPut cn a b).nextId = s.nextId ∧
    (s.hostPut cn a b).acc = s.acc ∧ (s.hostPut cn a b).engines = s.engines ∧ (s.hostPut cn a b).matq = s.matq ∧
    (s.hostPut cn a b).matUsed = s.matUsed ∧ (s.hostPut cn a b).slots = s.slots ∧
    (s.hostPut cn a b).orbitOps = s.orbitOps ∧ (s.hostPut cn a b).orbitPassed = s.orbitPassed ∧
    (s.hostPut cn a b).ringBroken = s.ringBroken ∧ (s.hostPut cn a b).retries = s.retries ∧
    (s.hostPut cn a b).offers = s.offers ∧ (s.hostPut cn a b).fwOut = s.fwOut ∧
    (s.hostPut cn a b).collCount = s.collCount ∧ (s.hostPut cn a b).outbox = s.outbox ∧
    (s.hostPut cn a b).early = s.early ∧ (s.hostPut cn a b).routines = s.routines ∧
    (s.hostPut cn a b).loaded = s.loaded ∧ (s.hostPut cn a b).busy = s.busy ∧
    (s.hostPut cn a b).bankLast = s.bankLast ∧ (s.hostPut cn a b).drowsy = s.drowsy ∧
    (s.hostPut cn a b).heads = s.heads ∧ (s.hostPut cn a b).setUps = s.setUps ∧
    (s.hostPut cn a b).meshRr = s.meshRr ∧ (s.hostPut cn a b).msix = s.msix ∧
    (s.hostPut cn a b).completions = s.completions ∧ (s.hostPut cn a b).hostData = s.hostData ∧
    (s.hostPut cn a b).dbgResult = s.dbgResult ∧ (s.hostPut cn a b).devRegs = s.devRegs ∧
    (s.hostPut cn a b).msixTable = s.msixTable ∧ (s.hostPut cn a b).ifaces = s.ifaces ∧
    (s.hostPut cn a b).life = s.life ∧ (s.hostPut cn a b).portsDown = s.portsDown ∧
    (s.hostPut cn a b).linksDown = s.linksDown ∧ (s.hostPut cn a b).keyEpoch = s.keyEpoch ∧
    (s.hostPut cn a b).nonces = s.nonces ∧ (s.hostPut cn a b).hdm = s.hdm ∧
    (s.hostPut cn a b).scrubbing = s.scrubbing ∧ (s.hostPut cn a b).resets = s.resets ∧
    (s.hostPut cn a b).up = s.up ∧ (s.hostPut cn a b).emuMajors = s.emuMajors ∧
    (s.hostPut cn a b).traces = s.traces ∧ (s.hostPut cn a b).frozen = s.frozen ∧
    (s.hostPut cn a b).perf = s.perf := by
  repeat' constructor

/-- The fields after `State.post`. -/
@[simp] theorem State.post_fields (s : State) (a : FwAccess) :
    (s.post a).agenda = s.agenda ∧ (s.post a).curG = s.curG ∧ (s.post a).curS = s.curS ∧ (s.post a).rings = s.rings ∧
    (s.post a).taken = s.taken ∧ (s.post a).cycle = s.cycle ∧ (s.post a).nsMaster = s.nsMaster ∧
    (s.post a).nsSub = s.nsSub ∧ (s.post a).dieNs = s.dieNs ∧ (s.post a).servo = s.servo ∧
    (s.post a).servoOffset = s.servoOffset ∧ (s.post a).slew = s.slew ∧ (s.post a).ptp = s.ptp ∧
    (s.post a).sag = s.sag ∧ (s.post a).stretch = s.stretch ∧ (s.post a).stretchFrom = s.stretchFrom ∧
    (s.post a).clearing = s.clearing ∧ (s.post a).powerCap = s.powerCap ∧ (s.post a).short = s.short ∧
    (s.post a).fused = s.fused ∧ (s.post a).failed = s.failed ∧ (s.post a).parts = s.parts ∧
    (s.post a).ctxs = s.ctxs ∧ (s.post a).launches = s.launches ∧ (s.post a).blocks = s.blocks ∧
    (s.post a).groups = s.groups ∧ (s.post a).channels = s.channels ∧ (s.post a).rrLast = s.rrLast ∧
    (s.post a).mem = s.mem ∧ (s.post a).hostMem = s.hostMem ∧ (s.post a).posted = s.posted ∧ (s.post a).tlb = s.tlb ∧
    (s.post a).atc = s.atc ∧ (s.post a).atsEpoch = s.atsEpoch ∧ (s.post a).logs = s.logs ∧
    (s.post a).logSeq = s.logSeq ∧ (s.post a).icache = s.icache ∧ (s.post a).granules = s.granules ∧
    (s.post a).dir = s.dir ∧ (s.post a).l1 = s.l1 ∧ (s.post a).frames = s.frames ∧
    (s.post a).retiredFrames = s.retiredFrames ∧ (s.post a).cleanLines = s.cleanLines ∧
    (s.post a).nextId = s.nextId ∧ (s.post a).acc = s.acc ∧ (s.post a).engines = s.engines ∧
    (s.post a).matq = s.matq ∧ (s.post a).matUsed = s.matUsed ∧ (s.post a).slots = s.slots ∧
    (s.post a).orbitOps = s.orbitOps ∧ (s.post a).orbitPassed = s.orbitPassed ∧
    (s.post a).ringBroken = s.ringBroken ∧ (s.post a).retries = s.retries ∧ (s.post a).offers = s.offers ∧
    (s.post a).fwOut = s.fwOut ++ [a] ∧ (s.post a).collCount = s.collCount ∧ (s.post a).outbox = s.outbox ∧
    (s.post a).early = s.early ∧ (s.post a).routines = s.routines ∧ (s.post a).loaded = s.loaded ∧
    (s.post a).busy = s.busy ∧ (s.post a).bankLast = s.bankLast ∧ (s.post a).drowsy = s.drowsy ∧
    (s.post a).heads = s.heads ∧ (s.post a).setUps = s.setUps ∧ (s.post a).meshRr = s.meshRr ∧
    (s.post a).msix = s.msix ∧ (s.post a).completions = s.completions ∧ (s.post a).hostData = s.hostData ∧
    (s.post a).dbgResult = s.dbgResult ∧ (s.post a).devRegs = s.devRegs ∧ (s.post a).msixTable = s.msixTable ∧
    (s.post a).ifaces = s.ifaces ∧ (s.post a).life = s.life ∧ (s.post a).portsDown = s.portsDown ∧
    (s.post a).linksDown = s.linksDown ∧ (s.post a).keyEpoch = s.keyEpoch ∧ (s.post a).nonces = s.nonces ∧
    (s.post a).hdm = s.hdm ∧ (s.post a).scrubbing = s.scrubbing ∧ (s.post a).resets = s.resets ∧
    (s.post a).up = s.up ∧ (s.post a).emuMajors = s.emuMajors ∧ (s.post a).traces = s.traces ∧
    (s.post a).frozen = s.frozen ∧ (s.post a).perf = s.perf := by
  repeat' constructor

/-- The fields after `State.setGranule`. -/
@[simp] theorem State.setGranule_fields (s : State) (g : Granule) :
    (s.setGranule g).agenda = s.agenda ∧ (s.setGranule g).curG = s.curG ∧ (s.setGranule g).curS = s.curS ∧
    (s.setGranule g).rings = s.rings ∧ (s.setGranule g).taken = s.taken ∧ (s.setGranule g).cycle = s.cycle ∧
    (s.setGranule g).nsMaster = s.nsMaster ∧ (s.setGranule g).nsSub = s.nsSub ∧ (s.setGranule g).dieNs = s.dieNs ∧
    (s.setGranule g).servo = s.servo ∧ (s.setGranule g).servoOffset = s.servoOffset ∧
    (s.setGranule g).slew = s.slew ∧ (s.setGranule g).ptp = s.ptp ∧ (s.setGranule g).sag = s.sag ∧
    (s.setGranule g).stretch = s.stretch ∧ (s.setGranule g).stretchFrom = s.stretchFrom ∧
    (s.setGranule g).clearing = s.clearing ∧ (s.setGranule g).powerCap = s.powerCap ∧
    (s.setGranule g).short = s.short ∧ (s.setGranule g).fused = s.fused ∧ (s.setGranule g).failed = s.failed ∧
    (s.setGranule g).parts = s.parts ∧ (s.setGranule g).ctxs = s.ctxs ∧ (s.setGranule g).launches = s.launches ∧
    (s.setGranule g).blocks = s.blocks ∧ (s.setGranule g).groups = s.groups ∧
    (s.setGranule g).channels = s.channels ∧ (s.setGranule g).rrLast = s.rrLast ∧ (s.setGranule g).mem = s.mem ∧
    (s.setGranule g).hostMem = s.hostMem ∧ (s.setGranule g).posted = s.posted ∧ (s.setGranule g).tlb = s.tlb ∧
    (s.setGranule g).atc = s.atc ∧ (s.setGranule g).atsEpoch = s.atsEpoch ∧ (s.setGranule g).logs = s.logs ∧
    (s.setGranule g).logSeq = s.logSeq ∧ (s.setGranule g).icache = s.icache ∧
    (s.setGranule g).granules = putGranule g s.granules ∧ (s.setGranule g).dir = s.dir ∧ (s.setGranule g).l1 = s.l1 ∧
    (s.setGranule g).frames = s.frames ∧ (s.setGranule g).retiredFrames = s.retiredFrames ∧
    (s.setGranule g).cleanLines = s.cleanLines ∧ (s.setGranule g).nextId = s.nextId ∧ (s.setGranule g).acc = s.acc ∧
    (s.setGranule g).engines = s.engines ∧ (s.setGranule g).matq = s.matq ∧ (s.setGranule g).matUsed = s.matUsed ∧
    (s.setGranule g).slots = s.slots ∧ (s.setGranule g).orbitOps = s.orbitOps ∧
    (s.setGranule g).orbitPassed = s.orbitPassed ∧ (s.setGranule g).ringBroken = s.ringBroken ∧
    (s.setGranule g).retries = s.retries ∧ (s.setGranule g).offers = s.offers ∧ (s.setGranule g).fwOut = s.fwOut ∧
    (s.setGranule g).collCount = s.collCount ∧ (s.setGranule g).outbox = s.outbox ∧
    (s.setGranule g).early = s.early ∧ (s.setGranule g).routines = s.routines ∧ (s.setGranule g).loaded = s.loaded ∧
    (s.setGranule g).busy = s.busy ∧ (s.setGranule g).bankLast = s.bankLast ∧ (s.setGranule g).drowsy = s.drowsy ∧
    (s.setGranule g).heads = s.heads ∧ (s.setGranule g).setUps = s.setUps ∧ (s.setGranule g).meshRr = s.meshRr ∧
    (s.setGranule g).msix = s.msix ∧ (s.setGranule g).completions = s.completions ∧
    (s.setGranule g).hostData = s.hostData ∧ (s.setGranule g).dbgResult = s.dbgResult ∧
    (s.setGranule g).devRegs = s.devRegs ∧ (s.setGranule g).msixTable = s.msixTable ∧
    (s.setGranule g).ifaces = s.ifaces ∧ (s.setGranule g).life = s.life ∧ (s.setGranule g).portsDown = s.portsDown ∧
    (s.setGranule g).linksDown = s.linksDown ∧ (s.setGranule g).keyEpoch = s.keyEpoch ∧
    (s.setGranule g).nonces = s.nonces ∧ (s.setGranule g).hdm = s.hdm ∧ (s.setGranule g).scrubbing = s.scrubbing ∧
    (s.setGranule g).resets = s.resets ∧ (s.setGranule g).up = s.up ∧ (s.setGranule g).emuMajors = s.emuMajors ∧
    (s.setGranule g).traces = s.traces ∧ (s.setGranule g).frozen = s.frozen ∧ (s.setGranule g).perf = s.perf := by
  repeat' constructor

/-- The fields after `State.setSlot`. -/
@[simp] theorem State.setSlot_fields (s : State) (id : Nat) (v : Slot) :
    (s.setSlot id v).agenda = s.agenda ∧ (s.setSlot id v).curG = s.curG ∧ (s.setSlot id v).curS = s.curS ∧
    (s.setSlot id v).rings = s.rings ∧ (s.setSlot id v).taken = s.taken ∧ (s.setSlot id v).cycle = s.cycle ∧
    (s.setSlot id v).nsMaster = s.nsMaster ∧ (s.setSlot id v).nsSub = s.nsSub ∧ (s.setSlot id v).dieNs = s.dieNs ∧
    (s.setSlot id v).servo = s.servo ∧ (s.setSlot id v).servoOffset = s.servoOffset ∧
    (s.setSlot id v).slew = s.slew ∧ (s.setSlot id v).ptp = s.ptp ∧ (s.setSlot id v).sag = s.sag ∧
    (s.setSlot id v).stretch = s.stretch ∧ (s.setSlot id v).stretchFrom = s.stretchFrom ∧
    (s.setSlot id v).clearing = s.clearing ∧ (s.setSlot id v).powerCap = s.powerCap ∧
    (s.setSlot id v).short = s.short ∧ (s.setSlot id v).fused = s.fused ∧ (s.setSlot id v).failed = s.failed ∧
    (s.setSlot id v).parts = s.parts ∧ (s.setSlot id v).ctxs = s.ctxs ∧ (s.setSlot id v).launches = s.launches ∧
    (s.setSlot id v).blocks = s.blocks ∧ (s.setSlot id v).groups = s.groups ∧
    (s.setSlot id v).channels = s.channels ∧ (s.setSlot id v).rrLast = s.rrLast ∧ (s.setSlot id v).mem = s.mem ∧
    (s.setSlot id v).hostMem = s.hostMem ∧ (s.setSlot id v).posted = s.posted ∧ (s.setSlot id v).tlb = s.tlb ∧
    (s.setSlot id v).atc = s.atc ∧ (s.setSlot id v).atsEpoch = s.atsEpoch ∧ (s.setSlot id v).logs = s.logs ∧
    (s.setSlot id v).logSeq = s.logSeq ∧ (s.setSlot id v).icache = s.icache ∧
    (s.setSlot id v).granules = s.granules ∧ (s.setSlot id v).dir = s.dir ∧ (s.setSlot id v).l1 = s.l1 ∧
    (s.setSlot id v).frames = s.frames ∧ (s.setSlot id v).retiredFrames = s.retiredFrames ∧
    (s.setSlot id v).cleanLines = s.cleanLines ∧ (s.setSlot id v).nextId = s.nextId ∧ (s.setSlot id v).acc = s.acc ∧
    (s.setSlot id v).engines = s.engines ∧ (s.setSlot id v).matq = s.matq ∧ (s.setSlot id v).matUsed = s.matUsed ∧
    (s.setSlot id v).slots = s.slots.put Slot.free id v ∧ (s.setSlot id v).orbitOps = s.orbitOps ∧
    (s.setSlot id v).orbitPassed = s.orbitPassed ∧ (s.setSlot id v).ringBroken = s.ringBroken ∧
    (s.setSlot id v).retries = s.retries ∧ (s.setSlot id v).offers = s.offers ∧ (s.setSlot id v).fwOut = s.fwOut ∧
    (s.setSlot id v).collCount = s.collCount ∧ (s.setSlot id v).outbox = s.outbox ∧
    (s.setSlot id v).early = s.early ∧ (s.setSlot id v).routines = s.routines ∧ (s.setSlot id v).loaded = s.loaded ∧
    (s.setSlot id v).busy = s.busy ∧ (s.setSlot id v).bankLast = s.bankLast ∧ (s.setSlot id v).drowsy = s.drowsy ∧
    (s.setSlot id v).heads = s.heads ∧ (s.setSlot id v).setUps = s.setUps ∧ (s.setSlot id v).meshRr = s.meshRr ∧
    (s.setSlot id v).msix = s.msix ∧ (s.setSlot id v).completions = s.completions ∧
    (s.setSlot id v).hostData = s.hostData ∧ (s.setSlot id v).dbgResult = s.dbgResult ∧
    (s.setSlot id v).devRegs = s.devRegs ∧ (s.setSlot id v).msixTable = s.msixTable ∧
    (s.setSlot id v).ifaces = s.ifaces ∧ (s.setSlot id v).life = s.life ∧ (s.setSlot id v).portsDown = s.portsDown ∧
    (s.setSlot id v).linksDown = s.linksDown ∧ (s.setSlot id v).keyEpoch = s.keyEpoch ∧
    (s.setSlot id v).nonces = s.nonces ∧ (s.setSlot id v).hdm = s.hdm ∧ (s.setSlot id v).scrubbing = s.scrubbing ∧
    (s.setSlot id v).resets = s.resets ∧ (s.setSlot id v).up = s.up ∧ (s.setSlot id v).emuMajors = s.emuMajors ∧
    (s.setSlot id v).traces = s.traces ∧ (s.setSlot id v).frozen = s.frozen ∧ (s.setSlot id v).perf = s.perf := by
  repeat' constructor

/-- The fields after `State.modChannel`. -/
@[simp] theorem State.modChannel_fields (s : State) (li ch : Nat) (f : Channel → Channel) :
    (s.modChannel li ch f).agenda = s.agenda ∧ (s.modChannel li ch f).curG = s.curG ∧
    (s.modChannel li ch f).curS = s.curS ∧ (s.modChannel li ch f).rings = s.rings ∧
    (s.modChannel li ch f).taken = s.taken ∧ (s.modChannel li ch f).cycle = s.cycle ∧
    (s.modChannel li ch f).nsMaster = s.nsMaster ∧ (s.modChannel li ch f).nsSub = s.nsSub ∧
    (s.modChannel li ch f).dieNs = s.dieNs ∧ (s.modChannel li ch f).servo = s.servo ∧
    (s.modChannel li ch f).servoOffset = s.servoOffset ∧ (s.modChannel li ch f).slew = s.slew ∧
    (s.modChannel li ch f).ptp = s.ptp ∧ (s.modChannel li ch f).sag = s.sag ∧
    (s.modChannel li ch f).stretch = s.stretch ∧ (s.modChannel li ch f).stretchFrom = s.stretchFrom ∧
    (s.modChannel li ch f).clearing = s.clearing ∧ (s.modChannel li ch f).powerCap = s.powerCap ∧
    (s.modChannel li ch f).short = s.short ∧ (s.modChannel li ch f).fused = s.fused ∧
    (s.modChannel li ch f).failed = s.failed ∧ (s.modChannel li ch f).parts = s.parts ∧
    (s.modChannel li ch f).ctxs = s.ctxs ∧ (s.modChannel li ch f).launches = s.launches ∧
    (s.modChannel li ch f).blocks = s.blocks ∧ (s.modChannel li ch f).groups = s.groups ∧
    (s.modChannel li ch f).channels = s.channels.map (fun c => if c.launch = li ∧ c.num = ch then f c else c) ∧
    (s.modChannel li ch f).rrLast = s.rrLast ∧ (s.modChannel li ch f).mem = s.mem ∧
    (s.modChannel li ch f).hostMem = s.hostMem ∧ (s.modChannel li ch f).posted = s.posted ∧
    (s.modChannel li ch f).tlb = s.tlb ∧ (s.modChannel li ch f).atc = s.atc ∧
    (s.modChannel li ch f).atsEpoch = s.atsEpoch ∧ (s.modChannel li ch f).logs = s.logs ∧
    (s.modChannel li ch f).logSeq = s.logSeq ∧ (s.modChannel li ch f).icache = s.icache ∧
    (s.modChannel li ch f).granules = s.granules ∧ (s.modChannel li ch f).dir = s.dir ∧
    (s.modChannel li ch f).l1 = s.l1 ∧ (s.modChannel li ch f).frames = s.frames ∧
    (s.modChannel li ch f).retiredFrames = s.retiredFrames ∧ (s.modChannel li ch f).cleanLines = s.cleanLines ∧
    (s.modChannel li ch f).nextId = s.nextId ∧ (s.modChannel li ch f).acc = s.acc ∧
    (s.modChannel li ch f).engines = s.engines ∧ (s.modChannel li ch f).matq = s.matq ∧
    (s.modChannel li ch f).matUsed = s.matUsed ∧ (s.modChannel li ch f).slots = s.slots ∧
    (s.modChannel li ch f).orbitOps = s.orbitOps ∧ (s.modChannel li ch f).orbitPassed = s.orbitPassed ∧
    (s.modChannel li ch f).ringBroken = s.ringBroken ∧ (s.modChannel li ch f).retries = s.retries ∧
    (s.modChannel li ch f).offers = s.offers ∧ (s.modChannel li ch f).fwOut = s.fwOut ∧
    (s.modChannel li ch f).collCount = s.collCount ∧ (s.modChannel li ch f).outbox = s.outbox ∧
    (s.modChannel li ch f).early = s.early ∧ (s.modChannel li ch f).routines = s.routines ∧
    (s.modChannel li ch f).loaded = s.loaded ∧ (s.modChannel li ch f).busy = s.busy ∧
    (s.modChannel li ch f).bankLast = s.bankLast ∧ (s.modChannel li ch f).drowsy = s.drowsy ∧
    (s.modChannel li ch f).heads = s.heads ∧ (s.modChannel li ch f).setUps = s.setUps ∧
    (s.modChannel li ch f).meshRr = s.meshRr ∧ (s.modChannel li ch f).msix = s.msix ∧
    (s.modChannel li ch f).completions = s.completions ∧ (s.modChannel li ch f).hostData = s.hostData ∧
    (s.modChannel li ch f).dbgResult = s.dbgResult ∧ (s.modChannel li ch f).devRegs = s.devRegs ∧
    (s.modChannel li ch f).msixTable = s.msixTable ∧ (s.modChannel li ch f).ifaces = s.ifaces ∧
    (s.modChannel li ch f).life = s.life ∧ (s.modChannel li ch f).portsDown = s.portsDown ∧
    (s.modChannel li ch f).linksDown = s.linksDown ∧ (s.modChannel li ch f).keyEpoch = s.keyEpoch ∧
    (s.modChannel li ch f).nonces = s.nonces ∧ (s.modChannel li ch f).hdm = s.hdm ∧
    (s.modChannel li ch f).scrubbing = s.scrubbing ∧ (s.modChannel li ch f).resets = s.resets ∧
    (s.modChannel li ch f).up = s.up ∧ (s.modChannel li ch f).emuMajors = s.emuMajors ∧
    (s.modChannel li ch f).traces = s.traces ∧ (s.modChannel li ch f).frozen = s.frozen ∧
    (s.modChannel li ch f).perf = s.perf := by
  repeat' constructor

/-- The fields after `State.modMat`. -/
@[simp] theorem State.modMat_fields (s : State) (id : Nat) (f : MatEntry → MatEntry) :
    (s.modMat id f).agenda = s.agenda ∧ (s.modMat id f).curG = s.curG ∧ (s.modMat id f).curS = s.curS ∧
    (s.modMat id f).rings = s.rings ∧ (s.modMat id f).taken = s.taken ∧ (s.modMat id f).cycle = s.cycle ∧
    (s.modMat id f).nsMaster = s.nsMaster ∧ (s.modMat id f).nsSub = s.nsSub ∧ (s.modMat id f).dieNs = s.dieNs ∧
    (s.modMat id f).servo = s.servo ∧ (s.modMat id f).servoOffset = s.servoOffset ∧ (s.modMat id f).slew = s.slew ∧
    (s.modMat id f).ptp = s.ptp ∧ (s.modMat id f).sag = s.sag ∧ (s.modMat id f).stretch = s.stretch ∧
    (s.modMat id f).stretchFrom = s.stretchFrom ∧ (s.modMat id f).clearing = s.clearing ∧
    (s.modMat id f).powerCap = s.powerCap ∧ (s.modMat id f).short = s.short ∧ (s.modMat id f).fused = s.fused ∧
    (s.modMat id f).failed = s.failed ∧ (s.modMat id f).parts = s.parts ∧ (s.modMat id f).ctxs = s.ctxs ∧
    (s.modMat id f).launches = s.launches ∧ (s.modMat id f).blocks = s.blocks ∧ (s.modMat id f).groups = s.groups ∧
    (s.modMat id f).channels = s.channels ∧ (s.modMat id f).rrLast = s.rrLast ∧ (s.modMat id f).mem = s.mem ∧
    (s.modMat id f).hostMem = s.hostMem ∧ (s.modMat id f).posted = s.posted ∧ (s.modMat id f).tlb = s.tlb ∧
    (s.modMat id f).atc = s.atc ∧ (s.modMat id f).atsEpoch = s.atsEpoch ∧ (s.modMat id f).logs = s.logs ∧
    (s.modMat id f).logSeq = s.logSeq ∧ (s.modMat id f).icache = s.icache ∧ (s.modMat id f).granules = s.granules ∧
    (s.modMat id f).dir = s.dir ∧ (s.modMat id f).l1 = s.l1 ∧ (s.modMat id f).frames = s.frames ∧
    (s.modMat id f).retiredFrames = s.retiredFrames ∧ (s.modMat id f).cleanLines = s.cleanLines ∧
    (s.modMat id f).nextId = s.nextId ∧ (s.modMat id f).acc = s.acc ∧ (s.modMat id f).engines = s.engines ∧
    (s.modMat id f).matq = s.matq.map (fun m => if m.id = id then f m else m) ∧ (s.modMat id f).matUsed = s.matUsed ∧
    (s.modMat id f).slots = s.slots ∧ (s.modMat id f).orbitOps = s.orbitOps ∧
    (s.modMat id f).orbitPassed = s.orbitPassed ∧ (s.modMat id f).ringBroken = s.ringBroken ∧
    (s.modMat id f).retries = s.retries ∧ (s.modMat id f).offers = s.offers ∧ (s.modMat id f).fwOut = s.fwOut ∧
    (s.modMat id f).collCount = s.collCount ∧ (s.modMat id f).outbox = s.outbox ∧ (s.modMat id f).early = s.early ∧
    (s.modMat id f).routines = s.routines ∧ (s.modMat id f).loaded = s.loaded ∧ (s.modMat id f).busy = s.busy ∧
    (s.modMat id f).bankLast = s.bankLast ∧ (s.modMat id f).drowsy = s.drowsy ∧ (s.modMat id f).heads = s.heads ∧
    (s.modMat id f).setUps = s.setUps ∧ (s.modMat id f).meshRr = s.meshRr ∧ (s.modMat id f).msix = s.msix ∧
    (s.modMat id f).completions = s.completions ∧ (s.modMat id f).hostData = s.hostData ∧
    (s.modMat id f).dbgResult = s.dbgResult ∧ (s.modMat id f).devRegs = s.devRegs ∧
    (s.modMat id f).msixTable = s.msixTable ∧ (s.modMat id f).ifaces = s.ifaces ∧ (s.modMat id f).life = s.life ∧
    (s.modMat id f).portsDown = s.portsDown ∧ (s.modMat id f).linksDown = s.linksDown ∧
    (s.modMat id f).keyEpoch = s.keyEpoch ∧ (s.modMat id f).nonces = s.nonces ∧ (s.modMat id f).hdm = s.hdm ∧
    (s.modMat id f).scrubbing = s.scrubbing ∧ (s.modMat id f).resets = s.resets ∧ (s.modMat id f).up = s.up ∧
    (s.modMat id f).emuMajors = s.emuMajors ∧ (s.modMat id f).traces = s.traces ∧ (s.modMat id f).frozen = s.frozen ∧
    (s.modMat id f).perf = s.perf := by
  repeat' constructor

/-- The fields after `State.setDirLine`. -/
@[simp] theorem State.setDirLine_fields (s : State) (d : DirLine) :
    (s.setDirLine d).agenda = s.agenda ∧ (s.setDirLine d).curG = s.curG ∧ (s.setDirLine d).curS = s.curS ∧
    (s.setDirLine d).rings = s.rings ∧ (s.setDirLine d).taken = s.taken ∧ (s.setDirLine d).cycle = s.cycle ∧
    (s.setDirLine d).nsMaster = s.nsMaster ∧ (s.setDirLine d).nsSub = s.nsSub ∧ (s.setDirLine d).dieNs = s.dieNs ∧
    (s.setDirLine d).servo = s.servo ∧ (s.setDirLine d).servoOffset = s.servoOffset ∧
    (s.setDirLine d).slew = s.slew ∧ (s.setDirLine d).ptp = s.ptp ∧ (s.setDirLine d).sag = s.sag ∧
    (s.setDirLine d).stretch = s.stretch ∧ (s.setDirLine d).stretchFrom = s.stretchFrom ∧
    (s.setDirLine d).clearing = s.clearing ∧ (s.setDirLine d).powerCap = s.powerCap ∧
    (s.setDirLine d).short = s.short ∧ (s.setDirLine d).fused = s.fused ∧ (s.setDirLine d).failed = s.failed ∧
    (s.setDirLine d).parts = s.parts ∧ (s.setDirLine d).ctxs = s.ctxs ∧ (s.setDirLine d).launches = s.launches ∧
    (s.setDirLine d).blocks = s.blocks ∧ (s.setDirLine d).groups = s.groups ∧
    (s.setDirLine d).channels = s.channels ∧ (s.setDirLine d).rrLast = s.rrLast ∧ (s.setDirLine d).mem = s.mem ∧
    (s.setDirLine d).hostMem = s.hostMem ∧ (s.setDirLine d).posted = s.posted ∧ (s.setDirLine d).tlb = s.tlb ∧
    (s.setDirLine d).atc = s.atc ∧ (s.setDirLine d).atsEpoch = s.atsEpoch ∧ (s.setDirLine d).logs = s.logs ∧
    (s.setDirLine d).logSeq = s.logSeq ∧ (s.setDirLine d).icache = s.icache ∧
    (s.setDirLine d).granules = s.granules ∧ (s.setDirLine d).dir = s.dir.filter (fun e => e.line != d.line) ++ [d] ∧
    (s.setDirLine d).l1 = s.l1 ∧ (s.setDirLine d).frames = s.frames ∧
    (s.setDirLine d).retiredFrames = s.retiredFrames ∧ (s.setDirLine d).cleanLines = s.cleanLines ∧
    (s.setDirLine d).nextId = s.nextId ∧ (s.setDirLine d).acc = s.acc ∧ (s.setDirLine d).engines = s.engines ∧
    (s.setDirLine d).matq = s.matq ∧ (s.setDirLine d).matUsed = s.matUsed ∧ (s.setDirLine d).slots = s.slots ∧
    (s.setDirLine d).orbitOps = s.orbitOps ∧ (s.setDirLine d).orbitPassed = s.orbitPassed ∧
    (s.setDirLine d).ringBroken = s.ringBroken ∧ (s.setDirLine d).retries = s.retries ∧
    (s.setDirLine d).offers = s.offers ∧ (s.setDirLine d).fwOut = s.fwOut ∧
    (s.setDirLine d).collCount = s.collCount ∧ (s.setDirLine d).outbox = s.outbox ∧
    (s.setDirLine d).early = s.early ∧ (s.setDirLine d).routines = s.routines ∧ (s.setDirLine d).loaded = s.loaded ∧
    (s.setDirLine d).busy = s.busy ∧ (s.setDirLine d).bankLast = s.bankLast ∧ (s.setDirLine d).drowsy = s.drowsy ∧
    (s.setDirLine d).heads = s.heads ∧ (s.setDirLine d).setUps = s.setUps ∧ (s.setDirLine d).meshRr = s.meshRr ∧
    (s.setDirLine d).msix = s.msix ∧ (s.setDirLine d).completions = s.completions ∧
    (s.setDirLine d).hostData = s.hostData ∧ (s.setDirLine d).dbgResult = s.dbgResult ∧
    (s.setDirLine d).devRegs = s.devRegs ∧ (s.setDirLine d).msixTable = s.msixTable ∧
    (s.setDirLine d).ifaces = s.ifaces ∧ (s.setDirLine d).life = s.life ∧ (s.setDirLine d).portsDown = s.portsDown ∧
    (s.setDirLine d).linksDown = s.linksDown ∧ (s.setDirLine d).keyEpoch = s.keyEpoch ∧
    (s.setDirLine d).nonces = s.nonces ∧ (s.setDirLine d).hdm = s.hdm ∧ (s.setDirLine d).scrubbing = s.scrubbing ∧
    (s.setDirLine d).resets = s.resets ∧ (s.setDirLine d).up = s.up ∧ (s.setDirLine d).emuMajors = s.emuMajors ∧
    (s.setDirLine d).traces = s.traces ∧ (s.setDirLine d).frozen = s.frozen ∧ (s.setDirLine d).perf = s.perf := by
  repeat' constructor

/-- The fields after `State.setDieLog`. -/
@[simp] theorem State.setDieLog_fields (s : State) (l : DieLog) :
    (s.setDieLog l).agenda = s.agenda ∧ (s.setDieLog l).curG = s.curG ∧ (s.setDieLog l).curS = s.curS ∧
    (s.setDieLog l).rings = s.rings ∧ (s.setDieLog l).taken = s.taken ∧ (s.setDieLog l).cycle = s.cycle ∧
    (s.setDieLog l).nsMaster = s.nsMaster ∧ (s.setDieLog l).nsSub = s.nsSub ∧ (s.setDieLog l).dieNs = s.dieNs ∧
    (s.setDieLog l).servo = s.servo ∧ (s.setDieLog l).servoOffset = s.servoOffset ∧ (s.setDieLog l).slew = s.slew ∧
    (s.setDieLog l).ptp = s.ptp ∧ (s.setDieLog l).sag = s.sag ∧ (s.setDieLog l).stretch = s.stretch ∧
    (s.setDieLog l).stretchFrom = s.stretchFrom ∧ (s.setDieLog l).clearing = s.clearing ∧
    (s.setDieLog l).powerCap = s.powerCap ∧ (s.setDieLog l).short = s.short ∧ (s.setDieLog l).fused = s.fused ∧
    (s.setDieLog l).failed = s.failed ∧ (s.setDieLog l).parts = s.parts ∧ (s.setDieLog l).ctxs = s.ctxs ∧
    (s.setDieLog l).launches = s.launches ∧ (s.setDieLog l).blocks = s.blocks ∧ (s.setDieLog l).groups = s.groups ∧
    (s.setDieLog l).channels = s.channels ∧ (s.setDieLog l).rrLast = s.rrLast ∧ (s.setDieLog l).mem = s.mem ∧
    (s.setDieLog l).hostMem = s.hostMem ∧ (s.setDieLog l).posted = s.posted ∧ (s.setDieLog l).tlb = s.tlb ∧
    (s.setDieLog l).atc = s.atc ∧ (s.setDieLog l).atsEpoch = s.atsEpoch ∧
    (s.setDieLog l).logs = s.logs.filter (fun m => m.die != l.die) ++ [l] ∧ (s.setDieLog l).logSeq = s.logSeq ∧
    (s.setDieLog l).icache = s.icache ∧ (s.setDieLog l).granules = s.granules ∧ (s.setDieLog l).dir = s.dir ∧
    (s.setDieLog l).l1 = s.l1 ∧ (s.setDieLog l).frames = s.frames ∧ (s.setDieLog l).retiredFrames = s.retiredFrames ∧
    (s.setDieLog l).cleanLines = s.cleanLines ∧ (s.setDieLog l).nextId = s.nextId ∧ (s.setDieLog l).acc = s.acc ∧
    (s.setDieLog l).engines = s.engines ∧ (s.setDieLog l).matq = s.matq ∧ (s.setDieLog l).matUsed = s.matUsed ∧
    (s.setDieLog l).slots = s.slots ∧ (s.setDieLog l).orbitOps = s.orbitOps ∧
    (s.setDieLog l).orbitPassed = s.orbitPassed ∧ (s.setDieLog l).ringBroken = s.ringBroken ∧
    (s.setDieLog l).retries = s.retries ∧ (s.setDieLog l).offers = s.offers ∧ (s.setDieLog l).fwOut = s.fwOut ∧
    (s.setDieLog l).collCount = s.collCount ∧ (s.setDieLog l).outbox = s.outbox ∧ (s.setDieLog l).early = s.early ∧
    (s.setDieLog l).routines = s.routines ∧ (s.setDieLog l).loaded = s.loaded ∧ (s.setDieLog l).busy = s.busy ∧
    (s.setDieLog l).bankLast = s.bankLast ∧ (s.setDieLog l).drowsy = s.drowsy ∧ (s.setDieLog l).heads = s.heads ∧
    (s.setDieLog l).setUps = s.setUps ∧ (s.setDieLog l).meshRr = s.meshRr ∧ (s.setDieLog l).msix = s.msix ∧
    (s.setDieLog l).completions = s.completions ∧ (s.setDieLog l).hostData = s.hostData ∧
    (s.setDieLog l).dbgResult = s.dbgResult ∧ (s.setDieLog l).devRegs = s.devRegs ∧
    (s.setDieLog l).msixTable = s.msixTable ∧ (s.setDieLog l).ifaces = s.ifaces ∧ (s.setDieLog l).life = s.life ∧
    (s.setDieLog l).portsDown = s.portsDown ∧ (s.setDieLog l).linksDown = s.linksDown ∧
    (s.setDieLog l).keyEpoch = s.keyEpoch ∧ (s.setDieLog l).nonces = s.nonces ∧ (s.setDieLog l).hdm = s.hdm ∧
    (s.setDieLog l).scrubbing = s.scrubbing ∧ (s.setDieLog l).resets = s.resets ∧ (s.setDieLog l).up = s.up ∧
    (s.setDieLog l).emuMajors = s.emuMajors ∧ (s.setDieLog l).traces = s.traces ∧ (s.setDieLog l).frozen = s.frozen ∧
    (s.setDieLog l).perf = s.perf := by
  repeat' constructor

end Sys2Proof.Machine
end

