-- ==== Sys2Proof/Laws/Table.lean ====
section
/-! SUPPORT. The laws of sparse tables: what a read after a write gives, and that every table operation keeps the canonical
form. The reads hold of any table, in canonical form or not. -/

namespace Sys2Proof.Tab

variable {α : Type}

theorem get_insert_same (dflt : α) (k : Nat) (v : α) (t : Tab α) : get dflt (insert k v t) k = v := by
  induction t with
  | nil => simp [insert, get]
  | cons e rest ih => grind [insert, get]

theorem get_insert_other (dflt : α) {k j : Nat} (v : α) (t : Tab α) (h : j ≠ k) :
    get dflt (insert k v t) j = get dflt t j := by
  induction t with
  | nil => simp [insert, get, Ne.symm h]
  | cons e rest ih => grind [insert, get]

theorem get_erase_same (dflt : α) (k : Nat) (t : Tab α) : get dflt (erase k t) k = dflt := by
  induction t with
  | nil => simp [erase, get]
  | cons e rest ih => grind [erase, get]

theorem get_erase_other (dflt : α) {k j : Nat} (t : Tab α) (h : j ≠ k) : get dflt (erase k t) j = get dflt t j := by
  induction t with
  | nil => simp [erase, get]
  | cons e rest ih => grind [erase, get]

variable [DecidableEq α]

/-- A read of the written key gives the written value. -/
@[simp] theorem get_put_same (dflt : α) (k : Nat) (v : α) (t : Tab α) : get dflt (put dflt t k v) k = v := by
  unfold put; split
  · rw [get_erase_same]; simp_all
  · exact get_insert_same ..

/-- A write leaves every other key alone. -/
theorem get_put_other (dflt : α) {k j : Nat} (v : α) (t : Tab α) (h : j ≠ k) :
    get dflt (put dflt t k v) j = get dflt t j := by
  unfold put; split
  · exact get_erase_other _ _ h
  · exact get_insert_other _ _ _ h

theorem get_put (dflt : α) (k j : Nat) (v : α) (t : Tab α) :
    get dflt (put dflt t k v) j = if j = k then v else get dflt t j := by
  split
  · subst j; exact get_put_same ..
  · exact get_put_other _ _ _ ‹_›

/-! ## The canonical form -/

theorem wfFrom_mono (dflt : α) {lo lo' : Nat} (h : lo' ≤ lo) : ∀ t : Tab α, wfFrom dflt lo t = true → wfFrom dflt lo' t = true
  | [] => by simp [wfFrom]
  | (k, v) :: rest => by
    simp only [wfFrom, Bool.and_eq_true, decide_eq_true_eq]
    exact fun ⟨⟨hk, hv⟩, hr⟩ => ⟨⟨by omega, hv⟩, hr⟩

/-- The entries that satisfy a test keep the form. -/
theorem wfFrom_filter (dflt : α) (p : Nat × α → Bool) (t : Tab α) :
    ∀ lo, wfFrom dflt lo t = true → wfFrom dflt lo (t.filter p) = true := by
  induction t with
  | nil => simp [wfFrom]
  | cons e rest ih =>
    intro lo h
    simp only [wfFrom, Bool.and_eq_true, decide_eq_true_eq] at h
    by_cases hp : p e = true
    · simp only [List.filter_cons_of_pos hp, wfFrom, Bool.and_eq_true, decide_eq_true_eq]
      exact ⟨h.1, ih _ h.2⟩
    · simp only [List.filter_cons_of_neg hp]
      exact wfFrom_mono dflt (by omega) _ (ih _ h.2)

theorem wfFrom_insert (dflt : α) (k : Nat) (v : α) (hv : v ≠ dflt) (t : Tab α) :
    ∀ lo, lo ≤ k → wfFrom dflt lo t = true → wfFrom dflt lo (insert k v t) = true := by
  induction t with
  | nil => intro lo hlo _; simp [insert, wfFrom, hlo, hv]
  | cons e rest ih =>
    intro lo hlo h
    simp only [wfFrom, Bool.and_eq_true, decide_eq_true_eq] at h
    simp only [insert]
    split
    · subst k; simp [wfFrom, h, hv]
    · split
      · simp only [wfFrom, Bool.and_eq_true, decide_eq_true_eq]; exact ⟨⟨hlo, hv⟩, ⟨by omega, h.1.2⟩, h.2⟩
      · simp only [wfFrom, Bool.and_eq_true, decide_eq_true_eq]; exact ⟨h.1, ih _ (by omega) h.2⟩

/-- A filtered table keeps the form. -/
theorem wf_filter (dflt : α) (p : Nat × α → Bool) {t : Tab α} (h : wf dflt t = true) : wf dflt (t.filter p) = true :=
  wfFrom_filter dflt p t 0 h

/-- A write keeps the form. -/
theorem wf_put (dflt : α) (k : Nat) (v : α) {t : Tab α} (h : wf dflt t = true) : wf dflt (put dflt t k v) = true := by
  unfold put; split
  · exact wf_filter dflt _ h
  · exact wfFrom_insert dflt k v ‹_› t 0 (Nat.zero_le k) h

/-- Many writes keep the form. -/
theorem wf_putAll (dflt : α) (ws : List (Nat × α)) : ∀ {t : Tab α}, wf dflt t = true → wf dflt (putAll dflt t ws) = true := by
  induction ws with
  | nil => intro t h; exact h
  | cons w ws ih => intro t h; exact ih (wf_put dflt w.1 w.2 h)

end Sys2Proof.Tab
end

