-- ==== Sys2Proof/Laws/Ops.lean ====
section
/-! SUPPORT. One law for each shared operation: updates of groups and splits, register files, predicates, flags, the skeleton
of an instruction and the skeletons of register instructions. -/

namespace Sys2Proof.Machine

open Sys2Proof

/-! ## Lists -/

theorem modNth_get {α : Type} (f : α → α) : ∀ (l : List α) (n j : Nat), (modNth f l n)[j]? = if j = n then l[j]?.map f else l[j]?
  | [], n, j => by simp [modNth]
  | a :: l, 0, j => by cases j <;> simp [modNth]
  | a :: l, n + 1, j => by
    cases j with
    | zero => simp [modNth]
    | succ j => simp [modNth, modNth_get f l n j]

@[simp] theorem modNth_length {α : Type} (f : α → α) : ∀ (l : List α) (n : Nat), (modNth f l n).length = l.length
  | [], _ => rfl
  | _ :: _, 0 => rfl
  | _ :: l, n + 1 => congrArg (· + 1) (modNth_length f l n)

theorem modNth_modNth {α : Type} (f f' : α → α) : ∀ (l : List α) (n : Nat), modNth f' (modNth f l n) n = modNth (f' ∘ f) l n
  | [], _ => rfl
  | _ :: _, 0 => rfl
  | a :: l, n + 1 => congrArg (a :: ·) (modNth_modNth f f' l n)

/-! ## Groups and splits -/

theorem group?_modGroup (s : State) (gi j : Nat) (f : Group → Group) :
    (s.modGroup gi f).group? j = if j = gi then (s.group? j).map f else s.group? j := modNth_get f s.groups gi j

theorem group?_modGroup_same {s : State} {gi : Nat} {g : Group} (f : Group → Group) (h : s.group? gi = some g) :
    (s.modGroup gi f).group? gi = some (f g) := by rw [group?_modGroup, if_pos rfl, h]; rfl

theorem group?_modGroup_other {s : State} {gi j : Nat} (f : Group → Group) (h : j ≠ gi) :
    (s.modGroup gi f).group? j = s.group? j := by rw [group?_modGroup, if_neg h]

/-- Two updates of one group are one. -/
theorem modGroup_modGroup (s : State) (gi : Nat) (f f' : Group → Group) :
    (s.modGroup gi f).modGroup gi f' = s.modGroup gi (f' ∘ f) := by
  simp only [State.modGroup, modNth_modNth]

/-- An update of one group leaves everything else. -/
theorem onlyGroup_modGroup (s : State) (gi : Nat) (f : Group → Group) : OnlyGroup s (s.modGroup gi f) gi :=
  ⟨rfl, modNth_length f s.groups gi, fun _ h => group?_modGroup_other f h⟩

/-- The issuing group and split. -/
theorem issuer?_eq {s : State} {g : Group} {p : Split} (h : s.issuer? = some (g, p)) :
    s.group? s.curG = some g ∧ g.split? s.curS = some p ∧ p.idx = s.curS := by
  unfold State.issuer? at h
  rcases hg : s.group? s.curG with _ | g'
  · simp [hg] at h
  · rcases hp : g'.split? s.curS with _ | p'
    · simp [hg, hp] at h
    · simp only [hg, hp, Option.bind_some, Option.map_some, Option.some.injEq, Prod.mk.injEq] at h
      obtain ⟨rfl, rfl⟩ := h
      exact ⟨rfl, hp, by simpa using List.find?_some hp⟩

/-- The same split after an update of its table. -/
theorem split?_modSplit {g : Group} {si : Nat} {p : Split} (f : Split → Split) (hf : ∀ q, (f q).idx = q.idx)
    (h : g.split? si = some p) : (g.modSplit si f).split? si = some (f p) := by
  unfold Group.split? Group.modSplit at *
  have hidx : ∀ q : Split, ((if q.idx = si then f q else q).idx == si) = (q.idx == si) := by
    intro q; split <;> simp [hf]
  have hp : p.idx = si := by simpa using List.find?_some h
  simp only [List.find?_map, Function.comp_def, hidx, h, Option.map_some, hp, if_true]

/-! ## The skeleton of an instruction -/

/-- An instruction whose registers are allocated runs its body on its issue (R81). -/
theorem runInstr_executes {s : State} {g : Group} {p : Split} {i : Instr} (gd : Guard) (body : Issue → State → State)
    (h : Executes s g p i) : runInstr i gd body s = .next (body (issueOf s g p i gd) s) := by
  obtain ⟨hi, hl⟩ := h
  simp only [runInstr, hi, hl, if_true, issueOf]

/-- An instruction that names a register that is not allocated takes OPR with its word, whatever its guard (R53, R81). -/
theorem runInstr_unallocated {s : State} {g : Group} {p : Split} {i : Instr} (gd : Guard) (body : Issue → State → State)
    (hi : s.issuer? = some (g, p)) (hl : limitsOk g i = false) :
    runInstr i gd body s = .next (trapWord { issueOf s g p i gd with e := p.mask } .opr s) := by
  simp only [runInstr, hi, hl, Bool.false_eq_true, if_false, issueOf]

/-- A register update and the move past the instruction are one update of the group. -/
theorem advance_modGroup (k : Issue) (f : Group → Group) (s : State) :
    advance k (s.modGroup k.gi f) = s.modGroup k.gi (fun g => (f g).modSplit k.si (fun p => p.goto k.nextPc)) := by
  simp only [advance, State.modSplit, modGroup_modGroup]; rfl

/-- What a register update of the issuing group leaves. -/
theorem registerEffect_of {s : State} {g : Group} {p : Split} {i : Instr} {gd : Guard} {f : Group → Group}
    {regs : Group → Prop} (h : s.issuer? = some (g, p)) (hr : RegistersOnly g (f g)) (hs : (f g).splits = g.splits)
    (hregs : ∀ sp, regs (f g) → regs { f g with splits := sp }) (hq : regs (f g)) :
    RegisterEffect s (advance (issueOf s g p i gd) (s.modGroup s.curG f)) g p i regs := by
  obtain ⟨hg, -, hidx⟩ := issuer?_eq h
  rw [show s.modGroup s.curG f = s.modGroup (issueOf s g p i gd).gi f from rfl, advance_modGroup]
  refine ⟨onlyGroup_modGroup .., _, group?_modGroup_same _ hg, ?_, ?_, ?_⟩
  · exact congrArg (fun z : Group => z.modSplit s.curS _) hr
  · simp only [Continues, Group.modSplit, hs, issueOf, hidx, behind, Issue.nextPc]
    rfl
  · exact hregs _ hq

/-! ## Register files -/

theorem uget_uset (g : Group) (r j : Nat) (w : Word) : (g.uset r w).uget j = if j = r then w else g.uget j :=
  Tab.get_put 0 r j w g.uni

/-- Lanes below 16 keep vector registers apart. -/
theorem lane_lt {m : LaneMask} {L : Nat} (h : m.getLsbD L = true) : L < 16 := by
  by_contra hc
  rw [BitVec.getLsbD_of_ge m L (by omega)] at h
  exact absurd h (by decide)

theorem vget_vset (g : Group) (r L j M : Nat) (w : Word) :
    (g.vset r L w).vget j M = if j = r ∧ M = L ∧ g.present.getLsbD L = true then w else g.vget j M := by
  unfold Group.vset Group.vget
  by_cases hL : g.present.getLsbD L = true
  · simp only [hL, if_true, and_true]
    by_cases hM : g.present.getLsbD M = true
    · have h1 := lane_lt hL
      have h2 := lane_lt hM
      simp only [hM, if_true, Tab.get_put]
      by_cases h : j = r ∧ M = L
      · rw [if_pos h, if_pos (by omega)]
      · rw [if_neg h, if_neg (by omega)]
    · rw [if_neg hM, if_neg]
      · simp [hM]
      · rintro ⟨-, rfl⟩; exact hM hL
  · simp [hL]

@[simp] theorem vset_frame (g : Group) (r L : Nat) (w : Word) :
    (g.vset r L w).uni = g.uni ∧ (g.vset r L w).pred = g.pred ∧ (g.vset r L w).splits = g.splits ∧
      (g.vset r L w).flags = g.flags ∧ (g.vset r L w).inflight = g.inflight ∧ (g.vset r L w).present = g.present := by
  unfold Group.vset; split <;> simp

theorem vset_registersOnly (g : Group) (r L : Nat) (w : Word) : g.vset r L w = { g with vec := (g.vset r L w).vec } := by
  unfold Group.vset; split <;> rfl

theorem uset_registersOnly (g : Group) (r : Nat) (w : Word) : g.uset r w = { g with uni := (g.uset r w).uni } := rfl

/-- Changes of the vector file compose. -/
theorem vecOnly_trans {g h k : Group} (h1 : h = { g with vec := h.vec }) (h2 : k = { h with vec := k.vec }) :
    k = { g with vec := k.vec } :=
  h2.trans (congrArg (fun z : Group => { z with vec := k.vec }) h1)

/-- One vector register or pair of one lane written. -/
theorem rset_vector (g : Group) (wide : Bool) (d L : Nat) (v : DWord) :
    g.rset false wide d L v = { g with vec := (g.rset false wide d L v).vec } ∧
    ∀ r M, (g.rset false wide d L v).vget r M =
      match destWord wide d v r with
      | some w => if M = L ∧ g.present.getLsbD L = true then w else g.vget r M
      | none => g.vget r M := by
  have hp : ∀ r L w, (g.vset r L w).present = g.present := fun r L w => (vset_frame g r L w).2.2.2.2.2
  cases wide with
  | false =>
    refine ⟨by simpa [Group.rset] using vset_registersOnly .., fun r M => ?_⟩
    simp only [Group.rset, Bool.false_eq_true, if_false, vget_vset, destWord, false_and]
    by_cases h : r = d <;> simp [h]
  | true =>
    constructor
    · exact vecOnly_trans (vset_registersOnly g d L _) (vset_registersOnly _ (d + 1) L _)
    · intro r M
      simp only [Group.rset, if_true, Bool.false_eq_true, if_false, vget_vset, hp, destWord, true_and]
      by_cases h : r = d
      · subst h; simp
      · by_cases h' : r = d + 1 <;> simp [h, h']

/-- One uniform register or pair written. -/
theorem rset_uniform (g : Group) (wide : Bool) (d L : Nat) (v : DWord) :
    g.rset true wide d L v = { g with uni := (g.rset true wide d L v).uni } ∧
    ∀ r, (g.rset true wide d L v).uget r =
      match destWord wide d v r with
      | some w => w
      | none => g.uget r := by
  cases wide with
  | false =>
    refine ⟨rfl, fun r => ?_⟩
    simp only [Group.rset, if_true, Bool.false_eq_true, if_false, uget_uset, destWord, false_and]
    by_cases h : r = d <;> simp [h]
  | true =>
    refine ⟨rfl, fun r => ?_⟩
    simp only [Group.rset, if_true, uget_uset, destWord, true_and]
    by_cases h : r = d
    · subst h; simp
    · by_cases h' : r = d + 1 <;> simp [h, h']

/-- Values written to a list of lanes, one after the other. -/
theorem foldl_rset (wide : Bool) (d : Nat) (f : Nat → DWord) : ∀ (ls : List Nat) (g : Group),
    ls.foldl (fun g L => g.rset false wide d L (f L)) g =
        { g with vec := (ls.foldl (fun g L => g.rset false wide d L (f L)) g).vec } ∧
      ∀ r M, (ls.foldl (fun g L => g.rset false wide d L (f L)) g).vget r M =
        match destWord wide d (f M) r with
        | some w => if M ∈ ls ∧ g.present.getLsbD M = true then w else g.vget r M
        | none => g.vget r M
  | [], g => ⟨rfl, fun r M => by simp only [List.foldl_nil]; split <;> simp⟩
  | L :: ls, g => by
    obtain ⟨h1, h2⟩ := rset_vector g wide d L (f L)
    obtain ⟨h3, h4⟩ := foldl_rset wide d f ls (g.rset false wide d L (f L))
    have hp : (g.rset false wide d L (f L)).present = g.present := by rw [h1]
    refine ⟨?_, fun r M => ?_⟩
    · exact vecOnly_trans h1 h3
    · simp only [List.foldl_cons, h4, h2, hp, List.mem_cons]
      by_cases hM : M = L
      · subst hM
        cases destWord wide d (f M) r <;> simp
        grind
      · have hd : ∀ v v' : DWord, (destWord wide d v r).isSome = (destWord wide d v' r).isSome := by
          intro v v'; unfold destWord; split <;> [rfl; (split <;> rfl)]
        have hs := hd (f M) (f L)
        rcases h5 : destWord wide d (f M) r with _ | w <;> rcases h6 : destWord wide d (f L) r with _ | w'
        · rfl
        · rw [h5, h6] at hs; exact absurd hs (by simp)
        · rw [h5, h6] at hs; exact absurd hs (by simp)
        · simp only [hM, false_or, false_and, if_false]

theorem mem_lanesOf {m : LaneMask} {L : Nat} : L ∈ lanesOf m ↔ m.getLsbD L = true := by
  simp only [lanesOf, List.mem_filter, allLanes, List.mem_range]
  exact ⟨fun h => h.2, fun h => ⟨lane_lt h, h⟩⟩

/-- The vector registers after a write of each lane of a mask (R65, R72). -/
theorem vsetLanes_spec (g : Group) (wide : Bool) (d : Nat) (e : LaneMask) (f : Nat → DWord) :
    g.vsetLanes wide d e f = { g with vec := (g.vsetLanes wide d e f).vec } ∧
      VectorWritten g (g.vsetLanes wide d e f) e wide d f := by
  obtain ⟨h1, h2⟩ := foldl_rset wide d f (lanesOf e) g
  refine ⟨h1, fun r L => ?_⟩
  unfold Group.vsetLanes
  rw [h2]
  cases destWord wide d (f L) r <;> simp [mem_lanesOf]

theorem both_of_uni {g h : Group} (h1 : h = { g with uni := h.uni }) : h = { g with vec := h.vec, uni := h.uni } := by
  have hv : h.vec = g.vec := by rw [h1]
  rw [hv]; exact h1

theorem both_of_vec {g h : Group} (h1 : h = { g with vec := h.vec }) : h = { g with vec := h.vec, uni := h.uni } := by
  have hu : h.uni = g.uni := by rw [h1]
  rw [hu]; exact h1

/-- D written: only the file of its class changes. -/
theorem writeD_spec (x : Ext) (wide : Bool) (e : LaneMask) (f : Nat → DWord) (g : Group) :
    writeD x wide e f g = { g with vec := (writeD x wide e f g).vec, uni := (writeD x wide e f g).uni } ∧
      DWritten g (writeD x wide e f g) x e wide f := by
  unfold writeD DWritten
  cases hU : x.dU with
  | true =>
    by_cases he : e = 0
    · subst he
      refine ⟨by simp, by simp, ?_⟩
      simp only [if_true]
      exact ⟨fun r => by split <;> simp, trivial⟩
    · obtain ⟨h1, h2⟩ := rset_uniform g wide x.d.toNat 0 (f 0)
      simp only [if_true, if_neg he]
      refine ⟨both_of_uni h1, by rw [h1], fun r => ?_, by rw [h1]⟩
      rw [h2]
      cases destWord wide x.d.toNat (f 0) r with
      | none => rfl
      | some w => exact (if_neg he).symm
  | false =>
    obtain ⟨h1, h2⟩ := vsetLanes_spec g wide x.d.toNat e f
    simp only [Bool.false_eq_true, if_false]
    exact ⟨both_of_vec h1, by rw [h1], h2, by rw [h1]⟩

/-! ## Predicates and flags -/

theorem pget_pset (g : Group) (p q : Nat) (e bits : LaneMask) :
    (g.pset p e bits).pget q =
      if q = p ∧ p ≠ 15 then (g.pget p &&& ~~~(e &&& g.present)) ||| (bits &&& (e &&& g.present)) else g.pget q := by
  unfold Group.pset
  by_cases hp : p = 15
  · simp [hp]
  · simp only [hp, if_false]
    by_cases hq : q = p
    · subst hq
      simp only [Group.pget, hp, if_false, Tab.get_put_same, ne_eq, not_false_eq_true, and_self, if_true]
    · simp only [Group.pget, hq, false_and, if_false, Tab.get_put]

theorem getLsbD_maskOf (f : Nat → Bool) {L : Nat} (h : L < 16) : (maskOf f).getLsbD L = f L := by
  have key : ∀ (ls : List Nat) (m : LaneMask), (∀ M ∈ ls, M < 16) →
      (ls.foldl (fun m L => if f L then m ||| laneBit L else m) m).getLsbD L = (m.getLsbD L || (decide (L ∈ ls) && f L)) := by
    intro ls
    induction ls with
    | nil => simp
    | cons M ls ih =>
      intro m hm
      rw [List.foldl_cons, ih _ (fun K hK => hm K (List.mem_cons_of_mem _ hK))]
      have hM := hm M List.mem_cons_self
      have hb : (laneBit M).getLsbD L = decide (M = L) := by
        simp only [laneBit, BitVec.getLsbD_ofNat, h, decide_true, Bool.true_and, Nat.testBit_two_pow]
      by_cases hf : f M = true
      · simp only [hf, if_true, BitVec.getLsbD_or, hb, List.mem_cons]
        by_cases hML : M = L
        · subst hML; simp [hf]
        · have : ¬ L = M := fun h => hML h.symm
          simp [hML, this]
      · by_cases hML : L = M
        · subst hML; simp [hf]
        · simp [hf, hML]
  unfold maskOf
  rw [key allLanes 0 (by simp [allLanes])]
  simp [allLanes, h]

/-- The predicate D written. -/
theorem writeP_spec (x : Ext) (e : LaneMask) (f : Nat → Bool) (g : Group) :
    writeP x e f g = { g with pred := (writeP x e f g).pred } ∧ PredicateWritten g (writeP x e f g) e (x.d.toNat % 16) f := by
  have h1 : ∀ p bits, g.pset p e bits = { g with pred := (g.pset p e bits).pred } := by
    intro p bits; unfold Group.pset; split <;> rfl
  unfold writeP
  refine ⟨h1 .., ?_, ?_, ?_⟩
  · rw [h1]
  · rw [h1]
  · intro q L hL
    rw [pget_pset]
    by_cases hq : q = x.d.toNat % 16 ∧ x.d.toNat % 16 ≠ 15
    · rw [if_pos hq]
      obtain ⟨rfl, h15⟩ := hq
      simp only [BitVec.getLsbD_or, BitVec.getLsbD_and, BitVec.getLsbD_not, hL, decide_true, Bool.true_and,
        getLsbD_maskOf f hL, true_and, ne_eq, h15, not_false_eq_true]
      cases e.getLsbD L <;> cases g.present.getLsbD L <;> simp
    · rw [if_neg hq, if_neg]
      rintro ⟨rfl, h, -⟩
      exact hq ⟨rfl, h⟩

/-- Flags of a register instruction: nothing but the flags changes (R112). -/
theorem raise_spec (g : Group) (uni : Bool) (now : Nat) (fl : FlagBits) :
    g.raise uni now fl = { g with flags := (g.raise uni now fl).flags, inflight := (g.raise uni now fl).inflight } ∧
      FlagsRaised g (g.raise uni now fl) uni now fl := by
  unfold Group.raise FlagsRaised
  by_cases h : fl = 0
  · subst h; cases uni <;> simp
  · simp only [if_neg h]; cases uni <;> simp

/-! ## Register instructions -/

/-- Registers written, then flags raised: what is left is the conjunction of both. -/
theorem written_raised {g h k : Group} {uni : Bool} {now : Nat} {fl : FlagBits}
    (h1 : h = { g with vec := h.vec, uni := h.uni, pred := h.pred })
    (h2 : k = { h with flags := k.flags, inflight := k.inflight } ∧ FlagsRaised h k uni now fl) :
    RegistersOnly g k ∧ k.splits = g.splits ∧ FlagsRaised g k uni now fl ∧ k.vec = h.vec ∧ k.uni = h.uni ∧
      k.pred = h.pred ∧ k.present = h.present := by
  obtain ⟨h2, h3⟩ := h2
  have hs : k.splits = g.splits := by rw [h2, h1]
  have hv : k.vec = h.vec := by rw [h2]
  have hu : k.uni = h.uni := by rw [h2]
  have hp : k.pred = h.pred := by rw [h2]
  have hf : h.flags = g.flags := by rw [h1]
  have hi : h.inflight = g.inflight := by rw [h1]
  refine ⟨?_, hs, ?_, hv, hu, hp, by rw [h2]⟩
  · unfold RegistersOnly
    rw [hv, hu, hp, hs]
    exact h2.trans (congrArg (fun z : Group => { z with flags := k.flags, inflight := k.inflight }) h1)
  · unfold FlagsRaised at *
    rwa [hf, hi] at h3

theorem dWritten_congr {g h k : Group} {x : Ext} {e : LaneMask} {wide : Bool} {val : Nat → DWord}
    (hv : k.vec = h.vec) (hu : k.uni = h.uni) (hp : k.pred = h.pred) (hq : k.present = h.present)
    (hd : DWritten g h x e wide val) : DWritten g k x e wide val := by
  unfold DWritten UniformWritten VectorWritten Group.vget Group.uget at *
  rwa [hv, hu, hp, hq]

theorem predicateWritten_congr {g h k : Group} {e : LaneMask} {d : Nat} {val : Nat → Bool}
    (hv : k.vec = h.vec) (hu : k.uni = h.uni) (hp : k.pred = h.pred) (hd : PredicateWritten g h e d val) :
    PredicateWritten g k e d val := by
  unfold PredicateWritten Group.pget at *
  rwa [hv, hu, hp]

/-- An extended instruction with a result of D's class completes (R54, R66, R72). -/
theorem aluExt_completes {s : State} {g : Group} {p : Split} {i : Instr} (x : Ext) (wide : Bool)
    (f : Group → Nat → DWord × FlagBits) (h : Executes s g p i) :
    ∃ t, aluExt i x wide f s = .next t ∧ AluEffect s t g p i x wide (f g) := by
  refine ⟨_, runInstr_executes _ _ h, ?_⟩
  obtain ⟨hw1, hw2⟩ := writeD_spec x wide (guardLanes g p x.guard) (fun L => (f g L).1) g
  have hw3 : writeD x wide (guardLanes g p x.guard) (fun L => (f g L).1) g =
      { g with vec := (writeD x wide (guardLanes g p x.guard) (fun L => (f g L).1) g).vec,
               uni := (writeD x wide (guardLanes g p x.guard) (fun L => (f g L).1) g).uni,
               pred := (writeD x wide (guardLanes g p x.guard) (fun L => (f g L).1) g).pred } := by
    rw [hw2.1]; exact hw1
  obtain ⟨h1, h2, h3, hv, hu, hp, hq⟩ := written_raised hw3 (raise_spec _ x.dU s.now
    (resultFlags (issueOf s g p i x.guard) x.dU (fun L => (f g L).2)))
  exact registerEffect_of h.1 h1 h2 (fun _ hx => hx) ⟨dWritten_congr hv hu hp hq hw2, h3⟩

/-- An extended instruction that writes the predicate D completes. -/
theorem predExt_completes {s : State} {g : Group} {p : Split} {i : Instr} (x : Ext) (f : Group → Nat → Bool × FlagBits)
    (h : Executes s g p i) :
    ∃ t, predExt i x f s = .next t ∧
      RegisterEffect s t g p i (fun h =>
        PredicateWritten g h (guardLanes g p x.guard) (x.d.toNat % 16) (fun L => (f g L).1) ∧
        FlagsRaised g h false s.now (resultFlags (issueOf s g p i x.guard) false (fun L => (f g L).2))) := by
  refine ⟨_, runInstr_executes _ _ h, ?_⟩
  obtain ⟨hw1, hw2⟩ := writeP_spec x (guardLanes g p x.guard) (fun L => (f g L).1) g
  have hw3 : writeP x (guardLanes g p x.guard) (fun L => (f g L).1) g =
      { g with vec := (writeP x (guardLanes g p x.guard) (fun L => (f g L).1) g).vec,
               uni := (writeP x (guardLanes g p x.guard) (fun L => (f g L).1) g).uni,
               pred := (writeP x (guardLanes g p x.guard) (fun L => (f g L).1) g).pred } := by
    rw [hw2.1, hw2.2.1]; exact hw1
  obtain ⟨h1, h2, h3, hv, hu, hp, -⟩ := written_raised hw3 (raise_spec _ false s.now
    (resultFlags (issueOf s g p i x.guard) false (fun L => (f g L).2)))
  exact registerEffect_of h.1 h1 h2 (fun _ hx => hx) ⟨predicateWritten_congr hv hu hp hw2, h3⟩

theorem vecOnly_registers {g h : Group} (h1 : h = { g with vec := h.vec }) : RegistersOnly g h := by
  unfold RegistersOnly
  have hu : h.uni = g.uni := by rw [h1]
  have hp : h.pred = g.pred := by rw [h1]
  have hf : h.flags = g.flags := by rw [h1]
  have hi : h.inflight = g.inflight := by rw [h1]
  have hs : h.splits = g.splits := by rw [h1]
  rw [hu, hp, hf, hi, hs]; exact h1

/-- A short instruction completes. -/
theorem aluShort_completes {s : State} {g : Group} {p : Split} {i : Instr} (gd : Guard) (d : BitVec 8) (wide : Bool)
    (f : Group → Nat → DWord) (h : Executes s g p i) :
    ∃ t, aluShort i gd d wide f s = .next t ∧
      RegisterEffect s t g p i (fun h =>
        h.pred = g.pred ∧ h.uni = g.uni ∧ FlagsSame g h ∧
          VectorWritten g h (guardLanes g p gd) wide d.toNat (f g)) := by
  refine ⟨_, runInstr_executes _ _ h, ?_⟩
  obtain ⟨h1, h2⟩ := vsetLanes_spec g wide d.toNat (guardLanes g p gd) (f g)
  exact registerEffect_of (f := fun g' => g'.vsetLanes wide d.toNat (guardLanes g p gd) (f g)) h.1 (vecOnly_registers h1)
    (by rw [h1]) (fun _ hx => hx) ⟨by rw [h1], by rw [h1], ⟨by rw [h1], by rw [h1]⟩, h2⟩

/-- From the skeleton that an instruction calls to what it leaves. -/
theorem shortCompletes_of {i : Instr} (gd : Guard) (d : BitVec 8) (wide : Bool) {f f' : Group → Nat → DWord}
    (hd : ∀ s, exec i s = aluShort i gd d wide f s) (hf : ∀ g L, f g L = f' g L) :
    ShortCompletes i gd d.toNat wide f' := by
  obtain rfl : f = f' := funext fun g => funext fun L => hf g L
  intro s g p h
  rw [hd]
  exact aluShort_completes gd d wide f h

theorem aluCompletes_of {mk : Ext → Instr} {wide : Ext → Bool} {f f' : Ext → State → Group → Nat → DWord × FlagBits}
    (hd : ∀ x s, exec (mk x) s = aluExt (mk x) x (wide x) (f x s) s) (hf : ∀ x s g L, f x s g L = f' x s g L) :
    AluCompletes mk wide f' := by
  intro x s g p h
  rw [hd, ← show f x s g = f' x s g from funext fun L => hf x s g L]
  exact aluExt_completes x _ (f x s) h

theorem predicateCompletes_of {mk : Ext → Instr} {f f' : Ext → Group → Nat → Bool × FlagBits}
    (hd : ∀ x s, exec (mk x) s = predExt (mk x) x (f x) s) (hf : ∀ x g L, f x g L = f' x g L) :
    PredicateCompletes mk f' := by
  obtain rfl : f = f' := funext fun x => funext fun g => funext fun L => hf x g L
  intro x s g p h
  rw [hd]
  exact predExt_completes x (f x) h

/-! ## Splits -/

/-- An update of the executing split alone. -/
theorem splitBecomes_of {s : State} {g : Group} {p : Split} (h : s.issuer? = some (g, p)) (f : Split → Split) :
    SplitBecomes s (s.modSplit s.curG s.curS f) g p f := by
  obtain ⟨hg, -, hi⟩ := issuer?_eq h
  refine ⟨onlyGroup_modGroup .., ?_⟩
  rw [State.modSplit, group?_modGroup_same _ hg, hi]
  rfl

/-- An instruction that only goes on. -/
theorem passesBy_of {s : State} {g : Group} {p : Split} {i : Instr} {gd : Guard} (h : s.issuer? = some (g, p)) :
    PassesBy s (advance (issueOf s g p i gd) s) g p i := splitBecomes_of h _

/-! ## Bits -/

/-- A value built bit by bit. -/
theorem getLsbD_buildBits (f : Nat → Bool) (i : Nat) :
    ∀ n, n ≤ 64 → (buildBits f n).getLsbD i = (decide (i < n) && f i)
  | 0, _ => by simp [buildBits]
  | n + 1, hn => by
    have ih := getLsbD_buildBits f i n (by omega)
    have hone : (BitVec.ofNat 64 (2 ^ n)).getLsbD i = decide (i = n) := by
      rw [BitVec.getLsbD_ofNat, Nat.testBit_two_pow]
      by_cases h : i = n
      · subst h; simp; omega
      · have : ¬ n = i := fun e => h e.symm
        simp [h, this]
    unfold buildBits at ih ⊢
    rw [List.range_succ, List.foldl_append, List.foldl_cons, List.foldl_nil]
    have hlt : decide (i < n + 1) = (decide (i < n) || decide (i = n)) := by
      rw [Bool.eq_iff_iff]; simp; omega
    rw [hlt]
    by_cases hf : f n = true
    · rw [if_pos hf, BitVec.getLsbD_or, ih, hone]
      by_cases h : i = n
      · subst h; simp [hf]
      · simp [h]
    · rw [if_neg hf, ih]
      by_cases h : i = n
      · subst h; simp at hf; simp [hf]
      · simp [h]

end Sys2Proof.Machine
end

