-- ==== Sys2Proof/Laws/Memory.lean ====
section
/-! SUPPORT. What a read of memory gives after each memory operation, and that each of them keeps the canonical form. -/

namespace Sys2Proof.Machine

open Sys2Proof

/-! ## Folds -/

/-- A property that each element's update keeps is kept by the fold. -/
theorem foldl_keeps {α β : Type} (P : β → Prop) (f : β → α → β) (hf : ∀ b a, P b → P (f b a)) :
    ∀ (l : List α) (b : β), P b → P (l.foldl f b) := by
  intro l
  induction l with
  | nil => intro b h; exact h
  | cons a l ih => intro b h; exact ih _ (hf b a h)

/-! ## The canonical form -/

theorem inv_reset : State.reset.Inv := rfl

/-- States with the same memory are sound together. -/
theorem inv_of_mem {s t : State} (h : t.mem = s.mem) (hs : s.Inv) : t.Inv := by unfold State.Inv at *; rwa [h]

theorem inv_filter {s t : State} (p : Nat × Byte → Bool) (h : t.mem = s.mem.filter p) (hs : s.Inv) : t.Inv := by
  unfold State.Inv Memory.wf at *; rw [h]; exact Tab.wf_filter 0 p hs

theorem inv_memPut {s : State} (pa : Nat) (b : Byte) (hs : s.Inv) : (s.memPut pa b).Inv := Tab.wf_put 0 pa b hs

theorem inv_memPutBytes : ∀ (bs : List Byte) {s : State} (pa : Nat), s.Inv → (s.memPutBytes pa bs).Inv
  | [], _, _, h => h
  | b :: bs, _, pa, h => inv_memPutBytes bs (pa + 1) (inv_memPut pa b h)

@[simp] theorem modGroup_mem (s : State) (gi : Nat) (f : Group → Group) : (s.modGroup gi f).mem = s.mem := rfl
@[simp] theorem modSplit_mem (s : State) (gi si : Nat) (f : Split → Split) : (s.modSplit gi si f).mem = s.mem := rfl
@[simp] theorem modCtx_mem (s : State) (c : Nat) (f : Ctx → Ctx) : (s.modCtx c f).mem = s.mem := rfl
@[simp] theorem setGranule_mem (s : State) (g : Granule) : (s.setGranule g).mem = s.mem := rfl

@[simp] theorem spadPut_mem (s : State) (bi off : Nat) (v : Byte) : (s.spadPut bi off v).mem = s.mem := rfl
@[simp] theorem linePut_mem (s : State) (bi n : Nat) (v : Byte) : (s.linePut bi n v).mem = s.mem := rfl

@[simp] theorem winPutAt_mem (s : State) (w : WinPlace) (v : Byte) : (winPutAt s w v).mem = s.mem := by
  cases w <;> rfl

@[simp] theorem winPut_mem (s : State) (cn pa : Nat) (v : Byte) : (winPut s cn pa v).mem = s.mem := winPutAt_mem ..

theorem inv_spacePut {s : State} (cn bi : Nat) (sp : Space) (a : Nat) (v : Byte) (hs : s.Inv) : (spacePut s cn bi sp a v).Inv := by
  cases sp
  · exact inv_memPut a v hs
  · exact inv_of_mem rfl hs
  · exact inv_of_mem (winPut_mem s cn a v) hs
  · exact inv_of_mem rfl hs

theorem inv_spaceWrite {s : State} (cn bi : Nat) (sp : Space) (a n v : Nat) (hs : s.Inv) : (spaceWrite s cn bi sp a n v).Inv :=
  foldl_keeps State.Inv _ (fun _ x h => inv_spacePut cn bi sp (a + x.2) x.1 h) _ s hs

/-! ## The classifier and the lines -/

theorem recordCopies_mem (line : Nat) (s : State) : (recordCopies line s).mem = s.mem := rfl

theorem homeTouch_mem (line : Nat) (w : Bool) (s : State) : (homeTouch line w s).mem = s.mem := by
  unfold homeTouch; split
  · rfl
  · split <;> rfl

theorem dropOthers_mem (die core n : Nat) (s : State) : (dropOthers die core n s).mem = s.mem := by
  unfold dropOthers
  dsimp only
  exact foldl_keeps (fun t : State => t.mem = s.mem) _ (fun t l h => (recordCopies_mem ..).trans h) _ _ rfl

theorem claim_mem (who : Waiter) (a : Agent) (pa : Nat) (w : Bool) (s : State) : (claim who a pa w s).mem = s.mem := by
  unfold claim
  dsimp only
  split
  · exact dropOthers_mem ..
  · rfl

theorem drainLines_mem (die core n : Nat) (c : Option LineClass) (s : State) : (drainLines die core n c s).mem = s.mem := by
  unfold drainLines
  dsimp only
  refine foldl_keeps (fun t : State => t.mem = s.mem) _ (fun t l h => ?_) _ _ rfl
  rw [recordCopies_mem]; exact h

theorem drainHolders_mem (n : Nat) (c : GranClass) (as : List Agent) (s : State) : (drainHolders n c as s).mem = s.mem :=
  foldl_keeps (fun t : State => t.mem = s.mem) _ (fun t a h => by
    split
    · exact (drainLines_mem ..).trans h
    · exact h) _ _ rfl

theorem drainNow_mem {s u : State} {who : Waiter} {n : Nat} {c : GranClass} (h : drainNow s who n c = some u) : u.mem = s.mem := by
  simp only [drainNow, Option.ite_none_right_eq_some] at h
  cases h.2
  exact drainHolders_mem ..

theorem claimAs_mem {s u : State} {who : Waiter} {a : Agent} {pa : Nat} {w : Bool} (h : claimAs s who a pa w = some u) :
    u.mem = s.mem := by
  unfold claimAs at h
  dsimp only at h
  split at h
  · cases h; rw [homeTouch_mem, claim_mem]
  · split at h
    · cases h
    · obtain ⟨t, ht, rfl⟩ := Option.map_eq_some_iff.mp h
      rw [homeTouch_mem, claim_mem, drainNow_mem ht]

theorem claimNow_mem {s u : State} {a : Agent} {pa : Nat} {w : Bool} (h : claimNow s a pa w = some u) : u.mem = s.mem :=
  claimAs_mem h

theorem learnClass_mem (die core n : Nat) (c : Option LineClass) (s : State) : (learnClass die core n c s).mem = s.mem := rfl

theorem setL1_mem (s : State) (die core line : Nat) (st : Option L1State) (k : Option (Nat × Nat)) :
    (s.setL1 die core line st k).mem = s.mem := by
  unfold State.setL1; cases st <;> rfl

theorem makeRoom_mem (die core line : Nat) (s : State) : (makeRoom die core line s).mem = s.mem := by
  unfold makeRoom
  dsimp only
  exact foldl_keeps (fun t : State => t.mem = s.mem) _ (fun t v h => by rw [recordCopies_mem]; exact h) _ _ rfl

theorem bringLine_mem (die core line : Nat) (w priv : Bool) (s : State) : (bringLine die core line w priv s).mem = s.mem := by
  unfold bringLine
  split
  · split
    · exact setL1_mem ..
    · rfl
  · dsimp only
    split
    · rw [setL1_mem, makeRoom_mem]
    · split
      · rw [recordCopies_mem, setL1_mem]; exact makeRoom_mem ..
      · rw [recordCopies_mem, setL1_mem]; exact makeRoom_mem ..

theorem keepClean_mem (line : Nat) (s : State) : (keepClean line s).mem = s.mem := by unfold keepClean; split <;> rfl

theorem lineAccess_mem (a : Access) (l : LaneAcc) (g : Group) (s : State) : (lineAccess a l g s).mem = s.mem := by
  unfold lineAccess
  dsimp only
  rw [learnClass_mem, bringLine_mem]
  split
  · rw [keepClean_mem, claim_mem]
  · exact claim_mem ..

/-! ## Lane accesses -/

theorem wakeEvents_mem (pa n : Nat) (s : State) : (wakeEvents pa n s).mem = s.mem :=
  foldl_keeps (fun t : State => t.mem = s.mem) _ (fun t w h => by split; split <;> simp_all) _ s rfl

theorem inv_wakeIf (c : Prop) [Decidable c] (pa n : Nat) {s : State} (hs : s.Inv) : (if c then wakeEvents pa n s else s).Inv := by
  split
  · exact inv_of_mem (wakeEvents_mem ..) hs
  · exact hs

theorem inv_lineAccess (c : Prop) [Decidable c] (a : Access) (l : LaneAcc) (g : Group) {s : State} (hs : s.Inv) :
    (if c then lineAccess a l g s else s).Inv := by
  split
  · exact inv_of_mem (lineAccess_mem ..) hs
  · exact hs

/-- The performance of one lane keeps the canonical form, whatever its kind. -/
theorem inv_performLane (a : Access) (l : LaneAcc) {s : State} (hs : s.Inv) : (performLane a l s).Inv := by
  unfold performLane
  split
  · exact hs
  · rename_i g _
    have hu := inv_lineAccess (l.space = .hbm) a l g hs
    generalize (if l.space = .hbm then lineAccess a l g s else s) = u at hu
    dsimp only
    split
    · exact inv_of_mem rfl hu
    · exact inv_of_mem rfl hu
    · exact inv_of_mem rfl hu
    · exact inv_of_mem rfl hu
    · exact inv_wakeIf _ _ _ (inv_spaceWrite _ _ _ _ _ _ hu)
    · exact inv_of_mem rfl (inv_spaceWrite _ _ _ _ _ _ hu)
    · exact inv_wakeIf _ _ _ (inv_of_mem rfl (inv_spaceWrite _ _ _ _ _ _ hu))
    · exact inv_wakeIf _ _ _ (inv_of_mem rfl (inv_spaceWrite _ _ _ _ _ _ hu))
    · exact inv_of_mem rfl hu
    · exact inv_of_mem rfl hu
    · exact inv_of_mem rfl hu
    · exact inv_wakeIf _ _ _ (inv_spaceWrite _ _ _ _ _ _ hu)
    · split
      · exact hu
      · exact inv_of_mem rfl hu

theorem endLane_mem (id L : Nat) (s : State) : (endLane id L s).mem = s.mem := by
  unfold endLane
  dsimp only
  split
  · rfl
  · split <;> rfl

theorem sweep_mem (gi : Nat) (s : State) : (sweep gi s).mem = s.mem := rfl

theorem inv_finishLds (a : Access) (l : LaneAcc) {s : State} (hs : s.Inv) : (finishLds a l s).Inv := by
  have h := inv_of_mem (endLane_mem a.id l.lane (performLane a l s)) (inv_performLane a l hs)
  unfold finishLds
  dsimp only
  split
  · split
    · exact inv_of_mem (sweep_mem ..) (inv_of_mem rfl h)
    · exact h
  · exact h

theorem inv_wakeIfFilled (before : State) (bi line : Nat) {s : State} (hs : s.Inv) : (wakeIfFilled before bi line s).Inv := by
  unfold wakeIfFilled
  split
  · exact inv_of_mem (s := (emptyWaiters s bi line).foldl (fun s w => finishLds w.1 w.2 s) s) rfl
      (foldl_keeps State.Inv _ (fun _ w h => inv_finishLds w.1 w.2 h) _ _ hs)
  · exact hs

theorem inv_wakeWindow (before : State) (cn pa n : Nat) {s : State} (hs : s.Inv) : (wakeWindow before cn pa n s).Inv :=
  foldl_keeps State.Inv _ (fun _ _ h => by
    split
    · exact inv_wakeIfFilled _ _ _ h
    · exact h) _ _ hs

/-- A lane access that takes its place keeps the canonical form. -/
theorem inv_takePlace (a : Access) (l : LaneAcc) {s : State} (hs : s.Inv) : (takePlace a l s).Inv := by
  have h := inv_of_mem (endLane_mem a.id l.lane (performLane a l s)) (inv_performLane a l hs)
  unfold takePlace
  dsimp only
  split
  · split
    · exact inv_finishLds a l hs
    · exact inv_of_mem rfl hs
  · exact inv_of_mem (sweep_mem ..) (inv_of_mem rfl h)
  · exact inv_of_mem (sweep_mem ..) (inv_of_mem rfl h)
  · refine inv_of_mem (sweep_mem ..) ?_
    split
    · exact inv_wakeIfFilled _ _ _ h
    · exact inv_wakeWindow _ _ _ _ h
    · exact h

/-! ## Firmware, the host and the scrubs -/

/-- A run of bytes that an agent stores keeps the canonical form. -/
theorem inv_putLine {a : Agent} {cn : Nat} {sp : Space} {pa : Nat} {bs : List Byte} {s u : State}
    (h : putLine a cn sp pa bs s = some u) (hs : s.Inv) : u.Inv := by
  have hput : ((bs.zipIdx).foldl (fun s b => spacePut s cn 0 sp (pa + b.2) b.1) s).Inv :=
    foldl_keeps State.Inv _ (fun _ b h => inv_spacePut cn 0 sp (pa + b.2) b.1 h) _ _ hs
  unfold putLine at h
  dsimp only at h
  split at h
  · cases h
  · split at h
    · split at h
      · cases h
      · obtain ⟨t, ht, rfl⟩ := Option.map_eq_some_iff.mp h
        exact inv_of_mem (wakeEvents_mem ..) (inv_memPutBytes bs pa (inv_of_mem (claimNow_mem ht) hs))
    · split at h
      · cases h
      · cases h; exact inv_wakeWindow _ _ _ _ hput
    · cases h; exact hput

theorem inv_fwPut {a : Agent} {cn va : Nat} {bs : List Byte} {s u : State} (h : fwPut a cn va bs s = some u) (hs : s.Inv) :
    u.Inv := by
  unfold fwPut at h
  split at h
  · cases h; exact hs
  · exact inv_putLine h hs

theorem getLine_mem {a : Agent} {cn : Nat} {sp : Space} {pa n : Nat} {s u : State} (h : getLine a cn sp pa n s = some u) :
    u.mem = s.mem := by
  unfold getLine at h
  split at h
  · cases h
  · split at h
    · exact claimNow_mem h
    · cases h; rfl

theorem fwGet_mem {cn va n : Nat} {s u : State} (h : fwGet cn va n s = some u) : u.mem = s.mem := by
  unfold fwGet at h
  split at h
  · cases h; rfl
  · exact getLine_mem h

@[simp] theorem raiseVector_mem (s : State) (v : Nat) : (s.raiseVector v).mem = s.mem := by
  unfold State.raiseVector; split <;> rfl

/-- Firmware's outstanding accesses keep the canonical form as they are performed. -/
theorem inv_flushFwN : ∀ (n : Nat) {s : State}, s.Inv → (flushFwN n s).Inv
  | 0, _, h => h
  | n + 1, s, h => by
    unfold flushFwN
    split
    · exact h
    · dsimp only
      split
      · exact inv_flushFwN n (inv_of_mem (raiseVector_mem ..) h)
      · exact inv_flushFwN n (inv_of_mem (raiseVector_mem ..) h)
      · split
        · rename_i t hp
          have ht : t.Inv := inv_fwPut hp h
          exact inv_flushFwN n (inv_of_mem (s := t) rfl ht)
        · exact h
      · split
        · rename_i t hp
          have ht : t.mem = s.mem := fwGet_mem hp
          exact inv_flushFwN n (inv_of_mem ht h)
        · exact h
      · split
        · rename_i t hp
          have ht : t.Inv := inv_fwPut hp h
          exact inv_flushFwN n (inv_of_mem (s := t) rfl ht)
        · exact h

theorem inv_flushFw {s : State} (hs : s.Inv) : (flushFw s).Inv := by
  unfold flushFw
  split
  · exact hs
  · exact inv_flushFwN _ hs

theorem inv_fwStore (cn va : Nat) (bs : List Byte) {s : State} (hs : s.Inv) : (fwStore cn va bs s).Inv := inv_of_mem rfl hs

theorem hostPlace_mem {s u : State} {pa n : Nat} {w : Bool} (h : hostPlace s pa n w = some u) : u.mem = s.mem := by
  unfold hostPlace at h
  split at h
  · cases h
  · split at h
    · cases h
    · exact claimNow_mem h

theorem inv_hostStore {pa : Nat} {bs : List Byte} {s u : State} (h : hostStore pa bs s = some u) (hs : s.Inv) : u.Inv := by
  obtain ⟨t, ht, rfl⟩ := Option.map_eq_some_iff.mp h
  exact inv_of_mem (wakeEvents_mem ..) (inv_memPutBytes bs pa (inv_of_mem (hostPlace_mem ht) hs))

theorem inv_zeroFrames (c : Ctx) (base n : Nat) {s : State} (hs : s.Inv) : (zeroFrames c base n s).Inv :=
  inv_filter _ rfl hs

theorem inv_wipeDies (dies : List Nat) {s : State} (hs : s.Inv) : (wipeDies dies s).Inv := inv_filter _ rfl hs

/-! ## Traps -/

theorem inv_appendRecord (cn : Nat) (r : TrapRec) {s : State} (hs : s.Inv) : (appendRecord cn r s).Inv := inv_of_mem rfl hs

theorem inv_takeTrap (gi si : Nat) (c : Cause) (aux : DWord) (mask pend : LaneMask) {s : State} (hs : s.Inv) :
    (takeTrap gi si c aux mask pend s).Inv := by
  unfold takeTrap
  split
  · exact hs
  · split
    · exact inv_of_mem rfl hs
    · split
      · exact hs
      · exact inv_appendRecord _ _ (inv_of_mem rfl hs)

/-! ## Reads after writes -/

@[simp] theorem memGet_memPut (s : State) (pa a : Nat) (b : Byte) :
    (s.memPut pa b).memGet a = if a = pa then b else s.memGet a := Tab.get_put ..

/-- A byte after consecutive bytes are written. -/
theorem memGet_memPutBytes : ∀ (bs : List Byte) (s : State) (pa a : Nat),
    (s.memPutBytes pa bs).memGet a = if pa ≤ a ∧ a < pa + bs.length then bs.getD (a - pa) 0 else s.memGet a
  | [], s, pa, a => by
    rw [if_neg (by simp only [List.length_nil]; omega)]; rfl
  | b :: bs, s, pa, a => by
    unfold State.memPutBytes
    rw [memGet_memPutBytes bs (s.memPut pa b) (pa + 1) a, memGet_memPut, List.length_cons]
    by_cases h1 : pa + 1 ≤ a ∧ a < pa + 1 + bs.length
    · rw [if_pos h1, if_pos ⟨by omega, by omega⟩, show a - pa = (a - (pa + 1)) + 1 by omega, List.getD_cons_succ]
    · by_cases h2 : a = pa
      · subst h2
        rw [if_neg h1, if_pos rfl, if_pos ⟨by omega, by omega⟩, Nat.sub_self, List.getD_cons_zero]
      · rw [if_neg h1, if_neg h2, if_neg (by omega)]

end Sys2Proof.Machine
end

