-- ==== Sys2Proof/Laws/Firmware.lean ====
section
/-! SUPPORT. What firmware's operations leave: an access that it takes in hand waits in the state, and the end of a command
is two of them. -/

namespace Sys2Proof.Machine

open Sys2Proof

@[simp] theorem post_fwOut (s : State) (a : FwAccess) : (s.post a).fwOut = s.fwOut ++ [a] := rfl

/-- A store of firmware changes nothing but what firmware has still to do. -/
theorem fwStore_only (cn va : Nat) (bs : List Byte) (s : State) :
    fwStore cn va bs s = { s with fwOut := s.fwOut ++ [.store .firmware cn va bs] } := rfl

/-- What the end of a command leaves in firmware's hands: its record, then its vector. -/
def completionOut (c : Cmd) (status : Nat) (value : DWord) : List FwAccess :=
  [.store .firmware c.ctx c.compl.toNat (bytesLE 4 c.seq.toNat ++ bytesLE 4 status ++ bytesLE 8 value.toNat),
   .completion { fn := c.fn, seq := c.seq, status := status, value := value }]

/-- The end of a command changes what firmware has still to do, and takes the command from the head of its ring. -/
theorem complete_only (c : Cmd) (status : Nat) (value : DWord) (s : State) :
    complete c status value s =
      { s with fwOut := s.fwOut ++ completionOut c status value, taken := (complete c status value s).taken } := by
  unfold complete
  dsimp only
  split <;> simp [fwStore, State.post, completionOut]

/-- A command of no ring's head leaves every ring as it is. -/
theorem complete_taken (c : Cmd) (status : Nat) (value : DWord) (s : State)
    (h : ((s.taken.get [] c.fn).head?.bind ringCmd) ≠ some c) : (complete c status value s).taken = s.taken := by
  unfold complete
  dsimp only
  split
  · rename_i he; exact absurd he h
  · rfl

/-- Reads of firmware change no byte of memory. -/
theorem claimReads_mem : ∀ (ps : List (Nat × Space × Nat × Nat)) {s u : State}, claimReads ps s = some u → u.mem = s.mem
  | [], _, _, h => by cases h; rfl
  | (cn, sp, pa, n) :: rest, s, u, h => by
    obtain ⟨t, ht, hu⟩ := Option.bind_eq_some_iff.mp (show (getLine .firmware cn sp pa n s).bind (claimReads rest) = some u from h)
    rw [claimReads_mem rest hu, getLine_mem ht]

theorem fwTouch_mem {rs : List FwRun} {s t : State} (h : fwTouch rs s = some t) : t.mem = s.mem := by
  unfold fwTouch at h
  split at h
  · cases h
  · exact claimReads_mem _ h

/-- Firmware's work that begins with reads does its body in the state after them. -/
theorem fwRead_some {rs : List FwRun} {body : State → State} {s t : State} (h : fwTouch rs s = some t) :
    fwRead rs body s = body t := by
  unfold fwRead; rw [h]

/-- Where a read waits at a home, the reads join what firmware has still to do, and the work waits behind them. -/
theorem fwRead_none {rs : List FwRun} {body : State → State} {s : State} (h : fwTouch rs s = none) (hs : s.fwOut = []) :
    fwRead rs body s = rs.foldl (fun s r => s.post (.load r.1 r.2.1 r.2.2)) s := by
  unfold fwRead; rw [h, if_pos hs]

/-- A command that is no one's turn yet waits while firmware has accesses to perform (R249). -/
theorem commandTurn_waits (fn : Nat) (s : State) (h : s.fwOut ≠ []) : commandTurn fn s = .next s := by
  unfold commandTurn
  rw [if_pos (by simpa using h)]

end Sys2Proof.Machine
end

