-- ==== Sys2Proof/Tests/Slice0.lean ====
section
/-! SUPPORT. Tests: what the checks refuse, words that the spec prints, single steps, and a state that meets the hypotheses of
each statement. Expected values come from the words and tables of spec/, named at each test. -/

namespace Sys2Proof.Tests

-- One theorem at a time, so that the memory this file asks for stays bounded.
set_option Elab.async false

open Sys2Proof Sys2Proof.Machine Sys2Proof.Num

/-! ## Terms -/

def pT : Guard := ⟨false, 15⟩
def never : Guard := ⟨true, 15⟩

/-- All operand fields 0 and vector, TY 0. -/
def e0 : Ext :=
  { guard := pT, d := 0, a := 0, b := 0, c := 0, dU := false, aU := false, bU := false, cU := false, ty := .s32, rm := .rne,
    sat := false, var := 0, moda := .none, lit := none }

/-- D, A, B and C in the vector file, with a type. -/
def abc (d a b c : BitVec 10) (ty : Ty) : Ext := { e0 with d := d, a := a, b := b, c := c, ty := ty }

/-! ## Ill-formed terms (R70 to R80): one for each check -/

theorem test_wf_guard : (Instr.nop never).wf = false ∧ (Instr.iadd { e0 with guard := never }).wf = false := by decide
theorem test_wf_type : (Instr.iadd { e0 with ty := .f32 }).wf = false ∧ (Instr.iadd e0).wf = true := by decide
theorem test_wf_rounding : (Instr.iadd { e0 with rm := .rtz }).wf = false := by decide
theorem test_wf_saturation : (Instr.and { e0 with ty := .u32, sat := true }).wf = false := by decide
theorem test_wf_var : (Instr.iadd { e0 with var := 1 }).wf = false := by decide
theorem test_wf_moda : (Instr.fclass { e0 with ty := .f32, moda := .rot .two 1 }).wf = false := by decide
theorem test_wf_unused_operand : (Instr.mscan { e0 with ty := .f32, c := 1 }).wf = false := by decide
theorem test_wf_even_pair : (Instr.iadd { e0 with ty := .s64, d := 1 }).wf = false := by decide
theorem test_wf_literal : (Instr.iadd { e0 with b := 0, bU := true, lit := some 5 }).wf = false ∧
    (Instr.iadd { e0 with b := 0x3FF, bU := true, lit := some 5 }).wf = true := by decide
theorem test_wf_uniform_result : (Instr.iadd { e0 with dU := true }).wf = false := by decide
theorem test_wf_short_literal : (Instr.moviLiteral pT 5 0x1_0000_0000).wf = false ∧
    (Instr.moviLiteral pT 4 0x1_0000_0000).wf = true := by decide
theorem test_wf_unimp : (Instr.unimp 0).wf = false ∧ (Instr.unimp 0xE0).wf = true := by decide

/-! ## Words printed in spec/16 to spec/19 and the examples -/

/-- Instruction reference, majors 1 to 7. -/
theorem test_decode_short :
    decode [0x0040_2F04#32] = .ok (.abs pT 1 2, 1) ∧ decode [0x6040_2F04#32] = .ok (.fabs pT 1 2, 1) ∧
    decode [0x8040_2F04#32] = .ok (.fneg pT 1 2, 1) ∧ decode [0xFFE1_1308#32] = .ok (.iaddi ⟨true, 3⟩ 8 (-1), 1) ∧
    decode [0x0C80_AF0C#32] = .ok (.movi pT 5 100, 1) ∧ decode [0x0000_CF10#32] = .ok (.bra pT 6, 1) ∧
    decode [0x0001_4F14#32] = .ok (.call pT 10, 1) ∧ decode [0x1E1F_EF18#32] = .ok (.waitc pT 15 0 15 15, 1) ∧
    decode [0x0060_0F1C#32] = .ok (.bkpt pT 3, 1) ∧ decode [0x8000_0F1C#32] = .ok (.ret pT, 1) := by decide

/-- Majors 9 to 12. -/
theorem test_decode_integer :
    decode [0x0000_2F25#32, 0x0040_0C02, 0x0000_6000] = .ok (.idot4 (abc 1 2 3 4 .s8x4), 3) ∧
    decode [0x0080_2F29#32, 0x0040_0C02, 0x0B00_1000] = .ok (.lop3 { abc 1 2 3 4 .u32 with var := 0x16 }, 3) ∧
    decode [0x0080_2F2D#32, 0x0040_1402, 0x0002_1000] = .ok (.bfi { abc 1 2 5 4 .u32 with bU := true }, 3) ∧
    decode [0x0000_0F33#32, 0x000F_FC02, 0x0102_1000, 0x0000_0400, 0] =
      .ok (.icmp { abc 0 2 0x3FF 0 .u32 with bU := true, var := 2, lit := some 0x400 }, 5) := by decide

/-- Majors 16 to 18. -/
theorem test_decode_float :
    decode [0x0000_2F41#32, 0x0000_0C02, 0x0000_8908] =
      .ok (.fadd { abc 1 2 3 0 .f32 with moda := .bfly .four 1 }, 3) ∧
    decode [0x0000_2F45#32, 0x0000_0002, 0x0000_8000] = .ok (.fclass (abc 1 2 0 0 .f32), 3) ∧
    decode [0x0100_2F45#32, 0x0000_0C02, 0x0000_8000] = .ok (.fmax (abc 1 2 3 0 .f32), 3) ∧
    decode [0x0080_0F45#32, 0x0020_0801, 0x0000_8000] = .ok (.fcmp (abc 0 1 2 2 .f32), 3) ∧
    decode [0x0180_8F49#32, 0x0000_0004, 0x0000_9000] = .ok (.frcp (abc 4 4 0 0 .f64), 3) := by decide

/-- Majors 24, 25, 28 and 30. -/
theorem test_decode_lanes_control :
    decode [0x0000_8F61#32, 0x0000_0002, 0x0008_1000] = .ok (.gvote { abc 4 2 0 0 .u32 with dU := true }, 3) ∧
    decode [0x0004_CF65#32, 0x0000_0006, 0x0008_8000] = .ok (.greduce { abc 38 6 0 0 .f32 with dU := true }, 3) ∧
    decode [0x0180_0F71#32, 0x0000_0006, 0x0000_3000] = .ok (.callx (abc 0 6 0 0 .u64), 3) ∧
    decode [0x0000_0F79#32, 0, 0x0180_0000] = .ok (.bar { e0 with var := 3 }, 3) ∧
    decode [0x0080_0F79#32, 0, 0x0080_0000] = .ok (.cbar { e0 with var := 1 }, 3) := by decide

/-- Majors 34, 35, 40 and 43. -/
theorem test_decode_memory :
    decode [0x0000_CF89#32, 0x0020_0008, 0x0504_1000] =
      .ok (.atom { abc 6 8 0 2 .u32 with aU := true, var := 10 }, 3) ∧
    decode [0x0000_CF8D#32, 0x0040_000C, 0x8404_8000] =
      .ok (.atoms { abc 6 12 0 4 .f32 with aU := true, var := 264 }, 3) ∧
    decode [0x0000_0FA1#32, 0x01E0_5004, 0x0087_0000] =
      .ok (.cpy { abc 0 4 20 30 .s32 with aU := true, bU := true, cU := true, var := 1 }, 3) ∧
    decode [0x0000_0FAD#32, 0x01E0_1804, 0x0007_8000] =
      .ok (.coll { abc 0 4 6 30 .f32 with aU := true, bU := true, cU := true }, 3) := by decide

/-- Majors 45 to 49, 52 and 53. -/
theorem test_decode_units :
    decode [0x0000_AFB5#32, 0x0000_A002, 0x0082_C000] =
      .ok (.aexp { abc 5 2 40 0 .e4m3x4 with bU := true, var := 1 }, 3) ∧
    decode [0x0080_6FB5#32, 0, 0x0080_0000] = .ok (.amode { abc 3 0 0 0 .s32 with var := 1 }, 3) ∧
    decode [0x0080_0FB9#32, 0, 0x0000_8000] = .ok (.mscan (abc 0 0 0 0 .f32), 3) ∧
    decode [0x0000_6FBD#32, 1, 0] = .ok (.tmov (abc 3 1 0 0 .s32), 3) ∧
    decode [0x0105_0FC3#32, 0x002F_FC08, 0x018A_1000, 0x1234, 0] = .ok (.oboard
      { abc 40 8 0x3FF 2 .u32 with dU := true, bU := true, var := 3, lit := some 0x1234 }, 5) ∧
    decode [0x0100_0FC7#32, 0x000F_FC04, 0x0002_1000, 3, 0] =
      .ok (.chsend { abc 0 4 0x3FF 0 .u32 with bU := true, lit := some 3 }, 5) ∧
    decode [0x0101_4FD1#32, 0, 0x0008_3000] = .ok (.time { abc 10 0 0 0 .u64 with dU := true }, 3) ∧
    decode [0x0080_0FD1#32, 0x0000_5000, 0x0002_3000] = .ok (.sleep { abc 0 0 20 0 .u64 with bU := true }, 3) ∧
    decode [0x0180_4FD5#32, 0x0000_1400, 0x0002_1000] = .ok (.vdhop { abc 2 0 5 0 .u32 with bU := true }, 3) := by decide

/-- R71, R79, R80: a truncated word, a major without instructions, a reserved length. -/
theorem test_decode_refuses : decode [] = .error .truncated ∧ decode [0x0000_2F25#32] = .error .truncated ∧
    decode [0x0000_0F38#32] = .error .reservedMajor ∧ decode [0x0040_2F05#32] = .error .reservedLen := by decide

/-! ## A small machine -/

/-- One group of 16 lanes with every register, its code at 0x10000. -/
def base : State := loadWords [] State.reset

def g0 : Group := loadGroup
def p0 : Split := Split.fresh 0 0x10000 0xFFFF

/-- The machine with its group changed. -/
def withGroup (f : Group → Group) : State := base.modGroup 0 f

/-- The group after an instruction. -/
def after (i : Instr) (s : State) : Group :=
  match exec i s with
  | .next t => (t.group? 0).getD g0
  | _ => g0

/-- The state after an instruction. -/
def result (i : Instr) (s : State) : State :=
  match exec i s with
  | .next t => t
  | _ => s

/-! ## Single steps -/

/-- R321: 0 + (−1) wraps. -/
theorem test_iaddi_wraps : (after (.iaddi pT 3 (-1)) base).vget 3 7 = 0xFFFF_FFFF#32 := by decide +kernel
/-- R340: an even D takes the whole literal, an odd D its low word. -/
theorem test_movi_pair : (after (.moviLiteral pT 4 0x1_0000_0002) base).vget 5 0 = 1#32 ∧
    (after (.moviLiteral pT 5 2) base).vget 6 0 = 0#32 := by decide +kernel
/-- R290: bit 0 becomes bit 31. -/
theorem test_brev : (after (.brev pT 1 0) (withGroup (fun g => g.vset 0 2 1))).vget 1 2 = 0x8000_0000#32 := by decide +kernel
/-- R277: the absolute value of −5. -/
theorem test_abs : (after (.abs pT 1 0) (withGroup (fun g => g.vset 0 2 0xFFFF_FFFB))).vget 1 2 = 5#32 := by decide +kernel
/-- R308: 1.0 + 1.0 is 2.0, inexact of nothing. -/
theorem test_fadd : (after (.fadd (abc 1 0 0 0 .f32)) (withGroup (fun g => g.vset 0 0 0x3F80_0000))).vget 1 0 =
    0x4000_0000#32 := by decide +kernel
/-- R107: an exact cancellation is −0 in RDN. -/
theorem test_fadd_cancels : (after (.fadd { abc 1 0 1 0 .f32 with rm := .rdn })
    (withGroup (fun g => (g.vset 0 0 0x3F80_0000).vset 1 0 0xBF80_0000))).vget 1 0 = 0x8000_0000#32 := by decide +kernel
/-- R322: −1 is below 1 as s32, and not as u32. -/
theorem test_icmp_sign :
    let s := withGroup (fun g => (g.vset 0 0 0xFFFF_FFFF).vset 1 0 1)
    ((after (.icmp { abc 2 0 1 0 .s32 with var := 2 }) s).pget 2).getLsbD 0 = true ∧
    ((after (.icmp { abc 2 0 1 0 .u32 with var := 2 }) s).pget 2).getLsbD 0 = false := by decide +kernel
/-- R332: table 0x96 is the exclusive or of three bits. -/
theorem test_lop3_xor : (after (.lop3 { abc 3 0 1 2 .u32 with var := 0x96 })
    (withGroup (fun g => ((g.vset 0 0 0xF0).vset 1 0 0xCC).vset 2 0 0xAA))).vget 3 0 = 0x96#32 := by decide +kernel
/-- R317: a ballot of p2, lanes 0 and 3. -/
theorem test_gvote_ballot : (after (.gvote { abc 4 2 0 0 .u32 with dU := true })
    (withGroup (fun g => g.pset 2 0xFFFF 9))).uget 4 = 9#32 := by decide +kernel
/-- R53, R229: v200 of a group with 8 registers is OPR, and the split traps at its instruction. -/
theorem test_unallocated_traps :
    let s := withGroup (fun g => { g with nv := 8 })
    ((after (.abs pT 200 0) s).splits.map (fun p => (p.run, p.cause, p.pc))) = [(.trapped, some .opr, 0x10000)] ∧
    ((result (.abs pT 200 0) s).ctxs.map (fun c => c.traps.map (fun r => (r.cause, r.mask)))) = [[(.opr, 0xFFFF)]] := by decide +kernel
/-- R287: TRAP's code is AUX. -/
theorem test_trap_code : ((result (.trap { e0 with b := 0x3FF, bU := true, lit := some 7 }) base).ctxs.map
    (fun c => c.traps.map (fun r => (r.cause, r.aux)))) = [[(.trap, 7)]] := by decide +kernel
/-- R26, R28: a guarded branch divides the split; the lanes that fall through stand 4 bytes on. -/
theorem test_bra_divides : ((after (.bra ⟨false, 1⟩ 6) (withGroup (fun g => g.pset 1 0xFFFF 3))).splits.map
    (fun p => (p.mask, p.pc))) = [(0xFFFC, 0x10004), (3, 0x10018)] ∨
    ((after (.bra ⟨false, 1⟩ 6) (withGroup (fun g => g.pset 1 0xFFFF 3))).splits.map
    (fun p => (p.mask, p.pc))) = [(3, 0x10018), (0xFFFC, 0x10004)] := by decide +kernel
/-- R30: CALL pushes the address behind it. -/
theorem test_call_pushes : (after (.call pT 10) base).rets.head? = some [0x10004] ∧
    ((after (.call pT 10) base).splits.map (fun p => (p.pc, p.depth))) = [(0x10028, 1)] := by decide +kernel
/-- R32: an EXIT of every lane retires the group. -/
theorem test_exit_retires : (after (.exit pT) base).retired = true ∧ (after (.exit pT) base).splits = [] := by decide +kernel
/-- R131, R184: ST enters the outstanding accesses and raises S. -/
theorem test_st_issues :
    let i := Instr.st { abc 0 0 0 1 .u32 with aU := true, var := 0x40 }
    let s := withGroup (fun g => g.uset 0 0x10000)
    ((result i s).acc.map (fun a => a.bytes)) = [4] ∧ (after i s).cntS = 1 := by decide +kernel
/-- R343: one step of the machine runs the instruction at the program counter, here NOP. -/
theorem test_step_nop :
    (match step (loadWords [0x6000_0F1C#32] State.reset) with
     | .next t => (t.groups.map (fun g => g.splits.map (fun p => p.pc)))
     | _ => []) = [[0x10004]] := by decide +kernel

/-! ## States that meet the hypotheses of the statements -/

/-- The instructions whose statements ask only that they execute. -/
def registerInstrs : List Instr :=
  [.abs pT 255 0, .brev pT 1 2, .clz pT 1 2, .fabs pT 1 2, .fneg pT 1 2, .movShort pT 1 2, .not pT 1 2, .popc pT 1 2,
   .iaddi pT 255 1, .iaddiLiteral pT 1 7, .movi pT 1 1, .moviLiteral pT 254 7, .nop pT, .yield pT] ++
  ([.iadd, .imax, .imin, .isub, .mov, .idot4, .imad, .imul, .imulh, .and, .lop3, .or, .rot, .sar, .shl, .shr, .xor, .bfe, .bfi,
    .prmt, .icmp, .plop, .pmov, .sel, .lea] : List (Ext → Instr)).map (fun mk => mk e0) ++
  ([.fadd, .ffma, .fmul, .fclass, .fcmp, .fmax, .fmin, .fcos, .fexp2, .flog2, .frcp, .frsq, .fsin, .fsqrt, .ftanh, .cvt, .pack,
    .req, .unpack, .gvote, .qbcast, .qswap, .shuf, .greduce, .gscan] : List (Ext → Instr)).map
      (fun mk => mk { e0 with ty := .f32 }) ++
  ([.pref, .clk, .time, .sleep, .vdhop] : List (Ext → Instr)).map (fun mk => mk e0) ++
  [.flags { e0 with dU := true, bU := true }]

/-- Every statement about a register instruction meets its hypotheses, and YIELD, CLK and the rest with them. -/
theorem witness_register_instructions : ∀ i ∈ registerInstrs, Executes base g0 p0 i := by unfold Executes; decide +kernel

theorem witness_DecodeOfEncode : (Instr.nop pT).wf = true ∧ encode (.nop pT) ≠ [] := by decide

/-- The first and last major without instructions, and the first and last of those that trap as UNIMP. -/
theorem witness_MajorsWithoutInstructions : majOf 0 = 0 ∧ majOf 0xDC = 55 ∧ majOf 0xE0 = 56 ∧ majOf 0xFC = 63 := by decide

/-- A register at the vector count. -/
theorem witness_unallocated :
    let g := { g0 with nv := 8 }
    let s := base.modGroup 0 (fun _ => g)
    s.issuer? = some (g, p0) ∧ fromSplit (.iaddi pT 8 1) = true ∧ limitsOk g (.iaddi pT 8 1) = false ∧
      g.nv ≤ (8#8).toNat := by decide +kernel

/-- The last special register and the number behind it, FLAGS and ARM into a vector register, and SWR. -/
theorem witness_SpecialRegisterAccess : (base.block? g0.block).isSome = true ∧
    ∀ v ∈ [0#9, 14#9, 15#9, 19#9, 20#9], Executes base g0 p0 (.srd { e0 with var := v }) ∧
      Executes base g0 p0 (.swr { e0 with aU := true, var := v }) := by unfold Executes; decide +kernel

/-- A group, and a handler, that take a trap. -/
theorem witness_TrapEntry : base.group? 0 = some g0 ∧ g0.handler = none ∧ g0.split? 0 = some p0 ∧
    base.ctx? (base.groupCtx g0) = some loadCtx ∧
    (let g := { g0 with handler := some ⟨0, 1, 5, 0⟩ }
     (base.modGroup 0 (fun _ => g)).group? 0 = some g ∧ g.handler = some ⟨0, 1, 5, 0⟩) := by decide +kernel

def trapInstrs : List Instr := [.trap e0, .svc e0, .bkpt pT 3, .ill 5, .unimp 0xE0]

/-- The trapping instructions in a group, in a handler, under DEBUG and without it, with a decoder and without. -/
theorem witness_TrapInstructions : (∀ i ∈ trapInstrs, Executes base g0 p0 i) ∧ guardLanes g0 p0 pT &&& ~~~g0.helpers ≠ 0 ∧
    g0.handler = none ∧ base.emuMajors.contains 56 = false ∧
    ((base.groupCtx? g0).map (fun c => c.debug)).getD false = false ∧
    (let s : State := { base with ctxs := [{ loadCtx with debug := true }], emuMajors := [56] }
     (∀ i ∈ trapInstrs, Executes s g0 p0 i) ∧ ((s.groupCtx? g0).map (fun c => c.debug)).getD false = true ∧
       s.emuMajors.contains (majOf 0xE0) = true) ∧
    (let g := { g0 with handler := some ⟨0, 1, 5, 0⟩ }
     let s := base.modGroup 0 (fun _ => g)
     ∀ i ∈ trapInstrs, Executes s g p0 i) := by unfold Executes; decide +kernel

/-- A target that is the last word of .text, and one behind it; a counter that goes on. -/
theorem witness_BranchesDivide :
    Executes base g0 p0 (.bra pT 0x1FFF) ∧ base.inText g0 (p0.pc + ((0x1FFF#19).signExtend 64 <<< 2)) = true ∧
    Executes base g0 p0 (.bra pT 0x2000) ∧ base.inText g0 (p0.pc + ((0x2000#19).signExtend 64 <<< 2)) = false ∧
    guardLanes g0 p0 pT &&& ~~~g0.helpers ≠ 0 ∧
    (let x := { e0 with lit := some 0x0000_0010_0000_0008 }
     Executes base g0 p0 (.braJoin x) ∧ Executes base g0 p0 (.brdec x) ∧ p0.run = .live ∧
       base.inText g0 (p0.pc + 32) = true ∧ base.inText g0 (p0.pc + 64) = true) := by unfold Executes; decide +kernel

/-- A table of one entry, all zero: every lane goes to the instruction itself. -/
theorem witness_BrxBranchesByTable :
    let x := { e0 with lit := some 0 }
    Executes base g0 p0 (.brx x) ∧ guardLanes g0 p0 pT ≠ 0 ∧ p0.pc.toNat % 8 = 0 ∧
      fetchWord base g0 p0.pc .r = .word 0 ∧ fetchWord base g0 (p0.pc + 4) .r = .word 0 ∧
      fetchWord base g0 (p0.pc + 8) .r = .word 0 ∧ base.inText g0 p0.pc = true ∧
      ∀ L, L < 16 → (opA g0 x false L).extractLsb' 0 32 = 0 := by unfold Executes; decide +kernel

/-- A split at a call depth, with a return address in every lane. -/
def deep (d : Nat) : Split := { p0 with depth := d }
def deepGroup (d : Nat) : Group := { g0 with splits := [deep d], rets := List.replicate 16 [0x10000#64] }
def deepBase (d : Nat) : State := base.modGroup 0 (fun _ => deepGroup d)

/-- Depths 31 and 32 for the calls, 1 and 0 for the return. -/
theorem witness_CallsAndReturns :
    (∀ d ∈ [0, 1, 31, 32], Executes (deepBase d) (deepGroup d) (deep d) (.call pT 1) ∧
      Executes (deepBase d) (deepGroup d) (deep d) (.callx { e0 with aU := true, ty := .u64 }) ∧
      Executes (deepBase d) (deepGroup d) (deep d) (.ret pT)) ∧ guardLanes (deepGroup 1) (deep 1) pT ≠ 0 ∧
    (deepBase 1).inText (deepGroup 1) 0x10000 = true ∧ (deepBase 31).inText (deepGroup 31) (p0.pc + (1 <<< 2)) = true ∧
    (∀ L, L < 16 → ((deepGroup 1).rets.getD L []).headD 0 = 0x10000) ∧
    (let g := (deepGroup 31).uset 0 0x10000
     let s := base.modGroup 0 (fun _ => g)
     Executes s g (deep 31) (.callx { e0 with aU := true, ty := .u64 }) ∧
       ∀ L, L < 16 → s.inText g (opA g { e0 with aU := true, ty := .u64 } true L) = true) := by
  unfold Executes; decide +kernel

/-- A fault that a WAITC covers. -/
def someFault : PendingFault :=
  { cause := .pf, aux := 0x2000, classC := true, op := 3, mmag := none, tile := none, lines := [], from_ := none }

/-- A WAITC with no fault, one whose counter is above its bound, and one with a fault that it covers. -/
theorem witness_WaitcWaitsForCounters : Executes base g0 p0 (.waitc pT 0 0 0 0) ∧ guardLanes g0 p0 pT ≠ 0 ∧
    guardLanes g0 p0 never = 0 ∧
    (let g := { g0 with cntC := 1, faults := [someFault] }
     let s := base.modGroup 0 (fun _ => g)
     Executes s g p0 (.waitc pT 15 0 15 15) ∧
       g.faults.find? (fun f => f.mmag.isSome || (if f.classC then (0#4) != 15 else (15#4) != 15)) = some someFault) := by
  unfold Executes; decide +kernel

def withArm (f : FlagBits) : Group := { g0 with flags := f, arm := f }
def withHandler : Group := { g0 with handler := some ⟨0, 1, 5, 0⟩ }
def waitingAt (id : Nat) : Group := { g0 with splits := [{ p0 with wait := .bar id }] }

/-- A quiet group, armed flags that are set, a handler, a launch that is not concurrent; a barrier that is complete and one
that is not, at the last id. -/
theorem witness_BarriersArrive :
    (∀ i ∈ [Instr.bar { e0 with var := 15 }, .cbar { e0 with var := 3 }], Executes base g0 p0 i ∧
      Executes (base.modGroup 0 (fun _ => withArm 1)) (withArm 1) p0 i ∧
      Executes (base.modGroup 0 (fun _ => withHandler)) withHandler p0 i) ∧
    g0.handler = none ∧ g0.faults = [] ∧ g0.flags &&& g0.arm = 0 ∧ (withArm 1).flags &&& (withArm 1).arm ≠ 0 ∧
    ((base.groupLaunch? g0).map (fun l => l.desc.progress == 0)).getD false = true ∧
    (let s : State := { base with launches := [{ loadLaunch with desc := { loadDesc with progress := 2 } }] }
     Executes s g0 p0 (.cbar e0) ∧ ((s.groupLaunch? g0).map (fun l => l.desc.progress == 0)).getD false = false) ∧
    (base.modGroup 0 (fun _ => waitingAt 15)).groups = [waitingAt 15] ∧ (waitingAt 15).block = 0 ∧
    (waitingAt 15).retired = false ∧ (waitingAt 15).handler = none := by unfold Executes; decide +kernel

def withP1 : Group := g0.pset 1 0xFFFF 3

/-- An EXIT of every lane with the counters zero, with a counter raised, and an EXIT of two lanes. -/
theorem witness_ExitEndsLanes : Executes base g0 p0 (.exit pT) ∧
    g0.present &&& ~~~g0.helpers &&& ~~~g0.ended &&& ~~~guardLanes g0 p0 pT = 0 ∧ g0.faults = [] ∧
    (g0.cntL = 0 ∧ g0.cntS = 0 ∧ g0.cntC = 0 ∧ g0.cntT = 0) ∧
    (let g := { g0 with cntL := 1 }
     Executes (base.modGroup 0 (fun _ => g)) g p0 (.exit pT)) ∧
    Executes (base.modGroup 0 (fun _ => withP1)) withP1 p0 (.exit ⟨false, 1⟩) ∧
    guardLanes withP1 p0 ⟨false, 1⟩ ≠ 0 ∧
    withP1.present &&& ~~~withP1.helpers &&& ~~~withP1.ended &&& ~~~guardLanes withP1 p0 ⟨false, 1⟩ ≠ 0 := by
  unfold Executes; decide +kernel

/-- s0 and s1 hold the address of the mapped page. -/
def gPage : Group := g0.uset 0 0x10000
def sPage : State := base.modGroup 0 (fun _ => gPage)
/-- A at s0. -/
def xPage : Ext := { e0 with aU := true, ty := .u32 }

theorem reach_virtual {f : AccessForm} (h : f.lanes ≠ [])
    (hf : f.lanes.all (fun L => f.check (f.addr L) == .ok .hbm 0x10000) = true) : AllReach f :=
  ⟨h, fun L hL => ⟨.hbm, 0x10000, by simpa using List.all_eq_true.mp hf L hL⟩⟩

theorem reach_scratch {f : AccessForm} (h : f.lanes ≠ [])
    (hf : f.lanes.all (fun L => f.check (f.addr L) == .ok .scratch 0) = true) : AllReach f :=
  ⟨h, fun L hL => ⟨.scratch, 0, by simpa using List.all_eq_true.mp hf L hL⟩⟩

def noData : Nat → BitVec 128 := fun _ => 0
def noWord : Nat → DWord := fun _ => 0

/-- Loads, stores and atomics of the first word of a page. -/
theorem witness_LaneAccessesIssue_virtual : NoneParked sPage p0 ∧ gPage.faults = [] ∧
    (∀ i ∈ [Instr.ld xPage, .st xPage, .atom xPage], Executes sPage gPage p0 i) ∧
    AllReach (laneForm sPage gPage p0 xPage .ld 1 .l false noData noWord []) ∧
    AllReach (laneForm sPage gPage p0 xPage .st 1 .s false noData noWord []) ∧
    AllReach (laneForm sPage gPage p0 xPage (.atom 0) 4 .l false noData noWord []) := by
  refine ⟨fun a h => ?_, rfl, by unfold Executes; decide +kernel, ?_, ?_, ?_⟩
  · exact absurd h (by simp [show sPage.acc = [] from rfl])
  all_goals exact reach_virtual (by decide +kernel) (by decide +kernel)

/-- The scratchpad instructions at offset 0. -/
theorem witness_LaneAccessesIssue_scratch : NoneParked base p0 ∧
    (∀ i ∈ [Instr.lds e0, .sts e0, .ldx e0, .atoms e0, .sempty e0, .sfill e0, .sfe e0], Executes base g0 p0 i) ∧
    ∀ kd ∈ [AccKind.lds, .sts, .ldx 0, .atoms 0, .sempty, .sfill 0, .sfe 0], ∀ n ∈ [1, 4],
      AllReach (laneForm base g0 p0 e0 kd n .l true noData noWord []) := by
  refine ⟨fun a h => absurd h (by simp [show base.acc = [] from rfl]), by unfold Executes; decide +kernel, ?_⟩
  intro kd hk n hn
  have h : (lanesOf (realLanes g0 p0 pT)).all (fun L => checkScratch base g0 n (effAddr g0 e0 L) == .ok .scratch 0) = true := by
    revert n; decide +kernel
  exact reach_scratch (by simp only [laneForm]; decide +kernel) h

/-- LDU, EVSIG and EVWAIT of the page's first eight bytes. -/
theorem witness_SplitAccessesIssue :
    (∀ i ∈ [Instr.ldu xPage, .evsig xPage, .evwait xPage], Executes sPage gPage p0 i) ∧ gPage.faults = [] ∧
    (lanesOf (realLanes gPage p0 pT)).take 1 = [0] ∧ checkVirtual sPage gPage .ldu 1 (effAddr gPage xPage 0) = .ok .hbm 0x10000 ∧
    checkVirtual sPage gPage .evsig 8 (gPage.rget true true 0 0) = .ok .hbm 0x10000 ∧
    checkVirtual sPage gPage .evwait 8 (gPage.rget true true 0 0) = .ok .hbm 0x10000 := by unfold Executes; decide +kernel

/-- The last mapped word, the first address behind the page, the first address above the space, an odd one; a page without
W; and a load and a store with a misaligned lane. -/
theorem witness_AddressChecks :
    base.tlbFind g0.die g0.lanesTlb (base.groupCtx g0) 0x1FFFC = none ∧ base.ctx? (base.groupCtx g0) = some loadCtx ∧
    (mapFind loadCtx.maps 0x1FFFC).isSome = true ∧ mapFind loadCtx.maps 0x20000 = none ∧
    (∀ m ∈ loadCtx.maps, loadCtx.present m 0x1FFFC = true ∧ m.grants (AccKind.need .st) = true ∧ m.host = false ∧ m.window = false) ∧
    (0x0200_0000_0000_0000#64).toNat % 4 = 0 ∧ 2 ^ 57 ≤ (0x0200_0000_0000_0000#64).toNat ∧ (0x10001#64).toNat % 4 ≠ 0 ∧
    (∀ m ∈ loadCtx.maps, ({ m with w := false }).grants (AccKind.need .st) = false) ∧
    (let g := g0.uset 0 0x10001
     let s := base.modGroup 0 (fun _ => g)
     let x := { xPage with var := 0x40 }
     Executes s g p0 (.ld x) ∧ Executes s g p0 (.st x) ∧ 2 ^ Fields.sz x ≠ 1 ∧
       maskOf (fun L => (realLanes g p0 x.guard).getLsbD L &&
         checkVirtual s g .ld (2 ^ Fields.sz x) (effAddr g x L) == .mal) ≠ 0) := by unfold Executes; decide +kernel

/-- One lane's access of four bytes. -/
def oneAccess (kd : AccKind) (sp : Space) (addr : Nat) : Access :=
  { id := 7, group := 0, split := 0, pc := 0x10000, kind := kd, bytes := 4, ty := .u32, d := 1, ctr := .s, cover := 0xFFFF,
    next := 0x1000C, shared := false, waitFrom := none,
    flags := 0, lanes := [{ lane := 15, va := 0x10000, addr := addr, space := sp, data := 5, data2 := 0, stage := .issued }] }
def accessing (kd : AccKind) (sp : Space) (addr : Nat) : State := { base with acc := [oneAccess kd sp addr] }

/-- The one lane of `oneAccess`. -/
def lane15 (sp : Space) (addr : Nat) : LaneAcc :=
  { lane := 15, va := 0x10000, addr := addr, space := sp, data := 5, data2 := 0, stage := .issued }

/-- A store to memory, while a split waits for the event word there to reach 5, and one to host memory. -/
theorem witness_StoresPerform :
    (∀ sp ∈ [Space.hbm, .host],
      Performing (accessing .st sp 0x10000) 7 15 (oneAccess .st sp 0x10000) (lane15 sp 0x10000) g0) ∧
    (let g := { g0 with splits := [p0, { p0 with idx := 1, wait := .evwait 0x10000 0x10000 5 0x10020 }] }
     let s := (accessing .st .hbm 0x10000).modGroup 0 (fun _ => g)
     Performing s 7 15 (oneAccess .st .hbm 0x10000) (lane15 .hbm 0x10000) g ∧ (g.splits.map (fun q => q.idx)).Nodup ∧
       5 ≤ natLE (((performEvent true 7 15 s).memBytes 0x10000 8)) ∧ xlate s g.die g.lanesTlb (s.groupCtx g) 0x10000 .r = .ok .hbm 0x10000) := by unfold Performing; decide +kernel

/-- A load and an atomic of four bytes; the load counted by L, the only access of its group. -/
theorem witness_LoadsPerform : (∀ kd ∈ [AccKind.ld, .atom 0],
      Performing (accessing kd .hbm 0x10000) 7 15 (oneAccess kd .hbm 0x10000) (lane15 .hbm 0x10000) g0) ∧
    g0.present.getLsbD 15 = true ∧
    (let a := { oneAccess .ld .hbm 0x10000 with ctr := .l }
     let s := { base with acc := [a] }
     Performing s 7 15 a (lane15 .hbm 0x10000) g0 ∧ s.acc = [] ++ a :: [] ∧ a.ctr = .l ∧
       ∀ m ∈ a.lanes, m.lane ≠ 15 → m.stage = .done) := by unfold Performing; decide +kernel

/-- The one access of LDU, EVSIG and EVWAIT; the last two of eight bytes, for a split that waits for it, with B below the word
and above it. -/
theorem witness_SplitAccessesPerform :
    Performing (accessing .ldu .hbm 0x10000) 7 15 (oneAccess .ldu .hbm 0x10000) (lane15 .hbm 0x10000) g0 ∧
    (let g := { g0 with splits := [{ p0 with wait := .access 7 }] }
     ∀ kd ∈ [AccKind.evsig, .evwait], ∀ b ∈ [0, 1],
       let l := { lane15 .hbm 0x10000 with data2 := BitVec.ofNat 64 b }
       let a := { oneAccess kd .hbm 0x10000 with bytes := 8, lanes := [l] }
       let s := { base with acc := [a], groups := [g] }
       Performing s 7 15 a l g ∧ (g.split? a.split).isSome = true ∧ (g.splits.map (fun q => q.idx)).Nodup ∧
         placeValue s a g l = 0) := by unfold Performing; decide +kernel

/-- Each access of the last word of line 0, full and empty; on the empty line a second group's LDS waits; a split that waits
for its LDS. -/
theorem witness_BankAccessesPerform :
    (∀ kd ∈ [AccKind.lds, .ldx 3, .sfe 3, .atoms 0, .sts, .sempty, .sfill 7], ∀ v ∈ [0, 1],
      let s := (accessing kd .scratch 124).linePut 0 0 (BitVec.ofNat 8 v)
      Performing s 7 15 (oneAccess kd .scratch 124) (lane15 .scratch 124) g0 ∧ (s.block? g0.block).isSome = true ∧
        s.lineFull 0 0 = (v == 1)) ∧
    (∀ kd ∈ [AccKind.sts, .sfill 7],
      let w := { oneAccess .lds .scratch 120 with
        id := 8, group := 1, lanes := [{ lane15 .scratch 120 with stage := .waitingEmpty }] }
      let s := { base with groups := [g0, g0], acc := [oneAccess kd .scratch 124, w] }
      Performing s 7 15 (oneAccess kd .scratch 124) (lane15 .scratch 124) g0 ∧ s.lineFull 0 0 = false ∧
        (∀ w ∈ s.acc, ∀ m ∈ w.lanes, m.stage = .waitingEmpty → w.kind = .lds) ∧
        s.group? w.group = some g0) ∧
    (let g := { g0 with splits := [{ p0 with wait := .access 7 }] }
     let s := ({ base with groups := [g], acc := [oneAccess .lds .scratch 124] }).linePut 0 0 1
     Performing s 7 15 (oneAccess .lds .scratch 124) (lane15 .scratch 124) g ∧ s.lineFull 0 0 = true) := by
  unfold Performing; decide +kernel


/-- The bytes of a layout record at 0x14000 that are not zero (R172): extents, a stride of 256 between rows, boxes, format and
rank. -/
def record (ext box : List Nat) (fmt : Nat) : List (Nat × Byte) :=
  let two (o v : Nat) : List (Nat × Byte) := [(o, BitVec.ofNat 8 v), (o + 1, BitVec.ofNat 8 (v / 256))]
  two 1 0x140 ++ (List.range ext.length).flatMap (fun d => two (16 + 4 * d) (ext.getD d 0) ++ two (68 + 2 * d) (box.getD d 0)) ++
    (if ext.length = 2 then [(37, 1)] else []) ++ [(78, BitVec.ofNat 8 fmt), (81, BitVec.ofNat 8 ext.length)]

/-- s4 and s6 point at records at 0x12000 and 0x12080; s0 is 0, s8 points at the code, and s30 asks for no origin. -/
def gEngine : Group :=
  [(4, 0x12000), (5, 0), (6, 0x12080), (7, 0), (8, 0x10000), (31, 1)].foldl (fun g (x : Nat × Nat) => g.uset x.1 (BitVec.ofNat 32 x.2)) g0

/-- The machine with two records, one handler slot and a schedule of one device. -/
def engineState (r : List (Nat × Byte)) : State :=
  let d := { loadDesc with hslots := 1, hvregs := 1, colltab := 0x13000 }
  let table : List (Nat × Byte) := [(0, 1), (16, 9), (24, 1), (28, 1)] ++ (List.range 64).map (fun k => (32 + k, 0xFF))
  let bytes := r.map (fun x => (0x12000 + x.1, x.2)) ++ r.map (fun x => (0x12080 + x.1, x.2)) ++
    table.map (fun x => (0x13000 + x.1, x.2))
  { base with
    groups := [gEngine], launches := [{ loadLaunch with desc := d }], mem := bytes.filter (fun x => x.2 != 0) }

def started (t : Try Unit) : Bool :=
  match t with
  | .ok _ _ => true
  | _ => false

/-- CPY g2s of 128 bytes, with the records in s4 and s6 and the offset in s0. -/
def xCpy : Ext := { abc 0 4 0 30 .s32 with aU := true, bU := true, cU := true, var := 1 }
def line128 : State := engineState (record [128] [128] 7)

theorem witness_CPY : Executes line128 gEngine p0 (.cpy xCpy) ∧ guardLanes gEngine p0 pT ≠ 0 ∧ gEngine.faults = [] ∧
    started (cpyIn xCpy (issueOf line128 gEngine p0 (.cpy xCpy) pT) line128) = true := by unfold Executes; decide +kernel

/-- A CPY whose record is odd is a trap. -/
theorem witness_CPY_traps :
    let g := gEngine.uset 4 0x12001
    let s := base.modGroup 0 (fun _ => g)
    Executes s g p0 (.cpy xCpy) ∧ (match cpyIn xCpy (issueOf s g p0 (.cpy xCpy) pT) s with
      | .trap .mal _ => true
      | _ => false) = true := by unfold Executes; decide +kernel

/-- LDH of 128 bytes with its event line 0 and its handler at the code. -/
def xLdh : Ext := { abc 0 4 8 30 .s32 with dU := true, aU := true, bU := true, cU := true }

theorem witness_LDH : Executes line128 gEngine p0 (.ldh xLdh) ∧ realLanes gEngine p0 pT ≠ 0 ∧
    started (ldhIssue xLdh (issueOf line128 gEngine p0 (.ldh xLdh) pT) line128) = true := by unfold Executes; decide +kernel

/-- COLL ALLREDUCE of one word on the one device of entry 0. -/
def xColl : Ext := { abc 0 4 6 30 .s32 with aU := true, bU := true, cU := true }
def oneWord : State := engineState (record [1] [1] 0)

theorem witness_COLL : Executes oneWord gEngine p0 (.coll xColl) ∧
    started (collIssue xColl (issueOf oneWord gEngine p0 (.coll xColl) pT) oneWord) = true := by unfold Executes; decide +kernel

/-- A tile of 1,024 doubles, of which 32 lie inside the tensor. -/
def xTile : Ext := { abc 15 4 0 30 .s32 with aU := true, cU := true }
def tileRow : State := engineState (record [32, 1] [32, 32] 9)

theorem witness_TLD_TSTR : Executes tileRow gEngine p0 (.tld xTile) ∧ Executes tileRow gEngine p0 (.tstr xTile) := by
  unfold Executes; decide +kernel
theorem witness_TLD : started (tldIssue xTile (issueOf tileRow gEngine p0 (.tld xTile) pT) tileRow) = true := by decide +kernel
theorem witness_TSTR : started (tstrIssue xTile (issueOf tileRow gEngine p0 (.tstr xTile) pT) tileRow) = true := by decide +kernel

/-- The record at an address, and the machine after its group has read it. -/
def recAt (s : State) (va : Nat) : Record := parseRecord (s.memBytes va 128)
def readAt (s : State) (va : Nat) : Option State := claimAs s (issueWaiter s gEngine) (groupAgent s.curG gEngine) va false
def touch (s : State) (va : Nat) : State := (readAt s va).getD s

/-- A record of the loaded page can be read. -/
theorem reads_record (s : State) (va : Nat) (a : DWord) (ha : a.toNat = va)
    (hm : va % 128 = 0) (hl : lineRuns va 128 = [(va, 0)]) (hn : lineRun va 128 = 128)
    (hx : xlate s gEngine.die gEngine.engineTlb (s.groupCtx gEngine) a .r = .ok .hbm va)
    (hr : reserved s (va / 128) = false) (hs : (sharedOut s s.curG && sharedPlace s gEngine .hbm va) = false)
    (hc : (readAt s va).isSome = true) : ReadsRecord s gEngine a (recAt s va) (touch s va) := by
  obtain ⟨u, hu⟩ := Option.isSome_iff_exists.mp hc
  refine ⟨by omega, s.memBytes va 128, ?_, rfl⟩
  subst ha
  rw [ReadsBytes, hl]
  refine ⟨s.memBytes a.toNat 128, touch s a.toNat, [], ⟨a.toNat, .inl ⟨by simpa using hx, hr, hs, ?_, by simp [hn]⟩⟩, ⟨rfl, rfl⟩,
    by simp⟩
  show readAt s a.toNat = _
  rw [touch, hu, Option.getD_some]

def recA (s : State) : RecPair := (recAt s 0x12000, none)
/-- The machine after both records. -/
def touch2 (s : State) : State := touch (touch s 0x12000) 0x12080
def recB (s : State) : RecPair := (recAt (touch s 0x12000) 0x12080, none)
def goodBox (rq : RecPair) (org : List Int) : Bool := rq.ok && rq.limitsOk org && (outsideOf rq.1 (rq.ownStream org)).isNone

theorem witness_records : ∀ s ∈ [line128, tileRow, oneWord],
    ReadsRecord s gEngine 0x12000 (recA s).1 (touch s 0x12000) ∧
      ReadsRecord (touch s 0x12000) gEngine 0x12080 (recB s).1 (touch2 s) := by
  intro s hs
  refine ⟨reads_record s 0x12000 0x12000 rfl ?_ ?_ ?_ ?_ ?_ ?_ ?_, reads_record _ 0x12080 0x12080 rfl ?_ ?_ ?_ ?_ ?_ ?_ ?_⟩ <;>
    revert s <;> decide +kernel

/-- What the completion of each form asks for beside its records, and that it then starts. -/
def starts1 (i : Instr) (s : State) : Bool :=
  match exec i s with
  | .next t => t.engines.length == s.engines.length + 1
  | _ => false


def cpyForm (v : Nat) (a b : BitVec 10) : Ext := { xCpy with var := BitVec.ofNat 9 v, a := a, b := b }

theorem witness_CPY_starts : ∀ x ∈ [cpyForm 0 4 6, cpyForm 1 4 0, cpyForm 2 0 4], starts1 (.cpy x) line128 = true := by
  decide +kernel

theorem witness_CPY_operands :
    (∀ x ∈ [cpyForm 0 4 6, cpyForm 1 4 0, cpyForm 2 0 4], Executes line128 gEngine p0 (.cpy x)) ∧
    opA gEngine (cpyForm 0 4 6) true 0 = 0x12000 ∧ opB gEngine (cpyForm 0 4 6) true 0 = 0x12080 ∧
    opA gEngine (cpyForm 1 4 0) true 0 = 0x12000 ∧ opB gEngine (cpyForm 2 0 4) true 0 = 0x12000 ∧
    opB gEngine (cpyForm 1 4 0) false 0 = 0 ∧ opA gEngine (cpyForm 2 0 4) false 0 = 0 := by unfold Executes; decide +kernel

theorem witness_CPY_completes :
    let s := line128
    (recA s).1.role ≠ 1 ∧ (recB s).1.role ≠ 1 ∧ originBad gEngine 30 (recA s) = false ∧
    goodBox (recA s) (originOf gEngine 30 (recA s)) = true ∧ goodBox (recB s) (List.replicate 9 0) = true ∧
    (recA s).count = (recB s).count ∧ (recA s).elems.fmt = (recB s).elems.fmt ∧
    (recA s).count * (recA s).elems.width % 1024 = 0 ∧ (recA s).bytes ≤ s.scratchOf gEngine.block := by decide +kernel

theorem witness_TLD_TSTR_completes :
    (recA tileRow).1.role ≠ 1 ∧ originBad gEngine 30 (recA tileRow) = false ∧
    goodBox (recA tileRow) (originOf gEngine 30 (recA tileRow)) = true ∧
    tileOk (recA tileRow) (originOf gEngine 30 (recA tileRow)) = true := by decide +kernel

theorem witness_LDH_completes :
    let s := line128
    0 ≤ (recA s).o0 (originOf gEngine 30 (recA s)) ∧ handlerSlots s gEngine ≠ 0 ∧
    s.inText gEngine (opB gEngine xLdh true 0) = true ∧ (gEngine.uget xLdh.d.toNat).toNat < s.scratchOf gEngine.block ∧
    starts1 (.ldh xLdh) s = true := by decide +kernel

theorem witness_COLL_completes :
    let s := oneWord
    let w := touch2 s
    let head := w.memBytes 0x13000 16
    let en := parseEntry ((touch w 0x13000).memBytes 0x13010 128)
    (s.descOf gEngine).map (fun d => d.colltab) = some 0x13000 ∧ (readAt w 0x13000).isSome = true ∧
    (readAt (touch w 0x13000) 0x13010).isSome = true ∧
    (gEngine.uget 30).toNat < fieldLE head 0 4 ∧ 33 ≤ gEngine.ns ∧ (gEngine.uget 31).toNat = 1 ∧ (gEngine.uget 32).toNat = 0 ∧
    en.modes % 2 = 1 ∧ destCount (Fields.collKind xColl) en.ndev 1 0 = 1 ∧ s.early = [] ∧ s.portsDown = [] := by decide +kernel

theorem witness_COLL_records :
    let s := oneWord
    goodBox (recA s) (List.replicate 9 0) = true ∧ goodBox (recB s) (List.replicate 9 0) = true ∧
    (recA s).elems.fmt = 0 ∧ (recB s).elems.fmt = 0 ∧ (recA s).count = 1 ∧ (recB s).count = 1 ∧
    starts1 (.coll xColl) s = true := by decide +kernel

/-! ## Engines, handlers, the matrix engine, Orbit and channels -/

/-- An operation without work. -/
def op0 : EngineOp :=
  { id := 5, group := 0, block := 0, ctx := 1, kind := .cpy, words := [], recs := [], org := [], composed := false, fmtS := 7,
    fmtD := 7, rm := .rne, clamp := 0, swz := 0, plan := none, moves := [], reads := [], readsDone := [], sreads := [],
    sreadsDone := [], buf := [], sbuf := [], writes := [], writesDone := [], swrites := [], swritesDone := [], resv := [],
    sresv := [], emptySince := [], flags := 0, bursts := [], coll := none, fault := none, deliver := false, finished := false }

def running (o : EngineOp) : State := { base with engines := [o] }

/-- A copy of a byte of the first sector of 0x14000 into the first of 0x18000. -/
def opMove : EngineOp :=
  { op0 with reads := [0xA00], writes := [0xC00], moves := [{ src := .mem 0xA0000, dst := .mem 0xC0000, ws := 8, wd := 8 }] }

theorem witness_EngineSectorsMove : (running opMove).engine? 5 = some opMove ∧ engineLive (running opMove) opMove = true ∧
    0xC00 < spadBase ∧ opMove.place (running opMove) 0xA00 .r = .ok .hbm 0x14000 ∧
    reservedByOther (running opMove) 5 (.hbm, 0, 0x14000 / 128) = false ∧
    (claimNow (running opMove) (.engine 5) 0x14000 false).isSome = true ∧
    (let o := { opMove with readsDone := [0xA00] }
     o.writable = true ∧ o.runReady atMem (256 * 0xC00) 256 = true ∧ o.place (running o) 0xC00 .w = .ok .hbm 0x18000 ∧
       hostHolds (running o) 0x18000 = false ∧ o.sourceFree (running o) (.hbm, 0, 0x18000 / 32) = true ∧
       (claimNow (running o) (.engine 5) 0x18000 true).isSome = true) := by decide +kernel

/-- An operation whose work is done, and one with a fault. -/
theorem witness_EngineOperationsEnd : (running op0).engine? 5 = some op0 ∧ engineLive (running op0) op0 = true ∧
    (running op0).group? 0 = some g0 ∧ (∀ q ∈ (running op0).engines, q.id = 5 → q = op0) ∧ op0.fault = none ∧
    op0.readAll = true ∧ op0.writes = [] ∧ op0.swrites = [] ∧
    (let o := { op0 with fault := some (.pf, 0x20000) }
     engineLive (running o) o = true ∧ engineFaultOf (running o) o = some (.pf, 0x20000)) := by decide +kernel

/-- A handled read with one burst. -/
def opLdh : EngineOp :=
  { op0 with kind := .ldh 0 7 0x10000, bursts := [{ seq := 0, coords := [0, 0, 0, 0, 0], bits := [.mem 0xA0000], w := 8,
                                                    fill := 0, valid := 1, born := false, ended := false,
                                                    kept := none, fault := none }],
             readsDone := [0xA00] }

theorem witness_HandlerBorn :
    let s : State := { running opLdh with launches := [{ loadLaunch with desc := { loadDesc with hslots := 1, hvregs := 1 } }] }
    s.engine? 5 = some opLdh ∧ engineLive s opLdh = true ∧ opLdh.fault = none ∧ opLdh.plan = none ∧
      (nextBurst opLdh).isSome = true ∧ s.block? 0 = some loadBlock ∧ loadBlock.stopped = false ∧
      (s.launch? loadBlock.launch).isSome = true ∧ (∀ b ∈ opLdh.bursts, b.coords.length = 5) ∧
      (∀ c ∈ s.ctxs, c.stopping = false) ∧ freeHandlerSlot s 0 1 = some 0 := by decide +kernel

/-- A handler of that read beside its group, with a second burst still to come. -/
def opTwo : EngineOp :=
  { opLdh with bursts := opLdh.bursts.map (fun b => { b with born := true }) ++ opLdh.bursts.map (fun b => { b with seq := 1 }) }
def gHandler : Group := { g0 with handler := some ⟨0, 1, 5, 0⟩ }

theorem witness_HendEndsHandler : Executes base g0 p0 .hend ∧ g0.handler = none ∧
    (let s : State := { running { opTwo with group := 1 } with groups := [gHandler, g0] }
     Executes s gHandler p0 .hend ∧ gHandler.handler = some ⟨0, 1, 5, 0⟩ ∧ gHandler.splits = [p0] ∧ gHandler.faults = [] ∧
       s.engine? 5 = some { opTwo with group := 1 } ∧ s.group? 1 = some g0 ∧
       ∃ b ∈ opTwo.bursts, b.seq ≠ 0 ∧ b.ended = false) := by unfold Executes; decide +kernel

def matrixInstrs : List Instr :=
  [.mma { e0 with ty := .f16x2 }, .mmag { e0 with ty := .f16x2 }, .mmat { e0 with ty := .f16x2 }, .aexp { e0 with aU := true },
   .amode e0, .ard e0, .awr e0, .mzero e0, .mcarry e0, .mscan { e0 with ty := .f32 }, .tmov e0, .trd e0, .twr e0]

/-- Each matrix instruction; an affine accumulator makes MMA of integers OPR; an index of MMAG inside the scratchpad, the first
one behind it. -/
theorem witness_MatrixInstructionsQueue : (∀ i ∈ matrixInstrs, Executes base g0 p0 i) ∧ g0.faults = [] ∧
    guardLanes g0 p0 pT ≠ 0 ∧ intTy Ty.f16x2 = false ∧ base.scratchOf g0.block = 1024 ∧
    (∀ r ∈ (rowsOf (realLanes g0 p0 pT)).map (fun i => (i, gatherIdx (List.replicate 48 (0 : Word)) i)), r.2 * 128 < 1024) ∧
    (∃ r ∈ (rowsOf (realLanes g0 p0 pT)).map (fun i => (i, gatherIdx (List.replicate 48 (8 : Word)) i)), 1024 ≤ r.2 * 128) ∧
    (let g := { g0 with affine := 1 }
     let s := base.modGroup 0 (fun _ => g)
     Executes s g p0 (.mma e0) ∧ intTy Ty.s32 = false ∧ modeAfter s 0 g 0 = true ∧ intTy Ty.s8x4 = true) := by
  unfold Executes; decide +kernel

/-- A queued TMOV, one that has computed, and a gather that has met a wrong tag. -/
def queued (i : Instr) (latch : List (Nat × Nat × List Byte)) : MatEntry :=
  { id := 0, die := 0, core := 0, group := 0, pc := 0x10000, ins := i, e := 0xFFFF, vals := [], uniB := 0, lines := [],
    latch := latch, emptySince := [], cancelled := false, out := none, endsAt := 0 }

theorem witness_MatrixEntriesRun :
    let m := queued (.tmov (abc 1 0 0 0 .s32)) []
    let s : State := { base with matq := [m] }
    matHead s 0 0 = some m ∧ s.group? 0 = some g0 ∧ s.busy.get 0 (matKey 0 0) ≤ s.now ∧ tileBusy s m = false ∧
      wrongTags m = [] ∧ m.endsAt ≤ s.now ∧
      (let w := queued (.mmag { e0 with ty := .f16x2 }) [(2, 1, [])]
       gatherFault { base with matq := [w] } w = some (.swz, 256)) ∧ (15#10).toNat < 16 ∧ e0.var.getLsbD 0 = false ∧
      (0x8000#16).getLsbD 15 = true ∧ g0.present.getLsbD 15 = true := by decide +kernel

def orbitInstrs : List Instr :=
  [.oadd e0, .oalight e0, .ocap e0, .ocas e0, .omax e0, .omin e0, .oswp e0, .oboard { e0 with dU := true }]

/-- The last slot, and the first number behind it. -/
theorem witness_OrbitInstructionsIssue : ∀ n ∈ [2047, 2048],
    let g := g0.uset 0 (BitVec.ofNat 32 n)
    (∀ i ∈ orbitInstrs, Executes (base.modGroup 0 (fun _ => g)) g p0 i) ∧ realLanes g p0 pT ≠ 0 ∧ (g.uget 0).toNat = n := by
  unfold Executes; decide +kernel

/-- Operations at their pass: an OADD on a slot that it may use and on one that it may not, an OBOARD at a free slot of its
context, and one that has passed 256 times. -/
def orbitOp (k : OrbKind) (passes : Nat) : OrbitOp :=
  { id := 3, group := 0, split := 0, die := 0, core := 0, kind := k, ty := .u32, slot := 252, key := 0, d := 0, e := 0xFFFF,
    act := 0xFFFF, b := List.replicate 16 1, cmp := List.replicate 16 0, issue := 0, passes := passes, next := 0x1000C }

theorem witness_OrbitPasses :
    let s (k : OrbKind) (n : Nat) (held : Bool) : State := { base with
      cycle := 6, orbitOps := [orbitOp k n], slots := (List.range 256).map (fun i =>
        (i, { payload := List.replicate 16 0, key := 0, tag := 1, held := held })) }
    (s .add 0 true).orbitOps.find? (fun q => q.id == 3) = some (orbitOp .add 0) ∧ (s .add 0 true).group? 0 = some g0 ∧
      passDue (s .add 0 true) (orbitOp .add 0) = true ∧ slotAllows (s .add 0 true) (orbitOp .add 0) ((s .add 0 true).slot 252) = true ∧
      slotAllows (s .add 0 false) (orbitOp .add 0) ((s .add 0 false).slot 252) = false ∧
      passDue (s (.board 0 2) 0 false) (orbitOp (.board 0 2) 0) = true ∧
      (let id := posAt (station 0 0) (s (.board 0 2) 0 false).now
       ((s (.board 0 2) 0 false).slot id).tag = BitVec.ofNat 16 ((s (.board 0 2) 0 false).groupCtx g0) ∧
         ((s (.board 0 2) 0 false).slot id).held = false) ∧ 256 ≤ (orbitOp (.board 0 2) 256).passes := by decide +kernel

/-- A channel from block 0 to itself. -/
def chan (credits count : Nat) : Channel :=
  { launch := 0, num := 0, prod := 0, cons := 0, depth := 4, head := 3, count := count, credits := credits, flying := 0 }

/-- A credit, no credit, a message, no message, and a channel that does not exist. -/
theorem witness_ChannelsCarryMessages :
    (∀ i ∈ [Instr.chsend e0, .chrecv e0, .chpeek e0], Executes base g0 p0 i) ∧ realLanes g0 p0 pT ≠ 0 ∧
    channelFor base g0 0 true = none ∧
    (∀ c ∈ [chan 0 0, chan 1 1],
      let s : State := { base with channels := [c] }
      channelFor s g0 0 true = some c ∧ channelFor s g0 0 false = some c ∧ blockDone s 0 0 = false) := by
  unfold Executes; decide +kernel

/-! ## Commands -/

def cmd0 : Cmd := { fn := 1, flags := 0, seq := 7, ctx := 1, pad := 0, compl := 0x1C000 }
def page0 : Mapping :=
  { va := loadVa, pages := 1, psize := 65536, target := loadPa, r := true, w := true, x := true, host := false, window := false,
    demand := false }

/-- A completion address and an event word in the mapped page, with nothing there that holds them back. -/
theorem witness_CompletionRecordWritten : base.fwOut = [] ∧ base.ctx? cmd0.ctx = some loadCtx ∧ page0.space = .hbm ∧
    mapFind loadCtx.maps cmd0.compl.toNat = some page0 ∧ cmd0.compl.toNat % 16 = 0 ∧
    (let s := complete cmd0 0 7 base
     let pa := page0.phys cmd0.compl.toNat
     reserved s (pa / 128) = false ∧ hostHolds s pa = false ∧ (claimNow s .firmware pa true).isSome = true) ∧
    (∀ k, k < 8 → mapFind loadCtx.maps (0x1FFF8 + k) = some page0) ∧
    (let s : State := { base with fwOut := [.raise 1 0x1FFF8 1] }
     reserved s (0x1FFF8 / 128) = false ∧ hostHolds s 0x1FFF8 = false ∧ (claimNow s .firmware 0x1FFF8 true).isSome = true) := by
  decide +kernel

/-- The record of R249: sequence number 7, STATUS 0, VALUE 9. -/
theorem test_completion_record : (flushFw (complete cmd0 0 9 base)).memBytes 0x1C000 16 =
    [7, 0, 0, 0, 0, 0, 0, 0, 9, 0, 0, 0, 0, 0, 0, 0] := by decide +kernel

/-- A descriptor at 0x12000 whose DONE is 0x14000. -/
def submitState : State := { base with mem := [(0x12049, 0x40), (0x1204A, 1)] }

/-- Each setting command at the ends of its ranges. -/
theorem witness_SettingCommandsComplete : plainCmd cmd0 = true ∧ base.ctx? cmd0.ctx = some loadCtx ∧ loadCtx.state ≠ .killed ∧
    (∀ t, t < 8 → quotaBad base 1 t ((List.replicate 8 0).getD t 0) = false) ∧
    (0x14000#64).toNat % 8 = 0 ∧ mapFind loadCtx.maps 0x14000 = some page0 ∧ page0.r = true ∧ page0.w = true ∧
    loadCtx.present page0 0x14000 = true ∧ base.ccbPage 1 0x14000 = false ∧
    (fwTouch [(1, 0x12000, 128)] submitState).isSome = true ∧ (flushFw (complete cmd0 0 0 base)).fwOut = [] ∧
    (let d := parseDesc (fwBytes ((fwTouch [(1, 0x12000, 128)] submitState).getD base) 1 0x12000 128)
     loadCtx.covers 0x12000 128 (fun m => m.r) = true ∧ d.done.toNat % 16 = 0 ∧
       loadCtx.covers d.done.toNat 16 (fun m => m.r && m.w && !m.window) = true) ∧
    ({ base with life := .deployed }).life = .deployed ∧ lifeStep .manufacture .provisioned .owner = true ∧
    (∀ m ∈ [56, 63], 56 ≤ m ∧ m ≤ 63) ∧ enabledDie base 8 = true ∧ (∀ p ∈ base.parts, 8 ∉ p.dies) ∧
    (∀ p ∈ base.parts, p.num ≠ 1) ∧ (∀ m, m < 1 → ∃ p ∈ base.parts, p.num = m) ∧
    (let s : State := { base with ctxs := [] }
     (s.part? 0).isSome = true ∧ ∀ x ∈ s.ctxs, x.part ≠ 0) := by decide +kernel

def mapArgs : MemArgs := { va := 0x20000, target := 0x20000, pages := 1, psize := 0, attr := 3, report := 0, rest := [] }
def unmapArgs : MemArgs := { va := 0x10000, target := 0, pages := 1, psize := 0, attr := 0, report := 0, rest := [] }

/-- MAP behind the mapped page, UNMAP and RECLASSIFY of the page, and of a range without one. -/
theorem witness_TranslationCommandsComplete : argsOk mapArgs = true ∧ mapArgs.target.toNat % pageBytes mapArgs.psize = 0 ∧
    targetOk base loadCtx (argsMapping mapArgs) 65536 = true ∧
    (∀ o ∈ loadCtx.maps, o.meets (argsMapping mapArgs).va 65536 = false) ∧ frameBusy base 0x20000 65536 = false ∧
    argsOk unmapArgs = true ∧ (∀ o ∈ loadCtx.maps, o.cut 0x10000 65536 = false) ∧
    loadCtx.maps.filterMap (fun o => o.inside 0x10000 65536) ≠ [] ∧
    loadCtx.maps.filterMap (fun o => o.inside 0x20000 65536) = [] ∧
    (drainAll (granuleIn (loadCtx.maps.filterMap (fun o => o.inside 0x10000 65536))) base).2 = true ∧
    mapFind loadCtx.maps 0x1FFFF = some page0 ∧ loadCtx.present page0 0x1FFFF = true ∧ base.tlbFind 0 .second 1 0x1FFFF = none ∧
    0 ∈ loadCtx.bind ∧ (base.part? 0).isSome = true := by decide +kernel

def ctxState (f : Ctx → Ctx) : State := { base with ctxs := [f loadCtx] }

/-- CTX_CREATE of context 2, a running context, a stopping one whose work has halted, a saved one without blocks. -/
theorem witness_ContextCommandsComplete : (base.part? 0).bind (fun p => bindTable p.dies none) = some [0] ∧
    (0x13000#64).toNat % 4096 = 0 ∧ debugOk base.life 2 = true ∧ plainCmd cmd0 = true ∧ (∀ x ∈ base.ctxs, x.num ≠ 2) ∧
    (∀ k, 1 ≤ k → k < 2 → ∃ x ∈ base.ctxs, x.num = k) ∧ loadCtx.stopping = false ∧ loadCtx.state = .running ∧
    (let s := ctxState (fun c => { c with stopping := true })
     (s.ctx? 1).isSome = true ∧ s.frozen = false ∧ haltDone (stopGroups (stopped s 1 false) s) (s.ctxGroups 1) false = true) ∧
    loadCtx.saveCmd ≠ some cmd0 ∧
    (let k := flushFw (clearSlots 1 (killCtx 1 1 base))
     k.fwOut = [] ∧ (drainAll (granuleIn loadCtx.maps) k).2 = true ∧
       (flushFw (complete cmd0 0 0 (drainAll (granuleIn loadCtx.maps) k).1)).fwOut = []) ∧
    (let s : State := { ctxState (fun c => { c with state := .saved }) with blocks := [], groups := [] }
     (s.ctxBlocks 1).filter (fun b => b.2.cores != []) = [] ∧ (fwTouch (saveRuns s []) s).isSome = true ∧ placesOk s [0] (occupied s none) [] [] = true) := by
  decide +kernel

theorem witness_KillEndsContext : base.ctx? 1 = some loadCtx ∧ loadCtx.state ≠ .killed ∧ base.group? 0 = some g0 ∧
    base.groupCtx g0 = 1 := by decide +kernel

def trappedSplit (c : Cause) : Split := { p0 with run := .trapped, cause := some c, pend := 3 }
def trappedState (c : Cause) : State := base.modGroup 0 (fun g => { g with splits := [trappedSplit c] })
def trappedGroup (c : Cause) : Group := { g0 with splits := [trappedSplit c] }

/-- A split that has trapped with PF, one that is parked for emulation, one that has called a service. -/
theorem witness_SplitsResume :
    (trappedState .pf).group? 0 = some (trappedGroup .pf) ∧ (trappedGroup .pf).split? 0 = some (trappedSplit .pf) ∧
    (trappedState .pf).ctx? cmd0.ctx = some loadCtx ∧ (trappedState .pf).groupCtx (trappedGroup .pf) = loadCtx.num ∧
    (sizeAt (trappedState .pf) (trappedGroup .pf) p0.pc).isSome = true ∧
    (trappedState .pf).inText (trappedGroup .pf) 0x10000 = true ∧
    (let g := { g0 with splits := [{ p0 with wait := .emulation 0xE0 }] }
     let s := base.modGroup 0 (fun _ => g)
     s.group? 0 = some g ∧ lanesBusy s 0 0xFFFF = false ∧ s.frozen = false ∧ onCores s g.block = true) ∧
    (let s := assignCalls (flushTraps 1 1 { result (.svc { e0 with b := 0x3FF, bU := true, lit := some 0 }) base with cycle := 1 })
     s.groups.any (fun g => g.splits.any (fun p => p.run == .trapped && p.cause == some .svc && p.wait == .service 0 0x10014) && onCores s g.block &&
       !lanesBusy s 0 0xFFFF && (((callRecord s g 0).bind (callCore s 1)).isSome)) = true) := by decide +kernel

/-! ## Launches and the schedule -/

def smallDesc : Desc := { loadDesc with vregs := 8, sregs := 16, tiles := 0, accs := 0, scratch := 0 }
def smallLaunch : Launch := { loadLaunch with desc := smallDesc }

/-- A queued launch at the head of queue 0, its context ready. -/
def queuedState (d : Desc) : State :=
  { base with
    launches := [{ loadLaunch with desc := d, phase := .queued, started := [] }], blocks := [], groups := [],
    ctxs := [{ loadCtx with queues := [{ prio := 0, ring := 0, waiting := [0] }], savePool := 0x14000, poolSize := 0x8000,
                            state := .ready }] }

/-- A launch that is refused, a parallel one, a concurrent one. -/
theorem witness_LaunchesRun_admission :
    (∀ d ∈ [smallDesc, { smallDesc with progress := 1 }, { smallDesc with gridX := 0 }],
      fwTouch (depRuns 0 (queuedState d)) (queuedState d) = some (queuedState d) ∧ pickHead (queuedState d) 0 = some (0, 1, 0, 0) ∧
      ((queuedState d).launch? 0).isSome = true ∧ ((queuedState d).ctx? 1).isSome = true ∧
      fwTouch (tableRuns 1 d (queuedState d)) (queuedState d) = some (queuedState d)) ∧
    (∀ c ∈ (queuedState smallDesc).ctxs, ∀ d ∈ [smallDesc, { smallDesc with progress := 1 }], ∀ l ∈ (queuedState d).launches,
      admissionCheck (queuedState d) c 0 d = .ok [] ∧ hasRoom (queuedState d) c [] l.desc = true) ∧
    (∀ c ∈ (queuedState smallDesc).ctxs, admissionCheck (queuedState { smallDesc with gridX := 0 }) c 0
      { smallDesc with gridX := 0 } = .error 1) := by decide +kernel

/-- An admitted launch with no block started. -/
def startState : State :=
  { queuedState smallDesc with
    launches := [{ smallLaunch with started := [] }],
    ctxs := [{ loadCtx with savePool := 0x14000, poolSize := 0x8000 }] }

/-- Its first block at the last place of a core, and the same block evicted. -/
def lastPlace : Placement :=
  { cores := [19], sbase := [16384], slots := [{ k := 63, vbase := 15872, ubase := 65472, tiles := [], accs := [] }],
    hslots := [], saveArea := 0x14080 }

/-- R40 counts tiles: two free ones far apart are room for two. -/
theorem test_scattered_tiles :
    scattered ((List.range 62).map (fun t => t + 1)) 2 = some [0, 63] ∧
    scattered ((List.range 63).map (fun t => t + 1)) 2 = none := by decide +kernel

theorem witness_LaunchesRun_start :
    (∀ c ∈ startState.ctxs, ∀ l ∈ startState.launches, mayPlace startState l c = true ∧ evictedAt startState 0 0 = none ∧
      startable l 0 = true ∧ placementOk (occupied startState none) (cohortDie c 0) l.desc 0 lastPlace = true ∧
      areaOk startState c lastPlace.saveArea.toNat (saveSize l.desc 0 0) = true) ∧
    (let b := { loadBlock with cores := [], sbase := [], saveArea := 0x10000 }
     let s : State := { startState with launches := [smallLaunch], blocks := [b], mem := [(0x10006, 1)] }
     evictedAt s 0 0 = some (0, b) ∧ saveValid s 1 b = true ∧ (fwTouch [saveRun s smallLaunch b] s).isSome = true ∧ placementOk (occupied s none) 0 smallDesc 0 lastPlace = true) := by decide +kernel

/-- The state once its work is asked to halt. -/
def stopAt (s : State) : State :=
  stopGroups (s.haltGroups (s.blockGroups 0)) (s.modBlock 0 (fun b => { b with stopped := true }))

/-- A block whose groups have retired; a weakly parallel launch that a higher one waits for, its work halted and not; a block
that migrates. -/
theorem witness_LaunchesRun_blocks :
    (let s : State := base.modGroup 0 (fun g => { g with retired := true, splits := [] })
     s.block? 0 = some loadBlock ∧ loadBlock.complete = false ∧ loadBlock.cores ≠ [] ∧ blockEnded s 0 = true) ∧
    (let weak := { smallLaunch with desc := { smallDesc with progress := 2 } }
     let c := { loadCtx with queues := [{ prio := 0, ring := 0, waiting := [] }, { prio := 1, ring := 0, waiting := [] }] }
     let high := { smallLaunch with queue := 1, started := [] }
     let s : State := { base with ctxs := [c], launches := [weak, high] }
     higherWaits s c weak = true ∧ higherWaits { s with launches := [weak] } c weak = false ∧ haltDone (stopAt s) ((stopAt s).blockGroups 0) false = true ∧
       (let s : State := { s with acc := [oneAccess .ld .hbm 0x10000] }
        haltDone (stopAt s) ((stopAt s).blockGroups 0) false = false) ∧
       mayPlace s weak c = true ∧ placementOk (occupied s (some 0)) 0 weak.desc 0 lastPlace = true ∧
       (s.block? 0).isSome = true ∧ s.launch? 0 = some weak ∧ s.ctx? 1 = some c ∧
       (0 : Nat) ≠ lastPlace.cores.getD 0 0) := by decide +kernel

def oneSplit (p : Split) : Group := { g0 with splits := [p] }
def splitState (p : Split) (cycle : Nat) : State :=
  { base.modGroup 0 (fun _ => oneSplit p) with cycle := BitVec.ofNat 64 cycle }
def joined : Split := { p0 with wait := .join, joins := [{ id := 1, addr := 0x10000, lanes := 0xFFFF }] }

/-- A join in its last cycle and after it, a split that waits and one that has stalled, a dormant one, ages 255 and 256, a YIELD
and a SLEEP before and at their ends. -/
theorem witness_SplitSchedule :
    (∀ n ∈ [1023, 1024], (splitState joined n).group? 0 = some (oneSplit joined) ∧
      ctxRuns (splitState joined n) (oneSplit joined) = true ∧ onCores (splitState joined n) 0 = true ∧
      (splitState joined n).now = n) ∧ joined.inner = some { id := 1, addr := 0x10000, lanes := 0xFFFF } ∧
    (oneSplit joined).split? 0 = some joined ∧ p0.run = .live ∧ mayTrap (splitState joined 1023) 0 = true ∧
    (let p := { p0 with wait := .orbit 3 }
     waitsOnMemory (splitState p 0) p = true ∧ waitOver (splitState p 0) (oneSplit p) p = false) ∧
    (let p := { p0 with holds := [{ op := 7, file := 0, first := 1, count := 1 }], stall := 33 }
     let s : State := { (splitState p 33).memPutBytes 0x10000 [0x04, 0x2F, 0x40, 0x00] with acc := [oneAccess .ld .hbm 0x11000] }
     s.group? 0 = some (oneSplit p) ∧ 32 < p.stall ∧ memoryHeld s (oneSplit p) p = true) ∧
    waitsOnMemory (splitState p0 0) p0 = false ∧ p0.stall ≤ 32 ∧
    (let p := { p0 with run := .dormant }
     liveCount (oneSplit p).splits < 4 ∧ wakeable (splitState p 0) (oneSplit p) p = true) ∧
    liveCount (List.replicate 4 p0) = 4 ∧ ((splitState p0 16).timeOf 0).toNat = 0 := by decide +kernel

/-- A barrier whose count is at its limit and above it. -/
def barrierState (count : Nat) : State :=
  { splitState { p0 with wait := .bar 3 } 0 with
    ctxs := [{ loadCtx with wdexp := 1 }], blocks := [{ loadBlock with barCount := [(3, count)] }] }

/-- A lane that waits on an empty line since cycle 5. -/
def emptyAccess : Access :=
  { oneAccess .lds .scratch 0 with
    waitFrom := some 5, lanes := [{ lane := 15, va := 0, addr := 0, space := .scratch, data := 0, data2 := 0, stage := .waitingEmpty }] }

/-- A drain that a read of the host started. -/
def halfDrain (stopped : List Agent) : Drain :=
  { to_ := .shared, by_ := some (.agent .host, .host, false), asked := [.core 0 0], stopped := stopped }

/-- The granule of the loaded page in a drain that one holder has not acknowledged. -/
def drainState (stopped : List Agent) : State :=
  { base with granules := [{ num := 16, cls := .private_ 0 0 true, holders := [.core 0 0],
                             drain := some (halfDrain stopped), held := [] }] }

def missing : Retry := { port := 11, ctx := 1, va := 0x20000, bytes := [1], refusals := 63, due := 4 }

theorem witness_WaitsEnd :
    (∀ n ∈ [2, 3], barrierKeeper (barrierState n) 0 3 = 0 ∧ watchdogLimit (barrierState n) 0 = 2 ∧
      (((barrierState n).block? 0).map (fun b => b.barCount.get 0 3)).getD 0 = n ∧ 0 ∈ barrierSpan (barrierState n) 0 3) ∧
    (let s (n : Nat) : State := { base with cycle := BitVec.ofNat 64 n, acc := [emptyAccess] }
     (s 0).access? 7 = some emptyAccess ∧ emptyAccess.done = false ∧ (s 0).ctx? ((s 0).groupCtx g0) = some loadCtx ∧
       (s 1048580).now < 5 + emptyLimit (s 0) 0 ∧ 5 + emptyLimit (s 0) 0 ≤ (s 1048581).now) ∧
    (let p := { p0 with wait := .replay 0x1FFFF }
     (splitState p 0).group? 0 = some (oneSplit p) ∧ (oneSplit p).split? 0 = some p ∧
       mapFind loadCtx.maps 0x1FFFF = some page0 ∧ (oneSplit p).handler = none) ∧
    (let o := { opMove with reads := [0xA00] }
     let s : State := { running o with ctxs := [{ loadCtx with maps := [{ page0 with demand := true }] }] }
     engineMiss s 0 = some (o, 0x14000)) ∧
    ((drainState []).granule 16).drain = some (halfDrain []) ∧
    (∀ h ∈ ((drainState [.core 0 0]).granule 16).holders, h ∈ [Agent.core 0 0]) ∧ quiet (drainState []) (.core 0 0) 16 = true ∧
    (11 ∉ base.portsDown ∧ missing.va.toNat % 32 + missing.bytes.length ≤ 32 ∧
      xlate base (ctxDie base 1) .second 1 0x20000 .w = .pf ∧ missing ∈ ({ base with retries := [missing] } : State).retries ∧
      xlate base (ctxDie base 1) .second 1 0x1FFFF .w = .ok .hbm 0x1FFFF ∧ reservedFor base 1 (0x1FFFF / 32) (.hbm, 0, 0x1FFFF / 128) = false ∧
      hostHolds base 0x1FFFF = false ∧ (claimNow base (.parnar 11) 0x1FFFF true).isSome = true) := by decide +kernel

def me : Nat × Nat := (0, 19)
def line9 (st : DirState) (owner : Option (Nat × Nat)) (sh aw : List (Nat × Nat)) (r : Option HomeReq) : DirLine :=
  { line := 9, st := st, owner := owner, sharers := sh, awaiting := aw, serving := r, queue := [], wbHere := false, hostHolder := true,
    snooping := true }
def dirState (d : DirLine) (l : Option L1State) : State :=
  { base with dir := [d], l1 := (l.map (fun x => { die := 0, core := 19, line := 9, st := x, cls := none, heldForward := none : L1Line })).toList }
def other : HomeReq := { die := 8, core := 0, excl := true, upgrade := false, at_ := 0, vc := 3 }

/-- The trap of a lane that waited too long, a drain at its point, and a write that is tried again from cycle 4 on: missing
its page, landing, and turned away. -/
theorem witness_WaitsEnd_more :
    (let s : State := { base with cycle := 1048581#64, acc := [emptyAccess] }
     s.group? 0 = some g0 ∧ g0.handler = none ∧ g0.split? emptyAccess.split = some p0 ∧ mayTrap s 0 = true) ∧
    mayTrap { base with ctxs := [{ loadCtx with stopping := true }] } 0 = false ∧
    (let s := drainState [.core 0 0]
     (s.granule 16).drain = some (halfDrain [.core 0 0]) ∧ (halfDrain [.core 0 0]).by_ = some (.agent .host, .host, false)) ∧
    ((drainState []).granule 16).holders = [.core 0 0] ∧
    (∀ n ∈ [3, 4], ∀ r ∈ [missing, { missing with va := 0x10000 }, { missing with refusals := 62 }],
      let s : State := { base with retries := [r], cycle := BitVec.ofNat 64 n }
      s.retries.find? (fun k => k.port == r.port && k.ctx == r.ctx && k.va == r.va && k.bytes == r.bytes &&
        k.refusals == r.refusals) = some r ∧ (s.now < r.due ↔ n = 3)) ∧
    (∀ n ∈ [3, 4], let s : State := { base with cycle := BitVec.ofNat 64 n }
      xlate s (ctxDie s 1) .second 1 0x10000 .w = .ok .hbm 0x10000 ∧ xlate s (ctxDie s 1) .second 1 0x20000 .w = .pf) ∧
    (let s : State := { base with ctxs := [{ loadCtx with maps := [{ page0 with w := false }] }] }
     xlate s (ctxDie s 1) .second 1 0x10000 .w = .prot) ∧
    (let s := dirState { line9 .i none [] [] none with line := 512 } none
     hostHolds s 0x10000 = true ∧ xlate s (ctxDie s 1) .second 1 0x10000 .w = .ok .hbm 0x10000) := by decide +kernel

/-! ## Coherence, the host and the links -/

/-- Granule 0 PRIVATE to this core. -/
def ownGranule : State :=
  { base with granules := [{ num := 0, cls := .private_ 0 19 true, holders := [.core 0 19], drain := none, held := [] }] }

/-- An idle line that nobody has, one that is shared, one that another core owns; the L1 in each of its states; a home that
waits for this core. -/
theorem witness_CoherenceMoves : base.l1Find 0 19 9 = none ∧ (base.dirLine 9).serving = none ∧ (base.dirLine 9).queue = [] ∧
    (base.dirLine 9).st = .i ∧ (base.dirLine 9).owner = none ∧ enabledCore base 0 19 = true ∧
    enabledDie base (homeDie (128 * 9)) = true ∧ roomFor base 0 19 9 = true ∧
    (let s := dirState (line9 .s none [me, (8, 0)] [] none) (some .s)
     l1State s 0 19 9 = some .s ∧ (s.dirLine 9).sharers = [me, (8, 0)] ∧ (s.dirLine 9).serving = none) ∧
    ((dirState (line9 .em (some (8, 0)) [] [] none) none).dirLine 9).owner = some (8, 0) ∧
    (∀ x ∈ [L1State.m, .e, .mi, .im, .sm], let s := dirState (line9 .fw (some me) [] [me] (some other)) (some x)
      l1State s 0 19 9 = some x ∧ (s.dirLine 9).serving = some other ∧ (s.dirLine 9).owner = some me ∧
        (s.dirLine 9).awaiting = [me]) ∧
    l1State (dirState (line9 .fw (some me) [] [me] (some other)) none) 0 19 9 = none ∧
    (dirState (line9 .em (some me) [] [] none) (some .im)).l1Find 0 19 9 = some ⟨0, 19, 9, .im, none, none⟩ ∧
    hostHolds (dirState (line9 .i none [] [] none) none) (128 * 9) = true ∧
    ((dirState (line9 .i none [] [] none) none).dirLine 9).snooping = true := by decide +kernel

/-- A granule PRIVATE to the core, a request that has just come and one of a cycle before, a write-back that crosses. -/
theorem witness_CoherenceMoves_more :
    (privateTo ownGranule 9 = some me ∧ privateTo base 9 = none ∧ some me ≠ some (8, 0) ∧
       l1State { ownGranule with l1 := [⟨0, 19, 9, .o, none, none⟩] } 0 19 9 = some .o) ∧
    (∀ n ∈ [0, 1], let s : State := { dirState { line9 .i none [] [] none with queue := [other] } none with cycle := BitVec.ofNat 64 n }
      (s.dirLine 9).queue = [other] ∧ (s.dirLine 9).serving = none ∧ (s.now ≤ other.at_ ↔ n = 0)) ∧
    (∀ b ∈ [true, false], ∀ d ∈ [DirState.fw, .wbf],
      let s := dirState { line9 d (some me) [] [me] (some other) with wbHere := b } (some .mi)
      (s.dirLine 9).wbHere = b ∧ (s.dirLine 9).st = d ∧ l1State s 0 19 9 = some .mi ∧ (s.dirLine 9).awaiting = [me]) ∧
    (let s := dirState (line9 .fw (some me) [] [me] (some other)) none
     pendingAt { s with l1 := [⟨0, 19, 9, .m, none, some (8, 0)⟩] } 0 19 9 = false ∧ other.excl = true) ∧
    (let s := dirState (line9 .iv none [me] [me] (some other)) (some .sm)
     me ∈ (s.dirLine 9).awaiting ∧ (s.dirLine 9).owner ≠ some me ∧ l1State s 0 19 9 = some .sm) ∧
    (let s := dirState (line9 .em (some me) [] [] none) (some .mi)
     l1State s 0 19 9 = some .mi ∧ (s.dirLine 9).owner = some me ∧ (s.dirLine 9).queue = []) := by
  decide +kernel

/-- A host access of the last byte of a granule, a copy held, a debugger address inside and outside the allocations, a link
that the partition uses and one that it does not, a held slot, a collective. -/
def coll0 : Coll :=
  { session := 9, k := 0, kind := 0, mode := 0, op := 0, ty := .s32, rm := .rne, ndev := 2, rank := 0, e := 1, a := 0,
    ports := [0xFF, 11], step := 0, acc := [], localDone := false, sent := false, reduced := false, params := [], peersDone := [], inbox := [],
    dst := [], remote := [], remoteDone := [] }
def opColl : EngineOp := { op0 with kind := .coll, coll := some coll0 }

theorem witness_OutsideEvents :
    (hostPlace base 0x10FFF 1 false).isSome = true ∧ (hostPlace base 0x10FFF 1 true).isSome = true ∧
    hostHolds (dirState (line9 .i none [] [] none) none) 1152 = true ∧ windowOwner base windowBase = some 1 ∧
    windowOwner base (windowBase + 2 ^ 40) = none ∧ usesLink base { num := 0, dies := [0], weights := [] } (.bridge 0 9 .data0) = true ∧
    usesLink base { num := 0, dies := [0], weights := [] } (.port 11) = false ∧ base.ctx? 1 = some loadCtx ∧
    (let s : State := { base with slots := [(2047, { payload := [], key := 0, tag := 1, held := true })] }
     (s.slot 2047).held = true ∧ s.ctx? (s.slot 2047).tag.toNat = some loadCtx ∧ ∃ x ∈ s.slots, x.2.held = true ∧ x.2.tag.toNat = 1) ∧
    linkExists (.port 11) = true ∧ linkExists (.port 12) = false ∧ linkExists (.bridge 0 5 .data0) = false ∧
    linkExists (.bridge 0 1 .data0) = true ∧ (hostPlace base 0x10FF8 8 true).isSome = true ∧
    (hostPlace (dirState (line9 .i none [] [] none) none) 1152 1 true).isSome = true ∧ loadCtx ∈ base.ctxs ∧
    (∀ d ∈ base.ctxs, d.num = loadCtx.num → d = loadCtx) ∧ loadCtx.state ≠ .killed ∧
    collOp? base 9 0 = none ∧ collSeen base 9 0 = false ∧ opColl.fault = none ∧
    collOver opColl = false ∧ collOp? (running opColl) 9 0 = some (opColl, coll0) ∧ ∃ r ∈ [1], coll0.ports.getD r 0xFF = 11 := by decide +kernel

def iface (t : Tdisp) : State := { base with ifaces := [{ Iface.fresh 1 with tdisp := t, session := true }] }

/-- An interface in each state, a call in progress, a recovery, a sag, a clock with a master and without. -/
theorem witness_SecurityRecoveryTime :
    (∀ t ∈ [Tdisp.unlocked, .locked, .run], (iface t).ifaces.find? (fun i => i.fn == 1) =
      some { Iface.fresh 1 with tdisp := t, session := true }) ∧ loadCtx.part = 1 - 1 ∧
    (let c := { loadCtx with svclog := [some 4] }
     (ctxState (fun _ => c)).ctx? c.num = some c ∧ c.svclog.getD 0 none = some 4 ∧ c.svclog.getD 1 none = none) ∧
    ({ base with frozen := true } : State).frozen = true ∧
    ({ base with ptp := some (0, 2, true) } : State).ptp = some (0, 2, true) ∧ base.ptp = none ∧
    (let s : State := { iface .error with scrubbing := [1] }
     1 ∈ s.scrubbing ∧ s.fwOut = [] ∧ s.ifaces.find? (fun i => i.fn == 1) = some { Iface.fresh 1 with tdisp := .error, session := true }) ∧
    base.life ≠ .returned ∧ ({ base with life := .deployed } : State).life ≠ .manufacture ∧ 1 ∉ base.scrubbing ∧
    8 ∈ ({ base with sag := [8] } : State).sag := by decide +kernel

/-! ## The step -/

def nops : State := loadWords [0x6000_0F1C#32] State.reset

/-- A NOP that issues, and one whose quarter is busy. -/
theorem witness_StepRunsDecoded : nops.group? 0 = some g0 ∧ g0.split? 0 = some p0 ∧ nops.agenda = [.issue 0 0] ∧
    (nops.groupCtx? g0).isSome = true ∧ mayIssue { nops with agenda := [] } 0 g0 p0 = true ∧
    fetchInstr { nops with agenda := [] } g0 p0.pc = .instr (.nop pT) 4 ∧
    (match exec (.nop pT) { nops with agenda := [], curG := 0, curS := 0 } with
     | .next _ => true
     | _ => false) = true ∧
    nops.up = true ∧ (match exec (.nop pT) { ageQuarter 0 0 g0 { nops with agenda := [] } with curG := 0, curS := 0 } with
     | .next _ => true
     | _ => false) = true ∧ inTextRun nops g0 0x20000 4 = false ∧
    mayIssue { nops with agenda := [], busy := [(0, 1)] } 0 g0 p0 = false ∧
    inTextRun nops g0 p0.pc (4 * (encode (.nop pT)).length) = true ∧ fetchWord nops g0 p0.pc .x = .word 0x6000_0F1C ∧
    (match decode [0x0000_0F38#32] with
     | .error _ => true
     | _ => false) = true ∧ wordCount (lenOf 0x0000_0F38#32) = 1 ∧
    xlate nops 0 g0.lanesTlb 1 0x10000 .x = .ok .hbm 0x10000 ∧ nops.icacheFind 0 0 (0x10000 / 32) = none := by decide +kernel

theorem witness_StepKeepsMemory : nops.Inv ∧ (match step nops with
    | .next _ => true
    | _ => false) = true := by unfold State.Inv; decide +kernel

/-! ## Code objects -/

/-- The BRX, the MOVI and the BRA of the image of sel4 (R96) stand at words 0, 5 and 6, and the BRX has the one literal. -/
theorem test_text_sweep :
    (sweepText [0x0100_0F73#32, 0x000F_FC04#32, 0x0002_0000#32, 0x0000_3FF8#32, 0#32, 0x0C80_AF0C#32, 0x0000_CF10#32] 7 0).map
      (fun x => (x.1, x.2.1)) = [(0, 3), (5, 0), (6, 0)] := by decide +kernel

/-! ## Further forms of the statements -/

/-- A register's lane that the lane's guard does not read: v0 of lane 3 is 1. -/
def gIdx : Group := g0.vset 0 3 1

/-- A table at no multiple of 8, one whose header has a high bit set, and an index behind the last entry. -/
theorem witness_BrxBranchesByTable_faults :
    let x : Ext := { e0 with lit := some 0 }
    let odd : Ext := { e0 with lit := some 1 }
    Executes base g0 p0 (.brx odd) ∧ guardLanes g0 p0 pT &&& ~~~g0.helpers ≠ 0 ∧ (p0.pc + 4).toNat % 8 ≠ 0 ∧
    (let s := loadWords [0x0001_0000] State.reset
     Executes s g0 p0 (.brx x) ∧ fetchWord s g0 p0.pc .r = .word 0x0001_0000 ∧ fetchWord s g0 (p0.pc + 4) .r = .word 0) ∧
    (let s := base.modGroup 0 (fun _ => gIdx)
     Executes s gIdx p0 (.brx x) ∧ (0 : Word).toNat < ((opA gIdx x false 3).extractLsb' 0 32).toNat ∧
       fetchWord s gIdx p0.pc .r = .word 0 ∧ fetchWord s gIdx (p0.pc + 4) .r = .word 0 ∧
       ∀ L, L < 16 → ((opA gIdx x false L).extractLsb' 0 32).toNat ≤ 0 →
         fetchWord s gIdx (p0.pc + 8 + 4 * (0#32 ++ (opA gIdx x false L).extractLsb' 0 32)) .r = .word 0) := by
  unfold Executes; decide +kernel

def gFault : Group := { g0 with faults := [someFault] }
def retiring : Split := { p0 with wait := .retire }

/-- A pending fault at the last EXIT with the counters zero, and a split that has waited there for its counters with an armed flag
set. -/
theorem witness_ExitEndsLanes_faults :
    Executes (base.modGroup 0 (fun _ => gFault)) gFault p0 (.exit pT) ∧ gFault.faults = someFault :: [] ∧ someFault.mmag = none ∧
    gFault.present &&& ~~~gFault.helpers &&& ~~~gFault.ended &&& ~~~guardLanes gFault p0 pT = 0 ∧
    gFault.inflight.foldl (fun f m => f ||| m.bits) gFault.flags &&& gFault.arm = 0 ∧
    (let g := { withArm 1 with splits := [retiring] }
     Executes (base.modGroup 0 (fun _ => g)) g retiring (.exit pT) ∧ retiring.wait = .retire ∧ guardLanes g retiring pT ≠ 0) := by
  unfold Executes; decide +kernel

/-- A handler whose store is outstanding, one with a fault, one of two splits. -/
theorem witness_HendEndsHandler_waits :
    (let g := { gHandler with cntS := 1 }
     Executes (base.modGroup 0 (fun _ => g)) g p0 .hend ∧ g.handler = some ⟨0, 1, 5, 0⟩ ∧ ¬(g.cntL = 0 ∧ g.cntS = 0 ∧ g.cntC = 0)) ∧
    (let g := { gHandler with faults := [someFault] }
     Executes (base.modGroup 0 (fun _ => g)) g p0 .hend ∧ g.handler = some ⟨0, 1, 5, 0⟩ ∧ g.faults = someFault :: []) ∧
    (let p := { p0 with mask := 0xFF }
     let g := { gHandler with splits := [p, { p0 with idx := 1, mask := 0xFF00 }] }
     Executes (base.modGroup 0 (fun _ => g)) g p .hend ∧ p.pend = 0 ∧ g.faults = [] ∧ (g.cntL = 0 ∧ g.cntS = 0 ∧ g.cntC = 0) ∧
       ∃ q ∈ g.splits, q.mask &&& ~~~p.mask ≠ 0) := by unfold Executes; decide +kernel

/-- The last burst of a request whose issuer is group 1. -/
def lastBurst : State := { running { opLdh with
  group := 1, bursts := opLdh.bursts.map (fun b => { b with born := true }), sresv := [0], swrites := [0] } with groups := [gHandler, g0] }

theorem witness_HendEndsHandler_last : Executes lastBurst gHandler p0 .hend ∧ gHandler.splits = [p0] ∧ p0.pend = 0 ∧
    gHandler.faults = [] ∧ (1 : Nat) ≠ lastBurst.curG ∧ (∀ o ∈ lastBurst.engines, lastBurst.engine? 5 = some o ∧ o.group = 1 ∧
      o.kind = .ldh 0 7 0x10000 ∧ o.fault = none ∧ o.readAll = true ∧ (lastBurst.block? o.block).isSome = true ∧
      (∀ c ∈ o.bursts, c.born = true ∧ (c.seq = 0 ∨ c.ended = true)) ∧ (∀ c ∈ o.bursts, c.fault = none) ∧
      (∃ b ∈ o.bursts, b.seq = 0) ∧ o.bursts.length < 2 ^ 32) ∧
    (∀ x, lastBurst.group? 1 = some x → x.handler = none) ∧ (∀ a ∈ lastBurst.acc, a.done = true) ∧ lastBurst.orbitOps = [] := by
  unfold Executes; decide +kernel

/-- An instruction whose E is empty, one whose lanes are helpers, and lanes that have not ended. -/
theorem witness_AccessesIssue_empty : guardLanes g0 p0 pT &&& g0.ended = 0 ∧ realLanes g0 p0 never = 0 ∧ guardLanes g0 p0 never = 0 ∧
    (let x : Ext := { e0 with guard := never }
     (∀ i ∈ [Instr.ld x, .st x, .lds x, .sts x, .ldx x, .atom x, .atoms x, .sempty x, .sfill x, .sfe x, .ldu x, .evsig x, .evwait x],
       Executes base g0 p0 i)) ∧
    (let g := { g0 with helpers := 0xFFFF }
     Executes (base.modGroup 0 (fun _ => g)) g p0 (.ldu xPage) ∧ realLanes g p0 pT = 0 ∧ guardLanes g p0 pT ≠ 0 ∧
       g.retired = false) := by unfold Executes; decide +kernel

/-- A store, an atomic and an event signal in host memory, and a load whose lane has ended. -/
theorem witness_AccessesPerform_host :
    Performing (accessing .st .host 0x10FFC) 7 15 (oneAccess .st .host 0x10FFC) (lane15 .host 0x10FFC) g0 ∧ 0x10FFC % 4096 + 4 ≤ 4096 ∧
    (∀ op ∈ [0, 6, 7], Performing (accessing (.atom op) .host 0x10FFC) 7 15 (oneAccess (.atom op) .host 0x10FFC)
      (lane15 .host 0x10FFC) g0) ∧ g0.ended.getLsbD 15 = false ∧
    (let g := { g0 with ended := 0x8000 }
     Performing { accessing .ld .hbm 0x10000 with groups := [g] } 7 15 (oneAccess .ld .hbm 0x10000) (lane15 .hbm 0x10000) g ∧
       g.ended.getLsbD 15 = true ∧ g.present.getLsbD 15 = true) ∧
    (let g := { g0 with splits := [{ p0 with wait := .access 7 }] }
     let l := lane15 .host 0x10FF8
     let a := { oneAccess .evsig .host 0x10FF8 with bytes := 8 }
     Performing { base with acc := [a], groups := [g] } 7 15 a l g ∧ (g.split? a.split).isSome = true ∧
       (g.splits.map (fun q => q.idx)).Nodup ∧ 0x10FF8 % 4096 + 8 ≤ 4096) := by unfold Performing; decide +kernel

/-- The first record lies on a line that an operation of another group reserves, and on a demand page that is absent: the copy
waits, and is replayed. -/
theorem witness_CPY_waits :
    (let s : State := { line128 with engines := [{ op0 with resv := [0x12000 / 32 / 4] }] }
     Executes s gEngine p0 (.cpy xCpy) ∧ (match cpyIn xCpy (issueOf s gEngine p0 (.cpy xCpy) pT) s with
       | .stall none => true
       | _ => false) = true) ∧
    (let s : State := { line128 with ctxs := [{ loadCtx with maps := loadCtx.maps.map (fun m => { m with demand := true }) }] }
     Executes s gEngine p0 (.cpy xCpy) ∧ (match cpyIn xCpy (issueOf s gEngine p0 (.cpy xCpy) pT) s with
       | .park va => va == 0x12000
       | _ => false) = true) ∧
    guardLanes gEngine p0 pT ≠ 0 ∧ p0.mask &&& ~~~gEngine.helpers ≠ 0 := by unfold Executes; decide +kernel

/-- COLL, TLD of 32 doubles and LDH whose work is done; of LDH with a burst that has faulted; and a split that waits at an LDS for a
line that a faulted operation has reserved. -/
def opTld : EngineOp := { op0 with kind := .tld 15, moves := [{ src := .fill 5, dst := .tile 0, ws := 32, wd := 32 }] }
def opDone : EngineOp := { opLdh with bursts := opLdh.bursts.map (fun b => { b with born := true, ended := true }) }
def opFaulty : EngineOp := { opDone with bursts := opDone.bursts.map (fun b => { b with fault := some (.trap, 3) }) }
def emptyLds : Access := { oneAccess .lds .scratch 0 with lanes := [{ lane15 .scratch 0 with stage := .waitingEmpty }] }
def ldsWaits : State :=
  let o := { op0 with fault := some (.pf, 0x20000), sresv := [0] }
  { running o with groups := [{ g0 with splits := [{ p0 with wait := .access 7 }] }], acc := [emptyLds] }

theorem witness_EngineOperationsEnd_more :
    (running opTld).engine? 5 = some opTld ∧ engineLive (running opTld) opTld = true ∧ opTld.readAll = true ∧
    tldHeld (running opTld) opTld 15 = false ∧ (32 : Nat) ∣ 32 ∧ (∀ r ∈ opTld.moves, r.wd = 32) ∧
    (let o := { opColl with coll := some { coll0 with reduced := true, remote := [4], remoteDone := [4] } }
     engineLive (running o) o = true ∧ o.writable = true ∧ o.readAll = true ∧ ∀ c, o.coll = some c → ∀ v ∈ c.remote, v ∈ c.remoteDone) ∧
    (∀ o ∈ [opDone, opFaulty], (running o).engine? 5 = some o ∧ engineLive (running o) o = true ∧ o.readAll = true ∧
      o.handled (running o) = true ∧ o.swritesDone = [] ∧ ((running o).block? o.block).isSome = true ∧
      (∀ a ∈ (running o).acc, ∀ l ∈ a.lanes, l.stage ≠ .waitingEmpty) ∧ (∀ q ∈ (running o).engines, q.emptySince = []) ∧
      ∀ m ∈ (running o).matq, m.emptySince = []) ∧
    (∀ b ∈ opDone.bursts, b.fault = none) ∧
    (∃ b ∈ opFaulty.bursts, b.fault = some (.trap, 3) ∧ b.seq < 2 ^ 32 ∧
      ∀ d ∈ opFaulty.bursts, d.fault.isSome = true → d = b ∨ b.seq < d.seq) := by decide +kernel

theorem witness_EngineOperationsEnd_user :
    (∀ o ∈ ldsWaits.engines, ldsWaits.engine? 5 = some o ∧ engineLive ldsWaits o = true ∧
      engineFaultOf ldsWaits o = some (.pf, 0x20000) ∧
      ∀ a ∈ ldsWaits.acc, a.group = o.group ∧ ∃ l ∈ a.lanes, l.stage = .waitingEmpty ∧ l.addr / 128 ∈ o.sresv) ∧
    emptyLds ∈ ldsWaits.acc ∧ (∀ b ∈ ldsWaits.acc, b = emptyLds) ∧
    (∀ g ∈ ldsWaits.groups, ldsWaits.group? 0 = some g ∧ (∃ q ∈ g.splits, q.wait = .access emptyLds.id) ∧ g.handler = none ∧
      (g.splits.map (fun r => r.idx)).Nodup) ∧ mayTrap ldsWaits 0 = true ∧
    (∃ o ∈ (running { op0 with fault := some (.pf, 0x20000) }).engines,
      engineFaultOf (running { op0 with fault := some (.pf, 0x20000) }) o = some (.pf, 0x20000)) := by decide +kernel

/-- A swizzled line, a part of each exported type, sums inside INT32, and terms of each special kind. -/
theorem witness_MatrixEntriesRun_values :
    (List.replicate 128 (0#8 : Byte)).length = 128 ∧
    (∀ ty ∈ [Ty.bf16x2, .f16x2, .e4m3x4, .e5m2x4, .e2m1x8, .s8x4, .u8x4], 8 * (tyShape ty).1 * (0 + 1) ≤ 128) ∧
    (∀ n, n ≤ 128 → let v := (0x7FFF_FFFF#32 : Word).toInt + ((List.range n).map (fun k =>
      intOf true 8 (rowElem 8 0 k) * intOf false 8 (rowElem 8 255 k))).sum
     (-(2 ^ 31) ≤ v ∧ v < 2 ^ 31)) ∧
    (∃ t ∈ [(Val.nan true, Val.inf false)], t.1.isNan = true ∧ t.1.isSig = true) ∧ (mulV (.inf true) (zero false)).2 = true ∧
    (mulV (.inf true) (.inf true)).1 = .inf false ∧ (mulV (.inf true) (.inf false)).1 = .inf true := by decide +kernel

/-- A record of a command with CTX 0 at a bus address, STATUS 0 and VALUE 5. -/
theorem test_completion_record_host : ((List.range 16).map (fun k =>
    (flushFw (complete { cmd0 with ctx := 0 } 0 5 { base with atc := [(0x1C, 0x40)] })).hostGet (0x1C000 + k))) = [7, 0, 0, 0, 0, 0, 0, 0, 5, 0, 0, 0, 0, 0, 0, 0] := by
  decide +kernel

/-- A reclassification of a 4 KiB granule inside the page, and an invalidation of the host's addresses. -/
theorem witness_TranslationCommandsComplete_more :
    (drainAll (granuleIn (loadCtx.maps.filterMap (fun o => o.insideFine 0x10000 65536))) base).2 = true ∧
    (∃ p ∈ base.parts, base.part? p.num = some p ∧ p.dies ≠ []) ∧ (0 : Nat) ∈ loadCtx.bind := by decide +kernel

/-- A context without credits on their way, one whose record waits for a line that another context's operation reserves, and one
that is restored on the dies of another partition. -/
theorem witness_ContextCommandsComplete_more :
    (let s := ctxState (fun c => { c with stopping := true })
     creditsFly (stopGroups (stopped s 1 false) s) 1 = false) ∧
    (let s : State := { base with
       ctxs := [{ loadCtx with trapq := 0x11000 }, { loadCtx with num := 2 }], engines := [{ op0 with ctx := 2, group := 9, resv := [0x11000 / 128] }] }
     (flushFw (clearSlots 1 (killCtx 1 1 s))).fwOut ≠ []) ∧
    (let s : State := { ctxState (fun c => { c with state := .saved }) with
       blocks := [], groups := [], parts := base.parts ++ [{ num := 1, dies := [1], weights := [2, 2, 1, 4] }] }
     (s.part? 1).bind (fun p => bindTable p.dies none) = some [1] ∧ [1].length = loadCtx.bind.length ∧
       framesFree s (loadCtx.maps.flatMap (Mapping.moved loadCtx.bind [1])) = true ∧
       placesOk s [1] (occupied s none) [] [] = true ∧
       ∀ x ∈ s.ctxs, (fwTouch (saveRuns s []) s).isSome = true) := by decide +kernel

/-- A group of few registers whose split has trapped with PF, and its block off its core, with the split's entry of section 3 in its
save area, which the last mapped lines hold up to there: PC 0x10000, MASK 0xFFFF, PEND 3, TRAPPED, PF (R239). -/
def gSmall : Group := { g0 with nv := 8, ns := 16, nt := 0, na := 0, splits := [trappedSplit .pf] }
def evictedState : State :=
  { base with
    launches := [smallLaunch], blocks := [{ loadBlock with saveArea := 0x1FA80, cores := [], sbase := [] }], groups := [gSmall],
    mem := [(0x1FF82, 1), (0x1FF88, 0xFF), (0x1FF89, 0xFF), (0x1FF8A, 3), (0x1FF8D, 3), (0x1FF8E, 5)],
    granules := [{ num := 31, cls := .readonly, holders := [.firmware], drain := none, held := [] }] }

def savedBlock : Block := { loadBlock with saveArea := 0x1FA80, cores := [], sbase := [] }

/-- A trapped split of a block that is off the cores, and what its save area gives. -/
theorem witness_SplitsResume_saved :
    evictedState.group? 0 = some gSmall ∧ gSmall.retired = false ∧ onCores evictedState gSmall.block = false ∧ gSmall.block = 0 ∧
    evictedState.block? 0 = some savedBlock ∧ (fwTouch (saveRuns evictedState [(0, savedBlock)]) evictedState).isSome = true := by decide +kernel
theorem witness_SplitsResume_read :
    ∃ h ∈ (readSave 0 evictedState).groups, (readSave 0 evictedState).group? 0 = some h ∧ (readSave 0 evictedState).groupCtx h = 1 ∧
      recordWaits (readSave 0 evictedState) h 0 = false ∧
      ∃ q ∈ h.splits, h.split? 0 = some q ∧ q.run = .trapped ∧ q.cause ≠ some .svc := by decide +kernel

def waitingRecord : State :=
  { trappedState .pf with
    ctxs := [{ loadCtx with traps := [{ splitlessRecord .pf 0 0 with split := 0, group := 0, block := 0 }] }] }

/-- A split whose record stands in the ring, one whose record is not there yet, an emulation with an empty E, and one
with a first access. -/
theorem witness_SplitsResume_more :
    recordWaits (trappedState .pf) (trappedGroup .pf) 0 = false ∧ recordWaits waitingRecord (trappedGroup .pf) 0 = true ∧
    (let g := { g0 with splits := [{ p0 with wait := .emulation 0x1FE0 }] }
     inFlight (base.modGroup 0 (fun _ => g)) 0 = false) ∧
    guardLanes g0 p0 (guardOf 0x1FE0) = 0 ∧ guardLanes g0 p0 (guardOf 0x0FE0) ≠ 0 := by decide +kernel

/-- A barrier whose waiters stand in a context that stops, and one whose waiters may trap. -/
theorem witness_WaitsEnd_barriers :
    (∀ w ∈ barrierWaiters (barrierState 3) 0 3, mayTrap (barrierState 3) w.1 = true) ∧ barrierWaiters (barrierState 3) 0 3 = [(0, 0)] ∧
    (let s : State := { barrierState 3 with ctxs := [{ loadCtx with wdexp := 1, stopping := true }] }
     ∃ w ∈ barrierWaiters s 0 3, mayTrap s w.1 = false) := by decide +kernel

/-- A store of this core to a granule that is PRIVATE to another one, which no drain serves yet. -/
theorem witness_WaitsEnd_goal :
    let s : State := { accessing .st .hbm 0x10000 with
      granules := [{ num := 16, cls := .private_ 0 5 true, holders := [.core 0 5], drain := none, held := [] }] }
    (s.granule 16).drain = none ∧ (drainGoal s 16).isSome = true ∧ Agent.core 0 5 ∈ (s.granule 16).holders := by decide +kernel

/-- A host write that the device takes and that waits for a line, one that it does not take; a window word whose line an operation
reserves, and the same word without it. -/
theorem witness_OutsideEvents_waits :
    (let s : State := running { op0 with resv := [0x10F80 / 128] }
     hostPlace s 0x10FFF 1 true = none ∧ hostValid s 0x10FFF 1 true = true) ∧
    (hostPlace base 0x10FFF 2 true = none ∧ hostValid base 0x10FFF 2 true = false) ∧ windowBase % 4 = 0 ∧
    windowOwner base windowBase = some 1 ∧ windowReserved base 1 windowBase 4 = false ∧ streamHolds base 1 windowBase 4 = false ∧
    (let s : State := running { op0 with sresv := [0] }
     windowOwner s (windowBase + 0x800000) = some 1 ∧ windowReserved s 1 (windowBase + 0x800000) 4 = true) ∧
    linkExists (.bridge 0 2 .data0) = false := by decide +kernel

/-- A peer's other parameters, and an operation in a session that this device has and has not begun. -/
theorem witness_OutsideEvents_peers :
    ¬ ((1 : Nat) = coll0.kind ∧ (0 : Nat) = coll0.mode ∧ (0 : Nat) = coll0.op) ∧ (running opColl).engine? opColl.id = some opColl ∧
    collSeen { base with collCount := [(1, 0x13010, 9, 1)] } 9 0 = true ∧ coll0.partners = [1] := by decide +kernel

/-- An interface with fewer than 16 selective streams and with 16, splits in a YIELD and a SLEEP, and a recovery that has not
begun. -/
theorem witness_SecurityRecoveryTime_more :
    ((iface .run).ifaces.flatMap (fun j => j.streams)).length < 16 ∧
    (let s : State := { base with ifaces := [{ Iface.fresh 1 with session := true, streams := List.range 16 }] }
     16 ≤ (s.ifaces.flatMap (fun j => j.streams)).length) ∧
    (∀ w ∈ [Wait.yield 17, .sleep 5 0x10010], (splitState { p0 with wait := w } 0).group? 0 = some (oneSplit { p0 with wait := w }) ∧
      (oneSplit { p0 with wait := w }).split? 0 = some { p0 with wait := w } ∧ (oneSplit p0).retired = false ∧ (oneSplit p0).handler = none) ∧
    base.frozen = false := by decide +kernel

/-! ## Clauses that the statements add -/

/-- A branch of a target behind .text, and one of a join address there. -/
def farTarget : Ext := { e0 with ty := .u32, lit := some 0x0000_0000_0000_2000 }
def farJoin : Ext := { e0 with ty := .u32, lit := some 0x0000_2000_0000_0008 }

/-- Targets outside .text: of a BRA with join and of a BRDEC whose counters go on, of an entry of a BRX, of CALL, CALLX and RET. -/
theorem witness_branches_outside_text :
    (∀ x ∈ [farTarget, farJoin], Executes base g0 p0 (.braJoin x) ∧ Executes base g0 p0 (.brdec x)) ∧
    base.inText g0 (p0.pc + 0x8000) = false ∧ base.inText g0 (p0.pc + 32) = true ∧ p0.mask &&& ~~~g0.helpers ≠ 0 ∧
    maskOf (fun L => (guardLanes g0 p0 pT).getLsbD L && ((opD g0 farTarget false L).extractLsb' 0 32 - 1 != 0)) &&& ~~~g0.helpers ≠ 0 ∧
    (let s := loadWords [0, 0, 0x2000] State.reset
     let x : Ext := { e0 with lit := some 0 }
     Executes s g0 p0 (.brx x) ∧ fetchWord s g0 (p0.pc + 8) .r = .word 0x2000 ∧ s.inText g0 (p0.pc + 0x8000) = false) ∧
    Executes (deepBase 31) (deepGroup 31) (deep 31) (.call pT 0x2000) ∧ (deepBase 31).inText (deepGroup 31) (p0.pc + 0x8000) = false ∧
    (∀ L, L < 16 → (deepBase 31).inText (deepGroup 31) (opA (deepGroup 31) { e0 with aU := true, ty := .u64 } true L) = false) ∧
    (let g := { deepGroup 1 with rets := List.replicate 16 [0x18000#64] }
     let s := base.modGroup 0 (fun _ => g)
     Executes s g (deep 1) (.ret pT) ∧ ∀ L, L < 16 → s.inText g ((g.rets.getD L []).headD 0) = false) := by
  unfold Executes; decide +kernel

/-- EXIT with an armed flag, and of a handler; the last cohort barrier with all its splits, and with one that has not come. -/
theorem witness_exit_and_cohort :
    Executes (base.modGroup 0 (fun _ => withArm 1)) (withArm 1) p0 (.exit pT) ∧ p0.wait ≠ .retire ∧ (withArm 1).faults = [] ∧
    (withArm 1).inflight = [] ∧ Executes (base.modGroup 0 (fun _ => withHandler)) withHandler p0 (.exit pT) ∧
    withHandler.handler.isSome = true ∧
    (∀ p ∈ [{ p0 with wait := .cbar 3 }, p0], (base.modGroup 0 (fun _ => oneSplit p)).groups = [oneSplit p] ∧
      (oneSplit p).block = 0 ∧ (oneSplit p).retired = false ∧ (oneSplit p).handler = none ∧
      (waitsAt 19 p = true ↔ p.wait = .cbar 3)) ∧ (base.block? 0).isSome = true := by unfold Executes; decide +kernel

/-- A copy whose record lies in no mapping, a queue that no short budget holds back, a pending operation of a group that stands, a
line that no fault covers, and a row of MMAG that is the lowest outside. -/
theorem witness_engine_matrix_clauses :
    (let g := gEngine.uset 4 0x20000
     let s := base.modGroup 0 (fun _ => g)
     Executes s g p0 (.cpy xCpy) ∧ (match cpyIn xCpy (issueOf s g p0 (.cpy xCpy) pT) s with
       | .trap .pf a => a == 0x20000
       | _ => false) = true) ∧
    budgetDelays base 0 0 = false ∧ g0.retired = false ∧ (∀ f ∈ g0.faults, 0 ∉ f.lines) ∧
    (let rows := (rowsOf (realLanes g0 p0 pT)).map (fun i => (i, gatherIdx (List.replicate 48 (8 : Word)) i))
     ∃ r ∈ rows, 1024 ≤ r.2 * 128 ∧ ∀ q ∈ rows, 1024 ≤ q.2 * 128 → r.2 ≤ q.2) := by unfold Executes; decide +kernel

/-- A channel instruction of a helper, in a split with other lanes. -/
theorem witness_channel_helpers :
    let g := { withP1 with helpers := 3 }
    Executes (base.modGroup 0 (fun _ => g)) g p0 (.chrecv { e0 with guard := ⟨false, 1⟩ }) ∧ guardLanes g p0 ⟨false, 1⟩ ≠ 0 ∧
      realLanes g p0 ⟨false, 1⟩ = 0 ∧ p0.mask &&& ~~~g.helpers ≠ 0 := by unfold Executes; decide +kernel

/-- A die with a free frame, one that a mapping covers whole, a stop that is withdrawn, and a window word of a lane that has not
acted yet. -/
theorem witness_frames_stops_streams :
    (freeFrame base [0]).isSome = true ∧
    freeFrame (ctxState (fun c => { c with maps := [{ page0 with target := 0, pages := 2 ^ 21 }] })) [0] = none ∧
    (let weak := { smallLaunch with desc := { smallDesc with progress := 2 } }
     let s : State := { base with launches := [weak], blocks := [{ loadBlock with stopped := true }] }
     higherWaits s loadCtx weak = false ∧ s.block? 0 = some { loadBlock with stopped := true } ∧ s.ctx? 1 = some loadCtx) ∧
    (match step (loadWords (encode (.gscan (abc 3 0 0 0 .f32))) State.reset) with
     | .next s => windowOwner s (windowBase + 252) == some 1 && streamHolds s 1 (windowBase + 252) 4
     | _ => false) = true := by decide +kernel

end Sys2Proof.Tests
end

section
namespace Sys2Proof.Machine
open Sys2Proof

/-! ## FLAGS and VDHOP (O19) -/

theorem execFlags_executes {x : Ext} {s : State} {g : Group} {p : Split} (h : Executes s g p (.flags x)) :
    execFlags x s = .next (advance (issueOf s g p (.flags x) x.guard)
      (if guardLanes g p x.guard = 0 then s else s.modGroup s.curG (fun g' =>
        { g'.mergeAll with flags := g'.mergeAll.flags &&& ~~~((opB g x false 0).extractLsb' 0 6) }.uset x.d.toNat
          (0#26 ++ g'.mergeAll.flags)))) :=
  runInstr_executes _ _ h

/-- The merge leaves no flag in flight. -/
theorem mergeAll_inflight_bits (g : Group) : ∀ m ∈ g.mergeAll.inflight, m.bits = 0 := by
  intro m hm
  obtain ⟨m', -, rfl⟩ := List.mem_map.mp hm
  rfl

theorem zext_flags_low (f : FlagBits) : (0#58 ++ f : DWord).extractLsb' 0 32 = 0#26 ++ f := by
  apply BitVec.eq_of_getLsbD_eq
  intro i hi
  simp only [BitVec.getLsbD_extractLsb', BitVec.getLsbD_append]
  grind

theorem flags_completes (x : Ext) (s : State) (g : Group) (p : Split) (h : Executes s g p (.flags x)) :
    ∃ t, exec (.flags x) s = .next t ∧
     let all : FlagBits := g.inflight.foldl (fun f m => f ||| m.bits) g.flags
     if guardLanes g p x.guard = 0 then PassesBy s t g p (.flags x)
     else RegisterEffect s t g p (.flags x) (fun h => h.vec = g.vec ∧ h.pred = g.pred ∧
       UniformWritten g h (guardLanes g p x.guard) false x.d.toNat (0#58 ++ all) ∧
       h.flags = all &&& ~~~((opB g x false 0).extractLsb' 0 6) ∧ ∀ m ∈ h.inflight, m.bits = 0) := by
  refine ⟨_, execFlags_executes h, ?_⟩
  by_cases he : guardLanes g p x.guard = 0
  · simp only [he, if_true]
    exact passesBy_of h.1
  · simp only [he, if_false]
    refine registerEffect_of h.1 rfl rfl (fun _ hq => hq) ⟨rfl, rfl, fun r => ?_, rfl, mergeAll_inflight_bits g⟩
    have hu := uget_uset { g.mergeAll with flags := g.mergeAll.flags &&& ~~~((opB g x false 0).extractLsb' 0 6) }
      x.d.toNat r (0#26 ++ g.mergeAll.flags)
    rw [hu, destWord, zext_flags_low]
    by_cases hr : r = x.d.toNat
    · simp only [hr, if_true, if_neg he]; rfl
    · simp only [hr, if_false]; rfl

/-- Grid steps between two bound dies, written with signed differences (R17). -/
theorem vdhopOp_bound {bind : List Nat} {a b p q : Nat} (hp : bind[a]? = some p) (hq : bind[b]? = some q) :
    vdhopOp bind a b = BitVec.ofNat 32
      (((p % 3 : Int) - (q % 3 : Int)).natAbs + ((p / 3 : Int) - (q / 3 : Int)).natAbs) := by
  have dist (x y : Nat) : (if x ≤ y then y - x else x - y) = ((x : Int) - (y : Int)).natAbs := by split <;> omega
  simp only [vdhopOp, hp, hq, dist]
  push_cast
  rfl

theorem vdhopOp_unbound {bind : List Nat} {a b : Nat} (h : bind[a]? = none ∨ bind[b]? = none) :
    vdhopOp bind a b = 0xFFFF_FFFF#32 := by
  unfold vdhopOp
  split
  · simp_all
  · rfl

/-- Settles O19: FLAGS by the merge of what is in flight, VDHOP by its four cases of bound and unbound dies. -/
theorem flagsAndVdhop : Obligations.FlagsAndVdhop := by
  unfold Obligations.FlagsAndVdhop
  refine ⟨flags_completes, aluCompletes_of
    (f := fun x s g L => (lo32 (vdhopOp (s.bindOf g) (opA g x false L).toNat (opB g x false L).toNat), 0))
    (fun _ _ => rfl) fun x s g L => ?_⟩
  dsimp only
  rcases hp : (s.bindOf g)[(opA g x false L).toNat]? with _ | p
  · rw [vdhopOp_unbound (.inl hp)]; rfl
  · rcases hq : (s.bindOf g)[(opB g x false L).toNat]? with _ | q
    · rw [vdhopOp_unbound (.inr hq)]; rfl
    · rw [vdhopOp_bound hp hq]; rfl

end Sys2Proof.Machine
end

section
namespace Sys2Proof.Laws.RoundTrip
open Sys2Proof

/-- Every step's words decode to it: one law for each constructor. -/
theorem statement : ∀ i : Instr, Statement i
  | .abs .. => abs _ _ _ | .brev .. => brev _ _ _ | .clz .. => clz _ _ _ | .fabs .. => fabs _ _ _ | .fneg .. => fneg _ _ _
  | .movShort .. => movShort _ _ _ | .not .. => not _ _ _ | .popc .. => popc _ _ _ | .iaddi .. => iaddi _ _ _
  | .iaddiLiteral .. => iaddiLiteral _ _ _ | .movi .. => movi _ _ _ | .moviLiteral .. => moviLiteral _ _ _
  | .bra .. => bra _ _ | .braJoin .. => braJoin _ | .call .. => call _ _ | .waitc .. => waitc _ _ _ _ _
  | .bkpt .. => bkpt _ _ | .exit .. => exit _ | .hend => hend | .nop .. => nop _ | .ret .. => ret _ | .yield .. => yield _
  | .iadd .. => iadd _ | .imax .. => imax _ | .imin .. => imin _ | .isub .. => isub _ | .mov .. => mov _
  | .idot4 .. => idot4 _ | .imad .. => imad _ | .imul .. => imul _ | .imulh .. => imulh _ | .and .. => and _
  | .lop3 .. => lop3 _ | .or .. => or _ | .rot .. => rot _ | .sar .. => sar _ | .shl .. => shl _ | .shr .. => shr _
  | .xor .. => xor _ | .bfe .. => bfe _ | .bfi .. => bfi _ | .prmt .. => prmt _ | .icmp .. => icmp _ | .plop .. => plop _
  | .pmov .. => pmov _ | .sel .. => sel _ | .lea .. => lea _ | .fadd .. => fadd _ | .ffma .. => ffma _ | .fmul .. => fmul _
  | .fclass .. => fclass _ | .fcmp .. => fcmp _ | .fmax .. => fmax _ | .fmin .. => fmin _ | .fcos .. => fcos _
  | .fexp2 .. => fexp2 _ | .flog2 .. => flog2 _ | .frcp .. => frcp _ | .frsq .. => frsq _ | .fsin .. => fsin _
  | .fsqrt .. => fsqrt _ | .ftanh .. => ftanh _ | .cvt .. => cvt _ | .pack .. => pack _ | .req .. => req _
  | .unpack .. => unpack _ | .gvote .. => gvote _ | .qbcast .. => qbcast _ | .qswap .. => qswap _ | .shuf .. => shuf _
  | .greduce .. => greduce _ | .gscan .. => gscan _ | .brdec .. => brdec _ | .brx .. => brx _ | .callx .. => callx _
  | .svc .. => svc _ | .trap .. => trap _ | .bar .. => bar _ | .cbar .. => cbar _ | .evsig .. => evsig _
  | .evwait .. => evwait _ | .ld .. => ld _ | .st .. => st _ | .lds .. => lds _ | .ldx .. => ldx _ | .sts .. => sts _
  | .atom .. => atom _ | .atoms .. => atoms _ | .sempty .. => sempty _ | .sfe .. => sfe _ | .sfill .. => sfill _
  | .ldu .. => ldu _ | .pref .. => pref _ | .cpy .. => cpy _ | .ldh .. => ldh _ | .tld .. => tld _ | .tstr .. => tstr _
  | .coll .. => coll _ | .mma .. => mma _ | .mmag .. => mmag _ | .mmat .. => mmat _ | .aexp .. => aexp _
  | .amode .. => amode _ | .ard .. => ard _ | .awr .. => awr _ | .mzero .. => mzero _ | .mcarry .. => mcarry _
  | .mscan .. => mscan _ | .tmov .. => tmov _ | .trd .. => trd _ | .twr .. => twr _ | .oadd .. => oadd _
  | .oalight .. => oalight _ | .oboard .. => oboard _ | .ocap .. => ocap _ | .ocas .. => ocas _ | .omax .. => omax _
  | .omin .. => omin _ | .oswp .. => oswp _ | .chpeek .. => chpeek _ | .chrecv .. => chrecv _ | .chsend .. => chsend _
  | .clk .. => clk _ | .sleep .. => sleep _ | .time .. => time _ | .flags .. => flags _ | .srd .. => srd _
  | .swr .. => swr _ | .vdhop .. => vdhop _ | .unimp .. => unimp _ | .ill .. => ill _
  | .emulationComplete .. => emulationComplete _ _ _ | .svcServiceComplete .. => svcServiceComplete _ _ _
  | .queueSetup .. => queueSetup _ _ _ _ | .submit .. => submit _ _ _ _ | .eventSignal .. => eventSignal _ _ _
  | .map .. => map _ _ | .unmap .. => unmap _ _ | .reclassify .. => reclassify _ _ | .logApply .. => logApply _ _
  | .ctxCreate .. => ctxCreate _ _ _ _ _ _ _ _ _ | .ctxDestroy .. => ctxDestroy _ | .ctxSave .. => ctxSave _
  | .contextSaved .. => contextSaved _ | .ctxRestore .. => ctxRestore _ _ _ _ | .ctxKill .. => ctxKill _
  | .splitResume .. => splitResume _ _ _ _ _ | .orbitQuota .. => orbitQuota _ _ | .portBind .. => portBind _ _
  | .trapqAck .. => trapqAck _ _ | .partCreate .. => partCreate _ _ _ | .partDestroy .. => partDestroy _ _
  | .powerCap .. => powerCap _ _ | .icacheInval .. => icacheInval _ _ _ | .emuInstall .. => emuInstall _ _ _ _
  | .traceSetup .. => traceSetup _ _ _ _ _ | .ptpSetup .. => ptpSetup _ _ _ _ | .timeStatus .. => timeStatus _
  | .attest .. => attest _ _ | .lifecycle .. => lifecycle _ _ _ | .launchAdmission .. => launchAdmission _
  | .blockStart .. => blockStart _ _ _ | .blockComplete .. => blockComplete _ | .blockPreemption .. => blockPreemption _
  | .migration .. => migration _ _ | .splitDormant .. => splitDormant _ _ | .splitActivate .. => splitActivate _
  | .joinTimeout .. => joinTimeout _ _ | .waitAgeReservation .. => waitAgeReservation _ _
  | .yieldExpiry .. => yieldExpiry _ _ | .sleepWake .. => sleepWake _ _ | .barrierWatchdog .. => barrierWatchdog _ _
  | .emptyLineTimeout .. => emptyLineTimeout _ | .loadDataReturn .. => loadDataReturn _ _
  | .storePerformed .. => storePerformed _ _ | .pageFaultService .. => pageFaultService _ _ _
  | .remoteRetry .. => remoteRetry _ _ _ _ _ | .drainRequest .. => drainRequest _ _ | .drainPoint .. => drainPoint _
  | .engineSectorRead .. => engineSectorRead _ _ | .engineSectorWrite .. => engineSectorWrite _ _
  | .engineCompletion .. => engineCompletion _ | .engineFault .. => engineFault _ | .handlerBirth .. => handlerBirth _
  | .matrixEntryStart .. => matrixEntryStart _ _ | .matrixEntryComplete .. => matrixEntryComplete _ _
  | .mmagCancel .. => mmagCancel _ _ | .orbitPass .. => orbitPass _ | .oboardTimeout .. => oboardTimeout _
  | .channelCredit .. => channelCredit _ _ | .headPromotion .. => headPromotion _ _ _ _ _
  | .coherenceRead .. => coherenceRead _ _ _ | .readExclusive .. => readExclusive _ _ _ | .upgrade .. => upgrade _ _ _
  | .invalidation .. => invalidation _ _ _ | .forward .. => forward _ _ _ | .acknowledgement .. => acknowledgement _ _ _
  | .dataResponse .. => dataResponse _ _ _ | .writeBack .. => writeBack _ _ _ | .l1Eviction .. => l1Eviction _ _ _
  | .backInvalidateSnoop .. => backInvalidateSnoop _ | .hostAccess .. => hostAccess _ _
  | .atsInvalidation .. => atsInvalidation _ _ _ _ | .atsTranslation .. => atsTranslation _ _
  | .remoteWrite .. => remoteWrite _ _ _ _ | .collPeerMessage .. => collPeerMessage _ _ _
  | .linkCrcReplay .. => linkCrcReplay _ | .linkTagFailure .. => linkTagFailure _ | .keyRotation .. => keyRotation _
  | .uncorrectableError .. => uncorrectableError _ | .patrolScrub .. => patrolScrub _ | .orbitRingBreak => orbitRingBreak
  | .spdmRequest .. => spdmRequest _ _ | .spdmSessionExpiry .. => spdmSessionExpiry _
  | .serviceWatchdogExpiry .. => serviceWatchdogExpiry _ | .internalErrorReport => internalErrorReport
  | .lockstepDisagreement => lockstepDisagreement | .recoveryTimeout => recoveryTimeout | .packageReset => packageReset
  | .supplySag .. => supplySag _ | .sagClear .. => sagClear _ | .ptpMessage .. => ptpMessage _
  | .debuggerAccess .. => debuggerAccess _ _ | .registerWrite .. => registerWrite _ _ | .bankDrowsy .. => bankDrowsy _
  | .pageWalkCompletion .. => pageWalkCompletion _ _ _ | .backInvalidateResponse .. => backInvalidateResponse _
  | .parnarPortDown .. => parnarPortDown _ | .servoHoldover => servoHoldover

end Sys2Proof.Laws.RoundTrip

namespace Sys2Proof
open Sys2Proof.Machine

/-! ## Decoding and fetching -/

theorem accept_count {i j : Instr} {n m : Nat} (h : accept i n = .ok (j, m)) : m = n := by
  unfold accept at h
  split at h
  · cases h; rfl
  · cases h

/-- The one-word majors take one word. -/
theorem decodeMajor1_count {w0 : Word} {i : Instr} {n : Nat} (h : decodeMajor1 w0 = .ok (i, n)) : n = 1 := by
  unfold decodeMajor1 at h
  dsimp only at h
  split at h <;> exact accept_count h

theorem decodeMajor7_count {w0 : Word} {i : Instr} {n : Nat} (h : decodeMajor7 w0 = .ok (i, n)) : n = 1 := by
  unfold decodeMajor7 at h
  dsimp only at h
  split at h
  on_goal 7 => cases h
  all_goals
    split at h
    · exact accept_count h
    · cases h

theorem decodeSB_count {w0 : Word} {i : Instr} {n : Nat} (h : decodeSB w0 = .ok (i, n)) : n = 1 := by
  unfold decodeSB at h
  dsimp only at h
  split at h
  · exact accept_count h
  · exact accept_count h
  · split at h
    · exact accept_count h
    · cases h

theorem decodeSI_count {w0 : Word} {rest : List Word} {i : Instr} {n : Nat} (h : decodeSI w0 rest = .ok (i, n)) :
    n = wordCount (lenOf w0) := by
  unfold decodeSI at h
  dsimp only at h
  split at h
  case h_1 hl => rw [hl]; exact accept_count h
  case h_2 hl =>
    rw [hl]
    split at h
    · split at h
      · exact accept_count h
      · cases h
    · cases h
  case h_3 => cases h

theorem decodeExt_count {w0 : Word} {rest : List Word} {i : Instr} {n : Nat} (h : decodeExt w0 rest = .ok (i, n)) :
    n = wordCount (lenOf w0) := by
  unfold decodeExt at h
  dsimp only at h
  split at h
  case h_1 hl =>
    rw [hl]
    split at h
    · cases h
    · split at h
      · cases h
      · exact accept_count h
  case h_2 hl =>
    rw [hl]
    split at h
    · cases h
    · split at h
      · cases h
      · exact accept_count h
  all_goals cases h

/-- An instruction takes the words that LEN of its word 0 gives (R71). -/
theorem decode_count {w0 : Word} {rest : List Word} {i : Instr} {n : Nat} (h : decode (w0 :: rest) = .ok (i, n)) :
    n = wordCount (lenOf w0) := by
  have one : lenOf w0 = 0 → n = 1 → n = wordCount (lenOf w0) := fun h0 h1 => by rw [h0, h1]; rfl
  simp only [decode] at h
  split at h
  · cases h; rfl
  split at h
  · split at h
    · exact one ‹_› (decodeMajor1_count h)
    · cases h
  split at h
  · split at h
    · exact one ‹_› (decodeMajor7_count h)
    · cases h
  split at h
  · exact decodeSI_count h
  split at h
  · split at h
    · exact one ‹_› (decodeSB_count h)
    · cases h
  split at h
  · exact decodeExt_count h
  · cases h

namespace Machine

theorem inTextRun_le {s : State} {g : Group} {pc : DWord} {m n : Nat} (hmn : m ≤ n) (h : inTextRun s g pc n = true) :
    inTextRun s g pc m = true := by
  unfold inTextRun Ctx.textHolds at *
  cases hc : s.groupCtx? g with
  | none => rw [hc] at h; exact h
  | some c =>
    simp only [hc, Option.map_some, Option.getD_some, List.any_eq_true, Bool.and_eq_true, decide_eq_true_eq] at h ⊢
    obtain ⟨t, ht, hready, hhi⟩ := h
    exact ⟨t, ht, hready, by omega⟩

/-- The words behind the first j, where the fetch finds each. -/
theorem fetchRest_words {s : State} {g : Group} {pc : DWord} {ws : List Word}
    (hf : ∀ k w, ws[k]? = some w → fetchWord s g (pc + BitVec.ofNat 64 (4 * k)) .x = .word w) :
    ∀ n j, j + n = ws.length → fetchRest s g pc (List.range' j n) (ws.take j) = .ok ws
  | 0, j, h => by simp only [List.range'_zero, fetchRest]; rw [List.take_of_length_le (by omega)]
  | n + 1, j, h => by
    have hj : j < ws.length := by omega
    have hw : ws[j]? = some ws[j] := List.getElem?_eq_getElem hj
    simp only [List.range'_succ, fetchRest, hf j _ hw]
    rw [← List.take_succ_eq_append_getElem hj]
    exact fetchRest_words hf n (j + 1) (by omega)

/-- A fetch that finds the words of one instruction inside .text gives what they decode to (R71, R80). -/
theorem fetchInstr_of_words {s : State} {g : Group} {pc : DWord} {ws : List Word}
    (hn : ws.length = wordCount (lenOf (ws.headD 0))) (ht : inTextRun s g pc (4 * ws.length) = true)
    (hf : ∀ k w, ws[k]? = some w → fetchWord s g (pc + BitVec.ofNat 64 (4 * k)) .x = .word w) :
    (∀ i n, decode ws = .ok (i, n) → fetchInstr s g pc = .instr i (4 * n)) ∧
    ∀ e, decode ws = .error e → fetchInstr s g pc = .instr (.ill (ws.headD 0)) 4 := by
  obtain ⟨w0, rest, rfl⟩ : ∃ w0 rest, ws = w0 :: rest := by
    cases ws with
    | nil => exact absurd hn (by decide)
    | cons w0 rest => exact ⟨w0, rest, rfl⟩
  simp only [List.headD_cons] at hn ⊢
  have h4 : inTextRun s g pc 4 = true := inTextRun_le (by simp) ht
  have h0 : fetchWord s g pc .x = .word w0 := by simpa using hf 0 w0 rfl
  have hr : fetchRest s g pc ((List.range (wordCount (lenOf w0))).drop 1) [w0] = .ok (w0 :: rest) := by
    rw [← hn, List.range_eq_range', List.length_cons, Nat.add_comm, ← List.range'_append_1 (s := 0) (m := 1)]
    exact fetchRest_words hf rest.length 1 (by rw [List.length_cons]; omega)
  rw [hn] at ht
  constructor
  · intro i n hd
    simp only [fetchInstr, h4, h0, ht, hr, hd, Bool.not_true, Bool.false_eq_true, if_false]
  · intro e hd
    simp only [fetchInstr, h4, h0, ht, hr, hd, Bool.not_true, Bool.false_eq_true, if_false]

theorem fetchInstr_outside {s : State} {g : Group} {pc : DWord} (h : inTextRun s g pc 4 = false) :
    fetchInstr s g pc = .trap .brt pc := by
  simp only [fetchInstr, h, Bool.not_false, if_true]

/-- The words of a well-formed instruction are as many as LEN of the first gives, and decode to it. -/
theorem decode_encode {i : Instr} (hw : i.wf = true) (hne : encode i ≠ []) :
    decode (encode i) = .ok (i, (encode i).length) ∧ (encode i).length = wordCount (lenOf ((encode i).headD 0)) := by
  have hd := Laws.RoundTrip.statement i hw hne []
  rw [List.append_nil] at hd
  refine ⟨hd, ?_⟩
  cases he : encode i with
  | nil => exact absurd he hne
  | cons w0 rest => rw [he] at hd; exact decode_count hd

theorem fetchInstr_encode {s : State} {g : Group} {pc : DWord} {i : Instr} (hw : i.wf = true) (hne : encode i ≠ [])
    (ht : inTextRun s g pc (4 * (encode i).length) = true)
    (hf : ∀ k w, (encode i)[k]? = some w → fetchWord s g (pc + BitVec.ofNat 64 (4 * k)) .x = .word w) :
    fetchInstr s g pc = .instr i (4 * (encode i).length) :=
  (fetchInstr_of_words (decode_encode hw hne).2 ht hf).1 _ _ (decode_encode hw hne).1

/-- A byte of a word of HBM as the fetch sees it: memory's, or the cached sector's (R126). -/
theorem fetchByte_hbm (s : State) (cn die core pa k : Nat) (hpa : pa % 4 = 0) (hk : k < 4) :
    (s.icacheFind die core (pa / 32) = none → fetchByte s cn die core .hbm (pa + k) = s.memGet (pa + k)) ∧
    ∀ bs, s.icacheFind die core (pa / 32) = some bs → fetchByte s cn die core .hbm (pa + k) = bs.getD (pa % 32 + k) 0 := by
  have hs : (pa + k) / 32 = pa / 32 := by omega
  have hm : (pa + k) % 32 = pa % 32 + k := by omega
  constructor
  · intro h; simp only [fetchByte, hs, h]
  · intro bs h; simp only [fetchByte, hs, hm, h]

theorem fetchWord_hbm {s : State} {g : Group} {va : DWord} {pa : Nat}
    (hx : xlate s g.die g.lanesTlb (s.groupCtx g) va .x = .ok .hbm pa) (hpa : pa % 4 = 0) :
    (s.icacheFind g.die g.core (pa / 32) = none → fetchWord s g va .x =
      .word (s.memGet (pa + 3) ++ s.memGet (pa + 2) ++ s.memGet (pa + 1) ++ s.memGet pa)) ∧
    ∀ bs, s.icacheFind g.die g.core (pa / 32) = some bs → fetchWord s g va .x =
      .word (bs.getD (pa % 32 + 3) 0 ++ bs.getD (pa % 32 + 2) 0 ++ bs.getD (pa % 32 + 1) 0 ++ bs.getD (pa % 32) 0) := by
  have b (k : Nat) (hk : k < 4) := fetchByte_hbm s (s.groupCtx g) g.die g.core pa k hpa hk
  have b0 := b 0 (by omega)
  rw [Nat.add_zero, Nat.add_zero] at b0
  constructor
  · intro h
    simp only [fetchWord, hx, (b 3 (by omega)).1 h, (b 2 (by omega)).1 h, (b 1 (by omega)).1 h, b0.1 h,
      Nat.add_zero]
  · intro bs h
    simp only [fetchWord, hx, (b 3 (by omega)).2 bs h, (b 2 (by omega)).2 bs h, (b 1 (by omega)).2 bs h,
      b0.2 bs h, Nat.add_zero]

/-! ## What follows the meaning of an issued instruction -/

/-- Of a group only splits and its stream differ. -/
def SplitsAndStream (g h : Group) : Prop := h = { g with splits := h.splits, stream := h.stream }

theorem SplitsAndStream.trans {g h k : Group} (h1 : SplitsAndStream g h) (h2 : SplitsAndStream h k) :
    SplitsAndStream g k :=
  Eq.trans h2 (congrArg (fun z : Group => { z with splits := k.splits, stream := k.stream }) h1)

theorem completeJoin_only (g : Group) (j : Join) : SplitsAndStream g (completeJoin g j) := by
  unfold completeJoin
  dsimp only
  split <;> rfl

theorem completeJoins_only (g : Group) : SplitsAndStream g (completeJoins g) :=
  foldl_keeps (SplitsAndStream g) completeJoin (fun b j h => h.trans (completeJoin_only b j)) _ g rfl

theorem mergeOnce_only (g : Group) : SplitsAndStream g (mergeOnce g) := by
  unfold mergeOnce
  split <;> rfl

theorem settleOnce_only (now : Nat) (g : Group) : SplitsAndStream g (settleOnce now g) := by
  have hj : SplitsAndStream g (completeJoins (enterJoins now g)) :=
    SplitsAndStream.trans (h := enterJoins now g) rfl (completeJoins_only _)
  exact (hj.trans (k := enterJoins now (completeJoins (enterJoins now g))) rfl).trans (mergeOnce_only _)

theorem settleLoop_only (now : Nat) : ∀ (n : Nat) (g : Group), SplitsAndStream g (settleLoop now n g)
  | 0, _ => rfl
  | n + 1, g => by
    unfold settleLoop
    dsimp only
    split
    · rfl
    · exact (settleOnce_only now g).trans (settleLoop_only now n _)

/-- Merges and joins change nothing but splits (R27, R28). -/
theorem settleGroup_only (now : Nat) (g : Group) : SplitsAndStream g (settleGroup now g) := by
  unfold settleGroup
  split
  · rfl
  · exact settleLoop_only ..

theorem beginStream_only (gi : Nat) (i : Instr) (before : State) (g : Group) :
    SplitsAndStream g (beginStream gi i before g) := by
  unfold beginStream
  split
  · split
    · split <;> rfl
    · rfl
  · rfl

/-- Between two states only the schedule differs: busy times, banks, queue counts, cached translations, and of each group
its splits and its stream. -/
def ScheduleOnly (s t : State) : Prop :=
  t = { s with groups := t.groups, busy := t.busy, bankLast := t.bankLast, drowsy := t.drowsy, matUsed := t.matUsed,
               tlb := t.tlb } ∧
  t.groups.length = s.groups.length ∧
  ∀ j h, s.group? j = some h → ∃ k, t.group? j = some k ∧ SplitsAndStream h k

theorem ScheduleOnly.trans {s t u : State} (h1 : ScheduleOnly s t) (h2 : ScheduleOnly t u) : ScheduleOnly s u := by
  obtain ⟨e1, l1, g1⟩ := h1
  obtain ⟨e2, l2, g2⟩ := h2
  refine ⟨e2.trans (congrArg (fun z : State =>
      { z with groups := u.groups, busy := u.busy, bankLast := u.bankLast, drowsy := u.drowsy, matUsed := u.matUsed, tlb := u.tlb }) e1),
    l2.trans l1, fun j h hj => ?_⟩
  obtain ⟨k, hk, hhk⟩ := g1 j h hj
  obtain ⟨m, hm, hkm⟩ := g2 j k hk
  exact ⟨m, hm, hhk.trans hkm⟩

/-- A state that keeps the groups has them all. -/
theorem scheduleOnly_of_groups {s t : State} (hg : t.groups = s.groups)
    (h : t = { s with groups := t.groups, busy := t.busy, bankLast := t.bankLast, drowsy := t.drowsy, matUsed := t.matUsed,
                      tlb := t.tlb }) :
    ScheduleOnly s t :=
  ⟨h, congrArg _ hg, fun j k hk => ⟨k, by rw [← hk]; exact congrArg (fun l : List Group => l[j]?) hg, rfl⟩⟩

theorem tlbUse_only (die : Nat) (u : TlbUnit) (cn va : Nat) (s : State) : ScheduleOnly s (tlbUse die u cn va s) := by
  unfold tlbUse
  split
  · exact scheduleOnly_of_groups rfl rfl
  · split <;> exact scheduleOnly_of_groups rfl rfl

theorem scheduleOnly_refl (s : State) : ScheduleOnly s s := scheduleOnly_of_groups rfl rfl

theorem useTlb_only (gi si : Nat) (g : Group) (i : Instr) (before s : State) : ScheduleOnly s (useTlb gi si g i before s) :=
  foldl_keeps (ScheduleOnly s) _ (fun _ _ h => h.trans (tlbUse_only ..)) _ s (scheduleOnly_refl s)

theorem modGroup_schedule (s : State) (gi : Nat) {f : Group → Group} (hf : ∀ g, SplitsAndStream g (f g)) :
    ScheduleOnly s (s.modGroup gi f) := by
  refine ⟨rfl, modNth_length f s.groups gi, fun j h hj => ?_⟩
  rw [group?_modGroup, hj]
  split
  · exact ⟨f h, rfl, hf h⟩
  · exact ⟨h, rfl, rfl⟩

theorem settle_schedule (s : State) : ScheduleOnly s (settle s) := by
  refine ⟨rfl, List.length_map .., fun j h hj => ⟨settleGroup s.now h, ?_, settleGroup_only ..⟩⟩
  rw [State.group?] at hj ⊢
  rw [settle, List.getElem?_map, hj]; rfl

theorem countEntries_schedule (before : State) (g : Group) (s : State) : ScheduleOnly s (countEntries before g s) := by
  unfold countEntries
  dsimp only
  split <;> exact scheduleOnly_of_groups rfl rfl

theorem touchBanks_schedule (ks : List Nat) (s : State) : ScheduleOnly s (touchBanks ks s) := by
  unfold touchBanks
  split <;> exact scheduleOnly_of_groups rfl rfl

theorem occupy_schedule (g : Group) (i : Instr) (s : State) : ScheduleOnly s (occupy g i s) := by
  unfold occupy
  exact ScheduleOnly.trans (scheduleOnly_of_groups rfl rfl) (touchBanks_schedule ..)

/-- What follows the meaning of an issued instruction is schedule alone (R34, R36, R58, R61, R136). -/
theorem afterInstr_schedule (gi si : Nat) (g : Group) (i : Instr) (before t : State) :
    ScheduleOnly t (afterInstr gi si g i before t) := by
  unfold afterInstr
  dsimp only
  refine ScheduleOnly.trans ?_ (settle_schedule _)
  refine ScheduleOnly.trans ?_ (modGroup_schedule _ _ fun _ => rfl)
  refine ScheduleOnly.trans ?_ (occupy_schedule ..)
  refine ScheduleOnly.trans ?_ (countEntries_schedule ..)
  exact (useTlb_only ..).trans (modGroup_schedule _ _ fun g => beginStream_only ..)

/-! ## A prescribed turn of a split -/

/-- What every turn ends with. -/
theorem step_agenda {s : State} {t : Turn} {rest : List Turn} (h : s.agenda = t :: rest) (hup : s.up = true) :
    step s = record { s with agenda := rest } (act t { s with agenda := rest }) := by
  simp only [step, stepState, h, turn, hup, Bool.true_or, if_true]

theorem issueTurn_eq {s : State} {gi si : Nat} {g : Group} {p : Split} (hg : s.group? gi = some g)
    (hp : g.split? si = some p) (hc : (s.groupCtx? g).isSome = true) :
    issueTurn gi si s = if mayIssue s gi g p then issueAt gi si g p s else .next s := by
  have hn : (s.groupCtx? g).isNone = false := by rw [Option.isNone_eq_false_iff]; exact hc
  simp only [issueTurn, hg, hp, Option.bind_some, Option.map_some, hn, Bool.false_eq_true, if_false]

theorem issueAt_instr {s t : State} {gi si : Nat} {g : Group} {p : Split} {i : Instr} {n : Nat}
    (hf : fetchInstr s g p.pc = .instr i n) (he : exec i { ageQuarter gi si g s with curG := gi, curS := si } = .next t) :
    issueAt gi si g p s = .next (afterInstr gi si g i s t) := by
  simp only [issueAt, hf, he]

/-- A split whose age alone changes. -/
def agedSplit (s : State) (gi si gj : Nat) (g : Group) (p : Split) : Split :=
  if gj = gi ∧ p.idx = si then { p with age := 0, reserved := false }
  else if ready s gj g p then { p with age := p.age + 1 } else p

theorem agedSplit_same (s : State) (gi si gj : Nat) (g : Group) (p : Split) :
    { agedSplit s gi si gj g p with age := 0, reserved := false } = { p with age := 0, reserved := false } := by
  unfold agedSplit
  split
  · rfl
  · split <;> rfl

/-- Ages of splits are all that the count of a quarter's ages changes (R36). -/
theorem ageQuarter_groups (gi si : Nat) (g : Group) (s : State) :
    ∃ v, { s with groups := v } = ageQuarter gi si g s ∧ v.length = s.groups.length ∧
      ∀ j h, s.group? j = some h → ∃ k, v[j]? = some k ∧ k = { h with splits := k.splits } ∧
        k.splits.map (fun q => { q with age := 0, reserved := false }) =
          h.splits.map (fun q => { q with age := 0, reserved := false }) := by
  refine ⟨_, rfl, by simp, fun j h hj => ?_⟩
  have hz : s.groups.zipIdx[j]? = some (h, j) := by
    rw [List.getElem?_zipIdx, show s.groups[j]? = some h from hj]; simp
  rw [List.getElem?_map, hz]
  refine ⟨_, rfl, ?_⟩
  dsimp only
  split
  · refine ⟨rfl, ?_⟩
    rw [List.map_map]
    exact List.map_congr_left fun q _ => agedSplit_same s gi si j h q
  · exact ⟨rfl, rfl⟩

/-- Settles O58: the step unfolds to the issue, whose tail is schedule alone; the fetch follows the words. -/
theorem stepRunsDecoded : Obligations.StepRunsDecoded := by
  unfold Obligations.StepRunsDecoded
  intro s gi si rest g p hg hp u after
  have hug : u.group? gi = some g := hg
  refine ⟨fun i n t ha hup hc hm hf he => ?_, ageQuarter_groups gi si g u, fun ha hup hc hm => ?_,
    fetchInstr_outside, fun i hw hne ht hf => fetchInstr_encode hw hne ht hf,
    fun ws e ht hd hn hf => (fetchInstr_of_words hn ht hf).2 e hd, fun va pa hx hpa => fetchWord_hbm hx hpa⟩
  · obtain ⟨hv, hlen, hgroups⟩ := afterInstr_schedule gi si g i u t
    refine ⟨afterInstr gi si g i u t, ?_, hv, hlen, hgroups⟩
    rw [step_agenda ha hup, act, issueTurn_eq hug hp hc, if_pos hm, issueAt_instr hf he]
    rfl
  · rw [step_agenda ha hup, act, issueTurn_eq hug hp hc, if_neg (by rw [hm]; decide)]
    rfl

end Machine
end Sys2Proof
end

section
namespace Sys2Proof.Machine
open Sys2Proof

/-! ## What the homes do for an access (R150 to R157) -/

/-- Only the homes' records of granules and lines, and the lines of the cores, differ. -/
def HomesOnly (s t : State) : Prop := t = { s with granules := t.granules, dir := t.dir, l1 := t.l1 }

theorem HomesOnly.trans {s t u : State} (h1 : HomesOnly s t) (h2 : HomesOnly t u) : HomesOnly s u :=
  Eq.trans h2 (congrArg (fun z : State => { z with granules := u.granules, dir := u.dir, l1 := u.l1 }) h1)

theorem setLines_homes (s : State) (ls : List L1Line) : HomesOnly s { s with l1 := ls } := rfl

theorem recordCopies_homes (line : Nat) (s : State) : HomesOnly s (recordCopies line s) := rfl

theorem homeTouch_homes (line : Nat) (w : Bool) (s : State) : HomesOnly s (homeTouch line w s) := by
  unfold homeTouch
  split
  · rfl
  · split <;> rfl

theorem foldl_recordCopies_homes {α : Type} (line : α → Nat) (ls : List α) (s : State) :
    HomesOnly s (ls.foldl (fun t l => recordCopies (line l) t) s) :=
  foldl_keeps (HomesOnly s) _ (fun _ _ h => h.trans (recordCopies_homes ..)) ls s rfl

theorem dropOthers_homes (die core n : Nat) (s : State) : HomesOnly s (dropOthers die core n s) :=
  (setLines_homes s _).trans (foldl_recordCopies_homes (fun l => l) _ _)

theorem claim_homes (who : Waiter) (a : Agent) (pa : Nat) (w : Bool) (s : State) : HomesOnly s (claim who a pa w s) := by
  unfold claim
  dsimp only
  split
  · exact HomesOnly.trans (t := s.setGranule _) rfl (dropOthers_homes ..)
  · rfl

theorem drainLines_homes (die core n : Nat) (c : Option LineClass) (s : State) : HomesOnly s (drainLines die core n c s) :=
  (setLines_homes s _).trans (foldl_recordCopies_homes L1Line.line _ _)

theorem drainHolders_homes (n : Nat) (c : GranClass) (as : List Agent) (s : State) : HomesOnly s (drainHolders n c as s) :=
  foldl_keeps (HomesOnly s) _ (fun _ a h => by
    split
    · exact h.trans (drainLines_homes ..)
    · exact h) as s rfl

theorem drainNow_homes {s u : State} {who : Waiter} {n : Nat} {c : GranClass} (h : drainNow s who n c = some u) :
    HomesOnly s u := by
  simp only [drainNow, Option.ite_none_right_eq_some] at h
  cases h.2
  exact (drainHolders_homes n c _ s).trans rfl

theorem claimAs_homes {s u : State} {who : Waiter} {a : Agent} {pa : Nat} {w : Bool} (h : claimAs s who a pa w = some u) :
    HomesOnly s u := by
  have touched (t : State) : HomesOnly t (homeTouch (pa / 128) w (claim who a pa w t)) :=
    (claim_homes ..).trans (homeTouch_homes ..)
  unfold claimAs at h
  dsimp only at h
  split at h
  · cases h; exact touched s
  · split at h
    · cases h
    · obtain ⟨t, ht, rfl⟩ := Option.map_eq_some_iff.mp h
      exact (drainNow_homes ht).trans (touched t)

theorem getLine_homes {a : Agent} {cn : Nat} {sp : Space} {pa n : Nat} {s u : State} (h : getLine a cn sp pa n s = some u) :
    HomesOnly s u := by
  unfold getLine at h
  split at h
  · cases h
  · split at h
    · exact claimAs_homes h
    · cases h; rfl

theorem claimReads_homes : ∀ (ps : List (Nat × Space × Nat × Nat)) {s u : State}, claimReads ps s = some u → HomesOnly s u
  | [], _, _, h => by cases h; rfl
  | (cn, sp, pa, n) :: rest, s, u, h => by
    obtain ⟨t, ht, hu⟩ := Option.bind_eq_some_iff.mp (show (getLine .firmware cn sp pa n s).bind (claimReads rest) = some u from h)
    exact (getLine_homes ht).trans (claimReads_homes rest hu)

/-- Reads of firmware change nothing but the homes' records (R151). -/
theorem fwTouch_homes {rs : List FwRun} {s t : State} (h : fwTouch rs s = some t) : HomesOnly s t := by
  unfold fwTouch at h
  split at h
  · cases h
  · exact claimReads_homes _ h

/-! ## Commands of a context -/

theorem ctx?_num {s : State} {n : Nat} {x : Ctx} (h : s.ctx? n = some x) : x.num = n := by
  simpa using List.find?_some h

theorem ctx?_mem {s : State} {n : Nat} {x : Ctx} (h : s.ctx? n = some x) : x ∈ s.ctxs := List.mem_of_find?_eq_some h

theorem plainCmd_iff {c : Cmd} : plainCmd c = true ↔ c.flags = 0 ∧ c.pad = 0 := by simp [plainCmd]

/-- A command whose FLAGS are well formed and whose context exists runs its body (R249). -/
theorem onCtx_runs {c : Cmd} {ok : Bool} {s : State} {x : Ctx} {body : Ctx → State → State} (hok : ok = true)
    (hpad : c.pad = 0) (hx : s.ctx? c.ctx = some x) : onCtx c ok body s = .next (body x s) := by
  simp only [onCtx, hok, hpad, hx, Bool.not_true, Bool.false_or, bne_self_eq_false, Bool.false_eq_true, if_false]

theorem onCtx_plain {c : Cmd} {s : State} {x : Ctx} {body : Ctx → State → State} (hp : plainCmd c = true)
    (hx : s.ctx? c.ctx = some x) : onCtx c (c.flags == 0) body s = .next (body x s) :=
  onCtx_runs (by simp [(plainCmd_iff.mp hp).1]) (plainCmd_iff.mp hp).2 hx

/-! ## Launch numbers -/

/-- The search walks past taken numbers, as far as its bound. -/
theorem freeId_walk (held : List (BitVec 32)) : ∀ (n : Nat) (v : BitVec 32),
    ∃ i, i ≤ n ∧ freeId held n v = v + BitVec.ofNat 32 i ∧ (∀ j, j < i → v + BitVec.ofNat 32 j ∈ (0 :: held)) ∧
      (freeId held n v ∈ (0 :: held) → i = n)
  | 0, v => ⟨0, by simp [freeId]⟩
  | n + 1, v => by
    unfold freeId
    by_cases hv : v = 0 ∨ held.contains v
    · rw [if_pos hv]
      obtain ⟨i, hi, he, hb, hl⟩ := freeId_walk held n (v + 1)
      have shift (j : Nat) : v + 1 + BitVec.ofNat 32 j = v + BitVec.ofNat 32 (j + 1) := by
        rw [Nat.add_comm, BitVec.ofNat_add, BitVec.add_assoc]; rfl
      refine ⟨i + 1, by omega, by rw [he, shift], fun j hj => ?_, fun h => by rw [hl h]⟩
      cases j with
      | zero => simpa using hv
      | succ j => rw [← shift]; exact hb j (by omega)
    · rw [if_neg hv]
      refine ⟨0, by omega, by simp, fun j hj => by omega, fun h => absurd ?_ hv⟩
      simpa using h

/-- Among one number more than may be taken, one is free (R250). -/
theorem freeId_free (held : List (BitVec 32)) (v : BitVec 32) (h : held.length + 2 ≤ 2 ^ 32) :
    freeId held (held.length + 1) v ∉ (0 :: held) := by
  intro hbad
  obtain ⟨i, -, he, hb, hl⟩ := freeId_walk held (held.length + 1) v
  obtain rfl := hl hbad
  have maps : ∀ j ∈ Finset.range (held.length + 2), v + BitVec.ofNat 32 j ∈ (0 :: held).toFinset := by
    intro j hj
    rw [Finset.mem_range] at hj
    rw [List.mem_toFinset]
    rcases Nat.lt_or_ge j (held.length + 1) with hlt | hge
    · exact hb j hlt
    · obtain rfl : j = held.length + 1 := by omega
      rwa [← he]
  have fewer : (0 :: held).toFinset.card < (Finset.range (held.length + 2)).card := by
    rw [Finset.card_range]
    exact Nat.lt_of_le_of_lt (List.toFinset_card_le _) (by simp)
  obtain ⟨j, hj, k, hk, hne, heq⟩ := Finset.exists_ne_map_eq_of_card_lt_of_maps_to fewer maps
  rw [Finset.mem_range] at hj hk
  have hjk : (BitVec.ofNat 32 j).toNat = (BitVec.ofNat 32 k).toNat := congrArg _ (BitVec.add_right_inj v |>.mp heq)
  rw [BitVec.toNat_ofNat, BitVec.toNat_ofNat, Nat.mod_eq_of_lt (by omega), Nat.mod_eq_of_lt (by omega)] at hjk
  exact hne hjk

end Sys2Proof.Machine
end

section
namespace Sys2Proof.Machine
open Sys2Proof

/-! ## The setting commands (O47) -/

theorem queueSetup_completes {c : Cmd} {s : State} {x : Ctx} {queue prio : Nat} (ring : DWord) (hp : plainCmd c = true)
    (hx : s.ctx? c.ctx = some x) (hq : queue < 64) (hprio : prio < 8) :
    exec (.queueSetup c queue prio ring) s = .next (complete c 0 0 (s.modCtx x.num (fun x =>
      { x with queues := modNth (fun q => { q with prio := prio, ring := ring }) x.queues queue }))) := by
  rw [exec_queueSetup, execQueueSetup, onCtx_plain hp hx, if_neg (by omega)]

theorem trapqAck_completes {c : Cmd} {s : State} {x : Ctx} (seq : Nat) (hp : plainCmd c = true)
    (hx : s.ctx? c.ctx = some x) : exec (.trapqAck c seq) s =
      .next (complete c 0 0 (consume c.ctx (fun r => r.cause != .svc && decide (r.seq.toNat ≤ seq)) s)) := by
  rw [exec_trapqAck, execTrapqAck, onCtx_plain hp hx]

theorem portBind_completes {c : Cmd} {s : State} {x : Ctx} (mask : BitVec 12) (hp : plainCmd c = true)
    (hx : s.ctx? c.ctx = some x) :
    exec (.portBind c mask) s = .next (complete c 0 0 (s.modCtx x.num (fun x => { x with ports := mask }))) := by
  rw [exec_portBind, execPortBind, onCtx_plain hp hx]

theorem orbitQuota_completes {c : Cmd} {s : State} {x : Ctx} {quota : List Nat} (hp : plainCmd c = true)
    (hx : s.ctx? c.ctx = some x) (hlen : quota.length = 8) (hk : x.state ≠ .killed)
    (hq : ∀ t, t < 8 → quotaBad s x.num t (quota.getD t 0) = false) :
    exec (.orbitQuota c quota) s = .next (complete c 0 0
      (((List.range 8).foldl (fun s t => setQuota x.num t (quota.getD t 0) s) s).modCtx x.num
        (fun x => { x with quota := quota }))) := by
  have hany : (List.range 8).any (fun t => quotaBad s x.num t (quota.getD t 0)) = false := by
    rw [List.any_eq_false]
    intro t ht
    rw [hq t (List.mem_range.mp ht)]
    decide
  rw [exec_orbitQuota, execOrbitQuota, onCtx_plain hp hx, if_neg (by simp [hlen]), if_neg hk, hany,
    if_neg Bool.false_ne_true]

theorem traceSetup_completes {c : Cmd} {s : State} {x : Ctx} {die : Nat} (ring : DWord) (size : Nat) (mask : BitVec 32)
    (hp : plainCmd c = true) (hx : s.ctx? c.ctx = some x) (hd : die < 9) :
    exec (.traceSetup c die ring size mask) s = .next (complete c 0 0 { s with
      traces := s.traces.filter (fun u => u.die != die) ++
        [{ die := die, ctx := x.num, ring := ring, size := size, mask := mask, pos := 0, dropped := 0 }] }) := by
  rw [exec_traceSetup, execTraceSetup, onCtx_plain hp hx, if_neg (by omega)]

theorem eventSignal_completes {c : Cmd} {s : State} {x : Ctx} {va value : DWord} {m : Mapping} (hp : plainCmd c = true)
    (hx : s.ctx? c.ctx = some x) (h8 : va.toNat % 8 = 0) (h57 : va.toNat < 2 ^ 57)
    (hm : mapFind x.maps va.toNat = some m) (hr : m.r = true) (hw : m.w = true) (hwin : m.window = false)
    (hpres : x.present m va.toNat = true) (hccb : s.ccbPage c.ctx va.toNat = false) :
    exec (.eventSignal c va value) s =
      .next (complete c 0 0 { s with fwOut := s.fwOut ++ [.raise c.ctx va.toNat value] }) := by
  rw [exec_eventSignal, execEventSignal, onCtx_plain hp hx, if_neg (by omega)]
  simp only [hm, hr, hw, hwin, hpres, hccb, Bool.not_true, Bool.or_false, Bool.false_eq_true, if_false]
  rfl

/-- The numbers of the launches of a context that wait or run. -/
def heldIds (s : State) (cn : Nat) : List (BitVec 32) :=
  (s.launches.filter (fun l => l.ctx == cn && (l.phase == .queued || l.phase == .admitted))).map (fun l => l.id)

theorem heldIds_length (s : State) (cn : Nat) : (heldIds s cn).length ≤ s.launches.length := by
  rw [heldIds, List.length_map]
  exact List.length_filter_le ..

theorem mem_heldIds {s : State} {cn : Nat} {l : Launch} (hl : l ∈ s.launches) (hc : l.ctx = cn)
    (hph : l.phase = .queued ∨ l.phase = .admitted) : l.id ∈ heldIds s cn := by
  refine List.mem_map_of_mem (List.mem_filter.mpr ⟨hl, ?_⟩)
  rcases hph with h | h <;> simp [hc, h]

/-- A launch joins a queue of its context under the next number (R250). -/
def submitted (cn queue : Nat) (l : Launch) (s : State) : State :=
  { s with launches := s.launches ++ [l] }.modCtx cn (fun x =>
    { x with nextLaunch := l.id + 1, queues := modNth (fun q => { q with waiting := q.waiting ++ [s.launches.length] }) x.queues queue })

theorem submit_completes {c : Cmd} {s v : State} {x : Ctx} {queue : Nat} {desc : DWord} {deps : List (DWord × DWord)}
    (hp : plainCmd c = true) (hx : s.ctx? c.ctx = some x) (hq : queue < 64) (hdeps : deps.length ≤ 2)
    (hk : x.state ≠ .killed) (hlen : s.launches.length + 2 ≤ 2 ^ 32)
    (hcov : x.covers desc.toNat 128 (fun m => m.r) = true) (hv : fwTouch [(x.num, desc.toNat, 128)] s = some v) :
    let d := parseDesc (fwBytes v x.num desc.toNat 128)
    d.done.toNat % 16 = 0 → x.covers d.done.toNat 16 (fun m => m.r && m.w && !m.window) = true →
    ∃ id u, id ≠ 0 ∧ exec (.submit c queue desc deps) s = .next (complete c 0 (0#32 ++ id) u) ∧
      (∀ l ∈ s.launches, l.ctx = x.num → l.phase = .queued ∨ l.phase = .admitted → l.id ≠ id) ∧
      u.launches = s.launches ++ [{ ctx := x.num, id := id, queue := queue, descVa := desc, desc := d, deps := deps,
                                    phase := .queued, arm := x.armOf d.entry, started := [], finished := 0 }] ∧
      u = { (v.modCtx x.num (fun x => { x with nextLaunch := id + 1, queues := modNth (fun q =>
        { q with waiting := q.waiting ++ [s.launches.length] }) x.queues queue })) with launches := u.launches } := by
  intro d hdone hdcov
  have hlaunches : v.launches = s.launches := by rw [fwTouch_homes hv]
  have hfree := freeId_free (heldIds s x.num) x.nextLaunch (by have := heldIds_length s x.num; omega)
  generalize hid : freeId (heldIds s x.num) ((heldIds s x.num).length + 1) x.nextLaunch = id at hfree
  rw [List.mem_cons, not_or] at hfree
  have hargs : (decide (64 ≤ queue) || decide (2 < deps.length) || !x.covers desc.toNat 128 (fun m => m.r)) = false := by
    simp [hcov, hq, hdeps]
  have hdone' : (d.done.toNat % 16 != 0 || !x.covers d.done.toNat 16 (fun m => m.r && m.w && !m.window)) = false := by
    simp [hdone, hdcov]
  refine ⟨id, submitted x.num queue
    ⟨x.num, id, queue, desc, d, deps, .queued, x.armOf d.entry, [], 0⟩ v, hfree.1, ?_,
    fun l hl hc hph he => hfree.2 (he ▸ mem_heldIds hl hc hph), by rw [← hlaunches]; rfl, by rw [← hlaunches]; rfl⟩
  rw [exec_submit, execSubmit, onCtx_plain hp hx, if_neg hk, hargs, if_neg Bool.false_ne_true, fwRead_some hv]
  dsimp only
  rw [hdone', if_neg Bool.false_ne_true]
  have hheld : (v.launches.filter (fun l => l.ctx == x.num && (l.phase == .queued || l.phase == .admitted))).map (fun l => l.id) =
      heldIds s x.num := by rw [hlaunches]; rfl
  rw [hheld, hid]
  rfl

theorem powerCap_completes {c : Cmd} {watts : Nat} (s : State) (hp : plainCmd c = true) (h1 : 2400 ≤ watts)
    (h2 : watts ≤ 4000) : exec (.powerCap c watts) s = .next (complete c 0 0 { s with powerCap := watts }) := by
  have hv : ¬(plainCmd c = false ∨ watts < 2400 ∨ 4000 < watts) := by simp [hp, h1, h2]
  rw [exec_powerCap, execPowerCap, if_neg hv]

theorem ptpSetup_completes {c : Cmd} {domain transport : Nat} (stepOk : Bool) (s : State) (hp : plainCmd c = true)
    (h1 : domain < 256) (h2 : transport < 3) : exec (.ptpSetup c domain transport stepOk) s =
      .next (complete c 0 0 { s with ptp := some (domain, transport, stepOk),
                                     servo := if s.servo = .locked then .locked else .locking }) := by
  have hv : ¬(plainCmd c = false ∨ 256 ≤ domain ∨ 3 ≤ transport) := by simp [hp, h1, h2]
  rw [exec_ptpSetup, execPtpSetup, if_neg hv]

theorem timeStatus_completes {c : Cmd} (s : State) (hp : plainCmd c = true) :
    ∃ value, exec (.timeStatus c) s = .next (complete c 0 value s) :=
  ⟨_, by rw [exec_timeStatus, execTimeStatus, hp]; rfl⟩

theorem attest_completes {c : Cmd} {s : State} (nonce : DWord) (hp : plainCmd c = true)
    (hl : s.life = .provisioned ∨ s.life = .deployed) :
    ∃ value, exec (.attest c nonce) s = .next (complete c 0 value s) := by
  have hlife : (s.life == .manufacture || s.life == .returned) = false := by rcases hl with h | h <;> rw [h] <;> rfl
  exact ⟨_, by rw [exec_attest, execAttest, hp, hlife]; rfl⟩

theorem lifecycle_resets {c : Cmd} {s : State} {target : LifeState} {by_ : Signer} (hp : plainCmd c = true)
    (hstep : lifeStep s.life target by_ = true) (hout : (flushFw (complete c 0 0 s)).fwOut = []) :
    exec (.lifecycle c target by_) s = .next (resetPackage { flushFw (complete c 0 0 s) with life := target }) := by
  rw [exec_lifecycle, execLifecycle, hp, hstep]
  dsimp only
  rw [hout]
  rfl

theorem emuInstall_completes {c : Cmd} {library : DWord} {majors : List Nat} (s : State) (hp : plainCmd c = true)
    (hn : majors.Nodup) (hm : ∀ m ∈ majors, 56 ≤ m ∧ m ≤ 63) (hlib : library.toNat < 2 ^ 57) :
    exec (.emuInstall c library true majors) s = .next (complete c 0 0 { s with emuMajors := majors }) := by
  have hany : majors.any (fun m => decide (m < 56) || decide (63 < m)) = false := by
    rw [List.any_eq_false]
    intro m h
    have := hm m h
    simp only [Bool.or_eq_true, decide_eq_true_eq]
    omega
  have hv : ¬(plainCmd c = false ∨ ¬majors.Nodup ∨
      majors.any (fun m => decide (m < 56) || decide (63 < m)) = true ∨ 2 ^ 57 ≤ library.toNat) := by
    rw [hp, hany]
    simp only [hn, not_true_eq_false, Bool.true_eq_false, Bool.false_eq_true, false_or]
    omega
  rw [exec_emuInstall, execEmuInstall, if_neg hv]
  rfl

/-- The lowest number that no partition has. -/
theorem find?_free {s : State} {n : Nat} (hn : n < 9) (hfree : ∀ p ∈ s.parts, p.num ≠ n)
    (hused : ∀ m, m < n → ∃ p ∈ s.parts, p.num = m) :
    (List.range 9).find? (fun n => s.parts.all (fun p => p.num != n)) = some n := by
  rw [List.find?_range_eq_some]
  refine ⟨by simpa using hfree, List.mem_range.mpr hn, fun j hj => ?_⟩
  obtain ⟨p, hp, rfl⟩ := hused j hj
  simp only [Bool.not_eq_true', List.all_eq_false, bne_iff_ne, ne_eq, Decidable.not_not]
  exact ⟨p, hp, rfl⟩

theorem partCreate_completes {c : Cmd} {s : State} {dies weights : List Nat} {n : Nat} (hp : plainCmd c = true)
    (hne : dies ≠ []) (hnd : dies.Nodup) (hd : ∀ d ∈ dies, enabledDie s d = true ∧ ∀ p ∈ s.parts, d ∉ p.dies)
    (hw : weights = [] ∨ (weights.length = 4 ∧ ∀ w ∈ weights, 1 ≤ w ∧ w ≤ 8)) (hn : n < 9)
    (hfree : ∀ p ∈ s.parts, p.num ≠ n) (hused : ∀ m, m < n → ∃ p ∈ s.parts, p.num = m) :
    ∃ u, exec (.partCreate c dies weights) s = .next (complete c 0 (BitVec.ofNat 64 n) u) ∧
      u = { s with parts := u.parts, ifaces := u.ifaces } ∧ ∃ p, u.parts = s.parts ++ [p] ∧ p.num = n ∧
        p.dies.Perm dies ∧ p.weights = if weights = [] then [2, 2, 1, 4] else weights := by
  have hall : dies.all (fun d => enabledDie s d && s.parts.all (fun p => !p.dies.contains d)) = true := by
    simpa [List.all_eq_true] using hd
  have hwts : weights = [] ∨ (weights.length = 4 ∧ weights.all (fun w => decide (1 ≤ w) && decide (w ≤ 8)) = true) := by
    simpa [List.all_eq_true] using hw
  have hv : ¬(plainCmd c = false ∨ dies = [] ∨ ¬dies.Nodup ∨
      ¬dies.all (fun d => enabledDie s d && s.parts.all (fun p => !p.dies.contains d)) = true ∨
      ¬(weights = [] ∨ (weights.length = 4 ∧ weights.all (fun w => decide (1 ≤ w) && decide (w ≤ 8)) = true))) := by
    rw [hp]
    simp only [hne, hnd, hall, hwts, not_true_eq_false, Bool.true_eq_false, or_false]
    exact id
  refine ⟨_, by rw [exec_partCreate, execPartCreate, if_neg hv, find?_free hn hfree hused], rfl, _, rfl, rfl,
    List.mergeSort_perm .., rfl⟩

theorem partDestroy_completes {c : Cmd} {s : State} {p : Part} (hc : plainCmd c = true) (hp : s.part? p.num = some p)
    (hx : ∀ x ∈ s.ctxs, x.part ≠ p.num) : exec (.partDestroy c p.num) s = .next (complete c 0 0
      (unmapDies p.dies (wipeDies p.dies { s with parts := s.parts.filter (fun q => q.num != p.num) }))) := by
  have hany : s.ctxs.any (fun x => x.part == p.num) = false := by simpa using hx
  simp only [exec_partDestroy, execPartDestroy, hp, hc, hany, Bool.not_true, Bool.false_eq_true, if_false]

/-- Settles O47: one lemma for each command. -/
theorem settingCommandsComplete : Obligations.SettingCommandsComplete := by
  unfold Obligations.SettingCommandsComplete
  intro c s hp done onX
  refine ⟨fun x hx => ⟨fun _ _ ring hq hprio => queueSetup_completes ring hp hx hq hprio,
      fun seq => trapqAck_completes seq hp hx, fun mask => portBind_completes mask hp hx,
      fun _ hlen hk hq => orbitQuota_completes hp hx hlen hk hq,
      fun _ ring size mask hd => traceSetup_completes ring size mask hp hx hd,
      fun _ _ _ h8 h57 hm hr hw hwin hpres hccb => eventSignal_completes hp hx h8 h57 hm hr hw hwin hpres hccb,
      fun _ _ _ _ hq hdeps hk hlen hcov hv => submit_completes hp hx hq hdeps hk hlen hcov hv⟩,
    fun _ h1 h2 => powerCap_completes s hp h1 h2, fun _ _ stepOk h1 h2 => ptpSetup_completes stepOk s hp h1 h2,
    timeStatus_completes s hp, fun nonce hl => attest_completes nonce hp hl,
    fun _ _ hstep hout => lifecycle_resets hp hstep hout,
    fun _ _ hn hm hlib => emuInstall_completes s hp hn hm hlib,
    fun _ _ _ hne hnd hd hw hn hfree hused => partCreate_completes hp hne hnd hd hw hn hfree hused,
    fun _ hpart hx => partDestroy_completes hp hpart hx⟩

end Sys2Proof.Machine
end

section
namespace Sys2Proof.Machine
open Sys2Proof

/-! ## Contexts after a kill (R241) -/

/-- A context has a record of a kill with an AUX. -/
def KillRecord (aux : DWord) (x : Ctx) : Prop := ∃ r ∈ x.traps, r.cause = .kill ∧ r.aux = aux

/-- A context as kills of contexts of some numbers may leave it: its number and partition stay, one of another number changes in
its service log alone, a dead one stays dead and no record of a kill goes. -/
structure CtxStep (P : Nat → Prop) (x y : Ctx) : Prop where
  num : y.num = x.num
  part : y.part = x.part
  other : ¬P x.num → y = { x with svclog := y.svclog }
  killed : x.state = .killed → y.state = .killed
  record : ∀ aux, KillRecord aux x → KillRecord aux y

theorem CtxStep.refl (P : Nat → Prop) (x : Ctx) : CtxStep P x x := ⟨rfl, rfl, fun _ => rfl, id, fun _ => id⟩

theorem CtxStep.trans {P : Nat → Prop} {x y z : Ctx} (h1 : CtxStep P x y) (h2 : CtxStep P y z) : CtxStep P x z where
  num := h2.num.trans h1.num
  part := h2.part.trans h1.part
  other hn := (h2.other (by rw [h1.num]; exact hn)).trans (congrArg (fun w : Ctx => { w with svclog := z.svclog }) (h1.other hn))
  killed := h2.killed ∘ h1.killed
  record aux := h2.record aux ∘ h1.record aux

/-- The contexts after some steps of kills. -/
def CtxsKept (P : Nat → Prop) (s t : State) : Prop := ∃ F : Ctx → Ctx, t.ctxs = s.ctxs.map F ∧ ∀ x, CtxStep P x (F x)

theorem ctxsKept_of_eq {P : Nat → Prop} {s t : State} (h : t.ctxs = s.ctxs) : CtxsKept P s t :=
  ⟨id, by rw [h, List.map_id], CtxStep.refl P⟩

theorem CtxsKept.trans {P : Nat → Prop} {s t u : State} (h1 : CtxsKept P s t) (h2 : CtxsKept P t u) : CtxsKept P s u := by
  obtain ⟨F, hF, hs⟩ := h1
  obtain ⟨G, hG, hs'⟩ := h2
  exact ⟨G ∘ F, by rw [hG, hF, List.map_map], fun x => (hs x).trans (hs' (F x))⟩

/-- Context lookups follow a change that keeps numbers. -/
theorem ctx?_map {s t : State} {F : Ctx → Ctx} (h : t.ctxs = s.ctxs.map F) (hF : ∀ x, (F x).num = x.num) (n : Nat) :
    t.ctx? n = (s.ctx? n).map F := by
  have hp : (fun x : Ctx => x.num == n) ∘ F = fun x => x.num == n := by funext x; simp [hF]
  rw [State.ctx?, State.ctx?, h, List.find?_map, hp]

theorem ctx?_modCtx_same (s : State) (n : Nat) {f : Ctx → Ctx} (hf : ∀ x, (f x).num = x.num) :
    (s.modCtx n f).ctx? n = (s.ctx? n).map f := by
  have hmap := ctx?_map (s := s) (t := s.modCtx n f) (F := fun x => if x.num = n then f x else x) rfl
    (fun x => by split <;> simp [hf]) n
  rw [hmap]
  cases hx : s.ctx? n with
  | none => rfl
  | some x => rw [Option.map_some, Option.map_some, if_pos (by simpa using List.find?_some hx)]

theorem CtxsKept.ctx? {P : Nat → Prop} {s t : State} (h : CtxsKept P s t) {n : Nat} {x : Ctx} (hx : s.ctx? n = some x) :
    ∃ y, t.ctx? n = some y ∧ CtxStep P x y := by
  obtain ⟨F, hF, hs⟩ := h
  exact ⟨F x, by rw [ctx?_map hF (fun x => (hs x).num), hx]; rfl, hs x⟩

theorem modCtx_kept {P : Nat → Prop} {n : Nat} (s : State) {f : Ctx → Ctx} (hf : ∀ x, x.num = n → CtxStep P x (f x)) :
    CtxsKept P s (s.modCtx n f) := by
  refine ⟨fun x => if x.num = n then f x else x, rfl, fun x => ?_⟩
  dsimp only
  split
  · exact hf x ‹_›
  · exact CtxStep.refl P x

/-- Only what a kill touches differs (R169, R213, R228, R241). -/
def KillFrame (s t : State) : Prop :=
  t = { s with fwOut := t.fwOut, taken := t.taken, outbox := t.outbox, nonces := t.nonces, keyEpoch := t.keyEpoch, slots := t.slots,
               groups := t.groups, acc := t.acc, engines := t.engines, matq := t.matq, orbitOps := t.orbitOps,
               routines := t.routines, channels := t.channels, offers := t.offers, blocks := t.blocks, ctxs := t.ctxs,
               launches := t.launches }

theorem KillFrame.trans {s t u : State} (h1 : KillFrame s t) (h2 : KillFrame t u) : KillFrame s u :=
  Eq.trans h2 (congrArg (fun z : State =>
    { z with fwOut := u.fwOut, taken := u.taken, outbox := u.outbox, nonces := u.nonces, keyEpoch := u.keyEpoch, slots := u.slots,
             groups := u.groups, acc := u.acc, engines := u.engines, matq := u.matq, orbitOps := u.orbitOps,
             routines := u.routines, channels := u.channels, offers := u.offers, blocks := u.blocks, ctxs := u.ctxs,
             launches := u.launches }) h1)

/-- Steps of kills: the frame, the contexts, and that no launch changes its context. -/
structure KillEffect (P : Nat → Prop) (s t : State) : Prop where
  frame : KillFrame s t
  ctxs : CtxsKept P s t
  owners : t.launches.map (fun l => l.ctx) = s.launches.map (fun l => l.ctx)

theorem KillEffect.refl (P : Nat → Prop) (s : State) : KillEffect P s s := ⟨rfl, ctxsKept_of_eq rfl, rfl⟩

theorem KillEffect.trans {P : Nat → Prop} {s t u : State} (h1 : KillEffect P s t) (h2 : KillEffect P t u) : KillEffect P s u :=
  ⟨h1.frame.trans h2.frame, h1.ctxs.trans h2.ctxs, h2.owners.trans h1.owners⟩

theorem killEffect_of_frame (P : Nat → Prop) {s t : State} (h : KillFrame s t) (hc : t.ctxs = s.ctxs) (hl : t.launches = s.launches) :
    KillEffect P s t := ⟨h, ctxsKept_of_eq hc, by rw [hl]⟩

theorem modCtx_effect {P : Nat → Prop} {n : Nat} (s : State) {f : Ctx → Ctx} (hf : ∀ x, x.num = n → CtxStep P x (f x)) :
    KillEffect P s (s.modCtx n f) := ⟨rfl, modCtx_kept s hf, rfl⟩

/-! ### Messages to peers -/

/-- Only messages to peers and what counts them differ (R243, R255). -/
def MessagesOnly (s t : State) : Prop := t = { s with outbox := t.outbox, nonces := t.nonces, keyEpoch := t.keyEpoch }

theorem MessagesOnly.trans {s t u : State} (h1 : MessagesOnly s t) (h2 : MessagesOnly t u) : MessagesOnly s u :=
  Eq.trans h2 (congrArg (fun z : State => { z with outbox := u.outbox, nonces := u.nonces, keyEpoch := u.keyEpoch }) h1)

theorem countFlit_messages (s : State) (l : Link) (received : Bool) : MessagesOnly s (s.countFlit l received) := by
  have rotated (b : Bool) (n : List (Link × Nat × Nat)) :
      MessagesOnly s { (if b = true then s.rotateKeys l else s) with nonces := n } := by cases b <;> rfl
  exact rotated _ _

theorem sendMsg_messages (ports : List Nat) (session k : Nat) (what : OutKind) (vals : List Word) (rank : Nat) (s : State) :
    MessagesOnly s (sendMsg ports session k what vals rank s) :=
  (countFlit_messages s (.port (ports.getD rank 0xFF)) false).trans (t := s.countFlit _ false) rfl

theorem foldl_messages {α : Type} {f : State → α → State} (hf : ∀ s a, MessagesOnly s (f s a)) (l : List α) (s : State) :
    MessagesOnly s (l.foldl f s) :=
  foldl_keeps (MessagesOnly s) f (fun _ a h => h.trans (hf _ a)) l s rfl

theorem tellEnd_messages (o : Coll) (what : OutKind) (s : State) : MessagesOnly s (tellEnd o what s) :=
  foldl_messages (fun s _ => sendMsg_messages _ _ _ _ _ _ s) _ s

theorem tellPeers_messages (cn : Nat) (s : State) : MessagesOnly s (tellPeers cn s) := by
  unfold tellPeers
  dsimp only
  refine MessagesOnly.trans (foldl_messages (fun s o => ?_) _ s)
    (foldl_messages (fun s e => foldl_messages (fun s r => sendMsg_messages ..) _ s) _ _)
  split
  · split
    · exact tellEnd_messages ..
    · rfl
  · rfl

theorem MessagesOnly.effect (P : Nat → Prop) {s t : State} (h : MessagesOnly s t) : KillEffect P s t := by
  refine killEffect_of_frame P ?_ (by rw [h]) (by rw [h])
  unfold KillFrame
  rw [h]

/-! ### Records and completions -/

theorem post_effect (P : Nat → Prop) (a : FwAccess) (s : State) : KillEffect P s (s.post a) := killEffect_of_frame P rfl rfl rfl

theorem fwStore_effect (P : Nat → Prop) (n va : Nat) (bs : List Byte) (s : State) : KillEffect P s (fwStore n va bs s) := post_effect ..

theorem complete_effect (P : Nat → Prop) (c : Cmd) (status : Nat) (value : DWord) (s : State) :
    KillEffect P s (complete c status value s) := by
  refine killEffect_of_frame P ?_ ?_ ?_
  · unfold KillFrame; rw [complete_only]
  · rw [complete_only]
  · rw [complete_only]

/-- A record added stands among the records, and every other one stays, each with a number of its own. -/
theorem mem_withTrap {c : Ctx} {r q : TrapRec} (h : q = r ∨ q ∈ c.traps) :
    ∃ q' ∈ c.withTrap r, q' = { q with seq := q'.seq } := by
  have renumbered {l : List TrapRec} (k : Nat) (hq : q ∈ l) :
      ∃ q' ∈ (l.zipIdx k).map (fun x => { x.1 with seq := BitVec.ofNat 32 (c.head + x.2) }), q' = { q with seq := q'.seq } := by
    obtain ⟨j, hj⟩ := List.mem_iff_getElem?.mp hq
    have hz : (q, k + j) ∈ l.zipIdx k := List.mem_iff_getElem?.mpr ⟨j, by rw [List.getElem?_zipIdx, hj]; rfl⟩
    exact ⟨_, List.mem_map_of_mem hz, rfl⟩
  unfold Ctx.withTrap
  dsimp only
  generalize hfirst : c.traps.takeWhile (fun q => !r.before q) = first
  rcases h with rfl | h
  · obtain ⟨q', hq', he⟩ := renumbered first.length (List.mem_cons_self (l := c.traps.drop first.length))
    exact ⟨q', List.mem_append_right _ hq', he⟩
  · have hsplit : c.traps = first ++ c.traps.drop first.length := by
      rw [← hfirst]; exact List.prefix_iff_eq_append.mp (List.takeWhile_prefix _) |>.symm
    rw [hsplit, List.mem_append] at h
    rcases h with h | h
    · exact ⟨q, List.mem_append_left _ h, rfl⟩
    · obtain ⟨q', hq', he⟩ := renumbered first.length (List.mem_cons_of_mem r h)
      exact ⟨q', List.mem_append_right _ hq', he⟩

theorem killRecord_withTrap {aux : DWord} {x : Ctx} (r : TrapRec) (h : KillRecord aux x ∨ r.cause = .kill ∧ r.aux = aux) :
    KillRecord aux { x with traps := x.withTrap r } := by
  obtain ⟨q, hq, hc, ha⟩ : ∃ q, (q = r ∨ q ∈ x.traps) ∧ q.cause = .kill ∧ q.aux = aux := by
    rcases h with ⟨q, hq, hc, ha⟩ | ⟨hc, ha⟩
    · exact ⟨q, .inr hq, hc, ha⟩
    · exact ⟨r, .inl rfl, hc, ha⟩
  obtain ⟨q', hq', he⟩ := mem_withTrap hq
  exact ⟨q', hq', by rw [he]; exact hc, by rw [he]; exact ha⟩

theorem appendRecord_effect {P : Nat → Prop} {cn : Nat} (hP : P cn) (r : TrapRec) (s : State) :
    KillEffect P s (appendRecord cn r s) :=
  modCtx_effect s fun _ hn => ⟨rfl, rfl, fun h => absurd (hn ▸ hP) h, id, fun _ h => killRecord_withTrap _ (.inl h)⟩

theorem flushTraps_effect {P : Nat → Prop} {cn : Nat} (hP : P cn) :
    ∀ (n : Nat) (s : State), KillEffect P s (flushTraps cn n s)
  | 0, s => KillEffect.refl P s
  | n + 1, s => by
    have moved (c : Ctx) (r : TrapRec) : KillEffect P s
        ((fwStore cn (c.trapq.toNat + 32 * (c.tail % 256)) r.bytes s).modCtx cn (fun c => { c with tail := c.tail + 1 })) :=
      (fwStore_effect ..).trans (modCtx_effect _ fun _ hn => ⟨rfl, rfl, fun h => absurd (hn ▸ hP) h, id, fun _ => id⟩)
    unfold flushTraps
    split
    · exact KillEffect.refl P s
    · split
      · exact KillEffect.refl P s
      · dsimp only
        split
        · exact KillEffect.refl P s
        · refine KillEffect.trans ?_ (flushTraps_effect hP n _)
          split
          · exact moved ..
          · exact (moved ..).trans (post_effect ..)

theorem assignCalls_effect (P : Nat → Prop) (s : State) : KillEffect P s (assignCalls s) :=
  foldl_keeps (KillEffect P s) _ (fun _ _ h => by
    split
    · exact h.trans (modCtx_effect _ fun _ _ => ⟨rfl, rfl, fun _ => rfl, id, fun _ => id⟩)
    · exact h) _ s (KillEffect.refl P s)

/-- The end of a launch of the context: its phase, and its record or firmware's writes. -/
theorem endLaunch_effect {P : Nat → Prop} {li : Nat} {s : State} (h : ∀ l, s.launch? li = some l → P l.ctx) :
    KillEffect P s (endLaunch li .killed s) := by
  unfold endLaunch
  split
  · exact KillEffect.refl P s
  case h_2 l hl =>
    have hmod : KillEffect P s (s.modLaunch li (fun l => { l with phase := .killed })) := by
      refine ⟨rfl, ctxsKept_of_eq rfl, List.ext_getElem? fun j => ?_⟩
      rw [List.getElem?_map, List.getElem?_map, State.modLaunch, modNth_get]
      split
      · rw [Option.map_map]; rfl
      · rfl
    dsimp only
    refine hmod.trans ?_
    unfold signalDone
    split
    · exact appendRecord_effect (h l hl) ..
    · exact (fwStore_effect ..).trans (post_effect ..)

theorem owner_of_map {s t : State} (h : t.launches.map (fun l => l.ctx) = s.launches.map (fun l => l.ctx)) (li : Nat) :
    (t.launch? li).map (fun l => l.ctx) = (s.launch? li).map (fun l => l.ctx) := by
  have hl := congrArg (fun l : List Nat => l[li]?) h
  rwa [List.getElem?_map, List.getElem?_map] at hl

theorem endLaunches_effect {P : Nat → Prop} {cn : Nat} (hP : P cn) {lis : List Nat} {s : State}
    (h : ∀ li ∈ lis, (s.launch? li).map (fun l => l.ctx) = some cn) :
    KillEffect P s (lis.foldl (fun s li => endLaunch li .killed s) s) := by
  induction lis generalizing s with
  | nil => exact KillEffect.refl P s
  | cons li rest ih =>
    have hli : KillEffect P s (endLaunch li .killed s) := endLaunch_effect fun l hl => by
      have hctx := h li (List.mem_cons_self ..)
      rw [hl] at hctx
      rwa [show l.ctx = cn from Option.some.inj hctx]
    refine hli.trans (ih fun k hk => ?_)
    rw [owner_of_map hli.owners]
    exact h k (List.mem_cons_of_mem _ hk)

/-! ### The kill -/

/-- The last part of a kill: the command that waits for a save, the ends of launches, the record of the kill and what moves into
the ring. -/
theorem kill_end {P : Nat → Prop} {cn : Nat} (hP : P cn) {aux : DWord} {lis : List Nat} {s : State} {x : Ctx}
    (hx : s.ctx? cn = some x) (hk : x.state = .killed)
    (h : ∀ li ∈ lis, (s.launch? li).map (fun l => l.ctx) = some cn) :
    let u := appendRecord cn (splitlessRecord .kill 0 aux) (lis.foldl (fun s li => endLaunch li .killed s) s)
    let t := assignCalls (flushTraps cn (((u.ctx? cn).map (fun c => c.traps.length)).getD 0) u)
    KillEffect P s t ∧ ∃ d, t.ctx? cn = some d ∧ d.state = .killed ∧ KillRecord aux d := by
  intro u t
  have hends := endLaunches_effect hP h
  obtain ⟨y, hy, hxy⟩ := hends.ctxs.ctx? hx
  have hu := ctx?_modCtx_same (lis.foldl (fun s li => endLaunch li .killed s) s) cn (f := fun c =>
    { c with traps := c.withTrap { splitlessRecord .kill 0 aux with
      cycle := (lis.foldl (fun s li => endLaunch li .killed s) s).cycle.toNat } }) (fun _ => rfl)
  rw [hy] at hu
  have htail : KillEffect P u t := (flushTraps_effect hP ..).trans (assignCalls_effect ..)
  refine ⟨(hends.trans (appendRecord_effect hP ..)).trans htail, ?_⟩
  obtain ⟨d, hd, hud⟩ := htail.ctxs.ctx? hu
  exact ⟨d, hd, hud.killed (hxy.killed hk), hud.record aux (killRecord_withTrap _ (.inr ⟨rfl, rfl⟩))⟩

/-- A context as a kill marks it: dead, with no call, no save and no launch in a queue. -/
def Ctx.marked (c : Ctx) : Ctx :=
  { c with state := .killed, reason := some .kill, stopping := false, saveCmd := none, svclog := List.replicate 16 none,
           queues := c.queues.map (fun q => { q with waiting := [] }) }

/-- A kill of a context that lives marks it, answers the command that waits for its save, ends its launches and records the kill;
what goes before leaves contexts and launches as they are. -/
theorem killCtx_eq {cn : Nat} {s : State} {c : Ctx} (sub : Nat) (h : s.ctx? cn = some c) (hk : c.state ≠ .killed) :
    ∃ (v : State) (lis : List Nat), KillFrame s v ∧ v.ctxs = s.ctxs ∧ v.launches = s.launches ∧
      (∀ li ∈ lis, (s.launch? li).map (fun l => l.ctx) = some cn) ∧
      killCtx cn sub s =
        let w := c.saveCmd.elim (v.modCtx cn Ctx.marked) (fun cmd => complete cmd 4 0 (v.modCtx cn Ctx.marked))
        let u := appendRecord cn (splitlessRecord .kill 0 (BitVec.ofNat 64 sub)) (lis.foldl (fun s li => endLaunch li .killed s) w)
        assignCalls (flushTraps cn (((u.ctx? cn).map (fun c => c.traps.length)).getD 0) u) := by
  have hpeers := tellPeers_messages cn s
  have hctxs : (tellPeers cn s).ctxs = s.ctxs := by rw [hpeers]
  have hlaunches : (tellPeers cn s).launches = s.launches := by rw [hpeers]
  have drops (t : State) (gs : List Group) (as : List Access) (es : List EngineOp) (ms : List MatEntry) (os : List OrbitOp)
      (rs : List (Nat × Nat × Nat)) (cs : List Channel) (fs : List (Agent × Instr × Nat)) :
      KillFrame t { clearSlots cn t with groups := gs, acc := as, engines := es, matq := ms, orbitOps := os, routines := rs,
                                         channels := cs, offers := fs } := rfl
  have spoils (b : Bool) (t : State) :
      let u := if b = true then (t.ctxBlocks cn).foldl (fun s b => spoilSave cn b.2.saveArea s) t else t
      KillFrame t u ∧ u.ctxs = t.ctxs ∧ u.launches = t.launches := by
    dsimp only
    split
    · exact foldl_keeps (fun u => KillFrame t u ∧ u.ctxs = t.ctxs ∧ u.launches = t.launches) _
        (fun u b hu => ⟨hu.1.trans (fwStore_effect (· = cn) ..).frame, hu.2.1, hu.2.2⟩) _ t ⟨rfl, rfl, rfl⟩
    · exact ⟨rfl, rfl, rfl⟩
  have completes (t : State) (bs : List Block) : KillFrame t { t with blocks := bs } := rfl
  have owned : ∀ li ∈ ((s.launches.zipIdx).filter (fun (x : Launch × Nat) => x.1.ctx == cn)).map (fun x => x.2),
      (s.launch? li).map (fun l => l.ctx) = some cn := by
    intro li hli
    obtain ⟨x, hx, rfl⟩ := List.mem_map.mp hli
    obtain ⟨hz, hc⟩ := List.mem_filter.mp hx
    rw [State.launch?, List.mem_zipIdx_iff_getElem?.mp hz, Option.map_some]
    exact congrArg some (by simpa using hc)
  unfold killCtx
  rw [h]
  dsimp only
  rw [if_neg hk]
  cases hs : c.saveCmd
  all_goals
    refine ⟨_, _, ?_, ?_, ?_, ?_, rfl⟩
    · exact (((hpeers.effect (· = cn)).frame.trans (drops ..)).trans (spoils c.stopping _).1).trans (completes ..)
    · exact (spoils c.stopping _).2.1.trans hctxs
    · exact (spoils c.stopping _).2.2.trans hlaunches
    · exact fun li hli => owned li (List.mem_filter.mp hli).1

/-- A kill of a context that lives: its frame, and the context dead with its record (R241). -/
theorem killCtx_kills {P : Nat → Prop} {cn : Nat} (hP : P cn) {s : State} {c : Ctx} (sub : Nat)
    (h : s.ctx? cn = some c) (hk : c.state ≠ .killed) :
    KillEffect P s (killCtx cn sub s) ∧ ∃ d, (killCtx cn sub s).ctx? cn = some d ∧ d.state = .killed ∧
      KillRecord (BitVec.ofNat 64 sub) d := by
  obtain ⟨v, lis, hframe, hctxs, hlaunches, hlis, he⟩ := killCtx_eq sub h hk
  have hsv : KillEffect P s v := killEffect_of_frame P hframe hctxs hlaunches
  have hmark : KillEffect P v (v.modCtx cn Ctx.marked) :=
    modCtx_effect v fun x hn => ⟨rfl, rfl, fun hne => absurd (hn ▸ hP) hne, fun _ => rfl, fun _ => id⟩
  have hv : v.ctx? cn = some c := by rw [State.ctx?, hctxs]; exact h
  have hm : (v.modCtx cn Ctx.marked).ctx? cn = some c.marked := by
    rw [ctx?_modCtx_same v cn (f := Ctx.marked) (fun _ => rfl), hv]; rfl
  have hanswer : KillEffect P (v.modCtx cn Ctx.marked)
      (c.saveCmd.elim (v.modCtx cn Ctx.marked) (fun cmd => complete cmd 4 0 (v.modCtx cn Ctx.marked))) := by
    cases c.saveCmd with
    | none => exact KillEffect.refl ..
    | some cmd => exact complete_effect ..
  obtain ⟨w, hw, hcw⟩ := hanswer.ctxs.ctx? hm
  have hall := (hsv.trans hmark).trans hanswer
  obtain ⟨hend, hdead⟩ := kill_end hP (aux := BitVec.ofNat 64 sub) (lis := lis) hw (hcw.killed rfl)
    (fun li hli => by rw [owner_of_map hall.owners]; exact hlis li hli)
  rw [he]
  exact ⟨hall.trans hend, hdead⟩

theorem killCtx_dead {cn : Nat} {s : State} (sub : Nat) (h : ∀ c, s.ctx? cn = some c → c.state = .killed) :
    killCtx cn sub s = s := by
  unfold killCtx
  split
  · rfl
  · rw [if_pos (h _ ‹_›)]

theorem killCtx_effect {P : Nat → Prop} {cn : Nat} (hP : P cn) (sub : Nat) (s : State) : KillEffect P s (killCtx cn sub s) := by
  by_cases h : ∃ c, s.ctx? cn = some c ∧ c.state ≠ .killed
  · obtain ⟨c, hc, hk⟩ := h
    exact (killCtx_kills hP sub hc hk).1
  · rw [killCtx_dead sub fun c hc => by_contra fun hk => h ⟨c, hc, hk⟩]
    exact KillEffect.refl ..

/-- Kills of the contexts of a list. -/
theorem killAll_effect {P : Nat → Prop} (sub : Nat) {l : List Ctx} (hP : ∀ c ∈ l, P c.num) (s : State) :
    KillEffect P s (l.foldl (fun s c => killCtx c.num sub s) s) := by
  induction l generalizing s with
  | nil => exact KillEffect.refl P s
  | cons c rest ih =>
    exact (killCtx_effect (hP c (List.mem_cons_self ..)) sub s).trans (ih (fun d hd => hP d (List.mem_cons_of_mem _ hd)) _)

/-- Each context of the list that lived is dead, with the record of its kill. -/
theorem killAll_kills {sub : Nat} {l : List Ctx} {n : Nat} {s : State} {x : Ctx} (hn : ∃ c ∈ l, c.num = n)
    (hx : s.ctx? n = some x) (hk : x.state ≠ .killed) :
    ∃ d, (l.foldl (fun s c => killCtx c.num sub s) s).ctx? n = some d ∧ d.state = .killed ∧
      KillRecord (BitVec.ofNat 64 sub) d := by
  induction l generalizing s x with
  | nil => obtain ⟨c, hc, -⟩ := hn; cases hc
  | cons c rest ih =>
    by_cases hc : c.num = n
    · obtain ⟨-, d, hd, hdk, hdr⟩ := killCtx_kills (P := fun _ => True) trivial sub hx hk
      obtain ⟨e, he, hde⟩ := (killAll_effect (P := fun _ => True) sub (fun _ _ => trivial) (l := rest) (killCtx n sub s)).ctxs.ctx? hd
      rw [List.foldl_cons, hc]
      exact ⟨e, he, hde.killed hdk, hde.record _ hdr⟩
    · obtain ⟨y, hy, hxy⟩ := (killCtx_effect (P := (· = c.num)) rfl sub s).ctxs.ctx? hx
      have hyk : y.state ≠ .killed := by
        rw [hxy.other (by rw [ctx?_num hx]; exact fun h => hc h.symm)]
        exact hk
      refine ih ?_ hy hyk
      obtain ⟨c', hc', he⟩ := hn
      rcases List.mem_cons.mp hc' with rfl | hr
      · exact absurd he hc
      · exact ⟨c', hr, he⟩

/-! ### Kills of a partition (R242) -/

theorem killPart_effect {P : Nat → Prop} {p : Nat} (sub : Nat) {s : State} (hP : ∀ c ∈ s.ctxs, c.part = p → P c.num) :
    KillEffect P s (killPart p sub s) :=
  killAll_effect sub (fun c hc => hP c (List.mem_filter.mp hc).1 (by simpa using (List.mem_filter.mp hc).2)) s

theorem killPart_kills {p sub n : Nat} {s : State} {x : Ctx} (hx : s.ctx? n = some x) (hp : x.part = p)
    (hk : x.state ≠ .killed) : ∃ d, (killPart p sub s).ctx? n = some d ∧ d.state = .killed ∧ KillRecord (BitVec.ofNat 64 sub) d :=
  killAll_kills ⟨x, List.mem_filter.mpr ⟨ctx?_mem hx, by simp [hp]⟩, ctx?_num hx⟩ hx hk

end Sys2Proof.Machine
end

section
namespace Sys2Proof.Machine
open Sys2Proof

/-! ## Freezing (R244) -/

/-- Only what a halt of groups touches differs (R235). -/
def HaltOnly (s t : State) : Prop := t = { s with groups := t.groups, acc := t.acc, matq := t.matq, orbitOps := t.orbitOps }

theorem HaltOnly.trans {s t u : State} (h1 : HaltOnly s t) (h2 : HaltOnly t u) : HaltOnly s u :=
  Eq.trans h2 (congrArg (fun z : State =>
    { z with groups := u.groups, acc := u.acc, matq := u.matq, orbitOps := u.orbitOps }) h1)

theorem sweep_halt (gi : Nat) (s : State) : HaltOnly s (sweep gi s) := by
  have swept (as : List Access) (f : Group → Group) : HaltOnly s ({ s with acc := as }.modGroup gi f) := rfl
  exact swept _ _

theorem endAccess_halt (a : Access) (s : State) : HaltOnly s (endAccess a s) := rfl

theorem dropUnperformed_halt (id : Nat) (s : State) : HaltOnly s (dropUnperformed id s) := by
  have dropped (f : Access → Access) : HaltOnly s (s.modAccess id f) := rfl
  unfold dropUnperformed
  dsimp only
  split
  · exact dropped _
  · exact ((dropped _).trans (endAccess_halt ..)).trans (sweep_halt ..)

theorem abandonWait_halt (gi si : Nat) (s : State) : HaltOnly s (abandonWait gi si s) := by
  have clear (t : State) (pend : LaneMask) :
      HaltOnly t (t.modSplit gi si (fun p => { p with wait := .none, pend := pend })) := rfl
  unfold abandonWait
  cases (s.group? gi).bind (fun g => g.split? si) with
  | none => exact rfl
  | some p =>
    dsimp only
    cases p.wait with
    | access id =>
      dsimp only
      split
      · rfl
      · exact (dropUnperformed_halt ..).trans (clear ..)
    | emulation _ =>
      dsimp only
      split
      · exact clear ..
      · rfl
    | orbit op => exact HaltOnly.trans (t := { s with orbitOps := s.orbitOps.filter (fun o => o.id != op) }) rfl (clear ..)
    | _ => exact rfl

theorem haltGroup_halt (gi : Nat) (s : State) : HaltOnly s (haltGroup gi s) := by
  unfold haltGroup
  split
  · rfl
  · exact (foldl_keeps (HaltOnly s) _ (fun _ _ h => h.trans (abandonWait_halt ..)) _ s rfl).trans rfl

theorem stopGroups_halt (gis : List Nat) (s : State) : HaltOnly s (stopGroups gis s) :=
  foldl_keeps (HaltOnly s) _ (fun _ _ h => h.trans (haltGroup_halt ..)) gis (cancelWaiting gis s) rfl

/-- A split stands at an instruction with a wait that has a property. -/
def StandsAt (P : Wait → Prop) (gi si : Nat) (pc : DWord) (s : State) : Prop :=
  ∃ g p, s.group? gi = some g ∧ g.split? si = some p ∧ P p.wait ∧ p.pc = pc

/-- A change of a group under which its splits stand where they stood, or where their waits are cleared. -/
def StandsStill (P : Wait → Prop) (f : Group → Group) : Prop :=
  ∀ g si p, g.split? si = some p → P p.wait → ∃ q, (f g).split? si = some q ∧ P q.wait ∧ q.pc = p.pc

/-- A lookup of a split follows a change of every split that keeps their numbers. -/
theorem split?_map {g h : Group} {F : Split → Split} (hs : h.splits = g.splits.map F) (hF : ∀ p, (F p).idx = p.idx) (si : Nat) :
    h.split? si = (g.split? si).map F := by
  have hp : (fun p : Split => p.idx == si) ∘ F = fun p => p.idx == si := by funext p; simp [hF]
  rw [Group.split?, Group.split?, hs, List.find?_map, hp]

theorem standsStill_of_map {P : Wait → Prop} {f : Group → Group} (F : Split → Split) (hs : ∀ g, (f g).splits = g.splits.map F)
    (hidx : ∀ p, (F p).idx = p.idx) (hw : ∀ p, P p.wait → P (F p).wait) (hpc : ∀ p, (F p).pc = p.pc) : StandsStill P f :=
  fun g si p hp hP => ⟨F p, by rw [split?_map (hs g) hidx, hp]; rfl, hw p hP, hpc p⟩

theorem StandsAt.modGroup {P : Wait → Prop} {gi si j : Nat} {pc : DWord} {s : State} {f : Group → Group}
    (hf : StandsStill P f) (h : StandsAt P gi si pc s) : StandsAt P gi si pc (s.modGroup j f) := by
  obtain ⟨g, p, hg, hp, hP, hpc⟩ := h
  by_cases hj : gi = j
  · subst hj
    obtain ⟨q, hq, hQ, hqpc⟩ := hf g si p hp hP
    exact ⟨f g, q, group?_modGroup_same f hg, hq, hQ, hqpc.trans hpc⟩
  · exact ⟨g, p, by rw [group?_modGroup_other f hj, hg], hp, hP, hpc⟩

theorem standsStill_clear {P : Wait → Prop} (hP : P .none) (sj : Nat) (pend : LaneMask) :
    StandsStill P (fun g => g.modSplit sj (fun p => { p with wait := .none, pend := pend })) :=
  standsStill_of_map (fun p => if p.idx = sj then { p with wait := .none, pend := pend } else p) (fun _ => rfl)
    (fun p => by split <;> rfl) (fun p h => by split; exacts [hP, h]) (fun p => by split <;> rfl)

theorem standsStill_release (P : Wait → Prop) (op : Nat) (fl : Group → FlagBits) :
    StandsStill P (fun g => { g.release op with flags := fl g }) :=
  standsStill_of_map _ (fun _ => rfl) (fun _ => rfl) (fun _ => id) (fun _ => rfl)

theorem dropUnperformed_stands {P : Wait → Prop} {gi si id : Nat} {pc : DWord} {s : State} (h : StandsAt P gi si pc s) :
    StandsAt P gi si pc (dropUnperformed id s) := by
  unfold dropUnperformed
  dsimp only
  split
  · exact h
  case h_2 a _ =>
    have hend : StandsAt P gi si pc
        (endAccess a (s.modAccess id (fun a => { a with lanes := a.lanes.filter (fun l => l.stage == .done) }))) :=
      StandsAt.modGroup (standsStill_release _ _ _) h
    exact StandsAt.modGroup (fun g sj p hp hP => ⟨p, hp, hP, rfl⟩) hend

theorem abandonWait_stands {P : Wait → Prop} (hP : P .none) {gi si gj sj : Nat} {pc : DWord} {s : State}
    (h : StandsAt P gi si pc s) : StandsAt P gi si pc (abandonWait gj sj s) := by
  have clear {t : State} (pend : LaneMask) (ht : StandsAt P gi si pc t) :
      StandsAt P gi si pc (t.modSplit gj sj (fun p => { p with wait := .none, pend := pend })) :=
    ht.modGroup (standsStill_clear hP sj pend)
  unfold abandonWait
  cases (s.group? gj).bind (fun g => g.split? sj) with
  | none => exact h
  | some p =>
    dsimp only
    cases p.wait with
    | access id =>
      dsimp only
      split
      · exact h
      · exact clear _ (dropUnperformed_stands h)
    | emulation _ =>
      dsimp only
      split
      · exact clear _ h
      · exact h
    | none | join | bar _ | cbar _ | replay _ | service _ _ => exact h
    | _ => exact clear _ h

/-- The waits of YIELD and of SLEEP, and none. -/
def Idle (w : Wait) : Prop := w = .none ∨ (∃ till, w = .yield till) ∨ ∃ instant next, w = .sleep instant next

theorem abandonWait_clears {gi si : Nat} {pc : DWord} {s : State} (h : StandsAt Idle gi si pc s) :
    StandsAt (· = .none) gi si pc (abandonWait gi si s) := by
  obtain ⟨g, p, hg, hp, hw, hpc⟩ := h
  have cleared : StandsAt (· = .none) gi si pc (s.modSplit gi si (fun q => { q with wait := .none, pend := p.pend })) := by
    refine ⟨g.modSplit si (fun q => { q with wait := .none, pend := p.pend }), { p with wait := .none, pend := p.pend },
      group?_modGroup_same _ hg, ?_, rfl, hpc⟩
    rw [Group.modSplit, split?_map (g := g) (F := fun q => if q.idx = si then { q with wait := .none, pend := p.pend } else q) rfl
      (fun q => by split <;> rfl), hp, Option.map_some, if_pos (by simpa using List.find?_some hp)]
  unfold abandonWait
  rw [hg, Option.bind_some, hp]
  dsimp only
  rcases hw with hw | ⟨till, hw⟩ | ⟨instant, next, hw⟩
  · rw [hw]; exact ⟨g, p, hg, hp, hw, hpc⟩
  · rw [hw]; exact cleared
  · rw [hw]; exact cleared

/-- A fold that keeps one property until an element of the list gives a second, which it keeps too. -/
theorem foldl_reaches {α β : Type} {P Q : β → Prop} {f : β → α → β} (hP : ∀ b a, P b → P (f b a))
    (hQ : ∀ b a, Q b → Q (f b a)) {a : α} (ha : ∀ b, P b → Q (f b a)) {l : List α} (hmem : a ∈ l) {b : β} (hb : P b) :
    Q (l.foldl f b) := by
  obtain ⟨l1, l2, rfl⟩ := List.append_of_mem hmem
  rw [List.foldl_append, List.foldl_cons]
  exact foldl_keeps Q f hQ l2 _ (ha _ (foldl_keeps P f hP l1 b hb))

theorem standsStill_rested (P : Wait → Prop) (now : Nat) :
    StandsStill P (fun g => { g with splits := g.splits.map (Split.rested now) }) :=
  standsStill_of_map _ (fun _ => rfl) (fun _ => rfl) (fun _ => id) (fun _ => rfl)

theorem haltGroup_stands {P : Wait → Prop} (hP : P .none) {gi si : Nat} {pc : DWord} (gj : Nat) {s : State}
    (h : StandsAt P gi si pc s) : StandsAt P gi si pc (haltGroup gj s) := by
  unfold haltGroup
  split
  · exact h
  · exact StandsAt.modGroup (standsStill_rested _ _)
      (foldl_keeps (StandsAt P gi si pc) _ (fun _ _ ht => abandonWait_stands hP ht) _ s h)

theorem haltGroup_clears {gi si : Nat} {pc : DWord} {s : State} (h : StandsAt Idle gi si pc s) :
    StandsAt (· = .none) gi si pc (haltGroup gi s) := by
  obtain ⟨g, p, hg, hp, -⟩ := id h
  have hidx : p.idx = si := by simpa using List.find?_some hp
  unfold haltGroup
  rw [hg]
  refine StandsAt.modGroup (standsStill_rested _ _)
    (foldl_reaches (P := StandsAt Idle gi si pc) (Q := StandsAt (· = .none) gi si pc) (a := p)
    (fun _ _ ht => abandonWait_stands (.inl rfl) ht) (fun _ _ ht => abandonWait_stands (P := (· = .none)) rfl ht) (fun t ht => ?_)
    (List.mem_of_find?_eq_some hp) h)
  rw [hidx]
  exact abandonWait_clears ht

theorem stopGroups_clears {gi si : Nat} {pc : DWord} {gis : List Nat} (hgi : gi ∈ gis) {s : State}
    (h : StandsAt Idle gi si pc s) : StandsAt (· = .none) gi si pc (stopGroups gis s) :=
  foldl_reaches (P := StandsAt Idle gi si pc) (Q := StandsAt (· = .none) gi si pc) (f := fun s gi => haltGroup gi s)
    (b := cancelWaiting gis s) (fun _ _ ht => haltGroup_stands (.inl rfl) _ ht)
    (fun _ _ ht => haltGroup_stands (P := (· = .none)) rfl _ ht) (fun _ ht => haltGroup_clears ht) hgi h

/-- A stop reaches a group that has not retired and is no handler. -/
theorem mem_haltGroups {s : State} {gi : Nat} {g : Group} {gis : List Nat} (hgi : gi ∈ gis) (hg : s.group? gi = some g)
    (hr : g.retired = false) (hh : g.handler = none) : gi ∈ s.haltGroups gis :=
  List.mem_filter.mpr ⟨hgi, by simp [hg, hr, hh, awaitedHandler]⟩

theorem freeze_only (s : State) :
    ∃ t, HaltOnly s t ∧ freeze s = { t with frozen := true } := ⟨_, stopGroups_halt _ s, rfl⟩

theorem freeze_ctxs (s : State) : (freeze s).ctxs = s.ctxs := by
  obtain ⟨t, ht, he⟩ := freeze_only s
  rw [he, ht]

theorem freeze_mem (s : State) : (freeze s).mem = s.mem := by
  obtain ⟨t, ht, he⟩ := freeze_only s
  rw [he, ht]

theorem mem_addNew {α : Type} [DecidableEq α] (a : α) (l : List α) : a ∈ addNew a l := by
  unfold addNew
  split
  · assumption
  · simp

/-! ## Trusted interfaces (R246, R247) -/

/-- The interface of a function. -/
def State.iface? (s : State) (fn : Nat) : Option Iface := s.ifaces.find? (fun i => i.fn == fn)

theorem iface?_modIface {fn : Nat} {s : State} {i : Iface} {f : Iface → Iface} (hf : ∀ i, (f i).fn = i.fn)
    (hi : s.iface? fn = some i) : (modIface fn f s).iface? fn = some (f i) := by
  have hp : (fun i : Iface => i.fn == fn) ∘ (fun i => if i.fn = fn then f i else i) = fun i => i.fn == fn := by
    funext i
    by_cases h : i.fn = fn <;> simp [h, hf]
  have hfn : i.fn = fn := by simpa using List.find?_some hi
  rw [State.iface?, modIface, List.find?_map, hp, show s.ifaces.find? (fun i => i.fn == fn) = some i from hi, Option.map_some, if_pos hfn]

/-- An event that changes the interface of a function alone. -/
theorem modIface_now {e : Instr} {fn : Nat} {s : State} {i j : Iface} {f : Iface → Iface} (hi : s.iface? fn = some i)
    (he : exec e s = .next (modIface fn f s)) (hf : ∀ i, (f i).fn = i.fn) (hj : f i = j) :
    ∃ t, exec e s = .next t ∧ t.iface? fn = some j ∧ t = { s with ifaces := t.ifaces } :=
  ⟨_, he, hj ▸ iface?_modIface hf hi, rfl⟩

theorem KillFrame.ifaces {s t : State} (h : KillFrame s t) : t.ifaces = s.ifaces := by rw [h]

theorem KillFrame.posted {s t : State} (h : KillFrame s t) : t.posted = s.posted := by rw [h]

/-- An interface that leaves RUN: its partition's scrub is due, the writes that it has posted are gone and its contexts are dead. -/
theorem leaveRun_spec (fn : Nat) (s : State) :
    (leaveRun fn s).ifaces = s.ifaces ∧ fn ∈ (leaveRun fn s).scrubbing ∧ (∀ w ∈ (leaveRun fn s).posted, w.1 ≠ fn - 1) ∧
      ∀ n c, s.ctx? n = some c → c.part = fn - 1 → c.state ≠ .killed →
        ∃ d, (leaveRun fn s).ctx? n = some d ∧ d.state = .killed := by
  have hframe := (killPart_effect (P := fun _ => True) (p := fn - 1) 3
    (s := { s with posted := s.posted.filter (fun w => w.1 != fn - 1) }) (fun _ _ _ => trivial)).frame
  refine ⟨?_, mem_addNew .., fun w hw => ?_, fun n c hc hp hk => ?_⟩
  · exact hframe.ifaces
  · have hkept : w ∈ s.posted.filter (fun w => w.1 != fn - 1) := 
      Eq.mp (congrArg (w ∈ ·) hframe.posted) hw
    simpa using (List.mem_filter.mp hkept).2
  · obtain ⟨d, hd, hdk, -⟩ := killPart_kills (s := { s with posted := s.posted.filter (fun w => w.1 != fn - 1) }) (sub := 3) hc hp hk
    exact ⟨d, hd, hdk⟩

/-- An event by which an interface leaves RUN. -/
theorem leaveRun_leaves {e : Instr} {fn : Nat} {s : State} {i j : Iface} {f : Iface → Iface} (hi : s.iface? fn = some i)
    (he : exec e s = .next (modIface fn f (leaveRun fn s))) (hf : ∀ i, (f i).fn = i.fn) (hj : f i = j) :
    ∃ t, exec e s = .next t ∧ t.iface? fn = some j ∧ fn ∈ t.scrubbing ∧ (∀ w ∈ t.posted, w.1 ≠ fn - 1) ∧
      ∀ c, s.ctx? c.num = some c → c.part = fn - 1 → c.state ≠ .killed → ∃ d, t.ctx? c.num = some d ∧ d.state = .killed := by
  obtain ⟨hifaces, hscrub, hposted, hctxs⟩ := leaveRun_spec fn s
  have hi' : (leaveRun fn s).iface? fn = some i := by rw [State.iface?, hifaces]; exact hi
  exact ⟨_, he, hj ▸ iface?_modIface hf hi', hscrub, hposted, fun c => hctxs c.num c⟩

/-- A filter that drops a key's entries leaves its default. -/
theorem tab_get_filter {α : Type} (d : α) {p : Nat × α → Bool} {k : Nat} : ∀ {t : Tab α},
    (∀ v, p (k, v) = false) → Tab.get d (t.filter p) k = d
  | [], _ => rfl
  | (j, v) :: rest, h => by
    rw [List.filter_cons]
    split
    case isTrue hp =>
      have hj : j ≠ k := fun e => by rw [e, h v] at hp; cases hp
      rw [Tab.get, if_neg hj]
      exact tab_get_filter d h
    case isFalse => exact tab_get_filter d h

theorem memGet_wipeDies {dies : List Nat} {a : Nat} (s : State) (h : a / 2 ^ 37 ∈ dies) : (wipeDies dies s).memGet a = 0 :=
  tab_get_filter 0 fun v => by simpa using h

/-- The scrub of an interface's partition. -/
theorem scrubIface_spec {fn : Nat} {s : State} (h : fn ∈ s.scrubbing) (hfw : s.fwOut = []) {i : Iface} (hi : s.iface? fn = some i) :
    fn ∉ (scrubIface fn s).scrubbing ∧ (∀ a, a / 2 ^ 37 ∈ partDies s (fn - 1) → (scrubIface fn s).memGet a = 0) ∧
      (i.session = true → i.tdisp = .error → (scrubIface fn s).iface? fn = some { i with tdisp := .unlocked }) := by
  have hrun : (s.scrubbing.contains fn && s.fwOut == []) = true := by simp [h, hfw]
  unfold scrubIface
  rw [if_pos hrun]
  refine ⟨fun hmem => ?_, fun a ha => memGet_wipeDies _ ha, fun hs ht => ?_⟩
  · simpa using (List.mem_filter.mp hmem).2
  · have hmod := iface?_modIface (s := { s with scrubbing := s.scrubbing.filter (fun k => k != fn) }) (fn := fn)
      (f := fun i => if i.session && i.tdisp == .error then { i with tdisp := .unlocked } else i)
      (fun i => by split <;> rfl) hi
    rw [if_pos (by simp [hs, ht])] at hmod
    exact hmod

/-! ## Recovery and reset (R244, R248) -/

/-- A service core's failure freezes the package; it kills the contexts with a call on the core and no other. -/
theorem serviceWatchdogExpiry_spec (n : Nat) (s : State) :
    ∃ t, exec (.serviceWatchdogExpiry n) s = .next t ∧ t.frozen = true ∧
      ∀ c, s.ctx? c.num = some c → c.state ≠ .killed →
        (c.svclog.getD n none = none → (∀ d ∈ s.ctxs, d.num = c.num → d = c) →
          ∃ d, t.ctx? c.num = some d ∧ d = { c with svclog := d.svclog }) ∧
        (∀ id, c.svclog.getD n none = some id → ∃ d r, t.ctx? c.num = some d ∧ d.state = .killed ∧
          r ∈ d.traps ∧ r.cause = .kill ∧ r.aux = 6) := by
  let hit := s.ctxs.filter (fun c => (c.svclog.getD n none).isSome)
  let u := hit.foldl (fun s c => killCtx c.num 6 s) s
  have hctxs : ∀ m, (freeze u).ctx? m = u.ctx? m := fun m => by rw [State.ctx?, freeze_ctxs]; rfl
  refine ⟨freeze u, rfl, rfl, fun c hc hk => ⟨fun hnone hone => ?_, fun id hid => ?_⟩⟩
  · obtain ⟨d, hd, hcd⟩ := (killAll_effect (P := fun m => ∃ d ∈ hit, d.num = m) 6 (fun d hd => ⟨d, hd, rfl⟩) s).ctxs.ctx? hc
    refine ⟨d, (hctxs _).trans hd, hcd.other ?_⟩
    rintro ⟨e, he, hnum⟩
    obtain ⟨hmem, hcall⟩ := List.mem_filter.mp he
    rw [hone e hmem hnum, hnone] at hcall
    cases hcall
  · have hhit : c ∈ hit := List.mem_filter.mpr ⟨ctx?_mem hc, by rw [hid]; rfl⟩
    obtain ⟨d, hd, hdk, r, hr, hcause, haux⟩ := killAll_kills (sub := 6) ⟨c, hhit, rfl⟩ hc hk
    exact ⟨d, r, (hctxs _).trans hd, hdk, hr, hcause, haux⟩

/-- A report of an internal error freezes the package: the splits that yield or sleep stand at their instructions again. -/
theorem internalErrorReport_spec (s : State) :
    ∃ t, exec .internalErrorReport s = .next t ∧ t.frozen = true ∧ t.ctxs = s.ctxs ∧ t.mem = s.mem ∧
      ∀ gi si g p, s.group? gi = some g → g.split? si = some p → g.retired = false → g.handler = none →
        (∃ till, p.wait = .yield till) ∨ (∃ instant next, p.wait = .sleep instant next) →
        ∃ h q, t.group? gi = some h ∧ h.split? si = some q ∧ q.wait = .none ∧ q.pc = p.pc := by
  refine ⟨freeze s, rfl, rfl, freeze_ctxs s, freeze_mem s, fun gi si g p hg hp hr hh hw => ?_⟩
  have hgi : gi ∈ List.range s.groups.length := List.mem_range.mpr (List.getElem?_eq_some_iff.mp hg).1
  exact stopGroups_clears (mem_haltGroups hgi hg hr hh) ⟨g, p, hg, hp, .inr hw, rfl⟩

/-- A package reset: memory, contexts and launches are gone, each die is tested, and life state and fuses stay. -/
theorem resetPackage_spec (s : State) :
    let t := resetPackage s
    t.mem = [] ∧ t.ctxs = [] ∧ t.launches = [] ∧ t.blocks = [] ∧ t.groups = [] ∧
      t.cycle = 0 ∧ t.nsMaster = 0 ∧ t.life = s.life ∧ t.fused = s.fused ∧ t.frozen = false ∧ t.resets = s.resets + 1 ∧
      (∀ d, d ∈ t.failed ↔ d < 9 ∧ s.fused ≠ some d ∧ Config.dieTest (s.resets + 1) d = false) ∧
      t.parts.map (fun p => (p.num, p.dies)) =
        [(0, (List.range 9).filter (fun d => s.fused != some d && Config.dieTest (s.resets + 1) d))] ∧
      (t.up = true ↔ ∀ d, d < 9 → Config.transitTest (s.resets + 1) d = true) := by
  intro t
  have hfailed (d : Nat) : d ∈ t.failed ↔ d < 9 ∧ s.fused ≠ some d ∧ Config.dieTest (s.resets + 1) d = false := by
    refine List.mem_filter.trans ?_
    simp
  refine ⟨rfl, rfl, rfl, rfl, rfl, rfl, rfl, rfl, rfl, rfl, rfl, hfailed, ?_, ?_⟩
  · have hdies : (List.range 9).filter (fun d => s.fused != some d && !t.failed.contains d) =
        (List.range 9).filter (fun d => s.fused != some d && Config.dieTest (s.resets + 1) d) := by
      refine List.filter_congr fun d hd => ?_
      by_cases hfuse : s.fused = some d
      · simp [hfuse]
      · have hd9 : d < 9 := List.mem_range.mp hd
        cases htest : Config.dieTest (s.resets + 1) d <;> simp [hfailed, hfuse, hd9, htest]
    exact congrArg (fun ds => [(0, ds)]) hdies
  · refine List.all_eq_true.trans ?_
    simp

/-- An interface whose session has expired. -/
def Iface.expire (i : Iface) : Iface := { i with tdisp := .error, session := false, ideKeys := false, streams := [] }

/-- What the events of a trusted interface do, by the interface's state (R246, R247). -/
theorem interface_events {s : State} {fn : Nat} {i : Iface} (hi : s.iface? fn = some i) :
    let now (e : Instr) (j : Iface) : Prop := ∃ t, exec e s = .next t ∧ t.iface? fn = some j ∧ t = { s with ifaces := t.ifaces }
    let leaves (e : Instr) (j : Iface) : Prop := ∃ t, exec e s = .next t ∧ t.iface? fn = some j ∧ fn ∈ t.scrubbing ∧
      (∀ w ∈ t.posted, w.1 ≠ fn - 1) ∧
      ∀ c, s.ctx? c.num = some c → c.part = fn - 1 → c.state ≠ .killed → ∃ d, t.ctx? c.num = some d ∧ d.state = .killed
    let expired : Iface := { i with tdisp := .error, session := false, ideKeys := false, streams := [] }
    now (.spdmRequest fn .measurements) i ∧
    (s.life ≠ .manufacture → s.life ≠ .returned → fn ∉ s.scrubbing →
      now (.spdmRequest fn .openSession) { i with session := true }) ∧
    (i.session = true → now (.spdmRequest fn (.ideKeys none)) { i with ideKeys := true } ∧
      (∀ n, n < 256 → (s.ifaces.flatMap (fun j => j.streams)).length < 16 →
        now (.spdmRequest fn (.ideKeys (some n))) { i with streams := addNew n i.streams }) ∧
      (∀ n, 16 ≤ (s.ifaces.flatMap (fun j => j.streams)).length → exec (.spdmRequest fn (.ideKeys (some n))) s = .next s) ∧
      (i.tdisp = .unlocked → now (.spdmRequest fn .lock) { i with tdisp := .locked }) ∧
      (i.tdisp = .locked → now (.spdmRequest fn .start) { i with tdisp := .run }) ∧
      (i.tdisp ≠ .run → now (.spdmSessionExpiry fn) expired) ∧ (i.tdisp = .run → leaves (.spdmSessionExpiry fn) expired) ∧
      (fn ∉ s.scrubbing → (i.tdisp ≠ .run → now (.spdmRequest fn .stop) { i with tdisp := .unlocked }) ∧
        (i.tdisp = .run → leaves (.spdmRequest fn .stop) { i with tdisp := .error }))) ∧
    (i.session = false → exec (.spdmRequest fn .stop) s = .next s) := by
  have hfind : s.ifaces.find? (fun i => i.fn == fn) = some i := hi
  refine ⟨⟨s, ?_, hi, rfl⟩, fun h1 h2 h3 => ?_, fun hs => ⟨?_, fun n h1 h2 => ?_, fun n h => ?_, fun ht => ?_, fun ht => ?_,
    fun ht => ?_, fun ht => ?_, fun hf => ⟨fun ht => ?_, fun ht => ?_⟩⟩, fun hs => ?_⟩
  · simp [execSpdmRequest, hfind]
  · exact modIface_now (f := fun i => { i with session := true }) hi (by simp [execSpdmRequest, hfind, h1, h2, h3]) (fun _ => rfl) rfl
  · exact modIface_now (f := fun i => { i with ideKeys := true }) hi (by simp [execSpdmRequest, hfind, hs]) (fun _ => rfl) rfl
  · have hroom : (i.session && decide ((s.ifaces.flatMap (fun j => j.streams)).length < ideStreams) && decide (n < 256)) = true := by
      rw [hs, decide_eq_true h1, decide_eq_true (show _ < ideStreams from h2)]; rfl
    exact modIface_now (f := fun i => { i with streams := addNew n i.streams }) hi
      (by simp only [exec_spdmRequest, execSpdmRequest, hfind, if_pos hroom]) (fun _ => rfl) rfl
  · have hfull : ¬((i.session && decide ((s.ifaces.flatMap (fun j => j.streams)).length < ideStreams) && decide (n < 256)) = true) := by
      rw [decide_eq_false (Nat.not_lt.mpr (show ideStreams ≤ _ from h)), Bool.and_false]; exact Bool.false_ne_true
    simp only [exec_spdmRequest, execSpdmRequest, hfind, if_neg hfull]
  · exact modIface_now (f := fun i => { i with tdisp := .locked }) hi (by simp [execSpdmRequest, hfind, hs, ht]) (fun _ => rfl) rfl
  · exact modIface_now (f := fun i => { i with tdisp := .run }) hi (by simp [execSpdmRequest, hfind, hs, ht]) (fun _ => rfl) rfl
  · exact modIface_now (f := Iface.expire) hi (by simp [execSpdmSessionExpiry, hfind, hs, ht]; rfl) (fun _ => rfl) rfl
  · exact leaveRun_leaves (f := Iface.expire) hi (by simp [execSpdmSessionExpiry, hfind, hs, ht]; rfl) (fun _ => rfl) rfl
  · exact modIface_now (f := fun i => { i with tdisp := .unlocked }) hi (by simp [execSpdmRequest, hfind, hs, ht, hf]) (fun _ => rfl) rfl
  · exact leaveRun_leaves (f := fun i => { i with tdisp := .error }) hi (by simp [execSpdmRequest, hfind, hs, ht, hf]) (fun _ => rfl) rfl
  · simp [execSpdmRequest, hfind, hs]

/-- The events that reset the package, one of them only in a recovery. -/
theorem resets_spec (s : State) : ∀ i ∈ [Instr.packageReset, .lockstepDisagreement, .recoveryTimeout],
    ∃ t, exec i s = .next t ∧ (i = .recoveryTimeout → s.frozen = false → t = s) ∧
      (i ≠ .recoveryTimeout ∨ s.frozen = true → t = resetPackage s) := by
  have hidle : s.frozen = false → (if s.frozen then resetPackage s else s) = s := fun h => if_neg (by simp [h])
  have hreset : s.frozen = true → (if s.frozen then resetPackage s else s) = resetPackage s := fun h => if_pos h
  intro i hi
  simp only [List.mem_cons, List.not_mem_nil, or_false] at hi
  rcases hi with rfl | rfl | rfl
  · exact ⟨_, rfl, nofun, fun _ => rfl⟩
  · exact ⟨_, rfl, nofun, fun _ => rfl⟩
  · exact ⟨_, rfl, fun _ => hidle, fun h => hreset (h.resolve_left (fun hne => hne rfl))⟩

/-- The end of a die's sag: the stretch is cleared once no die sags (R18). -/
theorem sagClear_spec (s : State) (die : Nat) : ∃ t, exec (.sagClear die) s = .next t ∧
    t = { s with sag := t.sag, clearing := t.clearing, stretchFrom := t.stretchFrom } ∧ die ∉ t.sag ∧
    (∀ d, d ≠ die → (d ∈ t.sag ↔ d ∈ s.sag)) ∧
    (die ∈ s.sag → t.sag = [] → t.clearing = 64 ∧ t.stretchFrom = s.stretch) := by
  have hout : die ∉ s.sag.filter (fun d => d != die) := by simp
  have hothers : ∀ d, d ≠ die → (d ∈ s.sag.filter (fun d => d != die) ↔ d ∈ s.sag) := fun d hd => by simp [hd]
  refine ⟨_, rfl, ?_⟩
  dsimp only
  split
  · exact ⟨rfl, hout, hothers, fun _ _ => ⟨rfl, rfl⟩⟩
  case isFalse hne =>
    exact ⟨rfl, hout, hothers, fun hd hempty => absurd ⟨hempty, List.ne_nil_of_mem hd⟩ hne⟩

/-- The servo's slew for an offset that is not stepped (R257). -/
theorem ptpMessage_slews {s : State} {domain : Nat} {transport : Nat} {stepOk : Bool} {offset : Int}
    (hptp : s.ptp = some (domain, transport, stepOk)) (h : offset ≤ 1000000 ∨ stepOk = false) :
    ∃ t, exec (.ptpMessage offset) s = .next t ∧ t = { s with servoOffset := offset, slew := t.slew, servo := t.servo } ∧
      -200 ≤ t.slew ∧ t.slew ≤ 200 ∧ (offset < 0 → t.slew ≤ 0) ∧ (0 ≤ offset → 0 ≤ t.slew) ∧
      (t.servo = .locked ∨ t.servo = .locking) := by
  have hslow : ¬(1000000 < offset ∧ stepOk = true) := by
    rintro ⟨hfar, hstep⟩
    rcases h with h | h
    · omega
    · rw [h] at hstep; cases hstep
  have hppm := (Config.servoSlew offset).isLt
  let ppm : Int := (Config.servoSlew offset).val
  have hrun : exec (.ptpMessage offset) s = .next
      { s with servoOffset := offset, slew := if offset < 0 then -ppm else ppm,
               servo := if Config.servoLocked offset then .locked else .locking } := by
    simp only [exec_ptpMessage, execPtpMessage, hptp, if_neg hslow, ppm]
  have hslew : -200 ≤ (if offset < 0 then -ppm else ppm) ∧ (if offset < 0 then -ppm else ppm) ≤ 200 ∧
      (offset < 0 → (if offset < 0 then -ppm else ppm) ≤ 0) ∧ (0 ≤ offset → 0 ≤ if offset < 0 then -ppm else ppm) := by
    by_cases hneg : offset < 0
    · rw [if_pos hneg]; omega
    · rw [if_neg hneg]; omega
  obtain ⟨hlow, hhigh, hback, hforth⟩ := hslew
  refine ⟨_, hrun, rfl, hlow, hhigh, hback, hforth, ?_⟩
  dsimp only
  cases Config.servoLocked offset
  · exact .inr rfl
  · exact .inl rfl

/-- Settles O57: one lemma per event; what a kill of a partition and a freeze leave unchanged comes from their frames. -/
theorem securityRecoveryTime : Obligations.SecurityRecoveryTime := by
  unfold Obligations.SecurityRecoveryTime
  intro s
  refine ⟨fun fn i hi => ?_, fun n => serviceWatchdogExpiry_spec n s, internalErrorReport_spec s, fun i hi => ?_, fun die => ?_,
    sagClear_spec s, fun domain transport stepOk hptp offset => ⟨fun hfar hstep => ?_, ptpMessage_slews hptp⟩,
    fun hptp offset => ?_, rfl⟩
  · obtain ⟨hmeasure, hopen, hsession, hclosed⟩ := interface_events hi
    exact ⟨hmeasure, hopen, hsession, hclosed, fun hscrub hfw => scrubIface_spec hscrub hfw hi⟩
  · obtain ⟨t, he, hidle, hreset⟩ := resets_spec s i hi
    exact ⟨t, he, hidle, fun h => hreset h ▸ resetPackage_spec s⟩
  · exact ⟨_, rfl, rfl, mem_addNew .., rfl⟩
  · simp only [exec_ptpMessage, execPtpMessage, hptp]
    rw [if_pos ⟨hfar, hstep⟩]
  · simp only [exec_ptpMessage, execPtpMessage, hptp]

end Sys2Proof.Machine
end

section
namespace Sys2Proof.Machine
open Sys2Proof

/-! ## A mapping of no pages (R121, R240) -/

/-- A mapping of no pages whose target is byte 5 of die 0. -/
def emptyMapping : Mapping := { blockMapping 0 5 with pages := 0 }

/-- A context whose one mapping has no pages. -/
def emptyMappedCtx : Ctx :=
  { num := 1, state := .ready, reason := none, part := 0, bind := [0], debug := false, wdexp := 26, ccb := 0, trapq := 0,
    savePool := 0, poolSize := 0, head := 0, tail := 0, traps := [], quota := [], svclog := [], queues := [], nextLaunch := 1,
    maps := [emptyMapping], resident := [], texts := [], ports := 0, stopping := false, saveComplete := false, saveCmd := none }

/-- A package of one partition on die 0 with that context alone. -/
def emptyMappedState : State := { State.reset with parts := [firstPart [0]], ctxs := [emptyMappedCtx] }

/-- A command that creates a second context. -/
def secondCtxCmd : Cmd := { fn := 1, flags := 0, seq := 0, ctx := 0, pad := 0, compl := 0 }

/-- The mapping overlaps no frame, so the lowest frame of the die is free. -/
theorem freeFrame_emptyMappedState : freeFrame emptyMappedState [0] = some 0 := by decide +kernel

/-- Refutes O49: the statement admits states with a mapping of no pages. Such a mapping overlaps no frame, so CTX_CREATE takes frame
0 for the control block although the mapping's target, byte 5, lies inside it; the clause that keeps the frame apart from every
mapping then asks for 65536 ≤ 5 or 5 ≤ 0. -/
theorem not_contextCommandsComplete : ¬Obligations.ContextCommandsComplete := by
  unfold Obligations.ContextCommandsComplete
  intro h
  have hctx : emptyMappedCtx ∈ emptyMappedState.ctxs := List.mem_singleton.mpr rfl
  have hbelow : ∀ k, 1 ≤ k → k < 2 → ∃ x ∈ emptyMappedState.ctxs, x.num = k := fun k hk hk2 =>
    ⟨emptyMappedCtx, hctx, show 1 = k by omega⟩
  obtain ⟨hcreate, -⟩ := h secondCtxCmd emptyMappedState
  obtain ⟨-, hframe⟩ := hcreate (part := 0) (wdexp := 0) (debug := false) (perm := some [0]) (ccb := 0) (trapq := 0) (pool := 0)
    (size := 0) (bind := [0]) (n := 2) (by decide) (by decide +kernel) (by decide) (by decide) (by decide) nofun (by decide)
    (by decide) (by decide) hbelow
  obtain ⟨x, u, -, -, -, -, -, -, hapart, -⟩ := hframe 0 freeFrame_emptyMappedState
  have hbad : 0 + 65536 ≤ 5 ∨ 5 + 0 * 4096 ≤ 0 := hapart emptyMappedCtx hctx emptyMapping (List.mem_singleton.mpr rfl) rfl
  omega

end Sys2Proof.Machine
end

section
namespace Sys2Proof.Machine
open Sys2Proof

/-! ## What firmware's accesses leave of the contexts (R151) -/

theorem HomesOnly.ctxs {s t : State} (h : HomesOnly s t) : t.ctxs = s.ctxs := by rw [h]

/-- A write wakes splits, and no more (R304). -/
theorem wakeEvents_groups (pa n : Nat) (s : State) : ∃ gs, wakeEvents pa n s = { s with groups := gs } :=
  foldl_keeps (fun t : State => ∃ gs, t = { s with groups := gs }) _ (fun t w h => by
    obtain ⟨gs, rfl⟩ := h
    obtain ⟨gi, si, va, wpa, ge, next⟩ := w
    dsimp only
    split
    · exact ⟨_, rfl⟩
    · exact ⟨gs, rfl⟩) _ s ⟨s.groups, rfl⟩

theorem wakeEvents_ctxs (pa n : Nat) (s : State) : (wakeEvents pa n s).ctxs = s.ctxs := by
  obtain ⟨gs, h⟩ := wakeEvents_groups pa n s
  rw [h]

theorem memPutBytes_mem : ∀ (bs : List Byte) (pa : Nat) (s : State), ∃ m, s.memPutBytes pa bs = { s with mem := m }
  | [], _, s => ⟨s.mem, rfl⟩
  | b :: bs, pa, s => by
    obtain ⟨m, h⟩ := memPutBytes_mem bs (pa + 1) (s.memPut pa b)
    exact ⟨m, by rw [State.memPutBytes, h]; rfl⟩

theorem memPutBytes_ctxs (bs : List Byte) (pa : Nat) (s : State) : (s.memPutBytes pa bs).ctxs = s.ctxs := by
  obtain ⟨m, h⟩ := memPutBytes_mem bs pa s
  rw [h]

theorem winPutAt_ctxs (s : State) (w : WinPlace) (v : Byte) : (winPutAt s w v).ctxs = s.ctxs := by
  cases w <;> rfl

theorem spacePut_ctxs (s : State) (cn bi : Nat) (sp : Space) (a : Nat) (v : Byte) : (spacePut s cn bi sp a v).ctxs = s.ctxs := by
  unfold spacePut
  cases sp with
  | window => exact winPutAt_ctxs s (winPlace s cn a) v
  | _ => rfl

theorem spaceWrite_ctxs (s : State) (cn bi : Nat) (sp : Space) (a n v : Nat) : (spaceWrite s cn bi sp a n v).ctxs = s.ctxs :=
  foldl_keeps (fun t : State => t.ctxs = s.ctxs) _ (fun _ _ h => (spacePut_ctxs ..).trans h) _ s rfl

theorem setL1_ctxs (s : State) (die core line : Nat) (st : Option L1State) (k : Option (Nat × Nat)) :
    (s.setL1 die core line st k).ctxs = s.ctxs := by
  unfold State.setL1
  cases st <;> rfl

theorem makeRoom_ctxs (die core line : Nat) (s : State) : (makeRoom die core line s).ctxs = s.ctxs := by
  have dropped (t : State) (ls : List L1Line) (n : Nat) : (recordCopies n { t with l1 := ls }).ctxs = t.ctxs := rfl
  unfold makeRoom
  dsimp only
  exact foldl_keeps (fun t : State => t.ctxs = s.ctxs) _ (fun _ _ h => (dropped ..).trans h) _ _ rfl

theorem bringLine_ctxs (die core line : Nat) (w priv : Bool) (s : State) : (bringLine die core line w priv s).ctxs = s.ctxs := by
  unfold bringLine
  split
  · split
    · exact setL1_ctxs ..
    · rfl
  · dsimp only
    split
    · exact (setL1_ctxs ..).trans (makeRoom_ctxs ..)
    · split
      · exact (recordCopies_homes ..).ctxs.trans ((setL1_ctxs ..).trans (makeRoom_ctxs ..))
      · exact (recordCopies_homes ..).ctxs.trans ((setL1_ctxs ..).trans (makeRoom_ctxs ..))

theorem keepClean_ctxs (line : Nat) (s : State) : (keepClean line s).ctxs = s.ctxs := by
  unfold keepClean
  split <;> rfl

theorem lineAccess_ctxs (a : Access) (l : LaneAcc) (g : Group) (s : State) : (lineAccess a l g s).ctxs = s.ctxs := by
  unfold lineAccess
  refine (bringLine_ctxs ..).trans ?_
  split
  · exact (keepClean_ctxs ..).trans (claim_homes ..).ctxs
  · exact (claim_homes ..).ctxs

/-- The performance of one lane touches no context, whatever its kind. -/
theorem performLane_ctxs (a : Access) (l : LaneAcc) (s : State) : (performLane a l s).ctxs = s.ctxs := by
  have woken (t : State) (n : Nat) (h : t.ctxs = s.ctxs) : (if l.space = .hbm then wakeEvents l.addr n t else t).ctxs = s.ctxs := by
    split
    · exact (wakeEvents_ctxs ..).trans h
    · exact h
  unfold performLane
  cases s.group? a.group with
  | none => rfl
  | some g =>
    have hu : (if l.space = .hbm then lineAccess a l g s else s).ctxs = s.ctxs := by
      split
      · exact lineAccess_ctxs ..
      · rfl
    dsimp only
    generalize (if l.space = .hbm then lineAccess a l g s else s) = u at hu
    cases a.kind with
    | st | evsig => exact woken _ _ ((spaceWrite_ctxs ..).trans hu)
    | atom op | atoms op => exact woken _ _ (Eq.trans (b := (spaceWrite u _ _ _ _ _ _).ctxs) rfl ((spaceWrite_ctxs ..).trans hu))
    | sts => exact (spaceWrite_ctxs ..).trans hu
    | evwait =>
      dsimp only
      split
      · exact hu
      · exact hu
    | _ => exact hu

theorem endLane_ctxs (id lane : Nat) (s : State) : (endLane id lane s).ctxs = s.ctxs := by
  unfold endLane
  dsimp only
  split
  · rfl
  · split <;> rfl

theorem sweep_ctxs (gi : Nat) (s : State) : (sweep gi s).ctxs = s.ctxs := rfl

theorem finishLds_ctxs (a : Access) (l : LaneAcc) (s : State) : (finishLds a l s).ctxs = s.ctxs := by
  have h : (endLane a.id l.lane (performLane a l s)).ctxs = s.ctxs := (endLane_ctxs ..).trans (performLane_ctxs ..)
  unfold finishLds
  dsimp only
  split
  · split
    · exact (sweep_ctxs ..).trans h
    · exact h
  · exact h

theorem wakeIfFilled_ctxs (before : State) (bi line : Nat) (s : State) : (wakeIfFilled before bi line s).ctxs = s.ctxs := by
  unfold wakeIfFilled
  split
  · exact foldl_keeps (fun t : State => t.ctxs = s.ctxs) (fun s w => finishLds w.1 w.2 s) (fun _ _ h => (finishLds_ctxs ..).trans h)
      (emptyWaiters s bi line) s rfl
  · rfl

/-- A state has these contexts. -/
def HasCtxs (cs : List Ctx) (s : State) : Prop := s.ctxs = cs

theorem wakeWindow_ctxs (before : State) (cn pa n : Nat) (s : State) : (wakeWindow before cn pa n s).ctxs = s.ctxs :=
  foldl_keeps (HasCtxs s.ctxs) _ (fun t k h => by
    split
    case h_1 bi line _ => exact (wakeIfFilled_ctxs before bi line t).trans h
    case h_2 => exact h) _ s rfl

theorem fwPut_ctxs {a : Agent} {cn va : Nat} {bs : List Byte} {s t : State} (h : fwPut a cn va bs s = some t) : t.ctxs = s.ctxs := by
  have put (sp : Space) (pa : Nat) :
      ((bs.zipIdx).foldl (fun s b => spacePut s cn 0 sp (pa + b.2) b.1) s).ctxs = s.ctxs :=
    foldl_keeps (fun t : State => t.ctxs = s.ctxs) _ (fun _ _ h => (spacePut_ctxs ..).trans h) _ s rfl
  unfold fwPut at h
  split at h
  · cases h; rfl
  case h_2 sp pa _ =>
    unfold putLine at h
    dsimp only at h
    split at h
    · cases h
    · cases sp with
      | hbm =>
        dsimp only at h
        split at h
        · cases h
        · obtain ⟨u, hu, rfl⟩ := Option.map_eq_some_iff.mp h
          exact (wakeEvents_ctxs ..).trans ((memPutBytes_ctxs ..).trans (claimAs_homes hu).ctxs)
      | window =>
        dsimp only at h
        split at h
        · cases h
        · cases h
          exact (wakeWindow_ctxs ..).trans (put ..)
      | _ => cases h; exact put ..

theorem fwGet_ctxs {cn va n : Nat} {s t : State} (h : fwGet cn va n s = some t) : t.ctxs = s.ctxs := by
  unfold fwGet at h
  split at h
  · cases h; rfl
  · exact (getLine_homes h).ctxs

theorem raiseVector_ctxs (s : State) (v : Nat) : (s.raiseVector v).ctxs = s.ctxs := by
  unfold State.raiseVector
  split <;> rfl

theorem flushFwN_ctxs : ∀ (n : Nat) (s : State), (flushFwN n s).ctxs = s.ctxs
  | 0, _ => rfl
  | n + 1, s => by
    have next (t : State) (fs : List FwAccess) (h : t.ctxs = s.ctxs) : (flushFwN n { t with fwOut := fs }).ctxs = s.ctxs :=
      (flushFwN_ctxs n _).trans h
    unfold flushFwN
    cases hf : s.fwOut with
    | nil => rfl
    | cons f rest =>
      cases f with
      | vector v => exact (flushFwN_ctxs n _).trans (raiseVector_ctxs ..)
      | completion c => exact (flushFwN_ctxs n _).trans (raiseVector_ctxs ..)
      | raise cn va v =>
        dsimp only
        split
        case h_1 t ht => exact next t _ (fwPut_ctxs ht)
        · rfl
      | load cn va m =>
        dsimp only
        split
        case h_1 t ht => exact next t _ (fwGet_ctxs ht)
        · rfl
      | store a cn va bs =>
        dsimp only
        split
        case h_1 t ht => exact next t _ (fwPut_ctxs ht)
        · rfl

theorem flushFw_ctxs (s : State) : (flushFw s).ctxs = s.ctxs := by
  unfold flushFw
  split
  · rfl
  · exact flushFwN_ctxs ..

end Sys2Proof.Machine
end

section
namespace Sys2Proof.Machine
open Sys2Proof

/-! ## The end of a collective (R256) -/

theorem engine?_modEngine_same {s : State} {id : Nat} {o : EngineOp} {f : EngineOp → EngineOp} (hf : ∀ o, (f o).id = o.id)
    (ho : s.engine? id = some o) : (s.modEngine id f).engine? id = some (f o) := by
  have hp : (fun o : EngineOp => o.id == id) ∘ (fun o => if o.id = id then f o else o) = fun o => o.id == id := by
    funext o
    by_cases h : o.id = id <;> simp [h, hf]
  have hid : o.id = id := by simpa using List.find?_some ho
  rw [State.engine?, State.modEngine, List.find?_map, hp, show s.engines.find? (fun o => o.id == id) = some o from ho,
    Option.map_some, if_pos hid]

theorem engine?_modEngine_other {s : State} {id j : Nat} {f : EngineOp → EngineOp} (hf : ∀ o, (f o).id = o.id) (h : j ≠ id) :
    (s.modEngine id f).engine? j = s.engine? j := by
  have hp : (fun o : EngineOp => o.id == j) ∘ (fun o => if o.id = id then f o else o) = fun o => o.id == j := by
    funext o
    by_cases ho : o.id = id <;> simp [ho, hf]
  have hsame (o : EngineOp) (ho : o.id = j) : (if o.id = id then f o else o) = o := if_neg (by rw [ho]; exact h)
  rw [State.engine?, State.modEngine, List.find?_map, hp]
  cases ho : s.engines.find? (fun o => o.id == j) with
  | none => rw [State.engine?, ho]; rfl
  | some o => rw [State.engine?, ho, Option.map_some, hsame o (by simpa using List.find?_some ho)]

theorem engine?_mem {s : State} {id : Nat} {o : EngineOp} (h : s.engine? id = some o) : o ∈ s.engines :=
  List.mem_of_find?_eq_some h

/-- Only operations and messages to peers differ. -/
def EndsOnly (s t : State) : Prop :=
  t = { s with engines := t.engines, outbox := t.outbox, nonces := t.nonces, keyEpoch := t.keyEpoch }

theorem EndsOnly.trans {s t u : State} (h1 : EndsOnly s t) (h2 : EndsOnly t u) : EndsOnly s u :=
  Eq.trans h2 (congrArg (fun z : State =>
    { z with engines := u.engines, outbox := u.outbox, nonces := u.nonces, keyEpoch := u.keyEpoch }) h1)

theorem MessagesOnly.engines {s t : State} (h : MessagesOnly s t) : t.engines = s.engines := by rw [h]

theorem MessagesOnly.engine? {s t : State} (h : MessagesOnly s t) (id : Nat) : t.engine? id = s.engine? id := by
  rw [State.engine?, h.engines]; rfl

theorem MessagesOnly.ends {s t : State} (h : MessagesOnly s t) : EndsOnly s t := by
  unfold EndsOnly
  rw [h]

theorem modEngine_ends (id : Nat) (f : EngineOp → EngineOp) (s : State) : EndsOnly s (s.modEngine id f) := rfl

/-- An operation that is told of an end tells every partner. -/
theorem tellEnd_tells (c : Coll) (what : OutKind) (s : State) {r : Nat} (hr : r ∈ c.partners) :
    ∃ x ∈ (tellEnd c what s).outbox, x.session = c.session ∧ x.k = c.k ∧ x.rank = r ∧ x.what = what ∧ x.vals = [] := by
  have keeps (t : State) (q : Nat)
      (ht : ∃ x ∈ t.outbox, x.session = c.session ∧ x.k = c.k ∧ x.rank = r ∧ x.what = what ∧ x.vals = []) :
      ∃ x ∈ (sendMsg c.ports c.session c.k what [] q t).outbox,
        x.session = c.session ∧ x.k = c.k ∧ x.rank = r ∧ x.what = what ∧ x.vals = [] := by
    obtain ⟨x, hx, h⟩ := ht
    exact ⟨x, List.mem_append_left _ hx, h⟩
  exact foldl_reaches (P := fun _ => True) (fun _ _ _ => trivial) keeps
    (fun t _ => ⟨_, List.mem_append_right _ (List.mem_singleton.mpr rfl), rfl, rfl, rfl, rfl, rfl⟩) hr trivial

/-- A collective that has been aborted. -/
def EngineOp.aborted (o : EngineOp) : EngineOp := { o with fault := some (.pf, lowestUnwritten o) }

theorem collOver_aborted (o : EngineOp) : collOver o.aborted = true := by simp [collOver, EngineOp.aborted]

/-- The abort of a collective that is not over. -/
theorem abortColl_live {s : State} {id : Nat} {o : EngineOp} {c : Coll} (ho : s.engine? id = some o) (hc : o.coll = some c)
    (hl : collOver o = false) : abortColl id s = tellEnd c .ended (s.modEngine id EngineOp.aborted) := by
  have hfind : (s.engine? id).bind (fun o => o.coll.map (fun c => (o, c))) = some (o, c) := by
    rw [ho, Option.bind_some, hc, Option.map_some]
  unfold abortColl
  rw [hfind]
  dsimp only
  rw [hl]
  rfl

theorem abortColl_over {s : State} {id : Nat} {o : EngineOp} (ho : s.engine? id = some o) (hl : collOver o = true) :
    abortColl id s = s := by
  unfold abortColl
  rw [ho, Option.bind_some]
  cases o.coll with
  | none => rfl
  | some c => dsimp only [Option.map_some]; rw [if_pos hl]

/-- An abort is nothing, or that of a live collective. -/
theorem abortColl_cases (id : Nat) (s : State) :
    abortColl id s = s ∨ ∃ c, abortColl id s = tellEnd c .ended (s.modEngine id EngineOp.aborted) := by
  unfold abortColl
  split
  · exact .inl rfl
  case h_2 o c _ =>
    split
    · exact .inl rfl
    · exact .inr ⟨c, rfl⟩

theorem abortColl_ends (id : Nat) (s : State) : EndsOnly s (abortColl id s) := by
  rcases abortColl_cases id s with h | ⟨c, h⟩
  · rw [h]; rfl
  · rw [h]; exact (modEngine_ends ..).trans (tellEnd_messages ..).ends

theorem engine?_abortColl_other {id j : Nat} (h : j ≠ id) (s : State) : (abortColl id s).engine? j = s.engine? j := by
  rcases abortColl_cases id s with he | ⟨c, he⟩
  · rw [he]
  · rw [he, (tellEnd_messages ..).engine?, engine?_modEngine_other (f := EngineOp.aborted) (fun _ => rfl) h]

theorem engine?_abortColl_live {s : State} {o : EngineOp} {c : Coll} (ho : s.engine? o.id = some o) (hc : o.coll = some c)
    (hl : collOver o = false) : (abortColl o.id s).engine? o.id = some o.aborted := by
  rw [abortColl_live ho hc hl, (tellEnd_messages ..).engine?, engine?_modEngine_same (f := EngineOp.aborted) (fun _ => rfl) ho]

/-- An aborted collective stays as it is through every other abort. -/
theorem abortColl_keeps_aborted {s : State} {o : EngineOp} (id : Nat) (ho : s.engine? o.id = some o.aborted) :
    (abortColl id s).engine? o.id = some o.aborted := by
  by_cases h : o.id = id
  · rw [← h, abortColl_over ho (collOver_aborted o), ho]
  · rw [engine?_abortColl_other h, ho]

theorem abortAll_ends (l : List EngineOp) (s : State) : EndsOnly s (l.foldl (fun s o => abortColl o.id s) s) :=
  foldl_keeps (EndsOnly s) _ (fun _ _ h => h.trans (abortColl_ends ..)) l s rfl

/-- Aborts of a list of operations reach each that is not over. -/
theorem abortAll_aborts {s : State} {l : List EngineOp} {o : EngineOp} {c : Coll} (hmem : o ∈ l) (ho : s.engine? o.id = some o)
    (hc : o.coll = some c) (hl : collOver o = false) :
    o.aborted ∈ (l.foldl (fun s o => abortColl o.id s) s).engines := by
  refine engine?_mem (id := o.id) (foldl_reaches
    (P := fun t : State => t.engine? o.id = some o ∨ t.engine? o.id = some o.aborted)
    (Q := fun t : State => t.engine? o.id = some o.aborted) (f := fun s o => abortColl o.id s)
    (fun t q ht => ?_) (fun t q ht => abortColl_keeps_aborted q.id ht) (fun t ht => ?_) hmem (.inl ho))
  · rcases ht with ht | ht
    · by_cases h : o.id = q.id
      · rw [← h]; exact .inr (engine?_abortColl_live ht hc hl)
      · rw [engine?_abortColl_other h]; exact .inl ht
    · exact .inr (abortColl_keeps_aborted q.id ht)
  · rcases ht with ht | ht
    · exact engine?_abortColl_live ht hc hl
    · exact abortColl_keeps_aborted o.id ht

/-- A refusal of a collective that is not over. -/
theorem refuseColl_live {s : State} {id : Nat} {o : EngineOp} {c : Coll} (ho : s.engine? id = some o) (hc : o.coll = some c)
    (hl : collOver o = false) : refuseColl id s =
      tellEnd c .mismatch (s.modEngine id (fun o => { o with fault := some (.opr, 0#32 ++ o.words.headD 0) })) := by
  have hfind : (s.engine? id).bind (fun o => o.coll.map (fun c => (o, c))) = some (o, c) := by
    rw [ho, Option.bind_some, hc, Option.map_some]
  unfold refuseColl
  rw [hfind]
  dsimp only
  rw [hl]
  rfl

/-- The operation that a session and a count name. -/
theorem collOp?_spec {s : State} {session n : Nat} {o : EngineOp} {c : Coll} (h : collOp? s session n = some (o, c)) :
    o.coll = some c ∧ c.session = session ∧ c.k = n := by
  obtain ⟨l1, p, l2, -, hp, -⟩ := List.findSome?_eq_some_iff.mp h
  cases hc : p.coll with
  | none => rw [hc] at hp; cases hp
  | some d =>
    rw [hc] at hp
    dsimp only at hp
    split at hp
    case isTrue hd => cases hp; exact ⟨hc, hd.1, hd.2.1⟩
    case isFalse => cases hp

/-- The end of a collective with a fault, told to every partner. -/
theorem tellEnd_told {s : State} {o : EngineOp} {c : Coll} {f : EngineOp → EngineOp} (what : OutKind) (ho : s.engine? o.id = some o)
    (hf : ∀ o, (f o).id = o.id) :
    let t := tellEnd c what (s.modEngine o.id f)
    t = { s with engines := t.engines, outbox := t.outbox, nonces := t.nonces, keyEpoch := t.keyEpoch } ∧
      t.engine? o.id = some (f o) ∧
      ∀ r ∈ c.partners, ∃ x ∈ t.outbox, x.session = c.session ∧ x.k = c.k ∧ x.rank = r ∧ x.what = what ∧ x.vals = [] :=
  ⟨(modEngine_ends ..).trans (tellEnd_messages ..).ends,
    by rw [(tellEnd_messages ..).engine?, engine?_modEngine_same hf ho], fun _ hr => tellEnd_tells c what _ hr⟩

end Sys2Proof.Machine
end

section
namespace Sys2Proof.Machine
open Sys2Proof

/-! ## Kills of every context of a partition, in list order (R242, R243) -/

/-- An operation on a partition that kills every context of it and changes no other. -/
def KillsPart (g : Nat → State → State) : Prop :=
  ∀ p s, (∀ P : Nat → Prop, (∀ c ∈ s.ctxs, c.part = p → P c.num) → CtxsKept P s (g p s)) ∧
    ∀ n x, s.ctx? n = some x → x.part = p → ∃ d, (g p s).ctx? n = some d ∧ d.state = .killed

theorem killPart_killsPart (sub : Nat) : KillsPart (fun p s => killPart p sub s) := by
  refine fun p s => ⟨fun P hP => (killPart_effect sub hP).ctxs, fun n x hx hp => ?_⟩
  by_cases hk : x.state = .killed
  · obtain ⟨d, hd, hxd⟩ := (killPart_effect (P := fun _ => True) (p := p) (s := s) sub (fun _ _ _ => trivial)).ctxs.ctx? hx
    exact ⟨d, hd, hxd.killed hk⟩
  · obtain ⟨d, hd, hdk, -⟩ := killPart_kills (sub := sub) hx hp hk
    exact ⟨d, hd, hdk⟩

theorem stopPart_ctxs (p sub : Nat) (s : State) : (stopPart p sub s).ctxs = (killPart p sub s).ctxs :=
  Eq.trans (b := (flushFw (killPart p sub s)).ctxs) rfl (flushFw_ctxs _)

theorem stopPart_killsPart (sub : Nat) : KillsPart (fun p s => stopPart p sub s) := by
  refine fun p s => ⟨fun P hP => ?_, fun n x hx hp => ?_⟩
  · exact ((killPart_killsPart sub p s).1 P hP).trans (ctxsKept_of_eq (stopPart_ctxs p sub s))
  · obtain ⟨d, hd, hdk⟩ := (killPart_killsPart sub p s).2 n x hx hp
    exact ⟨d, by rw [State.ctx?, stopPart_ctxs]; exact hd, hdk⟩

/-- Contexts of the partitions of a list alone are touched. -/
theorem foldl_killsPart_kept {P : Nat → Prop} {g : Nat → State → State} (hg : KillsPart g) {ps : List Nat} {s : State}
    (hP : ∀ c ∈ s.ctxs, c.part ∈ ps → P c.num) : CtxsKept P s (ps.foldl (fun s p => g p s) s) := by
  induction ps generalizing s with
  | nil => exact ctxsKept_of_eq rfl
  | cons p rest ih =>
    have hfirst := (hg p s).1 P (fun c hc hp => hP c hc (by rw [hp]; exact List.mem_cons_self ..))
    refine hfirst.trans (ih fun c hc hp => ?_)
    obtain ⟨F, hF, hs⟩ := hfirst
    obtain ⟨d, hd, rfl⟩ := List.mem_map.mp (hF ▸ hc)
    rw [(hs d).part] at hp
    rw [(hs d).num]
    exact hP d hd (List.mem_cons_of_mem _ hp)

/-- Every context of a partition of the list is dead. -/
theorem foldl_killsPart_kills {g : Nat → State → State} (hg : KillsPart g) {ps : List Nat} {s : State} {n : Nat} {x : Ctx}
    (hx : s.ctx? n = some x) (hp : x.part ∈ ps) : ∃ d, (ps.foldl (fun s p => g p s) s).ctx? n = some d ∧ d.state = .killed := by
  induction ps generalizing s x with
  | nil => cases hp
  | cons p rest ih =>
    by_cases h : x.part = p
    · obtain ⟨d, hd, hdk⟩ := (hg p s).2 n x hx h
      obtain ⟨e, he, hde⟩ := (foldl_killsPart_kept (P := fun _ => True) hg (ps := rest) (fun _ _ _ => trivial)).ctx? hd
      exact ⟨e, he, hde.killed hdk⟩
    · obtain ⟨y, hy, hxy⟩ := ((hg p s).1 (fun _ => True) (fun _ _ _ => trivial)).ctx? hx
      exact ih hy (by rw [hxy.part]; exact (List.mem_cons.mp hp).resolve_left h)

/-- A context alone of its number is what its number names. -/
theorem ctx?_of_alone {s : State} {c : Ctx} (hc : c ∈ s.ctxs) (h : ∀ d ∈ s.ctxs, d.num = c.num → d = c) :
    s.ctx? c.num = some c := by
  cases hf : s.ctx? c.num with
  | none => simpa using List.find?_eq_none.mp hf c hc
  | some d => rw [h d (ctx?_mem hf) (ctx?_num hf)]

/-- A context alone of its number whose partition is not in the list keeps all but its service log. -/
theorem foldl_killsPart_endures {g : Nat → State → State} (hg : KillsPart g) {ps : List Nat} {s : State} {c : Ctx} (hc : c ∈ s.ctxs)
    (h : ∀ d ∈ s.ctxs, d.num = c.num → d = c) (hp : c.part ∉ ps) :
    ∃ d, (ps.foldl (fun s p => g p s) s).ctx? c.num = some d ∧ d = { c with svclog := d.svclog } := by
  obtain ⟨d, hd, hcd⟩ := (foldl_killsPart_kept (P := fun n => ∃ e ∈ s.ctxs, e.num = n ∧ e.part ∈ ps) hg
    (fun e he hep => ⟨e, he, rfl, hep⟩)).ctx? (ctx?_of_alone hc h)
  refine ⟨d, hd, hcd.other ?_⟩
  rintro ⟨e, he, hn, hep⟩
  exact hp (h e he hn ▸ hep)

/-! ## The host's accesses (R166) -/

/-- Memory holds consecutive bytes at an address, and what it held elsewhere. -/
def Stores (s t : State) (pa : Nat) (bs : List Byte) : Prop :=
  ∀ a, t.memGet a = if pa ≤ a ∧ a < pa + bs.length then bs.getD (a - pa) 0 else s.memGet a

theorem memGet_of_mem {s t : State} (h : t.mem = s.mem) (a : Nat) : t.memGet a = s.memGet a := by
  rw [State.memGet, h]; rfl

theorem stores_of_mem {s t u : State} {pa : Nat} {bs : List Byte} (hu : u.mem = s.mem) (ht : t.mem = (u.memPutBytes pa bs).mem) :
    Stores s t pa bs := fun a => by
  rw [memGet_of_mem ht, memGet_memPutBytes, memGet_of_mem hu]

theorem memBytes_of_mem {s t : State} (h : t.mem = s.mem) (pa n : Nat) : t.memBytes pa n = s.memBytes pa n := by
  unfold State.memBytes
  exact List.map_congr_left fun k _ => memGet_of_mem h _

/-- A store of the host at its place. -/
theorem hostStore_some {s u : State} {pa : Nat} {bs : List Byte} (h : hostPlace s pa bs.length true = some u) :
    hostStore pa bs s = some (wakeEvents pa bs.length (u.memPutBytes pa bs)) := by rw [hostStore, h]; rfl

theorem dirLine_line (s : State) (n : Nat) : (s.dirLine n).line = n := by
  unfold State.dirLine
  cases h : s.dir.find? (fun d => d.line == n) with
  | none => rfl
  | some d => simpa using List.find?_some h

theorem hostHolds_setDirLine (s : State) {d : DirLine} {pa : Nat} (hd : d.line = pa / 128) :
    hostHolds (s.setDirLine d) pa = d.hostHolder := by
  have hrest : (s.dir.filter (fun e => e.line != d.line)).any (fun e => e.line == pa / 128 && e.hostHolder) = false := by
    rw [List.any_eq_false]
    intro e he
    have hne := (List.mem_filter.mp he).2
    simp only [bne_iff_ne, ne_eq, hd] at hne
    simp [hne]
  rw [hostHolds, State.setDirLine, List.any_append, hrest]
  simp [hd]

/-- The line of a place once the host's copy has gone, or has been granted. -/
theorem hostHolds_setCopy (s : State) (pa : Nat) {d : DirLine} (hd : d.line = (s.dirLine (pa / 128)).line) :
    hostHolds (s.setDirLine d) pa = d.hostHolder := hostHolds_setDirLine s (hd.trans (dirLine_line ..))

theorem hostRead_spec {s u : State} {pa n : Nat} {keep : Bool} (h : hostPlace s pa n false = some u) :
    ∃ t, exec (.hostAccess pa (.read n keep)) s = .next t ∧ t.mem = s.mem ∧
      t.hostData = (List.range n).map (fun k => s.memGet (pa + k)) ∧ (keep = true → hostHolds t pa = true) := by
  have hmem := hostPlace_mem h
  have hdata : u.memBytes pa n = (List.range n).map (fun k => s.memGet (pa + k)) := memBytes_of_mem hmem pa n
  let w : State := { u with hostData := u.memBytes pa n }
  have hrun (v : State) (hv : v = if keep then w.setDirLine { w.dirLine (pa / 128) with hostHolder := true } else w) :
      exec (.hostAccess pa (.read n keep)) s = .next (v.accept (.hostAccess pa (.read n keep))) := by
    rw [exec_hostAccess, hv]
    unfold execHostAccess
    dsimp only
    rw [h]
    rfl
  cases keep with
  | false => exact ⟨_, hrun _ rfl, hmem, hdata, nofun⟩
  | true => exact ⟨_, hrun _ rfl, hmem, hdata, fun _ => hostHolds_setCopy w pa rfl⟩

theorem hostWrite_spec {s u : State} {pa : Nat} {bs : List Byte} (h : hostPlace s pa bs.length true = some u) :
    ∃ t, exec (.hostAccess pa (.write bs)) s = .next t ∧ Stores s t pa bs := by
  refine ⟨_, ?_, stores_of_mem (t := (wakeEvents pa bs.length (u.memPutBytes pa bs)).accept (.hostAccess pa (.write bs)))
    (hostPlace_mem h) (wakeEvents_mem ..)⟩
  rw [exec_hostAccess]
  unfold execHostAccess
  dsimp only
  rw [hostStore_some h]
  rfl

theorem hostEvict_spec {s u : State} {pa : Nat} {bs : List Byte} (h : hostPlace s pa bs.length true = some u)
    (hh : hostHolds s pa = true) :
    ∃ t, exec (.hostAccess pa (.evict bs)) s = .next t ∧ Stores s t pa bs ∧ hostHolds t pa = false := by
  let v := wakeEvents pa bs.length (u.memPutBytes pa bs)
  let w := v.setDirLine { v.dirLine (pa / 128) with hostHolder := false, snooping := false }
  have hw : hostHolds w pa = false := hostHolds_setCopy v pa rfl
  refine ⟨w.accept (.hostAccess pa (.evict bs)), ?_, stores_of_mem (hostPlace_mem h) (wakeEvents_mem ..), hw⟩
  rw [exec_hostAccess]
  unfold execHostAccess
  dsimp only
  rw [if_pos hh, hostStore_some h]
  rfl

theorem hostAtomic_spec {s u : State} {pa n operand cmp : Nat} {k : HostAtomic} (hn : n = 4 ∨ n = 8) (ha : pa % n = 0)
    (h : hostPlace s pa n true = some u) :
    ∃ t, exec (.hostAccess pa (.atomic k n operand cmp)) s = .next t ∧ t.hostData = s.memBytes pa n ∧
      Stores s t pa (bytesLE n (atomicValue k n (natLE (s.memBytes pa n)) operand cmp)) := by
  have hok : ¬((n ≠ 4 ∧ n ≠ 8) ∨ pa % n ≠ 0) := by omega
  have hmem := hostPlace_mem h
  let bs := bytesLE n (atomicValue k n (natLE (s.memBytes pa n)) operand cmp)
  let v : State := { u with hostData := s.memBytes pa n }
  have hdata : (wakeEvents pa n (v.memPutBytes pa bs)).hostData = s.memBytes pa n := by
    obtain ⟨gs, hgs⟩ := wakeEvents_groups pa n (v.memPutBytes pa bs)
    obtain ⟨m, hm⟩ := memPutBytes_mem bs pa v
    rw [hgs, hm]
  refine ⟨(wakeEvents pa n (v.memPutBytes pa bs)).accept (.hostAccess pa (.atomic k n operand cmp)), ?_, hdata,
    stores_of_mem (u := v) hmem (wakeEvents_mem ..)⟩
  rw [exec_hostAccess]
  unfold execHostAccess
  dsimp only
  rw [if_neg hok, h, Option.map_some, memBytes_of_mem hmem]
  rfl

/-- Stores that do not take place wait where the device takes them, and change nothing elsewhere. -/
theorem hostStore_waits {s : State} {pa : Nat} {bs : List Byte} (h : hostPlace s pa bs.length true = none) :
    let stays (op : HostOp) : State :=
      if hostValid s pa bs.length true then offer .host (.hostAccess pa op) [(pa, true)] s else s
    exec (.hostAccess pa (.write bs)) s = .next (stays (.write bs)) ∧
      exec (.hostAccess pa (.evict bs)) s = .next (if hostHolds s pa then stays (.evict bs) else s) := by
  have hnone : hostStore pa bs s = none := by rw [hostStore, h]; rfl
  rw [exec_hostAccess, exec_hostAccess]
  unfold execHostAccess
  dsimp only
  rw [hnone]
  exact ⟨rfl, rfl⟩

theorem hostDropCopy_spec {s : State} {pa : Nat} (h : hostHolds s pa = true) :
    ∃ t, exec (.hostAccess pa .dropCopy) s = .next t ∧ hostHolds t pa = false ∧ t = { s with dir := t.dir } := by
  refine ⟨s.setDirLine { s.dirLine (pa / 128) with hostHolder := false, snooping := false }, ?_, hostHolds_setCopy s pa rfl, rfl⟩
  rw [exec_hostAccess]
  unfold execHostAccess
  exact congrArg Host.Outcome.next (if_pos h)

end Sys2Proof.Machine
end

section
namespace Sys2Proof.Machine
open Sys2Proof

/-! ## The debugger (R59) -/

/-- An access of no allocated word is answered so. -/
theorem debuggerAccess_unallocated {s : State} {pa : Nat} (h : pa % 4 ≠ 0 ∨ pa < windowBase ∨ windowOwner s pa = none) (op : DbgOp) :
    exec (.debuggerAccess pa op) s = .next { s with dbgResult := some (false, 0) } := by
  have hnone : (if pa % 4 = 0 ∧ windowBase ≤ pa then windowOwner s pa else none) = none := by
    split
    case isTrue hw =>
      rcases h with h | h | h
      · exact absurd hw.1 h
      · exact absurd hw.2 (Nat.not_le.mpr h)
      · exact h
    case isFalse => rfl
  rw [exec_debuggerAccess]
  unfold execDebuggerAccess
  dsimp only
  rw [hnone]

/-- An access of allocated storage waits on a reserved line, and a write on a vector instruction that streams. -/
theorem debuggerAccess_waits {s : State} {pa cn : Nat} (h4 : pa % 4 = 0) (hw : windowBase ≤ pa) (ho : windowOwner s pa = some cn)
    {op : DbgOp} (h : (windowReserved s cn pa 4 || (op != .read && streamHolds s cn pa 4)) = true) :
    exec (.debuggerAccess pa op) s = .next s := by
  rw [exec_debuggerAccess]
  unfold execDebuggerAccess
  dsimp only
  rw [if_pos ⟨h4, hw⟩, ho]
  exact congrArg Host.Outcome.next (if_pos h)

theorem debuggerAccess_reads {s : State} {pa cn : Nat} (h4 : pa % 4 = 0) (hw : windowBase ≤ pa) (ho : windowOwner s pa = some cn)
    (hr : windowReserved s cn pa 4 = false) :
    let u := touchBanks (bankAt s cn pa) s
    exec (.debuggerAccess pa .read) s = .next { u with dbgResult := some (true, BitVec.ofNat 32 (spaceRead u cn 0 .window pa 4)) } := by
  have hgo : ¬((windowReserved s cn pa 4 || (DbgOp.read != .read && streamHolds s cn pa 4)) = true) := by simp [hr]
  rw [exec_debuggerAccess]
  unfold execDebuggerAccess
  dsimp only
  rw [if_pos ⟨h4, hw⟩, ho]
  exact congrArg Host.Outcome.next (if_neg hgo)

theorem debuggerAccess_writes {s : State} {pa cn : Nat} (h4 : pa % 4 = 0) (hw : windowBase ≤ pa) (ho : windowOwner s pa = some cn)
    (hr : windowReserved s cn pa 4 = false) {w : Word} (hs : streamHolds s cn pa 4 = false) :
    let u := touchBanks (bankAt s cn pa) s
    exec (.debuggerAccess pa (.write w)) s =
      .next { wakeWindow u cn pa 4 (spaceWrite u cn 0 .window pa 4 w.toNat) with dbgResult := some (true, w) } := by
  have hgo : ¬((windowReserved s cn pa 4 || (DbgOp.write w != .read && streamHolds s cn pa 4)) = true) := by simp [hr, hs]
  rw [exec_debuggerAccess]
  unfold execDebuggerAccess
  dsimp only
  rw [if_pos ⟨h4, hw⟩, ho]
  exact congrArg Host.Outcome.next (if_neg hgo)

/-! ## Device registers (R245, R249) -/

theorem doorbell_spec (s : State) (fn : Nat) (v : DWord) :
    ∃ t, exec (.registerWrite (.doorbell fn) v) s = .next t ∧ t = { s with rings := t.rings, taken := t.taken } ∧
      t.taken.get [] fn ++ t.rings.get [] fn = s.taken.get [] fn ++ s.rings.get [] fn ∧
      (s.taken.get [] fn).length ≤ (t.taken.get [] fn).length ∧
      (t.rings.get [] fn = [] ∨ 4096 ≤ (t.taken.get [] fn).length) ∧
      ∀ m, m ≠ fn → t.rings.get [] m = s.rings.get [] m ∧ t.taken.get [] m = s.taken.get [] m := by
  let taken := s.taken.get [] fn
  let new := s.rings.get [] fn
  let room := 4096 - taken.length
  let t : State := { s with rings := s.rings.put [] fn (new.drop room), taken := s.taken.put [] fn (taken ++ new.take room) }
  have hrings : t.rings.get [] fn = new.drop room := Tab.get_put_same ..
  have htaken : t.taken.get [] fn = taken ++ new.take room := Tab.get_put_same ..
  refine ⟨t, rfl, rfl, ?_, ?_, ?_, fun m hm => ⟨Tab.get_put_other _ _ _ hm, Tab.get_put_other _ _ _ hm⟩⟩
  · rw [hrings, htaken, List.append_assoc, List.take_append_drop]
  · rw [htaken, List.length_append]; exact Nat.le_add_right ..
  · rw [hrings, htaken, List.length_append, List.length_take, List.drop_eq_nil_iff]
    omega

theorem msix_spec (s : State) (k : Nat) (v : DWord) :
    ∃ t, exec (.registerWrite (.msix k) v) s = .next t ∧ (k < 2048 → t.msixTable.get 0 k = v) ∧ (2048 ≤ k → t = s) ∧
      ∀ m, m ≠ k → t.msixTable.get 0 m = s.msixTable.get 0 m := by
  refine ⟨if k < msixVectors then { s with msixTable := s.msixTable.put 0 k v } else s, rfl, fun h => ?_, fun h => ?_, fun m hm => ?_⟩
  · rw [if_pos (show k < msixVectors from h)]; exact Tab.get_put_same ..
  · exact if_neg (Nat.not_lt.mpr h)
  · split
    · exact Tab.get_put_other _ _ _ hm
    · rfl

theorem hdm_spec (s : State) (k : Nat) (v : DWord) :
    ∃ t, exec (.registerWrite (.hdm k) v) s = .next t ∧ (k < 8 → t.hdm.get 0 k = v) ∧ (8 ≤ k → t = s) := by
  refine ⟨if k < hdmDecoders then { s with hdm := s.hdm.put 0 k v } else s, rfl, fun h => ?_, fun h => ?_⟩
  · rw [if_pos (show k < hdmDecoders from h)]; exact Tab.get_put_same ..
  · exact if_neg (Nat.not_lt.mpr h)

theorem bankDrowsy_spec (s : State) (bank : Nat) :
    exec (.bankDrowsy bank) s = .next (if s.bankLast.get 0 bank + 256 ≤ s.now ∧ bank ∈ allocatedBanks s then
      { s with drowsy := addNew bank s.drowsy } else s) := by
  rw [exec_bankDrowsy]
  unfold execBankDrowsy
  simp only [List.contains_iff_mem]

theorem headPromotion_spec (s : State) (die stop plane vc : Nat) (port : MeshPort) :
    ∃ t, exec (.headPromotion die stop plane vc port) s = .next t ∧ t = { s with heads := t.heads } ∧
      ∀ h ∈ s.heads, h.die = die → h.stop = stop → h.plane = plane → h.vc = vc → h.port = port →
        (if 48 ≤ h.age then { h with promoted := true } else h) ∈ t.heads := by
  refine ⟨_, rfl, rfl, fun h hmem hdie hstop hplane hvc hport => List.mem_map.mpr ⟨h, hmem, ?_⟩⟩
  simp [hdie, hstop, hplane, hvc, hport]

/-! ## Links (R219, R243) -/

/-- A list with an element added that it may hold. -/
theorem mem_ifAppend {α : Type} [BEq α] [LawfulBEq α] (a : α) (l : List α) : a ∈ (if l.contains a then l else l ++ [a]) := by
  split
  case isTrue h => exact List.contains_iff_mem.mp h
  case isFalse => exact List.mem_append_right _ (List.mem_singleton.mpr rfl)

theorem EndsOnly.ctxs {s t : State} (h : EndsOnly s t) : t.ctxs = s.ctxs := by rw [h]

theorem EndsOnly.linksDown {s t : State} (h : EndsOnly s t) : t.linksDown = s.linksDown := by rw [h]

theorem EndsOnly.portsDown {s t : State} (h : EndsOnly s t) : t.portsDown = s.portsDown := by rw [h]

theorem portDown_ends (port : Nat) (s : State) : EndsOnly { s with portsDown := addNew port s.portsDown } (portDown port s) :=
  abortAll_ends ..

/-- The partitions of a list killed, in the words of the event: by their numbers. -/
theorem foldl_parts {β : Type} (g : Nat → State → State) (f : β → Nat) (ps : List β) (s : State) :
    ps.foldl (fun s p => g (f p) s) s = (ps.map f).foldl (fun s p => g p s) s :=
  (List.foldl_map (f := f) (g := fun s p => g p s)).symm

theorem ctx?_of_ctxs {s t : State} (h : t.ctxs = s.ctxs) (n : Nat) : t.ctx? n = s.ctx? n := by
  rw [State.ctx?, h]; rfl

/-- What a link that fails leaves: the contexts after the kills of the partitions that use it, and the link down. -/
theorem linkTagFailure_runs {s : State} {link : Link} (h : linkExists link = true) :
    ∃ t, exec (.linkTagFailure link) s = .next t ∧ link ∈ t.linksDown ∧
      t.ctxs = (((s.parts.filter (fun p => usesLink s p link)).map (fun p => p.num)).foldl (fun s p => killPart p 4 s) s).ctxs := by
  let v := (s.parts.filter (fun p => usesLink s p link)).foldl (fun s p => killPart p.num 4 s) s
  let u : State := { v with linksDown := if v.linksDown.contains link then v.linksDown else v.linksDown ++ [link] }
  have hv : v.ctxs = (((s.parts.filter (fun p => usesLink s p link)).map (fun p => p.num)).foldl (fun s p => killPart p 4 s) s).ctxs :=
    congrArg State.ctxs (foldl_parts (fun p s => killPart p 4 s) (fun p : Part => p.num) _ s)
  have hu : link ∈ u.linksDown := mem_ifAppend link v.linksDown
  have hgo : ¬((!linkExists link) = true) := by simp [h]
  cases link with
  | bridge f t l => exact ⟨u, congrArg Host.Outcome.next (if_neg hgo), hu, hv⟩
  | port n =>
    have hends := portDown_ends n u
    exact ⟨portDown n u, congrArg Host.Outcome.next (if_neg hgo), by rw [hends.linksDown]; exact hu, hends.ctxs.trans hv⟩

theorem keyRotation_spec {s : State} {link : Link} (h : linkExists link = true) :
    ∃ t, exec (.keyRotation link) s = .next t ∧ t = { s with keyEpoch := t.keyEpoch, nonces := t.nonces } ∧
      (∀ x ∈ t.nonces, x.1 ≠ link) ∧ ∃ n, (link, n + 1) ∈ t.keyEpoch ∧ ∀ m, (link, m) ∈ t.keyEpoch → m = n + 1 := by
  have hrun : exec (.keyRotation link) s = .next (s.rotateKeys link) := by
    rw [exec_keyRotation]; unfold execKeyRotation; rw [h]; rfl
  refine ⟨_, hrun, rfl, fun x hx => ?_, _, List.mem_append_right _ (List.mem_singleton.mpr rfl), fun m hm => ?_⟩
  · simpa using (List.mem_filter.mp hx).2
  · rcases List.mem_append.mp hm with hm | hm
    · simpa using (List.mem_filter.mp hm).2
    · exact congrArg Prod.snd (List.mem_singleton.mp hm)

/-! ## Errors (R145, R212, R242) -/

theorem loseLine_ctxs (line : Nat) (s : State) : (loseLine line s).ctxs = s.ctxs := by
  unfold loseLine
  split
  · dsimp only
    split
    · exact (recordCopies_homes ..).ctxs.trans (memPutBytes_ctxs ..)
    · rfl
  · rfl

theorem uncorrectableError_kills {s : State} {cn line : Nat} {c : Ctx} (hc : s.ctx? cn = some c) (hk : c.state ≠ .killed)
    {site : ErrSite} (hsite : site = .read cn line ∨ site = .scrubbed cn line) :
    ∃ t d r, exec (.uncorrectableError site) s = .next t ∧ t.ctx? cn = some d ∧ d.state = .killed ∧
      r ∈ d.traps ∧ r.cause = .kill ∧ r.aux = 2 := by
  obtain ⟨-, d, hd, hdk, r, hr, hcause, haux⟩ := killCtx_kills (P := fun _ => True) trivial 2 hc hk
  have hd' : (loseLine line (killCtx cn 2 s)).ctx? cn = some d := by rw [State.ctx?, loseLine_ctxs]; exact hd
  have hrun : exec (.uncorrectableError site) s = .next (loseLine line (killCtx cn 2 s)) := by
    rcases hsite with rfl | rfl <;> rfl
  exact ⟨_, d, r, hrun, hd', hdk, hr, hcause, haux⟩

theorem uncorrectableError_slot {s : State} {id : Nat} {c : Ctx} (hheld : (s.slot id).held = true)
    (hc : s.ctx? (s.slot id).tag.toNat = some c) (hk : c.state ≠ .killed) :
    ∃ t d, exec (.uncorrectableError (.slot id)) s = .next t ∧ (t.slot id).held = false ∧
      t.ctx? (s.slot id).tag.toNat = some d ∧ d.state = .killed := by
  obtain ⟨-, d, hd, hdk, -⟩ := killCtx_kills (P := fun _ => True) trivial 2 hc hk
  let v := killCtx (s.slot id).tag.toNat 2 s
  have hfree : (v.setSlot id Slot.free).slot id = Slot.free := Tab.get_put_same Slot.free id Slot.free v.slots
  refine ⟨v.setSlot id Slot.free, d, ?_, by rw [hfree]; rfl, hd, hdk⟩
  rw [exec_uncorrectableError]
  unfold execUncorrectableError
  exact congrArg Host.Outcome.next (if_pos hheld)

/-- The partitions that a broken ring stops: those of the contexts that hold a slot. -/
def ringParts (s : State) : List Nat :=
  ((s.ctxs.filter (fun c => s.slots.any (fun x => x.2.held && x.2.tag.toNat == c.num))).map (fun c => c.part)).eraseDups

theorem mem_ringParts {s : State} {p : Nat} :
    p ∈ ringParts s ↔ ∃ c ∈ s.ctxs, (∃ x ∈ s.slots, x.2.held = true ∧ x.2.tag.toNat = c.num) ∧ c.part = p := by
  simp [ringParts, and_assoc]

theorem ringBreak_spec (s : State) :
    let holds (c : Ctx) : Prop := ∃ x ∈ s.slots, x.2.held = true ∧ x.2.tag.toNat = c.num
    ∃ t, exec .orbitRingBreak s = .next t ∧ t.ringBroken = true ∧
      (∀ c d, s.ctx? c.num = some c → c.state ≠ .killed → d ∈ s.ctxs → holds d → d.part = c.part →
        ∃ e, t.ctx? c.num = some e ∧ e.state = .killed) ∧
      ∀ c, (c ∈ s.ctxs ∧ ∀ d ∈ s.ctxs, d.num = c.num → d = c) → (∀ d ∈ s.ctxs, holds d → d.part ≠ c.part) →
        ∃ d, t.ctx? c.num = some d ∧ d = { c with svclog := d.svclog } := by
  have hstop := stopPart_killsPart 5
  refine ⟨{ (ringParts s).foldl (fun s p => stopPart p 5 s) s with ringBroken := true }, rfl, rfl,
    fun c d hc _ hd hholds hp => ?_, fun c hc hapart => ?_⟩
  · exact foldl_killsPart_kills hstop hc (mem_ringParts.mpr ⟨d, hd, hholds, hp⟩)
  · refine foldl_killsPart_endures hstop hc.1 hc.2 fun hp => ?_
    obtain ⟨d, hd, hholds, hdp⟩ := mem_ringParts.mp hp
    exact hapart d hd hholds hdp

/-! ## Peers of collectives (R255, R256) -/

theorem parnarPortDown_spec (s : State) (port : Nat) : ∃ t, exec (.parnarPortDown port) s = .next t ∧
    t = { s with portsDown := t.portsDown, engines := t.engines, outbox := t.outbox, nonces := t.nonces, keyEpoch := t.keyEpoch } ∧
    port ∈ t.portsDown ∧ ∀ o c, s.engine? o.id = some o → o.coll = some c → collOver o = false →
      (∃ r ∈ c.partners, c.ports.getD r 0xFF = port) → o.aborted ∈ t.engines := by
  have hends := portDown_ends port s
  refine ⟨portDown port s, rfl, ?_, by rw [hends.portsDown]; exact mem_addNew .., fun o c ho hc hl hr => ?_⟩
  · exact Eq.trans hends (by rw [hends.portsDown])
  · have huses : c.uses port = true := by simpa [Coll.uses] using hr
    exact abortAll_aborts (s := { s with portsDown := addNew port s.portsDown })
      (List.mem_filter.mpr ⟨engine?_mem ho, by rw [hc]; exact huses⟩) ho hc hl

theorem peerKilled_spec (s : State) (session n rank : Nat) : ∃ t, exec (.collPeerMessage session n (.killed rank)) s = .next t ∧
    t = { s with engines := t.engines, outbox := t.outbox, nonces := t.nonces, keyEpoch := t.keyEpoch, early := t.early } ∧
    (session, n, .killed rank) ∈ t.early ∧ ∀ o c, s.engine? o.id = some o → o.coll = some c → c.session = session →
      n ≤ c.k → collOver o = false → o.aborted ∈ t.engines := by
  let hit := s.engines.filter (fun o => o.coll.any (fun c => c.session == session && decide (n ≤ c.k)))
  let u := hit.foldl (fun s o => abortColl o.id s) s
  have hends : EndsOnly s u := abortAll_ends hit s
  refine ⟨_, rfl, ?_, mem_ifAppend (session, n, PeerMsg.killed rank) u.early, fun o c ho hc hs hn hl => ?_⟩
  · exact congrArg (fun z : State => { z with early := if u.early.contains (session, n, PeerMsg.killed rank) then u.early
      else u.early ++ [(session, n, PeerMsg.killed rank)] }) hends
  · exact abortAll_aborts (List.mem_filter.mpr ⟨engine?_mem ho, by simp [hc, hs, hn]⟩) ho hc hl

/-- A message for an operation in progress. -/
theorem collPeerMessage_takes {s : State} {session n : Nat} {o : EngineOp} {c : Coll} (h : collOp? s session n = some (o, c))
    {m : PeerMsg} (hm : ∀ rank, m ≠ .killed rank) : exec (.collPeerMessage session n m) s = .next (takeMessage o c m s) := by
  rw [exec_collPeerMessage]
  unfold execCollPeerMessage peerMessage
  cases m with
  | killed rank => exact absurd rfl (hm rank)
  | _ => dsimp only; rw [h]

theorem collPeerMessage_early {s : State} {session n : Nat} (h : collOp? s session n = none) {m : PeerMsg}
    (hm : ∀ rank, m ≠ .killed rank) : exec (.collPeerMessage session n m) s =
      .next (if collSeen s session n then s else { s with early := s.early ++ [(session, n, m)] }) := by
  rw [exec_collPeerMessage]
  unfold execCollPeerMessage peerMessage
  cases m with
  | killed rank => exact absurd rfl (hm rank)
  | _ => dsimp only; rw [h]

/-- The messages that end a collective of this device, each told to every partner, and that of a peer's data. -/
theorem peerMessages_end {s : State} {session n : Nat} {o : EngineOp} {c : Coll} (h : collOp? s session n = some (o, c)) :
    let told (m : PeerMsg) (f : Cause × DWord) (what : OutKind) : Prop := s.engine? o.id = some o → collOver o = false →
      ∃ t, exec (.collPeerMessage session n m) s = .next t ∧
        t = { s with engines := t.engines, outbox := t.outbox, nonces := t.nonces, keyEpoch := t.keyEpoch } ∧
        t.engine? o.id = some { o with fault := some f } ∧
        ∀ r ∈ c.partners, ∃ x ∈ t.outbox, x.session = session ∧ x.k = n ∧ x.rank = r ∧ x.what = what ∧ x.vals = []
    (∀ m, takeMessage o c m s = refuseColl o.id s → (∀ rank, m ≠ .killed rank) →
      told m (.opr, 0#32 ++ o.words.headD 0) .mismatch) ∧
    (∀ m, takeMessage o c m s = abortColl o.id s → (∀ rank, m ≠ .killed rank) → told m (.pf, lowestUnwritten o) .ended) := by
  obtain ⟨hc, rfl, rfl⟩ := collOp?_spec h
  refine ⟨fun m htake hm ho hl => ?_, fun m htake hm ho hl => ?_⟩
  · refine ⟨_, collPeerMessage_takes h hm, ?_⟩
    rw [htake, refuseColl_live ho hc hl]
    exact tellEnd_told (f := fun o => { o with fault := some (.opr, 0#32 ++ o.words.headD 0) }) .mismatch ho (fun _ => rfl)
  · refine ⟨_, collPeerMessage_takes h hm, ?_⟩
    rw [htake, abortColl_live ho hc hl]
    exact tellEnd_told (f := EngineOp.aborted) .ended ho (fun _ => rfl)

/-- Settles O56: one lemma per event; the contexts after kills of partitions come from what each kill leaves of them. -/
theorem outsideEvents : Obligations.OutsideEvents := by
  unfold Obligations.OutsideEvents
  intro s endures dies alone stores
  refine ⟨fun pa n keep u => hostRead_spec, fun pa bs u h => ⟨hostWrite_spec h, hostEvict_spec h⟩, fun pa bs => hostStore_waits,
    fun pa k n operand cmp u => hostAtomic_spec, fun pa => hostDropCopy_spec,
    fun pa h => ⟨debuggerAccess_unallocated h .read, fun w => debuggerAccess_unallocated h (.write w)⟩,
    fun pa cn h4 hw ho => ⟨fun hr op => debuggerAccess_waits h4 hw ho (by simp [hr]),
      fun hs w => debuggerAccess_waits h4 hw ho (by simp [hs])⟩,
    fun pa cn h4 hw ho hr => ⟨debuggerAccess_reads h4 hw ho hr, fun w => debuggerAccess_writes h4 hw ho hr⟩,
    doorbell_spec s, msix_spec s, hdm_spec s, bankDrowsy_spec s, headPromotion_spec s,
    fun port hport => ⟨_, congrArg Host.Outcome.next (if_pos hport), rfl, rfl⟩,
    fun link => ⟨fun h => ?_, fun h => ?_⟩, fun link h => ?_, fun link => keyRotation_spec,
    fun cn line c hc hk site => uncorrectableError_kills hc hk, fun f => rfl, fun id c => uncorrectableError_slot,
    fun line => ⟨_, rfl, rfl, rfl⟩, ringBreak_spec s, parnarPortDown_spec s, fun session n m hm h => collPeerMessage_early h hm,
    peerKilled_spec s, fun session n o c h => ?_⟩
  · exact congrArg Host.Outcome.next (if_pos (by simp [h]))
  · obtain ⟨t, hrun, hdown, hctxs⟩ := linkTagFailure_runs h
    refine ⟨t, hrun, hdown, fun p hp huses c hc hpart _ => ?_, fun c hc hapart => ?_⟩
    · obtain ⟨d, hd, hdk⟩ := foldl_killsPart_kills (ps := (s.parts.filter (fun p => usesLink s p link)).map (fun p => p.num))
        (killPart_killsPart 4) hc (List.mem_map.mpr ⟨p, List.mem_filter.mpr ⟨hp, huses⟩, hpart.symm⟩)
      exact ⟨d, (ctx?_of_ctxs hctxs _).trans hd, hdk⟩
    · obtain ⟨d, hd, hdc⟩ := foldl_killsPart_endures (killPart_killsPart 4) hc.1 hc.2
        (ps := (s.parts.filter (fun p => usesLink s p link)).map (fun p => p.num)) (fun hp => by
          obtain ⟨p, hp, hnum⟩ := List.mem_map.mp hp
          exact hapart p (List.mem_filter.mp hp).1 (List.mem_filter.mp hp).2 hnum.symm)
      exact ⟨d, (ctx?_of_ctxs hctxs _).trans hd, hdc⟩
  · exact congrArg Host.Outcome.next (if_pos (by simp [h]))
  · obtain ⟨hrefused, haborted⟩ := peerMessages_end h
    exact ⟨fun rank kind mode op ty e a hne => hrefused _ (if_neg hne) nofun, fun rank => hrefused (.mismatch rank) rfl nofun,
      fun rank => haborted (.ended rank) rfl nofun, fun rank => collPeerMessage_takes h nofun⟩

end Sys2Proof.Machine
end

section
namespace Sys2Proof.Machine
open Sys2Proof

/-! ## A completion for a lane that has ended (O20) -/

/-- The loaded group after its lane 0 has ended. -/
def endedLaneGroup : Group := { loadGroup with ended := 1 }

/-- A CLK whose vector D is v0 of lane 0. -/
def clkOfLaneZero : LateRead := { kind := .clk, reg := 0, lanes := 1, op := 0 }

/-- Refutes O20: the completion of a vector CLK writes no lane that has ended meanwhile (log 55), while the statement asks for the
value in every lane of the issue that is present. Lane 0 of the loaded group has ended here: v0 stays 0 where the statement asks
for 1. -/
theorem not_timeInstructions : ¬Obligations.TimeInstructions := by
  unfold Obligations.TimeInstructions
  rintro ⟨-, hcompletes⟩
  obtain ⟨-, -, -, hwritten, -⟩ := hcompletes 1 0 endedLaneGroup 0 0 clkOfLaneZero
  have hkept : (endedLaneGroup.complete 1 0 { due := 0, bits := 0, read := some clkOfLaneZero }).vget 0 0 = 0 := by decide
  have hasked := hwritten 0 0
  rw [hkept] at hasked
  exact absurd hasked (by decide)

/-! ## A block of a saved context (O52) -/

/-- The loaded block, its group gone, in a context that has been saved. -/
def savedCtxState : State :=
  { State.reset with ctxs := [{ loadCtx with state := .saved }], launches := [loadLaunch], blocks := [loadBlock] }

/-- Refutes O52: BLOCK_COMPLETE does nothing for a block whose context has been saved, as such a block stands on no core
(`onCores`), while the statement asks it to complete every block that has cores and whose work has ended. -/
theorem not_launchesRun : ¬Obligations.LaunchesRun := by
  unfold Obligations.LaunchesRun
  intro h
  obtain ⟨-, -, -, hcompletes, -⟩ := h savedCtxState
  obtain ⟨t, hrun, hblock, -⟩ := hcompletes 0 loadBlock rfl rfl (by decide) (by decide)
  have hstays : exec (.blockComplete 0) savedCtxState = .next savedCtxState := rfl
  obtain rfl : savedCtxState = t := Host.Outcome.next.inj (hstays.symm.trans hrun)
  exact absurd hblock (by decide)

end Sys2Proof.Machine
end

section
namespace Sys2Proof.Machine
open Sys2Proof

/-! ## Events of the schedule (O53) -/

/-- An update of one split of a group. -/
theorem splitNow_modSplit {s : State} {gi si : Nat} {g : Group} {p : Split} (hg : s.group? gi = some g) (hp : g.split? si = some p)
    {f : Split → Split} (hf : ∀ q, (f q).idx = q.idx) : SplitNow s (s.modSplit gi si f) gi g si (f p) :=
  ⟨onlyGroup_modGroup .., _, group?_modGroup_same _ hg, rfl, split?_modSplit f hf hp,
    fun q hq hne => List.mem_map.mpr ⟨q, hq, if_neg hne⟩⟩

/-- An event that changes nothing. -/
theorem splitNow_refl {s : State} {gi si : Nat} {g : Group} {p : Split} (hg : s.group? gi = some g) (hp : g.split? si = some p) :
    SplitNow s s gi g si p :=
  ⟨⟨rfl, rfl, fun _ _ => rfl⟩, g, hg, rfl, hp, fun _ hq _ => hq⟩

/-- A split once the join point `jid`, at which split `si` waits, has dissolved (R28). -/
def dissolved (si jid : Nat) (q : Split) : Split :=
  let r := { q with joins := q.joins.filter (fun k => k.id != jid) }
  if (q.idx == si || (q.wait == .join && (q.inner.map (fun k => k.id == jid)).getD false)) then { r with wait := .none } else r

theorem dissolved_idx (si jid : Nat) (q : Split) : (dissolved si jid q).idx = q.idx := by
  unfold dissolved; split <;> rfl

theorem dissolved_joins (si jid : Nat) (q : Split) : (dissolved si jid q).joins = q.joins.filter (fun k => k.id != jid) := by
  unfold dissolved; split <;> rfl

/-- Only the issuing split's record of a join point, and those of the splits that wait there with it, change (R28). -/
theorem joinTimeout_dissolves {s : State} {gi si : Nat} {g : Group} {p : Split} {j : Join} (hg : s.group? gi = some g)
    (hp : g.split? si = some p) (hmay : mayTrap s gi = true) (hon : onCores s g.block = true) (hj : p.inner = some j)
    (hw : p.wait = .join) (hsince : p.since + 1024 ≤ s.now) :
    ∃ t h, exec (.joinTimeout gi si) s = .next t ∧ OnlyGroup s t gi ∧ t.group? gi = some h ∧
      h = { g with splits := h.splits } ∧ (∀ q ∈ h.splits, ∀ k ∈ q.joins, k.id ≠ j.id) ∧
      h.split? si = some { p with joins := p.joins.filter (fun k => k.id != j.id), wait := .none } := by
  have hrun : exec (.joinTimeout gi si) s = .next (s.modGroup gi (fun g => { g with splits := g.splits.map (dissolved si j.id) })) := by
    rw [exec_joinTimeout]
    unfold execJoinTimeout
    rw [hg, Option.filter_some, if_pos (by simp [hmay, hon]), Option.bind_some, hp]
    dsimp only
    rw [hj]
    dsimp only
    rw [if_pos (by simp [hw, hsince])]
    rfl
  have hpi : p.idx = si := by simpa using List.find?_some hp
  have hdp : dissolved si j.id p = { p with joins := p.joins.filter (fun k => k.id != j.id), wait := .none } := by simp [dissolved, hpi]
  refine ⟨_, _, hrun, onlyGroup_modGroup .., group?_modGroup_same _ hg, rfl, fun q hq k hk => ?_, ?_⟩
  · obtain ⟨r, -, rfl⟩ := List.mem_map.mp hq
    rw [dissolved_joins] at hk
    simpa using (List.mem_filter.mp hk).2
  · exact (split?_map (F := dissolved si j.id) rfl (dissolved_idx si j.id) si).trans ((congrArg (Option.map (dissolved si j.id)) hp).trans (congrArg some hdp))

theorem joinTimeout_early {s : State} {gi si : Nat} {g : Group} {p : Split} (hg : s.group? gi = some g)
    (hp : g.split? si = some p) (hsince : s.now < p.since + 1024) : exec (.joinTimeout gi si) s = .next s := by
  have hnot : ¬ p.since + 1024 ≤ s.now := by omega
  rw [exec_joinTimeout]
  unfold execJoinTimeout
  split
  · rfl
  · rename_i q hq
    obtain ⟨g', hg', hq⟩ := Option.bind_eq_some_iff.mp hq
    obtain rfl : g = g' := Option.some.inj (hg.symm.trans (Option.filter_eq_some_iff.mp hg').1)
    obtain rfl : p = q := Option.some.inj (hp.symm.trans hq)
    split
    · rfl
    · simp [hnot]

/-- A live split that waits on memory, or has stalled long, becomes dormant; any other stays as it is (R25). -/
theorem splitDormant_eq {s : State} {gi si : Nat} {g : Group} {p : Split} (hg : s.group? gi = some g)
    (hp : g.split? si = some p) (hlive : p.run = .live) :
    exec (.splitDormant gi si) s = .next (if (waitsOnMemory s p && !waitOver s g p) || stalledLong s g p
      then s.modSplit gi si (fun p => { p with run := .dormant, order := nextOrder g.splits }) else s) := by
  simp [execSplitDormant, hg, hp, hlive]

/-- A live split that becomes dormant, behind every split that is already. -/
theorem splitDormant_becomes {s : State} {gi si : Nat} {g : Group} {p : Split} (hg : s.group? gi = some g)
    (hp : g.split? si = some p) (hlive : p.run = .live) (hwhy : ((waitsOnMemory s p && !waitOver s g p) || stalledLong s g p) = true) :
    exec (.splitDormant gi si) s = .next (s.modSplit gi si (fun p => { p with run := .dormant, order := nextOrder g.splits })) :=
  (splitDormant_eq hg hp hlive).trans (by rw [if_pos hwhy])

/-- The older of two dormant splits. -/
def olderSplit (m : Option Split) (p : Split) : Option Split :=
  match m with
  | none => some p
  | some q => if p.order < q.order then some p else some q

/-- The choice among dormant splits ends at one of the lowest order. -/
theorem foldl_olderSplit : ∀ (ps : List Split) (m : Option Split) (q : Split), q ∈ m.toList ++ ps →
    ∃ r ∈ m.toList ++ ps, ps.foldl olderSplit m = some r ∧ ∀ x ∈ m.toList ++ ps, r.order ≤ x.order
  | [], none, q, h => by simp at h
  | [], some m, _, _ => ⟨m, by simp, rfl, by simp⟩
  | p :: ps, m, _, _ => by
    obtain ⟨n, hn, hsub, hle⟩ : ∃ n, olderSplit m p = some n ∧ n ∈ m.toList ++ [p] ∧ ∀ x ∈ m.toList ++ [p], n.order ≤ x.order := by
      cases m with
      | none => exact ⟨p, rfl, by simp, by simp⟩
      | some o =>
        by_cases h : p.order < o.order
        · exact ⟨p, if_pos h, by simp, by simp; omega⟩
        · exact ⟨o, if_neg h, by simp, by simp; omega⟩
    obtain ⟨r, hr, hfold, hmin⟩ := foldl_olderSplit ps (some n) n (by simp)
    have hnr : r.order ≤ n.order := hmin n (by simp)
    rw [List.foldl_cons, hn]
    refine ⟨r, ?_, hfold, fun x hx => ?_⟩
    · rcases List.mem_append.mp hr with hr | hr
      · obtain rfl : r = n := by simpa using hr
        exact (show m.toList ++ p :: ps = (m.toList ++ [p]) ++ ps by simp) ▸ List.mem_append_left ps hsub
      · simp [hr]
    · rcases List.mem_append.mp (show x ∈ (m.toList ++ [p]) ++ ps by simpa using hx) with hx | hx
      · exact hnr.trans (hle x hx)
      · exact hmin x (by simp [hx])

theorem splitActivate_runs {s : State} {gi : Nat} {g : Group} {q : Split} (hg : s.group? gi = some g)
    (hlive : liveCount g.splits < 4) (hq : (g.splits.filter (wakeable s g)).foldl olderSplit none = some q) :
    exec (.splitActivate gi) s = .next (s.modSplit gi q.idx (fun q => { q with run := .live })) := by
  rw [exec_splitActivate]
  unfold execSplitActivate
  rw [hg]
  dsimp only
  rw [if_neg (by omega)]
  split
  · rename_i h; exact absurd (h.symm.trans hq) nofun
  · rename_i r h
    obtain rfl : r = q := Option.some.inj (h.symm.trans hq)
    rfl

theorem splitActivate_full {s : State} {gi : Nat} {g : Group} (hg : s.group? gi = some g) (hlive : 4 ≤ liveCount g.splits) :
    exec (.splitActivate gi) s = .next s := by
  simp [execSplitActivate, hg, hlive]

/-- A split that has waited 256 cycles reserves its turn (R36). -/
def ageReserve (p : Split) : Split := if 256 ≤ p.age then { p with reserved := true } else p

theorem ageReserve_idx (p : Split) : (ageReserve p).idx = p.idx := by unfold ageReserve; split <;> rfl

/-- A YIELD that is over at `now` (R37). -/
def yieldOver (now : Nat) (p : Split) : Split :=
  match p.wait with
  | .yield till => if till ≤ now then { p with wait := .none } else p
  | _ => p

theorem yieldOver_idx (now : Nat) (p : Split) : (yieldOver now p).idx = p.idx := by
  unfold yieldOver; split <;> [split <;> rfl; rfl]

/-- A SLEEP whose instant has come when the counter reads `time` (R258). -/
def sleepOver (time : DWord) (p : Split) : Split :=
  match p.wait with
  | .sleep instant next => if instant.toNat ≤ time.toNat then p.goto next else p
  | _ => p

theorem sleepOver_idx (time : DWord) (p : Split) : (sleepOver time p).idx = p.idx := by
  unfold sleepOver; split <;> [split <;> rfl; rfl]

/-- SLEEP_WAKE, in a group that is there. -/
theorem sleepWake_eq {s : State} {gi si : Nat} {g : Group} (hg : s.group? gi = some g) :
    exec (.sleepWake gi si) s = .next (s.modSplit gi si (sleepOver (s.timeOf g.die))) := by
  rw [exec_sleepWake]
  unfold execSleepWake
  rw [hg]
  rfl

/-- Settles O53: one lemma for each event. -/
theorem splitSchedule : Obligations.SplitSchedule := by
  unfold Obligations.SplitSchedule
  intro gi si s g p hg hp
  have changes (f : Split → Split) {i : Instr} (hrun : exec i s = .next (s.modSplit gi si f)) {p' : Split} (hp' : f p = p')
      (hf : ∀ q, (f q).idx = q.idx) : ∃ t, exec i s = .next t ∧ SplitNow s t gi g si p' :=
    ⟨_, hrun, hp' ▸ splitNow_modSplit hg hp hf⟩
  refine ⟨fun j hmay hon hj hw => ⟨joinTimeout_dissolves hg hp hmay hon hj hw, joinTimeout_early hg hp⟩,
    fun hlive hwaits hover => ?_, fun hlive hstall hheld => ?_, fun hlive hwaits hstall => ?_, splitActivate_full hg,
    fun hlt ⟨q, hq, hwake⟩ => ?_, fun hage => ?_, fun hage => ?_, fun till hw => ⟨fun htill => ?_, fun htill => ?_⟩,
    fun instant next hw => ⟨fun hcome => ?_, fun hcome => ?_⟩⟩
  · exact changes _ (splitDormant_becomes hg hp hlive (by simp [hwaits, hover])) rfl (fun _ => rfl)
  · exact changes _ (splitDormant_becomes hg hp hlive (by simp [stalledLong, hstall, hheld])) rfl (fun _ => rfl)
  · have hstays : ((waitsOnMemory s p && !waitOver s g p) || stalledLong s g p) = false := by
      rcases hstall with hstall | hheld
      · simp [hwaits, stalledLong, hstall]
      · simp [hwaits, stalledLong, hheld]
    exact ⟨s, (splitDormant_eq hg hp hlive).trans (by rw [if_neg (by simp [hstays])]), splitNow_refl hg hp⟩
  · obtain ⟨r, hr, hfold, hmin⟩ := foldl_olderSplit (g.splits.filter (wakeable s g)) none q
      (by simpa using ⟨hq, hwake⟩)
    obtain ⟨hr, hrw⟩ : r ∈ g.splits ∧ wakeable s g r = true := by simpa using hr
    exact ⟨r, hr, hrw, fun x hx hxw => hmin x (by simpa using ⟨hx, hxw⟩), splitActivate_runs hg hlt hfold⟩
  · exact changes ageReserve rfl (if_pos hage) ageReserve_idx
  · exact changes ageReserve rfl (if_neg (by omega)) ageReserve_idx
  · exact changes (yieldOver s.now) rfl (by simp [yieldOver, hw, htill]) (yieldOver_idx _)
  · exact changes (yieldOver s.now) rfl (by simp [yieldOver, hw, htill]) (yieldOver_idx _)
  · exact changes (sleepOver (s.timeOf g.die)) (sleepWake_eq hg) (by simp [sleepOver, hw, hcome]) (sleepOver_idx _)
  · exact changes (sleepOver (s.timeOf g.die)) (sleepWake_eq hg) (by simp [sleepOver, hw, hcome]) (sleepOver_idx _)

end Sys2Proof.Machine
end

section
namespace Sys2Proof.Machine
open Sys2Proof

/-! ## Special registers (O18) -/

/-- A result written without flags (R54, R66, R72). -/
theorem writeD_effect {s : State} {g : Group} {p : Split} {i : Instr} {x : Ext} {wide : Bool} {val : Nat → DWord}
    (h : s.issuer? = some (g, p)) :
    RegisterEffect s (advance (issueOf s g p i x.guard) (s.modGroup s.curG (writeD x wide (guardLanes g p x.guard) val))) g p i
      (fun h => FlagsSame g h ∧ DWritten g h x (guardLanes g p x.guard) wide val) := by
  obtain ⟨hframe, hwritten⟩ := writeD_spec x wide (guardLanes g p x.guard) val g
  have hsplits : (writeD x wide (guardLanes g p x.guard) val g).splits = g.splits := by rw [hframe]
  have hflags : FlagsSame g (writeD x wide (guardLanes g p x.guard) val g) := ⟨by rw [hframe], by rw [hframe]⟩
  refine registerEffect_of h ?_ hsplits (fun _ hx => hx) ⟨hflags, hwritten⟩
  unfold RegistersOnly
  rw [hsplits, hwritten.1, hflags.1, hflags.2]
  exact hframe

/-- A read that the completion makes holds D and goes on (R112, R258). -/
theorem lateRead_readsLater {s : State} {g : Group} {p : Split} {i : Instr} {x : Ext} {kind : LateKind} {wide : Bool}
    (h : s.issuer? = some (g, p)) :
    ReadsLater s (lateRead (issueOf s g p i x.guard) kind x wide (advance (issueOf s g p i x.guard) s)) g p i x kind wide := by
  obtain ⟨hg, -, hidx⟩ := issuer?_eq h
  refine ⟨rfl, fun j hj => ?_, ?_⟩
  · exact (group?_modGroup_other _ hj).trans ((group?_modGroup_other _ hj).trans (group?_modGroup_other (s := s) _ hj))
  · refine (group?_modGroup_same _ (group?_modGroup_same _ (group?_modGroup_same (s := s) _ hg))).trans ?_
    simp only [Group.modSplit, List.map_map, issueOf, ← hidx, Option.some.injEq, Group.mk.injEq, true_and, and_true]
    refine ⟨rfl, List.map_congr_left fun q _ => ?_⟩
    by_cases hq : q.idx = p.idx
    · simp [hq, Split.goto, behind, Issue.nextPc, advance, State.modSplit, State.modGroup]
    · simp [hq]

/-- The virtual die bound to a physical one (R15). -/
theorem virtualDie_eq {bind : List Nat} {v die : Nat} (hnodup : bind.Nodup) (hv : bind[v]? = some die) : virtualDie bind die = v := by
  have hfind : bind.findIdx? (fun d => d == die) = some v := by
    obtain ⟨hlt, hget⟩ := List.getElem?_eq_some_iff.mp hv
    refine List.findIdx?_eq_some_iff_getElem.mpr ⟨hlt, by simp [hget], fun j hj => ?_⟩
    have hne : bind[j] ≠ bind[v] := fun h => by
      have := (List.Nodup.getElem_inj_iff hnodup).mp h
      omega
    simpa [hget] using hne
  rw [virtualDie, hfind, Option.getD_some]

/-- An instruction that gives the FLAGS or the ARM of its group a value, and goes on. -/
theorem passesBy_frame {s t : State} {g : Group} {p : Split} {i : Instr} (h : PassesBy s t g p i) :
    OnlyGroup s t s.curG ∧ ∃ h, t.group? s.curG = some h ∧ Continues g h p (behind p i) ∧ h = { g with splits := h.splits } :=
  ⟨h.1, _, h.2, rfl, rfl⟩

/-- SWR on FLAGS (R364). -/
theorem swr_flags {x : Ext} {s : State} {g : Group} {p : Split} (h : Executes s g p (.swr x)) (hvar : x.var = 14) :
    ∃ t, exec (.swr x) s = .next t ∧ RegisterEffect s t g p (.swr x) (fun h => h = { g with
      flags := if guardLanes g p x.guard = 0 then g.flags else (g.uget x.a.toNat).extractLsb' 0 6, splits := h.splits }) := by
  refine ⟨_, (exec_swr x s).trans (runInstr_executes _ _ h), ?_⟩
  rw [show x.var.toNat = 14 by rw [hvar]; rfl]
  by_cases he : guardLanes g p x.guard = 0
  · rw [if_pos he]
    dsimp only
    rw [if_pos (show (issueOf s g p (.swr x) x.guard).e = 0 from he)]
    obtain ⟨honly, k, hk, hgo, hsame⟩ := passesBy_frame (passesBy_of (gd := x.guard) (i := .swr x) h.1)
    exact ⟨honly, k, hk, by rw [hsame]; rfl, hgo, hsame⟩
  · rw [if_neg he]
    dsimp only
    rw [if_neg (show (issueOf s g p (.swr x) x.guard).e ≠ 0 from he)]
    exact registerEffect_of (gd := x.guard) (f := fun g' => { g' with flags := (g.uget x.a.toNat).extractLsb' 0 6 }) h.1 rfl rfl
      (fun _ hx => by rw [hx]) rfl

/-- SWR on ARM (R364). -/
theorem swr_arm {x : Ext} {s : State} {g : Group} {p : Split} (h : Executes s g p (.swr x)) (hvar : x.var = 15) :
    ∃ t, exec (.swr x) s = .next t ∧ OnlyGroup s t s.curG ∧ ∃ h, t.group? s.curG = some h ∧ Continues g h p (behind p (.swr x)) ∧
      h = { g with arm := if guardLanes g p x.guard = 0 then g.arm else (g.uget x.a.toNat).extractLsb' 0 6, splits := h.splits } := by
  obtain ⟨hg, -, hidx⟩ := issuer?_eq h.1
  refine ⟨_, (exec_swr x s).trans (runInstr_executes _ _ h), ?_⟩
  have h15 : x.var.toNat = 15 := by rw [hvar]; rfl
  dsimp only
  split
  · omega
  · by_cases he : guardLanes g p x.guard = 0
    · rw [if_pos he, if_pos (show (issueOf s g p (.swr x) x.guard).e = 0 from he)]
      exact passesBy_frame (passesBy_of (gd := x.guard) (i := .swr x) h.1)
    · rw [if_neg he, if_neg (show (issueOf s g p (.swr x) x.guard).e ≠ 0 from he), advance_modGroup]
      refine ⟨onlyGroup_modGroup .., _, group?_modGroup_same _ hg, ?_, rfl⟩
      simp only [Continues, Group.modSplit, issueOf, hidx, behind, Issue.nextPc]
      rfl
  · rename_i hne
    exact absurd h15 hne

/-- SRD and SWR of a number that they do not read or write take OPR (R68, R364). -/
theorem swr_opr {x : Ext} {s : State} {g : Group} {p : Split} (h : Executes s g p (.swr x)) (h14 : x.var ≠ 14) (h15 : x.var ≠ 15) :
    exec (.swr x) s = .next (trapped s g p (.swr x) .opr (0#32 ++ word0 (.swr x)) p.mask) := by
  refine ((exec_swr x s).trans (runInstr_executes _ _ h)).trans (congrArg Host.Outcome.next ?_)
  dsimp only
  split
  · rename_i hn; exact absurd (BitVec.eq_of_toNat_eq hn) h14
  · rename_i hn; exact absurd (BitVec.eq_of_toNat_eq hn) h15
  · rfl

theorem srd_opr {x : Ext} {s : State} {g : Group} {p : Split} (h : Executes s g p (.srd x)) (hn : 20 ≤ x.var.toNat) :
    exec (.srd x) s = .next (trapped s g p (.srd x) .opr (0#32 ++ word0 (.srd x)) p.mask) :=
  ((exec_srd x s).trans (runInstr_executes _ _ h)).trans (congrArg Host.Outcome.next (if_pos hn))

theorem var_late_iff (x : Ext) : (x.var.toNat = 14 ∨ x.var.toNat = 15) ↔ (x.var = 14 ∨ x.var = 15) := by
  constructor <;> rintro (h | h)
  · exact .inl (BitVec.eq_of_toNat_eq h)
  · exact .inr (BitVec.eq_of_toNat_eq h)
  · exact .inl (by rw [h]; rfl)
  · exact .inr (by rw [h]; rfl)

/-- SRD of a register that is read at once. -/
theorem srd_now {x : Ext} {s : State} {g : Group} {p : Split} (h : Executes s g p (.srd x)) (hn : x.var.toNat < 20)
    (hnow : ¬(x.dU = false ∧ (x.var = 14 ∨ x.var = 15))) : ∃ t, exec (.srd x) s = .next t ∧
      RegisterEffect s t g p (.srd x) (fun h => FlagsSame g h ∧
        DWritten g h x (guardLanes g p x.guard) false (fun L => 0#32 ++ specialReg s g p x.var.toNat L)) := by
  refine ⟨_, (exec_srd x s).trans (runInstr_executes _ _ h), ?_⟩
  dsimp only
  rw [if_neg (Nat.not_le.mpr hn), if_neg (fun hlate => hnow ⟨hlate.2, (var_late_iff x).mp hlate.1⟩)]
  exact writeD_effect h.1

/-- SRD of FLAGS or ARM into a vector register. -/
theorem srd_late {x : Ext} {s : State} {g : Group} {p : Split} (h : Executes s g p (.srd x)) (hdU : x.dU = false)
    (hlate : x.var = 14 ∨ x.var = 15) : ∃ t, exec (.srd x) s = .next t ∧
      if guardLanes g p x.guard = 0 then PassesBy s t g p (.srd x)
      else ReadsLater s t g p (.srd x) x (if x.var = 14 then .flags else .arm) false := by
  have hnum := (var_late_iff x).mpr hlate
  have hkind : (x.var.toNat = 14) = (x.var = 14) := propext ⟨fun h => BitVec.eq_of_toNat_eq h, fun h => by rw [h]; rfl⟩
  refine ⟨_, ((exec_srd x s).trans (runInstr_executes _ _ h)).trans (congrArg Host.Outcome.next
    ((if_neg (by omega)).trans (if_pos ⟨hnum, hdU⟩))), ?_⟩
  by_cases he : guardLanes g p x.guard = 0
  · rw [if_pos he, if_pos (show (issueOf s g p (.srd x) x.guard).e = 0 from he)]
    exact passesBy_of h.1
  · rw [if_neg he, if_neg (show (issueOf s g p (.srd x) x.guard).e ≠ 0 from he)]
    simp only [hkind]
    exact lateRead_readsLater h.1

/-- The number of a handler group (R67). -/
theorem groupId_handler (g : Group) : g.groupId = match g.handler with
    | none => BitVec.ofNat 32 g.idx
    | some h => 0xFFFF_0000#32 + BitVec.ofNat 32 h.slot := by
  unfold Group.groupId
  split
  · rename_i h hh; simp only [hh, BitVec.ofNat_add]
  · rename_i hh; simp only [hh]

theorem zeroExtended_toNat {n : Nat} (m : Nat) (b : BitVec n) : (0#m ++ b).toNat = b.toNat := by
  simp [BitVec.toNat_append]

/-- Settles O18: one lemma for each case of the two instructions, and the values by their definitions. -/
theorem specialRegisterAccess : Obligations.SpecialRegisterAccess := by
  unfold Obligations.SpecialRegisterAccess
  refine ⟨fun x s g p => ⟨fun h => ⟨srd_now h, srd_late h, srd_opr h⟩, fun h => ⟨swr_flags h, swr_arm h, swr_opr h⟩⟩,
    fun s g p L _ => ⟨rfl, rfl, groupId_handler g, rfl, zeroExtended_toNat .., zeroExtended_toNat .., zeroExtended_toNat ..,
      zeroExtended_toNat .., rfl, fun b hb => ⟨?_, ?_, ?_, fun l hl => ?_⟩⟩⟩
  · simp [specialReg, hb]
  · simp [specialReg, hb]
  · simp [specialReg, hb]
  · have hlaunch : s.groupLaunch? g = some l := by rw [State.groupLaunch?, hb, Option.bind_some, hl]
    have hdesc : s.descOf g = some l.desc := by rw [State.descOf, hlaunch, Option.map_some]
    have hctx : s.groupCtx g = l.ctx := by rw [State.groupCtx, hlaunch]; rfl
    refine ⟨by simp [specialReg, hdesc], by simp [specialReg, hdesc], by simp [specialReg, hdesc], by simp [specialReg, hlaunch],
      by simp [specialReg, hctx], fun c hc => ?_⟩
    have hbind : s.bindOf g = c.bind := by rw [State.bindOf, State.groupCtx?, hctx, hc]; rfl
    refine ⟨by simp [specialReg, State.cohortOf, hb, hbind], by simp [specialReg, hbind], fun v hnodup hv => ?_⟩
    simp [specialReg, hbind, virtualDie_eq hnodup hv]

end Sys2Proof.Machine
end

section
namespace Sys2Proof.Machine
open Sys2Proof

/-! ## Accesses of a split (O31) -/

/-- The registers that a power of two of bytes fills. -/
theorem regsOf_two_pow (k : Nat) : regsOf (2 ^ k) = (2 ^ k + 3) / 4 := by
  unfold regsOf
  match k with
  | 0 => rfl
  | 1 => rfl
  | k + 2 =>
    have hpow : 2 ^ (k + 2) = 4 * 2 ^ k := by rw [Nat.pow_succ, Nat.pow_succ]; omega
    have hpos : 0 < 2 ^ k := Nat.two_pow_pos k
    split <;> omega

/-- A mask without lanes has no lane in its list. -/
theorem lanesOf_eq_nil_iff (m : LaneMask) : lanesOf m = [] ↔ m = 0 := by
  constructor
  · intro h
    refine BitVec.eq_of_getLsbD_eq fun L hL => ?_
    have hnot : L ∉ lanesOf m := by rw [h]; simp
    simpa [lanesOf, allLanes, hL] using hnot
  · rintro rfl; rfl

theorem lanesOf_laneBit {L : Nat} (hL : L < 16) : lanesOf (laneBit L) = [L] := by
  interval_cases L <;> rfl

/-- The lowest lane of a mask. -/
theorem lanesOf_take_one {m : LaneMask} (hm : m ≠ 0) : ∃ L, L < 16 ∧ (lanesOf m).head? = some L ∧ (lanesOf m).take 1 = [L] := by
  match h : lanesOf m with
  | [] => exact absurd ((lanesOf_eq_nil_iff m).mp h) hm
  | L :: ls =>
    have hmem : L ∈ lanesOf m := by rw [h]; simp
    exact ⟨L, by simpa [allLanes] using (List.mem_filter.mp hmem).1, rfl, rfl⟩

theorem lanesOf_or_zero (m : LaneMask) : lanesOf (m ||| 0) = lanesOf m := by simp

/-- What an issued access asks for, of the lanes of a list. -/
def formOf (op : MemOp) (lanes : List Nat) : AccessForm :=
  { kind := op.kind, bytes := op.bytes, ty := op.ty, d := op.d, ctr := op.ctr, lanes := lanes, addr := op.addr, check := op.check,
    data := op.data, data2 := op.data2, holds := op.holds, stays := op.blocks }

/-- The access that an issue makes. -/
def issuedAccess (k : Issue) (op : MemOp) (run : LaneMask) (s : State) : Access :=
  { id := s.nextId, group := k.gi, split := k.si, pc := k.sp.pc, kind := op.kind, bytes := op.bytes, ty := op.ty, d := op.d,
    ctr := op.ctr, cover := k.e, next := k.nextPc,
    shared := ((lanesOf run).map (laneEntry op)).any (fun l => l.stage == .issued && sharedPlace s k.g l.space l.addr),
    waitFrom := none, flags := 0, lanes := (lanesOf run).map (laneEntry op) }

/-- With no lane of it waiting for a replay, the access of an instruction is a new one (R139). -/
theorem enterAccess_new {s : State} {k : Issue} (op : MemOp) (run : LaneMask)
    (hnone : ∀ a ∈ s.acc, a.group = k.gi → a.split = k.si → a.pc = k.sp.pc → ∀ l ∈ a.lanes, l.stage ≠ .parked) :
    enterAccess k op run 0 s =
      (State.modGroup { s with nextId := s.nextId + 1, acc := s.acc ++ [issuedAccess k op run s] } k.gi (fun g => g.addCtr op.ctr true)).modSplit
        k.gi k.si (fun p => { p with holds := p.holds ++ op.holds.map (fun h => { h with op := s.nextId }) }) := by
  have hfind : s.acc.find? (fun a => a.group == k.gi && a.split == k.si && a.pc == k.sp.pc &&
      a.lanes.any (fun l => l.stage == .parked)) = none := by
    refine List.find?_eq_none.mpr fun a ha h => ?_
    simp only [Bool.and_eq_true, beq_iff_eq, List.any_eq_true] at h
    obtain ⟨⟨⟨hgi, hsi⟩, hpc⟩, l, hl, hparked⟩ := h
    exact hnone a ha hgi hsi hpc l hl hparked
  unfold enterAccess
  rw [hfind, lanesOf_or_zero]
  rfl

/-- The last access of an instruction that has just joined is its own. -/
theorem ownAccess_last {s : State} {k : Issue} {as : List Access} {a : Access} (hacc : s.acc = as ++ [a])
    (hown : (a.group == k.gi && a.split == k.si && a.pc == k.sp.pc) = true) : ownAccess k s = a.id := by
  simp [ownAccess, hacc, List.filter_append, hown]

/-- The split after an issue, which takes no place among the records but its own. -/
theorem afterIssue_eq {s : State} {k : Issue} {op : MemOp} {as : List Access} {a : Access} (hacc : s.acc = as ++ [a])
    (hown : (a.group == k.gi && a.split == k.si && a.pc == k.sp.pc) = true) :
    afterIssue k op s = s.modSplit k.gi k.si (fun p =>
      if op.blocks then { p with wait := .access a.id, age := 0, reserved := false } else p.goto k.nextPc) := by
  unfold afterIssue
  rw [ownAccess_last hacc hown]
  split <;> rfl

theorem addCtr_frame (g : Group) {ct : Ctr} (hc : ct ≠ .c) (ht : ct ≠ .t) : g.addCtr ct true =
    { g with cntL := g.cntL + (if ct = .l then 1 else 0), cntS := g.cntS + (if ct = .s then 1 else 0) } := by
  cases ct <;> simp_all [Group.addCtr]

/-- An issued access whose lanes all reach a place joins the outstanding ones (R132, R184). -/
theorem issued_joins {s : State} {g : Group} {p : Split} {i : Instr} {gd : Guard} {op : MemOp} {run : LaneMask}
    (h : s.issuer? = some (g, p)) (hnone : NoneParked s p) (hok : ∀ L ∈ lanesOf run, ∃ sp pa, op.check (op.addr L) = .ok sp pa)
    (hc : op.ctr ≠ .c) (ht : op.ctr ≠ .t) :
    AccessJoins s (afterIssue (issueOf s g p i gd) op (enterAccess (issueOf s g p i gd) op run 0 s)) g p i (formOf op (lanesOf run))
      (fun h => h.vec = g.vec ∧ h.pred = g.pred) := by
  obtain ⟨hg, -, hidx⟩ := issuer?_eq h
  rw [enterAccess_new (k := issueOf s g p i gd) op run hnone,
    afterIssue_eq (as := s.acc) (a := issuedAccess (issueOf s g p i gd) op run s) rfl (by simp [issuedAccess])]
  refine ⟨rfl, fun j hj => ?_, ⟨_, rfl, rfl, rfl, rfl, rfl, rfl, rfl, rfl, rfl, rfl, rfl, ?_, fun l hl => ?_⟩, _,
    group?_modGroup_same _ (group?_modGroup_same _ (group?_modGroup_same (s := { s with
      nextId := s.nextId + 1, acc := s.acc ++ [issuedAccess (issueOf s g p i gd) op run s] }) _ hg)), ?_, ?_, ?_⟩
  · exact (group?_modGroup_other _ hj).trans ((group?_modGroup_other _ hj).trans (group?_modGroup_other (s := { s with
      nextId := s.nextId + 1, acc := s.acc ++ [issuedAccess (issueOf s g p i gd) op run s] }) _ hj))
  · have hlane (L : Nat) : (laneEntry op L).lane = L := by unfold laneEntry; split <;> rfl
    simp [issuedAccess, formOf, Function.comp_def, hlane]
  · obtain ⟨L, hL, rfl⟩ := List.mem_map.mp hl
    obtain ⟨sp, pa, hcheck⟩ := hok L hL
    simp [laneEntry, hcheck, formOf]
  · rw [addCtr_frame g hc ht]; exact ⟨rfl, rfl⟩
  · rw [addCtr_frame g hc ht]; rfl
  · rw [addCtr_frame g hc ht]
    simp only [Group.modSplit, List.map_map, issueOf, ← hidx, formOf]
    refine List.map_congr_left fun q _ => ?_
    by_cases hq : q.idx = p.idx
    · simp [hq, issuedAccess, Issue.nextPc, behind]
    · simp [hq]

theorem take_one_nil {m : LaneMask} (h : (lanesOf m).take 1 ≠ []) : m ≠ 0 := by
  rintro rfl; exact h rfl

/-- A per-split access whose lane reaches a place joins the outstanding ones (R50). -/
theorem issueOnce_joins {s : State} {g : Group} {p : Split} {i : Instr} {gd : Guard} {op : MemOp} (h : s.issuer? = some (g, p))
    (hnone : NoneParked s p) (hreach : AllReach (formOf op ((lanesOf (realLanes g p gd)).take 1))) (hc : op.ctr ≠ .c) (ht : op.ctr ≠ .t) :
    AccessJoins s (issueOnce (issueOf s g p i gd) op s) g p i (formOf op ((lanesOf (realLanes g p gd)).take 1))
      (fun h => h.vec = g.vec ∧ h.pred = g.pred) := by
  obtain ⟨hne, hok⟩ := hreach
  obtain ⟨L, hL, hhead, htake⟩ := lanesOf_take_one (take_one_nil hne)
  obtain ⟨sp, pa, hcheck⟩ := hok L (by simp [formOf, htake])
  have hrun : issueOnce (issueOf s g p i gd) op s =
      afterIssue (issueOf s g p i gd) op (enterAccess (issueOf s g p i gd) op (laneBit L) 0 s) := by
    unfold issueOnce
    rw [show (issueOf s g p i gd).real = realLanes g p gd from rfl, if_neg (take_one_nil hne), hhead, Option.getD_some,
      show op.check (op.addr L) = .ok sp pa from hcheck]
  rw [hrun, htake, ← lanesOf_laneBit hL]
  exact issued_joins h hnone (fun M hM => hok M (by rwa [htake, ← lanesOf_laneBit hL])) hc ht

/-- With no lane of E that is no helper, no access is made. -/
theorem issueOnce_none {s : State} {g : Group} {p : Split} {i : Instr} {gd : Guard} {op : MemOp} (h : realLanes g p gd = 0) :
    issueOnce (issueOf s g p i gd) op s = advance (issueOf s g p i gd) s := if_pos h

/-- No pending fault covers what the access reaches (R187). -/
theorem issueVirtualOnce_free {s : State} {g : Group} {p : Split} {i : Instr} {gd : Guard} {op : MemOp}
    (hfree : ∀ k ∈ g.faults, ∀ L ∈ (lanesOf (realLanes g p gd)).take 1, ∀ pa, op.check (op.addr L) = .ok .window pa →
      k.covers s s.curG g pa = false) :
    issueVirtualOnce (issueOf s g p i gd) op s = issueOnce (issueOf s g p i gd) op s := by
  have hfind : g.faults.find? (usesUnfinished s (issueOf s g p i gd) op ((lanesOf (realLanes g p gd)).take 1)) = none := by
    refine List.find?_eq_none.mpr fun k hk huses => ?_
    obtain ⟨L, hL, huse⟩ := List.any_eq_true.mp huses
    split at huse
    · rename_i pa hcheck
      exact absurd (huse.symm.trans (hfree k hk L hL pa hcheck)) nofun
    · exact absurd huse Bool.false_ne_true
  unfold issueVirtualOnce deliverOr
  rw [show (issueOf s g p i gd).g.faults.find? (usesUnfinished s (issueOf s g p i gd) op
    ((lanesOf (issueOf s g p i gd).real).take 1)) = none from hfind]

/-- Words written to a run of uniform registers. -/
theorem foldl_uset (d : Nat) (w : Nat → Word) (g : Group) : ∀ n,
    (List.range n).foldl (fun g k => g.uset (d + k) (w k)) g =
        { g with uni := ((List.range n).foldl (fun g k => g.uset (d + k) (w k)) g).uni } ∧
      ∀ r, ((List.range n).foldl (fun g k => g.uset (d + k) (w k)) g).uget r =
        if d ≤ r ∧ r < d + n then w (r - d) else g.uget r
  | 0 => ⟨rfl, fun r => (if_neg (by omega)).symm⟩
  | n + 1 => by
    obtain ⟨hframe, hget⟩ := foldl_uset d w g n
    rw [List.range_succ, List.foldl_append, List.foldl_cons, List.foldl_nil]
    refine ⟨congrArg (fun z : Group => z.uset (d + n) (w n)) hframe, fun r => ?_⟩
    rw [uget_uset, hget]
    by_cases hr : r = d + n
    · rw [if_pos hr, if_pos (by omega), hr, Nat.add_sub_cancel_left]
    · rw [if_neg hr]
      exact if_congr (by omega) rfl rfl

/-- LDU with helper lanes alone writes zero (R23, R330). -/
theorem ldu_helpers {x : Ext} {s : State} {g : Group} {p : Split} (h : Executes s g p (.ldu x)) (hreal : realLanes g p x.guard = 0)
    (he : guardLanes g p x.guard ≠ 0) (hlive : g.retired = false) :
    ∃ t h, exec (.ldu x) s = .next t ∧ OnlyGroup s t s.curG ∧ t.group? s.curG = some h ∧ Continues g h p (behind p (.ldu x)) ∧
      h = { g with uni := h.uni, splits := h.splits } ∧
      ∀ r, h.uget r = if x.d.toNat ≤ r ∧ r < x.d.toNat + (2 ^ Fields.sz x + 3) / 4 then 0 else g.uget r := by
  obtain ⟨hg, -, hidx⟩ := issuer?_eq h.1
  obtain ⟨hframe, hget⟩ := foldl_uset x.d.toNat (fun k => (0 : BitVec 128).extractLsb' (32 * k) 32) g (regsOf (2 ^ Fields.sz x))
  have hzero (k : Nat) : (0 : BitVec 128).extractLsb' (32 * k) 32 = 0 := by simp
  have hrun : g.fillU x.d.toNat (szBytes x) 0 = (List.range (regsOf (2 ^ Fields.sz x))).foldl
      (fun g k => g.uset (x.d.toNat + k) ((0 : BitVec 128).extractLsb' (32 * k) 32)) g := if_neg (by simp [hlive])
  refine ⟨_, (g.fillU x.d.toNat (szBytes x) 0).modSplit s.curS (fun q => q.goto (behind p (.ldu x))),
    ((exec_ldu x s).trans (runInstr_executes _ _ h)).trans (congrArg Host.Outcome.next ((if_pos ⟨he, hreal⟩).trans
      (advance_modGroup ..))), onlyGroup_modGroup .., group?_modGroup_same _ hg, ?_⟩
  rw [hrun, ← regsOf_two_pow]
  refine ⟨?_, by rw [hframe]; rfl, fun r => (hget r).trans (by rw [hzero])⟩
  rw [hframe]
  simp only [Continues, Group.modSplit, hidx]

/-- Settles O31: the access of each instruction by the shared lemma of an issue, and its two other cases. -/
theorem splitAccessesIssue : Obligations.SplitAccessesIssue := by
  unfold Obligations.SplitAccessesIssue
  intro x s g p
  dsimp only
  refine ⟨fun h hnone hreach hfree => ?_, fun h hnone hreach _ => ?_, fun h hnone hreach _ => ?_, fun h hreal he => ?_,
    fun h hreal _ => ?_, fun h hreal _ => ?_, fun h => ldu_helpers h⟩
  · rw [← regsOf_two_pow] at hreach ⊢
    have hlane := take_one_nil hreach.1
    refine ⟨_, ((exec_ldu x s).trans (runInstr_executes _ _ h)).trans (congrArg Host.Outcome.next
      ((if_neg (fun hc => hlane hc.2)).trans (issueVirtualOnce_free (hfree rfl)))), ?_⟩
    exact issueOnce_joins h.1 hnone hreach nofun nofun
  · exact ⟨_, (exec_evsig x s).trans (runInstr_executes _ _ h), issueOnce_joins h.1 hnone hreach nofun nofun⟩
  · exact ⟨_, (exec_evwait x s).trans (runInstr_executes _ _ h), issueOnce_joins h.1 hnone hreach nofun nofun⟩
  · have hempty : guardLanes g p x.guard = 0 := he rfl
    refine ⟨_, ((exec_ldu x s).trans (runInstr_executes _ _ h)).trans (congrArg Host.Outcome.next
      ((if_neg (fun hc => hc.1 hempty)).trans ((issueVirtualOnce_free ?_).trans (issueOnce_none hreal)))), passesBy_of h.1⟩
    rw [(lanesOf_eq_nil_iff _).mpr hreal]
    exact fun _ _ _ hL => absurd hL List.not_mem_nil
  · exact ⟨_, ((exec_evsig x s).trans (runInstr_executes _ _ h)).trans (congrArg Host.Outcome.next (issueOnce_none hreal)), passesBy_of h.1⟩
  · exact ⟨_, ((exec_evwait x s).trans (runInstr_executes _ _ h)).trans (congrArg Host.Outcome.next (issueOnce_none hreal)), passesBy_of h.1⟩

end Sys2Proof.Machine
end

section
namespace Sys2Proof.Machine
open Sys2Proof

/-! ## Traps of arrivals and exits (O27, O28) -/

/-- Updates of one group that agree on it agree. -/
theorem modGroup_congr {s : State} {gi : Nat} {g : Group} {f f' : Group → Group} (hg : s.group? gi = some g) (hf : f g = f' g) :
    s.modGroup gi f = s.modGroup gi f' := by
  unfold State.modGroup
  congr 1
  refine List.ext_getElem? fun j => ?_
  rw [modNth_get, modNth_get]
  by_cases hj : j = gi
  · subst hj
    rw [if_pos rfl, if_pos rfl, show s.groups[j]? = some g from hg]
    simp [hf]
  · rw [if_neg hj, if_neg hj]

/-- With no pending fault that the test names, the instruction runs (R187). -/
theorem deliverOr_free {k : Issue} {t : PendingFault → Bool} {body : State → State} {s : State} (h : ∀ f ∈ k.g.faults, t f = false) :
    deliverOr k t body s = body s := by
  unfold deliverOr
  rw [List.find?_eq_none.mpr fun f hf => by simp [h f hf]]

/-- The oldest pending fault, where the test names it, is taken at the instruction (R187). -/
theorem deliverOr_oldest {k : Issue} {t : PendingFault → Bool} {body : State → State} {s : State} {f : PendingFault} {rest : List PendingFault}
    (h : k.g.faults = f :: rest) (hf : t f = true) : deliverOr k t body s =
      trapAt k f.cause f.aux k.e (s.modGroup k.gi (fun g => { g with faults := g.faults.erase f })) := by
  unfold deliverOr
  rw [h, List.find?_cons_of_pos hf]

/-- Armed flags that are set, and no matrix fault: ARITH (R113). -/
theorem arithOr_traps {k : Issue} {body : State → State} {s : State} (hquiet : ∀ f ∈ k.g.faults, f.mmag = none) (h : k.g.armed ≠ 0) :
    arithOr k body s = trapAt k .arith (0#58 ++ k.g.armed) k.e s :=
  (deliverOr_free fun f hf => by simp [hquiet f hf]).trans (if_pos h)

/-- No armed flag set and no matrix fault: the instruction runs (R113). -/
theorem arithOr_runs {k : Issue} {body : State → State} {s : State} (hquiet : ∀ f ∈ k.g.faults, f.mmag = none) (h : k.g.armed = 0) :
    arithOr k body s = body s :=
  (deliverOr_free fun f hf => by simp [hquiet f hf]).trans (if_neg (not_not_intro h))

/-! ## EXIT (O28) -/

/-- EXIT's check, for a split that has not passed it (R305). -/
theorem exitCheck_traps {k : Issue} {body : State → State} {s : State} (hwait : k.sp.wait ≠ .retire)
    (hquiet : ∀ f ∈ k.g.faults, f.mmag = none) (h : k.g.armed ≠ 0) :
    exitCheck k body s = trapAt k .arith (0#58 ++ k.g.armed) k.e s :=
  (if_neg hwait).trans (arithOr_traps hquiet h)

theorem exitCheck_runs {k : Issue} {body : State → State} {s : State}
    (h : k.sp.wait = .retire ∨ (∀ f ∈ k.g.faults, f.mmag = none) ∧ k.g.armed = 0) : exitCheck k body s = body s := by
  unfold exitCheck
  split
  · rfl
  · rename_i hwait
    obtain ⟨hquiet, harmed⟩ := h.resolve_left hwait
    exact arithOr_runs hquiet harmed

/-- A helper lane has no quad of its own to keep it: ending the idle ones leaves the lanes that are alive. -/
theorem alive_endIdle (g : Group) : (g.endLanes g.idleHelpers).alive = g.alive := by
  refine BitVec.eq_of_getLsbD_eq fun L hL => ?_
  simp only [Group.alive, Group.endLanes, Group.idleHelpers, BitVec.getLsbD_and, BitVec.getLsbD_not, BitVec.getLsbD_or, hL, decide_true,
    Bool.true_and]
  cases g.helpers.getLsbD L <;> simp

theorem alive_endLanes (g : Group) (e : LaneMask) : (g.endLanes e).alive = g.alive &&& ~~~e := by
  refine BitVec.eq_of_getLsbD_eq fun L hL => ?_
  simp only [Group.alive, Group.endLanes, BitVec.getLsbD_and, BitVec.getLsbD_not, BitVec.getLsbD_or, hL, decide_true, Bool.true_and,
    Bool.not_or, Bool.and_assoc]

/-- The group once the lanes of E and the helpers that they leave idle have ended, before it may retire. -/
def Group.lanesEnded (g : Group) (si : Nat) (e : LaneMask) (next : DWord) : Group :=
  let h := (g.endLanes e).modSplit si (fun p => p.goto next)
  h.endLanes h.idleHelpers

theorem exitLanes_eq (g : Group) (si : Nat) (e : LaneMask) (next : DWord) : g.exitLanes si e next =
    if g.alive &&& ~~~e = 0 then (g.lanesEnded si e next).retire else g.lanesEnded si e next := by
  have halive : (g.lanesEnded si e next).alive = g.alive &&& ~~~e := (alive_endIdle _).trans (alive_endLanes g e)
  unfold Group.exitLanes
  rw [← halive]
  rfl

theorem lanesEnded_ended {g : Group} {si : Nat} {e : LaneMask} {next : DWord} {L : Nat} (h : e.getLsbD L = true) :
    (g.lanesEnded si e next).ended.getLsbD L = true := by
  simp [Group.lanesEnded, Group.endLanes, Group.modSplit, h]

/-- Lanes that have ended stand in no split. -/
theorem lanesEnded_splits {g : Group} {si : Nat} {e : LaneMask} {next : DWord} {q : Split}
    (h : q ∈ (g.lanesEnded si e next).splits) : q.mask &&& e = 0 := by
  simp only [Group.lanesEnded, Group.endLanes, Group.modSplit, List.mem_filter, List.mem_map] at h
  obtain ⟨⟨r, ⟨t, ⟨⟨u, -, rfl⟩, -⟩, rfl⟩, rfl⟩, -⟩ := h
  refine BitVec.eq_of_getLsbD_eq fun L hL => ?_
  split <;> simp only [Split.goto, BitVec.getLsbD_and, BitVec.getLsbD_not, hL, decide_true, Bool.true_and] <;>
    cases e.getLsbD L <;> simp

/-- What EXIT leaves of its group. -/
theorem exitLanes_spec (g : Group) (si : Nat) (e : LaneMask) (next : DWord) :
    (∀ L, e.getLsbD L = true → (g.exitLanes si e next).ended.getLsbD L = true) ∧
      (∀ q ∈ (g.exitLanes si e next).splits, q.mask &&& e = 0) ∧
      (g.alive &&& ~~~e = 0 → (g.exitLanes si e next).retired = true ∧ (g.exitLanes si e next).splits = []) ∧
      (g.alive &&& ~~~e ≠ 0 → (g.exitLanes si e next).retired = g.retired ∧ (g.exitLanes si e next).vec = g.vec ∧
        (g.exitLanes si e next).uni = g.uni ∧ (g.exitLanes si e next).pred = g.pred) := by
  rw [exitLanes_eq]
  by_cases hlast : g.alive &&& ~~~e = 0
  · rw [if_pos hlast]
    exact ⟨fun L h => lanesEnded_ended (si := si) (next := next) h, fun q hq => absurd hq List.not_mem_nil, fun _ => ⟨rfl, rfl⟩,
      fun h => absurd hlast h⟩
  · rw [if_neg hlast]
    exact ⟨fun L h => lanesEnded_ended h, fun q hq => lanesEnded_splits hq, fun h => absurd h hlast, fun _ => ⟨rfl, rfl, rfl, rfl⟩⟩

theorem counted_iff (g : Group) : g.counted = true ↔ g.cntL = 0 ∧ g.cntS = 0 ∧ g.cntC = 0 ∧ g.cntT = 0 := by
  simp [Group.counted, and_assoc]

/-- Settles O28: each case of EXIT's text, over the lemmas about its check and about the lanes that end. -/
theorem exitEndsLanes : Obligations.ExitEndsLanes := by
  unfold Obligations.ExitEndsLanes
  intro gd s g p
  dsimp only
  have runs (h : Executes s g p (.exit gd)) (he : guardLanes g p gd ≠ 0) :
      exec (.exit gd) s = _ := ((exec_exit gd s).trans (runInstr_executes _ _ h)).trans (congrArg Host.Outcome.next (if_neg he))
  refine ⟨fun h he hwait hquiet harmed => (runs h he).trans (congrArg Host.Outcome.next (exitCheck_traps hwait hquiet harmed)),
    fun h he hpass hhandler => (runs h he).trans (congrArg Host.Outcome.next ((exitCheck_runs hpass).trans (if_pos hhandler))),
    fun h he hnone hpass => ?_⟩
  have body := (runs h he).trans (congrArg Host.Outcome.next ((exitCheck_runs hpass).trans (if_neg (by simp [issueOf, hnone]))))
  simp only [Bool.and_eq_true, Bool.not_eq_true', beq_iff_eq, ← Bool.not_eq_true, counted_iff] at body
  obtain ⟨hg, -, -⟩ := issuer?_eq h.1
  obtain ⟨hended, hsplits, hlast, hrest⟩ := exitLanes_spec g.mergeAll s.curS (guardLanes g p gd) (behind p (.exit gd))
  refine ⟨fun hmay => ?_, fun hl hcount => ⟨_, body.trans (congrArg Host.Outcome.next (if_pos ⟨hl, hcount⟩)), splitBecomes_of h.1 _⟩,
    fun f rest hl hcount hf => ?_⟩
  · refine ⟨s.modGroup s.curG (fun k => k.mergeAll.exitLanes s.curS (guardLanes g p gd) (behind p (.exit gd))), _, body.trans
      (congrArg Host.Outcome.next ((if_neg (fun hc => hc.2 (hmay hc.1).1)).trans ?_)), onlyGroup_modGroup .., group?_modGroup_same _ hg,
      hended, hsplits, hlast, hrest⟩
    split
    · rename_i hl
      exact deliverOr_free (fun f hf => absurd hf (by rw [show (issueOf s g p (.exit gd) gd).g.faults = [] from (hmay hl).2]; simp))
    · rfl
  · refine body.trans (congrArg Host.Outcome.next ((if_neg (fun hc => hc.2 hcount)).trans ((if_pos hl).trans ?_)))
    exact (deliverOr_oldest (k := issueOf s g p (.exit gd) gd) hf rfl).trans
      (congrArg (fun u => trapped u g p (.exit gd) f.cause f.aux (guardLanes g p gd)) (modGroup_congr hg (by simp [hf])))

end Sys2Proof.Machine
end

section
namespace Sys2Proof.Machine
open Sys2Proof

/-! ## Barriers (O27) -/

theorem restartCount_eq (bi id : Nat) (s : State) : restartCount bi id s =
    if ∃ h ∈ s.groups, h.block ∈ barrierSpan s bi id ∧ ∃ q ∈ h.splits, waitsAt id q = true then s
    else s.modBlock (barrierKeeper s bi id) (fun b => { b with barCount := b.barCount.put 0 id 0 }) := by
  unfold restartCount
  simp only [List.any_eq_true, Bool.and_eq_true, List.contains_iff_mem]

/-- The count of waits changes blocks alone. -/
theorem restartCount_frame (bi id : Nat) (s : State) : restartCount bi id s = { s with blocks := (restartCount bi id s).blocks } := by
  unfold restartCount; split <;> rfl

/-- A barrier instruction that reaches its checks: it arrives, or takes ARITH or HND (R47, R49, R113, R284). -/
theorem arrives_of {i : Instr} {gd : Guard} {s : State} {g : Group} {p : Split} {id : Nat} {w : Wait} (h : s.issuer? = some (g, p))
    (hrun : exec i s = .next (arithOr (issueOf s g p i gd) (fun u => if (issueOf s g p i gd).g.handler.isSome then
      trapAt (issueOf s g p i gd) .hnd 0 (issueOf s g p i gd).e u else arriveAt (issueOf s g p i gd) id w u) s)) :
    let quiet : Prop := ∀ f ∈ g.faults, f.mmag = none
    let others : Prop := ∃ h ∈ s.groups, h.block ∈ barrierSpan s g.block id ∧ ∃ q ∈ h.splits, waitsAt id q = true
    (quiet → g.armed = 0 → g.handler = none → ∃ u v, exec i s = .next (releaseBarriers g.block u) ∧ u = { v with blocks := u.blocks } ∧
      SplitBecomes s v g p (fun q => { q with wait := w, since := s.now, age := 0, reserved := false }) ∧
      (others → u.blocks = s.blocks) ∧ (¬others → u.blocks = (s.modBlock (barrierKeeper s g.block id) (fun b =>
        { b with barCount := b.barCount.put 0 id 0 })).blocks)) ∧
    (quiet → g.armed ≠ 0 → exec i s = .next (trapped s g p i .arith (0#58 ++ g.armed) (guardLanes g p gd))) ∧
    (quiet → g.armed = 0 → g.handler.isSome → exec i s = .next (trapped s g p i .hnd 0 (guardLanes g p gd))) := by
  rw [hrun]
  refine ⟨fun hquiet harmed hnone => ?_, fun hquiet harmed => congrArg Host.Outcome.next (arithOr_traps hquiet harmed),
    fun hquiet harmed hhandler => congrArg Host.Outcome.next ((arithOr_runs hquiet harmed).trans (if_pos hhandler))⟩
  refine ⟨(restartCount g.block id s).modSplit s.curG s.curS _, s.modSplit s.curG s.curS _,
    congrArg Host.Outcome.next ((arithOr_runs hquiet harmed).trans (if_neg (by simp [issueOf, hnone]))), ?_, splitBecomes_of h _,
    fun ho => ?_, fun ho => ?_⟩
  · rw [restartCount_frame]; rfl
  · rw [restartCount_eq, if_pos ho]; rfl
  · rw [restartCount_eq, if_neg ho]; rfl

/-- The blocks that a barrier spans, one by one (R44, R47, R48). -/
theorem mem_barrierSpan {s : State} {bi id : Nat} {b : Block} (hb : s.block? bi = some b) (bj : Nat) :
    bj ∈ barrierSpan s bi id ↔
      if id < 16 then bj = bi else
        ∃ d, s.block? bj = some d ∧ d.launch = b.launch ∧
          d.lin % ((((s.launch? b.launch).bind (fun l => s.ctx? l.ctx)).map (fun c => c.bind.length)).getD 1) =
            b.lin % ((((s.launch? b.launch).bind (fun l => s.ctx? l.ctx)).map (fun c => c.bind.length)).getD 1) := by
  unfold barrierSpan
  split
  · simp
  · rw [hb]
    simp [cohortBlocks, List.mem_zipIdx_iff_getElem?, State.block?]

/-- The groups that a barrier counts, one by one (R38, R47). -/
def Counts (s : State) (bi id : Nat) (g : Group) : Prop :=
  g ∈ s.groups ∧ g.block ∈ barrierSpan s bi id ∧ g.retired = false ∧ g.handler = none

/-- The condition of a release, group by group (R47). -/
theorem release_iff (bi id : Nat) (s : State) :
    ((barrierGroups s (barrierSpan s bi id)).any (fun g => g.splits.any (waitsAt id)) &&
        (barrierGroups s (barrierSpan s bi id)).all (arrived id)) = true ↔
      (∃ g, Counts s bi id g ∧ ∃ p ∈ g.splits, waitsAt id p = true) ∧
        ∀ g, Counts s bi id g → ∀ p ∈ g.splits, waitsAt id p = true := by
  have hmem (g : Group) : g ∈ barrierGroups s (barrierSpan s bi id) ↔ Counts s bi id g := by
    simp [barrierGroups, Counts, and_assoc]
  simp only [Bool.and_eq_true, List.any_eq_true, List.all_eq_true, arrived, hmem]

/-- The groups of a state whose groups are updated each by its own rule. -/
theorem endBarrier_group {bi id : Nat} {f : Split → Split} {s : State} {gi : Nat} {g : Group} (hg : s.group? gi = some g) :
    (endBarrier bi id f s).group? gi = some (if g.block ∈ barrierSpan s bi id then
      { g with splits := g.splits.map (fun p => if waitsAt id p then f p else p) } else g) := by
  have hget : (endBarrier bi id f s).group? gi = (s.group? gi).map (fun g => if (barrierSpan s bi id).contains g.block then
      { g with splits := g.splits.map (fun p => if waitsAt id p then f p else p) } else g) := by
    simp [endBarrier, State.group?, State.modBlock]
  rw [hget, hg, Option.map_some]
  simp only [List.contains_iff_mem]

/-- Settles O27: the arrival by `arrives_of`, the release by the condition of `release_iff`. -/
theorem barriersArrive : Obligations.BarriersArrive := by
  unfold Obligations.BarriersArrive
  refine ⟨fun x s g p => ?_, fun bi id s b hb => ?_⟩
  · have hwhole : concurrent s g = ((s.groupLaunch? g).map (fun l => l.desc.progress == 0)).getD false := by
      unfold concurrent State.descOf; rw [Option.map_map]; rfl
    refine ⟨fun h => arrives_of h.1 ((exec_bar x s).trans (runInstr_executes _ _ h)), fun h => ?_⟩
    have hrun := (exec_cbar x s).trans (runInstr_executes _ _ h)
    refine ⟨fun hw => arrives_of h.1 (hrun.trans (congrArg Host.Outcome.next (if_neg ?_))),
      fun hw => hrun.trans (congrArg Host.Outcome.next (if_pos ?_))⟩
    · simp [issueOf, hwhole, hw]
    · simp [issueOf, hwhole, hw]
  · simp only [← mem_barrierSpan hb]
    refine ⟨fun hsome hall gi g hg => ?_, fun ⟨g, hg, p, hp, hw⟩ => if_neg fun h => ?_⟩
    · rw [show releaseBarrier bi id s = endBarrier bi id (fun p => p.goto (p.pc + 12)) s from
        if_pos ((release_iff bi id s).mpr ⟨hsome, hall⟩), endBarrier_group hg]
      exact ⟨fun h => by rw [if_neg h], fun h => by rw [if_pos h]⟩
    · exact absurd (((release_iff bi id s).mp h).2 g hg p hp) (by simp [hw])

end Sys2Proof.Machine
end

section
namespace Sys2Proof.Tab
open Sys2Proof

/-! ## Tables written entry by entry -/

/-- A key that only one value is written to reads it; with no entry of the key, the table's own. -/
theorem get_putAll {α : Type} [DecidableEq α] {dflt v : α} {k : Nat} : ∀ {ws : List (Nat × α)} {t : Tab α},
    (∀ w ∈ ws, w.1 = k → w.2 = v) → (get dflt t k = v ∨ ∃ w ∈ ws, w.1 = k) → get dflt (putAll dflt t ws) k = v
  | [], _, _, h => h.resolve_right (by simp)
  | w :: ws, t, hval, hkey => by
    refine get_putAll (t := put dflt t w.1 w.2) (fun x hx => hval x (List.mem_cons_of_mem _ hx)) ?_
    rw [get_put]
    by_cases hw : k = w.1
    · exact .inl ((if_pos hw).trans (hval w List.mem_cons_self hw.symm))
    · rw [if_neg hw]
      refine hkey.imp_right fun ⟨x, hx, hk⟩ => ⟨x, (List.mem_cons.mp hx).resolve_left fun h => hw (h ▸ hk.symm), hk⟩

end Sys2Proof.Tab

namespace Sys2Proof.Machine
open Sys2Proof

/-! ## A handler's birth (O40) -/

/-- The uniform registers of a burst of five coordinates (R189). -/
theorem handlerGroup_uni {s : State} {o : EngineOp} {b : Burst} {slot : Nat} {tag : Word} {entry : DWord} {blk : Block} {d : Desc}
    (hlen : b.coords.length = 5) :
    let h := handlerGroup s o b slot tag entry blk d
    (∀ r, r < 5 → h.uget r = BitVec.ofNat 32 (b.coords.getD r 0)) ∧ h.uget 5 = BitVec.ofNat 32 b.valid ∧
      h.uget 6 = BitVec.ofNat 32 b.seq ∧ h.uget 7 = tag ∧ h.uget 8 = d.args.extractLsb' 0 32 ∧ h.uget 9 = d.args.extractLsb' 32 32 ∧
      (∀ x, s.group? o.group = some x → h.uget 10 = x.groupId) ∧ ∀ r, 11 ≤ r → h.uget r = 0 := by
  obtain ⟨c0, c1, c2, c3, c4, hc⟩ : ∃ c0 c1 c2 c3 c4, b.coords = [c0, c1, c2, c3, c4] := by
    match hc : b.coords, hlen with
    | [c0, c1, c2, c3, c4], _ => exact ⟨c0, c1, c2, c3, c4, rfl⟩
  have hget (r : Nat) : (handlerGroup s o b slot tag entry blk d).uget r =
      if r = 10 then ((s.group? o.group).map (fun g => g.groupId)).getD 0 else if r = 9 then d.args.extractLsb' 32 32
      else if r = 8 then d.args.extractLsb' 0 32 else if r = 7 then tag else if r = 6 then BitVec.ofNat 32 b.seq
      else if r = 5 then BitVec.ofNat 32 b.valid else if r = 4 then BitVec.ofNat 32 c4 else if r = 3 then BitVec.ofNat 32 c3
      else if r = 2 then BitVec.ofNat 32 c2 else if r = 1 then BitVec.ofNat 32 c1 else if r = 0 then BitVec.ofNat 32 c0 else 0 := by
    simp [Group.uget, handlerGroup, hc, Tab.putAll, Tab.get_put, Tab.get]
  refine ⟨fun r hr => ?_, hget 5, hget 6, hget 7, hget 8, hget 9, fun x hx => ?_, fun r hr => ?_⟩
  · rw [hget, hc]
    match r, hr with
    | 0, _ | 1, _ | 2, _ | 3, _ | 4, _ => rfl
  · rw [hget, hx]; rfl
  · rw [hget]
    repeat rw [if_neg (by omega)]

/-- The vector registers of a burst: element by element in v0 to v3, zero elsewhere (R189). -/
theorem handlerGroup_vec {s : State} {o : EngineOp} {b : Burst} {slot : Nat} {tag : Word} {entry : DWord} {blk : Block} {d : Desc}
    {r L : Nat} (hL : L < 16) : (handlerGroup s o b slot tag entry blk d).vget r L =
      if r < 4 then BitVec.ofNat 32 (b.kept.getD (burstBits o b) / 2 ^ (32 * (4 * L + r))) else 0 := by
  have hpresent : (0xFFFF#16).getLsbD L = true := by interval_cases L <;> rfl
  refine (if_pos hpresent).trans (Tab.get_putAll (fun w hw hk => ?_) ?_)
  · simp only [List.mem_flatMap, List.mem_range, List.mem_map, allLanes] at hw
    obtain ⟨k, hk4, M, hM, rfl⟩ := hw
    obtain rfl : k = r := by dsimp only at hk; omega
    obtain rfl : M = L := by dsimp only at hk; omega
    rw [if_pos hk4]
  · split
    · rename_i hr
      exact .inr ⟨_, List.mem_flatMap.mpr ⟨r, List.mem_range.mpr hr, List.mem_map.mpr ⟨L, List.mem_range.mpr hL, rfl⟩⟩, rfl⟩
    · exact .inl rfl

/-- Settles O40: the group that HANDLER_BIRTH adds, register file by register file. -/
theorem handlerBorn : Obligations.HandlerBorn := by
  unfold Obligations.HandlerBorn
  intro op slot line tag entry s o b blk l ho hid hlive hkind hfault hplan hburst hblk hstop hl hctx hslot
  have hnostop : ((s.ctx? o.ctx).any (fun c => c.stopping && !c.saveComplete)) = false := by
    cases hc : s.ctx? o.ctx with
    | none => rfl
    | some c => cases hs : c.stopping <;> simp [hs, hctx c hc]
  refine ⟨_, handlerGroup s o b slot tag entry blk l.desc, ?_, rfl, rfl, by subst hid; rfl, rfl, rfl, rfl, rfl, handlerGroup_uni,
    fun r L hr hL => (handlerGroup_vec hL).trans (if_neg (by omega)), fun q hq => if_neg (by omega),
    fun r L hr hL => (handlerGroup_vec hL).trans (if_pos hr), rfl,
    engine?_modEngine_same (s := { s with groups := s.groups ++ [handlerGroup s o b slot tag entry blk l.desc] })
      (f := fun o => { o with bursts := o.bursts.map (fun c =>
        if c.seq = b.seq then { c with born := true, kept := some (b.kept.getD (burstBits o b)) } else c) }) (fun _ => rfl) ho⟩
  rw [exec_handlerBirth]
  unfold execHandlerBirth
  rw [ho]
  dsimp only
  rw [hkind, hburst, hblk]
  dsimp only
  rw [hl]
  dsimp only
  rw [hlive, hfault, hplan, hnostop, hstop, hslot]
  simp

end Sys2Proof.Machine
end

section
namespace Sys2Proof.Machine
open Sys2Proof Sys2Proof.Num

/-! ## Integer elements (O8) -/

theorem word_toNat (a : Word) : (0#32 ++ a : DWord).toNat = a.toNat := zeroExtended_toNat 32 a

theorem elem_word (a : Word) : elem 32 (0#32 ++ a) 0 = a.toNat := by
  rw [elem, word_toNat]
  simp [Nat.mod_eq_of_lt a.isLt]

/-- A byte of a word, as an element of a packed type (R104). -/
theorem elem_byte (a : Word) (i : Nat) : elem 8 (0#32 ++ a) i = (a.extractLsb' (8 * i) 8).toNat := by
  rw [elem, word_toNat, BitVec.extractLsb'_toNat, Nat.shiftRight_eq_div_pow]

theorem intOf_signed {w : Nat} (a : BitVec (w + 1)) : intOf true (w + 1) a.toNat = a.toInt := by
  have hpow : 2 ^ (w + 1) = 2 * 2 ^ w := by rw [Nat.pow_succ]; omega
  rw [intOf, BitVec.toInt_eq_toNat_cond, Nat.add_sub_cancel, Bool.true_and]
  by_cases h : 2 ^ w ≤ a.toNat
  · rw [if_pos (decide_eq_true h), if_neg (by omega)]; push_cast; rfl
  · rw [if_neg (by simpa using h), if_pos (by omega)]

theorem intOf_plain (w n : Nat) : intOf false w n = n := rfl

/-- The exact value of a word under the two one-element integer types (R104). -/
theorem elemInt_u32 (a : Word) : elemInt .u32 (0#32 ++ a) 0 = a.toNat := by
  rw [elemInt, show tyShape .u32 = (32, 1) from rfl, elem_word]; rfl

theorem elemInt_s32 (a : Word) : elemInt .s32 (0#32 ++ a) 0 = a.toInt := by
  rw [elemInt, show tyShape .s32 = (32, 1) from rfl, elem_word]; exact intOf_signed a

/-- The exact value of a byte under the two packed types (R104). -/
theorem elemInt_u8x4 (a : Word) (i : Nat) : elemInt .u8x4 (0#32 ++ a) i = (a.extractLsb' (8 * i) 8).toNat := by
  rw [elemInt, show tyShape .u8x4 = (8, 4) from rfl, elem_byte]; rfl

theorem elemInt_s8x4 (a : Word) (i : Nat) : elemInt .s8x4 (0#32 ++ a) i = (a.extractLsb' (8 * i) 8).toInt := by
  rw [elemInt, show tyShape .s8x4 = (8, 4) from rfl, elem_byte]; exact intOf_signed _

/-- A wrapped result in a register (R104, R320). -/
theorem word_wrap (x : Int) : BitVec.ofNat 64 (wrap 32 x) = 0#32 ++ BitVec.ofInt 32 x := by
  apply BitVec.eq_of_toNat_eq
  have h0 : 0 ≤ x % 2 ^ 32 := Int.emod_nonneg _ (by decide)
  have h1 : x % 2 ^ 32 < 2 ^ 32 := Int.emod_lt_of_pos _ (by decide)
  rw [BitVec.toNat_append, BitVec.toNat_ofInt, BitVec.toNat_ofNat, wrap]
  simp
  omega

theorem wrap_lt (x : Int) : wrap 32 x < 2 ^ 32 := by
  have h1 : x % 2 ^ 32 < 2 ^ 32 := Int.emod_lt_of_pos _ (by decide)
  have h0 : 0 ≤ x % 2 ^ 32 := Int.emod_nonneg _ (by decide)
  unfold wrap; omega

/-- An operation over one 32-bit element (R320). -/
theorem intElems_word {ty : Ty} (hty : tyShape ty = (32, 1)) (sat : Bool) (fl : FlagBits) (op : Nat → Int) :
    intElems ty sat fl op = (BitVec.ofNat 64 (satInt sat ty.signed 32 fl (op 0)).1, (satInt sat ty.signed 32 fl (op 0)).2) := by
  have hlt : (satInt sat ty.signed 32 fl (op 0)).1 % 2 ^ 32 = (satInt sat ty.signed 32 fl (op 0)).1 := by
    refine Nat.mod_eq_of_lt ?_
    unfold satInt; split <;> exact wrap_lt _
  rw [intElems, hty]
  simp only [mapElems, packElems, List.range_one, List.map_cons, List.map_nil, List.foldr_cons, List.foldr_nil, List.foldl_cons,
    List.foldl_nil, hlt]
  simp

/-- Wrapped: the low word of the exact result (R320, R324). -/
theorem intElems_wraps {ty : Ty} (hty : tyShape ty = (32, 1)) (fl : FlagBits) (op : Nat → Int) :
    intElems ty false fl op = (0#32 ++ BitVec.ofInt 32 (op 0), 0) := by
  rw [intElems_word hty, ← word_wrap]; rfl

theorem ofInt_toNat (a : Word) : BitVec.ofInt 32 (a.toNat : Int) = a := by simp

/-- One 32-bit element: sum, difference and product modulo 2^32, and the high word (R320, R324). -/
theorem int2_add_u32 (a b : Word) : int2 (· + ·) .u32 false (0#32 ++ a) (0#32 ++ b) = (0#32 ++ (a + b), 0) := by
  rw [int2, intElems_wraps rfl, elemInt_u32, elemInt_u32, BitVec.ofInt_add, ofInt_toNat, ofInt_toNat]

theorem int2_add_s32 (a b : Word) : int2 (· + ·) .s32 false (0#32 ++ a) (0#32 ++ b) = (0#32 ++ (a + b), 0) := by
  rw [int2, intElems_wraps rfl, elemInt_s32, elemInt_s32, BitVec.ofInt_add, BitVec.ofInt_toInt, BitVec.ofInt_toInt]

theorem int2_sub_s32 (a b : Word) : int2 (· - ·) .s32 false (0#32 ++ a) (0#32 ++ b) = (0#32 ++ (a - b), 0) := by
  rw [int2, intElems_wraps rfl, elemInt_s32, elemInt_s32, Int.sub_eq_add_neg, BitVec.ofInt_add, BitVec.ofInt_neg,
    BitVec.ofInt_toInt, BitVec.ofInt_toInt, BitVec.sub_eq_add_neg]

theorem imulOp_u32 (a b : Word) : imulOp .u32 false (0#32 ++ a) (0#32 ++ b) = (0#32 ++ (a * b), 0) := by
  rw [imulOp, intElems_wraps rfl, elemInt_u32, elemInt_u32, BitVec.ofInt_mul, ofInt_toNat, ofInt_toNat]

theorem imadOp_s32 (a b c : Word) : imadOp .s32 false (0#32 ++ a) (0#32 ++ b) (0#32 ++ c) = (0#32 ++ (a * b + c), 0) := by
  rw [imadOp, intElems_wraps rfl, elemInt_s32, elemInt_s32, elemInt_s32, BitVec.ofInt_add, BitVec.ofInt_mul, BitVec.ofInt_toInt,
    BitVec.ofInt_toInt, BitVec.ofInt_toInt]

theorem imulhOp_u32 (a b : Word) :
    imulhOp .u32 (0#32 ++ a) (0#32 ++ b) = (0#32 ++ ((a.setWidth 64 * b.setWidth 64).extractLsb' 32 32), 0) := by
  rw [imulhOp, intElems_wraps rfl, elemInt_u32, elemInt_u32]
  have hword : BitVec.ofInt 32 ((a.toNat : Int) * b.toNat / 2 ^ (tyShape .u32).1) = (a.setWidth 64 * b.setWidth 64).extractLsb' 32 32 := by
    rw [show (a.toNat : Int) * b.toNat / 2 ^ (tyShape .u32).1 = ((a.toNat * b.toNat / 2 ^ 32 : Nat) : Int) by push_cast; rfl,
      BitVec.ofInt_natCast]
    apply BitVec.eq_of_toNat_eq
    have hlt : a.toNat * b.toNat < 2 ^ 32 * 2 ^ 32 := Nat.mul_lt_mul'' a.isLt b.isLt
    rw [BitVec.extractLsb'_toNat, BitVec.toNat_mul, BitVec.toNat_ofNat, BitVec.toNat_setWidth, BitVec.toNat_setWidth,
      Nat.shiftRight_eq_div_pow]
    have ha := a.isLt
    have hb := b.isLt
    rw [Nat.mod_eq_of_lt (by omega : a.toNat < 2 ^ 64), Nat.mod_eq_of_lt (by omega : b.toNat < 2 ^ 64), Nat.mod_eq_of_lt (a := a.toNat * b.toNat) (by omega)]
  rw [hword]

/-- A result within the bounds is wrapped, one outside them clamped with the flag (R109). -/
theorem satInt_within {sgn : Bool} {w : Nat} {fl : FlagBits} {x : Int} (hmin : ¬ x < intMin sgn w) (hmax : ¬ intMax sgn w < x) :
    satInt true sgn w fl x = (wrap w x, 0) := by
  simp only [satInt, hmin, hmax]; rfl

theorem satInt_above {sgn : Bool} {w : Nat} {fl : FlagBits} {x : Int} (hmin : ¬ x < intMin sgn w) (hmax : intMax sgn w < x) :
    satInt true sgn w fl x = (wrap w (intMax sgn w), fl) := by
  simp only [satInt, hmin, hmax]; rfl

theorem satInt_below {sgn : Bool} {w : Nat} {fl : FlagBits} {x : Int} (hmin : x < intMin sgn w) :
    satInt true sgn w fl x = (wrap w (intMin sgn w), fl) := by
  simp only [satInt, hmin]; rfl

/-- A clamped sum sets SAT (R109, R320). -/
theorem int2_add_u32_sat (a b : Word) : int2 (· + ·) .u32 true (0#32 ++ a) (0#32 ++ b) =
    if a.toNat + b.toNat < 2 ^ 32 then (0#32 ++ (a + b), 0) else (0#32 ++ 0xFFFF_FFFF#32, flSat) := by
  rw [int2, intElems_word rfl, elemInt_u32, elemInt_u32]
  have hmin : ¬ ((a.toNat : Int) + b.toNat < intMin false 32) := by simp [intMin]; omega
  have hmax : intMax false 32 < (a.toNat : Int) + b.toNat ↔ ¬ a.toNat + b.toNat < 2 ^ 32 := by simp [intMax]; omega
  by_cases h : a.toNat + b.toNat < 2 ^ 32
  · rw [if_pos h, show Ty.signed .u32 = false from rfl, satInt_within hmin (by rw [hmax]; exact not_not_intro h), word_wrap,
      BitVec.ofInt_add, ofInt_toNat, ofInt_toNat]
  · rw [if_neg h, show Ty.signed .u32 = false from rfl, satInt_above hmin (hmax.mpr h), word_wrap]
    rfl

/-! ## Dot products (O8) -/

/-- The four products and C, exactly, under either type of IDOT4 (R323). -/
theorem idot4Op_u8x4 (sat : Bool) (a b c : Word) : idot4Op .u8x4 sat (0#32 ++ a) (0#32 ++ b) (0#32 ++ c) =
    (BitVec.ofNat 64 (satInt sat false 32 flIov (((List.range 4).foldl (fun t i =>
        t + (a.extractLsb' (8 * i) 8).toNat * (b.extractLsb' (8 * i) 8).toNat) c.toNat : Nat) : Int)).1,
      (satInt sat false 32 flIov (((List.range 4).foldl (fun t i =>
        t + (a.extractLsb' (8 * i) 8).toNat * (b.extractLsb' (8 * i) 8).toNat) c.toNat : Nat) : Int)).2) := by
  simp only [idot4Op, elemInt_u8x4, elem_word, show Ty.signed .u8x4 = false from rfl, intOf_plain]
  simp [List.range_succ]

theorem idot4Op_s8x4 (sat : Bool) (a b c : Word) : idot4Op .s8x4 sat (0#32 ++ a) (0#32 ++ b) (0#32 ++ c) =
    (BitVec.ofNat 64 (satInt sat true 32 flIov ((List.range 4).foldl (fun t i =>
        t + (a.extractLsb' (8 * i) 8).toInt * (b.extractLsb' (8 * i) 8).toInt) c.toInt)).1,
      (satInt sat true 32 flIov ((List.range 4).foldl (fun t i =>
        t + (a.extractLsb' (8 * i) 8).toInt * (b.extractLsb' (8 * i) 8).toInt) c.toInt)).2) := by
  simp only [idot4Op, elemInt_s8x4, elem_word, show Ty.signed .s8x4 = true from rfl, intOf_signed]

/-- A plain result, clamped once (R323). -/
theorem satInt_plain (n : Nat) : (BitVec.ofNat 64 (satInt true false 32 flIov (n : Int)).1, (satInt true false 32 flIov (n : Int)).2) =
    if n < 2 ^ 32 then ((0#32 ++ BitVec.ofNat 32 n : DWord), 0) else (0#32 ++ 0xFFFF_FFFF#32, flIov) := by
  have hmin : ¬ ((n : Int) < intMin false 32) := by simp [intMin]
  have hmax : intMax false 32 < (n : Int) ↔ ¬ n < 2 ^ 32 := by simp [intMax]; omega
  by_cases h : n < 2 ^ 32
  · rw [if_pos h, satInt_within hmin (by rw [hmax]; exact not_not_intro h), word_wrap, BitVec.ofInt_natCast]
  · rw [if_neg h, satInt_above hmin (hmax.mpr h), word_wrap]
    rfl

/-- A signed result, clamped once (R323). -/
theorem satInt_signed (x : Int) : (BitVec.ofNat 64 (satInt true true 32 flIov x).1, (satInt true true 32 flIov x).2) =
    if x < -(2 ^ 31) then ((0#32 ++ 0x8000_0000#32 : DWord), flIov)
    else if 2 ^ 31 ≤ x then (0#32 ++ 0x7FFF_FFFF#32, flIov) else (0#32 ++ BitVec.ofInt 32 x, 0) := by
  have hmin : x < intMin true 32 ↔ x < -(2 ^ 31) := by simp [intMin]
  have hmax : intMax true 32 < x ↔ 2 ^ 31 ≤ x := by simp [intMax]; omega
  by_cases h : x < -(2 ^ 31)
  · rw [if_pos h, satInt_below (hmin.mpr h), word_wrap]
    rfl
  · rw [if_neg h]
    by_cases h' : 2 ^ 31 ≤ x
    · rw [if_pos h', satInt_above (mt hmin.mp h) (hmax.mpr h'), word_wrap]
      rfl
    · rw [if_neg h', satInt_within (mt hmin.mp h) (mt hmax.mp h'), word_wrap]

/-- An element of packed elements (R104). -/
theorem packElems_elem (w : Nat) : ∀ (es : List Nat) (i : Nat), packElems w es / 2 ^ (w * i) % 2 ^ w = es.getD i 0 % 2 ^ w
  | [], i => by simp [packElems]
  | e :: es, i => by
    have hpos : 0 < 2 ^ w := Nat.two_pow_pos w
    have hcons : packElems w (e :: es) = e % 2 ^ w + 2 ^ w * packElems w es := rfl
    match i with
    | 0 => rw [hcons]; simp
    | i + 1 =>
      rw [hcons, show w * (i + 1) = w + w * i by ring, Nat.pow_add, ← Nat.div_div_eq_div_mul, Nat.add_mul_div_left _ _ hpos,
        Nat.div_eq_of_lt (Nat.mod_lt e hpos), Nat.zero_add, packElems_elem w es i]
      rfl

theorem packElems_lt (w : Nat) : ∀ es : List Nat, packElems w es < 2 ^ (w * es.length)
  | [] => by simp [packElems]
  | e :: es => by
    have ih := packElems_lt w es
    have hcons : packElems w (e :: es) = e % 2 ^ w + 2 ^ w * packElems w es := rfl
    have he : e % 2 ^ w < 2 ^ w := Nat.mod_lt e (Nat.two_pow_pos w)
    rw [hcons, List.length_cons, show w * (es.length + 1) = w + w * es.length by ring, Nat.pow_add]
    calc e % 2 ^ w + 2 ^ w * packElems w es < 2 ^ w + 2 ^ w * packElems w es := by omega
      _ = 2 ^ w * (packElems w es + 1) := by ring
      _ ≤ 2 ^ w * 2 ^ (w * es.length) := Nat.mul_le_mul_left _ ih

/-- An element of the result of an operation on each element. -/
theorem elem_mapElems {w n : Nat} {op : Nat → Nat × FlagBits} (hw : w * n ≤ 64) {i : Nat} (hi : i < n) :
    elem w (mapElems w n op).1 i = (op i).1 % 2 ^ w := by
  have hlt := packElems_lt w (((List.range n).map op).map (·.1))
  rw [List.length_map, List.length_map, List.length_range] at hlt
  rw [elem, mapElems, BitVec.toNat_ofNat, Nat.mod_eq_of_lt (hlt.trans_le (Nat.pow_le_pow_right (by decide) hw)), packElems_elem]
  simp [List.getD, hi]

/-- Each of four packed sums wraps by itself (R104, R320). -/
theorem int2_add_u8x4 (a b : Word) {i : Nat} (hi : i < 4) :
    (int2 (· + ·) .u8x4 false (0#32 ++ a) (0#32 ++ b)).1.extractLsb' (8 * i) 8 = a.extractLsb' (8 * i) 8 + b.extractLsb' (8 * i) 8 := by
  have hwrap (m n : Nat) : wrap 8 ((m : Int) + n) % 2 ^ 8 = (m + n) % 2 ^ 8 := by simp [wrap]; omega
  apply BitVec.eq_of_toNat_eq
  rw [BitVec.extractLsb'_toNat, Nat.shiftRight_eq_div_pow, BitVec.toNat_add]
  have hsum : elem 8 (int2 (· + ·) .u8x4 false (0#32 ++ a) (0#32 ++ b)).1 i =
      wrap 8 (elemInt .u8x4 (0#32 ++ a) i + elemInt .u8x4 (0#32 ++ b) i) % 2 ^ 8 := elem_mapElems (w := 8) (n := 4) (by decide) hi
  rw [elemInt_u8x4, elemInt_u8x4, hwrap] at hsum
  exact hsum

/-- An instruction of two or three operands completes (R54, R119). -/
theorem alu2_completes {mk : Ext → Instr} {f : Ext → DWord → DWord → DWord × FlagBits}
    (hd : ∀ x s, exec (mk x) s = alu2 (mk x) x (f x) s) :
    AluCompletes mk (fun x => x.ty.wide) (fun x _ g L => f x (opA g x x.ty.wide L) (opB g x x.ty.wide L)) :=
  aluCompletes_of (f := fun x _ g L => f x (opA g x x.ty.wide L) (opB g x x.ty.wide L)) hd (fun _ _ _ _ => rfl)

theorem alu3_completes {mk : Ext → Instr} {f : Ext → DWord → DWord → DWord → DWord × FlagBits}
    (hd : ∀ x s, exec (mk x) s = alu3 (mk x) x (f x) s) :
    AluCompletes mk (fun x => x.ty.wide) (fun x _ g L => f x (opA g x x.ty.wide L) (opB g x x.ty.wide L) (opC g x x.ty.wide L)) :=
  aluCompletes_of (f := fun x _ g L => f x (opA g x x.ty.wide L) (opB g x x.ty.wide L) (opC g x x.ty.wide L)) hd (fun _ _ _ _ => rfl)

/-- Settles O8: completion from the shared skeleton, the values from the lemmas about elements. -/
theorem integerResults : Obligations.IntegerResults := by
  unfold Obligations.IntegerResults
  refine ⟨⟨alu2_completes exec_iadd, alu2_completes exec_isub, alu2_completes exec_imax, alu2_completes exec_imin,
    alu3_completes exec_idot4, alu3_completes exec_imad, alu2_completes exec_imul, alu2_completes exec_imulh⟩,
    fun a b => ⟨int2_add_u32 a b, int2_add_s32 a b, int2_sub_s32 a b, imulOp_u32 a b, imulhOp_u32 a b, int2_add_u32_sat a b⟩,
    fun a b c => ⟨?_, ?_, ?_, ?_, imadOp_s32 a b c, fun i hi => int2_add_u8x4 a b hi⟩⟩
  · exact (idot4Op_u8x4 false a b c).trans (Prod.ext ((word_wrap _).trans (congrArg _ (BitVec.ofInt_natCast ..))) rfl)
  · exact (idot4Op_s8x4 false a b c).trans (Prod.ext (word_wrap _) rfl)
  · exact (idot4Op_u8x4 true a b c).trans (satInt_plain _)
  · exact (idot4Op_s8x4 true a b c).trans (satInt_signed _)

end Sys2Proof.Machine
end

section
namespace Sys2Proof.Machine
open Sys2Proof Sys2Proof.Num

/-! ## Reductions (O16) -/

/-- Results written and flags raised are one effect of the group's registers (R34, R54, R112). -/
theorem writeD_raise_effect {s : State} {g : Group} {p : Split} {i : Instr} {x : Ext} {wide uni : Bool} {val : Nat → DWord} {fl : FlagBits}
    (h : s.issuer? = some (g, p)) :
    RegisterEffect s (advance (issueOf s g p i x.guard) (s.modGroup s.curG (fun g' =>
        (writeD x wide (guardLanes g p x.guard) val g').raise uni s.now fl))) g p i
      (fun h => FlagsRaised g h uni s.now fl ∧ DWritten g h x (guardLanes g p x.guard) wide val) := by
  obtain ⟨hframe, hwritten⟩ := writeD_spec x wide (guardLanes g p x.guard) val g
  have hregs : writeD x wide (guardLanes g p x.guard) val g = { g with
      vec := (writeD x wide (guardLanes g p x.guard) val g).vec, uni := (writeD x wide (guardLanes g p x.guard) val g).uni,
      pred := (writeD x wide (guardLanes g p x.guard) val g).pred } := by rw [hwritten.1]; exact hframe
  obtain ⟨honly, hsplits, hraised, hv, hu, hp, hq⟩ := written_raised hregs (raise_spec _ uni s.now fl)
  exact registerEffect_of h honly hsplits (fun _ hx => hx) ⟨hraised, dWritten_congr hv hu hp hq hwritten⟩

/-- One stage of the scan, lane by lane (R116). -/
theorem scanStage_getD (op : Nat → Nat → Nat × FlagBits) (d : Nat) (zf : List Nat × FlagBits) {L : Nat} (hL : L < 16) :
    (scanStage op d zf).1.getD L 0 = if d ≤ L then (op (zf.1.getD (L - d) 0) (zf.1.getD L 0)).1 else zf.1.getD L 0 := by
  simp only [scanStage, allLanes, List.getD_eq_getElem?_getD, List.getElem?_map, List.getElem?_range hL, Option.map_some, Option.getD_some]
  split <;> rfl

/-- The stages at distances 1, 2, 4 and 8, lane by lane (R116). -/
theorem scan16_getD (op : Nat → Nat → Nat) (x : Nat → Nat) (z : Nat → Nat → Nat) (hz0 : ∀ i, z 0 i = x i)
    (hz : ∀ n i, z (n + 1) i = if 2 ^ n ≤ i then op (z n (i - 2 ^ n)) (z n i) else z n i) {L : Nat} (hL : L < 16) :
    (scan16 (fun a b => (op a b, 0)) (allLanes.map x)).1.getD L 0 = z 4 L := by
  have stage (n : Nat) (zf : List Nat × FlagBits) (h : ∀ L, L < 16 → zf.1.getD L 0 = z n L) :
      ∀ L, L < 16 → (scanStage (fun a b => (op a b, 0)) (2 ^ n) zf).1.getD L 0 = z (n + 1) L := by
    intro L hL
    rw [scanStage_getD _ _ _ hL, hz, h L hL, h (L - 2 ^ n) (Nat.lt_of_le_of_lt (Nat.sub_le ..) hL)]
  have leaf : ∀ L, L < 16 → (allLanes.map x).getD L 0 = z 0 L := fun L hL => by
    simp only [allLanes, List.getD_eq_getElem?_getD, List.getElem?_map, List.getElem?_range hL, Option.map_some, Option.getD_some, hz0]
  exact stage 3 _ (stage 2 _ (stage 1 _ (stage 0 (allLanes.map x, 0) leaf))) L hL

theorem wrap_toNat (x : Int) : wrap 32 x = (BitVec.ofInt 32 x).toNat := by rw [BitVec.toNat_ofInt]; rfl

theorem wrap_word (a : Word) : wrap 32 a.toNat = a.toNat := by rw [wrap_toNat, ofInt_toNat]

theorem wrap_word_toInt (a : Word) : wrap 32 a.toInt = a.toNat := by rw [wrap_toNat, BitVec.ofInt_toInt]

/-- The operations over one 32-bit integer (R315). -/
theorem redOp_integers (a b : Word) (rm : Rm) :
    redOp .u32 0 rm false a.toNat b.toNat = ((a + b).toNat, 0) ∧ redOp .s32 0 rm false a.toNat b.toNat = ((a + b).toNat, 0) ∧
    redOp .u32 0 rm true a.toNat b.toNat =
      (if a.toNat + b.toNat < 2 ^ 32 then (a.toNat + b.toNat, 0) else (2 ^ 32 - 1, flIov)) ∧
    redOp .u32 1 rm false a.toNat b.toNat = (min a.toNat b.toNat, 0) ∧ redOp .u32 2 rm false a.toNat b.toNat = (max a.toNat b.toNat, 0) ∧
    redOp .s32 1 rm false a.toNat b.toNat = (if a.toInt ≤ b.toInt then a.toNat else b.toNat, 0) ∧
    redOp .s32 2 rm false a.toNat b.toNat = (if a.toInt ≤ b.toInt then b.toNat else a.toNat, 0) := by
  have hu (n : Nat) : intOf false 32 n = n := rfl
  have hs (a : Word) : intOf true 32 a.toNat = a.toInt := intOf_signed a
  refine ⟨?_, ?_, ?_, ?_, ?_, ?_, ?_⟩
  · refine Prod.ext ?_ rfl
    change wrap 32 ((a.toNat : Int) + b.toNat) = _
    rw [wrap_toNat, BitVec.ofInt_add, ofInt_toNat, ofInt_toNat]
  · refine Prod.ext ?_ rfl
    change wrap 32 (intOf true 32 a.toNat + intOf true 32 b.toNat) = _
    rw [hs, hs, wrap_toNat, BitVec.ofInt_add, BitVec.ofInt_toInt, BitVec.ofInt_toInt]
  · change satInt true false 32 flIov ((a.toNat : Int) + b.toNat) = _
    have hmin : ¬ ((a.toNat : Int) + b.toNat < intMin false 32) := by simp [intMin]; omega
    have hmax : intMax false 32 < (a.toNat : Int) + b.toNat ↔ ¬ a.toNat + b.toNat < 2 ^ 32 := by simp [intMax]; omega
    by_cases h : a.toNat + b.toNat < 2 ^ 32
    · rw [if_pos h, satInt_within hmin (by rw [hmax]; exact not_not_intro h)]
      simp only [wrap, Prod.mk.injEq, and_true]
      omega
    · rw [if_neg h, satInt_above hmin (hmax.mpr h)]
      rfl
  · refine Prod.ext ?_ rfl
    change wrap 32 (min (a.toNat : Int) b.toNat) = min a.toNat b.toNat
    rcases Nat.le_total a.toNat b.toNat with h | h
    · rw [min_eq_left h, min_eq_left (by exact_mod_cast h), wrap_word]
    · rw [min_eq_right h, min_eq_right (by exact_mod_cast h), wrap_word]
  · refine Prod.ext ?_ rfl
    change wrap 32 (max (a.toNat : Int) b.toNat) = max a.toNat b.toNat
    rcases Nat.le_total a.toNat b.toNat with h | h
    · rw [max_eq_right h, max_eq_right (by exact_mod_cast h), wrap_word]
    · rw [max_eq_left h, max_eq_left (by exact_mod_cast h), wrap_word]
  · refine Prod.ext ?_ rfl
    change wrap 32 (min (intOf true 32 a.toNat) (intOf true 32 b.toNat)) = if a.toInt ≤ b.toInt then a.toNat else b.toNat
    rw [hs, hs, min_def, apply_ite (wrap 32), wrap_word_toInt, wrap_word_toInt]
  · refine Prod.ext ?_ rfl
    change wrap 32 (max (intOf true 32 a.toNat) (intOf true 32 b.toNat)) = if a.toInt ≤ b.toInt then b.toNat else a.toNat
    rw [hs, hs, max_def, apply_ite (wrap 32), wrap_word_toInt, wrap_word_toInt]

/-- A float result over one 32-bit element, as a word. -/
theorem fElems_word (op : Nat → Nat × FlagBits) :
    (fElems .f32 op).1.extractLsb' 0 32 = BitVec.ofNat 32 (op 0).1 ∧ (fElems .f32 op).2 = (op 0).2 := by
  refine ⟨BitVec.eq_of_toNat_eq ?_, ?_⟩
  · have helem : elem 32 (fElems .f32 op).1 0 = (op 0).1 % 2 ^ 32 := elem_mapElems (w := 32) (n := 1) (by decide) (by decide)
    rw [BitVec.extractLsb'_toNat, BitVec.toNat_ofNat, ← helem, Nat.shiftRight_eq_div_pow]
    rfl
  · show (0 : FlagBits) ||| (op 0).2 = (op 0).2
    simp

/-- A word as a float operand. -/
theorem elemVal_f32 (a : Word) : elemVal .f32 (0#32 ++ a) 0 = dec f32 a.toNat := by
  rw [elemVal, show (tyShape .f32).1 = 32 from rfl, elem_word]; rfl

/-- Float nodes are the float instructions' own results without modifiers (R116, R315). -/
theorem redOp_floats (a b : Word) (x : Ext) (hty : x.ty = .f32) (hsat : x.sat = false) (hvar : x.var = 0) :
    let is (op : Nat) (v : DWord × FlagBits) : Prop :=
      BitVec.ofNat 32 (redOp .f32 op x.rm false a.toNat b.toNat).1 = v.1.extractLsb' 0 32 ∧
        (redOp .f32 op x.rm false a.toNat b.toNat).2 = v.2
    is 0 (farith2 addFlags x (0#32 ++ a) (0#32 ++ b)) ∧ is 1 (fminmaxOp false x (0#32 ++ a) (0#32 ++ b)) ∧
      is 2 (fminmaxOp true x (0#32 ++ a) (0#32 ++ b)) := by
  have hadd := fElems_word (fun e => fop2 f32 x.rm false (addFlags x.rm) (elemVal .f32 (0#32 ++ a) e) (elemVal .f32 (0#32 ++ b) e))
  have hminmax (m : Bool) := fElems_word (fun e =>
    let r := fminmax m (elemVal .f32 (0#32 ++ a) e) (elemVal .f32 (0#32 ++ b) e)
    ((Num.round f32 .rne r.1).1, r.2))
  have hmodA (v : Val) : modA 0 v = v := rfl
  have hmodB (v : Val) : modB 0 v = v := rfl
  simp only [elemVal_f32] at hadd hminmax
  simp only [farith2, fminmaxOp, hty, hsat, hvar, hmodA, hmodB]
  exact ⟨⟨hadd.1.symm, hadd.2.symm⟩, ⟨(hminmax false).1.symm, (hminmax false).2.symm⟩, (hminmax true).1.symm, (hminmax true).2.symm⟩

theorem redIdentity_values :
    let of (ty : Ty) : List Nat := (List.range 6).map (redIdentity ty)
    of .u32 = [0, 2 ^ 32 - 1, 0, 2 ^ 32 - 1, 0, 0] ∧ of .s32 = [0, 2 ^ 31 - 1, 2 ^ 31, 2 ^ 32 - 1, 0, 0] ∧
    of .u64 = [0, 2 ^ 64 - 1, 0, 2 ^ 64 - 1, 0, 0] ∧ of .s64 = [0, 2 ^ 63 - 1, 2 ^ 63, 2 ^ 64 - 1, 0, 0] ∧
    (of .f32).take 3 = [0x8000_0000, 0x7F80_0000, 0xFF80_0000] ∧
    (of .f64).take 3 = [0x8000_0000_0000_0000, 0x7FF0_0000_0000_0000, 0xFFF0_0000_0000_0000] := by decide +kernel

/-- GREDUCE writes the root of the tree (R316). -/
theorem greduce_completes {x : Ext} {s : State} {g : Group} {p : Split} (h : Executes s g p (.greduce x)) {r : Nat × FlagBits}
    (hr : tree16 (redOp x.ty (Fields.scale x) x.rm x.sat) (redLeaves x (issueOf s g p (.greduce x) x.guard)) = r) :
    ∃ t, exec (.greduce x) s = .next t ∧ RegisterEffect s t g p (.greduce x) (fun h =>
      FlagsRaised g h x.dU s.now (if guardLanes g p x.guard &&& ~~~g.helpers = 0 then 0 else r.2) ∧
      DWritten g h x (guardLanes g p x.guard) x.ty.wide (fun _ => BitVec.ofNat 64 r.1)) := by
  have hrun := (exec_greduce x s).trans (runInstr_executes _ _ h)
  dsimp only at hrun
  rw [hr] at hrun
  exact ⟨_, hrun, writeD_raise_effect h.1⟩

/-- GSCAN writes each lane's prefix (R316). -/
theorem gscan_completes {x : Ext} {s : State} {g : Group} {p : Split} (h : Executes s g p (.gscan x)) {r : List Nat × FlagBits}
    (hr : scan16 (redOp x.ty (Fields.scale x) x.rm x.sat) (redLeaves x (issueOf s g p (.gscan x) x.guard)) = r) :
    ∃ t, exec (.gscan x) s = .next t ∧ RegisterEffect s t g p (.gscan x) (fun h =>
      FlagsRaised g h false s.now (if guardLanes g p x.guard &&& ~~~g.helpers = 0 then 0 else r.2) ∧
      DWritten g h x (guardLanes g p x.guard) x.ty.wide (fun L => BitVec.ofNat 64
        (if x.var.getLsbD 3 then (if L = 0 then redIdentity x.ty (Fields.scale x) else r.1.getD (L - 1) 0) else r.1.getD L 0))) := by
  have hrun := (exec_gscan x s).trans (runInstr_executes _ _ h)
  dsimp only at hrun
  rw [hr] at hrun
  exact ⟨_, hrun, writeD_raise_effect h.1⟩

/-- Settles O16: the exchanges and reductions by the shared skeletons, the tree by unfolding its four levels, the scan stage by stage. -/
theorem laneExchangesAndReductions : Obligations.LaneExchangesAndReductions := by
  unfold Obligations.LaneExchangesAndReductions
  refine ⟨⟨?_, ?_, ?_⟩, ⟨fun x s g p h => ?_, fun x s g p h => ?_⟩, fun op x => ⟨rfl, fun z hz0 hz L hL => scan16_getD op x z hz0 hz hL⟩,
    fun a b rm => ?_, redIdentity_values, ?_⟩
  · exact aluCompletes_of (f := fun x _ g L => (g.rget x.aU x.ty.wide x.a.toNat (L / 4 * 4 + x.var.toNat % 4), 0)) exec_qbcast
      (fun _ _ _ _ => rfl)
  · exact aluCompletes_of (f := fun x _ g L => (g.rget x.aU x.ty.wide x.a.toNat (L ^^^ (x.var.toNat % 4)), 0)) exec_qswap
      (fun _ _ _ _ => rfl)
  · exact aluCompletes_of (f := fun x _ g L => (g.rget x.aU x.ty.wide x.a.toNat ((opB g x false L).toNat % 16), 0)) exec_shuf
      (fun _ _ _ _ => rfl)
  · exact greduce_completes h rfl
  · exact gscan_completes h rfl
  · obtain ⟨h1, h2, h3, h4, h5, h6, h7⟩ := redOp_integers a b rm
    exact ⟨h1, h2, h3, h4, h5, h6, h7, rfl, rfl, rfl, fun x hty hrm hsat hvar => hrm ▸ redOp_floats a b x hty hsat hvar⟩
  · decide +kernel

end Sys2Proof.Machine
end

section
namespace Sys2Proof.Machine
open Sys2Proof Sys2Proof.Num

/-! ## Conversions (O15) -/

/-- The printed examples of the conversions (R109, R301). -/
theorem cvt_examples : ∀ y ∈ ([(.s32, .f32, .rne, false, 0x4020_0000#64, 2#64, 0), (.s32, .f32, .rtz, false, 0xC02C_CCCD#64, 0xFFFF_FFFE#64, 0),
      (.u32, .f32, .rne, false, 0xBECC_CCCD#64, 0#64, 0), (.u32, .f32, .rne, false, 0xBF80_0000#64, 0#64, flInv),
      (.s32, .f32, .rne, false, 0x4F32_D05E#64, 0x7FFF_FFFF#64, flInv), (.f32, .s32, .rne, false, 16777217#64, 0x4B80_0000#64, 0),
      (.f32, .s32, .rup, false, 16777217#64, 0x4B80_0001#64, 0), (.s32, .u32, .rne, false, 0xFFFF_FFFF#64, 0xFFFF_FFFF#64, 0),
      (.s32, .u32, .rne, true, 0xFFFF_FFFF#64, 0x7FFF_FFFF#64, flSat),
      (.f32, .f64, .rne, false, 0x4807_8287_F49C_4A1D#64, 0x7F80_0000#64, 0),
      (.f32, .f64, .rne, true, 0x4807_8287_F49C_4A1D#64, 0x7F7F_FFFF#64, flSat)] :
      List (Ty × Ty × Rm × Bool × DWord × DWord × FlagBits)),
    cvt y.1 y.2.1 y.2.2.1 y.2.2.2.1 y.2.2.2.2.1 = y.2.2.2.2.2 := by decide +kernel

/-- A saturating conversion of an infinity (R109). -/
theorem narrowSat_inf (rm : Rm) (n : Bool) : ∀ y ∈ [(f32, 0x7F7F_FFFF), (f16, 0x7BFF), (bf16, 0x7F7F), (e4m3, 0x7E), (e5m2, 0x7B), (e2m1, 7)],
    narrowSat y.1 rm noBound (.inf n) = ((if n then 2 ^ (y.1.width - 1) else 0) + y.2, flSat) := by
  cases rm <;> cases n <;> decide +kernel

/-- Values written to the lanes of a list, in one register. -/
theorem foldl_vset (r : Nat) (w : Nat → Word) : ∀ (ls : List Nat) (g : Group),
    ls.foldl (fun g L => g.vset r L (w L)) g = { g with vec := (ls.foldl (fun g L => g.vset r L (w L)) g).vec } ∧
      ∀ j M, (ls.foldl (fun g L => g.vset r L (w L)) g).vget j M =
        if j = r ∧ M ∈ ls ∧ g.present.getLsbD M = true then w M else g.vget j M
  | [], g => ⟨rfl, fun j M => by simp⟩
  | L :: ls, g => by
    obtain ⟨hframe, hget⟩ := foldl_vset r w ls (g.vset r L (w L))
    have hvset : g.vset r L (w L) = { g with vec := (g.vset r L (w L)).vec } := by unfold Group.vset; split <;> rfl
    refine ⟨vecOnly_trans hvset hframe, fun j M => ?_⟩
    rw [List.foldl_cons, hget, vget_vset, show (g.vset r L (w L)).present = g.present by rw [hvset]]
    by_cases hM : M = L
    · subst hM
      by_cases hw : j = r ∧ g.present.getLsbD M = true
      · rw [if_pos (show j = r ∧ M = M ∧ g.present.getLsbD M = true from ⟨hw.1, rfl, hw.2⟩), ite_self,
          if_pos (show j = r ∧ M ∈ M :: ls ∧ g.present.getLsbD M = true from ⟨hw.1, List.mem_cons_self, hw.2⟩)]
      · rw [if_neg (fun h => hw ⟨h.1, h.2.2⟩), if_neg (fun h => hw ⟨h.1, h.2.2⟩), if_neg (fun h => hw ⟨h.1, h.2.2⟩)]
    · simp [hM]

/-- One register for each element, in the lanes of a mask (R373). -/
theorem foldl_vset_rows (d : Nat) (w : Nat → Nat → Word) (ls : List Nat) (g : Group) : ∀ n,
    (List.range n).foldl (fun g e => ls.foldl (fun g L => g.vset (d + e) L (w e L)) g) g =
        { g with vec := ((List.range n).foldl (fun g e => ls.foldl (fun g L => g.vset (d + e) L (w e L)) g) g).vec } ∧
      ∀ r L, ((List.range n).foldl (fun g e => ls.foldl (fun g L => g.vset (d + e) L (w e L)) g) g).vget r L =
        if (d ≤ r ∧ r < d + n) ∧ L ∈ ls ∧ g.present.getLsbD L = true then w (r - d) L else g.vget r L
  | 0 => ⟨rfl, fun r L => (if_neg (by omega)).symm⟩
  | n + 1 => by
    obtain ⟨hframe, hget⟩ := foldl_vset_rows d w ls g n
    obtain ⟨hframe', hget'⟩ := foldl_vset (d + n) (w n) ls
      ((List.range n).foldl (fun g e => ls.foldl (fun g L => g.vset (d + e) L (w e L)) g) g)
    rw [List.range_succ, List.foldl_append, List.foldl_cons, List.foldl_nil]
    refine ⟨vecOnly_trans hframe hframe', fun r L => ?_⟩
    rw [hget', hget, show ((List.range n).foldl (fun g e => ls.foldl (fun g L => g.vset (d + e) L (w e L)) g) g).present = g.present by
      rw [hframe]]
    by_cases hr : r = d + n
    · subst hr
      rw [Nat.add_sub_cancel_left]
      by_cases hw : L ∈ ls ∧ g.present.getLsbD L = true
      · rw [if_pos ⟨rfl, hw⟩, if_pos ⟨by omega, hw⟩]
      · rw [if_neg (fun h => hw h.2), if_neg (fun h => hw h.2), if_neg (fun h => hw h.2)]
    · rw [if_neg (fun h => hr h.1)]
      exact if_congr (and_congr_left' (by omega)) rfl rfl

/-- UNPACK's registers, in D of either class (R373). -/
def unpackWrites (x : Ext) (e : LaneMask) (w : Nat → Nat → Word) (g : Group) : Group :=
  (List.range x.ty.packCount).foldl (fun g k =>
    if x.dU then (if e = 0 then g else g.uset (x.d.toNat + k) (w k 0))
    else (lanesOf e).foldl (fun g L => g.vset (x.d.toNat + k) L (w k L)) g) g

theorem unpackWrites_vector {x : Ext} {e : LaneMask} {w : Nat → Nat → Word} {g : Group} (hU : x.dU = false) :
    unpackWrites x e w g = { g with vec := (unpackWrites x e w g).vec } ∧
      ∀ r L, (unpackWrites x e w g).vget r L =
        if (x.d.toNat ≤ r ∧ r < x.d.toNat + x.ty.packCount) ∧ e.getLsbD L = true ∧ g.present.getLsbD L = true then w (r - x.d.toNat) L
        else g.vget r L := by
  simp only [unpackWrites, hU, Bool.false_eq_true, if_false, ← mem_lanesOf (m := e)]
  exact foldl_vset_rows x.d.toNat w (lanesOf e) g x.ty.packCount

theorem unpackWrites_uniform {x : Ext} {e : LaneMask} {w : Nat → Nat → Word} {g : Group} (hU : x.dU = true) :
    unpackWrites x e w g = { g with uni := (unpackWrites x e w g).uni } ∧
      ∀ r, (unpackWrites x e w g).uget r =
        if (x.d.toNat ≤ r ∧ r < x.d.toNat + x.ty.packCount) ∧ e ≠ 0 then w (r - x.d.toNat) 0 else g.uget r := by
  simp only [unpackWrites, hU, if_true]
  by_cases he : e = 0
  · simp only [he, if_true]
    have hsame : (List.range x.ty.packCount).foldl (fun g _ => g) g = g := by
      induction List.range x.ty.packCount with
      | nil => rfl
      | cons _ _ ih => exact ih
    rw [hsame]
    exact ⟨rfl, fun r => (if_neg (fun h => h.2 rfl)).symm⟩
  · simp only [he, if_false, ne_eq, not_false_eq_true, and_true]
    exact foldl_uset x.d.toNat (fun k => w k 0) g x.ty.packCount

theorem unpackWrites_frame (x : Ext) (e : LaneMask) (w : Nat → Nat → Word) (g : Group) : unpackWrites x e w g =
    { g with vec := (unpackWrites x e w g).vec, uni := (unpackWrites x e w g).uni, pred := (unpackWrites x e w g).pred } := by
  cases hU : x.dU with
  | true => rw [(unpackWrites_uniform hU).1]
  | false => rw [(unpackWrites_vector hU).1]

theorem unpackWrites_pred (x : Ext) (e : LaneMask) (w : Nat → Nat → Word) (g : Group) : (unpackWrites x e w g).pred = g.pred := by
  cases hU : x.dU with
  | true => rw [(unpackWrites_uniform hU).1]
  | false => rw [(unpackWrites_vector hU).1]

/-- The word of an element that UNPACK writes (R373). -/
def unpackWord (x : Ext) (g : Group) (k L : Nat) : Word := BitVec.ofNat 32 (unpackElem x.ty (opA g x false L) k).1

theorem vget_congr {g h : Group} (hv : h.vec = g.vec) (hp : h.present = g.present) (r L : Nat) : h.vget r L = g.vget r L := by
  rw [Group.vget, Group.vget, hv, hp]

/-- UNPACK completes (R373). -/
theorem unpack_completes {x : Ext} {s : State} {g : Group} {p : Split} (h : Executes s g p (.unpack x)) :
    ∃ t, exec (.unpack x) s = .next t ∧
      let e := guardLanes g p x.guard
      let elem (r L : Nat) : Word := BitVec.ofNat 32 (unpackElem x.ty (opA g x false L) (r - x.d.toNat)).1
      let fills (r : Nat) : Prop := x.d.toNat ≤ r ∧ r < x.d.toNat + x.ty.packCount
      RegisterEffect s t g p (.unpack x) (fun h => h.pred = g.pred ∧
        FlagsRaised g h x.dU s.now (resultFlags (issueOf s g p (.unpack x) x.guard) x.dU (fun L =>
          (List.range x.ty.packCount).foldl (fun b k => b ||| (unpackElem x.ty (opA g x false L) k).2) 0)) ∧
        if x.dU then h.vec = g.vec ∧
          ∀ r, (fills r ∧ e ≠ 0 → h.uget r = elem r 0) ∧ (¬(fills r ∧ e ≠ 0) → h.uget r = g.uget r)
        else h.uni = g.uni ∧ ∀ r L,
          let writes : Prop := fills r ∧ e.getLsbD L = true ∧ g.present.getLsbD L = true
          (writes → h.vget r L = elem r L) ∧ (¬writes → h.vget r L = g.vget r L)) := by
  refine ⟨_, (exec_unpack x s).trans (runInstr_executes _ _ h), ?_⟩
  obtain ⟨honly, hsplits, hraised, hv, hu, hp, hpresent⟩ := written_raised
    (unpackWrites_frame x (guardLanes g p x.guard) (unpackWord x g) g) (raise_spec _ x.dU s.now
      (resultFlags (issueOf s g p (.unpack x) x.guard) x.dU (fun L =>
        (List.range x.ty.packCount).foldl (fun b k => b ||| (unpackElem x.ty (opA g x false L) k).2) 0)))
  refine registerEffect_of (f := fun g' => (unpackWrites x (guardLanes g p x.guard) (unpackWord x g) g').raise x.dU s.now
    (resultFlags (issueOf s g p (.unpack x) x.guard) x.dU (fun L =>
      (List.range x.ty.packCount).foldl (fun b k => b ||| (unpackElem x.ty (opA g x false L) k).2) 0)))
    h.1 honly hsplits (fun _ hx => hx) ⟨hp.trans (unpackWrites_pred ..), hraised, ?_⟩
  split
  · rename_i hU
    obtain ⟨hframe, hget⟩ := unpackWrites_uniform (e := guardLanes g p x.guard) (w := unpackWord x g) (g := g) hU
    refine ⟨hv.trans (by rw [hframe]), fun r => ?_⟩
    have hr := (congrArg (fun u : Tab Word => Tab.get 0 u r) hu).trans (hget r)
    exact ⟨fun hw => hr.trans (if_pos hw), fun hw => hr.trans (if_neg hw)⟩
  · rename_i hU
    obtain ⟨hframe, hget⟩ := unpackWrites_vector (e := guardLanes g p x.guard) (w := unpackWord x g) (g := g) (by simpa using hU)
    refine ⟨hu.trans (by rw [hframe]), fun r L => ?_⟩
    have hr := (vget_congr hv hpresent r L).trans (hget r L)
    exact ⟨fun hw => hr.trans (if_pos hw), fun hw => hr.trans (if_neg hw)⟩

/-- PACK's printed example (R349). -/
theorem packOp_example {x : Ext} {g : Group} {L : Nat} (hty : x.ty = .e4m3x4) (hrm : x.rm = .rne) (haU : x.aU = true)
    (h0 : g.uget x.a.toNat = 0x3F80_0000#32) (h1 : g.uget (x.a.toNat + 1) = 0xC000_0000#32) (h2 : g.uget (x.a.toNat + 2) = 0x43FA_0000#32)
    (h3 : g.uget (x.a.toNat + 3) = 0x7FC0_0000#32) :
    packOp x g L = if x.sat then (0x7F7E_C038#64, flSat) else (0x7F7F_C038#64, flInv) := by
  have hop (k : Nat) : opAi g x k L = 0#32 ++ g.uget (x.a.toNat + k) := by rw [opAi, haU]; rfl
  have hpack : packOp x g L = mapElems 8 4 (fun e => narrow e4m3 .rne x.sat (dec f32
      (([0x3F80_0000, 0xC000_0000, 0x43FA_0000, 0x7FC0_0000] : List Nat).getD e 0))) := by
    rw [packOp, hty, hrm]
    refine congrArg (fun rs : List (Nat × FlagBits) => (BitVec.ofNat 64 (packElems 8 (rs.map (·.1))), rs.foldl (fun f r => f ||| r.2) 0)) ?_
    refine List.map_congr_left fun e he => ?_
    have he4 : e < 4 := List.mem_range.mp he
    rw [hop, word_toNat]
    match e, he4 with
    | 0, _ => rw [Nat.add_zero, h0]; rfl
    | 1, _ => rw [h1]; rfl
    | 2, _ => rw [h2]; rfl
    | 3, _ => rw [h3]; rfl
  rw [hpack]
  cases x.sat <;> decide +kernel

/-- REQ's printed examples (R357). -/
theorem reqOp_examples {x : Ext} (hrm : x.rm = .rne) :
    (x.ty = .e4m3x4 → reqOp x 0x7F01_7E38#64 0x7E7F#64 = (0x7F02_7E40#64, flSat)) ∧
      (x.ty = .e2m1x8 → reqOp x 0x7125#64 0x8180#64 = (0x5013#64, 0)) := by
  constructor <;> intro hty <;> rw [reqOp, hty, hrm] <;> decide +kernel

/-- Settles O15: completion by the shared skeletons, the printed examples by computing them. -/
theorem conversionResults : Obligations.ConversionResults := by
  unfold Obligations.ConversionResults
  refine ⟨?_, ?_, ?_, cvt_examples, fun f rm n top h => narrowSat_inf rm n (f, top) h, fun b hb => ?_, fun x hrm => reqOp_examples hrm,
    fun x g L hty hrm haU h0 h1 h2 h3 => packOp_example hty hrm haU h0 h1 h2 h3, ?_, fun x s g p h => unpack_completes h⟩
  · exact aluCompletes_of (f := fun x _ g L =>
      cvt x.ty ((Fields.cvtSrc x).getD .s32) x.rm x.sat (opA g x ((Fields.cvtSrc x).getD .s32).wide L)) exec_cvt (fun _ _ _ _ => rfl)
  · exact aluCompletes_of (f := fun x _ g L => packOp x g L) exec_pack (fun _ _ _ _ => rfl)
  · exact aluCompletes_of (f := fun x _ g L => reqOp x (opA g x false L) (opB g x false L)) exec_req (fun _ _ _ _ => rfl)
  · subst hb; decide +kernel
  · decide +kernel

end Sys2Proof.Machine
end

section
namespace Sys2Proof.Machine
open Sys2Proof

/-! ## Sides of a branch (R26) -/

theorem getLsbD_laneBit {L M : Nat} (hL : L < 16) : (laneBit L).getLsbD M = decide (M = L) := by
  by_cases hM : M < 16
  · rw [laneBit, BitVec.getLsbD_ofNat, Nat.testBit_two_pow]
    simp [hM, eq_comm]
  · rw [BitVec.getLsbD_of_ge _ M (by omega)]
    exact (decide_eq_false (by omega)).symm

/-- The lane that joins is on the side of its target, and every other lane of a side was there. -/
theorem addSide_bit {t : Target} {L : Nat} (hL : L < 16) : ∀ {acc : List (Target × LaneMask)} {x : Target × LaneMask} {M : Nat},
    x ∈ addSide t L acc → x.2.getLsbD M = true → (M = L ∧ x.1 = t) ∨ ∃ y ∈ acc, y.1 = x.1 ∧ y.2.getLsbD M = true
  | [], x, M, hx, hM => by
    obtain rfl : x = (t, laneBit L) := by simpa [addSide] using hx
    exact .inl ⟨by simpa [getLsbD_laneBit hL] using hM, rfl⟩
  | (u, m) :: rest, x, M, hx, hM => by
    unfold addSide at hx
    split at hx
    · rename_i htu
      rcases List.mem_cons.mp hx with rfl | hx
      · rw [BitVec.getLsbD_or, Bool.or_eq_true, getLsbD_laneBit hL, decide_eq_true_eq] at hM
        exact hM.symm.imp (fun h => ⟨h, htu.symm⟩) fun h => ⟨_, List.mem_cons_self, rfl, h⟩
      · exact .inr ⟨x, List.mem_cons_of_mem _ hx, rfl, hM⟩
    · split at hx
      · rcases List.mem_cons.mp hx with rfl | hx
        · exact .inl ⟨by simpa [getLsbD_laneBit hL] using hM, rfl⟩
        · exact .inr ⟨x, hx, rfl, hM⟩
      · rcases List.mem_cons.mp hx with rfl | hx
        · exact .inr ⟨_, List.mem_cons_self, rfl, hM⟩
        · exact (addSide_bit hL hx hM).imp_right fun ⟨y, hy, h⟩ => ⟨y, List.mem_cons_of_mem _ hy, h⟩

theorem addSide_new {t : Target} {L : Nat} (hL : L < 16) : ∀ acc : List (Target × LaneMask),
    ∃ x ∈ addSide t L acc, x.1 = t ∧ x.2.getLsbD L = true
  | [] => ⟨_, List.mem_cons_self, rfl, by simp [getLsbD_laneBit hL]⟩
  | (u, m) :: rest => by
    unfold addSide
    split
    · rename_i htu
      exact ⟨_, List.mem_cons_self, htu.symm, by simp [BitVec.getLsbD_or, getLsbD_laneBit hL]⟩
    · split
      · exact ⟨_, List.mem_cons_self, rfl, by simp [getLsbD_laneBit hL]⟩
      · obtain ⟨x, hx, h⟩ := addSide_new hL rest
        exact ⟨x, List.mem_cons_of_mem _ hx, h⟩

theorem addSide_keeps {t : Target} {L : Nat} : ∀ {acc : List (Target × LaneMask)} {y : Target × LaneMask} {M : Nat},
    y ∈ acc → y.2.getLsbD M = true → ∃ x ∈ addSide t L acc, x.1 = y.1 ∧ x.2.getLsbD M = true
  | (u, m) :: rest, y, M, hy, hM => by
    unfold addSide
    split
    · rcases List.mem_cons.mp hy with rfl | hy
      · exact ⟨_, List.mem_cons_self, rfl, by rw [BitVec.getLsbD_or, hM, Bool.true_or]⟩
      · exact ⟨y, List.mem_cons_of_mem _ hy, rfl, hM⟩
    · split
      · exact ⟨y, List.mem_cons_of_mem _ hy, rfl, hM⟩
      · rcases List.mem_cons.mp hy with rfl | hy
        · exact ⟨_, List.mem_cons_self, rfl, hM⟩
        · obtain ⟨x, hx, h⟩ := addSide_keeps (t := t) (L := L) hy hM
          exact ⟨x, List.mem_cons_of_mem _ hx, h⟩

/-- The sides of a list of lanes that join one after the other. -/
theorem foldl_addSide {next : Nat → Target} : ∀ (ls : List Nat) (acc : List (Target × LaneMask)), (∀ L ∈ ls, L < 16) →
    (∀ x ∈ ls.foldl (fun acc L => addSide (next L) L acc) acc, ∀ M, x.2.getLsbD M = true →
      (M ∈ ls ∧ x.1 = next M) ∨ ∃ y ∈ acc, y.1 = x.1 ∧ y.2.getLsbD M = true) ∧
    (∀ M ∈ ls, ∃ x ∈ ls.foldl (fun acc L => addSide (next L) L acc) acc, x.1 = next M ∧ x.2.getLsbD M = true) ∧
    (∀ y ∈ acc, ∀ M, y.2.getLsbD M = true → ∃ x ∈ ls.foldl (fun acc L => addSide (next L) L acc) acc, x.1 = y.1 ∧ x.2.getLsbD M = true)
  | [], acc, _ => ⟨fun x hx M hM => .inr ⟨x, hx, rfl, hM⟩, fun M hM => absurd hM List.not_mem_nil, fun y hy M hM => ⟨y, hy, rfl, hM⟩⟩
  | L :: ls, acc, hls => by
    have hL : L < 16 := hls L List.mem_cons_self
    obtain ⟨hbit, hnew, hkeep⟩ := foldl_addSide (next := next) ls (addSide (next L) L acc) fun M hM => hls M (List.mem_cons_of_mem _ hM)
    refine ⟨fun x hx M hM => ?_, fun M hM => ?_, fun y hy M hM => ?_⟩
    · rcases hbit x hx M hM with ⟨hmem, h⟩ | ⟨y, hy, hyx, hyM⟩
      · exact .inl ⟨List.mem_cons_of_mem _ hmem, h⟩
      · rcases addSide_bit hL hy hyM with ⟨rfl, h⟩ | ⟨z, hz, hzy, hzM⟩
        · exact .inl ⟨List.mem_cons_self, hyx ▸ h⟩
        · exact .inr ⟨z, hz, hzy.trans hyx, hzM⟩
    · rcases List.mem_cons.mp hM with rfl | hmem
      · obtain ⟨z, hz, hzt, hzM⟩ := addSide_new (t := next M) hL acc
        obtain ⟨x, hx, hxz, hxM⟩ := hkeep z hz M hzM
        exact ⟨x, hx, hxz.trans hzt, hxM⟩
      · exact hnew M hmem
    · obtain ⟨z, hz, hzy, hzM⟩ := addSide_keeps (t := next L) (L := L) hy hM
      obtain ⟨x, hx, hxz, hxM⟩ := hkeep z hz M hzM
      exact ⟨x, hx, hxz.trans hzy, hxM⟩

/-- Each lane of a mask is on the side of its target, and no other lane is on any side (R26). -/
theorem mem_sides {m : LaneMask} {next : Nat → Target} {x : Target × LaneMask} {L : Nat} (hx : x ∈ sides m next)
    (hL : x.2.getLsbD L = true) : m.getLsbD L = true ∧ x.1 = next L := by
  have h := (foldl_addSide (next := next) (lanesOf m) [] fun M hM => lane_lt (mem_lanesOf.mp hM)).1 x hx L hL
  simpa [mem_lanesOf] using h

theorem exists_side {m : LaneMask} {L : Nat} (next : Nat → Target) (hL : m.getLsbD L = true) :
    ∃ x ∈ sides m next, x.1 = next L ∧ x.2.getLsbD L = true :=
  (foldl_addSide (next := next) (lanesOf m) [] fun _ hM => lane_lt (mem_lanesOf.mp hM)).2.1 L (mem_lanesOf.mpr hL)

/-! ## Splits that a branch adds (R26) -/

/-- A split that enters a group's table, with the number, run state and order that its place there gives. -/
def Entered (p q : Split) : Prop := q = { p with idx := q.idx, run := q.run, order := q.order }

theorem foldl_addSplit (F : Target × LaneMask → Split) : ∀ (ts : List (Target × LaneMask)) (g : Group),
    ∃ new, ts.foldl (fun g t => addSplit (F t) g) g = { g with splits := g.splits ++ new } ∧
      (∀ q ∈ new, ∃ t ∈ ts, Entered (F t) q) ∧ ∀ t ∈ ts, ∃ q ∈ new, Entered (F t) q
  | [], g => ⟨[], by simp, by simp, by simp⟩
  | t :: ts, g => by
    obtain ⟨new, hnew, hof, hfor⟩ := foldl_addSplit F ts (addSplit (F t) g)
    refine ⟨{ F t with idx := freeIdx g.splits, run := if liveCount g.splits < 4 then .live else .dormant, order := nextOrder g.splits } :: new,
      ?_, fun q hq => ?_, fun u hu => ?_⟩
    · rw [List.foldl_cons, hnew]; simp [addSplit]
    · rcases List.mem_cons.mp hq with rfl | hq
      · exact ⟨t, List.mem_cons_self, rfl⟩
      · obtain ⟨u, hu, h⟩ := hof q hq
        exact ⟨u, List.mem_cons_of_mem _ hu, h⟩
    · rcases List.mem_cons.mp hu with rfl | hu
      · exact ⟨_, List.mem_cons_self, rfl⟩
      · obtain ⟨q, hq, h⟩ := hfor u hu
        exact ⟨q, List.mem_cons_of_mem _ hq, h⟩

/-- Where the lanes of the issuing split stand once they have left, the split that keeps its entry, and the splits that stay. -/
structure Left (g h : Group) (p : Split) (next : Nat → Target) (joins : List Join) : Prop where
  frame : h = { g with splits := h.splits }
  arrive : ∀ L, p.mask.getLsbD L = true →
    ∃ q ∈ h.splits, q.mask.getLsbD L = true ∧ q.pc = (next L).1 ∧ q.depth = (next L).2 ∧ q.joins = joins
  origin : ∀ q ∈ h.splits, q ∈ g.splits ∨
    ∀ L, q.mask.getLsbD L = true → p.mask.getLsbD L = true ∧ q.pc = (next L).1 ∧ q.depth = (next L).2
  stay : ∀ q ∈ g.splits, q.idx ≠ p.idx → q ∈ h.splits
  entry : ∃ q, h.split? p.idx = some q ∧ q.run = p.run

/-- The split of one side (R26). -/
def sideSplit (joins : List Join) (q : Split) (t : Target × LaneMask) : Split :=
  { q.goto t.1.1 with mask := t.2, depth := t.1.2, joins := joins }

/-- The lanes of the issuing split leave for their targets (R26). -/
theorem leave_left {k : Issue} {next : Nat → Target} {joins : List Join} {s : State} {g : Group} (hg : s.group? k.gi = some g)
    (hp : g.split? k.si = some k.sp) :
    ∃ h, (leave k next joins s).group? k.gi = some h ∧ Left g h k.sp next joins ∧ OnlyGroup s (leave k next joins s) k.gi := by
  have hidx : k.sp.idx = k.si := by simpa using List.find?_some hp
  unfold leave
  dsimp only
  split
  · rename_i hnone
    refine ⟨g, hg, ⟨rfl, fun L hL => ?_, fun q hq => .inl hq, fun q hq _ => hq, k.sp, hidx ▸ hp, rfl⟩, rfl, rfl, fun _ _ => rfl⟩
    obtain ⟨x, hx, -⟩ := exists_side next hL
    rw [hnone] at hx
    exact absurd hx List.not_mem_nil
  · rename_i first rest hsides
    have hmem {x : Target × LaneMask} (hx : x ∈ first :: rest) {L : Nat} (hL : x.2.getLsbD L = true) :
        k.sp.mask.getLsbD L = true ∧ x.1 = next L := mem_sides (hsides ▸ hx) hL
    rw [State.modSplit, modGroup_modGroup]
    obtain ⟨new, hnew, hof, hfor⟩ := foldl_addSplit (sideSplit joins k.sp) rest (g.modSplit k.si (fun q => sideSplit joins q first))
    have hgroup : (s.modGroup k.gi ((fun g => rest.foldl (fun g t => addSplit (sideSplit joins k.sp t) g) g) ∘
        fun g => g.modSplit k.si (fun q => sideSplit joins q first))).group? k.gi =
          some { g with splits := (g.modSplit k.si (fun q => sideSplit joins q first)).splits ++ new } :=
      (group?_modGroup_same _ hg).trans (congrArg some hnew)
    have hpmem : k.sp ∈ g.splits := List.mem_of_find?_eq_some hp
    have hfirst : sideSplit joins k.sp first ∈ (g.modSplit k.si (fun q => sideSplit joins q first)).splits :=
      List.mem_map.mpr ⟨k.sp, hpmem, if_pos hidx⟩
    refine ⟨_, hgroup, ⟨rfl, fun L hL => ?_, fun q hq => ?_, fun q hq hne => ?_, ?_⟩, onlyGroup_modGroup ..⟩
    · obtain ⟨x, hx, hxt, hxL⟩ := exists_side next hL
      rw [hsides] at hx
      rcases List.mem_cons.mp hx with rfl | hx
      · exact ⟨_, List.mem_append_left _ hfirst, hxL, by rw [← hxt]; rfl, by rw [← hxt]; rfl, rfl⟩
      · obtain ⟨q, hq, hqe⟩ := hfor x hx
        exact ⟨q, List.mem_append_right _ hq, by rw [hqe]; exact hxL, by rw [hqe, ← hxt]; rfl, by rw [hqe, ← hxt]; rfl, by rw [hqe]; rfl⟩
    · rcases List.mem_append.mp hq with hq | hq
      · obtain ⟨r, hr, rfl⟩ := List.mem_map.mp hq
        split
        · refine .inr fun L hL => ?_
          obtain ⟨hpL, ht⟩ := hmem List.mem_cons_self (L := L) (by simpa [sideSplit] using hL)
          exact ⟨hpL, by rw [← ht]; rfl, by rw [← ht]; rfl⟩
        · exact .inl hr
      · obtain ⟨t, ht, hqe⟩ := hof q hq
        refine .inr fun L hL => ?_
        obtain ⟨hpL, hnext⟩ := hmem (List.mem_cons_of_mem _ ht) (L := L) (by rw [hqe] at hL; exact hL)
        exact ⟨hpL, by rw [hqe, ← hnext]; rfl, by rw [hqe, ← hnext]; rfl⟩
    · exact List.mem_append_left _ (List.mem_map.mpr ⟨q, hq, if_neg (fun h => hne (h.trans hidx.symm))⟩)
    · refine ⟨sideSplit joins k.sp first, ?_, rfl⟩
      have hfind := split?_modSplit (si := k.si) (fun q => sideSplit joins q first) (fun _ => rfl) hp
      rw [hidx, Group.split?, List.find?_append, show ((g.modSplit k.si (fun q => sideSplit joins q first)).splits.find? (fun p => p.idx == k.si)) =
        some (sideSplit joins k.sp first) from hfind]
      rfl

/-- The join point enters the split's records alone (R28). -/
theorem pushJoin_eq (k : Issue) (join : Option DWord) (s : State) : (pushJoin k join s).1 = joinsAfter s k.sp join ∧
    (pushJoin k join s).2.groups = s.groups ∧ (pushJoin k join s).2 = { s with nextId := (pushJoin k join s).2.nextId } := by
  unfold pushJoin joinsAfter
  cases join with
  | none => exact ⟨rfl, rfl, rfl⟩
  | some a =>
    dsimp only
    split
    · rw [if_neg (by omega)]; exact ⟨rfl, rfl, rfl⟩
    · rw [if_pos (by omega)]; exact ⟨rfl, rfl, rfl⟩

theorem groupsAndId_of {s t u : State} (ht : t = { u with groups := t.groups }) (hu : u = { s with nextId := u.nextId }) :
    t = { s with groups := t.groups, nextId := t.nextId } := by
  rw [ht, hu]

/-- A branch whose offending lanes are helpers alone divides the split (R23, R26, R288). -/
theorem branch_left {k : Issue} {go bad : LaneMask} {target : Nat → DWord} {depth : Nat} {join : Option DWord} {s : State} {g : Group}
    (hg : s.group? k.gi = some g) (hp : g.split? k.si = some k.sp) (hbad : bad &&& ~~~k.g.helpers = 0) :
    ∃ t h, branch k go target depth bad join s = t ∧ t = { s with groups := t.groups, nextId := t.nextId } ∧
      (∀ j, j ≠ k.gi → t.group? j = s.group? j) ∧ t.group? k.gi = some h ∧
      Left g h k.sp (fun L => if (go &&& ~~~bad).getLsbD L then (target L, depth) else (k.nextPc, k.sp.depth)) (joinsAfter s k.sp join) := by
  obtain ⟨hjoins, hgroups, hrest⟩ := pushJoin_eq k join s
  obtain ⟨h, hh, hleft, honly⟩ := leave_left (k := k) (s := (pushJoin k join s).2) (joins := (pushJoin k join s).1)
    (next := fun L => if (go &&& ~~~bad).getLsbD L then (target L, depth) else (k.nextPc, k.sp.depth)) (g := g)
    ((congrArg (fun gs : List Group => gs[k.gi]?) hgroups).trans hg) hp
  refine ⟨_, h, if_neg (not_not_intro hbad), ?_, fun j hj => ?_, hh, hjoins ▸ hleft⟩
  · exact groupsAndId_of honly.1 hrest
  · exact (honly.2.2 j hj).trans (congrArg (fun gs : List Group => gs[j]?) hgroups)

/-- What a branch leaves of its package, where the group was first changed by `f` (R26). -/
theorem divides_of {s : State} {g : Group} {p : Split} {i : Instr} {gd : Guard} {go bad : LaneMask} {target : Nat → DWord} {depth : Nat}
    {join : Option DWord} {f : Group → Group} (h : s.issuer? = some (g, p)) (hbad : bad &&& ~~~g.helpers = 0) (hf : (f g).splits = g.splits) :
    Divides s (branch (issueOf s g p i gd) go target depth bad join (s.modGroup s.curG f)) g p
      (fun L => if (go &&& ~~~bad).getLsbD L then (target L, depth) else (behind p i, p.depth)) (joinsAfter s p join) (· = f g) := by
  obtain ⟨hg, hp, hidx⟩ := issuer?_eq h
  obtain ⟨t, u, hrun, ht, hothers, hu, hleft⟩ := branch_left (k := issueOf s g p i gd) (go := go) (bad := bad) (target := target)
    (depth := depth) (join := join) (s := s.modGroup s.curG f) (g := f g) (group?_modGroup_same f hg)
    (by rw [Group.split?, hf]; exact hp) hbad
  rw [hrun]
  refine ⟨by rw [ht]; rfl, fun j hj => (hothers j hj).trans (group?_modGroup_other f hj), u, hu, ?_, hleft.arrive, fun q hq => ?_,
    fun q hq hne => hleft.stay q (hf ▸ hq) hne⟩
  · rw [hleft.frame, ← hf]
  · exact (hleft.origin q hq).imp_left (fun hq => hf ▸ hq)

/-! ## Branches that trap (R229, R288) -/

/-- The lowest of a list of addresses is on it, and none is lower. -/
theorem lowest_spec {a : DWord} {as : List DWord} (ha : a ∈ as) : lowest as ∈ as ∧ ∀ b ∈ as, (lowest as).toNat ≤ b.toNat := by
  have key : ∀ (as : List DWord) (m : DWord), as.foldl (fun m a => if a.toNat < m.toNat then a else m) m ∈ m :: as ∧
      ∀ b ∈ m :: as, (as.foldl (fun m a => if a.toNat < m.toNat then a else m) m).toNat ≤ b.toNat := by
    intro as
    induction as with
    | nil => intro m; simp
    | cons c cs ih =>
      intro m
      obtain ⟨hmem, hle⟩ := ih (if c.toNat < m.toNat then c else m)
      have hnew := hle _ List.mem_cons_self
      have hpick : (if c.toNat < m.toNat then c else m).toNat ≤ m.toNat ∧ (if c.toNat < m.toNat then c else m).toNat ≤ c.toNat := by
        split <;> omega
      refine ⟨?_, fun b hb => ?_⟩
      · rcases List.mem_cons.mp hmem with h | h
        · rw [List.foldl_cons, h]; split <;> simp
        · exact List.mem_cons_of_mem _ (List.mem_cons_of_mem _ h)
      · rw [List.foldl_cons]
        simp only [List.mem_cons] at hb
        rcases hb with rfl | rfl | hb
        · exact hnew.trans hpick.1
        · exact hnew.trans hpick.2
        · exact hle b (List.mem_cons_of_mem _ hb)
  match as, ha with
  | c :: cs, _ =>
    obtain ⟨hmem, hle⟩ := key (c :: cs) c
    have hin : lowest (c :: cs) ∈ c :: cs := (List.mem_cons.mp hmem).elim
      (fun h => by rw [show lowest (c :: cs) = c from h]; exact List.mem_cons_self) id
    exact ⟨hin, fun b hb => hle b (List.mem_cons_of_mem _ hb)⟩

/-- The lowest target of the lanes of a mask. -/
theorem lowest_lanes {m : LaneMask} {target : Nat → DWord} {M : Nat} (hM : m.getLsbD M = true)
    (hmin : ∀ L, L < 16 → m.getLsbD L = true → (target M).toNat ≤ (target L).toNat) : lowest ((lanesOf m).map target) = target M := by
  obtain ⟨hmem, hle⟩ := lowest_spec (List.mem_map.mpr ⟨M, mem_lanesOf.mpr hM, rfl⟩ : target M ∈ (lanesOf m).map target)
  obtain ⟨L, hL, hLt⟩ := List.mem_map.mp hmem
  have hML := hmin L (lane_lt (mem_lanesOf.mp hL)) (mem_lanesOf.mp hL)
  have hLM := hle _ (List.mem_map.mpr ⟨M, mem_lanesOf.mpr hM, rfl⟩)
  rw [hLt] at hML
  exact BitVec.eq_of_toNat_eq (Nat.le_antisymm hLM hML)

theorem exists_lane {m : LaneMask} (h : m ≠ 0) : ∃ L, L < 16 ∧ m.getLsbD L = true := by
  by_contra hnone
  refine h (BitVec.eq_of_getLsbD_eq fun L hL => ?_)
  simpa using fun hbit => hnone ⟨L, hL, hbit⟩

/-- A trap concerns the lanes of its mask that are no helpers. -/
theorem trapped_congr {s : State} {g : Group} {p : Split} {i : Instr} {c : Cause} {aux : DWord} {m m' : LaneMask}
    (h : m &&& ~~~g.helpers = m' &&& ~~~g.helpers) : trapped s g p i c aux m = trapped s g p i c aux m' := by
  rw [trapped, trapped, h]

theorem and_not_not (m h : LaneMask) : m &&& ~~~h &&& ~~~h = m &&& ~~~h := by
  rw [BitVec.and_assoc, BitVec.and_self]

/-- A branch with an offending lane that is no helper takes BRT with the lowest such address (R229). -/
theorem branch_traps {s : State} {g : Group} {p : Split} {i : Instr} {gd : Guard} {go bad : LaneMask} {target : Nat → DWord} {depth : Nat}
    {join : Option DWord} {M : Nat} (hM : (bad &&& ~~~g.helpers).getLsbD M = true)
    (hmin : ∀ L, L < 16 → (bad &&& ~~~g.helpers).getLsbD L = true → (target M).toNat ≤ (target L).toNat) :
    branch (issueOf s g p i gd) go target depth bad join s = trapped s g p i .brt (target M) bad := by
  have hne : bad &&& ~~~g.helpers ≠ 0 := fun h0 => by rw [h0] at hM; simp at hM
  refine (if_pos hne).trans ?_
  rw [show (issueOf s g p i gd).g.helpers = g.helpers from rfl, lowest_lanes hM hmin]
  exact trapped_congr (s := s) (p := p) (i := i) (c := .brt) (aux := target M) (and_not_not bad g.helpers)

/-- The same of lanes that all go to one address. -/
theorem branch_traps_const {s : State} {g : Group} {p : Split} {i : Instr} {gd : Guard} {go bad : LaneMask} {a : DWord} {depth : Nat}
    {join : Option DWord} (hne : bad &&& ~~~g.helpers ≠ 0) :
    branch (issueOf s g p i gd) go (fun _ => a) depth bad join s = trapped s g p i .brt a bad := by
  obtain ⟨M, -, hM⟩ := exists_lane hne
  exact branch_traps (target := fun _ => a) hM (fun _ _ _ => Nat.le_refl _)

/-! ## Calls and returns (O25) -/

theorem and_not_zero (m : LaneMask) : m &&& ~~~0 = m := by
  rw [show (0 : LaneMask) = 0#16 from rfl, BitVec.not_zero, BitVec.and_allOnes]

theorem maskOf_false {f : Nat → Bool} (h : ∀ L, L < 16 → f L = false) : maskOf f = 0 :=
  BitVec.eq_of_getLsbD_eq fun L hL => by rw [getLsbD_maskOf f hL, h L hL]; simp

/-- The offending lanes of a mask that are no helpers. -/
theorem outOfText_real (s : State) (k : Issue) (go : LaneMask) (target : Nat → DWord) (h : LaneMask) :
    outOfText s k go target &&& ~~~h = maskOf (fun L => (go &&& ~~~h).getLsbD L && !s.inText k.g (target L)) := by
  refine BitVec.eq_of_getLsbD_eq fun L hL => ?_
  rw [BitVec.getLsbD_and, outOfText, getLsbD_maskOf _ hL, getLsbD_maskOf _ hL, BitVec.getLsbD_and]
  cases go.getLsbD L <;> simp [Bool.and_comm]

theorem outOfText_none {s : State} {k : Issue} {go : LaneMask} {target : Nat → DWord}
    (h : ∀ L, go.getLsbD L = true → s.inText k.g (target L) = true) : outOfText s k go target = 0 :=
  maskOf_false fun L _ => by
    cases hL : go.getLsbD L with
    | false => rfl
    | true => rw [h L hL]; rfl

/-- The lanes of E leave for their own targets, unless one of them that is no helper strays; `f` changes the group first. -/
def leaveText (k : Issue) (target : Nat → DWord) (depth : Nat) (f : LaneMask → Group → Group) (s : State) : State :=
  let bad := outOfText s k k.e target
  if bad &&& ~~~k.g.helpers ≠ 0 then branch k k.e target depth bad none s
  else branch k k.e target depth bad none (s.modGroup k.gi (f (k.e &&& ~~~bad)))

/-- A target outside .text is BRT with the lowest such address, for the lanes that would go there (R229). -/
theorem leaveText_strays {s : State} {g : Group} {p : Split} {i : Instr} {gd : Guard} {target : Nat → DWord} {depth : Nat}
    {f : LaneMask → Group → Group} {M : Nat} (hM : M < 16)
    (hout : ((guardLanes g p gd &&& ~~~g.helpers).getLsbD M && !s.inText g (target M)) = true)
    (hmin : ∀ L, L < 16 → ((guardLanes g p gd &&& ~~~g.helpers).getLsbD L && !s.inText g (target L)) = true →
      (target M).toNat ≤ (target L).toNat) :
    leaveText (issueOf s g p i gd) target depth f s = trapped s g p i .brt (target M)
      (maskOf (fun L => (guardLanes g p gd &&& ~~~g.helpers).getLsbD L && !s.inText g (target L))) := by
  have hreal := outOfText_real s (issueOf s g p i gd) (guardLanes g p gd) target g.helpers
  have hbit (L : Nat) (hL : L < 16) : (outOfText s (issueOf s g p i gd) (guardLanes g p gd) target &&& ~~~g.helpers).getLsbD L =
      ((guardLanes g p gd &&& ~~~g.helpers).getLsbD L && !s.inText g (target L)) := by rw [hreal, getLsbD_maskOf _ hL]; rfl
  refine (if_pos fun h0 => ?_).trans ((branch_traps (M := M) ((hbit M hM).trans hout) fun L hL hL' =>
    hmin L hL ((hbit L hL).symm.trans hL')).trans (trapped_congr ?_))
  · have hM' := (hbit M hM).trans hout
    rw [show outOfText s (issueOf s g p i gd) (guardLanes g p gd) target &&& ~~~g.helpers = 0 from h0] at hM'
    simp at hM'
  · exact (and_not_not _ _).symm.trans (congrArg (· &&& ~~~g.helpers) hreal)

/-- With every target in .text, each lane of E goes to its own. -/
theorem leaveText_divides {s : State} {g : Group} {p : Split} {i : Instr} {gd : Guard} {target : Nat → DWord} {depth : Nat}
    {f : LaneMask → Group → Group} (h : s.issuer? = some (g, p)) (hf : ∀ e, (f e g).splits = g.splits)
    (hin : ∀ L, (guardLanes g p gd).getLsbD L = true → s.inText g (target L) = true) :
    Divides s (leaveText (issueOf s g p i gd) target depth f s) g p
      (fun L => if (guardLanes g p gd).getLsbD L then (target L, depth) else (behind p i, p.depth)) p.joins (· = f (guardLanes g p gd) g) := by
  have hbad : outOfText s (issueOf s g p i gd) (guardLanes g p gd) target = 0 := outOfText_none hin
  have hrun : leaveText (issueOf s g p i gd) target depth f s =
      branch (issueOf s g p i gd) (guardLanes g p gd) target depth 0 none (s.modGroup s.curG (f (guardLanes g p gd))) := by
    unfold leaveText
    rw [show (issueOf s g p i gd).e = guardLanes g p gd from rfl, hbad]
    dsimp only
    rw [if_neg (by simp), and_not_zero]
    rfl
  have hdiv := divides_of (i := i) (gd := gd) (go := guardLanes g p gd) (bad := 0) (target := target) (depth := depth) (join := none) h
    (by simp) (hf (guardLanes g p gd))
  rw [and_not_zero] at hdiv
  exact hrun ▸ hdiv

theorem Divides.mono {s t : State} {g : Group} {p : Split} {next : Nat → DWord × Nat} {joins : List Join} {regs regs' : Group → Prop}
    (h : Divides s t g p next joins regs) (himp : ∀ h, regs h → regs' h) : Divides s t g p next joins regs' := by
  obtain ⟨ht, hothers, u, hu, hregs, hrest⟩ := h
  exact ⟨ht, hothers, u, hu, himp _ hregs, hrest⟩

/-- What a call's push and a return's pop leave of the group. -/
theorem rets_map {g h : Group} {e : LaneMask} {f : List DWord → List DWord}
    (hh : h = { g with rets := allLanes.map (fun L => if e.getLsbD L then f (g.rets.getD L []) else g.rets.getD L []) }) :
    h = { g with rets := h.rets } ∧ ∀ L, L < 16 →
      h.rets.getD L [] = if e.getLsbD L then f (g.rets.getD L []) else g.rets.getD L [] := by
  subst hh
  refine ⟨rfl, fun L hL => ?_⟩
  simp only [allLanes, List.getD_eq_getElem?_getD, List.getElem?_map, List.getElem?_range hL, Option.map_some, Option.getD_some]

/-- A call of either form (R292, R293). -/
theorem call_outcome {s : State} {g : Group} {p : Split} {i : Instr} {gd : Guard} {target : Issue → Nat → DWord}
    (h : Executes s g p i) (hrun : exec i s = runInstr i gd (callBody target) s) (he : guardLanes g p gd ≠ 0) :
    (p.depth < 32 → exec i s = .next (leaveText (issueOf s g p i gd) (target (issueOf s g p i gd)) (p.depth + 1)
      (fun e g' => g'.push e (behind p i)) s)) ∧
    (32 ≤ p.depth → exec i s = .next (trapped s g p i .opr (0#32 ++ word0 i) (guardLanes g p gd))) := by
  rw [hrun, runInstr_executes _ _ h]
  exact ⟨fun hd => congrArg Host.Outcome.next ((if_neg he).trans (if_neg (Nat.not_le.mpr hd))),
    fun hd => congrArg Host.Outcome.next ((if_neg he).trans (if_pos hd))⟩

/-- RET (R358). -/
theorem ret_outcome {s : State} {g : Group} {p : Split} {gd : Guard} (h : Executes s g p (.ret gd)) (he : guardLanes g p gd ≠ 0) :
    (p.depth ≠ 0 → exec (.ret gd) s = .next (leaveText (issueOf s g p (.ret gd) gd) (fun L => (g.rets.getD L []).headD 0) (p.depth - 1)
      (fun e g' => g'.pop e) s)) ∧
    (p.depth = 0 → exec (.ret gd) s = .next (trapped s g p (.ret gd) .opr (0#32 ++ word0 (.ret gd)) (guardLanes g p gd))) := by
  have hrun := (exec_ret gd s).trans (runInstr_executes _ _ h)
  exact ⟨fun hd => hrun.trans (congrArg Host.Outcome.next ((if_neg he).trans (if_neg hd))),
    fun hd => hrun.trans (congrArg Host.Outcome.next ((if_neg he).trans (if_pos hd)))⟩

/-- Settles O25: CALL, CALLX and RET all leave by `leaveText`, with a push or a pop. -/
theorem callsAndReturns : Obligations.CallsAndReturns := by
  unfold Obligations.CallsAndReturns
  intro gd off x s g p
  dsimp only
  refine ⟨fun h he => ?_, fun h he => ?_, fun h he => ?_⟩
  · obtain ⟨hgoes, hdeep⟩ := call_outcome h (exec_call gd off s) he
    exact ⟨fun hd M hM hout hmin => (hgoes hd).trans (congrArg Host.Outcome.next (leaveText_strays hM hout hmin)),
      fun hd hin => ⟨_, hgoes hd, (leaveText_divides h.1 (fun _ => rfl) hin).mono fun _ hh => rets_map hh⟩, hdeep⟩
  · obtain ⟨hgoes, hdeep⟩ := call_outcome h (exec_callx x s) he
    exact ⟨fun hd M hM hout hmin => (hgoes hd).trans (congrArg Host.Outcome.next (leaveText_strays hM hout hmin)),
      fun hd hin => ⟨_, hgoes hd, (leaveText_divides h.1 (fun _ => rfl) hin).mono fun _ hh => rets_map hh⟩, hdeep⟩
  · obtain ⟨hgoes, hnone⟩ := ret_outcome h he
    exact ⟨fun hd M hM hout hmin => (hgoes hd).trans (congrArg Host.Outcome.next (leaveText_strays hM hout hmin)),
      fun hd hin => ⟨_, hgoes hd, (leaveText_divides h.1 (fun _ => rfl) hin).mono fun _ hh => rets_map hh⟩, hnone⟩

end Sys2Proof.Machine
end

section
namespace Sys2Proof.Machine
open Sys2Proof

/-! ## A trap's mark on its split -/

/-- A handler that stops has no splits left (R190). -/
theorem stopHandler_splits {h : HandlerId} {gi : Nat} {c : Cause} {aux : DWord} {s : State} {g : Group} (hg : s.group? gi = some g) :
    ∃ u, (stopHandler h gi c aux s).group? gi = some u ∧ u.splits = [] :=
  ⟨_, group?_modGroup_same (s := { s with acc := s.acc.map _ }) _ hg, rfl⟩

/-- A split that has taken a trap (R230). -/
def trapMark (c : Cause) (pend : LaneMask) (p : Split) : Split :=
  { p with run := .trapped, cause := some c, pend := pend, wait := .none, age := 0, reserved := false }

/-- The record of a trap (R231). -/
def trapRecord (s : State) (g : Group) (p : Split) (si : Nat) (c : Cause) (aux : DWord) (mask : LaneMask) : TrapRec :=
  { cause := c, split := BitVec.ofNat 8 si, mask := mask, group := g.groupId,
    block := BitVec.ofNat 32 (((s.block? g.block).map (fun b => b.lin)).getD 0), seq := 0, pc := p.pc, aux := aux, consumed := false,
    cycle := 0, order := trapOrder g si }

/-- A trap outside a handler marks its split and appends a record (R230, R231). -/
theorem takeTrap_plain {gi si : Nat} {c : Cause} {aux : DWord} {mask pend : LaneMask} {s : State} {g : Group} {p : Split}
    (hg : s.group? gi = some g) (hnone : g.handler = none) (hp : g.split? si = some p) : takeTrap gi si c aux mask pend s =
      appendRecord (s.groupCtx g) (trapRecord s g p si c aux mask) (s.modSplit gi si (trapMark c pend)) := by
  unfold takeTrap
  rw [hg]
  dsimp only
  rw [hnone]
  dsimp only
  rw [hp]
  rfl

/-- The split that takes a trap is trapped, or its handler has ended with it (R190, R230). -/
theorem takeTrap_marks {gi si : Nat} {c : Cause} {aux : DWord} {mask pend : LaneMask} {s : State} {g : Group} {p : Split}
    (hg : s.group? gi = some g) (hp : g.split? si = some p) :
    (((takeTrap gi si c aux mask pend s).group? gi).bind (fun g => g.split? si)).all (fun p => p.run == .trapped) = true := by
  cases hhandler : g.handler with
  | some h =>
    obtain ⟨u, hu, hnone⟩ := stopHandler_splits (h := h) (c := c) (aux := aux) hg
    have hstop : takeTrap gi si c aux mask pend s = stopHandler h gi c aux s := by
      unfold takeTrap
      rw [hg]
      dsimp only
      rw [hhandler]
    rw [hstop, hu, Option.bind_some, Group.split?, hnone]
    rfl
  | none =>
    have hmark : (appendRecord (s.groupCtx g) (trapRecord s g p si c aux mask) (s.modSplit gi si (trapMark c pend))).group? gi =
      some (g.modSplit si (trapMark c pend)) := group?_modGroup_same _ hg
    rw [takeTrap_plain hg hhandler hp, hmark, Option.bind_some, split?_modSplit (trapMark c pend) (fun _ => rfl) hp]
    rfl

/-! ## Branches (O23) -/

theorem modGroup_id (s : State) (gi : Nat) : s.modGroup gi id = s := by
  have hmod : ∀ (gs : List Group) (n : Nat), modNth id gs n = gs := fun gs n => List.ext_getElem? fun j => by
    rw [modNth_get]; split <;> simp
  rw [State.modGroup, hmod]

/-- The lanes of a branch without an offending one, and the entry that its split keeps. -/
theorem branchTo_left {s : State} {g : Group} {p : Split} {i : Instr} {gd : Guard} {go : LaneMask} {off join : BitVec 64}
    (h : s.issuer? = some (g, p)) (hin : s.inText g (p.pc + (off <<< 2)) = true)
    (hjoin : join ≠ 0 → s.inText g (p.pc + (join <<< 2)) = true) :
    ∃ t u, branchTo (issueOf s g p i gd) go off join s = t ∧ t = { s with groups := t.groups, nextId := t.nextId } ∧
      (∀ j, j ≠ s.curG → t.group? j = s.group? j) ∧ t.group? s.curG = some u ∧
      Left g u p (fun L => (if go.getLsbD L then p.pc + (off <<< 2) else behind p i, p.depth))
        (joinsAfter s p (if join = 0 then none else some (p.pc + (join <<< 2)))) := by
  obtain ⟨hg, hp, -⟩ := issuer?_eq h
  have hbad : outOfText s (issueOf s g p i gd) go (fun _ => wordTarget (issueOf s g p i gd) off) = 0 := outOfText_none fun _ _ => hin
  obtain ⟨t, u, hrun, ht, hothers, hu, hleft⟩ := branch_left (k := issueOf s g p i gd) (go := go) (bad := 0)
    (target := fun _ => wordTarget (issueOf s g p i gd) off) (depth := p.depth)
    (join := if join = 0 then none else some (p.pc + (join <<< 2))) hg hp (by simp)
  refine ⟨t, u, (if_neg fun hc => ?_).trans ?_, ht, hothers, hu, ?_⟩
  · exact absurd ((hjoin hc.2.1).symm.trans hc.2.2.1) nofun
  · rw [hbad]; exact hrun
  · rw [and_not_zero] at hleft
    have hnext : (fun L => if go.getLsbD L = true then (wordTarget (issueOf s g p i gd) off, p.depth) else (behind p i, p.depth)) =
        fun L => (if go.getLsbD L then p.pc + (off <<< 2) else behind p i, p.depth) := by
      funext L; split <;> rfl
    exact hnext ▸ hleft

theorem branchTo_divides {s : State} {g : Group} {p : Split} {i : Instr} {gd : Guard} {go : LaneMask} {off join : BitVec 64}
    (h : s.issuer? = some (g, p)) (hin : s.inText g (p.pc + (off <<< 2)) = true)
    (hjoin : join ≠ 0 → s.inText g (p.pc + (join <<< 2)) = true) :
    Divides s (branchTo (issueOf s g p i gd) go off join s) g p
      (fun L => (if go.getLsbD L then p.pc + (off <<< 2) else behind p i, p.depth))
      (joinsAfter s p (if join = 0 then none else some (p.pc + (join <<< 2)))) (· = g) := by
  obtain ⟨t, u, rfl, ht, hothers, hu, hleft⟩ := branchTo_left (i := i) (gd := gd) (go := go) h hin hjoin
  exact ⟨ht, hothers, u, hu, by rw [hleft.frame], hleft.arrive, hleft.origin, hleft.stay⟩

/-- A target outside .text (R288). -/
theorem branchTo_strays {s : State} {g : Group} {p : Split} {i : Instr} {gd : Guard} {go : LaneMask} {off join : BitVec 64}
    (hout : s.inText g (p.pc + (off <<< 2)) = false) (hgo : go &&& ~~~g.helpers ≠ 0) :
    branchTo (issueOf s g p i gd) go off join s = trapped s g p i .brt (p.pc + (off <<< 2)) go := by
  have hbad : outOfText s (issueOf s g p i gd) go (fun _ => wordTarget (issueOf s g p i gd) off) = go :=
    BitVec.eq_of_getLsbD_eq fun L hL => by
      rw [outOfText, getLsbD_maskOf _ hL, show s.inText (issueOf s g p i gd).g (wordTarget (issueOf s g p i gd) off) = false from hout]
      simp
  refine (if_neg fun hc => hgo (hbad ▸ hc.1)).trans ?_
  rw [hbad]
  exact branch_traps_const hgo

/-- A join address outside .text (R288). -/
theorem branchTo_joinStrays {s : State} {g : Group} {p : Split} {i : Instr} {gd : Guard} {go : LaneMask} {off join : BitVec 64}
    (hin : s.inText g (p.pc + (off <<< 2)) = true ∨ go &&& ~~~g.helpers = 0) (hjoin : join ≠ 0)
    (hout : s.inText g (p.pc + (join <<< 2)) = false) (hmask : p.mask &&& ~~~g.helpers ≠ 0) :
    branchTo (issueOf s g p i gd) go off join s = trapped s g p i .brt (p.pc + (join <<< 2)) p.mask := by
  refine if_pos ⟨?_, hjoin, hout, hmask⟩
  refine (outOfText_real ..).trans (maskOf_false fun L _ => ?_)
  rcases hin with hin | hgo
  · rw [show s.inText (issueOf s g p i gd).g (wordTarget (issueOf s g p i gd) off) = true from hin]; simp
  · rw [show go &&& ~~~(issueOf s g p i gd).g.helpers = 0 from hgo]; simp

/-- A signed offset is zero with its word alone (R78). -/
theorem signExtend_eq_zero {v : Word} : v.signExtend 64 = 0 ↔ v = 0 := by
  refine ⟨fun h => ?_, fun h => by rw [h]; rfl⟩
  refine BitVec.eq_of_toInt_eq ?_
  rw [← BitVec.toInt_signExtend_of_le (v := 64) (by decide), h]; rfl

/-- A counter that is not yet spent (R289). -/
theorem brdecGoes_eq (ty : Ty) (v : Word) : brdecGoes ty v = if ty = .s32 then decide (0 < v.toInt) else v != 0 := by
  unfold brdecGoes
  split
  · have hne : v = 0 ↔ v.toInt = 0 := ⟨fun h => by rw [h]; rfl, fun h => BitVec.eq_of_toInt_eq (h.trans rfl)⟩
    have hzero : (0 : Word).toInt = 0 := rfl
    rw [Bool.eq_iff_iff, Bool.and_eq_true, beq_iff_eq, bne_iff_ne, ne_eq, hne, decide_eq_true_iff, BitVec.slt, decide_eq_false_iff_not,
      hzero]
    omega
  · rfl

/-- The join point of a branch with a literal (R78, R288). -/
theorem litJoin_eq (x : Ext) (pc : DWord) : (if litJoin x = 0 then none else some (pc + (litJoin x <<< 2))) =
    if (x.lit.getD 0).extractLsb' 32 32 = 0 then none else some (pc + (((x.lit.getD 0).extractLsb' 32 32).signExtend 64 <<< 2)) :=
  if_congr signExtend_eq_zero rfl rfl

/-- The lanes whose counter is not yet spent (R289). -/
def brdecLanes (x : Ext) (g : Group) (p : Split) : LaneMask :=
  maskOf (fun L => (guardLanes g p x.guard).getLsbD L && brdecGoes x.ty (low (opD g x false L) - 1))

/-- BRDEC that stops at a BRT lowers no counter (R289). -/
theorem brdec_stops {x : Ext} {s : State} {g : Group} {p : Split} {a : DWord} {m : LaneMask} (h : Executes s g p (.brdec x))
    (htrap : branchTo (issueOf s g p (.brdec x) x.guard) (brdecLanes x g p) (litTarget x) (litJoin x) s = trapped s g p (.brdec x) .brt a m) :
    exec (.brdec x) s = .next (trapped s g p (.brdec x) .brt a m) := by
  obtain ⟨hg, hp, -⟩ := issuer?_eq h.1
  refine ((exec_brdec x s).trans (runInstr_executes _ _ h)).trans (congrArg Host.Outcome.next ?_)
  refine (if_pos ?_).trans htrap
  exact (congrArg (fun u : State => ((u.group? s.curG).bind (fun g => g.split? s.curS)).all (fun p => p.run == .trapped)) htrap).trans
    (takeTrap_marks hg hp)

/-- BRDEC that goes on lowers the counters, then divides (R289). -/
theorem brdec_divides {x : Ext} {s : State} {g : Group} {p : Split} (h : Executes s g p (.brdec x)) (hlive : p.run = .live)
    (hin : s.inText g (p.pc + (litTarget x <<< 2)) = true) (hjoin : litJoin x ≠ 0 → s.inText g (p.pc + (litJoin x <<< 2)) = true) :
    ∃ t, exec (.brdec x) s = .next t ∧ Divides s t g p
      (fun L => (if (brdecLanes x g p).getLsbD L then p.pc + (litTarget x <<< 2) else behind p (.brdec x), p.depth))
      (joinsAfter s p (if litJoin x = 0 then none else some (p.pc + (litJoin x <<< 2))))
      (fun h => RegistersOnly g h ∧ FlagsSame g h ∧
        DWritten g h x (guardLanes g p x.guard) false (fun L => 0#32 ++ (low (opD g x false L) - 1))) := by
  obtain ⟨hg, hp, hidx⟩ := issuer?_eq h.1
  obtain ⟨t, u, hrun, ht, hothers, hu, hleft⟩ := branchTo_left (i := .brdec x) (gd := x.guard) (go := brdecLanes x g p) h.1 hin hjoin
  have hruns : ¬ ((t.group? s.curG).bind (fun g => g.split? s.curS)).all (fun p => p.run == .trapped) = true := by
    obtain ⟨q, hq, hqr⟩ := hleft.entry
    rw [hu, Option.bind_some, ← hidx, hq]
    simp [hqr, hlive]
  refine ⟨t.modGroup s.curG (writeD x false (guardLanes g p x.guard) (fun L => 0#32 ++ (low (opD g x false L) - 1))),
    ((exec_brdec x s).trans (runInstr_executes _ _ h)).trans (congrArg Host.Outcome.next ?_), ?_⟩
  · refine (if_neg ?_).trans ?_
    · exact fun hc => hruns ((congrArg (fun u : State => ((u.group? s.curG).bind (fun g => g.split? s.curS)).all
        (fun p => p.run == .trapped)) hrun).symm.trans hc)
    · exact congrArg (fun u : State => u.modGroup s.curG _) hrun
  · obtain ⟨hframe, hwritten⟩ := writeD_spec x false (guardLanes g p x.guard) (fun L => 0#32 ++ (low (opD g x false L) - 1)) u
    generalize hw : writeD x false (guardLanes g p x.guard) (fun L => 0#32 ++ (low (opD g x false L) - 1)) u = w at hframe hwritten
    have hwg : w = { g with vec := w.vec, uni := w.uni, splits := u.splits } :=
      hframe.trans (congrArg (fun z : Group => { z with vec := w.vec, uni := w.uni }) hleft.frame)
    have hsplits : w.splits = u.splits := by rw [hwg]
    have hdw : DWritten { g with splits := u.splits } w x (guardLanes g p x.guard) false (fun L => 0#32 ++ (low (opD g x false L) - 1)) := by
      rw [← hleft.frame]; exact hwritten
    refine ⟨by rw [ht]; rfl, fun j hj => (group?_modGroup_other _ hj).trans (hothers j hj), w, (group?_modGroup_same _ hu).trans (congrArg some hw),
      ⟨?_, ⟨by rw [hwg], by rw [hwg]⟩, dWritten_congr rfl rfl rfl rfl hdw⟩, ?_, ?_, ?_⟩
    · rw [hwg]; rfl
    · rw [hsplits]; exact hleft.arrive
    · rw [hsplits]; exact hleft.origin
    · rw [hsplits]; exact hleft.stay

/-- Settles O23: BRA, BRA with join and BRDEC are `branchTo`; BRDEC's stop is the trap's mark on its split. -/
theorem branchesDivide : Obligations.BranchesDivide := by
  unfold Obligations.BranchesDivide
  intro gd off x s g p
  dsimp only
  have join_ok (hok : ∀ a, (if (x.lit.getD 0).extractLsb' 32 32 = 0 then none else
      some (p.pc + (((x.lit.getD 0).extractLsb' 32 32).signExtend 64 <<< 2))) = some a → s.inText g a = true) :
      litJoin x ≠ 0 → s.inText g (p.pc + (litJoin x <<< 2)) = true := fun hne =>
    hok _ (by rw [if_neg (mt signExtend_eq_zero.mpr hne)]; rfl)
  have join_some {a : DWord} (hsome : (if (x.lit.getD 0).extractLsb' 32 32 = 0 then none else
      some (p.pc + (((x.lit.getD 0).extractLsb' 32 32).signExtend 64 <<< 2))) = some a) : litJoin x ≠ 0 ∧ p.pc + (litJoin x <<< 2) = a := by
    rw [← litJoin_eq] at hsome
    by_cases hne : litJoin x = 0
    · rw [if_pos hne] at hsome; exact absurd hsome nofun
    · rw [if_neg hne] at hsome; exact ⟨hne, Option.some.inj hsome⟩
  have leaves {i : Instr} {m : LaneMask} (hrun : ∀ a m', branchTo (issueOf s g p i x.guard) m (litTarget x) (litJoin x) s =
      trapped s g p i .brt a m' → exec i s = .next (trapped s g p i .brt a m')) :
      (s.inText g (p.pc + (litTarget x <<< 2)) = false → m &&& ~~~g.helpers ≠ 0 →
        exec i s = .next (trapped s g p i .brt (p.pc + (litTarget x <<< 2)) m)) ∧
      (s.inText g (p.pc + (litTarget x <<< 2)) = true ∨ m &&& ~~~g.helpers = 0 → ∀ a,
        (if (x.lit.getD 0).extractLsb' 32 32 = 0 then none else
          some (p.pc + (((x.lit.getD 0).extractLsb' 32 32).signExtend 64 <<< 2))) = some a →
        s.inText g a = false → p.mask &&& ~~~g.helpers ≠ 0 → exec i s = .next (trapped s g p i .brt a p.mask)) := by
    refine ⟨fun hout hm => hrun _ _ (branchTo_strays hout hm), fun hin a hsome hout hm => ?_⟩
    obtain ⟨hne, rfl⟩ := join_some hsome
    exact hrun _ _ (branchTo_joinStrays hin hne hout hm)
  have braJoin (h : Executes s g p (.braJoin x)) := (exec_braJoin x s).trans (runInstr_executes _ _ h)
  have hlanes : brdecLanes x g p = maskOf (fun L => (guardLanes g p x.guard).getLsbD L &&
      (if x.ty = .s32 then decide (0 < ((opD g x false L).extractLsb' 0 32 - 1).toInt) else (opD g x false L).extractLsb' 0 32 - 1 != 0)) :=
    congrArg maskOf (funext fun L => congrArg _ (brdecGoes_eq x.ty _))
  have hgoes (L : Nat) : (brdecLanes x g p).getLsbD L = ((guardLanes g p x.guard).getLsbD L &&
      (if x.ty = .s32 then decide (0 < ((opD g x false L).extractLsb' 0 32 - 1).toInt) else (opD g x false L).extractLsb' 0 32 - 1 != 0)) := by
    by_cases hL : L < 16
    · rw [hlanes, getLsbD_maskOf _ hL]
    · rw [BitVec.getLsbD_of_ge _ L (by omega), BitVec.getLsbD_of_ge _ L (by omega), Bool.false_and]
  refine ⟨fun h => ?_, fun h hin hok => ⟨_, braJoin h, litJoin_eq x p.pc ▸ branchTo_divides h.1 hin (join_ok hok)⟩,
    fun h => leaves fun a m' ht => (braJoin h).trans (congrArg Host.Outcome.next ht),
    fun h => hlanes ▸ leaves fun a m' ht => brdec_stops h ht, fun h hlive hin hok => ?_⟩
  · have hrun := (exec_bra gd off s).trans (runInstr_executes _ _ h)
    exact ⟨fun hin => ⟨_, hrun, branchTo_divides (join := 0) h.1 hin (fun h => absurd rfl h)⟩,
      fun hout hgo => hrun.trans (congrArg Host.Outcome.next (branchTo_strays hout hgo))⟩
  · obtain ⟨t, hrun, hdiv⟩ := brdec_divides h hlive hin (join_ok hok)
    simp only [hgoes] at hdiv
    exact ⟨t, hrun, litJoin_eq x p.pc ▸ hdiv⟩

end Sys2Proof.Machine
end

section
namespace Sys2Proof.Machine
open Sys2Proof

/-! ## Branches by table (O24) -/

/-- The index of a lane. -/
def brxIndex (x : Ext) (g : Group) (L : Nat) : Word := low (opA g x false L)

/-- The table of a BRX (R291). -/
def brxTable (x : Ext) (p : Split) : DWord := p.pc + (litTarget x <<< 2)

/-- What the entry of a lane reads. -/
def brxEntry (x : Ext) (s : State) (g : Group) (p : Split) (L : Nat) : Fetch :=
  fetchWord s g (brxTable x p + 8 + (0#32 ++ brxIndex x g L) * 4) .r

/-- The target that the table gives a lane, for a header with the last index `top`. -/
def brxTarget (x : Ext) (s : State) (g : Group) (p : Split) (top L : Nat) : Option DWord :=
  match brxEntry x s g p L with
  | .word w => if decide ((brxIndex x g L).toNat < top + 1) then some (p.pc + (w.signExtend 64 <<< 2)) else none
  | _ => none

/-- The lanes of E without a target in .text. -/
def brxBad (x : Ext) (s : State) (g : Group) (p : Split) (top : Nat) : LaneMask :=
  maskOf (fun L => (guardLanes g p x.guard).getLsbD L && (brxTarget x s g p top L).all (fun t => !s.inText g t))

/-- The lanes that are no helpers with an index out of range. -/
def brxOutside (x : Ext) (g : Group) (p : Split) (top : Nat) : LaneMask :=
  maskOf (fun L => (guardLanes g p x.guard).getLsbD L && !decide ((brxIndex x g L).toNat < top + 1)) &&& ~~~g.helpers

/-- A header without a high half counts the entries (R291). -/
theorem header_low {head : Word} (h : head.extractLsb' 16 16 = 0) : (head.extractLsb' 0 16).toNat = head.toNat := by
  have hhigh := congrArg BitVec.toNat h
  rw [BitVec.extractLsb'_toNat, Nat.shiftRight_eq_div_pow] at hhigh
  rw [BitVec.extractLsb'_toNat, Nat.shiftRight_zero]
  have hlt := head.isLt
  have hzero : (0 : BitVec 16).toNat = 0 := rfl
  omega

section
variable {x : Ext} {s : State} {g : Group} {p : Split} {head join : Word}

/-- A table that is no multiple of 8, or a header with a high half, is BRT for every lane of E (R291). -/
theorem brx_malformed (h : Executes s g p (.brx x)) (he : guardLanes g p x.guard ≠ 0) (hreal : guardLanes g p x.guard &&& ~~~g.helpers ≠ 0)
    (hbad : (brxTable x p).toNat % 8 ≠ 0 ∨ (brxTable x p).toNat % 8 = 0 ∧ fetchWord s g (brxTable x p) .r = .word head ∧
      fetchWord s g (brxTable x p + 4) .r = .word join ∧ head.extractLsb' 16 16 ≠ 0) :
    exec (.brx x) s = .next (trapped s g p (.brx x) .brt (brxTable x p) (guardLanes g p x.guard)) := by
  refine ((exec_brx x s).trans (runInstr_executes _ _ h)).trans (congrArg Host.Outcome.next ((if_neg he).trans ?_))
  rcases hbad with hmis | ⟨hal, hhead, hjoin, hhigh⟩
  · exact (if_pos hmis).trans (branch_traps_const hreal)
  · refine (if_neg (not_not_intro hal)).trans ?_
    rw [show fetchWord s (issueOf s g p (.brx x) x.guard).g (wordTarget (issueOf s g p (.brx x) x.guard) (litTarget x)) .r = .word head from hhead,
      show fetchWord s (issueOf s g p (.brx x) x.guard).g (wordTarget (issueOf s g p (.brx x) x.guard) (litTarget x) + 4) .r = .word join from hjoin]
    exact (if_pos hhigh).trans (branch_traps_const hreal)

/-- With a well-formed header whose entries can be read, the lanes leave for what the table gives (R29, R291). -/
theorem brx_branches (h : Executes s g p (.brx x)) (he : guardLanes g p x.guard ≠ 0) (hal : (brxTable x p).toNat % 8 = 0)
    (hhead : fetchWord s g (brxTable x p) .r = .word head) (hjoin : fetchWord s g (brxTable x p + 4) .r = .word join)
    (hhigh : head.extractLsb' 16 16 = 0)
    (hread : ∀ L, (guardLanes g p x.guard &&& ~~~g.helpers).getLsbD L = true → (brxIndex x g L).toNat ≤ head.toNat →
      ∃ w, brxEntry x s g p L = .word w) :
    exec (.brx x) s = .next (
      if brxBad x s g p head.toNat &&& ~~~g.helpers = 0 ∧ join ≠ 0 ∧ s.inText g (p.pc + (join.signExtend 64 <<< 2)) = false ∧
          p.mask &&& ~~~g.helpers ≠ 0 then trapped s g p (.brx x) .brt (p.pc + (join.signExtend 64 <<< 2)) p.mask
      else branch (issueOf s g p (.brx x) x.guard) (guardLanes g p x.guard)
        (fun L => if brxOutside x g p head.toNat ≠ 0 ∧ (brxBad x s g p head.toNat).getLsbD L then brxTable x p
          else (brxTarget x s g p head.toNat L).getD (brxTable x p)) p.depth (brxBad x s g p head.toNat)
        (if join = 0 then none else some (p.pc + (join.signExtend 64 <<< 2))) s) := by
  refine ((exec_brx x s).trans (runInstr_executes _ _ h)).trans (congrArg Host.Outcome.next ((if_neg he).trans
    ((if_neg (not_not_intro hal)).trans ?_)))
  rw [show fetchWord s (issueOf s g p (.brx x) x.guard).g (wordTarget (issueOf s g p (.brx x) x.guard) (litTarget x)) .r = .word head from hhead,
    show fetchWord s (issueOf s g p (.brx x) x.guard).g (wordTarget (issueOf s g p (.brx x) x.guard) (litTarget x) + 4) .r = .word join from hjoin]
  dsimp only
  rw [if_neg (not_not_intro hhigh), header_low hhigh]
  have hreads : (lanesOf (guardLanes g p x.guard &&& ~~~g.helpers)).filterMap (fun L =>
      if decide ((brxIndex x g L).toNat < head.toNat + 1) = true then
        match brxEntry x s g p L with
        | .word _ => none
        | f => some (brxTable x p + 8 + (0#32 ++ brxIndex x g L) * 4, f)
      else none) = [] := by
    refine List.filterMap_eq_nil_iff.mpr fun L hL => ?_
    split
    · rename_i hin
      obtain ⟨w, hw⟩ := hread L (mem_lanesOf.mp hL) (by have := of_decide_eq_true hin; omega)
      rw [hw]
    · rfl
  split
  · rename_i hsome
    exact absurd ((congrArg lowestFetch hreads).symm.trans hsome) nofun
  · rfl

/-- A lane in range whose entry reads a word goes where the word says. -/
theorem brxTarget_word {top L : Nat} {w : Word} (hin : (brxIndex x g L).toNat ≤ top) (hw : brxEntry x s g p L = .word w) :
    brxTarget x s g p top L = some (p.pc + (w.signExtend 64 <<< 2)) := by
  rw [brxTarget, hw]; exact if_pos (decide_eq_true (Nat.lt_succ_of_le hin))

theorem brxTarget_outside {top L : Nat} (hout : top < (brxIndex x g L).toNat) : brxTarget x s g p top L = none := by
  unfold brxTarget
  split
  · exact if_neg (by simpa using hout)
  · rfl

/-- The lanes that are no helpers without a target in .text. -/
theorem brxBad_real {top L : Nat} (hL : L < 16) : (brxBad x s g p top &&& ~~~g.helpers).getLsbD L =
    ((guardLanes g p x.guard &&& ~~~g.helpers).getLsbD L && (brxTarget x s g p top L).all (fun t => !s.inText g t)) := by
  rw [BitVec.getLsbD_and, brxBad, getLsbD_maskOf _ hL, BitVec.getLsbD_and]
  cases (guardLanes g p x.guard).getLsbD L <;> simp [Bool.and_comm]

theorem brxOutside_bit {top L : Nat} (hL : L < 16) : (brxOutside x g p top).getLsbD L =
    ((guardLanes g p x.guard &&& ~~~g.helpers).getLsbD L && decide (top < (brxIndex x g L).toNat)) := by
  have hflip : (!decide ((brxIndex x g L).toNat < top + 1)) = decide (top < (brxIndex x g L).toNat) := by
    rw [Bool.eq_iff_iff]; simp
  rw [brxOutside, BitVec.getLsbD_and, getLsbD_maskOf _ hL, BitVec.getLsbD_and, hflip]
  cases (guardLanes g p x.guard).getLsbD L <;> simp [Bool.and_comm]

theorem getLsbD_ne_zero {m : LaneMask} {L : Nat} (h : m.getLsbD L = true) : m ≠ 0 := by
  rintro rfl; simp at h

/-- A trap for the lanes of a mask, lane by lane. -/
theorem trapped_lanes {i : Instr} {c : Cause} {aux : DWord} {m : LaneMask} {f : Nat → Bool}
    (h : ∀ L, L < 16 → (m &&& ~~~g.helpers).getLsbD L = f L) : trapped s g p i c aux m = trapped s g p i c aux (maskOf f) := by
  have heq : m &&& ~~~g.helpers = maskOf f := BitVec.eq_of_getLsbD_eq fun L hL => by rw [h L hL, getLsbD_maskOf f hL]
  rw [← heq]
  exact trapped_congr (and_not_not m g.helpers).symm

end

/-- Settles O24: `brx_malformed` for a table that cannot be read, `brx_branches` for one that can. -/
theorem brxBranchesByTable : Obligations.BrxBranchesByTable := by
  unfold Obligations.BrxBranchesByTable
  intro x s g p head join entry goes
  dsimp only
  intro h he
  have hmul (L : Nat) : brxEntry x s g p L = fetchWord s g (brxTable x p + 8 + 4 * (0#32 ++ brxIndex x g L)) .r := by
    rw [brxEntry, BitVec.mul_comm]
  refine ⟨fun hmis hreal => brx_malformed (head := head) (join := join) h he hreal (.inl hmis), fun hal hhead hjoin hreal => ⟨fun hhigh => ?_,
    fun hhigh ⟨M, hM, hMreal, hMout⟩ hfetch => ?_, fun hhigh hfetch M hM hMout hmin => ?_⟩, fun hal hhead hjoin hhigh hgoes => ?_⟩
  · exact brx_malformed h he hreal (.inr ⟨hal, hhead, hjoin, hhigh⟩)
  · have hword (L : Nat) (hL : (guardLanes g p x.guard &&& ~~~g.helpers).getLsbD L = true) (hin : (brxIndex x g L).toNat ≤ head.toNat) :
        brxEntry x s g p L = .word (entry L) := (hmul L).trans (hfetch L (lane_lt hL) hL hin)
    have hbit (L : Nat) (hL : L < 16) : (brxBad x s g p head.toNat &&& ~~~g.helpers).getLsbD L =
        ((guardLanes g p x.guard &&& ~~~g.helpers).getLsbD L && (decide (head.toNat < (brxIndex x g L).toNat) ||
          !s.inText g (p.pc + ((entry L).signExtend 64 <<< 2)))) := by
      rw [brxBad_real hL]
      cases hr : (guardLanes g p x.guard &&& ~~~g.helpers).getLsbD L with
      | false => rfl
      | true =>
        by_cases hout : head.toNat < (brxIndex x g L).toNat
        · simp [brxTarget_outside hout, hout]
        · simp [brxTarget_word (Nat.le_of_not_lt hout) (hword L hr (Nat.le_of_not_lt hout)), hout]
    have hMbad : (brxBad x s g p head.toNat &&& ~~~g.helpers).getLsbD M = true := by
      rw [hbit M hM, hMreal]; simp [show head.toNat < (brxIndex x g M).toNat from hMout]
    have houtside : brxOutside x g p head.toNat ≠ 0 := getLsbD_ne_zero (L := M) (by
      rw [brxOutside_bit hM, hMreal]; simp [show head.toNat < (brxIndex x g M).toNat from hMout])
    have htable (L : Nat) (hL : (brxBad x s g p head.toNat &&& ~~~g.helpers).getLsbD L = true) :
        (if brxOutside x g p head.toNat ≠ 0 ∧ (brxBad x s g p head.toNat).getLsbD L then brxTable x p
          else (brxTarget x s g p head.toNat L).getD (brxTable x p)) = brxTable x p :=
      if_pos ⟨houtside, by rw [BitVec.getLsbD_and, Bool.and_eq_true] at hL; exact hL.1⟩
    rw [brx_branches h he hal hhead hjoin hhigh (fun L hL hin => ⟨_, hword L hL hin⟩), if_neg (fun hc => getLsbD_ne_zero hMbad hc.1),
      branch_traps hMbad (fun L _ hL => by rw [htable M hMbad, htable L hL]), htable M hMbad]
    exact congrArg Host.Outcome.next (trapped_lanes hbit)
  · have hin (L : Nat) (hL : (guardLanes g p x.guard &&& ~~~g.helpers).getLsbD L = true) : (brxIndex x g L).toNat ≤ head.toNat :=
      (hfetch L (lane_lt hL) hL).1
    have hword (L : Nat) (hL : (guardLanes g p x.guard &&& ~~~g.helpers).getLsbD L = true) : brxEntry x s g p L = .word (entry L) :=
      (hmul L).trans (hfetch L (lane_lt hL) hL).2
    have hbit (L : Nat) (hL : L < 16) : (brxBad x s g p head.toNat &&& ~~~g.helpers).getLsbD L =
        ((guardLanes g p x.guard &&& ~~~g.helpers).getLsbD L && !s.inText g (p.pc + ((entry L).signExtend 64 <<< 2))) := by
      rw [brxBad_real hL]
      cases hr : (guardLanes g p x.guard &&& ~~~g.helpers).getLsbD L with
      | false => rfl
      | true => rw [brxTarget_word (hin L hr) (hword L hr)]; rfl
    have houtside : brxOutside x g p head.toNat = 0 := BitVec.eq_of_getLsbD_eq fun L hL => by
      rw [brxOutside_bit hL]
      cases hr : (guardLanes g p x.guard &&& ~~~g.helpers).getLsbD L with
      | false => simp
      | true => simp [hin L hr]
    have htarget (L : Nat) (hL : (brxBad x s g p head.toNat &&& ~~~g.helpers).getLsbD L = true) :
        (if brxOutside x g p head.toNat ≠ 0 ∧ (brxBad x s g p head.toNat).getLsbD L then brxTable x p
          else (brxTarget x s g p head.toNat L).getD (brxTable x p)) = p.pc + ((entry L).signExtend 64 <<< 2) := by
      have hr : (guardLanes g p x.guard &&& ~~~g.helpers).getLsbD L = true := by
        rw [hbit L (lane_lt hL), Bool.and_eq_true] at hL; exact hL.1
      rw [if_neg (fun hc => hc.1 houtside), brxTarget_word (hin L hr) (hword L hr), Option.getD_some]
    have hMbad : (brxBad x s g p head.toNat &&& ~~~g.helpers).getLsbD M = true := (hbit M hM).trans hMout
    rw [brx_branches h he hal hhead hjoin hhigh (fun L hL _ => ⟨_, hword L hL⟩), if_neg (fun hc => getLsbD_ne_zero hMbad hc.1),
      branch_traps hMbad (fun L hL16 hL => by rw [htarget M hMbad, htarget L hL]; exact hmin L hL16 ((hbit L hL16).symm.trans hL)),
      htarget M hMbad]
    exact congrArg Host.Outcome.next (trapped_lanes hbit)
  · have hreal_goes (L : Nat) (hL : (guardLanes g p x.guard &&& ~~~g.helpers).getLsbD L = true) : goes L = true := by
      have hlane := lane_lt hL
      simp only [BitVec.getLsbD_and, BitVec.getLsbD_not, hlane, decide_true, Bool.true_and, Bool.and_eq_true, Bool.not_eq_true'] at hL
      cases hg : goes L with
      | true => rfl
      | false => exact absurd (((hgoes L hL.1).2 hg).1.symm.trans hL.2) nofun
    have hbad (L : Nat) (hL : (guardLanes g p x.guard).getLsbD L = true) : (brxBad x s g p head.toNat).getLsbD L = !goes L := by
      obtain ⟨hgo, hstay⟩ := hgoes L hL
      rw [brxBad, getLsbD_maskOf _ (lane_lt hL), hL, Bool.true_and]
      cases hg : goes L with
      | true =>
        obtain ⟨hin, hread, htext⟩ := hgo hg
        rw [brxTarget_word hin ((hmul L).trans hread)]
        simp [htext]
      | false =>
        obtain ⟨-, hwhy⟩ := hstay hg
        by_cases hin : (brxIndex x g L).toNat ≤ head.toNat
        · have hwhy := hwhy.resolve_left (Nat.not_lt.mpr hin)
          cases hread : brxEntry x s g p L with
          | word w =>
            rw [brxTarget_word hin hread]
            simp [hwhy w ((hmul L).symm.trans hread)]
          | prot | pf | replay => rw [brxTarget, hread]; rfl
        · rw [brxTarget_outside (Nat.lt_of_not_le hin)]; rfl
    have hlane {L : Nat} (hL : (guardLanes g p x.guard &&& ~~~g.helpers).getLsbD L = true) : (guardLanes g p x.guard).getLsbD L = true := by
      rw [BitVec.getLsbD_and, Bool.and_eq_true] at hL; exact hL.1
    have hreal : brxBad x s g p head.toNat &&& ~~~g.helpers = 0 := by
      by_contra hne
      obtain ⟨L, hL16, hL⟩ := exists_lane hne
      have hr := hL
      rw [brxBad_real hL16, Bool.and_eq_true] at hr
      rw [BitVec.getLsbD_and, Bool.and_eq_true, hbad L (hlane hr.1), hreal_goes L hr.1] at hL
      exact absurd hL.1 nofun
    have hrun := brx_branches h he hal hhead hjoin hhigh (fun L hL _ =>
      ⟨entry L, (hmul L).trans ((hgoes L (hlane hL)).1 (hreal_goes L hL)).2.1⟩)
    refine ⟨fun hok => ⟨_, hrun.trans (congrArg Host.Outcome.next (if_neg fun hc => ?_)), ?_⟩, fun hne hout hmask =>
      hrun.trans (congrArg Host.Outcome.next (if_pos ⟨hreal, hne, hout, hmask⟩))⟩
    · exact hok.elim hc.2.1 (fun hin => absurd (hin.symm.trans hc.2.2.1) nofun)
    · have hnext : (fun L => if (guardLanes g p x.guard &&& ~~~brxBad x s g p head.toNat).getLsbD L then
          (if brxOutside x g p head.toNat ≠ 0 ∧ (brxBad x s g p head.toNat).getLsbD L then brxTable x p
            else (brxTarget x s g p head.toNat L).getD (brxTable x p), p.depth) else (behind p (.brx x), p.depth)) =
          fun L => (if (guardLanes g p x.guard).getLsbD L && goes L then p.pc + ((entry L).signExtend 64 <<< 2) else behind p (.brx x),
            p.depth) := by
        funext L
        cases hL : (guardLanes g p x.guard).getLsbD L with
        | false => simp [hL]
        | true =>
          have hb := hbad L hL
          cases hg : goes L with
          | false => simp [hL, hb, hg]
          | true =>
            obtain ⟨hin, hread, -⟩ := (hgoes L hL).1 hg
            rw [hg] at hb
            have hgo : (guardLanes g p x.guard &&& ~~~brxBad x s g p head.toNat).getLsbD L = true := by
              rw [BitVec.getLsbD_and, BitVec.getLsbD_not, hL, hb]; simp [lane_lt hL]
            rw [if_pos hgo, if_neg (fun hc => by rw [hb] at hc; exact absurd hc.2 nofun), brxTarget_word hin ((hmul L).trans hread)]
            rfl
      have hdiv := divides_of (i := .brx x) (gd := x.guard) (go := guardLanes g p x.guard) (bad := brxBad x s g p head.toNat)
        (target := fun L => if brxOutside x g p head.toNat ≠ 0 ∧ (brxBad x s g p head.toNat).getLsbD L then brxTable x p
          else (brxTarget x s g p head.toNat L).getD (brxTable x p)) (depth := p.depth)
        (join := if join = 0 then none else some (p.pc + (join.signExtend 64 <<< 2))) (f := id) h.1 hreal rfl
      rw [modGroup_id] at hdiv
      exact hnext ▸ hdiv

end Sys2Proof.Machine
end

section
namespace Sys2Proof.Machine
open Sys2Proof

/-! ## Traps that end a wait (O54) -/

/-- A split of a group outside the handlers has a property. -/
def Held (R : Split → Prop) (gi si : Nat) (s : State) : Prop :=
  ∃ h q, s.group? gi = some h ∧ h.handler = none ∧ h.split? si = some q ∧ R q

/-- The fields that a trap sets (R130, R230). -/
def TrappedSplit (c : Cause) (pc : DWord) (pend : LaneMask) (q : Split) : Prop :=
  q.run = .trapped ∧ q.cause = some c ∧ q.pc = pc ∧ q.pend = pend ∧ q.wait = .none

theorem Held.trapped {c : Cause} {pc : DWord} {pend : LaneMask} {gi si : Nat} {s : State} (h : Held (TrappedSplit c pc pend) gi si s) :
    Trapped s gi si c pc pend := by
  obtain ⟨h, q, hh, -, hq, hR⟩ := h
  exact ⟨h, q, hh, hq, hR⟩

/-- What a trap can do: nothing, the end of a handler, or a mark and a record (R190, R230). -/
theorem takeTrap_cases (gi si : Nat) (c : Cause) (aux : DWord) (mask pend : LaneMask) (s : State) :
    takeTrap gi si c aux mask pend s = s ∨
    (∃ g h, s.group? gi = some g ∧ g.handler = some h ∧ takeTrap gi si c aux mask pend s = stopHandler h gi c aux s) ∨
    ∃ g p, s.group? gi = some g ∧ g.handler = none ∧ g.split? si = some p ∧ takeTrap gi si c aux mask pend s =
      appendRecord (s.groupCtx g) (trapRecord s g p si c aux mask) (s.modSplit gi si (trapMark c pend)) := by
  rcases hg : s.group? gi with _ | g
  · exact .inl (by unfold takeTrap; rw [hg])
  · rcases hh : g.handler with _ | h
    · rcases hp : g.split? si with _ | p
      · refine .inl ?_
        unfold takeTrap
        rw [hg]
        dsimp only
        rw [hh]
        dsimp only
        rw [hp]
      · exact .inr (.inr ⟨g, p, rfl, hh, hp, takeTrap_plain hg hh hp⟩)
    · refine .inr (.inl ⟨g, h, rfl, hh, ?_⟩)
      unfold takeTrap
      rw [hg]
      dsimp only
      rw [hh]

theorem takeTrap_blocks (gi si : Nat) (c : Cause) (aux : DWord) (mask pend : LaneMask) (s : State) :
    (takeTrap gi si c aux mask pend s).blocks = s.blocks := by
  rcases takeTrap_cases gi si c aux mask pend s with h | ⟨g, h', -, -, h⟩ | ⟨g, p, -, -, -, h⟩
  · rw [h]
  · rw [h]; rfl
  · rw [h]; rfl

/-- A trap of any split keeps what a mark keeps. -/
theorem takeTrap_held {R : Split → Prop} {c : Cause} {pend : LaneMask} (hR : ∀ q, R q → R (trapMark c pend q)) {gi si : Nat} (gj sj : Nat)
    (aux : DWord) (mask : LaneMask) {s : State} (h : Held R gi si s) : Held R gi si (takeTrap gj sj c aux mask pend s) := by
  obtain ⟨g, q, hg, hnone, hq, hRq⟩ := h
  rcases takeTrap_cases gj sj c aux mask pend s with h | ⟨g', h', hg', hh', h⟩ | ⟨g', p, hg', hh', hp, h⟩
  · rw [h]; exact ⟨g, q, hg, hnone, hq, hRq⟩
  · have hne : gi ≠ gj := fun he => by
      subst he
      rw [hg] at hg'
      cases hg'
      rw [hnone] at hh'
      cases hh'
    rw [h]
    exact ⟨g, q, (group?_modGroup_other (s := { s with acc := s.acc.map _ }) _ hne).trans hg, hnone, hq, hRq⟩
  · rw [h]
    by_cases he : gi = gj
    · subst he
      refine ⟨g.modSplit sj (trapMark c pend), if q.idx = sj then trapMark c pend q else q, group?_modGroup_same _ hg, hnone, ?_, ?_⟩
      · rw [split?_map (g := g) (F := fun p => if p.idx = sj then trapMark c pend p else p) rfl (fun p => by split <;> rfl), hq]
        rfl
      · split
        · exact hR q hRq
        · exact hRq
    · exact ⟨g, q, (group?_modGroup_other _ he).trans hg, hnone, hq, hRq⟩

/-- The trap of a split marks it. -/
theorem takeTrap_reaches {R R' : Split → Prop} {c : Cause} {pend : LaneMask} (hR : ∀ q, R q → R' (trapMark c pend q)) {gi si : Nat}
    (aux : DWord) (mask : LaneMask) {s : State} (h : Held R gi si s) : Held R' gi si (takeTrap gi si c aux mask pend s) := by
  obtain ⟨g, q, hg, hnone, hq, hRq⟩ := h
  rw [takeTrap_plain hg hnone hq]
  exact ⟨g.modSplit si (trapMark c pend), trapMark c pend q, group?_modGroup_same _ hg, hnone, split?_modSplit _ (fun _ => rfl) hq,
    hR q hRq⟩

/-! ### The barrier's watchdog (R49) -/

/-- A waiter of a barrier takes the watchdog's trap (R49). -/
def trapWaiter (id : Nat) (s : State) (w : Nat × Nat) : State :=
  match (s.group? w.1).bind (fun g => (g.split? w.2).map (fun p => (g, p))) with
  | some (g, p) => takeTrap w.1 w.2 .barwd (BitVec.ofNat 64 id) (p.mask &&& ~~~g.helpers) 0 s
  | none => s

theorem trapWaiter_blocks (id : Nat) (s : State) (w : Nat × Nat) : (trapWaiter id s w).blocks = s.blocks := by
  unfold trapWaiter
  split
  · exact takeTrap_blocks ..
  · rfl

theorem trapWaiter_held {R : Split → Prop} (hR : ∀ q, R q → R (trapMark .barwd 0 q)) {gi si id : Nat} {s : State} (w : Nat × Nat)
    (h : Held R gi si s) : Held R gi si (trapWaiter id s w) := by
  unfold trapWaiter
  split
  · exact takeTrap_held hR _ _ _ _ h
  · exact h

theorem trapWaiter_reaches {pc : DWord} {gi si id : Nat} {s : State} (h : Held (fun q => q.pc = pc) gi si s) :
    Held (TrappedSplit .barwd pc 0) gi si (trapWaiter id s (gi, si)) := by
  have hheld := h
  obtain ⟨g, q, hg, -, hq, -⟩ := h
  unfold trapWaiter
  dsimp only
  rw [hg, Option.bind_some, hq, Option.map_some]
  exact takeTrap_reaches (fun q hq => ⟨rfl, rfl, hq, rfl, rfl⟩) _ _ hheld

/-- A split that waits at a barrier is one of its waiters. -/
theorem mem_barrierWaiters {s : State} {bi id gi si : Nat} {g : Group} {p : Split} (hg : s.group? gi = some g) (hp : g.split? si = some p)
    (hw : waitsAt id p = true) (hspan : g.block ∈ barrierSpan s bi id) : (gi, si) ∈ barrierWaiters s bi id := by
  have hidx : p.idx = si := by simpa using List.find?_some hp
  unfold barrierWaiters
  dsimp only
  refine List.mem_map.mpr ⟨(((g.die * 20 + g.core) * 4 + g.quarter) * 64 + g.place.k, gi, p.idx), List.mem_mergeSort.mpr ?_, by rw [hidx]⟩
  refine List.mem_flatMap.mpr ⟨(g, gi), List.mem_zipIdx_iff_getElem?.mpr hg, ?_⟩
  rw [if_pos (List.contains_iff_mem.mpr hspan)]
  exact List.mem_map.mpr ⟨p, List.mem_filter.mpr ⟨List.mem_of_find?_eq_some hp, hw⟩, rfl⟩

theorem barrierWatchdog_waits {s : State} {bi id : Nat}
    (h : ((s.block? (barrierKeeper s bi id)).map (fun b => b.barCount.get 0 id)).getD 0 ≤ watchdogLimit s bi ∨
      ∃ w ∈ barrierWaiters s bi id, mayTrap s w.1 = false) : exec (.barrierWatchdog bi id) s = .next s := by
  refine congrArg Host.Outcome.next (if_pos (h.imp_right ?_))
  rintro ⟨w, hw, hno⟩ hall
  rw [List.all_eq_true.mp hall w hw] at hno
  cases hno

theorem barrierWatchdog_traps {s : State} {bi id : Nat}
    (hlimit : watchdogLimit s bi < ((s.block? (barrierKeeper s bi id)).map (fun b => b.barCount.get 0 id)).getD 0)
    (hmay : ∀ w ∈ barrierWaiters s bi id, mayTrap s w.1 = true) : ∃ t b, exec (.barrierWatchdog bi id) s = .next t ∧
      t.block? (barrierKeeper s bi id) = some b ∧ b.barCount.get 0 id = 0 ∧
      ∀ gi si g p, s.group? gi = some g → g.handler = none → g.split? si = some p → waitsAt id p = true →
        g.block ∈ barrierSpan s bi id → Trapped t gi si .barwd p.pc 0 := by
  obtain ⟨b, hb⟩ : ∃ b, s.block? (barrierKeeper s bi id) = some b := by
    rcases hb : s.block? (barrierKeeper s bi id) with _ | b
    · rw [hb] at hlimit
      exact absurd hlimit (Nat.not_lt_zero _)
    · exact ⟨b, rfl⟩
  have hrun : exec (.barrierWatchdog bi id) s = .next (((barrierWaiters s bi id).foldl (trapWaiter id) s).modBlock
      (barrierKeeper s bi id) (fun b => { b with barCount := b.barCount.put 0 id 0 })) := by
    refine congrArg Host.Outcome.next (if_neg ?_)
    rintro (hle | hno)
    · exact absurd hlimit (Nat.not_lt.mpr hle)
    · exact hno (List.all_eq_true.mpr hmay)
  have hblocks : ((barrierWaiters s bi id).foldl (trapWaiter id) s).blocks = s.blocks :=
    foldl_keeps (fun t : State => t.blocks = s.blocks) _ (fun t w ht => (trapWaiter_blocks ..).trans ht) _ s rfl
  refine ⟨_, { b with barCount := b.barCount.put 0 id 0 }, hrun, ?_, ?_, fun gi si g p hg hnone hp hw hspan => ?_⟩
  · rw [State.block?, State.modBlock, modNth_get, if_pos rfl, hblocks]
    exact congrArg (Option.map _) hb
  · exact (Tab.get_put 0 id id 0 b.barCount).trans (if_pos rfl)
  · have hheld : Held (TrappedSplit .barwd p.pc 0) gi si ((barrierWaiters s bi id).foldl (trapWaiter id) s) :=
      foldl_reaches (P := Held (fun q => q.pc = p.pc) gi si) (fun t w ht => trapWaiter_held (fun _ h => h) w ht)
        (fun t w ht => trapWaiter_held (fun q h => ⟨rfl, rfl, h.2.2.1, rfl, rfl⟩) w ht) (fun t ht => trapWaiter_reaches ht)
        (mem_barrierWaiters hg hp hw hspan) ⟨g, p, hg, hnone, hp, rfl⟩
    exact Held.trapped hheld

/-! ### Traps of accesses that are not performed (R130, R139) -/

/-- Its group and split stand where they stood, and the blocks, launches and contexts are as before. -/
structure Unmoved (s : State) (gi : Nat) (g : Group) (si : Nat) (pc : DWord) (t : State) : Prop where
  stands : ∃ h q, t.group? gi = some h ∧ h.handler = g.handler ∧ h.block = g.block ∧ h.split? si = some q ∧ q.pc = pc
  blocks : t.blocks = s.blocks
  launches : t.launches = s.launches
  ctxs : t.ctxs = s.ctxs

theorem unmoved_refl {s : State} {gi si : Nat} {g : Group} {p : Split} (hg : s.group? gi = some g) (hp : g.split? si = some p) :
    Unmoved s gi g si p.pc s := ⟨⟨g, p, hg, rfl, rfl, hp, rfl⟩, rfl, rfl, rfl⟩

/-- A change of groups that keeps handlers, blocks and the places of splits. -/
theorem Unmoved.modGroup {s t : State} {gi si gj : Nat} {g : Group} {pc : DWord} {f : Group → Group} {F : Split → Split}
    (hkeep : ∀ h, (f h).handler = h.handler ∧ (f h).block = h.block ∧ (f h).splits = h.splits.map F)
    (hF : ∀ p, (F p).idx = p.idx ∧ (F p).pc = p.pc) (h : Unmoved s gi g si pc t) : Unmoved s gi g si pc (t.modGroup gj f) := by
  obtain ⟨⟨u, q, hu, hhandler, hblock, hq, hpc⟩, hblocks, hlaunches, hctxs⟩ := h
  refine ⟨?_, hblocks, hlaunches, hctxs⟩
  by_cases he : gi = gj
  · subst he
    obtain ⟨hh, hb, hsplits⟩ := hkeep u
    refine ⟨f u, F q, group?_modGroup_same f hu, hh.trans hhandler, hb.trans hblock, ?_, (hF q).2.trans hpc⟩
    rw [split?_map hsplits (fun p => (hF p).1), hq]
    rfl
  · exact ⟨u, q, (group?_modGroup_other f he).trans hu, hhandler, hblock, hq, hpc⟩

theorem Unmoved.endAccess {s t : State} {gi si : Nat} {g : Group} {pc : DWord} (a : Access) (h : Unmoved s gi g si pc t) :
    Unmoved s gi g si pc (endAccess a t) :=
  h.modGroup (F := fun p => { p with holds := p.holds.filter (fun h => h.op != a.id) }) (fun _ => ⟨rfl, rfl, rfl⟩)
    (fun _ => ⟨rfl, rfl⟩)

theorem Unmoved.accesses {s t : State} {gi si : Nat} {g : Group} {pc : DWord} (as : List Access) (h : Unmoved s gi g si pc t) :
    Unmoved s gi g si pc { t with acc := as } := ⟨h.stands, h.blocks, h.launches, h.ctxs⟩

theorem Unmoved.sweep {s t : State} {gi si gj : Nat} {g : Group} {pc : DWord} (h : Unmoved s gi g si pc t) :
    Unmoved s gi g si pc (sweep gj t) :=
  (h.accesses _).modGroup (F := id) (fun _ => ⟨rfl, rfl, (List.map_id _).symm⟩) (fun _ => ⟨rfl, rfl⟩)

theorem Unmoved.dropUnperformed {s t : State} {gi si : Nat} {g : Group} {pc : DWord} (id : Nat) (h : Unmoved s gi g si pc t) :
    Unmoved s gi g si pc (dropUnperformed id t) := by
  unfold Machine.dropUnperformed
  dsimp only
  split
  · exact h.accesses _
  · exact Unmoved.sweep (Unmoved.endAccess _ (h.accesses _))

theorem Unmoved.dropParkedAt {s t : State} {gi si gj sj : Nat} {g : Group} {pc pc' : DWord} (h : Unmoved s gi g si pc t) :
    Unmoved s gi g si pc (dropParkedAt gj sj pc' t) :=
  Unmoved.sweep (foldl_keeps (Unmoved s gi g si pc) _ (fun _ a ht => Unmoved.endAccess a ht) _ _ (h.accesses _))

/-- The trap of a split that stands where it stood, and its record (R130, R139, R230, R231). -/
theorem Unmoved.trapped {s t : State} {gi si : Nat} {g : Group} {pc : DWord} {x : Ctx} {c : Cause} {aux : DWord} {m : LaneMask}
    (h : Unmoved s gi g si pc t) (hnone : g.handler = none) (hx : s.ctx? (s.groupCtx g) = some x) :
    ∃ d r, Trapped (takeTrap gi si c aux m m t) gi si c pc m ∧ (takeTrap gi si c aux m m t).ctx? (s.groupCtx g) = some d ∧
      r ∈ d.traps ∧ r.cause = c ∧ r.aux = aux ∧ r.mask = m ∧ r.pc = pc := by
  obtain ⟨⟨u, q, hu, hhandler, hblock, hq, hpc⟩, hblocks, hlaunches, hctxs⟩ := h
  have hheld : Held (fun q => q.pc = pc) gi si t := ⟨u, q, hu, hhandler.trans hnone, hq, hpc⟩
  have hnum : t.groupCtx u = s.groupCtx g := by
    simp only [State.groupCtx, State.groupLaunch?, State.block?, State.launch?, hblock, hblocks, hlaunches]
  have htrap := takeTrap_plain (c := c) (aux := aux) (mask := m) (pend := m) hu (hhandler.trans hnone) hq
  obtain ⟨r, hr, he⟩ := mem_withTrap (c := x) (q := { trapRecord t u q si c aux m with cycle := t.cycle.toNat }) (.inl rfl)
  refine ⟨{ x with traps := x.withTrap { trapRecord t u q si c aux m with cycle := t.cycle.toNat } }, r, (takeTrap_reaches (R' := TrappedSplit c pc m) (fun q hq => ⟨rfl, rfl, hq, rfl, rfl⟩) aux m hheld).trapped, ?_, hr, ?_⟩
  · rw [htrap, hnum]
    refine (ctx?_modCtx_same _ _ ?_).trans ?_
    · exact fun _ => rfl
    · rw [show (t.modSplit gi si (trapMark c m)).ctx? (s.groupCtx g) = s.ctx? (s.groupCtx g) by rw [State.ctx?, State.ctx?, ← hctxs]; rfl,
        hx]
      rfl
  · rw [he]; exact ⟨rfl, rfl, rfl, hpc⟩

/-- The lanes of an access that are not performed (R130). -/
def unperformed (a : Access) : LaneMask := maskOf (fun L => a.lanes.any (fun l => l.stage != .done && l.lane == L))

theorem emptyLineTimeout_waits {s : State} {id from_ : Nat} {a : Access} (ha : s.access? id = some a) (hf : a.waitFrom = some from_)
    (h : s.now < from_ + emptyLimit s a.group ∨ mayTrap s a.group = false) :
    exec (.emptyLineTimeout id) s = .next s := by
  refine congrArg Host.Outcome.next ?_
  rw [ha]
  dsimp only
  rw [hf]
  dsimp only
  refine if_pos ?_
  rcases h with h | h
  · simp [h]
  · simp [h]

theorem emptyLineTimeout_traps {s : State} {id from_ : Nat} {a : Access} {g : Group} {p : Split} {c : Ctx} (ha : s.access? id = some a)
    (hf : a.waitFrom = some from_) (hdone : a.done = false) (hg : s.group? a.group = some g) (hnone : g.handler = none)
    (hp : g.split? a.split = some p) (hc : s.ctx? (s.groupCtx g) = some c) (hdue : from_ + emptyLimit s a.group ≤ s.now)
    (hmay : mayTrap s a.group = true) : ∃ t d r, exec (.emptyLineTimeout id) s = .next t ∧
      Trapped t a.group a.split .emptyto p.pc (unperformed a) ∧ t.ctx? (s.groupCtx g) = some d ∧ r ∈ d.traps ∧
      r.cause = .emptyto ∧ r.mask = unperformed a ∧ r.pc = p.pc := by
  have hmask : maskOf (fun L => (a.lanes.filter (fun l => l.stage != .done)).any (fun l => l.lane == L)) = unperformed a := by
    simp only [List.any_filter, unperformed]
  obtain ⟨d, r, htrap, hd, hr, hcause, -, hm, hpc⟩ := ((unmoved_refl hg hp).dropUnperformed id).trapped (c := .emptyto)
    (aux := lowest ((a.lanes.filter (fun l => l.stage != .done)).map (fun l => BitVec.ofNat 64 (l.addr / 128 * 128))))
    (m := unperformed a) hnone hc
  refine ⟨_, d, r, congrArg Host.Outcome.next ?_, htrap, hd, hr, hcause, hm, hpc⟩
  rw [ha]
  dsimp only
  rw [hf]
  dsimp only
  refine (if_neg ?_).trans ?_
  · simp only [hdone, hmay, Bool.false_or, Bool.not_true, Bool.or_false, decide_eq_true_eq, not_lt]
    exact hdue
  · rw [hmask]

/-! ### The page service (R138 to R140) -/

/-- What the service's answer makes of a split that waits for it (R138, R139). -/
def pageAnswered (gi si : Nat) (g : Group) (p : Split) (va : DWord) (s : State) : PageAnswer → State
  | .mapped => (mapPage (s.groupCtx g) va.toNat s).modSplit gi si (fun p => { p with wait := .none })
  | .declined => if mayTrap s gi then declineReplay gi si g p va s else s

theorem pageFaultService_replay {s : State} {gi si : Nat} {g : Group} {p : Split} {va : DWord} (hg : s.group? gi = some g) (hsi : si < 16)
    (hp : g.split? si = some p) (hw : p.wait = .replay va) (ans : PageAnswer) :
    exec (.pageFaultService gi si ans) s = .next (pageAnswered gi si g p va s ans) := by
  refine congrArg Host.Outcome.next ?_
  rw [hg]
  refine (if_neg (Nat.not_le.mpr hsi)).trans ?_
  rw [hp]
  dsimp only
  rw [hw]
  cases ans <;> rfl

theorem mem_addNew_iff {α : Type} [DecidableEq α] {a b : α} {l : List α} : b ∈ addNew a l ↔ b ∈ l ∨ b = a := by
  unfold addNew
  split
  · exact ⟨.inl, fun h => h.elim id (fun he => he ▸ ‹_›)⟩
  · rw [List.mem_append, List.mem_singleton]

theorem mapPage_ctx {s : State} {cn va : Nat} {c : Ctx} {m : Mapping} (hc : s.ctx? cn = some c) (hm : mapFind c.maps va = some m) :
    (mapPage cn va s).ctx? cn = some { c with resident := addNew (m.page va) c.resident } := by
  refine (ctx?_modCtx_same s cn fun x => ?_).trans ?_
  · split <;> rfl
  · rw [hc, Option.map_some, hm]

theorem pageFaultService_declines {s : State} {gi si : Nat} {g : Group} {p : Split} {va : DWord} {c : Ctx} (hg : s.group? gi = some g)
    (hsi : si < 16) (hp : g.split? si = some p) (hw : p.wait = .replay va) (hc : s.ctx? (s.groupCtx g) = some c) (hnone : g.handler = none)
    (hmay : mayTrap s gi = true) : ∃ t d r, exec (.pageFaultService gi si .declined) s = .next t ∧
      Trapped t gi si .pf p.pc ((if p.pend = 0 then p.act else p.pend) &&& ~~~g.helpers) ∧ t.ctx? (s.groupCtx g) = some d ∧
      r ∈ d.traps ∧ r.cause = .pf ∧ r.aux = va ∧ r.mask = (if p.pend = 0 then p.act else p.pend) &&& ~~~g.helpers := by
  obtain ⟨d, r, htrap, hd, hr, hcause, haux, hm, -⟩ := (Unmoved.dropParkedAt (gj := gi) (sj := si) (pc' := p.pc)
    (unmoved_refl hg hp)).trapped (c := .pf) (aux := va) (m := (if p.pend = 0 then p.act else p.pend) &&& ~~~g.helpers) hnone hc
  exact ⟨_, d, r, (pageFaultService_replay hg hsi hp hw .declined).trans (congrArg Host.Outcome.next (if_pos hmay)), htrap, hd, hr,
    hcause, haux, hm⟩

end Sys2Proof.Machine
end

section
namespace Sys2Proof.Machine
open Sys2Proof

/-! ## Drains and their holders (O54, R157) -/

theorem granule_num (s : State) (n : Nat) : (s.granule n).num = n := by
  unfold State.granule
  rcases h : s.granules.find? (fun g => g.num == n) with _ | g
  · rw [h]; rfl
  · rw [h]; simpa using List.find?_some h

theorem find?_putGranule (g : Granule) : ∀ gs : List Granule, (putGranule g gs).find? (fun h => h.num == g.num) = some g
  | [] => by simp [putGranule]
  | h :: gs => by
    unfold putGranule
    split
    · simp
    · split
      · simp
      · rw [List.find?_cons_of_neg (by simpa using ‹¬h.num = g.num›), find?_putGranule g gs]

theorem granule_setGranule {s : State} {g : Granule} {n : Nat} (hn : g.num = n) : (s.setGranule g).granule n = g := by
  subst hn
  rw [State.granule, State.setGranule, find?_putGranule]
  rfl

theorem granule_congr {s t : State} (h : t.granules = s.granules) (n : Nat) : t.granule n = s.granule n := by
  rw [State.granule, State.granule, h]

/-- What a holder core does of a drain: its lines of the granule change, the granules do not (R157). -/
theorem drainLines_lines (die core n : Nat) (c : Option LineClass) (s : State) :
    (drainLines die core n c s).granules = s.granules ∧ (drainLines die core n c s).l1 = s.l1.map (fun l =>
      if (l.die == die && l.core == core && l.inGranule n) = true then
        { l with cls := c, st := match l.st with
          | .m => .e
          | .o => .s
          | st => st }
      else l) :=
  foldl_keeps (fun t : State => t.granules = s.granules ∧ t.l1 = s.l1.map (fun l =>
      if (l.die == die && l.core == core && l.inGranule n) = true then
        { l with cls := c, st := match l.st with
          | .m => .e
          | .o => .s
          | st => st }
      else l)) (fun t (l : L1Line) => recordCopies l.line t) (fun _ _ h => h) _ _ ⟨rfl, rfl⟩

theorem drainHolders_granules (n : Nat) (c : GranClass) (as : List Agent) (s : State) :
    (drainHolders n c as s).granules = s.granules :=
  foldl_keeps (fun t : State => t.granules = s.granules) _ (fun t a h => by
    split
    · exact (drainLines_lines ..).1.trans h
    · exact h) as s rfl

/-- No line of a granule stays dirty in a core that acknowledges (R157). -/
theorem drainLines_clean {die core n : Nat} {c : Option LineClass} {s : State} {l : L1Line} (hl : l ∈ (drainLines die core n c s).l1)
    (hdie : l.die = die) (hcore : l.core = core) (hin : l.inGranule n = true) : l.st ≠ .m ∧ l.st ≠ .o := by
  rw [(drainLines_lines die core n c s).2] at hl
  obtain ⟨k, -, rfl⟩ := List.mem_map.mp hl
  by_cases hk : (k.die == die && k.core == core && k.inGranule n) = true
  · rw [if_pos hk]
    cases k.st <;> exact ⟨nofun, nofun⟩
  · rw [if_neg hk] at hdie hcore hin
    exact absurd (by simp [hdie, hcore, hin]) hk

/-- A drain that has not ended: that of the granule, or one that an access opens (R157). -/
def OpenDrain (s : State) (n : Nat) (d : Drain) : Prop :=
  (s.granule n).drain = some d ∨ (s.granule n).drain = none ∧ ∃ x, drainGoal s n = some x ∧
    d = { to_ := (nextClass (s.granule n).cls x.2.1 x.2.2).1, by_ := some x, asked := [], stopped := [] }

/-- A drain after its request has reached a holder (R157 steps 1 to 3). -/
def drainAsked (s : State) (n : Nat) (holder : Agent) (d : Drain) : Drain :=
  if (s.granule n).holders.contains holder then
    { d with asked := addNew holder d.asked, stopped := if quiet s holder n then addNew holder d.stopped else d.stopped }
  else d

/-- The request of a drain at a holder, in two steps: the drain's record, and the holder's lines. -/
theorem drainRequest_eq {s : State} {n : Nat} {holder : Agent} {d : Drain} (hd : OpenDrain s n d) :
    exec (.drainRequest n holder) s = .next (
      if (s.granule n).holders.contains holder && quiet s holder n then
        drainHolders n d.to_ [holder] (s.setGranule { s.granule n with drain := some (drainAsked s n holder d) })
      else s.setGranule { s.granule n with drain := some (drainAsked s n holder d) }) := by
  have hopen : ((s.granule n).drain.orElse (fun _ => (drainGoal s n).map (fun x =>
      { to_ := (nextClass (s.granule n).cls x.2.1 x.2.2).1, by_ := some x, asked := [], stopped := [] }))) = some d := by
    rcases hd with hd | ⟨hd, x, hx, rfl⟩
    · rw [hd]; rfl
    · rw [hd, hx]; rfl
  refine congrArg Host.Outcome.next ?_
  dsimp only
  rw [hopen]
  dsimp only [drainAsked]
  cases (s.granule n).holders.contains holder with
  | false => rfl
  | true => cases quiet s holder n <;> rfl

theorem mem_drainAsked {s : State} {n : Nat} {holder : Agent} {d : Drain} (a : Agent) :
    (a ∈ (drainAsked s n holder d).asked ↔ a ∈ d.asked ∨ a = holder ∧ holder ∈ (s.granule n).holders) ∧
    (a ∈ (drainAsked s n holder d).stopped ↔
      a ∈ d.stopped ∨ a = holder ∧ holder ∈ (s.granule n).holders ∧ quiet s holder n = true) := by
  unfold drainAsked
  by_cases hholder : holder ∈ (s.granule n).holders
  · rw [if_pos (List.contains_iff_mem.mpr hholder)]
    dsimp only
    split
    · rw [mem_addNew_iff, mem_addNew_iff]; simp [*]
    · rw [mem_addNew_iff]; simp [*]
  · rw [if_neg (mt List.contains_iff_mem.mp hholder)]
    simp [hholder]

theorem drainAsked_goal (s : State) (n : Nat) (holder : Agent) (d : Drain) :
    (drainAsked s n holder d).to_ = d.to_ ∧ (drainAsked s n holder d).by_ = d.by_ := by
  unfold drainAsked
  split <;> exact ⟨rfl, rfl⟩

theorem drainRequest_asks {s : State} {n : Nat} {holder : Agent} {d : Drain} (hd : OpenDrain s n d) :
    ∃ t e, exec (.drainRequest n holder) s = .next t ∧ t = { s with granules := t.granules, l1 := t.l1, dir := t.dir } ∧
      t.granule n = { s.granule n with drain := some e } ∧ e.to_ = d.to_ ∧ e.by_ = d.by_ ∧
      (∀ a, a ∈ e.asked ↔ a ∈ d.asked ∨ a = holder ∧ holder ∈ (s.granule n).holders) ∧
      (∀ a, a ∈ e.stopped ↔ a ∈ d.stopped ∨ a = holder ∧ holder ∈ (s.granule n).holders ∧ quiet s holder n = true) ∧
      ∀ die core, holder = .core die core → holder ∈ (s.granule n).holders → quiet s holder n = true →
        ∀ l ∈ t.l1, l.die = die → l.core = core → l.inGranule n = true → l.st ≠ .m ∧ l.st ≠ .o := by
  obtain ⟨hto, hby⟩ := drainAsked_goal s n holder d
  have hread := granule_setGranule (s := s) (g := { s.granule n with drain := some (drainAsked s n holder d) }) (granule_num s n)
  refine ⟨_, drainAsked s n holder d, drainRequest_eq hd, ?_, ?_, hto, hby, fun a => (mem_drainAsked a).1, fun a => (mem_drainAsked a).2, ?_⟩
  · split
    · exact HomesOnly.trans (s := s) (t := s.setGranule _) rfl (drainHolders_homes ..)
    · rfl
  · split
    · exact (granule_congr (drainHolders_granules ..) n).trans hread
    · exact hread
  · rintro die core rfl hmem hquiet l hl
    rw [if_pos (by simp [hmem, hquiet])] at hl
    exact drainLines_clean hl

theorem drainPoint_waits {s : State} {n : Nat} {d : Drain} (hd : (s.granule n).drain = some d)
    (h : d.by_ = none ∨ ∃ a ∈ (s.granule n).holders, a ∉ d.stopped) : exec (.drainPoint n) s = .next s := by
  refine congrArg Host.Outcome.next ?_
  dsimp only
  rw [hd]
  dsimp only
  rcases h with h | ⟨a, ha, hno⟩
  · rw [h]
  · cases d.by_ with
    | none => rfl
    | some x => exact if_neg fun hall => hno (List.contains_iff_mem.mp (List.all_eq_true.mp hall a ha))

/-- The granule's record after a drain point (R157 steps 4 and 5). -/
def flippedGranule (s : State) (n : Nat) (to_ : GranClass) (w : Waiter) (gr : Granule) : Granule :=
  { gr with cls := to_, holders := lineHolders s n, drain := none, held := w :: (arrivals s gr).filter (fun x => x != w) }

theorem drainPoint_flips {s : State} {n : Nat} {d : Drain} {w : Waiter} {a : Agent} {wr : Bool} (hd : (s.granule n).drain = some d)
    (hby : d.by_ = some (w, a, wr)) (hall : ∀ h ∈ (s.granule n).holders, h ∈ d.stopped) : ∃ t, exec (.drainPoint n) s = .next t ∧
      t = { s with granules := t.granules, l1 := t.l1, dir := t.dir } ∧
      (t.granule n).cls = (if (nextClass (s.granule n).cls a wr).2 then (nextClass (s.granule n).cls a wr).1 else d.to_) ∧
      (t.granule n).drain = none ∧ (t.granule n).holders = lineHolders t n ∧ (t.granule n).held.head? = some w := by
  generalize hto : (if (nextClass (s.granule n).cls a wr).2 then (nextClass (s.granule n).cls a wr).1 else d.to_) = to_
  generalize hu : drainHolders n to_ (s.granule n).holders s = u
  have hrun : exec (.drainPoint n) s = .next (u.setGranule (flippedGranule u n to_ w (s.granule n))) := by
    refine congrArg Host.Outcome.next ?_
    dsimp only
    rw [hd]
    dsimp only
    rw [hby]
    dsimp only
    rw [hto, hu]
    exact if_pos (List.all_eq_true.mpr fun h hh => List.contains_iff_mem.mpr (hall h hh))
  have hhomes : HomesOnly s u := hu ▸ drainHolders_homes ..
  refine ⟨_, hrun, hhomes.trans (u := u.setGranule _) rfl, ?_⟩
  rw [granule_setGranule (g := flippedGranule u n to_ w (s.granule n)) (granule_num s n)]
  exact ⟨rfl, rfl, rfl, rfl⟩

/-! ## Remote writes (R141, R252) -/

/-- What turns away a remote write in device memory for now: a reservation, or the host's copy (R252). -/
def remoteBarred (s : State) (cn : Nat) (va : DWord) (pa : Nat) : Prop :=
  reservedFor s cn (va.toNat / 32) (.hbm, 0, pa / 128) = true ∨ hostHolds s pa = true

theorem remoteBarred_iff {s : State} {cn : Nat} {va : DWord} {pa n : Nat} :
    ((spanKeys s cn .hbm pa n).any (reservedFor s cn (va.toNat / 32)) || hostHolds s pa) = true ↔ remoteBarred s cn va pa := by
  rw [show spanKeys s cn .hbm pa n = [(.hbm, 0, pa / 128)] from rfl, Bool.or_eq_true, List.any_cons, List.any_nil, Bool.or_false]
  rfl

/-- The state after a remote write whose access the home has granted (R252). -/
def remoteLanded (cn : Nat) (va : DWord) (pa : Nat) (bytes : List Byte) (u : State) : State :=
  let t := wakeEvents pa bytes.length (u.memPutBytes pa bytes)
  { t with engines := t.engines.map (fun o => if fulfils cn (va.toNat / 32) o then noteRemote va.toNat bytes.length o else o) }

theorem remoteLanded_retries (cn : Nat) (va : DWord) (pa : Nat) (bytes : List Byte) (u : State) :
    (remoteLanded cn va pa bytes u).retries = u.retries := by
  obtain ⟨gs, hgs⟩ := wakeEvents_groups pa bytes.length (u.memPutBytes pa bytes)
  obtain ⟨m, hm⟩ := memPutBytes_mem bytes pa u
  rw [remoteLanded, hgs, hm]

/-- A remote write that lands is performed with its bytes in memory (R252). -/
theorem remoteAnswer_lands {s u : State} {port cn : Nat} {va : DWord} {bytes : List Byte} {pa : Nat}
    (hx : xlate s (ctxDie s cn) .second cn va .w = .ok .hbm pa) (hfree : ¬remoteBarred s cn va pa)
    (hu : claimNow s (.parnar port) pa true = some u) : ∃ t, remoteAnswer port cn va bytes s = .done t ∧
      (∀ a, t.memGet a = if pa ≤ a ∧ a < pa + bytes.length then bytes.getD (a - pa) 0 else s.memGet a) ∧ t.retries = s.retries := by
  have hwrite : remoteWrite port cn va bytes s = some (remoteLanded cn va pa bytes u) := by
    unfold remoteWrite
    rw [hx]
    dsimp only
    rw [show (Space.hbm == Space.window) = false from rfl, show (Space.hbm == Space.hbm) = true from rfl, Bool.true_and,
      Bool.false_and, Bool.or_false, if_neg (mt remoteBarred_iff.mp hfree), hu]
    rfl
  have hhomes : HomesOnly s u := claimAs_homes hu
  refine ⟨remoteLanded cn va pa bytes u, ?_, stores_of_mem (claimNow_mem hu) (wakeEvents_mem ..),
    (remoteLanded_retries ..).trans (by rw [hhomes])⟩
  unfold remoteAnswer
  rw [hx]
  dsimp only
  rw [hwrite]
  rfl

theorem remoteAnswer_barred {s : State} {port cn : Nat} {va : DWord} {bytes : List Byte} {pa : Nat}
    (hx : xlate s (ctxDie s cn) .second cn va .w = .ok .hbm pa) (hbar : remoteBarred s cn va pa) :
    remoteAnswer port cn va bytes s = .waits := by
  have hwrite : remoteWrite port cn va bytes s = none := by
    unfold remoteWrite
    rw [hx]
    dsimp only
    rw [show (Space.hbm == Space.window) = false from rfl, show (Space.hbm == Space.hbm) = true from rfl, Bool.true_and,
      Bool.false_and, Bool.or_false, if_pos (remoteBarred_iff.mpr hbar)]
  unfold remoteAnswer
  rw [hx]
  dsimp only
  rw [hwrite]
  rfl

theorem remoteAnswer_denied {s : State} {port cn : Nat} {va : DWord} {bytes : List Byte}
    (hx : xlate s (ctxDie s cn) .second cn va .w = .prot) : remoteAnswer port cn va bytes s = .denied := by
  unfold remoteAnswer
  rw [hx]

theorem remoteAnswer_misses {s : State} {port cn : Nat} {va : DWord} {bytes : List Byte}
    (hx : xlate s (ctxDie s cn) .second cn va .w = .pf ∨ xlate s (ctxDie s cn) .second cn va .w = .replay) :
    remoteAnswer port cn va bytes s = .refused := by
  unfold remoteAnswer
  rcases hx with hx | hx
  · rw [hx]
  · rw [hx]

/-- What the target's answer to a remote write makes of the state (R141, R252). -/
def remoteWritten (port cn : Nat) (va : DWord) (bytes : List Byte) (v : State) : RemoteAnswer → State
  | .done t => t
  | .denied => v
  | .waits => remoteWaits port cn va (keepRemote port cn va bytes 0 0 v)
  | .refused => keepRemote port cn va bytes 1 (retryDue v) v

/-- A remote write through a port that is up. -/
theorem remoteWrite_eq {s : State} {port cn : Nat} {va : DWord} {bytes : List Byte} (hne : bytes ≠ [])
    (hfit : va.toNat % 32 + bytes.length ≤ 32) (hup : port ∉ s.portsDown) {r : RemoteAnswer}
    (hr : remoteAnswer port cn va bytes (s.countFlit (.port port) true) = r) :
    exec (.remoteWrite port cn va bytes) s = .next (remoteWritten port cn va bytes (s.countFlit (.port port) true) r) := by
  refine congrArg Host.Outcome.next ((if_neg ?_).trans ?_)
  · rintro (h | h | h)
    · exact hne h
    · omega
    · exact hup (List.contains_iff_mem.mp h)
  · dsimp only
    rw [hr]
    cases r <;> rfl

theorem retryDue_countFlit (s : State) (l : Link) (received : Bool) : retryDue (s.countFlit l received) = retryDue s := by
  rw [countFlit_messages s l received]; rfl

theorem memGet_countFlit (s : State) (l : Link) (received : Bool) (a : Nat) : (s.countFlit l received).memGet a = s.memGet a :=
  memGet_of_mem (by rw [countFlit_messages s l received]) a

theorem retries_countFlit (s : State) (l : Link) (received : Bool) : (s.countFlit l received).retries = s.retries := by
  rw [countFlit_messages s l received]

/-- What the target's answer to a write that is sent again makes of the state (R141). -/
def remoteRetried (port cn n : Nat) (va : DWord) (k : Retry) (s : State) : RemoteAnswer → State
  | .done t => { t with retries := t.retries.erase k }
  | .denied => { s with retries := s.retries.erase k }
  | .waits => remoteWaits port cn va s
  | .refused => if 63 ≤ n then { s with retries := s.retries.erase k } else { s with retries := s.retries.map (fun q =>
      if q = k then { q with refusals := n + 1, due := retryDue s } else q) }

/-- A write that is sent again (R141). -/
theorem remoteRetry_eq {s : State} {port cn n : Nat} {va : DWord} {bytes : List Byte} {k : Retry}
    (hk : s.retries.find? (fun r => r.port == port && r.ctx == cn && r.va == va && r.bytes == bytes && r.refusals == n) = some k)
    (hdue : k.due ≤ s.now) {r : RemoteAnswer} (hr : remoteAnswer port cn va bytes s = r) :
    exec (.remoteRetry port cn va bytes n) s = .next (remoteRetried port cn n va k s r) := by
  refine congrArg Host.Outcome.next ?_
  rw [hk]
  refine (if_neg (Nat.not_lt.mpr hdue)).trans ?_
  rw [hr]
  cases r with
  | refused => exact if_congr ⟨fun h => by omega, fun h => by omega⟩ rfl rfl
  | _ => rfl

theorem remoteRetry_early {s : State} {port cn n : Nat} {va : DWord} {bytes : List Byte} {k : Retry}
    (hk : s.retries.find? (fun r => r.port == port && r.ctx == cn && r.va == va && r.bytes == bytes && r.refusals == n) = some k)
    (hearly : s.now < k.due) : exec (.remoteRetry port cn va bytes n) s = .next s := by
  refine congrArg Host.Outcome.next ?_
  rw [hk]
  exact if_pos hearly

/-- Settles O54: each wait's end through the equation of its event; the watchdog's fold keeps every waiter at its instruction until its
own trap. -/
theorem waitsEnd : Obligations.WaitsEnd := by
  intro s
  refine ⟨fun bi id => ⟨barrierWatchdog_waits, barrierWatchdog_traps⟩,
    fun id a from_ g p c ha hf hdone hg hnone hp hc => ⟨emptyLineTimeout_waits ha hf,
      emptyLineTimeout_traps ha hf hdone hg hnone hp hc⟩,
    fun gi si g p va c hg hsi hp hw hc => ⟨fun m hm => ?_, fun hmay => ?_, pageFaultService_declines hg hsi hp hw hc⟩,
    fun gi g o va hg hmiss => ?_,
    fun n holder => ⟨fun d hd => drainRequest_asks hd, fun d hd h => drainPoint_waits hd h,
      fun d w a wr hd hby hall => drainPoint_flips hd hby hall⟩,
    fun port cn va bytes hne hfit hup => ⟨?_, ?_, ?_, ?_, fun n k hk => ⟨remoteRetry_early hk, fun hdue => ⟨?_, ?_, ?_, ?_⟩⟩⟩⟩
  · refine ⟨_, { c with resident := addNew (m.page va.toNat) c.resident }, pageFaultService_replay hg hsi hp hw .mapped, rfl,
      mapPage_ctx hc hm, rfl, fun v => mem_addNew_iff.trans or_comm, ?_⟩
    exact splitNow_modSplit hg hp (fun _ => rfl)
  · exact (pageFaultService_replay hg hsi hp hw .declined).trans (congrArg Host.Outcome.next (if_neg (by simp [hmay])))
  · refine congrArg Host.Outcome.next ?_
    rw [hg]
    refine (if_pos (Nat.le_refl 16)).trans ?_
    rw [hmiss]
  · intro pa u hx hfree hu
    obtain ⟨t, ht, hmem, hretries⟩ := remoteAnswer_lands (bytes := bytes) hx hfree hu
    refine ⟨t, remoteWrite_eq hne hfit hup ht, fun a => ?_, hretries.trans (retries_countFlit ..)⟩
    rw [hmem, memGet_countFlit]
  · intro hx
    rw [remoteWrite_eq hne hfit hup (remoteAnswer_misses hx), remoteWritten, retryDue_countFlit]
  · exact fun hx => remoteWrite_eq hne hfit hup (remoteAnswer_denied hx)
  · exact fun pa hx hbar => remoteWrite_eq hne hfit hup (remoteAnswer_barred hx hbar)
  · intro pa u hx hfree hu
    obtain ⟨t, ht, hmem, hretries⟩ := remoteAnswer_lands (bytes := bytes) hx hfree hu
    exact ⟨_, remoteRetry_eq hk hdue ht, hmem, congrArg (·.erase k) hretries⟩
  · exact fun hx => remoteRetry_eq hk hdue (remoteAnswer_denied hx)
  · exact fun pa hx hbar => remoteRetry_eq hk hdue (remoteAnswer_barred hx hbar)
  · exact fun hx => remoteRetry_eq hk hdue (remoteAnswer_misses hx)

end Sys2Proof.Machine
end

section
namespace Sys2Proof.Machine
open Sys2Proof Sys2Proof.Num

/-! ## The codes of f32 (R103, R106) -/

/-- The fields of an f32 code. -/
def expOf (a : Word) : BitVec 8 := a.extractLsb' 23 8
def fracOf (a : Word) : BitVec 23 := a.extractLsb' 0 23
def negOf (a : Word) : Bool := a.getLsbD 31
def nanOf (a : Word) : Bool := expOf a == 0xFF#8 && fracOf a != 0
def signalsOf (a : Word) : Bool := nanOf a && !a.getLsbD 22
/-- The code without its sign. -/
def magOf (a : Word) : Nat := (a.extractLsb' 0 31).toNat

theorem magOf_eq (a : Word) : magOf a = (expOf a).toNat * 2 ^ 23 + (fracOf a).toNat := by
  simp only [magOf, expOf, fracOf, BitVec.extractLsb'_toNat, Nat.shiftRight_eq_div_pow]
  omega

theorem word_magOf (a : Word) : a.toNat = (if negOf a then 2 ^ 31 else 0) + magOf a := by
  have hbit : negOf a = decide (a.toNat / 2 ^ 31 % 2 = 1) := by
    rw [negOf, BitVec.getLsbD, Nat.testBit_eq_decide_div_mod_eq]
  have hlt := a.isLt
  rw [hbit, magOf, BitVec.extractLsb'_toNat, Nat.shiftRight_eq_div_pow]
  by_cases h : a.toNat / 2 ^ 31 % 2 = 1
  · rw [if_pos (decide_eq_true h)]; omega
  · rw [if_neg (by simpa using h)]; omega

/-- The value of an f32 code, by its fields. -/
theorem dec_f32 (a : Word) : dec f32 a.toNat =
    if (expOf a).toNat = 0 then .fin (negOf a) (fracOf a).toNat (-149)
    else if (expOf a).toNat = 255 then (if (fracOf a).toNat = 0 then .inf (negOf a) else .nan (!a.getLsbD 22))
    else .fin (negOf a) (2 ^ 23 + (fracOf a).toNat) ((expOf a).toNat - 127 - 23) := by
  have hfrac : a.toNat % 2 ^ 23 = (fracOf a).toNat := by
    rw [fracOf, BitVec.extractLsb'_toNat, Nat.shiftRight_eq_div_pow, Nat.pow_zero, Nat.div_one]
  have hexp : a.toNat / 2 ^ 23 % 2 ^ 8 = (expOf a).toNat := by
    rw [expOf, BitVec.extractLsb'_toNat, Nat.shiftRight_eq_div_pow]
  have hneg : (a.toNat / 2 ^ (23 + 8) % 2 == 1) = negOf a := by
    rw [negOf, BitVec.getLsbD, Nat.testBit_eq_decide_div_mod_eq]; rfl
  have hquiet : decide ((fracOf a).toNat < 2 ^ (23 - 1)) = !a.getLsbD 22 := by
    rw [BitVec.getLsbD, Nat.testBit_eq_decide_div_mod_eq, ← hfrac, ← decide_not]
    exact decide_eq_decide.mpr (by omega)
  unfold dec
  simp only [show f32.fw = 23 from rfl, show f32.ew = 8 from rfl, show f32.top = .ieee from rfl, show f32.emin = -149 from rfl,
    show f32.width = 32 from rfl, show (f32.bias : Int) = 127 from rfl, hfrac, hexp, hneg, hquiet]
  rfl

theorem nanOf_iff (a : Word) : nanOf a = true ↔ (expOf a).toNat = 255 ∧ (fracOf a).toNat ≠ 0 := by
  rw [nanOf, Bool.and_eq_true, beq_iff_eq, bne_iff_ne, ← BitVec.toNat_inj, ne_eq, ne_eq, ← BitVec.toNat_inj]
  rfl

theorem dec_nan {a : Word} (h : nanOf a = true) : dec f32 a.toNat = .nan (signalsOf a) := by
  obtain ⟨hexp, hfrac⟩ := (nanOf_iff a).mp h
  rw [dec_f32, if_neg (by omega), if_pos hexp, if_neg hfrac, signalsOf, h, Bool.true_and]

theorem dec_inf {a : Word} (h : nanOf a = false) (hexp : (expOf a).toNat = 255) :
    dec f32 a.toNat = .inf (negOf a) ∧ magOf a = 255 * 2 ^ 23 := by
  have hfrac : (fracOf a).toNat = 0 := by
    by_contra hne
    rw [(nanOf_iff a).mpr ⟨hexp, hne⟩] at h
    cases h
  rw [dec_f32, if_neg (by omega), if_pos hexp, if_pos hfrac, magOf_eq, hexp, hfrac]
  exact ⟨rfl, rfl⟩

/-- The significand and the exponent above the least one of a finite code without its sign: a subnormal or a normal value. -/
structure Finite32 (code m k : Nat) : Prop where
  code_eq : code = k * 2 ^ 23 + m
  m_lt : m < 2 ^ 24
  normal : k = 0 ∨ 2 ^ 23 ≤ m
  k_lt : k < 254

theorem dec_finite {a : Word} (hexp : (expOf a).toNat ≠ 255) : ∃ m k : Nat, dec f32 a.toNat = .fin (negOf a) m ((k : Int) - 149) ∧
    Finite32 (magOf a) m k := by
  have hfrac := (fracOf a).isLt
  have hlt := (expOf a).isLt
  have hmag := magOf_eq a
  by_cases hzero : (expOf a).toNat = 0
  · refine ⟨(fracOf a).toNat, 0, by rw [dec_f32, if_pos hzero]; rfl, by rw [hmag, hzero], by omega, .inl rfl, by omega⟩
  · refine ⟨2 ^ 23 + (fracOf a).toNat, (expOf a).toNat - 1, ?_, by rw [hmag]; omega, by omega, .inr (by omega), by omega⟩
    rw [dec_f32, if_neg hzero, if_neg hexp]
    congr 1
    omega

theorem not_nan_of_exp {a : Word} (hexp : (expOf a).toNat ≠ 255) : nanOf a = false := by
  rw [Bool.eq_false_iff, ne_eq, nanOf_iff]
  exact fun h => hexp h.1

/-- What an f32 code is worth. -/
theorem dec_cases (a : Word) :
    (nanOf a = true ∧ dec f32 a.toNat = .nan (signalsOf a)) ∨
    (nanOf a = false ∧ dec f32 a.toNat = .inf (negOf a) ∧ magOf a = 255 * 2 ^ 23) ∨
    (nanOf a = false ∧ ∃ m k : Nat, dec f32 a.toNat = .fin (negOf a) m ((k : Int) - 149) ∧ Finite32 (magOf a) m k) := by
  by_cases hexp : (expOf a).toNat = 255
  · cases h : nanOf a with
    | true => exact .inl ⟨rfl, dec_nan h⟩
    | false => exact .inr (.inl ⟨rfl, dec_inf h hexp⟩)
  · exact .inr (.inr ⟨not_nan_of_exp hexp, dec_finite hexp⟩)

theorem dec_isNan (a : Word) : (dec f32 a.toNat).isNan = nanOf a := by
  rcases dec_cases a with ⟨hn, h⟩ | ⟨hn, h, -⟩ | ⟨hn, m, k, h, -⟩
  all_goals rw [h, hn]; rfl

theorem dec_isSig (a : Word) : (dec f32 a.toNat).isSig = signalsOf a := by
  rcases dec_cases a with ⟨-, h⟩ | ⟨hn, h, -⟩ | ⟨hn, m, k, h, -⟩
  · rw [h]; rfl
  · rw [h, signalsOf, hn]; rfl
  · rw [h, signalsOf, hn]; rfl

theorem dec_sign {a : Word} (hn : nanOf a = false) : (dec f32 a.toNat).sign = negOf a := by
  rcases dec_cases a with ⟨hn', -⟩ | ⟨-, h, -⟩ | ⟨-, m, k, h, -⟩
  · rw [hn] at hn'; cases hn'
  · rw [h]; rfl
  · rw [h]; rfl

/-! ### The order of the codes -/

/-- Codes without their signs have the order of the values. -/
theorem Finite32.lt {c1 m1 k1 c2 m2 k2 : Nat} (h1 : Finite32 c1 m1 k1) (h2 : Finite32 c2 m2 k2) (h : c1 < c2) :
    m1 * 2 ^ k1 < m2 * 2 ^ k2 := by
  obtain ⟨hc1, hm1, hn1, -⟩ := h1
  obtain ⟨hc2, hm2, hn2, -⟩ := h2
  rcases Nat.lt_trichotomy k1 k2 with hk | rfl | hk
  · have hpow : 2 ^ k2 = 2 ^ k1 * (2 * 2 ^ (k2 - k1 - 1)) := by
      rw [← Nat.pow_succ', ← Nat.pow_add]; congr 1; omega
    have hone : 1 ≤ 2 ^ (k2 - k1 - 1) := Nat.one_le_two_pow
    have hbig : 2 ^ 24 ≤ m2 * (2 * 2 ^ (k2 - k1 - 1)) := by
      calc 2 ^ 24 = 2 ^ 23 * (2 * 1) := rfl
        _ ≤ m2 * (2 * 2 ^ (k2 - k1 - 1)) := Nat.mul_le_mul (by omega) (by omega)
    calc m1 * 2 ^ k1 < 2 ^ 24 * 2 ^ k1 := Nat.mul_lt_mul_of_pos_right hm1 (Nat.two_pow_pos _)
      _ ≤ m2 * (2 * 2 ^ (k2 - k1 - 1)) * 2 ^ k1 := Nat.mul_le_mul_right _ hbig
      _ = m2 * 2 ^ k2 := by rw [hpow]; ring
  · exact Nat.mul_lt_mul_of_pos_right (by omega) (Nat.two_pow_pos _)
  · have hstep : (k2 + 1) * 2 ^ 23 ≤ k1 * 2 ^ 23 := Nat.mul_le_mul_right _ hk
    omega

theorem Finite32.lt_iff {c1 m1 k1 c2 m2 k2 : Nat} (h1 : Finite32 c1 m1 k1) (h2 : Finite32 c2 m2 k2) :
    m1 * 2 ^ k1 < m2 * 2 ^ k2 ↔ c1 < c2 := by
  refine ⟨fun h => ?_, h1.lt h2⟩
  by_contra hc
  rcases Nat.lt_or_eq_of_le (Nat.le_of_not_lt hc) with hlt | heq
  · exact absurd (h2.lt h1 hlt) (Nat.not_lt.mpr h.le)
  · have hk : k1 = k2 ∧ m1 = m2 := by
      have e1 := h1.code_eq
      have e2 := h2.code_eq
      have := h1.m_lt
      have := h2.m_lt
      have := h1.normal
      have := h2.normal
      omega
    rw [hk.1, hk.2] at h
    exact lt_irrefl _ h

/-- A signed code or significand. -/
theorem signed_lt_iff {n1 n2 : Bool} {x y c d : Nat} (h : x < y ↔ c < d) (h' : y < x ↔ d < c) (hx : x = 0 ↔ c = 0) (hy : y = 0 ↔ d = 0) :
    signed n1 x < signed n2 y ↔ signed n1 c < signed n2 d := by
  cases n1 <;> cases n2 <;> simp only [signed, Bool.false_eq_true, if_false, if_true] <;> omega

/-- Aligned significands have the order of the values. -/
theorem ltV_fin (n1 n2 : Bool) (m1 k1 m2 k2 : Nat) : ltV (.fin n1 m1 ((k1 : Int) - 149)) (.fin n2 m2 ((k2 : Int) - 149)) =
    decide (signed n1 (m1 * 2 ^ k1) < signed n2 (m2 * 2 ^ k2)) := by
  have hscale (m k j : Nat) (h : j ≤ k) : m * 2 ^ k = m * 2 ^ (k - j) * 2 ^ j := by
    rw [Nat.mul_assoc, ← Nat.pow_add, Nat.sub_add_cancel h]
  have hmin : min ((k1 : Int) - 149) ((k2 : Int) - 149) = ((min k1 k2 : Nat) : Int) - 149 := by omega
  have he (k : Nat) : ((k : Int) - 149 - (((min k1 k2 : Nat) : Int) - 149)).toNat = k - min k1 k2 := by omega
  simp only [ltV, align, hmin, he]
  have hpos : 0 < 2 ^ min k1 k2 := Nat.two_pow_pos _
  rw [hscale m1 k1 (min k1 k2) (Nat.min_le_left ..), hscale m2 k2 (min k1 k2) (Nat.min_le_right ..)]
  have hlt (x y : Nat) : x < y ↔ x * 2 ^ min k1 k2 < y * 2 ^ min k1 k2 := (Nat.mul_lt_mul_right hpos).symm
  have hz (x : Nat) : x = 0 ↔ x * 2 ^ min k1 k2 = 0 := by rw [Nat.mul_eq_zero]; simp
  exact decide_eq_decide.mpr (signed_lt_iff (hlt _ _) (hlt _ _) (hz _) (hz _))

theorem Finite32.zero_iff {c m k : Nat} (h : Finite32 c m k) : m * 2 ^ k = 0 ↔ c = 0 := by
  have := h.code_eq
  have := h.normal
  have hpos : 2 ^ k ≠ 0 := (Nat.two_pow_pos _).ne'
  rw [Nat.mul_eq_zero, or_iff_left hpos]
  omega

theorem Finite32.below_inf {c m k : Nat} (h : Finite32 c m k) : c < 255 * 2 ^ 23 := by
  have := h.code_eq
  have := h.m_lt
  have := h.k_lt
  omega

/-- Values that are no NaN have the order of their signed codes (R310, R314). -/
theorem ltV_dec {a b : Word} (ha : nanOf a = false) (hb : nanOf b = false) :
    ltV (dec f32 a.toNat) (dec f32 b.toNat) = decide (signed (negOf a) (magOf a) < signed (negOf b) (magOf b)) := by
  rcases dec_cases a with ⟨hn, -⟩ | ⟨-, hda, hma⟩ | ⟨-, m1, k1, hda, h1⟩
  · rw [ha] at hn; cases hn
  · rcases dec_cases b with ⟨hn, -⟩ | ⟨-, hdb, hmb⟩ | ⟨-, m2, k2, hdb, h2⟩
    · rw [hb] at hn; cases hn
    · rw [hda, hdb, hma, hmb]
      cases negOf a <;> cases negOf b <;> rfl
    · rw [hda, hdb, hma]
      have hlt := h2.below_inf
      have hgo : negOf a = decide (signed (negOf a) (255 * 2 ^ 23) < signed (negOf b) (magOf b)) := by
        cases negOf a <;> cases negOf b <;>
          simp only [signed, Bool.false_eq_true, if_false, if_true, true_eq_decide_iff, false_eq_decide_iff] <;> omega
      exact hgo
  · rcases dec_cases b with ⟨hn, -⟩ | ⟨-, hdb, hmb⟩ | ⟨-, m2, k2, hdb, h2⟩
    · rw [hb] at hn; cases hn
    · rw [hda, hdb, hmb]
      have hlt := h1.below_inf
      have hgo : (!negOf b) = decide (signed (negOf a) (magOf a) < signed (negOf b) (255 * 2 ^ 23)) := by
        cases negOf a <;> cases negOf b <;>
          simp only [signed, Bool.not_true, Bool.not_false, Bool.false_eq_true, if_false, if_true, true_eq_decide_iff,
            false_eq_decide_iff] <;> omega
      exact hgo
    · rw [hda, hdb, ltV_fin]
      exact decide_eq_decide.mpr (signed_lt_iff (h1.lt_iff h2) (h2.lt_iff h1) h1.zero_iff h2.zero_iff)

end Sys2Proof.Machine
end

section
namespace Sys2Proof.Machine
open Sys2Proof Sys2Proof.Num

/-! ## Rounding to f32 (R107 to R109) -/

/-- The significand kept by a rounding is below twice its least normal value, or that (R109). -/
theorem quantize_le (rm : Rm) (neg : Bool) {m : Nat} {e qe : Int} (hqe : (Nat.log2 m : Int) + e - 23 ≤ qe) :
    quantize rm neg m e qe ≤ 2 ^ 24 := by
  have hm : m < 2 ^ (Nat.log2 m + 1) := Nat.lt_log2_self
  unfold quantize
  split
  case isTrue h =>
    calc m * 2 ^ (e - qe).toNat ≤ 2 ^ (Nat.log2 m + 1) * 2 ^ (e - qe).toNat := Nat.mul_le_mul_right _ hm.le
      _ = 2 ^ (Nat.log2 m + 1 + (e - qe).toNat) := (Nat.pow_add ..).symm
      _ ≤ 2 ^ 24 := Nat.pow_le_pow_right (by decide) (by omega)
  case isFalse h =>
    have hq : m / 2 ^ (qe - e).toNat < 2 ^ 24 := by
      rw [Nat.div_lt_iff_lt_mul (Nat.two_pow_pos _), ← Nat.pow_add]
      exact hm.trans_le (Nat.pow_le_pow_right (by decide) (by omega))
    dsimp only
    split
    · exact hq
    · exact hq.le

theorem leMag_f32 (q : Nat) (qe : Int) : leMag q qe f32.maxM f32.maxE =
    decide (q * 2 ^ (qe - min qe 104).toNat ≤ 16777215 * 2 ^ (104 - min qe 104).toNat) := by
  rw [show f32.maxM = 16777215 by decide, show f32.maxE = 104 by decide]
  rfl

/-- The code of a result within the format's maximum has a finite exponent (R109). -/
theorem codeOf_finite (neg : Bool) {q : Nat} {qe : Int} (hq : q ≤ 2 ^ 24) (hmax : leMag q qe f32.maxM f32.maxE = true) :
    codeOf f32 neg q qe / 2 ^ 23 % 2 ^ 8 ≠ 255 := by
  rw [leMag_f32, decide_eq_true_eq] at hmax
  have hbelow : 2 ^ 23 ≤ q → qe ≤ 104 := fun hbig => by
    by_contra hc
    have hone : 2 ^ 1 ≤ 2 ^ (qe - min qe 104).toNat := Nat.pow_le_pow_right (by decide) (by omega)
    have hmul : 2 ^ 23 * 2 ^ 1 ≤ q * 2 ^ (qe - min qe 104).toNat := Nat.mul_le_mul hbig hone
    rw [show (104 - min qe 104).toNat = 0 by omega] at hmax
    omega
  have htop : q = 2 ^ 24 → qe ≠ 104 := by
    rintro rfl rfl
    exact absurd hmax (by decide)
  unfold codeOf
  simp only [show f32.fw = 23 from rfl, show f32.ew = 8 from rfl, show (f32.bias : Int) = 127 from rfl, Nat.cast_ofNat]
  generalize hs : (if neg = true then 2 ^ (8 + 23) else 0) = sign
  have hsign : sign = 0 ∨ sign = 2 ^ 31 := by rw [← hs]; cases neg <;> simp
  split
  · omega
  · split <;> dsimp only <;> omega

theorem narrowSat_finite (rm : Rm) (v : Val) :
    (narrowSat f32 rm noBound v).1 = f32.nan ∨ (narrowSat f32 rm noBound v).1 / 2 ^ 23 % 2 ^ 8 ≠ 255 := by
  have hclamp (n : Bool) : codeOf f32 n f32.maxM f32.maxE / 2 ^ 23 % 2 ^ 8 ≠ 255 := codeOf_finite n (by decide) (by decide)
  cases v with
  | nan sg => exact .inl rfl
  | inf n => exact .inr (hclamp n)
  | fin n m e =>
    refine .inr ?_
    cases m with
    | zero => exact codeOf_finite (q := 0) (qe := 0) n (by decide) (by decide)
    | succ m =>
      have hq : (roundUnbounded f32 rm n (m + 1) e).1 ≤ 2 ^ 24 := quantize_le rm n (le_max_left ..)
      show (if leMag (roundUnbounded f32 rm n (m + 1) e).1 (roundUnbounded f32 rm n (m + 1) e).2 f32.maxM f32.maxE = true then
        (codeOf f32 n (roundUnbounded f32 rm n (m + 1) e).1 (roundUnbounded f32 rm n (m + 1) e).2, (0 : FlagBits))
        else (codeOf f32 n f32.maxM f32.maxE, flSat)).1 / 2 ^ 23 % 2 ^ 8 ≠ 255
      split
      · exact codeOf_finite n hq ‹_›
      · exact hclamp n

/-- The value of a finite code is rounded to itself. -/
theorem roundUnbounded_code {c m k : Nat} (h : Finite32 c m k) (hm : m ≠ 0) (rm : Rm) (n : Bool) :
    roundUnbounded f32 rm n m ((k : Int) - 149) = (m, (k : Int) - 149) := by
  obtain ⟨-, hlt, hnormal, -⟩ := h
  have hlog : Nat.log2 m < 24 := (Nat.log2_lt hm).mpr hlt
  have hhigh : 2 ^ 23 ≤ m → 23 ≤ Nat.log2 m := (Nat.le_log2 hm).mpr
  have hqe : max ((Nat.log2 m : Int) + ((k : Int) - 149) - 23) (-149) = (k : Int) - 149 := by omega
  show (quantize rm n m _ (max ((Nat.log2 m : Int) + ((k : Int) - 149) - 23) (-149)), max ((Nat.log2 m : Int) + ((k : Int) - 149) - 23) (-149)) = _
  rw [hqe, quantize, if_pos le_rfl, Int.sub_self]
  simp

theorem codeOf_code {c m k : Nat} (h : Finite32 c m k) (n : Bool) :
    codeOf f32 n m ((k : Int) - 149) = (if n then 2 ^ 31 else 0) + c := by
  obtain ⟨hcode, hlt, hnormal, -⟩ := h
  unfold codeOf
  simp only [show f32.fw = 23 from rfl, show f32.ew = 8 from rfl, show (f32.bias : Int) = 127 from rfl, Nat.cast_ofNat]
  split
  · simp only [Nat.reduceAdd]; omega
  · rw [if_neg (show ¬ m = 2 ^ (23 + 1) by omega)]
    simp only [Nat.reduceAdd]
    omega

theorem leMag_code {c m k : Nat} (h : Finite32 c m k) : leMag m ((k : Int) - 149) f32.maxM f32.maxE = true := by
  obtain ⟨-, hlt, -, hk⟩ := h
  rw [leMag_f32, decide_eq_true_eq, show (((k : Int) - 149) - min ((k : Int) - 149) 104).toNat = 0 by omega, Nat.pow_zero, Nat.mul_one]
  calc m ≤ 16777215 * 1 := by omega
    _ ≤ _ := Nat.mul_le_mul_left _ Nat.one_le_two_pow

/-- Rounding the value of a code that is no NaN gives the code (R107). -/
theorem round_dec {a : Word} (h : nanOf a = false) (rm : Rm) : Num.round f32 rm (dec f32 a.toNat) = (a.toNat, 0) := by
  rcases dec_cases a with ⟨hn, -⟩ | ⟨-, hd, hm⟩ | ⟨-, m, k, hd, hf⟩
  · rw [h] at hn; cases hn
  · rw [hd, word_magOf, hm]
    cases negOf a <;> rfl
  · rw [hd, word_magOf]
    rcases Nat.eq_zero_or_pos m with rfl | hpos
    · have hzero : magOf a = 0 := by have := hf.code_eq; have := hf.normal; omega
      rw [hzero]
      cases negOf a <;> rfl
    · obtain ⟨m, rfl⟩ := Nat.exists_eq_succ_of_ne_zero hpos.ne'
      show (match roundUnbounded f32 rm (negOf a) (m + 1) ((k : Int) - 149) with
        | (q, qe) => if leMag q qe f32.maxM f32.maxE = true then (codeOf f32 (negOf a) q qe, 0) else overflow f32 rm (negOf a)) = _
      rw [roundUnbounded_code hf (Nat.succ_ne_zero m)]
      dsimp only
      rw [if_pos (leMag_code hf), codeOf_code hf]

end Sys2Proof.Machine
end

section
namespace Sys2Proof.Machine
open Sys2Proof Sys2Proof.Num

/-! ## Float results (O14) -/

/-- A float result over one 32-bit element. -/
theorem fElems_f32 (op : Nat → Nat × FlagBits) : fElems .f32 op = (0#32 ++ BitVec.ofNat 32 (op 0).1, (op 0).2) := by
  obtain ⟨-, hflags⟩ := fElems_word op
  refine Prod.ext ?_ hflags
  show BitVec.ofNat 64 ((op 0).1 % 2 ^ 32 + 2 ^ 32 * 0) = 0#32 ++ BitVec.ofNat 32 (op 0).1
  apply BitVec.eq_of_toNat_eq
  rw [word_toNat, BitVec.toNat_ofNat, BitVec.toNat_ofNat]
  omega

/-- A code as a result. -/
theorem result_word {a : Word} {r : Nat × FlagBits} (h : r.1 = a.toNat) : (0#32 ++ BitVec.ofNat 32 r.1 : DWord) = 0#32 ++ a := by
  rw [h, BitVec.ofNat_toNat, BitVec.setWidth_eq]

/-- The canonical NaN of f32 (R106). -/
theorem canonical_f32 : (0#32 ++ BitVec.ofNat 32 f32.nan : DWord) = 0x7FC0_0000#64 := by decide

/-! ### NaN operands (R106, R111) -/

theorem modA_isNan (var : BitVec 9) (v : Val) : (modA var v).isNan = v.isNan ∧ (modA var v).isSig = v.isSig := by
  have habs (v : Val) : v.absV.isNan = v.isNan ∧ v.absV.isSig = v.isSig := by cases v <;> exact ⟨rfl, rfl⟩
  have hneg (v : Val) : v.neg.isNan = v.isNan ∧ v.neg.isSig = v.isSig := by cases v <;> exact ⟨rfl, rfl⟩
  have hmod : (if var.getLsbD 3 then v.absV else v).isNan = v.isNan ∧ (if var.getLsbD 3 then v.absV else v).isSig = v.isSig := by
    split
    · exact habs v
    · exact ⟨rfl, rfl⟩
  unfold modA
  dsimp only
  split
  · exact ⟨(hneg _).1.trans hmod.1, (hneg _).2.trans hmod.2⟩
  · exact hmod

theorem modB_isNan (var : BitVec 9) (v : Val) : (modB var v).isNan = v.isNan ∧ (modB var v).isSig = v.isSig := by
  unfold modB
  split
  · cases v <;> exact ⟨rfl, rfl⟩
  · exact ⟨rfl, rfl⟩

theorem modC_isNan (var : BitVec 9) (v : Val) : (modC var v).isNan = v.isNan := by
  unfold modC
  split
  · cases v <;> rfl
  · rfl

theorem addV_nan {rm : Rm} {u v : Val} (h : u.isNan = true ∨ v.isNan = true) : addV rm u v = (.nan false, false) := by
  cases u <;> cases v <;> simp [Val.isNan] at h <;> rfl

theorem mulV_nan {u v : Val} (h : u.isNan = true ∨ v.isNan = true) : mulV u v = (.nan false, false) := by
  cases u <;> cases v <;> simp [Val.isNan] at h <;> rfl

theorem finish_nan (rm : Rm) (sat sg : Bool) : finish f32 rm sat (.nan sg) = (f32.nan, 0) := by cases sat <;> rfl

/-- INV of two operands, when one signals (R111). -/
def signalled (a b : Word) : FlagBits := if signalsOf a || signalsOf b then flInv else 0

theorem sigInv_pair {a b : Word} {u v : Val} (hu : u.isSig = signalsOf a) (hv : v.isSig = signalsOf b) :
    sigInv [u, v] = signalled a b := by
  simp only [sigInv, List.any_cons, List.any_nil, Bool.or_false, hu, hv]
  rfl

/-- An operation of two values with a NaN among them (R106, R111). -/
theorem farith2_nan {op : Rm → Val → Val → Val × FlagBits} (hop : ∀ rm u v, u.isNan = true ∨ v.isNan = true →
      op rm u v = (.nan false, sigInv [u, v])) {x : Ext} {a b : Word} (hty : x.ty = .f32) (h : (nanOf a || nanOf b) = true) :
    farith2 op x (0#32 ++ a) (0#32 ++ b) = (0x7FC0_0000#64, signalled a b) := by
  obtain ⟨hna, hsa⟩ := modA_isNan x.var (dec f32 a.toNat)
  obtain ⟨hnb, hsb⟩ := modB_isNan x.var (dec f32 b.toNat)
  have hnan : (modA x.var (dec f32 a.toNat)).isNan = true ∨ (modB x.var (dec f32 b.toNat)).isNan = true := by
    rw [hna, hnb, dec_isNan, dec_isNan]; simpa using h
  rw [farith2, hty, fElems_f32]
  simp only [elemVal_f32, fop2, hop x.rm _ _ hnan, show ofTy .f32 = f32 from rfl, finish_nan]
  rw [canonical_f32, sigInv_pair (hsa.trans (dec_isSig a)) (hsb.trans (dec_isSig b))]
  simp

theorem addFlags_nan (rm : Rm) (u v : Val) (h : u.isNan = true ∨ v.isNan = true) : addFlags rm u v = (.nan false, sigInv [u, v]) := by
  rw [addFlags, addV_nan h]
  simp [flagIf]

theorem mulFlags_nan (u v : Val) (h : u.isNan = true ∨ v.isNan = true) : mulFlags u v = (.nan false, sigInv [u, v]) := by
  rw [mulFlags, mulV_nan h]
  simp [flagIf]

theorem ffmaOp_nan {x : Ext} {a b c : Word} (hty : x.ty = .f32) (h : (nanOf a || nanOf b || nanOf c) = true) :
    (ffmaOp x (0#32 ++ a) (0#32 ++ b) (0#32 ++ c)).1 = 0x7FC0_0000#64 := by
  have hsum : (addV x.rm (mulV (modA x.var (dec f32 a.toNat)) (modB x.var (dec f32 b.toNat))).1 (modC x.var (dec f32 c.toNat))).1 =
      .nan false := by
    rw [Bool.or_eq_true, Bool.or_eq_true] at h
    rcases h with h | h
    · rw [mulV_nan (by rw [(modA_isNan _ _).1, (modB_isNan _ _).1, dec_isNan, dec_isNan]; exact h), addV_nan (.inl rfl)]
    · rw [addV_nan (.inr (by rw [modC_isNan, dec_isNan]; exact h))]
  rw [ffmaOp, hty, fElems_f32]
  simp only [elemVal_f32, fmaFlags, hsum, show ofTy .f32 = f32 from rfl, finish_nan]
  exact canonical_f32

theorem funcOp_nan {x : Ext} {a : Word} (fn : Fun) (hty : x.ty = .f32) (h : nanOf a = true) :
    funcOp fn x (0#32 ++ a) = (0x7FC0_0000#64, if signalsOf a then flInv else 0) := by
  rw [funcOp, hty, fElems_f32]
  simp only [elemVal_f32, dec_nan h]
  refine Prod.ext canonical_f32 ?_
  cases fn <;> cases signalsOf a <;> rfl

/-- No sum saturated by SAT is infinite (R109). -/
theorem fadd_saturated {x : Ext} {a b : Word} (hty : x.ty = .f32) (hsat : x.sat = true) :
    (farith2 addFlags x (0#32 ++ a) (0#32 ++ b)).1 = 0x7FC0_0000#64 ∨
      (farith2 addFlags x (0#32 ++ a) (0#32 ++ b)).1.extractLsb' 23 8 ≠ 0xFF#8 := by
  rw [farith2, hty, fElems_f32]
  simp only [fop2, show ofTy .f32 = f32 from rfl, finish, hsat, if_true]
  generalize (addFlags x.rm (modA x.var (elemVal .f32 (0#32 ++ a) 0)) (modB x.var (elemVal .f32 (0#32 ++ b) 0))).1 = v
  rcases narrowSat_finite x.rm v with h | h
  · rw [h]; exact .inl canonical_f32
  · refine .inr fun hexp => h ?_
    have hnat := congrArg BitVec.toNat hexp
    rw [BitVec.extractLsb'_toNat, word_toNat, BitVec.toNat_ofNat, Nat.shiftRight_eq_div_pow] at hnat
    simp only [BitVec.toNat_ofNat] at hnat
    omega

/-! ### Order and classes (R309, R310, R314) -/

/-- A code as a signed number; both zeros are 0. -/
def rankOf (a : Word) : Int := signed (negOf a) (magOf a)

theorem word_of_rank {a b : Word} (hneg : negOf a = negOf b) (h : rankOf a = rankOf b) : a = b := by
  have hmag : magOf a = magOf b := by
    simp only [rankOf, hneg] at h
    cases hb : negOf b <;> simp only [hb, signed, Bool.false_eq_true, if_false, if_true] at h <;> omega
  exact BitVec.eq_of_toNat_eq (by rw [word_magOf, word_magOf, hneg, hmag])

theorem leTotal_dec {a b : Word} (ha : nanOf a = false) (hb : nanOf b = false) : leTotal (dec f32 a.toNat) (dec f32 b.toNat) =
    if rankOf a = rankOf b then negOf a || !negOf b else decide (rankOf a < rankOf b) := by
  rw [leTotal, ltV_dec ha hb, ltV_dec hb ha, dec_sign ha, dec_sign hb]
  change (if decide (rankOf a < rankOf b) = true then true else if decide (rankOf b < rankOf a) = true then false else _) = _
  rcases Int.lt_trichotomy (rankOf a) (rankOf b) with h | h | h
  · rw [if_pos (decide_eq_true h), if_neg h.ne, decide_eq_true h]
  · rw [if_neg (by simp [h]), if_neg (by simp [h]), if_pos h]
  · rw [if_neg (by simp [h.le]), if_pos (decide_eq_true h), if_neg h.ne', decide_eq_false (not_lt.mpr h.le)]

/-- The operand that FMAX or FMIN picks among two numbers (R314). -/
def picked (larger : Bool) (a b : Word) : Word :=
  if rankOf a = rankOf b then (if negOf a = larger then b else a) else if (rankOf a < rankOf b) = larger then b else a

theorem picked_eq {a b : Word} (ha : nanOf a = false) (hb : nanOf b = false) (larger : Bool) :
    (if (leTotal (dec f32 a.toNat) (dec f32 b.toNat) == larger) = true then b else a) = picked larger a b := by
  rw [leTotal_dec ha hb, picked]
  by_cases h : rankOf a = rankOf b
  · rw [if_pos h, if_pos h]
    by_cases hneg : negOf a = negOf b
    · rw [word_of_rank hneg h, ite_self, ite_self]
    · cases hna : negOf a <;> cases hnb : negOf b <;> simp_all
  · rw [if_neg h, if_neg h]
    cases larger <;> simp

end Sys2Proof.Machine
end

section
namespace Sys2Proof.Machine
open Sys2Proof Sys2Proof.Num

/-! ## Settling the float results (O14) -/

/-- FMAX and FMIN over f32 (R314). -/
theorem fminmaxOp_f32 {x : Ext} (hty : x.ty = .f32) (hvar : x.var = 0) (larger : Bool) (a b : Word) :
    fminmaxOp larger x (0#32 ++ a) (0#32 ++ b) =
      (if nanOf a && nanOf b then 0x7FC0_0000#64 else 0#32 ++ (if nanOf a then b else if nanOf b then a else picked larger a b),
        signalled a b) := by
  have hcode {c : Word} (hc : nanOf c = false) (fl : FlagBits) :
      ((0#32 ++ BitVec.ofNat 32 (Num.round f32 .rne (dec f32 c.toNat)).1 : DWord), fl) = (0#32 ++ c, fl) :=
    Prod.ext (result_word (congrArg Prod.fst (round_dec hc .rne))) rfl
  have hmodA (v : Val) : modA 0 v = v := rfl
  have hmodB (v : Val) : modB 0 v = v := rfl
  rw [fminmaxOp, hty, fElems_f32]
  simp only [elemVal_f32, hvar, hmodA, hmodB, show ofTy .f32 = f32 from rfl, fminmax, dec_isNan, sigInv_pair (dec_isSig a) (dec_isSig b)]
  cases ha : nanOf a with
  | true =>
    cases hb : nanOf b with
    | true => exact Prod.ext canonical_f32 rfl
    | false => exact hcode hb _
  | false =>
    cases hb : nanOf b with
    | true => exact hcode ha _
    | false =>
      have hpick : (if (leTotal (dec f32 a.toNat) (dec f32 b.toNat) == larger) = true then dec f32 b.toNat else dec f32 a.toNat) =
          dec f32 (picked larger a b).toNat := by
        rw [← picked_eq ha hb, apply_ite (fun w : Word => dec f32 w.toNat)]
      have hnan : nanOf (picked larger a b) = false := by
        rw [← picked_eq ha hb]; split <;> assumption
      dsimp only
      rw [hpick]
      exact hcode hnan _

/-- FCMP over f32 (R310). -/
theorem fcmp_dec (cc : Nat) (a b : Word) : fcmp cc (dec f32 a.toNat) (dec f32 b.toNat) =
    match cc with
    | 0 => !(nanOf a || nanOf b) && rankOf a == rankOf b
    | 1 => !(!(nanOf a || nanOf b) && rankOf a == rankOf b)
    | 2 => !(nanOf a || nanOf b) && rankOf a < rankOf b
    | 3 => !(nanOf a || nanOf b) && rankOf a ≤ rankOf b
    | 4 => !(nanOf a || nanOf b) && rankOf b < rankOf a
    | 5 => !(nanOf a || nanOf b) && rankOf b ≤ rankOf a
    | 6 => !(nanOf a || nanOf b)
    | _ => !!(nanOf a || nanOf b) := by
  have hord (i j : Int) : (!decide (i < j) && !decide (j < i)) = (i == j) ∧ (decide (i < j) || decide (j < i)) = !(i == j) ∧
      (!decide (j < i)) = decide (i ≤ j) := by
    refine ⟨?_, ?_, ?_⟩
    · rw [Bool.eq_iff_iff]; simp; omega
    · rw [Bool.eq_iff_iff]; simp
    · rw [Bool.eq_iff_iff]; simp
  simp only [fcmp, dec_isNan]
  cases h : nanOf a || nanOf b with
  | true =>
    rcases cc with _ | _ | _ | _ | _ | _ | _ | _ <;> rfl
  | false =>
    obtain ⟨ha, hb⟩ := Bool.or_eq_false_iff.mp h
    rw [ltV_dec ha hb, ltV_dec hb ha]
    obtain ⟨heq, hne, hle⟩ := hord (rankOf a) (rankOf b)
    obtain ⟨-, -, hge⟩ := hord (rankOf b) (rankOf a)
    rcases cc with _ | _ | _ | _ | _ | _ | _ | _
    · exact heq
    · exact hne
    · rfl
    · exact hle
    · rfl
    · exact hge
    · rfl
    · rfl

theorem fclassBit_fin (n : Bool) (m : Nat) (e : Int) : fclassBit f32 (.fin n m e) =
    if m = 0 then (if n then 5 else 6) else if m < 2 ^ 23 ∧ e = -149 then (if n then 4 else 7) else (if n then 3 else 8) := rfl

/-- FCLASS over f32 (R309). -/
theorem fclassBit_dec (a : Word) : fclassBit f32 (dec f32 a.toNat) =
    if nanOf a then (if signalsOf a then 0 else 1)
    else if expOf a = 0xFF#8 then (if negOf a then 2 else 9)
    else if expOf a ≠ 0 then (if negOf a then 3 else 8)
    else if fracOf a ≠ 0 then (if negOf a then 4 else 7)
    else if negOf a then 5 else 6 := by
  have hexp (v : BitVec 8) : expOf a = v ↔ (expOf a).toNat = v.toNat := BitVec.toNat_inj.symm
  have hfrac : fracOf a = 0 ↔ (fracOf a).toNat = 0 := BitVec.toNat_inj.symm
  rcases Bool.eq_false_or_eq_true (nanOf a) with hn | hn
  · rw [dec_nan hn, if_pos hn]
    cases signalsOf a <;> rfl
  · rw [if_neg (by simp [hn])]
    by_cases htop : (expOf a).toNat = 255
    · rw [(dec_inf hn htop).1, if_pos ((hexp 0xFF#8).mpr htop)]
      rfl
    · rw [if_neg (mt (hexp 0xFF#8).mp htop), dec_f32]
      by_cases hzero : (expOf a).toNat = 0
      · have hlt : (fracOf a).toNat < 2 ^ 23 := (fracOf a).isLt
        rw [if_pos hzero, if_neg (not_not_intro ((hexp 0).mpr hzero)), fclassBit_fin]
        by_cases hf : (fracOf a).toNat = 0
        · rw [if_pos hf, if_neg (not_not_intro (hfrac.mpr hf))]
        · rw [if_neg hf, if_pos ⟨hlt, rfl⟩, if_pos (mt hfrac.mp hf)]
      · have hnormal : ¬ (2 ^ 23 + (fracOf a).toNat < 2 ^ 23 ∧ ((expOf a).toNat : Int) - 127 - 23 = -149) := fun h => by omega
        rw [if_neg hzero, if_neg htop, if_pos (mt (hexp 0).mp hzero), fclassBit_fin,
          if_neg (show ¬ 2 ^ 23 + (fracOf a).toNat = 0 by omega), if_neg hnormal]

theorem fcmpOp_f32 {x : Ext} (hty : x.ty = .f32) (hvar : x.var = 0) (a b : Word) :
    fcmpOp x (0#32 ++ a) (0#32 ++ b) = (fcmp (x.c.toNat % 8) (dec f32 a.toNat) (dec f32 b.toNat), signalled a b) := by
  have hmodA (v : Val) : modA 0 v = v := rfl
  have hmodB (v : Val) : modB 0 v = v := rfl
  simp only [fcmpOp, hty, hvar, elemVal_f32, hmodA, hmodB, sigInv_pair (dec_isSig a) (dec_isSig b)]

theorem fclassOp_f32 {x : Ext} (hty : x.ty = .f32) (hvar : x.var = 0) (a : Word) :
    fclassOp x (0#32 ++ a) = BitVec.ofNat 64 (2 ^ fclassBit f32 (dec f32 a.toNat)) := by
  have hmodA (v : Val) : modA 0 v = v := rfl
  simp only [fclassOp, hty, hvar, elemVal_f32, hmodA, show ofTy .f32 = f32 from rfl]

/-- An exact cancellation (R107). -/
theorem addFlags_cancels (rm : Rm) (n : Bool) (m : Nat) (e : Int) :
    addFlags rm (.fin n m e) (.fin (!n) m e) = (zero (rm == .rdn), 0) := by
  have hsum (x : Nat) : signed n x + signed (!n) x = 0 := by cases n <;> simp [signed]
  have hne : ¬ n = !n := by cases n <;> decide
  simp only [addFlags, addV, align, Int.min_self, hsum, ofInt, if_true, if_neg hne]
  refine Prod.ext ?_ (by simp [sigInv, flagIf, Val.isSig])
  cases rm <;> rfl

/-- The printed runs of the functions and of the single rounding (R308, R312). -/
theorem func_examples : ∀ y ∈ ([(.cos, 0x7F80_0000#32, 0x7FC0_0000#32, flInv), (.sin, 0xFF80_0000#32, 0x7FC0_0000#32, flInv),
      (.exp2, 0x7F80_0000#32, 0x7F80_0000#32, 0), (.exp2, 0xFF80_0000#32, 0#32, 0),
      (.log2, 0x7F80_0000#32, 0x7F80_0000#32, 0), (.log2, 0x8000_0000#32, 0xFF80_0000#32, flDz),
      (.log2, 0xBF80_0000#32, 0x7FC0_0000#32, flInv), (.rcp, 0xFF80_0000#32, 0x8000_0000#32, 0),
      (.rcp, 0x8000_0000#32, 0xFF80_0000#32, flDz), (.rsq, 0#32, 0x7F80_0000#32, flDz),
      (.rsq, 0xFF80_0000#32, 0x7FC0_0000#32, flInv), (.sqrt, 0x8000_0000#32, 0x8000_0000#32, 0),
      (.sqrt, 0xBF80_0000#32, 0x7FC0_0000#32, flInv), (.tanh, 0xFF80_0000#32, 0xBF80_0000#32, 0),
      (.cos, 0x8000_0000#32, 0x3F80_0000#32, 0), (.sin, 0x8000_0000#32, 0x8000_0000#32, 0),
      (.exp2, 0x4040_0000#32, 0x4100_0000#32, 0), (.exp2, 0xC316_0000#32, 0#32, 0),
      (.rcp, 0x4040_0000#32, 0x3EAA_AAAB#32, 0), (.rcp, 1#32, 0x7F80_0000#32, 0),
      (.rsq, 0x4080_0000#32, 0x3F00_0000#32, 0), (.tanh, 0x41A0_0000#32, 0x3F80_0000#32, 0)] : List (Fun × Word × Word × FlagBits)),
    fElems .f32 (fun e => Num.func y.1 f32 .rne false (elemVal .f32 (0#32 ++ y.2.1) e)) = (0#32 ++ y.2.2.1, y.2.2.2) := by decide +kernel

theorem fma_example :
    (fElems .f32 (fun e =>
      let r := fmaFlags .rne (elemVal .f32 0x3F80_0800#64 e) (elemVal .f32 0x3F80_0800#64 e) (elemVal .f32 0xBF80_1000#64 e)
      let y := finish f32 .rne false r.1
      (y.1, r.2 ||| y.2))) = (0x3380_0000#64, 0) ∧
    fElems .f32 (fun e => fop2 f32 .rne false mulFlags (elemVal .f32 0x3F80_0800#64 e) (elemVal .f32 0x3F80_0800#64 e)) =
      (0x3F80_1000#64, 0) := by decide +kernel

/-- Settles O14: completion from the shared skeleton; the values over f32 from the fields of its codes, whose signed order is that of
the exact values. -/
theorem floatResults : Obligations.FloatResults := by
  have one {mk : Ext → Instr} {fn : Fun} (hd : ∀ x s, exec (mk x) s = alu1 (mk x) x (funcOp fn x) s) :
      AluCompletes mk (fun x => x.ty.wide) (fun x _ g L => funcOp fn x (opA g x x.ty.wide L)) :=
    aluCompletes_of (f := fun x _ g L => funcOp fn x (opA g x x.ty.wide L)) hd (fun _ _ _ _ => rfl)
  refine ⟨⟨⟨alu2_completes exec_fadd, alu2_completes exec_fmul, alu2_completes exec_fmax, alu2_completes exec_fmin,
      alu3_completes exec_ffma, aluCompletes_of (f := fun x _ g L => (fclassOp x (opA g x x.ty.wide L), 0)) exec_fclass (fun _ _ _ _ => rfl),
      predicateCompletes_of (f := fun x g L => fcmpOp x (opA g x x.ty.wide L) (opB g x x.ty.wide L)) exec_fcmp (fun _ _ _ => rfl)⟩,
      one exec_fcos, one exec_fexp2, one exec_flog2, one exec_frcp, one exec_frsq, one exec_fsin, one exec_fsqrt, one exec_ftanh⟩,
    fun rm n m e _ => addFlags_cancels rm n m e,
    fun x a b c hty => ⟨fun h => ⟨farith2_nan addFlags_nan hty h, farith2_nan (fun _ => mulFlags_nan) hty h⟩, ffmaOp_nan hty,
      fadd_saturated hty, fun hvar => ⟨fun larger => fminmaxOp_f32 hty hvar larger a b, ?_, ?_⟩, fun fn _ => funcOp_nan fn hty⟩,
    fun x hty hrm hsat hvar => ⟨fun y hy => ?_, ?_, ?_⟩⟩
  · exact (fcmpOp_f32 hty hvar a b).trans (Prod.ext (fcmp_dec _ a b) rfl)
  · exact (fclassOp_f32 hty hvar a).trans (congrArg (fun n => BitVec.ofNat 64 (2 ^ n)) (fclassBit_dec a))
  · simp only [funcOp, hty, hrm, hsat]
    exact func_examples y hy
  · simp only [ffmaOp, hty, hrm, hsat, hvar]
    exact fma_example.1
  · simp only [farith2, hty, hrm, hsat, hvar]
    exact fma_example.2

end Sys2Proof.Machine
end

section
namespace Sys2Proof.Machine

open Sys2Proof

/-! ## Registers that are not allocated (O7)

Each skeleton of an instruction's meaning checks the allocation before its body, and so before the guard (R53, R81). -/

section
variable {s : State} {g : Group} {p : Split} {i : Instr} (hi : s.issuer? = some (g, p)) (hl : limitsOk g i = false)
include hi hl

theorem runInstr_opr (gd : Guard) (body : Issue → State → State) :
    runInstr i gd body s = .next (trapped s g p i .opr (0#32 ++ word0 i) p.mask) := runInstr_unallocated gd body hi hl

theorem aluExt_opr (x : Ext) (wide : Bool) (f : Group → Nat → DWord × FlagBits) :
    aluExt i x wide f s = .next (trapped s g p i .opr (0#32 ++ word0 i) p.mask) := runInstr_opr hi hl ..

theorem alu1_opr (x : Ext) (f : DWord → DWord × FlagBits) :
    alu1 i x f s = .next (trapped s g p i .opr (0#32 ++ word0 i) p.mask) := aluExt_opr hi hl ..

theorem alu2_opr (x : Ext) (f : DWord → DWord → DWord × FlagBits) :
    alu2 i x f s = .next (trapped s g p i .opr (0#32 ++ word0 i) p.mask) := aluExt_opr hi hl ..

theorem alu3_opr (x : Ext) (f : DWord → DWord → DWord → DWord × FlagBits) :
    alu3 i x f s = .next (trapped s g p i .opr (0#32 ++ word0 i) p.mask) := aluExt_opr hi hl ..

theorem aluB32_opr (x : Ext) (f : DWord → DWord → DWord) :
    aluB32 i x f s = .next (trapped s g p i .opr (0#32 ++ word0 i) p.mask) := aluExt_opr hi hl ..

theorem exchange_opr (x : Ext) (src : Group → Nat → Nat) :
    exchange i x src s = .next (trapped s g p i .opr (0#32 ++ word0 i) p.mask) := aluExt_opr hi hl ..

theorem clockRead_opr (x : Ext) (kind : LateKind) :
    clockRead i x kind s = .next (trapped s g p i .opr (0#32 ++ word0 i) p.mask) := runInstr_opr hi hl ..

theorem predExt_opr (x : Ext) (f : Group → Nat → Bool × FlagBits) :
    predExt i x f s = .next (trapped s g p i .opr (0#32 ++ word0 i) p.mask) := runInstr_opr hi hl ..

theorem aluShort_opr (gd : Guard) (d : BitVec 8) (wide : Bool) (f : Group → Nat → DWord) :
    aluShort i gd d wide f s = .next (trapped s g p i .opr (0#32 ++ word0 i) p.mask) := runInstr_opr hi hl ..

theorem short1_opr (gd : Guard) (d a : BitVec 8) (f : Word → Word) :
    short1 i gd d a f s = .next (trapped s g p i .opr (0#32 ++ word0 i) p.mask) := aluShort_opr hi hl ..

/-- An instruction that a split issues is one of these skeletons; a command or an event comes from no split. -/
theorem exec_opr (hf : fromSplit i = true) : exec i s = .next (trapped s g p i .opr (0#32 ++ word0 i) p.mask) := by
  -- `delta` leaves the dispatch's match, which the constructor reduces to the call of one skeleton.
  cases i
  case abs | brev | clz | fabs | fneg | movShort | not | popc => delta exec; exact short1_opr hi hl ..
  case iaddi | iaddiLiteral | movi | moviLiteral => delta exec; exact aluShort_opr hi hl ..
  case fcos | fexp2 | flog2 | frcp | frsq | fsin | fsqrt | ftanh => delta exec; exact alu1_opr hi hl ..
  case iadd | imax | imin | isub | imul | imulh | and | or | xor | fadd | fmul | fmax | fmin => delta exec; exact alu2_opr hi hl ..
  case idot4 | imad | lop3 | prmt | ffma => delta exec; exact alu3_opr hi hl ..
  case rot | sar | shl | shr | bfe => delta exec; exact aluB32_opr hi hl ..
  case mov | bfi | sel | lea | fclass | pack | req | vdhop => delta exec; exact aluExt_opr hi hl ..
  case icmp | plop | fcmp => delta exec; exact predExt_opr hi hl ..
  case clk | time => delta exec; exact clockRead_opr hi hl ..
  case qbcast | qswap | shuf => delta exec; exact exchange_opr hi hl ..
  case cvt =>
    rw [exec_cvt, execCvt]
    exact aluExt_opr hi hl ..
  case pmov =>
    rw [exec_pmov, execPmov]
    split
    · exact predExt_opr hi hl ..
    · exact aluExt_opr hi hl ..
  case bra | braJoin | call | waitc | bkpt | exit | hend | nop | ret | yield | unpack | gvote | greduce | gscan | brdec | brx | callx
      | svc | trap | bar | cbar | evsig | evwait | ld | st | lds | ldx | sts | atom | atoms | sempty | sfe | sfill | ldu | pref
      | cpy | ldh | tld | tstr | coll | mma | mmag | mmat | aexp | amode | ard | awr | mzero | mcarry | mscan | tmov | trd | twr
      | oadd | oalight | oboard | ocap | ocas | omax | omin | oswp | chpeek | chrecv | chsend | sleep | flags | srd | swr | unimp
      | ill => delta exec; exact runInstr_opr hi hl ..
  all_goals exact nomatch hf

end

/-- Settles O7: every instruction of a split runs through a skeleton that checks the allocation before the guard. -/
theorem unallocatedRegisterIsOpr : Obligations.UnallocatedRegisterIsOpr :=
  fun _ _ _ _ hf hi hl => exec_opr hi hl hf

end Sys2Proof.Machine
end

section
namespace Sys2Proof.Machine

open Sys2Proof Sys2Proof.Num

/-! ## Values of the read-modify-write operations (R134) -/

theorem ofNat_wrap (w : Nat) (x : Int) : BitVec.ofNat w (wrap w x) = BitVec.ofInt w x := by
  apply BitVec.eq_of_toNat_eq
  rw [BitVec.toNat_ofInt, BitVec.toNat_ofNat, wrap]
  exact Nat.mod_eq_of_lt (by rw [Int.toNat_lt' (by positivity)]; exact_mod_cast Int.emod_lt_of_pos x (by positivity))

/-- The sum of two elements of either signedness. -/
theorem atomNew_sum {w : Nat} {ty : Ty} (hw : (tyShape ty).1 = w) (a b : BitVec w) (r : Nat) :
    BitVec.ofNat w (atomNew 0 ty a.toNat b.toNat r).1 = a + b := by
  change BitVec.ofNat w ((a.toNat + b.toNat) % 2 ^ (tyShape ty).1) = a + b
  rw [hw]
  exact BitVec.eq_of_toNat_eq (by simp)

theorem atomNew_order (ty : Ty) (a b r : Nat) :
    (atomNew 1 ty a b r).1 = wrap (tyShape ty).1 (min (intOf ty.signed (tyShape ty).1 a) (intOf ty.signed (tyShape ty).1 b)) ∧
    (atomNew 2 ty a b r).1 = wrap (tyShape ty).1 (max (intOf ty.signed (tyShape ty).1 a) (intOf ty.signed (tyShape ty).1 b)) :=
  ⟨rfl, rfl⟩

/-- The smaller and the larger of two elements without sign. -/
theorem atomNew_plain {w : Nat} {ty : Ty} (hw : (tyShape ty).1 = w) (hty : ty.signed = false) (a b : BitVec w) (r : Nat) :
    BitVec.ofNat w (atomNew 1 ty a.toNat b.toNat r).1 = (if a.toNat ≤ b.toNat then a else b) ∧
    BitVec.ofNat w (atomNew 2 ty a.toNat b.toNat r).1 = (if a.toNat ≤ b.toNat then b else a) := by
  have hnat (c : BitVec w) : BitVec.ofInt w (c.toNat : Int) = c := by simp
  obtain ⟨hmin, hmax⟩ := atomNew_order ty a.toNat b.toNat r
  rw [hmin, hmax, hw, hty, ofNat_wrap, ofNat_wrap, intOf_plain, intOf_plain, min_def, max_def, apply_ite (BitVec.ofInt w),
    apply_ite (BitVec.ofInt w), hnat, hnat]
  exact ⟨if_congr Nat.cast_le rfl rfl, if_congr Nat.cast_le rfl rfl⟩

/-- The smaller and the larger of two elements with sign. -/
theorem atomNew_signed {w : Nat} {ty : Ty} (hw : (tyShape ty).1 = w + 1) (hty : ty.signed = true) (a b : BitVec (w + 1)) (r : Nat) :
    BitVec.ofNat (w + 1) (atomNew 1 ty a.toNat b.toNat r).1 = (if a.toInt ≤ b.toInt then a else b) ∧
    BitVec.ofNat (w + 1) (atomNew 2 ty a.toNat b.toNat r).1 = (if a.toInt ≤ b.toInt then b else a) := by
  obtain ⟨hmin, hmax⟩ := atomNew_order ty a.toNat b.toNat r
  rw [hmin, hmax, hw, hty, ofNat_wrap, ofNat_wrap, intOf_signed, intOf_signed, min_def, max_def, apply_ite (BitVec.ofInt (w + 1)),
    apply_ite (BitVec.ofInt (w + 1)), BitVec.ofInt_toInt, BitVec.ofInt_toInt]
  exact ⟨rfl, rfl⟩

/-- The bitwise operations, the exchange and the comparison do not read the type. -/
theorem atomNew_bits {w : Nat} (ty : Ty) (a b r : BitVec w) :
    let new (op : Nat) : BitVec w := BitVec.ofNat w (atomNew op ty a.toNat b.toNat r.toNat).1
    new 3 = a &&& b ∧ new 4 = a ||| b ∧ new 5 = a ^^^ b ∧ new 6 = b ∧ new 7 = if a = b then r else a := by
  refine ⟨BitVec.eq_of_toNat_eq (by simp [atomNew]), BitVec.eq_of_toNat_eq (by simp [atomNew]),
    BitVec.eq_of_toNat_eq (by simp [atomNew]), BitVec.eq_of_toNat_eq (by simp [atomNew]), ?_⟩
  change BitVec.ofNat w (if a.toNat = b.toNat then r.toNat else a.toNat) = _
  rw [apply_ite (BitVec.ofNat w), BitVec.ofNat_toNat, BitVec.ofNat_toNat, BitVec.setWidth_eq, BitVec.setWidth_eq]
  exact if_congr BitVec.toNat_inj rfl rfl

/-- FADD is the float instructions' own sum without modifiers, rounded to nearest even. -/
theorem atomNew_float (a b r : Word) {x : Ext} (hty : x.ty = .f32) (hrm : x.rm = .rne) (hsat : x.sat = false) (hvar : x.var = 0) :
    let sum := farith2 addFlags x (0#32 ++ a) (0#32 ++ b)
    BitVec.ofNat 32 (atomNew 8 .f32 a.toNat b.toNat r.toNat).1 = sum.1.extractLsb' 0 32 ∧
      (atomNew 8 .f32 a.toNat b.toNat r.toNat).2 = sum.2 := by
  obtain ⟨hadd, -, -⟩ := redOp_floats a b x hty hsat hvar
  rw [hrm] at hadd
  exact hadd

theorem atomicValues : AtomicValues := by
  refine ⟨fun a b r => ?_, fun a b r => ?_⟩
  · obtain ⟨hminu, hmaxu⟩ := atomNew_plain (ty := .u32) rfl rfl a b r.toNat
    obtain ⟨hmins, hmaxs⟩ := atomNew_signed (ty := .s32) rfl rfl a b r.toNat
    obtain ⟨hand, hor, hxor, hswp, hcas⟩ := atomNew_bits .u32 a b r
    refine ⟨?_, hminu, hmins, hmaxu, hmaxs, hand, hor, hxor, hswp, hcas, fun x => atomNew_float a b r⟩
    rintro ty (rfl | rfl) <;> exact atomNew_sum (w := 32) rfl a b r.toNat
  · obtain ⟨hminu, hmaxu⟩ := atomNew_plain (ty := .u64) rfl rfl a b r.toNat
    obtain ⟨hmins, hmaxs⟩ := atomNew_signed (ty := .s64) rfl rfl a b r.toNat
    obtain ⟨hand, hor, hxor, hswp, hcas⟩ := atomNew_bits .u64 a b r
    refine ⟨?_, hminu, hmins, hmaxu, hmaxs, hand, hor, hxor, hswp, hcas⟩
    rintro ty (rfl | rfl) <;> exact atomNew_sum (w := 64) rfl a b r.toNat

end Sys2Proof.Machine
end

section
namespace Sys2Proof.Machine

open Sys2Proof

/-! ## The line that an access finds or brings (R153, R156) -/

theorem setL1_homes (s : State) (die core line : Nat) (st : Option L1State) (k : Option (Nat × Nat)) :
    HomesOnly s (s.setL1 die core line st k) := by
  unfold State.setL1
  cases st <;> rfl

theorem makeRoom_homes (die core line : Nat) (s : State) : HomesOnly s (makeRoom die core line s) :=
  foldl_keeps (HomesOnly s) _ (fun t v h => (h.trans (setLines_homes t _)).trans (recordCopies_homes v.line _)) _ s rfl

theorem bringLine_homes (die core line : Nat) (w priv : Bool) (s : State) : HomesOnly s (bringLine die core line w priv s) := by
  have room := makeRoom_homes die core line s
  unfold bringLine
  split
  · split
    · exact setL1_homes ..
    · rfl
  · dsimp only
    split
    · exact room.trans (setL1_homes ..)
    · split
      · exact ((room.trans (setLines_homes ..)).trans (setL1_homes ..)).trans (recordCopies_homes ..)
      · exact ((room.trans (setLines_homes ..)).trans (setL1_homes ..)).trans (recordCopies_homes ..)

theorem learnClass_homes (die core n : Nat) (c : Option LineClass) (s : State) : HomesOnly s (learnClass die core n c s) := rfl

/-- Only records of granules and lines, the lines of the cores and the kept clean copies differ. -/
def LinesOnly (s t : State) : Prop :=
  t = { s with granules := t.granules, dir := t.dir, l1 := t.l1, cleanLines := t.cleanLines }

theorem LinesOnly.trans {s t u : State} (h1 : LinesOnly s t) (h2 : LinesOnly t u) : LinesOnly s u :=
  Eq.trans h2 (congrArg (fun z : State =>
    { z with granules := u.granules, dir := u.dir, l1 := u.l1, cleanLines := u.cleanLines }) h1)

theorem HomesOnly.lines {s t : State} (h : HomesOnly s t) : LinesOnly s t := by
  have hclean : t.cleanLines = s.cleanLines := by rw [h]
  unfold LinesOnly
  rw [hclean]
  exact h

theorem keepClean_lines (line : Nat) (s : State) : LinesOnly s (keepClean line s) := by
  unfold keepClean
  split <;> rfl

/-- An HBM access changes lines and granules alone before it is performed. -/
theorem lineAccess_lines (a : Access) (l : LaneAcc) (g : Group) (s : State) : LinesOnly s (lineAccess a l g s) := by
  have brought (die core line n : Nat) (w priv : Bool) (c : Option LineClass) (t : State) :
      LinesOnly t (learnClass die core n c (bringLine die core line w priv t)) := ((bringLine_homes ..).trans (learnClass_homes ..)).lines
  unfold lineAccess
  refine LinesOnly.trans ?_ (brought ..)
  split
  · exact (claim_homes ..).lines.trans (keepClean_lines ..)
  · exact (claim_homes ..).lines

/-- The state in which a lane access finds its place: an HBM access has found or brought its line. -/
def atPlace (a : Access) (l : LaneAcc) (g : Group) (s : State) : State := if l.space = .hbm then lineAccess a l g s else s

theorem atPlace_lines (a : Access) (l : LaneAcc) (g : Group) (s : State) : LinesOnly s (atPlace a l g s) := by
  unfold atPlace
  split
  · exact lineAccess_lines ..
  · rfl

/-- What stands at the place is what stood there. -/
theorem spaceRead_atPlace (a : Access) (l : LaneAcc) (g : Group) (s : State) :
    spaceRead (atPlace a l g s) (s.groupCtx g) g.block l.space l.addr a.bytes = placeValue s a g l := by
  unfold placeValue atPlace
  split
  case isTrue h =>
    rw [h]
    exact congrArg natLE (memBytes_of_mem (lineAccess_mem a l g s) l.addr a.bytes)
  case isFalse => rfl

/-! ## What the end of an access leaves -/

/-- Of two groups the registers and the present lanes are the same. -/
def KeepsRegisters (g h : Group) : Prop := h.vec = g.vec ∧ h.uni = g.uni ∧ h.pred = g.pred ∧ h.present = g.present

theorem KeepsRegisters.trans {g h k : Group} (h1 : KeepsRegisters g h) (h2 : KeepsRegisters h k) : KeepsRegisters g k := by
  obtain ⟨hv, hu, hp, hq⟩ := h1
  obtain ⟨kv, ku, kp, kq⟩ := h2
  exact ⟨kv.trans hv, ku.trans hu, kp.trans hp, kq.trans hq⟩

/-- Only groups and accesses differ, and no register. -/
def RegistersStay (s t : State) : Prop :=
  t = { s with groups := t.groups, acc := t.acc } ∧
    ∀ j g, s.group? j = some g → ∃ h, t.group? j = some h ∧ KeepsRegisters g h

theorem RegistersStay.trans {s t u : State} (h1 : RegistersStay s t) (h2 : RegistersStay t u) : RegistersStay s u := by
  obtain ⟨e1, g1⟩ := h1
  obtain ⟨e2, g2⟩ := h2
  refine ⟨e2.trans (congrArg (fun z : State => { z with groups := u.groups, acc := u.acc }) e1), fun j g hj => ?_⟩
  obtain ⟨h, hh, hkeep⟩ := g1 j g hj
  obtain ⟨k, hk, hkeep'⟩ := g2 j h hh
  exact ⟨k, hk, hkeep.trans hkeep'⟩

theorem registersStay_accesses (s : State) (as : List Access) : RegistersStay s { s with acc := as } :=
  ⟨rfl, fun _ g hj => ⟨g, hj, rfl, rfl, rfl, rfl⟩⟩

theorem registersStay_refl (s : State) : RegistersStay s s := registersStay_accesses s s.acc

theorem registersStay_modGroup (s : State) (gi : Nat) {f : Group → Group} (hf : ∀ g, KeepsRegisters g (f g)) :
    RegistersStay s (s.modGroup gi f) := by
  refine ⟨rfl, fun j g hj => ?_⟩
  rw [group?_modGroup, hj]
  split
  · exact ⟨f g, rfl, hf g⟩
  · exact ⟨g, rfl, rfl, rfl, rfl, rfl⟩

theorem wakeEvents_registers (pa n : Nat) (s : State) : RegistersStay s (wakeEvents pa n s) :=
  foldl_keeps (RegistersStay s) _ (fun t w h => by
    obtain ⟨gi, si, va, wpa, ge, next⟩ := w
    dsimp only
    split
    · exact h.trans (registersStay_modGroup t gi fun _ => ⟨rfl, rfl, rfl, rfl⟩)
    · exact h) _ s (registersStay_refl s)

theorem endLane_registers (id lane : Nat) (s : State) : RegistersStay s (endLane id lane s) := by
  unfold endLane
  dsimp only
  split
  · exact registersStay_accesses ..
  · split
    · exact (registersStay_accesses ..).trans (registersStay_modGroup _ _ fun _ => ⟨rfl, rfl, rfl, rfl⟩)
    · exact registersStay_accesses ..

theorem sweep_registers (gi : Nat) (s : State) : RegistersStay s (sweep gi s) :=
  (registersStay_accesses s _).trans (registersStay_modGroup _ gi fun _ => ⟨rfl, rfl, rfl, rfl⟩)

/-- A write that leaves the lines of the scratchpads wakes no reader of them. -/
theorem wakeIfFilled_same {before s : State} (h : s.blocks = before.blocks) (bi line : Nat) : wakeIfFilled before bi line s = s := by
  have hfull : s.lineFull bi line = before.lineFull bi line := by
    rw [State.lineFull, State.lineGet, State.block?, h]; rfl
  unfold wakeIfFilled
  rw [hfull]
  exact if_neg fun hc => Bool.false_ne_true (hc.1.symm.trans hc.2)

theorem wakeWindow_same {before s : State} (h : s.blocks = before.blocks) (cn pa n : Nat) : wakeWindow before cn pa n s = s :=
  foldl_keeps (fun t : State => t = s) _ (fun t k ht => by
    subst ht
    split
    · exact wakeIfFilled_same h _ _
    · rfl) _ s rfl

/-! ## A lane that is performed -/

/-- Loads and atomics are performed, and their lane ends, with nothing woken but the splits that wait for an event word. -/
def AccKind.fetches : AccKind → Bool
  | .ld | .atom _ => true
  | _ => false

/-- A lane access has been performed: its lane has ended, and the counters are lowered for the accesses that have. -/
def laneReturned (a : Access) (l : LaneAcc) (s : State) : State := sweep a.group (endLane a.id l.lane (performLane a l s))

/-- A load or an atomic that leaves the scratchpads takes its place so. -/
theorem takePlace_fetches {a : Access} {l : LaneAcc} {s : State} (hk : a.kind.fetches = true)
    (hb : (performLane a l s).blocks = s.blocks) : takePlace a l s = laneReturned a l s := by
  have hblocks : (endLane a.id l.lane (performLane a l s)).blocks = s.blocks := by
    rw [(endLane_registers ..).1]; exact hb
  unfold takePlace laneReturned
  cases hkind : a.kind with
  | ld | atom =>
    dsimp only
    split
    · rw [wakeIfFilled_same hblocks]
    · rw [wakeWindow_same hblocks]
    · rfl
  | _ => simp [hkind, AccKind.fetches] at hk

/-- LOAD_DATA_RETURN of such an access. -/
theorem loadDataReturn_fetches {s : State} {id lane : Nat} {a : Access} {l : LaneAcc} {g : Group} (h : Performing s id lane a l g)
    (hk : a.kind.fetches = true) (hb : (performLane a l s).blocks = s.blocks) :
    exec (.loadDataReturn id lane) s = .next (laneReturned a l s) := by
  obtain ⟨ha, hl, -, hready⟩ := h
  have hloads : a.kind.isStore = false ∧ a.kind ≠ .lds := by
    cases hkind : a.kind with
    | ld | atom => exact ⟨rfl, nofun⟩
    | _ => simp [hkind, AccKind.fetches] at hk
  obtain ⟨hstore, hlds⟩ := hloads
  rw [exec_loadDataReturn, execLoadDataReturn, performEvent, ha]
  dsimp only
  rw [hl]
  dsimp only
  rw [hstore, hready, if_neg hlds, takePlace_fetches hk hb]
  rfl

end Sys2Proof.Machine
end

section
namespace Sys2Proof.Machine

open Sys2Proof

/-! ## Little-endian bytes -/

theorem bytesLE_succ (n v : Nat) : bytesLE (n + 1) v = BitVec.ofNat 8 v :: bytesLE n (v / 256) := by
  unfold bytesLE
  rw [List.range_succ_eq_map, List.map_cons, List.map_map]
  refine congrArg₂ List.cons (by simp) (List.map_congr_left fun k _ => ?_)
  rw [Function.comp_apply, Nat.div_div_eq_div_mul, show (256 : Nat) = 2 ^ 8 from rfl, ← Nat.pow_add, Nat.mul_succ, Nat.add_comm]

theorem bytesLE_length (n v : Nat) : (bytesLE n v).length = n := by simp [bytesLE]

/-- The number that the bytes of a value hold is its low part. -/
theorem natLE_bytesLE : ∀ n v : Nat, natLE (bytesLE n v) = v % 2 ^ (8 * n)
  | 0, v => by simp [bytesLE, natLE, Nat.mod_one]
  | n + 1, v => by
    have hrest : natLE (bytesLE (n + 1) v) = (BitVec.ofNat 8 v).toNat + 256 * natLE (bytesLE n (v / 256)) := by
      rw [bytesLE_succ]; rfl
    rw [hrest, natLE_bytesLE n, BitVec.toNat_ofNat, show 8 * (n + 1) = 8 + 8 * n by omega, Nat.pow_add, Nat.mod_mul]

theorem natLE_lt : ∀ bs : List Byte, natLE bs < 2 ^ (8 * bs.length)
  | [] => by simp [natLE]
  | b :: bs => by
    have hb := b.isLt
    have hrest := natLE_lt bs
    have hcons : natLE (b :: bs) = b.toNat + 256 * natLE bs := rfl
    rw [hcons, List.length_cons, show 8 * (bs.length + 1) = 8 * bs.length + 8 by omega, Nat.pow_add]
    omega

theorem bytesLE_getD {n k : Nat} (v : Nat) (hk : k < n) : (bytesLE n v).getD k 0 = BitVec.ofNat 8 (v / 2 ^ (8 * k)) := by
  simp [bytesLE, List.getD_eq_getElem?_getD, hk]

/-- Bytes below the n-th of a value's low n bytes are the value's own. -/
theorem byte_mod {n k : Nat} (v : Nat) (hk : k < n) :
    BitVec.ofNat 8 (v % 2 ^ (8 * n) / 2 ^ (8 * k)) = BitVec.ofNat 8 (v / 2 ^ (8 * k)) := by
  apply BitVec.eq_of_toNat_eq
  rw [BitVec.toNat_ofNat, BitVec.toNat_ofNat, show 8 * n = 8 * k + (8 + 8 * (n - k - 1)) by omega, Nat.pow_add,
    Nat.mod_mul_right_div_self, Nat.pow_add, Nat.mod_mul_right_mod]

/-! ## Bytes written to HBM and to host memory -/

theorem foldl_memPut : ∀ (bs : List Byte) (k a : Nat) (s : State),
    (bs.zipIdx k).foldl (fun s x => s.memPut (a + x.2) x.1) s = s.memPutBytes (a + k) bs
  | [], _, _, _ => rfl
  | b :: bs, k, a, s => by
    rw [List.zipIdx_cons, List.foldl_cons, foldl_memPut bs (k + 1) a]
    rfl

theorem spaceWrite_hbm (s : State) (cn bi a n v : Nat) : spaceWrite s cn bi .hbm a n v = s.memPutBytes a (bytesLE n v) :=
  foldl_memPut (bytesLE n v) 0 a s

/-- Memory after a number has been written to HBM. -/
theorem memGet_spaceWrite (s : State) (cn bi a n v pa : Nat) : (spaceWrite s cn bi .hbm a n v).memGet pa =
    if a ≤ pa ∧ pa < a + n then BitVec.ofNat 8 (v / 2 ^ (8 * (pa - a))) else s.memGet pa := by
  rw [spaceWrite_hbm, memGet_memPutBytes, bytesLE_length]
  by_cases h : a ≤ pa ∧ pa < a + n
  · rw [if_pos h, if_pos h, bytesLE_getD v (by omega)]
  · rw [if_neg h, if_neg h]

theorem memBytes_spaceWrite (s : State) (cn bi a n v : Nat) : (spaceWrite s cn bi .hbm a n v).memBytes a n = bytesLE n v := by
  unfold State.memBytes bytesLE
  refine List.map_congr_left fun k hk => ?_
  rw [memGet_spaceWrite, if_pos ⟨by omega, by simpa using hk⟩, Nat.add_sub_cancel_left]

/-- A write to HBM changes memory, and no more. -/
theorem spaceWrite_hbm_only (s : State) (cn bi a n v : Nat) : ∃ m, spaceWrite s cn bi .hbm a n v = { s with mem := m } := by
  rw [spaceWrite_hbm]
  exact memPutBytes_mem ..

/-- Within a bus page host addresses run with bus addresses (R123). -/
theorem hostPa_add (s : State) {a j : Nat} (h : a % 4096 + j < 4096) : s.hostPa (a + j) = s.hostPa a + j := by
  have hdiv : (a + j) / 4096 = a / 4096 := by omega
  have hmod : (a + j) % 4096 = a % 4096 + j := by omega
  unfold State.hostPa
  rw [hdiv, hmod]
  split <;> omega

/-- Of two states host memory, the posted writes and the translation of bus addresses are the same. -/
theorem hostGet_congr {s t : State} (hp : t.posted = s.posted) (hm : t.hostMem = s.hostMem) (ha : t.atc = s.atc)
    (he : t.atsEpoch = s.atsEpoch) (pa : Nat) : t.hostGet pa = s.hostGet pa := by
  unfold State.hostGet State.hostPa
  rw [hp, hm, ha, he]

theorem hostGet_hostPut (s : State) (cn a : Nat) (b : Byte) (pa : Nat) :
    (s.hostPut cn a b).hostGet pa = if s.hostPa pa = s.hostPa a then b else s.hostGet pa := by
  have hpa : (s.hostPut cn a b).hostPa pa = s.hostPa pa := rfl
  have hposted : (s.hostPut cn a b).posted = (s.ctxPart cn, s.hostPa a, b) :: s.posted := rfl
  unfold State.hostGet
  rw [hpa, hposted, List.find?_cons]
  by_cases h : s.hostPa pa = s.hostPa a
  · rw [if_pos h, show (s.hostPa a == s.hostPa pa) = true from beq_iff_eq.mpr h.symm]
  · rw [if_neg h, show (s.hostPa a == s.hostPa pa) = false from beq_eq_false_iff_ne.mpr (Ne.symm h)]
    rfl

/-- Host memory after consecutive bytes of one bus page are posted (R167). -/
theorem hostGet_foldl (cn a : Nat) : ∀ (bs : List Byte) (k : Nat) (s : State) (pa : Nat), a % 4096 + (k + bs.length) ≤ 4096 →
    ((bs.zipIdx k).foldl (fun s x => s.hostPut cn (a + x.2) x.1) s).hostGet pa =
      if s.hostPa a + k ≤ s.hostPa pa ∧ s.hostPa pa < s.hostPa a + k + bs.length then bs.getD (s.hostPa pa - (s.hostPa a + k)) 0
      else s.hostGet pa
  | [], k, s, pa, _ => (if_neg (by rw [List.length_nil]; omega)).symm
  | b :: bs, k, s, pa, h => by
    rw [List.length_cons] at h
    have hpa (x : Nat) : (s.hostPut cn (a + k) b).hostPa x = s.hostPa x := rfl
    rw [List.zipIdx_cons, List.foldl_cons, hostGet_foldl cn a bs (k + 1) _ pa (by omega), hpa, hpa, hostGet_hostPut,
      hostPa_add s (by omega), List.length_cons]
    by_cases hfirst : s.hostPa pa = s.hostPa a + k
    · rw [if_neg (by omega), if_pos hfirst, if_pos (by omega), hfirst, Nat.sub_self, List.getD_cons_zero]
    · by_cases hrest : s.hostPa a + (k + 1) ≤ s.hostPa pa ∧ s.hostPa pa < s.hostPa a + (k + 1) + bs.length
      · rw [if_pos hrest, if_pos (by omega), show s.hostPa pa - (s.hostPa a + k) = (s.hostPa pa - (s.hostPa a + (k + 1))) + 1 by omega,
          List.getD_cons_succ]
      · rw [if_neg hrest, if_neg hfirst, if_neg (by omega)]

/-- Host memory after a number has been written at a bus address, inside one bus page. -/
theorem hostGet_spaceWrite {s : State} {cn bi a n v : Nat} (h : a % 4096 + n ≤ 4096) (pa : Nat) :
    (spaceWrite s cn bi .host a n v).hostGet pa = if s.hostPa a ≤ s.hostPa pa ∧ s.hostPa pa < s.hostPa a + n then
      BitVec.ofNat 8 (v / 2 ^ (8 * (s.hostPa pa - s.hostPa a))) else s.hostGet pa := by
  have hwritten := hostGet_foldl cn a (bytesLE n v) 0 s pa (by rw [bytesLE_length]; omega)
  rw [bytesLE_length] at hwritten
  refine hwritten.trans ?_
  by_cases hin : s.hostPa a ≤ s.hostPa pa ∧ s.hostPa pa < s.hostPa a + n
  · rw [if_pos (by omega), if_pos hin, Nat.add_zero, bytesLE_getD v (by omega)]
  · rw [if_neg (by omega), if_neg hin]

/-- Such a write posts bytes, and no more. -/
theorem spaceWrite_host_only (s : State) (cn bi a n v : Nat) : ∃ ps, spaceWrite s cn bi .host a n v = { s with posted := ps } :=
  foldl_keeps (fun t : State => ∃ ps, t = { s with posted := ps }) _ (fun t x h => by
    obtain ⟨ps, rfl⟩ := h
    exact ⟨_, rfl⟩) _ s ⟨s.posted, rfl⟩

end Sys2Proof.Machine
end

section
namespace Sys2Proof.Machine

open Sys2Proof

/-! ## Loaded values in the registers (R65, R131, R326) -/

/-- A word of a value that fills up to four registers. -/
theorem extractLsb'_ofNat (v : Nat) {k : Nat} (hk : k < 4) :
    (BitVec.ofNat 128 v).extractLsb' (32 * k) 32 = BitVec.ofNat 32 (v / 2 ^ (32 * k)) := by
  apply BitVec.eq_of_toNat_eq
  rw [BitVec.extractLsb'_toNat, BitVec.toNat_ofNat, BitVec.toNat_ofNat, Nat.shiftRight_eq_div_pow,
    show 128 = 32 * k + (32 + 32 * (3 - k)) by omega, Nat.pow_add, Nat.mod_mul_right_div_self, Nat.pow_add, Nat.mod_mul_right_mod]

theorem regsOf_eq {n : Nat} (hn : n ∈ [1, 2, 4, 8, 16]) : regsOf n = (n + 3) / 4 ∧ regsOf n ≤ 4 := by
  revert n; decide

/-- A loaded value changes vector registers alone. -/
theorem fill_frame (g : Group) (d L n : Nat) (v : BitVec 128) : g.fill d L n v = { g with vec := (g.fill d L n v).vec } := by
  unfold Group.fill
  split
  · rfl
  · exact (foldl_vset_rows d (fun k _ => v.extractLsb' (32 * k) 32) [L] g (regsOf n)).1

/-- A lane that has not ended receives a loaded value. -/
theorem fill_receives {g : Group} {a : Access} {lane v : Nat} (hpresent : g.present.getLsbD lane = true)
    (hended : g.ended.getLsbD lane = false) (hn : a.bytes ∈ [1, 2, 4, 8, 16]) :
    LaneReceives g (g.fill a.d lane a.bytes (BitVec.ofNat 128 v)) a lane v := by
  obtain ⟨hregs, hfour⟩ := regsOf_eq hn
  obtain ⟨-, hget⟩ := foldl_vset_rows a.d (fun k _ => (BitVec.ofNat 128 v).extractLsb' (32 * k) 32) [lane] g (regsOf a.bytes)
  intro r L
  rw [Group.fill, hended]
  refine (hget r L).trans ?_
  rw [hregs] at hfour ⊢
  by_cases h : L = lane ∧ a.d ≤ r ∧ r < a.d + (a.bytes + 3) / 4
  · obtain ⟨rfl, hr⟩ := h
    rw [if_pos ⟨hr, List.mem_singleton_self L, hpresent⟩, if_pos ⟨rfl, hr⟩, extractLsb'_ofNat v (by omega)]
  · rw [if_neg fun hc => h ⟨List.mem_singleton.mp hc.2.1, hc.1⟩, if_neg h]

/-- A lane that has ended keeps the values that it held then. -/
theorem fill_ended {g : Group} {lane : Nat} (hended : g.ended.getLsbD lane = true) (d n : Nat) (v : BitVec 128) :
    g.fill d lane n v = g := if_pos hended

/-- The extension by the type's sign. -/
theorem extend_eq {a : Access} {v : Nat} (hn : a.bytes ∈ [1, 2, 4, 8, 16]) (hv : v < 2 ^ (8 * a.bytes)) :
    extend a.ty a.bytes v = BitVec.ofNat 128 (extended a v) := by
  have hsign (hlt : a.bytes < 4) : v.testBit (8 * a.bytes - 1) = true ↔ 2 ^ (8 * a.bytes - 1) ≤ v := by
    have hpow : 2 ^ (8 * a.bytes) = 2 * 2 ^ (8 * a.bytes - 1) := by
      rw [← Nat.pow_succ']
      congr 1
      have hpos : 0 < a.bytes := by revert hn; generalize a.bytes = n; revert n; decide
      omega
    have hdiv : v / 2 ^ (8 * a.bytes - 1) < 2 := Nat.div_lt_of_lt_mul (by omega)
    have hone : 1 ≤ v / 2 ^ (8 * a.bytes - 1) ↔ 1 * 2 ^ (8 * a.bytes - 1) ≤ v := Nat.le_div_iff_mul_le (by positivity)
    rw [Nat.testBit_eq_decide_div_mod_eq, decide_eq_true_eq, Nat.mod_eq_of_lt hdiv]
    omega
  unfold extend extended
  by_cases h : a.bytes < 4 ∧ a.ty.signed = true ∧ 2 ^ (8 * a.bytes - 1) ≤ v
  · obtain ⟨hlt, hty, hv⟩ := h
    rw [if_pos ⟨hlt, hty, (hsign hlt).mpr hv⟩, if_pos ⟨hlt, hty, hv⟩, Nat.add_comm v]
  · rw [if_neg h, if_neg fun hc => h ⟨hc.1, hc.2.1, (hsign hc.1).mp hc.2.2⟩]

theorem placeValue_lt (s : State) (a : Access) (g : Group) (l : LaneAcc) : placeValue s a g l < 2 ^ (8 * a.bytes) := by
  have h := natLE_lt ((List.range a.bytes).map (fun k => spaceGet s (s.groupCtx g) g.block l.space (l.addr + k)))
  rwa [List.length_map, List.length_range] at h

/-- Of a group only vector registers have changed since the lane received its value. -/
theorem KeepsRegisters.receives {g h : Group} {a : Access} {lane v : Nat} {w : BitVec 128}
    (hk : KeepsRegisters (g.fill a.d lane a.bytes w) h) (hw : w = BitVec.ofNat 128 v) (hpresent : g.present.getLsbD lane = true)
    (hended : g.ended.getLsbD lane = false) (hn : a.bytes ∈ [1, 2, 4, 8, 16]) :
    LaneReceives g h a lane v ∧ h.uni = g.uni ∧ h.pred = g.pred := by
  subst hw
  obtain ⟨hv, hu, hp, hq⟩ := hk
  have hframe := fill_frame g a.d lane a.bytes (BitVec.ofNat 128 v)
  refine ⟨?_, by rw [hu, hframe], by rw [hp, hframe]⟩
  have hfill := fill_receives (v := v) hpresent hended hn
  unfold LaneReceives Group.vget at *
  rwa [hv, hq]

end Sys2Proof.Machine
end

section
namespace Sys2Proof.Machine

open Sys2Proof

/-! ## The counter of an access that has ended (R184, R185) -/

theorem sweepClass_none {gi : Nat} {cl : Ctr} : ∀ {as : List Access}, (∀ b ∈ as, ¬ (b.group = gi ∧ b.ctr = cl)) →
    sweepClass gi cl as = (as, 0)
  | [], _ => rfl
  | b :: as, h => by
    rw [sweepClass, if_neg (h b List.mem_cons_self), sweepClass_none fun c hc => h c (List.mem_cons_of_mem b hc)]

/-- The only access of its class leaves when it is finished. -/
theorem sweepClass_one {gi : Nat} {cl : Ctr} {a : Access} {post : List Access} (ha : a.group = gi ∧ a.ctr = cl) (hdone : a.done = true)
    (hpost : ∀ b ∈ post, ¬ (b.group = gi ∧ b.ctr = cl)) : ∀ {pre : List Access}, (∀ b ∈ pre, ¬ (b.group = gi ∧ b.ctr = cl)) →
    sweepClass gi cl (pre ++ a :: post) = (pre ++ post, 1)
  | [], _ => by rw [List.nil_append, sweepClass, if_pos ha, if_pos hdone, sweepClass_none hpost]; rfl
  | b :: pre, h => by
    rw [List.cons_append, sweepClass, if_neg (h b List.mem_cons_self),
      sweepClass_one ha hdone hpost fun c hc => h c (List.mem_cons_of_mem b hc)]
    rfl

theorem sweepClass_subset {gi : Nat} {cl : Ctr} {b : Access} : ∀ {as : List Access}, b ∈ (sweepClass gi cl as).1 → b ∈ as
  | [], h => h
  | c :: as, h => by
    rw [sweepClass] at h
    split at h
    · split at h
      · exact List.mem_cons_of_mem c (sweepClass_subset h)
      · exact h
    · rcases List.mem_cons.mp h with rfl | h
      · exact List.mem_cons_self
      · exact List.mem_cons_of_mem c (sweepClass_subset h)

/-- An access one of whose lanes has been performed. -/
def Access.laneDone (a : Access) (lane : Nat) : Access :=
  { a with lanes := a.lanes.map (fun l => if l.lane = lane then { l with stage := .done } else l) }

theorem laneDone_done {a : Access} {lane : Nat} (h : LastLane a lane) : (a.laneDone lane).done = true := by
  refine List.all_eq_true.mpr fun m hm => ?_
  obtain ⟨l, hl, rfl⟩ := List.mem_map.mp hm
  split
  · rfl
  · rw [h l hl ‹_›]; rfl

/-- The last lane of an access ends it. -/
theorem endLane_last {s : State} {a : Access} {lane : Nat} {pre post : List Access} (hacc : s.acc = pre ++ a :: post)
    (hids : ∀ b ∈ pre ++ post, b.id ≠ a.id) (hlast : LastLane a lane) :
    endLane a.id lane s = endAccess (a.laneDone lane) { s with acc := pre ++ a.laneDone lane :: post } := by
  have hsame (bs : List Access) (h : ∀ b ∈ bs, b ∈ pre ++ post) :
      bs.map (fun b => if b.id = a.id then b.laneDone lane else b) = bs :=
    (List.map_congr_left fun b hb => if_neg (hids b (h b hb))).trans (List.map_id' bs)
  have hnew : s.modAccess a.id (fun b => b.laneDone lane) = { s with acc := pre ++ a.laneDone lane :: post } := by
    rw [State.modAccess, hacc, List.map_append, List.map_cons, if_pos rfl, hsame pre fun b hb => List.mem_append_left post hb,
      hsame post fun b hb => List.mem_append_right pre hb]
  have hfind : ({ s with acc := pre ++ a.laneDone lane :: post } : State).access? a.id = some (a.laneDone lane) := by
    have hpre : pre.find? (fun b => b.id == a.id) = none :=
      List.find?_eq_none.mpr fun b hb h => hids b (List.mem_append_left post hb) (by simpa using h)
    rw [State.access?, List.find?_append, hpre, Option.none_or]
    exact List.find?_cons_of_pos (by simp [Access.laneDone])
  rw [endLane, show s.modAccess a.id (fun b =>
    { b with lanes := b.lanes.map (fun l => if l.lane = lane then { l with stage := .done } else l) }) = _ from hnew]
  rw [hfind]
  exact if_pos (laneDone_done hlast)

/-- The last lane of a group's only access that L counts lowers L, and the access is no longer outstanding (R185). -/
theorem lastLane_lowers {s : State} {g : Group} {a : Access} {lane : Nat} {pre post : List Access} (hacc : s.acc = pre ++ a :: post)
    (hothers : ∀ b ∈ pre ++ post, b.id ≠ a.id ∧ ¬ (b.group = a.group ∧ b.ctr = .l)) (hctr : a.ctr = .l) (hlast : LastLane a lane)
    (hg : s.group? a.group = some g) :
    (∃ h, (sweep a.group (endLane a.id lane s)).group? a.group = some h ∧ h.cntL = g.cntL - 1) ∧
      ∀ b ∈ (sweep a.group (endLane a.id lane s)).acc, b.id ≠ a.id := by
  have hcounted (bs : List Access) (h : ∀ b ∈ bs, b ∈ pre ++ post) : ∀ b ∈ sweepUncounted bs, ¬ (b.group = a.group ∧ b.ctr = .l) :=
    fun b hb => (hothers b (h b (List.mem_of_mem_filter hb))).2
  have hun : sweepUncounted (pre ++ a.laneDone lane :: post) = sweepUncounted pre ++ a.laneDone lane :: sweepUncounted post := by
    rw [sweepUncounted, List.filter_append, List.filter_cons_of_pos (by simp [Access.laneDone, hctr])]
    rfl
  have hone : sweepClass a.group .l (sweepUncounted (pre ++ a.laneDone lane :: post)) =
      (sweepUncounted pre ++ sweepUncounted post, 1) := by
    rw [hun]
    exact sweepClass_one (a := a.laneDone lane) ⟨rfl, hctr⟩ (laneDone_done hlast) (hcounted post fun b hb => List.mem_append_right pre hb)
      (hcounted pre fun b hb => List.mem_append_left post hb)
  have hgroup : (sweep a.group (endAccess (a.laneDone lane) { s with acc := pre ++ a.laneDone lane :: post })).group? a.group =
      some _ := group?_modGroup_same _ (group?_modGroup_same _ hg)
  rw [endLane_last hacc (fun b hb => (hothers b hb).1) hlast]
  refine ⟨⟨_, hgroup, ?_⟩, fun b hb => ?_⟩
  · change g.cntL - (sweepClass a.group .l (sweepUncounted (pre ++ a.laneDone lane :: post))).2 = g.cntL - 1
    rw [hone]
  · have hb' : b ∈ (sweepClass a.group .s (sweepClass a.group .l (sweepUncounted (pre ++ a.laneDone lane :: post))).1).1 := hb
    rw [hone] at hb'
    have hmem : b ∈ sweepUncounted (pre ++ post) := by
      rw [sweepUncounted, List.filter_append]
      exact sweepClass_subset hb'
    exact (hothers b (List.mem_of_mem_filter hmem)).1

end Sys2Proof.Machine
end

section
namespace Sys2Proof.Machine

open Sys2Proof

/-! ## Loads and atomics (O34) -/

theorem LinesOnly.fields {s t : State} (h : LinesOnly s t) : t.groups = s.groups ∧ t.acc = s.acc ∧ t.mem = s.mem ∧
    t.hostMem = s.hostMem ∧ t.posted = s.posted ∧ t.blocks = s.blocks ∧ t.ctxs = s.ctxs ∧ t.atc = s.atc ∧ t.atsEpoch = s.atsEpoch := by
  rw [h]
  exact ⟨rfl, rfl, rfl, rfl, rfl, rfl, rfl, rfl, rfl⟩

/-- A lane of LD writes its register, once its line is there. -/
theorem performLane_ld {s : State} {a : Access} {l : LaneAcc} {g : Group} (hk : a.kind = .ld) (hg : s.group? a.group = some g) :
    performLane a l s = (atPlace a l g s).modGroup a.group (fun g' =>
      g'.fill a.d l.lane a.bytes (extend a.ty a.bytes (placeValue s a g l))) := by
  rw [← spaceRead_atPlace]
  unfold performLane
  rw [hg, hk]
  rfl

/-- What an atomic operation leaves at its place. -/
def atomicResult (s : State) (a : Access) (l : LaneAcc) (g : Group) (op : Nat) : Nat :=
  (atomNew op a.ty (placeValue s a g l) (l.data.toNat % 2 ^ (8 * a.bytes)) (l.data2.toNat % 2 ^ (8 * a.bytes))).1

/-- The state in which an atomic operation has written its place. -/
def atomicWritten (s : State) (a : Access) (l : LaneAcc) (g : Group) (op : Nat) : State :=
  spaceWrite (atPlace a l g s) (s.groupCtx g) g.block l.space l.addr a.bytes (atomicResult s a l g op)

/-- A lane of ATOM writes its place, then its register; what follows changes no register. -/
theorem performLane_atom {s : State} {a : Access} {l : LaneAcc} {g : Group} {op : Nat} (hk : a.kind = .atom op)
    (hg : s.group? a.group = some g) :
    RegistersStay ((atomicWritten s a l g op).modGroup a.group (fun g' =>
      g'.fill a.d l.lane a.bytes (BitVec.ofNat 128 (placeValue s a g l)))) (performLane a l s) := by
  have woken (t : State) : RegistersStay t (if l.space = .hbm then wakeEvents l.addr a.bytes t else t) := by
    split
    · exact wakeEvents_registers ..
    · exact registersStay_refl t
  unfold atomicWritten atomicResult
  rw [← spaceRead_atPlace]
  unfold performLane atPlace
  rw [hg, hk]
  dsimp only
  generalize (if l.space = .hbm then lineAccess a l g s else s) = u
  exact (registersStay_accesses ..).trans (woken _)

/-- What LOAD_DATA_RETURN of a load or an atomic leaves, once its lane has been performed in a state v with the groups and blocks
of before: the lane's register is written, and only groups and accesses have changed since. -/
theorem loadDataReturn_leaves {s v : State} {id lane : Nat} {a : Access} {l : LaneAcc} {g : Group} {w : BitVec 128}
    (h : Performing s id lane a l g) (hk : a.kind.fetches = true) (hgroups : v.groups = s.groups) (hblocks : v.blocks = s.blocks)
    (hperf : RegistersStay (v.modGroup a.group (fun g' => g'.fill a.d l.lane a.bytes w)) (performLane a l s)) :
    exec (.loadDataReturn id lane) s = .next (laneReturned a l s) ∧
      (∃ h, (laneReturned a l s).group? a.group = some h ∧ KeepsRegisters (g.fill a.d lane a.bytes w) h) ∧
      laneReturned a l s = { v with groups := (laneReturned a l s).groups, acc := (laneReturned a l s).acc } := by
  have hreturn := loadDataReturn_fetches h hk
  obtain ⟨-, hl, hg, -⟩ := h
  obtain rfl : l.lane = lane := by simpa using List.find?_some hl
  have hvg : v.group? a.group = some g := by rw [State.group?, hgroups]; exact hg
  obtain ⟨honly, hstay⟩ := (hperf.trans (endLane_registers a.id l.lane _)).trans (sweep_registers a.group _)
  exact ⟨hreturn (by rw [hperf.1]; exact hblocks), hstay a.group _ (group?_modGroup_same _ hvg), honly⟩

section
variable {s : State} {id lane : Nat} {a : Access} {l : LaneAcc} {g : Group} (h : Performing s id lane a l g)
include h

/-- A lane of LD writes its register, and no byte of memory changes. -/
theorem ld_leaves (hk : a.kind = .ld) :
    exec (.loadDataReturn id lane) s = .next (laneReturned a l s) ∧
      (∃ h, (laneReturned a l s).group? a.group = some h ∧
        KeepsRegisters (g.fill a.d lane a.bytes (extend a.ty a.bytes (placeValue s a g l))) h) ∧
      MemorySame s (laneReturned a l s) := by
  have ⟨_, _, hg, _⟩ := h
  obtain ⟨hgroups, -, hmem, hhost, hposted, hblocks, hctxs, -, -⟩ := (atPlace_lines a l g s).fields
  have hperf := performLane_ld (l := l) hk hg
  obtain ⟨hexec, hgroup, honly⟩ := loadDataReturn_leaves h (by rw [hk]; rfl) hgroups hblocks (by rw [hperf]; exact registersStay_refl _)
  refine ⟨hexec, hgroup, ?_⟩
  unfold MemorySame
  rw [honly]
  exact ⟨hmem, hhost, hposted, hblocks, hctxs⟩

/-- The last lane of a group's only load that L counts lowers L. -/
theorem ld_lowers (hk : a.kind = .ld) {pre post : List Access} (hacc : s.acc = pre ++ a :: post)
    (hothers : ∀ b ∈ pre ++ post, b.id ≠ a.id ∧ ¬ (b.group = a.group ∧ b.ctr = .l)) (hctr : a.ctr = .l) (hlast : LastLane a lane) :
    (∃ h, (laneReturned a l s).group? a.group = some h ∧ h.cntL = g.cntL - 1) ∧ ∀ b ∈ (laneReturned a l s).acc, b.id ≠ a.id := by
  obtain ⟨-, hl, hg, -⟩ := h
  obtain rfl : l.lane = lane := by simpa using List.find?_some hl
  obtain ⟨hgroups, hsame, -⟩ := (atPlace_lines a l g s).fields
  have hperf := performLane_ld (l := l) hk hg
  have hacc' : (performLane a l s).acc = pre ++ a :: post := by rw [hperf]; exact hsame.trans hacc
  have hg' : (performLane a l s).group? a.group = some (g.fill a.d l.lane a.bytes (extend a.ty a.bytes (placeValue s a g l))) := by
    rw [hperf]
    exact group?_modGroup_same _ (by rw [State.group?, hgroups]; exact hg)
  obtain ⟨⟨k, hk', hcnt⟩, hids⟩ := lastLane_lowers hacc' hothers hctr hlast hg'
  exact ⟨⟨k, hk', by rw [hcnt, fill_frame]⟩, hids⟩

variable {op : Nat} (hk : a.kind = .atom op) (hpresent : g.present.getLsbD lane = true) (hended : g.ended.getLsbD lane = false)
  (hn : a.bytes = 4 ∨ a.bytes = 8)
include hk hpresent hended hn

/-- A lane of ATOM receives the old value where the write of its place changes no group and no block. -/
theorem atom_leaves (hgroups : (atomicWritten s a l g op).groups = s.groups)
    (hblocks : (atomicWritten s a l g op).blocks = s.blocks) :
    exec (.loadDataReturn id lane) s = .next (laneReturned a l s) ∧
      (∃ h, (laneReturned a l s).group? a.group = some h ∧ LaneReceives g h a lane (placeValue s a g l) ∧
        h.uni = g.uni ∧ h.pred = g.pred) ∧
      laneReturned a l s = { atomicWritten s a l g op with groups := (laneReturned a l s).groups, acc := (laneReturned a l s).acc } := by
  have ⟨_, _, hg, _⟩ := h
  obtain ⟨hexec, ⟨k, hk', hkeep⟩, honly⟩ := loadDataReturn_leaves h (by rw [hk]; rfl) hgroups hblocks (performLane_atom hk hg)
  have hsize : a.bytes ∈ [1, 2, 4, 8, 16] := by rcases hn with hn | hn <;> simp [hn]
  exact ⟨hexec, ⟨k, hk', hkeep.receives rfl hpresent hended hsize⟩, honly⟩

/-- ATOM on HBM (R134, R327). -/
theorem atom_hbm (hsp : l.space = .hbm) : ∃ t h, exec (.loadDataReturn id lane) s = .next t ∧ t.group? a.group = some h ∧
    LaneReceives g h a lane (placeValue s a g l) ∧ h.uni = g.uni ∧ h.pred = g.pred ∧
    (∀ pa, pa < l.addr ∨ l.addr + a.bytes ≤ pa → t.memGet pa = s.memGet pa) ∧
    natLE (t.memBytes l.addr a.bytes) = atomicResult s a l g op % 2 ^ (8 * a.bytes) ∧ t.hostMem = s.hostMem ∧
    t.posted = s.posted ∧ t.blocks = s.blocks := by
  obtain ⟨hgroups, -, hmem, hhost, hposted, hblocks, -, -, -⟩ := (atPlace_lines a l g s).fields
  have hwritten : atomicWritten s a l g op =
      spaceWrite (atPlace a l g s) (s.groupCtx g) g.block .hbm l.addr a.bytes (atomicResult s a l g op) := by rw [atomicWritten, hsp]
  obtain ⟨m, hm⟩ := spaceWrite_hbm_only (atPlace a l g s) (s.groupCtx g) g.block l.addr a.bytes (atomicResult s a l g op)
  have hw := hwritten.trans hm
  obtain ⟨hexec, ⟨k, hk', hold, hu, hp⟩, honly⟩ := atom_leaves h hk hpresent hended hn (by rw [hw]; exact hgroups) (by rw [hw]; exact hblocks)
  have hmem' : (laneReturned a l s).mem =
      (spaceWrite (atPlace a l g s) (s.groupCtx g) g.block .hbm l.addr a.bytes (atomicResult s a l g op)).mem := by rw [honly, hwritten]
  refine ⟨_, k, hexec, hk', hold, hu, hp, fun pa hpa => ?_, ?_, by rw [honly, hw]; exact hhost, by rw [honly, hw]; exact hposted,
    by rw [honly, hw]; exact hblocks⟩
  · rw [memGet_of_mem hmem', memGet_spaceWrite, if_neg (by omega), memGet_of_mem hmem]
  · rw [memBytes_of_mem hmem', memBytes_spaceWrite, natLE_bytesLE]

/-- ATOM at a host address (R134, R167, R327). -/
theorem atom_host (hsp : l.space = .host) (hpage : l.addr % 4096 + a.bytes ≤ 4096) :
    ∃ t h, exec (.loadDataReturn id lane) s = .next t ∧ t.group? a.group = some h ∧
    LaneReceives g h a lane (placeValue s a g l) ∧ h.uni = g.uni ∧ h.pred = g.pred ∧ t.mem = s.mem ∧ t.hostMem = s.hostMem ∧
    t.blocks = s.blocks ∧
    ∀ pa, t.hostGet pa = if s.hostPa l.addr ≤ s.hostPa pa ∧ s.hostPa pa < s.hostPa l.addr + a.bytes then
      BitVec.ofNat 8 (atomicResult s a l g op % 2 ^ (8 * a.bytes) / 2 ^ (8 * (s.hostPa pa - s.hostPa l.addr))) else s.hostGet pa := by
  have hplace : atPlace a l g s = s := if_neg (by rw [hsp]; exact nofun)
  have hwritten : atomicWritten s a l g op =
      spaceWrite s (s.groupCtx g) g.block .host l.addr a.bytes (atomicResult s a l g op) := by rw [atomicWritten, hsp, hplace]
  obtain ⟨ps, hps⟩ := spaceWrite_host_only s (s.groupCtx g) g.block l.addr a.bytes (atomicResult s a l g op)
  have hw := hwritten.trans hps
  obtain ⟨hexec, ⟨k, hk', hold, hu, hp⟩, honly⟩ := atom_leaves h hk hpresent hended hn (by rw [hw]) (by rw [hw])
  refine ⟨_, k, hexec, hk', hold, hu, hp, by rw [honly, hw], by rw [honly, hw], by rw [honly, hw], fun pa => ?_⟩
  have hsame : (laneReturned a l s).hostGet pa =
      (spaceWrite s (s.groupCtx g) g.block .host l.addr a.bytes (atomicResult s a l g op)).hostGet pa :=
    hostGet_congr (by rw [honly, hwritten]) (by rw [honly, hwritten]) (by rw [honly, hwritten]) (by rw [honly, hwritten]) pa
  rw [hsame, hostGet_spaceWrite hpage]
  by_cases hin : s.hostPa l.addr ≤ s.hostPa pa ∧ s.hostPa pa < s.hostPa l.addr + a.bytes
  · rw [if_pos hin, if_pos hin, byte_mod _ (by omega)]
  · rw [if_neg hin, if_neg hin]

end

/-- Settles O34: one lemma for a load and one for an atomic in each space, over what LOAD_DATA_RETURN leaves of a performed lane. -/
theorem loadsPerform : Obligations.LoadsPerform := by
  refine ⟨atomicValues, fun id lane s a l g h hpresent hn => ⟨fun hk hended => ?_, fun hended => ⟨fun hk => ?_, ?_, ?_⟩⟩⟩
  · obtain ⟨hexec, ⟨k, hk', hkeep⟩, hmem⟩ := ld_leaves h hk
    rw [fill_ended hended] at hkeep
    obtain ⟨hv, hu, hp, -⟩ := hkeep
    exact ⟨_, k, hexec, hk', hv, hu, hp, hmem⟩
  · obtain ⟨hexec, ⟨k, hk', hkeep⟩, hmem⟩ := ld_leaves h hk
    obtain ⟨hreceives, hu, hp⟩ := hkeep.receives (extend_eq hn (placeValue_lt s a g l)) hpresent hended hn
    refine ⟨_, k, hexec, hk', hreceives, hu, hp, hmem, fun pre post hacc hothers hctr hlast => ?_⟩
    obtain ⟨⟨k', hk'', hcnt⟩, hids⟩ := ld_lowers h hk hacc hothers hctr hlast
    obtain rfl : k' = k := Option.some.inj (hk''.symm.trans hk')
    exact ⟨hcnt, hids⟩
  · exact fun op hk hsp hsize => atom_hbm h hk hpresent hended hsize hsp
  · exact fun op hk _ hsp hsize hpage => atom_host h hk hpresent hended hsize hsp hpage

end Sys2Proof.Machine
end

section
namespace Sys2Proof

/-! ## Decoding of bytes and of majors (O1, O2) -/

/-- Settles O1: the bytes read back as the words of the instruction, which decode to it whatever follows. -/
theorem decodeOfEncode : Obligations.DecodeOfEncode := by
  intro i rest hw hne
  rw [decodeBytes, wordsOfBytes_flatMap]
  exact Laws.RoundTrip.statement i hw hne (wordsOfBytes rest)

/-- The majors below 56 that carry no instructions (R79, R80). -/
def emptyMajors : List Nat := [0, 14, 15, 20, 21, 22, 23, 26, 27, 31, 38, 39, 50, 51, 54, 55]

/-- A major without instructions has none of the formats that the decoder knows. -/
theorem emptyMajor_formats {m : Nat} (h : m ∈ emptyMajors) :
    ¬ 56 ≤ m ∧ m ≠ 1 ∧ m ≠ 7 ∧ ¬ (m = 2 ∨ m = 3) ∧ ¬ (m = 4 ∨ m = 5 ∨ m = 6) ∧ ¬ extMajors.contains m = true := by
  revert m; decide

theorem decode_emptyMajor {w0 : Word} (h : majOf w0 ∈ emptyMajors) (rest : List Word) :
    decode (w0 :: rest) = .error .reservedMajor := by
  obtain ⟨hunimp, h1, h7, hsi, hsb, hext⟩ := emptyMajor_formats h
  simp only [decode, if_neg hunimp, if_neg h1, if_neg h7, if_neg hsi, if_neg hsb, if_neg hext]

theorem decode_unimp {w0 : Word} (h : 56 ≤ majOf w0) (rest : List Word) :
    decode (w0 :: rest) = .ok (.unimp w0, wordCount (lenOf w0)) := if_pos h

/-- Settles O2. -/
theorem majorsWithoutInstructions : Obligations.MajorsWithoutInstructions :=
  fun _ rest => ⟨fun h => decode_emptyMajor h rest, fun h => decode_unimp h rest⟩

end Sys2Proof
end

section
namespace Sys2Proof.Machine
open Sys2Proof

/-! ## Instructions that trap by themselves (O22) -/

section

variable {s : State} {g : Group} {p : Split} {x : Ext} {gd : Guard}

/-- The 16-bit code that SVC and TRAP take from B (R233). -/
def callCode (g : Group) (x : Ext) : DWord := BitVec.ofNat 64 ((opB g x false 0).toNat % 2 ^ 16)

theorem callCode_toNat (g : Group) (x : Ext) : (callCode g x).toNat = (opB g x false 0).toNat % 2 ^ 16 := by
  rw [callCode, BitVec.toNat_ofNat]; omega

/-- What an instruction with allocated registers leaves is what its body makes of its issue. -/
theorem exec_leaves {i : Instr} {body : Issue → State → State} {t : State} (hexec : exec i s = runInstr i gd body s)
    (h : Executes s g p i) (hbody : body (issueOf s g p i gd) s = t) : exec i s = .next t :=
  hexec.trans ((runInstr_executes gd body h).trans (congrArg Host.Outcome.next hbody))

/-- TRAP (R234). -/
theorem trap_traps (h : Executes s g p (.trap x)) (hsome : guardLanes g p x.guard &&& ~~~g.helpers ≠ 0) :
    exec (.trap x) s = .next (trapped s g p (.trap x) .trap (callCode g x) (guardLanes g p x.guard)) :=
  exec_leaves (exec_trap x s) h (if_neg hsome)

/-- SVC outside a handler: the split keeps the code and the address behind it (R234). -/
theorem svc_traps (h : Executes s g p (.svc x)) (hsome : guardLanes g p x.guard &&& ~~~g.helpers ≠ 0) (hhandler : g.handler = none) :
    exec (.svc x) s = .next ((trapped s g p (.svc x) .svc (callCode g x) (guardLanes g p x.guard)).modSplit s.curG s.curS (fun q =>
      { q with wait := .service (callCode g x).toNat (behind p (.svc x)) })) := by
  rw [callCode_toNat]
  exact exec_leaves (exec_svc x s) h ((if_neg hsome).trans (if_neg (by simp [issueOf, hhandler])))

/-- SVC in a handler (R190). -/
theorem svc_handler (h : Executes s g p (.svc x)) (hsome : guardLanes g p x.guard &&& ~~~g.helpers ≠ 0) (hhandler : g.handler.isSome) :
    exec (.svc x) s = .next (trapped s g p (.svc x) .hnd 0 (guardLanes g p x.guard)) :=
  exec_leaves (exec_svc x s) h ((if_neg hsome).trans (if_pos hhandler))

/-- BKPT under DEBUG (R287). -/
theorem bkpt_traps {code : BitVec 8} (h : Executes s g p (.bkpt gd code)) (hsome : guardLanes g p gd &&& ~~~g.helpers ≠ 0)
    (hdebug : ((s.groupCtx? g).map (fun c => c.debug)).getD false = true) :
    exec (.bkpt gd code) s = .next (trapped s g p (.bkpt gd code) .bkpt (0#56 ++ code) (guardLanes g p gd)) :=
  exec_leaves (exec_bkpt gd code s) h ((if_neg hsome).trans (if_pos hdebug))

/-- BKPT without DEBUG is a counted NOP (R287). -/
theorem bkpt_passes {code : BitVec 8} (h : Executes s g p (.bkpt gd code)) (hsome : guardLanes g p gd &&& ~~~g.helpers ≠ 0)
    (hdebug : ((s.groupCtx? g).map (fun c => c.debug)).getD false = false) :
    ∃ u, PassesBy s u g p (.bkpt gd code) ∧
      exec (.bkpt gd code) s = .next { u with perf := { s.perf with bkpt := s.perf.bkpt + 1 } } :=
  ⟨_, passesBy_of (gd := gd) h.1,
    exec_leaves (exec_bkpt gd code s) h ((if_neg hsome).trans (if_neg (Bool.not_eq_true _ ▸ hdebug)))⟩

/-- ILL stops the split at its word, for all its lanes whatever its guard (R80, R81). -/
theorem ill_traps {w0 : Word} (h : Executes s g p (.ill w0)) :
    exec (.ill w0) s = .next (takeTrap s.curG s.curS .ill (0#32 ++ w0) (p.mask &&& ~~~g.helpers) (unfinished g p (guardOf w0)) s) :=
  exec_leaves (exec_ill w0 s) h rfl

/-- UNIMP is counted; a decoder for its major parks the split, otherwise it takes ILL (R82 to R84). -/
theorem unimp_traps {w0 : Word} (h : Executes s g p (.unimp w0)) :
    let s1 : State := { s with perf := { s.perf with unimp := s.perf.unimp + 1 } }
    if s.emuMajors.contains (majOf w0) then
      ∃ t, exec (.unimp w0) s = .next t ∧ SplitBecomes s1 t g p (fun q => { q with wait := .emulation w0 })
    else exec (.unimp w0) s = .next (trapped s1 g p (.unimp w0) .ill (0#32 ++ w0) p.mask) := by
  intro s1
  split
  case isTrue hm => exact ⟨_, exec_leaves (exec_unimp w0 s) h (if_pos hm), splitBecomes_of (s := s1) h.1 _⟩
  case isFalse hm => exact exec_leaves (exec_unimp w0 s) h (if_neg hm)

end

/-- Settles O22: one lemma for each instruction. -/
theorem trapInstructions : Obligations.TrapInstructions := fun _ _ _ _ _ _ _ =>
  ⟨trap_traps, svc_traps, svc_handler, fun h hsome => ⟨bkpt_traps h hsome, bkpt_passes h hsome⟩,
    ill_traps, unimp_traps⟩

end Sys2Proof.Machine
end

section
namespace Sys2Proof.Machine
open Sys2Proof

/-! ## MAP and UNMAP (O48) -/

/-- Entries that a filter keeps read as before. -/
theorem tab_get_filter_kept {α : Type} (d : α) {p : Nat × α → Bool} {k : Nat} : ∀ {t : Tab α},
    (∀ v, p (k, v) = true) → Tab.get d (t.filter p) k = Tab.get d t k
  | [], _ => rfl
  | (j, v) :: rest, h => by
    have ih := tab_get_filter_kept d (t := rest) h
    by_cases hj : j = k
    · subst hj
      rw [List.filter_cons, if_pos (h v), Tab.get, Tab.get, if_pos rfl, if_pos rfl]
    · have hrest : Tab.get d ((j, v) :: rest) k = Tab.get d rest k := by rw [Tab.get, if_neg hj]
      rw [hrest, ← ih, List.filter_cons]
      split
      · rw [Tab.get, if_neg hj]
      · rfl

section

variable {c : Cmd} {m : MemArgs} {s : State} {x : Ctx}

/-- What UNMAP does with the parts of mappings that lie in its range. -/
def unmapStep (c : Cmd) (m : MemArgs) (gone : List Mapping) (s : State) : State :=
  if gone = [] then complete c 0 0 s
  else
    match drainAll (granuleIn gone) s with
    | (u, false) => u
    | (u, true) =>
      complete c 0 (BitVec.ofNat 64 ((gone.map (fun o => o.pages * o.psize)).sum))
        (unmapRange c.ctx m.va.toNat m.pages m.psize gone u)

/-- MAP (R122, R144). -/
theorem map_completes (hp : plainCmd c = true) (hx : s.ctx? c.ctx = some x) (hargs : argsOk m = true) (hreport : m.report = 0)
    (hattr : m.attr.toNat < 64) (htarget : m.target.toNat % pageBytes m.psize = 0)
    (hwr : (argsMapping m).w = true → (argsMapping m).r = true) (hok : targetOk s x (argsMapping m) (argsSize m) = true)
    (hmeets : ∀ o ∈ x.maps, o.meets (argsMapping m).va (argsSize m) = false)
    (hbusy : (argsMapping m).space = .hbm → frameBusy s (argsMapping m).target (argsSize m) = false) :
    exec (.map c m) s = .next (complete c 0 0
      ((if (argsMapping m).space = .hbm then zeroFrames x (argsMapping m).target (argsSize m) s else s).modCtx c.ctx
        (fun x => { x with maps := x.maps ++ [argsMapping m] }))) := by
  have hany : x.maps.any (fun o => o.meets (argsMapping m).va (argsSize m)) = false := by
    simpa only [List.any_eq_false, Bool.not_eq_true] using hmeets
  have hright : ((argsMapping m).w && !(argsMapping m).r) = false := by
    cases hw : (argsMapping m).w with
    | false => rfl
    | true => rw [hwr hw]; rfl
  rw [exec_map, execMap, onCtx_plain hp hx]
  dsimp only
  rw [if_neg (by simp [hargs, hreport, hattr, htarget, hright, hok, hany]), if_neg (by simpa using hbusy)]

/-- Memory over frames that are zeroed: the new ones read as zero (R144). -/
theorem memGet_zeroFrames (x : Ctx) (base n pa : Nat) (s : State) : (zeroFrames x base n s).memGet pa =
    if base ≤ pa ∧ pa < base + n ∧ (∀ o ∈ x.maps, o.space = .hbm → pa < o.target ∨ o.target + o.pages * o.psize ≤ pa) then 0
    else s.memGet pa := by
  have hnew : (decide (base ≤ pa) && decide (pa < base + n) &&
      !x.maps.any (fun m => m.space == .hbm && decide (m.target ≤ pa) && decide (pa < m.target + m.pages * m.psize))) = true ↔
      base ≤ pa ∧ pa < base + n ∧ (∀ o ∈ x.maps, o.space = .hbm → pa < o.target ∨ o.target + o.pages * o.psize ≤ pa) := by
    simp only [Bool.and_eq_true, decide_eq_true_eq, Bool.not_eq_true', List.any_eq_false, beq_iff_eq, not_and, not_lt, and_assoc]
    refine and_congr_right fun _ => and_congr_right fun _ => forall₂_congr fun o _ => imp_congr_right fun _ => ?_
    omega
  split
  case isTrue h => exact tab_get_filter 0 fun _ => congrArg Bool.not (hnew.mpr h)
  case isFalse h => exact tab_get_filter_kept 0 fun _ => congrArg Bool.not (Bool.eq_false_iff.mpr fun h' => h (hnew.mp h'))

variable (hp : plainCmd c = true) (hx : s.ctx? c.ctx = some x) (hargs : argsOk m = true) (htarget : m.target = 0) (hattr : m.attr = 0)
  (hreport : m.report = 0)

include hp hx hargs htarget hattr hreport

/-- UNMAP does what the parts of the mappings in its range ask for, where it cuts no page (R377). -/
theorem unmap_runs (hcut : ∀ o ∈ x.maps, o.cut m.va.toNat (argsSize m) = false) : exec (.unmap c m) s =
    .next (unmapStep c m (x.maps.filterMap (fun o => o.inside m.va.toNat (argsSize m))) s) := by
  have hany : x.maps.any (fun o => o.cut m.va.toNat (argsSize m)) = false := by
    simpa only [List.any_eq_false, Bool.not_eq_true] using hcut
  rw [exec_unmap, execUnmap, onCtx_plain hp hx]
  dsimp only
  rw [if_neg (by simp [hargs, htarget, hattr, hreport, hany])]
  rfl

/-- UNMAP of a range that holds no mapping changes nothing. -/
theorem unmap_nothing (hcut : ∀ o ∈ x.maps, o.cut m.va.toNat (argsSize m) = false)
    (hgone : x.maps.filterMap (fun o => o.inside m.va.toNat (argsSize m)) = []) :
    exec (.unmap c m) s = .next (complete c 0 0 s) := by
  rw [unmap_runs hp hx hargs htarget hattr hreport hcut, unmapStep, if_pos hgone]

/-- UNMAP takes its range away once the granules behind it are drained (R143, R158). -/
theorem unmap_completes {gone : List Mapping} {u : State} (hcut : ∀ o ∈ x.maps, o.cut m.va.toNat (argsSize m) = false)
    (hgone : x.maps.filterMap (fun o => o.inside m.va.toNat (argsSize m)) = gone) (hsome : gone ≠ [])
    (hdrain : drainAll (granuleIn gone) s = (u, true)) : exec (.unmap c m) s = .next
      (complete c 0 (BitVec.ofNat 64 ((gone.map (fun o => o.pages * o.psize)).sum))
        (unmapRange c.ctx m.va.toNat m.pages m.psize gone u)) := by
  rw [unmap_runs hp hx hargs htarget hattr hreport hcut, hgone, unmapStep, if_neg hsome, hdrain]

end

/-! ## RECLASSIFY (O48) -/

/-- A drain that has come to its end: nothing but the homes' records and the lines differ, the granules of the test are
UNCLASSIFIED and the others as before (R157, R158). -/
theorem drainAll_done {p : Nat → Bool} {s u : State} (h : drainAll p s = (u, true)) :
    HomesOnly s u ∧ (∀ g ∈ u.granules, p g.num = true → g.cls = .unclassified) ∧
      ∀ g ∈ s.granules, p g.num = false → g ∈ u.granules := by
  unfold drainAll at h
  dsimp only at h
  split at h
  case isFalse => cases h
  case isTrue =>
    have hgranules : ∀ (gs : List Granule) (v : State),
        (gs.foldl (fun s g => drainHolders g.num .unclassified g.holders s) v).granules = v.granules := fun gs v =>
      foldl_keeps (fun t : State => t.granules = v.granules) _ (fun _ _ h => (drainHolders_granules ..).trans h) gs v rfl
    have hhomes : ∀ (gs : List Granule) (v : State),
        HomesOnly v (gs.foldl (fun s g => drainHolders g.num .unclassified g.holders s) v) := fun gs v =>
      foldl_keeps (HomesOnly v) _ (fun _ _ h => h.trans (drainHolders_homes ..)) gs v rfl
    obtain rfl := (Prod.mk.inj h).1
    refine ⟨(hhomes _ s).trans rfl, fun g hg hp => ?_, fun g hg hp => ?_⟩
    · obtain ⟨g', -, rfl⟩ := List.mem_map.mp hg
      by_cases hopen : (p g'.num && g'.cls != .unclassified) = true
      · rw [if_pos hopen]
      · rw [if_neg hopen] at hp ⊢
        simpa [hp] using hopen
    · refine List.mem_map.mpr ⟨g, (hgranules _ s).symm ▸ hg, if_neg ?_⟩
      rw [hp]; simp

/-- A number of base-4 digits, the lowest first. -/
def quaternary (f : Nat → Nat) (n : Nat) : Nat := (List.range n).foldr (fun k acc => f k * 4 ^ k + acc) 0

theorem quaternary_succ (f : Nat → Nat) (n : Nat) : quaternary f (n + 1) = quaternary f n + f n * 4 ^ n := by
  have hinit : ∀ (l : List Nat) (z : Nat), l.foldr (fun k acc => f k * 4 ^ k + acc) z =
      l.foldr (fun k acc => f k * 4 ^ k + acc) 0 + z := by
    intro l z
    induction l with
    | nil => simp
    | cons k l ih => rw [List.foldr_cons, List.foldr_cons, ih, Nat.add_assoc]
  rw [quaternary, quaternary, List.range_succ, List.foldr_append, hinit]
  simp

theorem quaternary_lt {f : Nat → Nat} (hf : ∀ k, f k < 4) : ∀ n, quaternary f n < 4 ^ n
  | 0 => by simp [quaternary]
  | n + 1 => by
    have hle : f n * 4 ^ n ≤ 3 * 4 ^ n := Nat.mul_le_mul_right _ (by have := hf n; omega)
    have := quaternary_lt hf n
    rw [quaternary_succ, pow_succ]
    omega

theorem quaternary_digit {f : Nat → Nat} (hf : ∀ k, f k < 4) {k : Nat} : ∀ {n : Nat}, k < n → quaternary f n / 4 ^ k % 4 = f k
  | n + 1, hk => by
    rw [quaternary_succ]
    rcases Nat.lt_or_ge k n with hlt | hge
    · have hpow : f n * 4 ^ n = (4 * (f n * 4 ^ (n - k - 1))) * 4 ^ k := by
        rw [show n = (n - k - 1) + 1 + k by omega, pow_add, pow_succ, show (n - k - 1) + 1 + k - k - 1 = n - k - 1 by omega]; ring
      rw [hpow, Nat.add_mul_div_right _ _ (by positivity), Nat.add_mul_mod_self_left, quaternary_digit hf hlt]
    · obtain rfl : k = n := by omega
      rw [Nat.add_mul_div_right _ _ (by positivity), Nat.div_eq_of_lt (quaternary_lt hf k), Nat.zero_add, Nat.mod_eq_of_lt (hf k)]

theorem code_lt (g : GranClass) : g.code < 4 := by cases g <;> simp [GranClass.code]

/-- The class of the granule behind page k of a run of virtual addresses, UNCLASSIFIED where none is. -/
def previousClass (s : State) (x : Ctx) (va k : Nat) : GranClass :=
  match mapFind x.maps (va + 4096 * k) with
  | some o => if o.space = .hbm then (s.granule (o.phys (va + 4096 * k) / 4096)).cls else .unclassified
  | none => .unclassified

/-- RECLASSIFY of a range whose granules are drained: VALUE tells the previous classes of its first 32 pages (R158). -/
theorem reclassify_completes {c : Cmd} {m : MemArgs} {s u : State} {x : Ctx} (hp : plainCmd c = true) (hx : s.ctx? c.ctx = some x)
    (hargs : argsOk m = true) (htarget : m.target = 0) (hattr : m.attr = 0) (hreport : m.report = 0)
    (hdrain : drainAll (granuleIn (x.maps.filterMap (fun o => o.insideFine m.va.toNat (argsSize m)))) s = (u, true)) :
    exec (.reclassify c m) s = .next (complete c 0
      (BitVec.ofNat 64 (quaternary (fun k => (previousClass s x m.va.toNat k).code) (min 32 (argsSize m / 4096)))) u) := by
  rw [exec_reclassify, execReclassify, onCtx_plain hp hx]
  dsimp only
  rw [if_neg (by simp [hargs, htarget, hattr, hreport]), hdrain, hreport]
  rfl

/-- The digits of RECLASSIFY's VALUE. -/
theorem reclassify_value (s : State) (x : Ctx) {va n k : Nat} {o : Mapping} (hk : k < 32) (hn : k < n)
    (ho : mapFind x.maps (va + 4096 * k) = some o) (hspace : o.space = .hbm) :
    (BitVec.ofNat 64 (quaternary (fun k => (previousClass s x va k).code) (min 32 n))).toNat / 4 ^ k % 4 =
      (s.granule (o.phys (va + 4096 * k) / 4096)).cls.code := by
  have hdigits : ∀ k, (previousClass s x va k).code < 4 := fun k => code_lt _
  have hlt : quaternary (fun k => (previousClass s x va k).code) (min 32 n) < 2 ^ 64 :=
    calc _ < 4 ^ min 32 n := quaternary_lt hdigits _
      _ ≤ 4 ^ 32 := Nat.pow_le_pow_right (by decide) (Nat.min_le_left ..)
      _ = 2 ^ 64 := by decide
  rw [BitVec.toNat_ofNat, Nat.mod_eq_of_lt hlt, quaternary_digit hdigits (by omega), previousClass, ho]
  exact congrArg GranClass.code (if_pos hspace)

end Sys2Proof.Machine
end

section
namespace Sys2Proof.Machine
open Sys2Proof

/-! ## Instruction caches and page walks (O48) -/

theorem overlaps_iff {a n b m : Nat} : overlaps a n b m = true ↔ n ≠ 0 ∧ m ≠ 0 ∧ a < b + m ∧ b < a + n := by
  simp [overlaps, and_assoc]

/-- A sector that the HBM mappings of a context lead to from a run of its addresses. -/
def sectorHit (x : Ctx) (va bytes sector : Nat) : Bool :=
  (x.maps.filter (fun m => m.space == .hbm && m.meets va bytes)).any (fun m =>
    overlaps (m.phys (max m.va va)) (min (m.va + m.pages * m.psize) (va + bytes) - max m.va va) (32 * sector) 32)

/-- The sector behind an address of the run in an HBM mapping is such a sector. -/
theorem sectorHit_phys {x : Ctx} {o : Mapping} {va bytes a : Nat} (ho : o ∈ x.maps) (hspace : o.space = .hbm) (hlo : o.va ≤ a)
    (hhi : a < o.va + o.pages * o.psize) (hva : va ≤ a) (hend : a < va + bytes) : sectorHit x va bytes (o.phys a / 32) = true := by
  have hmeets : o.meets va bytes = true := overlaps_iff.mpr (by omega)
  refine List.any_eq_true.mpr ⟨o, List.mem_filter.mpr ⟨ho, by simp [hspace, hmeets]⟩, overlaps_iff.mpr ?_⟩
  simp only [Mapping.phys]
  omega

/-- ICACHE_INVAL drops every sector of the range that an HBM mapping leads to (R96, R168). -/
theorem icacheInval_completes {c : Cmd} {s : State} {x : Ctx} (va : DWord) (bytes : Nat) (hp : plainCmd c = true)
    (hx : s.ctx? c.ctx = some x) : ∃ keep : Nat → Bool, exec (.icacheInval c va bytes) s = .next (complete c 0 0
      { s.modCtx c.ctx (fun x => { x with texts := x.texts.map (fun t =>
          if va.toNat ≤ t.lo ∧ t.hi ≤ va.toNat + bytes then { t with ready := true } else t) }) with
        icache := s.icache.filter (fun e => keep e.sector) }) ∧
    ∀ o ∈ x.maps, o.host = false → o.window = false → ∀ a, o.va ≤ a → a < o.va + o.pages * o.psize → va.toNat ≤ a →
      a < va.toNat + bytes → keep (o.phys a / 32) = false := by
  refine ⟨fun sector => !sectorHit x va.toNat bytes sector, ?_, fun o ho hhost hwindow a hlo hhi hva hend => ?_⟩
  · rw [exec_icacheInval, execIcacheInval, onCtx_plain hp hx]
    rfl
  · have hspace : o.space = .hbm := by simp [Mapping.space, hhost, hwindow]
    exact congrArg Bool.not (sectorHit_phys ho hspace hlo hhi hva hend)

/-- The entries that a trim of the TLBs keeps were there before, and the newest stays where its TLB has room for one. -/
theorem tlbTrim_append (s : State) (t : TlbEntry) (ht : 0 < tlbSize s t.die t.part) : ∀ es : List TlbEntry,
    ∃ ks, tlbTrim s (es ++ [t]) = ks ++ [t] ∧ ∀ e ∈ ks, e ∈ es
  | [] => ⟨[], by simp [tlbTrim, ht], by simp⟩
  | e :: es => by
    obtain ⟨ks, htrim, hks⟩ := tlbTrim_append s t ht es
    rw [List.cons_append, tlbTrim, htrim]
    split
    · refine ⟨e :: ks, rfl, fun e' he => ?_⟩
      rcases List.mem_cons.mp he with rfl | he
      · exact List.mem_cons_self
      · exact List.mem_cons_of_mem _ (hks e' he)
    · exact ⟨ks, rfl, fun e' he => List.mem_cons_of_mem _ (hks e' he)⟩

theorem tlbFind_second (s : State) (die cn va : Nat) : s.tlbFind die .second cn va =
    (s.tlb.find? (fun t => t.part == .second && t.covers die cn va)).map (fun t => t.map) := by
  rw [State.tlbFind]
  cases s.tlb.find? (fun t => t.part == .second && t.covers die cn va) <;> rfl

/-- The page of an address in a mapping holds the address. -/
theorem page_holds {o : Mapping} {va : Nat} (hlo : o.va ≤ va) (hhi : va < o.va + o.pages * o.psize) :
    o.page va ≤ va ∧ va < o.page va + o.psize := by
  have hpos : 0 < o.psize := by
    rcases Nat.eq_zero_or_pos o.psize with h | h
    · rw [h] at hhi; omega
    · exact h
  have hdiv := Nat.div_add_mod (va - o.va) o.psize
  have hmod := Nat.mod_lt (va - o.va) hpos
  rw [Nat.mul_comm] at hdiv
  rw [Mapping.page]
  omega

theorem mapFind_some {maps : List Mapping} {va : Nat} {o : Mapping} (h : mapFind maps va = some o) :
    o ∈ maps ∧ o.va ≤ va ∧ va < o.va + o.pages * o.psize :=
  ⟨List.mem_of_find?_eq_some h, by simpa using List.find?_some h⟩

/-- PAGE_WALK_COMPLETION: the second level takes the translation as its newest entry (R136). -/
theorem pageWalk_fills {s : State} {x : Ctx} {cn die : Nat} {va : DWord} {o : Mapping} (hx : s.ctx? cn = some x)
    (ho : mapFind x.maps va.toNat = some o) (hpresent : x.present o va.toNat = true)
    (hnone : s.tlbFind die .second cn va.toNat = none) (hbind : die ∈ x.bind) :
    ∃ t, exec (.pageWalkCompletion die cn va) s = .next t ∧ t = { s with tlb := t.tlb } ∧
      t.tlbFind die .second cn va.toNat = some o ∧
      ∀ e ∈ t.tlb, e ∈ s.tlb ∨ (e.die = die ∧ e.ctx = cn ∧ e.va = o.page va.toNat ∧ e.map = o ∧ e.part = .second) := by
  obtain ⟨-, hlo, hhi⟩ := mapFind_some ho
  obtain ⟨hpage, hpage'⟩ := page_holds hlo hhi
  have hwalk : tlbWalk die cn va.toNat s = tlbEnter { die := die, ctx := cn, va := o.page va.toNat, map := o, part := .second } s := by
    rw [tlbWalk, hx]
    dsimp only
    rw [ho]
    dsimp only
    rw [if_neg (by simp [hpresent, hnone, hbind])]
  obtain ⟨ks, htrim, hks⟩ := tlbTrim_append s { die := die, ctx := cn, va := o.page va.toNat, map := o, part := .second }
    (show 0 < 8192 by decide) s.tlb
  have htlb : (tlbWalk die cn va.toNat s).tlb = ks ++ [{ die := die, ctx := cn, va := o.page va.toNat, map := o, part := .second }] := by
    rw [hwalk]; exact htrim
  refine ⟨_, exec_pageWalkCompletion .., by rw [hwalk]; rfl, ?_, fun e he => ?_⟩
  · rw [tlbFind_second, Option.map_eq_none_iff, List.find?_eq_none] at hnone
    have hold : ks.find? (fun t => t.part == .second && t.covers die cn va.toNat) = none :=
      List.find?_eq_none.mpr fun e he => hnone e (hks e he)
    rw [tlbFind_second, htlb, List.find?_append, hold]
    simp [TlbEntry.covers, hpage, hpage']
  · rw [htlb, List.mem_append, List.mem_singleton] at he
    rcases he with he | rfl
    · exact Or.inl (hks e he)
    · exact Or.inr ⟨rfl, rfl, rfl, rfl, rfl⟩

/-! ## Invalidation logs (O48) -/

/-- Only cached translations and the dies' logs differ. -/
def LogsOnly (s t : State) : Prop := t = { s with tlb := t.tlb, atc := t.atc, logs := t.logs }

theorem LogsOnly.trans {s t u : State} (h1 : LogsOnly s t) (h2 : LogsOnly t u) : LogsOnly s u :=
  Eq.trans h2 (congrArg (fun z : State => { z with tlb := u.tlb, atc := u.atc, logs := u.logs }) h1)

/-- The parts of a state that no log concerns. -/
theorem LogsOnly.fields {s t : State} (h : LogsOnly s t) : t.mem = s.mem ∧ t.ctxs = s.ctxs ∧ t.logSeq = s.logSeq ∧
    t.atsEpoch = s.atsEpoch := by
  rw [h]; exact ⟨rfl, rfl, rfl, rfl⟩

theorem dieLog_die (s : State) (d : Nat) : (s.dieLog d).die = d := by
  rw [State.dieLog]
  cases h : s.logs.find? (fun l => l.die == d) with
  | none => rfl
  | some l => simpa using List.find?_some h

theorem dieLog_setDieLog (s : State) (l : DieLog) (d : Nat) : (s.setDieLog l).dieLog d = if d = l.die then l else s.dieLog d := by
  rw [State.dieLog, State.setDieLog, List.find?_append]
  split
  case isTrue h =>
    subst h
    rw [List.find?_eq_none.mpr fun m hm => by simpa using (List.mem_filter.mp hm).2]
    simp
  case isFalse h =>
    have hlast : [l].find? (fun m => m.die == d) = none := by simp [Ne.symm h]
    have hkeep : (s.logs.filter (fun m => m.die != l.die)).find? (fun m => m.die == d) = s.logs.find? (fun m => m.die == d) := by
      rw [List.find?_filter]
      refine congrArg (s.logs.find? ·) (funext fun m => ?_)
      by_cases hm : m.die = d
      · simp [hm, h]
      · simp [hm]
    rw [hlast, Option.or_none, hkeep, State.dieLog]

/-- An entry appended to the log of a die. -/
def logEntry (e : LogEntry) (s : State) (d : Nat) : State := s.setDieLog { s.dieLog d with entries := (s.dieLog d).entries ++ [e] }

theorem logEntry_only (e : LogEntry) (s : State) (d : Nat) : LogsOnly s (logEntry e s d) := rfl

theorem dieLog_logEntry (e : LogEntry) (s : State) (d j : Nat) : (logEntry e s d).dieLog j =
    if j = d then { s.dieLog d with entries := (s.dieLog d).entries ++ [e] } else s.dieLog j := by
  rw [logEntry, dieLog_setDieLog, dieLog_die]

/-- Once an entry stands in a die's log, later entries leave it there. -/
theorem mem_logEntry {e e' : LogEntry} {s : State} {j : Nat} (d : Nat) (h : e ∈ (s.dieLog j).entries) :
    e ∈ ((logEntry e' s d).dieLog j).entries := by
  rw [dieLog_logEntry]
  split
  case isTrue hj => subst hj; exact List.mem_append_left _ h
  case isFalse => exact h

/-- The entry stands in the log of every die of the list. -/
theorem mem_foldl_logEntry (e : LogEntry) {j : Nat} {dies : List Nat} (hj : j ∈ dies) :
    ∀ s : State, e ∈ ((dies.foldl (logEntry e) s).dieLog j).entries := by
  induction dies with
  | nil => cases hj
  | cons d dies ih =>
    intro s
    rw [List.foldl_cons]
    rcases List.mem_cons.mp hj with rfl | hj
    · exact foldl_keeps (fun t : State => e ∈ (t.dieLog j).entries) _ (fun _ d h => mem_logEntry d h) dies _
        (by rw [dieLog_logEntry, if_pos rfl]; simp)
    · exact ih hj _

/-! ### The application of a log -/

theorem applyLog_only (s : State) (d : Nat) : LogsOnly s (applyLog s d) := by
  unfold applyLog
  dsimp only
  split <;> rfl

theorem applyLogs_cons (d : Nat) (dies : List Nat) (s : State) : applyLogs (d :: dies) s = applyLogs dies (applyLog s d) := rfl

theorem applyLogs_only (dies : List Nat) (s : State) : LogsOnly s (applyLogs dies s) :=
  foldl_keeps (LogsOnly s) _ (fun _ d h => h.trans (applyLog_only _ d)) dies s rfl

theorem dieLog_applyLog (s : State) (d j : Nat) : (applyLog s d).dieLog j =
    if j = d then { die := d, entries := [], applied := s.logSeq } else s.dieLog j := by
  unfold applyLog
  dsimp only
  rw [dieLog_setDieLog]
  split
  · rfl
  · split <;> rfl

/-- A die whose log is applied has no entry and stands at the newest one. -/
theorem dieLog_applyLogs {j : Nat} {dies : List Nat} : ∀ s : State, (applyLogs dies s).dieLog j =
    if j ∈ dies then { die := j, entries := [], applied := s.logSeq } else s.dieLog j := by
  induction dies with
  | nil => intro s; rw [if_neg List.not_mem_nil]; rfl
  | cons d dies ih =>
    intro s
    rw [applyLogs_cons, ih, dieLog_applyLog, (applyLog_only s d).fields.2.2.1]
    by_cases hmem : j ∈ dies
    · rw [if_pos hmem, if_pos (List.mem_cons_of_mem _ hmem)]
    · by_cases hjd : j = d
      · rw [if_neg hmem, if_pos hjd, if_pos (hjd ▸ List.mem_cons_self), hjd]
      · rw [if_neg hmem, if_neg hjd, if_neg (by simp [hjd, hmem])]

/-- Logs that are applied take cached translations away and bring none. -/
theorem applyLog_cached (s : State) (d : Nat) : (∀ t ∈ (applyLog s d).tlb, t ∈ s.tlb) ∧ ∀ a ∈ (applyLog s d).atc, a ∈ s.atc := by
  unfold applyLog
  dsimp only
  split
  · exact ⟨fun _ h => h, fun _ h => (List.mem_filter.mp h).1⟩
  · exact ⟨fun _ h => (List.mem_filter.mp h).1, fun _ h => h⟩

theorem applyLogs_cached (dies : List Nat) (s : State) :
    (∀ t ∈ (applyLogs dies s).tlb, t ∈ s.tlb) ∧ ∀ a ∈ (applyLogs dies s).atc, a ∈ s.atc :=
  foldl_keeps (fun u : State => (∀ t ∈ u.tlb, t ∈ s.tlb) ∧ ∀ a ∈ u.atc, a ∈ s.atc) _ (fun u d h =>
    ⟨fun t ht => h.1 t ((applyLog_cached u d).1 t ht), fun a ha => h.2 a ((applyLog_cached u d).2 a ha)⟩) dies s
    ⟨fun _ h => h, fun _ h => h⟩

/-- A cached translation that an entry of its die's log does not concern, and a bus page that an entry of the I/O die's log does not
concern. -/
def Spared (e : LogEntry) (d : Nat) (s : State) : Prop :=
  if d = ioDie then ∀ a ∈ s.atc, e.hitsBus a.1 = false
  else ∀ t ∈ s.tlb, t.die = d → e.ctx = t.ctx → e.hits t.va t.map.psize = false

theorem applyLog_spares {e : LogEntry} {s : State} {d : Nat} (h : e ∈ (s.dieLog d).entries) : Spared e d (applyLog s d) := by
  unfold Spared applyLog
  dsimp only
  split
  · intro a ha
    have hn := (List.mem_filter.mp ha).2
    simp only [Bool.not_eq_true', List.any_eq_false, Bool.not_eq_true] at hn
    exact hn e h
  · intro t ht hd hc
    have hn := (List.mem_filter.mp ht).2
    simp only [hd, beq_self_eq_true, Bool.true_and, Bool.not_eq_true', List.any_eq_false, Bool.and_eq_true, beq_iff_eq, not_and,
      Bool.not_eq_true] at hn
    exact hn e h hc

theorem Spared.of_cached {e : LogEntry} {d : Nat} {s t : State} (h : Spared e d s) (ht : ∀ x ∈ t.tlb, x ∈ s.tlb)
    (ha : ∀ a ∈ t.atc, a ∈ s.atc) : Spared e d t := by
  unfold Spared at *
  split
  case isTrue hd => rw [if_pos hd] at h; exact fun a ha' => h a (ha a ha')
  case isFalse hd => rw [if_neg hd] at h; exact fun x hx => h x (ht x hx)

/-- The application of logs spares nothing that an entry of one of them concerns (R142). -/
theorem applyLogs_spares {e : LogEntry} {j : Nat} {dies : List Nat} (hj : j ∈ dies) :
    ∀ s : State, e ∈ (s.dieLog j).entries → Spared e j (applyLogs dies s) := by
  induction dies with
  | nil => cases hj
  | cons d dies ih =>
    intro s he
    rw [applyLogs_cons]
    by_cases hjd : j = d
    · subst hjd
      obtain ⟨ht, ha⟩ := applyLogs_cached dies (applyLog s j)
      exact (applyLog_spares he).of_cached ht ha
    · refine ih ((List.mem_cons.mp hj).resolve_left hjd) _ ?_
      rw [dieLog_applyLog, if_neg hjd]
      exact he

/-- An entry appended to the logs of some dies and of the I/O die names the bus pages of its range (R142). -/
theorem appendLog_logs (dies : List Nat) (va pages psize kind cn : Nat) (s : State) :
    ∃ (v : State) (e : LogEntry), LogsOnly s v ∧ appendLog dies va pages psize kind cn s =
        (dies ++ [ioDie]).foldl (logEntry e) { v with logSeq := s.logSeq + 1 } ∧
      e.va = va ∧ e.pages = pages ∧ e.psize = psize ∧ e.ctx = cn ∧ e.bus = busPages s cn va (pages * pageBytes psize) := by
  have hbus : ∀ {v : State}, LogsOnly s v → busPages v cn va (pages * pageBytes psize) = busPages s cn va (pages * pageBytes psize) :=
    fun h => by rw [busPages, busPages, ctx?_of_ctxs h.fields.2.1]
  have hseq : ∀ {v : State}, LogsOnly s v → v.logSeq = s.logSeq := fun h => h.fields.2.2.1
  unfold appendLog
  dsimp only
  split
  · have honly := applyLogs_only (dies ++ [ioDie]) s
    rw [hseq honly, hbus honly]
    exact ⟨_, _, honly, rfl, rfl, rfl, rfl, rfl, rfl⟩
  · exact ⟨s, _, rfl, rfl, rfl, rfl, rfl, rfl, rfl⟩

/-- ATS_INVALIDATION: every die of the partition, and the I/O die, applies the entry (R123, R142). -/
theorem atsInvalidation_applies {s : State} {p : Part} (cn : Nat) (va : DWord) (pages : Nat) (hp : s.part? p.num = some p)
    (hdies : p.dies ≠ []) : ∃ t, exec (.atsInvalidation p.num cn va pages) s = .next t ∧
      t.mem = s.mem ∧ t.atsEpoch = s.atsEpoch + 1 ∧
      (∀ d ∈ p.dies, (t.dieLog d).entries = [] ∧ (t.dieLog d).applied = s.logSeq + 1) ∧
      (∀ a ∈ t.atc, ∀ b ∈ busPages s cn va.toNat (pages * 65536), a.1 < b.1 ∨ b.1 + b.2 ≤ a.1) ∧
      ∀ e ∈ t.tlb, e.die ∈ p.dies → e.die ≠ ioDie → e.ctx = cn →
        e.va + e.map.psize ≤ va.toNat ∨ va.toNat + pages * 65536 ≤ e.va := by
  obtain ⟨v, e, hv, happend, hva, hpages, hpsize, hctx, hbus⟩ := appendLog_logs p.dies va.toNat pages 0 2 cn s
  have hrun : exec (.atsInvalidation p.num cn va pages) s = .next
      (let u := applyLogs (p.dies ++ [ioDie]) (appendLog p.dies va.toNat pages 0 2 cn s)
      { u with atsEpoch := u.atsEpoch + 1 }) := by
    rw [exec_atsInvalidation, execAtsInvalidation, show partDies s p.num = p.dies by rw [partDies, hp]; rfl]
    exact congrArg Host.Outcome.next (if_neg hdies)
  rw [happend] at hrun
  let w : State := (p.dies ++ [ioDie]).foldl (logEntry e) { v with logSeq := s.logSeq + 1 }
  have hlogged : ∀ d ∈ p.dies ++ [ioDie], e ∈ (w.dieLog d).entries := fun d hd => mem_foldl_logEntry e hd _
  have hw : LogsOnly { v with logSeq := s.logSeq + 1 } w :=
    foldl_keeps (LogsOnly _) _ (fun _ d h => h.trans (logEntry_only e _ d)) _ _ rfl
  have happlied := applyLogs_only (p.dies ++ [ioDie]) w
  have hspared := fun d hd => applyLogs_spares hd w (hlogged d hd)
  refine ⟨_, hrun, ?_, ?_, fun d hd => ?_, fun a ha b hb => ?_, fun x hx hd hio hc => ?_⟩
  · exact happlied.fields.1.trans (hw.fields.1.trans hv.fields.1)
  · exact congrArg (· + 1) (happlied.fields.2.2.2.trans (hw.fields.2.2.2.trans hv.fields.2.2.2))
  · have hlog := (dieLog_applyLogs w).trans (if_pos (List.mem_append_left [ioDie] hd))
    rw [hw.fields.2.2.1] at hlog
    exact ⟨congrArg DieLog.entries hlog, congrArg DieLog.applied hlog⟩
  · have hbit := (if_pos rfl : Spared e ioDie _ = _).mp (hspared ioDie (by simp)) a ha
    rw [LogEntry.hitsBus, hbus, List.any_eq_false] at hbit
    have := hbit b hb
    simp only [Bool.and_eq_true, decide_eq_true_eq, not_and, not_lt] at this
    omega
  · have hbit := (if_neg hio : Spared e x.die _ = _).mp (hspared x.die (List.mem_append_left _ hd)) x hx rfl (hctx.trans hc.symm)
    rw [LogEntry.hits, hva, hpages, hpsize, show pageBytes 0 = 65536 from rfl] at hbit
    simp only [Bool.and_eq_false_iff, decide_eq_false_iff_not, not_lt] at hbit
    omega

/-- LOG_APPLY (R142). -/
theorem logApply_completes {c : Cmd} {dies : List Nat} (s : State) (hp : plainCmd c = true) (hdies : ∀ d ∈ dies, d < 9 ∨ d = ioDie) :
    exec (.logApply c dies) s = .next (complete c 0 0 (applyLogs dies s)) := by
  have hany : dies.any (fun d => decide (9 ≤ d) && d != ioDie) = false := by
    simp only [List.any_eq_false, Bool.and_eq_true, decide_eq_true_eq, bne_iff_ne, ne_eq, not_and, not_not]
    intro d hd h9
    exact (hdies d hd).resolve_left (by omega)
  rw [exec_logApply, execLogApply, if_neg (by simp [hp, hany])]

/-- Settles O48: one lemma for each command and event. -/
theorem translationCommandsComplete : Obligations.TranslationCommandsComplete := by
  intro c m s x hp hx
  refine ⟨fun hargs hreport hattr htarget hwr hok hmeets hbusy => map_completes hp hx hargs hreport hattr htarget hwr hok hmeets hbusy,
    fun pa => memGet_zeroFrames ..,
    fun hargs htarget hattr hreport hcut => ⟨unmap_nothing hp hx hargs htarget hattr hreport hcut,
      fun u hsome hdrain => unmap_completes hp hx hargs htarget hattr hreport hcut rfl hsome hdrain⟩,
    fun hargs htarget hattr hreport u hdrain => ?_, fun dies hdies => logApply_completes s hp hdies,
    fun va bytes => icacheInval_completes va bytes hp hx,
    fun die va o ho hpresent hnone hbind => pageWalk_fills hx ho hpresent hnone hbind, fun bus host => rfl,
    fun p va pages hpart hdies => atsInvalidation_applies c.ctx va pages hpart hdies⟩
  obtain ⟨hhomes, hgone, hstay⟩ := drainAll_done hdrain
  exact ⟨_, reclassify_completes hp hx hargs htarget hattr hreport hdrain, hhomes, hgone, hstay,
    fun k o hk hn ho hspace => reclassify_value s x hk hn ho hspace⟩

end Sys2Proof.Machine
end

section
namespace Sys2Proof.Machine
open Sys2Proof

/-! ## Groups that stay while records are consumed (O51) -/

theorem group?_of_groups {s t : State} (h : t.groups = s.groups) (gi : Nat) : t.group? gi = s.group? gi := by
  rw [State.group?, State.group?, h]

theorem flushTraps_groups (cn : Nat) : ∀ (n : Nat) (s : State), (flushTraps cn n s).groups = s.groups
  | 0, _ => rfl
  | n + 1, s => by
    unfold flushTraps
    split
    · rfl
    · split
      · rfl
      · dsimp only
        split
        · rfl
        · rw [flushTraps_groups cn n]
          split <;> rfl

theorem assignCalls_groups (s : State) : (assignCalls s).groups = s.groups :=
  foldl_keeps (fun t : State => t.groups = s.groups) _ (fun _ _ h => by
    split
    · exact h
    · exact h) _ s rfl

theorem advanceHead_groups (cn : Nat) : ∀ (n : Nat) (s : State), (advanceHead cn n s).groups = s.groups
  | 0, _ => rfl
  | n + 1, s => by
    unfold advanceHead
    split
    · rfl
    · split
      · split
        · rw [advanceHead_groups cn n, flushTraps_groups]
          rfl
        · rfl
      · rfl

theorem consume_groups (cn : Nat) (p : TrapRec → Bool) (s : State) : (consume cn p s).groups = s.groups := by
  unfold consume
  dsimp only
  rw [assignCalls_groups, advanceHead_groups]
  rfl

/-- The end of a service call changes no group (R234, R240). -/
theorem eatCall_groups (g : Group) (si : Nat) (s : State) : (eatCall g si s).groups = s.groups := by
  unfold eatCall
  split
  · rw [endCall, assignCalls_groups]
    exact consume_groups ..
  · rfl

/-! ## Writes confined to lanes (O51) -/

theorem applyWrites_nil (gi : Nat) (m : LaneMask) (s : State) : applyWrites gi m [] s = s := modGroup_id s gi

theorem pset_frame (g : Group) (p : Nat) (e bits : LaneMask) : g.pset p e bits = { g with pred := (g.pset p e bits).pred } := by
  unfold Group.pset; split <;> rfl

/-- Outside the lanes of a mask vector registers and predicates are as before, and so are the splits (R84). -/
structure OutsideSame (m : LaneMask) (g h : Group) : Prop where
  splits : h.splits = g.splits
  vec : ∀ r L, m.getLsbD L = false → h.vget r L = g.vget r L
  pred : ∀ q L, m.getLsbD L = false → (h.pget q).getLsbD L = (g.pget q).getLsbD L

theorem OutsideSame.refl (m : LaneMask) (g : Group) : OutsideSame m g g := ⟨rfl, fun _ _ _ => rfl, fun _ _ _ => rfl⟩

theorem OutsideSame.trans {m : LaneMask} {g h k : Group} (h1 : OutsideSame m g h) (h2 : OutsideSame m h k) : OutsideSame m g k where
  splits := h2.splits.trans h1.splits
  vec r L hL := (h2.vec r L hL).trans (h1.vec r L hL)
  pred q L hL := (h2.pred q L hL).trans (h1.pred q L hL)

/-- An update of other storage than vector registers, predicates and splits. -/
theorem outsideSame_of_fields {m : LaneMask} {g h : Group} (hs : h.splits = g.splits) (hv : h.vec = g.vec) (hp : h.pred = g.pred)
    (hpresent : h.present = g.present) : OutsideSame m g h where
  splits := hs
  vec r L _ := by rw [Group.vget, Group.vget, hv, hpresent]
  pred q L _ := by rw [Group.pget, Group.pget, hp]

theorem vset_outside {m : LaneMask} {L : Nat} (hL : m.getLsbD L = true) (g : Group) (r : Nat) (w : Word) :
    OutsideSame m g (g.vset r L w) := by
  obtain ⟨-, hpred, hsplits, -⟩ := vset_frame g r L w
  refine ⟨hsplits, fun j M hM => ?_, fun q M _ => by rw [Group.pget, Group.pget, hpred]⟩
  rw [vget_vset, if_neg]
  rintro ⟨-, rfl, -⟩
  rw [hL] at hM
  cases hM

theorem pset_outside (m : LaneMask) (g : Group) (p : Nat) (bits : LaneMask) : OutsideSame m g (g.pset p m bits) := by
  refine ⟨by rw [pset_frame], fun j M _ => by rw [pset_frame]; rfl, fun q M hM => ?_⟩
  rw [pget_pset]
  split
  case isTrue hq => simpa [hq.1, hM] using lane_lt
  case isFalse => rfl

/-- Every write of a routine is confined to its lanes. -/
theorem applyWrite_outside (m : LaneMask) (g : Group) (w : RegWrite) : OutsideSame m g (applyWrite m g w) := by
  cases w with
  | vec r L v =>
    simp only [applyWrite]
    split
    case isTrue h => exact vset_outside (Bool.and_eq_true_iff.mp h).1 g r v
    case isFalse => exact .refl m g
  | pred p v =>
    simp only [applyWrite]
    split
    · exact pset_outside m g p v
    · exact .refl m g
  | flags f => exact outsideSame_of_fields rfl rfl rfl rfl
  | uni r v | tile t i v | scale t i v | acc t i v | carry t i v | affine t on =>
    simp only [applyWrite]
    split
    · exact outsideSame_of_fields rfl rfl rfl rfl
    · exact .refl m g

theorem applyWrites_outside (m : LaneMask) (ws : List RegWrite) (g : Group) : OutsideSame m g (ws.foldl (applyWrite m) g) :=
  foldl_keeps (OutsideSame m g) _ (fun h w hs => hs.trans (applyWrite_outside m h w)) ws g (.refl m g)

/-! ## SPLIT_RESUME (O51) -/

section

variable {s : State} {gi si : Nat} {g : Group} {p : Split} (hg : s.group? gi = some g) (hp : g.split? si = some p)

/-- A split that the return of a trap leaves: dormant, youngest of its group, at an address with an unfinished mask (R25, R232). -/
def returned (g : Group) (pc : DWord) (pend : LaneMask) (q : Split) : Split :=
  { q with run := .dormant, cause := none, pc := pc, pend := pend, wait := .none, order := nextOrder g.splits }

include hg in
theorem group?_untrap (pc : DWord) (pend : LaneMask) : (untrap gi si pc pend s).group? gi = some (g.modSplit si (returned g pc pend)) :=
  group?_modGroup_same _ hg

include hg hp in
theorem splitAt_some : (s.group? gi).bind (fun g => (g.split? si).map (fun p => (g, p))) = some (g, p) := by
  rw [hg, Option.bind_some, hp]
  rfl

/-- What SPLIT_RESUME does to a split whose trap it may end. -/
def resumeAct (c : Cmd) (x : Ctx) (gi si : Nat) (g : Group) (p : Split) (act : ResumeAction) (saved : Bool) (s : State) : State :=
  let done (s : State) : State := complete c 0 0 (if saved then writeGroup gi s else s)
  match act with
  | .retry => done (untrap gi si p.pc (if p.cause = some .pf ∨ p.cause = some .emptyto then p.pend else 0) s)
  | .skip =>
    (match sizeAt s g p.pc with
     | some n => done (untrap gi si (p.pc + BitVec.ofNat 64 n) 0 s)
     | none => complete c 1 0 s)
  | .goto pc => if s.inText g pc then done (untrap gi si pc 0 s) else complete c 1 0 s
  | .kill => complete c 0 0 (killCtx x.num 1 s)

variable {c : Cmd} {x : Ctx} (hctx : s.groupCtx g = x.num) (hrun : p.run = .trapped) (hcause : p.cause ≠ some .svc)

include hg hp hctx hrun hcause

/-- A trapped split of the context resumes, once its record stands in the ring (R231, R232). -/
theorem resumeSplit_acts (hrecord : recordWaits s g si = false) (act : ResumeAction) (saved : Bool) :
    resumeSplit c x gi si [] act saved s = resumeAct c x gi si g p act saved s := by
  unfold resumeSplit
  rw [splitAt_some hg hp]
  dsimp only
  rw [if_neg (by simp [hctx, hrun, hcause]), if_neg (by simp [hrecord]), applyWrites_nil]
  rfl

/-- While the record waits for its place, the split stays stopped (R231). -/
theorem resumeSplit_waits (hrecord : recordWaits s g si = true) (w : List RegWrite) {act : ResumeAction} (hact : act ≠ .kill)
    (saved : Bool) : resumeSplit c x gi si w act saved s = s := by
  unfold resumeSplit
  rw [splitAt_some hg hp]
  dsimp only
  rw [if_neg (by simp [hctx, hrun, hcause]), if_pos ⟨hact, hrecord⟩]

variable (hplain : plainCmd c = true) (hx : s.ctx? c.ctx = some x) (hstate : x.state ≠ .killed)

omit hp hctx hrun hcause in
include hplain hx hstate in
/-- A block on its cores has its state there. -/
theorem splitResume_onCores (hcores : onCores s g.block = true) (w : List RegWrite) (act : ResumeAction) :
    exec (.splitResume c gi si w act) s = .next (resumeSplit c x gi si w act false s) := by
  have hnone : savedBlock? s x.num gi = none := by
    rw [savedBlock?, hg, Option.bind_some, if_neg (by simp [hcores])]
  rw [exec_splitResume, execSplitResume, onCtx_plain hplain hx, if_neg hstate, hnone]

include hplain hx hstate in
/-- A split on its cores returns as the action says (R232). -/
theorem splitResume_returns (hcores : onCores s g.block = true) (hrecord : recordWaits s g si = false) {act : ResumeAction}
    {pc : DWord} {pend : LaneMask} (hact : resumeAct c x gi si g p act false s = complete c 0 0 (untrap gi si pc pend s)) :
    ∃ u h, exec (.splitResume c gi si [] act) s = .next (complete c 0 0 u) ∧ u = { s with groups := u.groups } ∧
      u.group? gi = some h ∧ h = g.modSplit si (returned g pc pend) := by
  refine ⟨_, _, ?_, rfl, group?_untrap hg pc pend, rfl⟩
  rw [splitResume_onCores hg hplain hx hstate hcores, resumeSplit_acts hg hp hctx hrun hcause hrecord, hact]

omit hp hrun hcause in
include hplain hx hstate in
/-- The state of a block off the cores is read from its save area (R235, R238). -/
theorem splitResume_saved (hretired : g.retired = false) (hcores : onCores s g.block = false) {b : Block} {v : State}
    (hb : s.block? g.block = some b) (htouch : fwTouch (saveRuns s [(g.block, b)]) s = some v) (w : List RegWrite) (act : ResumeAction) :
    exec (.splitResume c gi si w act) s = .next (resumeSplit c x gi si w act true (readSave g.block v)) := by
  have hsome : savedBlock? s x.num gi = some (g.block, b) := by
    rw [savedBlock?, hg, Option.bind_some, if_pos ⟨hctx, hretired, hcores⟩, hb]
    rfl
  rw [exec_splitResume, execSplitResume, onCtx_plain hplain hx, if_neg hstate, hsome]
  exact congrArg Host.Outcome.next (fwRead_some htouch)

end

/-! ## Routines and services (O51) -/

section

variable {s : State} {gi si : Nat} {g : Group} {p : Split} (hg : s.group? gi = some g) (hp : g.split? si = some p)

/-- The number of accesses that a routine has made starts anew when it ends. -/
theorem routineAt_setRoutine_zero (s : State) (gi si : Nat) : (s.setRoutine gi si 0).routineAt gi si = 0 := by
  have hnone : (s.setRoutine gi si 0).routines.find? (fun r => r.1 == gi && r.2.1 == si) = none :=
    List.find?_eq_none.mpr fun r hr => by simpa [imp_iff_not_or] using (List.mem_filter.mp hr).2
  rw [State.routineAt, hnone]
  rfl

/-- What EMULATION_COMPLETE does to a split that waits for an emulation, when its routine may act. -/
def emulationStep (gi si : Nat) (g : Group) (p : Split) (w0 : Word) (r : EmuResult) (s : State) : State :=
  let e := guardLanes g p (guardOf w0)
  let ended := s.setRoutine gi si 0
  match r with
  | .declined => takeTrap gi si .ill (0#32 ++ w0) (p.mask &&& ~~~g.helpers) 0 ended
  | .fault c aux => if deliverable c then takeTrap gi si c aux (e &&& ~~~g.helpers) 0 ended else s
  | .done accs ws =>
    match (if e = 0 then [] else accs)[s.routineAt gi si]? with
    | some a => routineStep .proxy gi si g (.emulationComplete gi si r) a s
    | none =>
      (applyWrites gi e (if e = 0 then [] else ws) ended).modSplit gi si (fun p =>
        p.goto (p.pc + BitVec.ofNat 64 (4 * wordCount (lenOf w0))))

variable {w0 : Word} (hwait : p.wait = .emulation w0) (hflight : inFlight s gi = false) (hfrozen : s.frozen = false)
  (hcores : onCores s g.block = true)

include hg hp hwait hflight hfrozen hcores

theorem emulationComplete_steps (r : EmuResult) :
    exec (.emulationComplete gi si r) s = .next (emulationStep gi si g p w0 r s) := by
  rw [exec_emulationComplete, execEmulationComplete, splitAt_some hg hp]
  dsimp only
  rw [hwait]
  dsimp only
  rw [if_neg (by simp [hflight, hfrozen, hcores])]
  rfl

/-- One access at a time (R84). -/
theorem emulation_accesses {accs : List ProxyAccess} {ws : List RegWrite} {a : ProxyAccess} (he : guardLanes g p (guardOf w0) ≠ 0)
    (ha : accs[s.routineAt gi si]? = some a) : exec (.emulationComplete gi si (.done accs ws)) s =
      .next (routineStep .proxy gi si g (.emulationComplete gi si (.done accs ws)) a s) := by
  rw [emulationComplete_steps hg hp hwait hflight hfrozen hcores, emulationStep]
  rw [if_neg he, ha]

/-- The end of an emulation: results in the lanes of E only, and the split behind the instruction's words (R84). -/
theorem emulation_ends {accs : List ProxyAccess} {ws : List RegWrite}
    (hend : guardLanes g p (guardOf w0) = 0 ∨ accs.length ≤ s.routineAt gi si) :
    exec (.emulationComplete gi si (.done accs ws)) s = .next
      ((applyWrites gi (guardLanes g p (guardOf w0)) (if guardLanes g p (guardOf w0) = 0 then [] else ws)
        (s.setRoutine gi si 0)).modSplit gi si (fun q => q.goto (q.pc + BitVec.ofNat 64 (4 * wordCount (lenOf w0))))) := by
  have hnone : (if guardLanes g p (guardOf w0) = 0 then [] else accs)[s.routineAt gi si]? = none := by
    rcases hend with he | hlen
    · rw [if_pos he]; rfl
    · split
      · rfl
      · exact List.getElem?_eq_none hlen
  rw [emulationComplete_steps hg hp hwait hflight hfrozen hcores, emulationStep]
  rw [hnone]

/-- What the end of an emulation leaves: nothing outside the lanes of E, and nothing but the advance without results (R84). -/
theorem emulation_leaves {accs : List ProxyAccess} {ws : List RegWrite}
    (hend : guardLanes g p (guardOf w0) = 0 ∨ accs.length ≤ s.routineAt gi si) :
    ∃ t h, exec (.emulationComplete gi si (.done accs ws)) s = .next t ∧ t = { s with groups := t.groups, routines := t.routines } ∧
      t.routineAt gi si = 0 ∧ t.group? gi = some h ∧ (∀ j, j ≠ gi → t.group? j = s.group? j) ∧
      h.splits = g.splits.map (fun q =>
        if q.idx = si then q.goto (q.pc + BitVec.ofNat 64 (4 * wordCount (lenOf w0))) else q) ∧
      (ws = [] ∨ guardLanes g p (guardOf w0) = 0 → h = { g with splits := h.splits }) ∧
      (∀ r L, L < 16 → (guardLanes g p (guardOf w0)).getLsbD L = false → h.vget r L = g.vget r L) ∧
      ∀ q L, (guardLanes g p (guardOf w0)).getLsbD L = false → (h.pget q).getLsbD L = (g.pget q).getLsbD L := by
  have hrun := emulation_ends hg hp hwait hflight hfrozen hcores (ws := ws) hend
  generalize guardLanes g p (guardOf w0) = e at hrun ⊢
  have hwritten := applyWrites_outside e (if e = 0 then [] else ws) g
  refine ⟨_, _, hrun, rfl, routineAt_setRoutine_zero s gi si,
    group?_modGroup_same _ (group?_modGroup_same _ hg), fun j hj => ?_, congrArg (List.map _) hwritten.splits, fun hnothing => ?_,
    fun r L _ hL => hwritten.vec r L hL, hwritten.pred⟩
  · exact (group?_modGroup_other _ hj).trans (group?_modGroup_other _ hj)
  · have hnil : (if e = 0 then [] else ws) = [] := by
      rcases hnothing with hws | he
      · rw [hws]; exact ite_self _
      · exact if_pos he
    rw [hnil]
    rfl

/-- A routine that declines leaves ILL (R84). -/
theorem emulation_declines (hnone : g.handler = none) :
    ∃ t, exec (.emulationComplete gi si .declined) s = .next t ∧ Trapped t gi si .ill p.pc 0 := by
  refine ⟨_, emulationComplete_steps hg hp hwait hflight hfrozen hcores .declined, Held.trapped ?_⟩
  refine takeTrap_reaches (R := fun q => q.pc = p.pc) (fun q hq => ⟨rfl, rfl, hq, rfl, rfl⟩) _ _ ⟨g, p, hg, hnone, hp, rfl⟩

omit hwait hflight in
/-- The end of a service: the split goes on at the address that its SVC kept (R234, R367). -/
theorem service_ends {r : TrapRec} {core : Nat} (hrun : p.run = .trapped) (hcause : p.cause = some .svc)
    (hbusy : lanesBusy s gi p.mask = false) (hrec : callRecord s g si = some r) (hcore : callCore s (s.groupCtx g) r = some core) :
    exec (.svcServiceComplete gi si (.resume [] [])) s =
      .next (untrap gi si (afterCall s g p) 0 (eatCall g si (s.setRoutine gi si 0))) := by
  rw [exec_svcServiceComplete, execSvcServiceComplete, splitAt_some hg hp]
  dsimp only
  rw [if_neg (by simp [hrun, hcause, hfrozen, hcores, hbusy]), hrec, Option.bind_some, hcore]
  exact congrArg (fun t => Host.Outcome.next (untrap gi si (afterCall s g p) 0 t)) (applyWrites_nil ..)

end

/-- Settles O51: SPLIT_RESUME on the cores and off them, the routine of an emulation, and the end of a service. -/
theorem splitsResume : Obligations.SplitsResume := by
  intro s gi si g p hg hp
  refine ⟨fun c x hplain hx hctx hstate hrun hcause hcores => ?_, ?_,
    fun w0 accs ws hwait hflight hfrozen hcores => ⟨?_, ?_, ?_⟩, ?_⟩
  · have hdead : x.state ≠ .killed := by rcases hstate with h | h <;> rw [h] <;> decide
    refine ⟨fun hrecord w act hact => ?_, fun hrecord => ?_⟩
    · rw [splitResume_onCores hg hplain hx hdead hcores, resumeSplit_waits hg hp hctx hrun hcause hrecord w hact]
    have hreturns {act pc pend} := splitResume_returns hg hp hctx hrun hcause hplain hx hdead hcores hrecord
      (act := act) (pc := pc) (pend := pend)
    exact ⟨hreturns rfl, fun n hn => hreturns (by rw [resumeAct, hn]; rfl), fun pc hpc => hreturns (if_pos hpc)⟩
  · intro c x b v hplain hx hctx hdead hretired hcores hb htouch r h q hh hq hctx' hrun hcause hrecord
    have hexec := splitResume_saved (si := si) hg hctx hplain hx hdead hretired hcores hb htouch [] .retry
    rw [resumeSplit_acts hh hq hctx' hrun hcause hrecord] at hexec
    refine ⟨_, hexec, rfl, _, group?_untrap hh _ _, ?_⟩
    rw [split?_modSplit (returned h _ _) (fun _ => rfl) hq]
    rfl
  · exact fun a he ha => emulation_accesses hg hp hwait hflight hfrozen hcores he ha
  · exact emulation_leaves hg hp hwait hflight hfrozen hcores
  · exact emulation_declines hg hp hwait hflight hfrozen hcores
  · intro r core hrun hcause hfrozen hcores hbusy hrec hcore
    have hgroups := eatCall_groups g si (s.setRoutine gi si 0)
    refine ⟨_, _, service_ends hg hp hfrozen hcores hrun hcause hbusy hrec hcore,
      group?_untrap ((group?_of_groups hgroups gi).trans hg) _ _, rfl, fun j hj => ?_⟩
    exact (group?_modGroup_other _ hj).trans (group?_of_groups hgroups j)

end Sys2Proof.Machine
end

section
namespace Sys2Proof.Machine
open Sys2Proof Sys2Proof.Num

/-! ## Operations that leave in issue order (R185) -/

/-- An operation of a group that its counter of a class counts (R184). -/
def EngineOp.countedIn (gi : Nat) (cl : Ctr) (q : EngineOp) : Bool := q.group == gi && q.kind.ctr == cl

/-- The operations that the counter of a class counts. -/
def engineCount (gi : Nat) (cl : Ctr) (l : List EngineOp) : Nat := l.countP (EngineOp.countedIn gi cl)

/-- What an update of the operations leaves: those that have not finished, and the counts of every class but for those of one that
have left. -/
structure Leaves (gi : Nat) (cl : Ctr) (n : Nat) (l l' : List EngineOp) : Prop where
  unfinished : l'.filter (fun q => !q.finished) = l.filter (fun q => !q.finished)
  subset : ∀ q ∈ l', q ∈ l
  left : engineCount gi cl l' + n = engineCount gi cl l
  others : ∀ dl, dl ≠ cl → engineCount gi dl l' = engineCount gi dl l

theorem Leaves.refl (gi : Nat) (cl : Ctr) (l : List EngineOp) : Leaves gi cl 0 l l := ⟨rfl, fun _ h => h, rfl, fun _ _ => rfl⟩

theorem engineCount_cons (gi : Nat) (cl : Ctr) (q : EngineOp) (l : List EngineOp) :
    engineCount gi cl (q :: l) = engineCount gi cl l + if q.countedIn gi cl = true then 1 else 0 := List.countP_cons

theorem Leaves.cons {gi n : Nat} {cl : Ctr} {l l' : List EngineOp} (q : EngineOp) (h : Leaves gi cl n l l') :
    Leaves gi cl n (q :: l) (q :: l') := by
  obtain ⟨hunfinished, hsubset, hleft, hothers⟩ := h
  refine ⟨by rw [List.filter_cons, List.filter_cons, hunfinished], fun p hp => ?_, ?_, fun dl hd => ?_⟩
  · exact (List.mem_cons.mp hp).elim (fun h => h ▸ List.mem_cons_self) fun h => List.mem_cons_of_mem q (hsubset p h)
  · rw [engineCount_cons, engineCount_cons, ← hleft]; omega
  · rw [engineCount_cons, engineCount_cons, hothers dl hd]

/-- A finished operation of the class leaves. -/
theorem Leaves.finished {gi n : Nat} {cl : Ctr} {l l' : List EngineOp} {q : EngineOp} (hq : q.group = gi ∧ q.kind.ctr = cl)
    (hfinished : q.finished = true) (h : Leaves gi cl n l l') : Leaves gi cl (n + 1) (q :: l) l' := by
  obtain ⟨hunfinished, hsubset, hleft, hothers⟩ := h
  have hcount (dl : Ctr) : q.countedIn gi dl = decide (dl = cl) := by
    simp only [EngineOp.countedIn, hq.1, hq.2, beq_self_eq_true, Bool.true_and, eq_comm (a := dl)]
    rfl
  refine ⟨by simp [hfinished, hunfinished], fun p hp => List.mem_cons_of_mem q (hsubset p hp), ?_, fun dl hd => ?_⟩
  · rw [engineCount_cons, hcount, decide_eq_true rfl, if_pos rfl, ← hleft]; rfl
  · rw [engineCount_cons, hcount, decide_eq_false hd, if_neg Bool.false_ne_true, hothers dl hd]; rfl

theorem sweepOps_leaves (gi : Nat) (cl : Ctr) : ∀ l : List EngineOp, Leaves gi cl (sweepOps gi cl l).2 l (sweepOps gi cl l).1
  | [] => Leaves.refl gi cl []
  | q :: rest => by
    rw [sweepOps]
    split
    case isTrue hq =>
      split
      case isTrue hf => exact (sweepOps_leaves gi cl rest).finished hq hf
      case isFalse => exact Leaves.refl gi cl _
    case isFalse => exact (sweepOps_leaves gi cl rest).cons q

/-! ## The end of an engine operation (R112, R161, R185) -/

/-- An update that the end of an operation makes to it: its name, its group, its class and whether it has finished stay. -/
structure KeepsOp (f : EngineOp → EngineOp) : Prop where
  id : ∀ q, (f q).id = q.id
  group : ∀ q, (f q).group = q.group
  kind : ∀ q, (f q).kind = q.kind

theorem engineCount_modEngine {f : EngineOp → EngineOp} (hf : KeepsOp f) (gi : Nat) (cl : Ctr) (op : Nat) (s : State) :
    engineCount gi cl (s.modEngine op f).engines = engineCount gi cl s.engines := by
  unfold engineCount State.modEngine
  rw [List.countP_map]
  refine List.countP_congr fun q _ => ?_
  by_cases h : q.id = op
  · simp [h, EngineOp.countedIn, hf.group, hf.kind]
  · simp [h]

/-- The unfinished operations but the one of a name. -/
def otherOps (op : Nat) (s : State) : List EngineOp := s.engines.filter (fun q => !q.finished && q.id != op)

theorem otherOps_modEngine {f : EngineOp → EngineOp} (hf : KeepsOp f) (op : Nat) (s : State) :
    otherOps op (s.modEngine op f) = otherOps op s := by
  have hp : (fun q : EngineOp => !q.finished && q.id != op) ∘ (fun q => if q.id = op then f q else q) =
      fun q => !q.finished && q.id != op := by
    funext q
    by_cases h : q.id = op
    · simp [h, hf.id]
    · simp [h]
  unfold otherOps State.modEngine
  rw [List.filter_map, hp]
  refine (List.map_congr_left fun q hq => ?_).trans (List.map_id _)
  have hne : q.id ≠ op := by simpa using (List.mem_filter.mp hq).2 |> (Bool.and_eq_true ..).mp |>.2
  exact if_neg hne

/-- An operation that has ended: finished, without reservations and without what it has read. -/
def EngineOp.over (q : EngineOp) : EngineOp := { q with finished := true, resv := [], sresv := [], buf := [], sbuf := [] }

theorem keepsOp_over : KeepsOp EngineOp.over := ⟨fun _ => rfl, fun _ => rfl, fun _ => rfl⟩

theorem unfinished_over (op : Nat) (s : State) :
    (s.modEngine op EngineOp.over).engines.filter (fun q => !q.finished) = otherOps op s := by
  have hsame : (s.modEngine op EngineOp.over).engines.filter (fun q => !q.finished) = otherOps op (s.modEngine op EngineOp.over) := by
    refine List.filter_congr fun q hq => ?_
    obtain ⟨p, -, rfl⟩ := List.mem_map.mp hq
    by_cases h : p.id = op <;> simp [h, EngineOp.over]
  rw [hsame, otherOps_modEngine keepsOp_over]

/-- What the end of an operation leaves of the state: of the groups only its own differs, by its flags, its fault and its counters,
and perhaps a tile; the operation has no reservation left, and every other one that has not finished is as before. -/
structure EngineEnded (op gi : Nat) (s t : State) (g h : Group) (fl : FlagBits) (faults : List PendingFault) : Prop where
  now : t.group? gi = some h
  only : t = { s with blocks := t.blocks, engines := t.engines, groups := t.groups }
  unfinished : t.engines.filter (fun q => !q.finished) = otherOps op s
  freed : ∀ q ∈ t.engines, q.id = op → q.resv = [] ∧ q.sresv = []
  changed : h = { g with flags := g.flags ||| fl, faults := g.faults ++ faults,
                         cntC := g.cntC - (engineCount gi .c s.engines - engineCount gi .c t.engines),
                         cntT := g.cntT - (engineCount gi .t s.engines - engineCount gi .t t.engines),
                         tile := h.tile, scale := h.scale }
  others : ∀ j, j ≠ gi → t.group? j = s.group? j

/-- What the end of an operation changes of its group (R112, R185). -/
def Group.engineEnded (g : Group) (fl : FlagBits) (faults : List PendingFault) (nc nt : Nat) : Group :=
  { g with flags := g.flags ||| fl, faults := g.faults ++ faults, cntC := g.cntC - nc, cntT := g.cntT - nt }

/-- The operations that stay of those of the ending one's class, and how many leave. -/
def sweptC (o : EngineOp) (s : State) : List EngineOp × Nat := sweepOps o.group .c (s.modEngine o.id EngineOp.over).engines
def sweptT (o : EngineOp) (s : State) : List EngineOp × Nat := sweepOps o.group .t (sweptC o s).1

theorem endEngine_eq (o : EngineOp) (faults : List PendingFault) (s : State) : endEngine o faults s =
    { s with engines := (sweptT o s).1 }.modGroup o.group (fun g => g.engineEnded o.flags faults (sweptC o s).2 (sweptT o s).2) :=
  modGroup_modGroup { s with engines := (sweptT o s).1 } o.group (fun g => { g with flags := g.flags ||| o.flags, faults := g.faults ++ faults })
    (fun g => { g with cntC := g.cntC - (sweptC o s).2, cntT := g.cntT - (sweptT o s).2 })

theorem sweptT_count (o : EngineOp) (s : State) :
    (sweptC o s).2 = engineCount o.group .c s.engines - engineCount o.group .c (sweptT o s).1 ∧
      (sweptT o s).2 = engineCount o.group .t s.engines - engineCount o.group .t (sweptT o s).1 := by
  have hC := sweepOps_leaves o.group .c (s.modEngine o.id EngineOp.over).engines
  have hT := sweepOps_leaves o.group .t (sweptC o s).1
  have hCleft := hC.left
  have hTleft := hT.left
  rw [engineCount_modEngine keepsOp_over] at hCleft
  rw [show engineCount o.group .t (sweptC o s).1 = _ from hC.others .t (by decide), engineCount_modEngine keepsOp_over] at hTleft
  have hTc : engineCount o.group .c (sweptT o s).1 = engineCount o.group .c (sweptC o s).1 := hT.others .c (by decide)
  change engineCount o.group .c (sweptC o s).1 + (sweptC o s).2 = _ at hCleft
  change engineCount o.group .t (sweptT o s).1 + (sweptT o s).2 = _ at hTleft
  omega

/-- The end of an operation, from any state that has its group. -/
theorem endEngine_ended {s : State} {o : EngineOp} {g : Group} (hg : s.group? o.group = some g) (faults : List PendingFault) :
    EngineEnded o.id o.group s (endEngine o faults s) g (g.engineEnded o.flags faults (sweptC o s).2 (sweptT o s).2) o.flags faults := by
  obtain ⟨hnc, hnt⟩ := sweptT_count o s
  have hC := sweepOps_leaves o.group .c (s.modEngine o.id EngineOp.over).engines
  have hT := sweepOps_leaves o.group .t (sweptC o s).1
  rw [endEngine_eq]
  refine ⟨group?_modGroup_same _ hg, rfl, ?_, fun q hq hid => ?_, ?_, fun j hj => group?_modGroup_other _ hj⟩
  · exact (hT.unfinished.trans hC.unfinished).trans (unfinished_over o.id s)
  · obtain ⟨p, -, rfl⟩ := List.mem_map.mp (hC.subset q (hT.subset q hq))
    by_cases h : p.id = o.id
    · rw [if_pos h]; exact ⟨rfl, rfl⟩
    · rw [if_neg h] at hid; exact absurd hid h
  · unfold Group.engineEnded
    dsimp only [State.modGroup]
    rw [← hnc, ← hnt]

/-! ### Operations that complete (R163, R183) -/

/-- The conditions of every completion. -/
structure Completing (s : State) (op : Nat) (o : EngineOp) : Prop where
  op : s.engine? op = some o
  live : engineLive s o = true
  sound : o.fault = none
  read : o.readAll = true

theorem Completing.plan {s : State} {op : Nat} {o : EngineOp} (h : Completing s op o) : o.plan = none := by
  have hread := h.read
  simp only [EngineOp.readAll, Bool.and_eq_true] at hread
  exact Option.isNone_iff_eq_none.mp hread.1.1

/-- Every sector of a destination is written. -/
structure AllWritten (o : EngineOp) : Prop where
  mem : ∀ v ∈ o.writes, v ∈ o.writesDone
  spad : ∀ v ∈ o.swrites, v ∈ o.swritesDone

theorem AllWritten.check {o : EngineOp} (h : AllWritten o) :
    (o.writes.all (fun v => o.writesDone.contains v) && o.swrites.all (fun v => o.swritesDone.contains v)) = true := by
  simpa using And.intro h.mem h.spad

section
variable {s : State} {op : Nat} {o : EngineOp} (h : Completing s op o)
include h

/-- A copy or a store of a tile ends when all is written. -/
theorem Completing.written (hkind : o.kind = .cpy ∨ ∃ n, o.kind = .tstr n) (hw : AllWritten o) :
    completeEngine op s = endEngine o [] s := by
  rw [completeEngine, h.op]
  rcases hkind with hk | ⟨n, hk⟩
  · simp only [h.live, h.sound, h.plan, h.read, hk, hw.check]; rfl
  · simp only [h.live, h.sound, h.plan, h.read, hk, hw.check]; rfl

/-- A collective ends when its elements and those of its peers are written. -/
theorem Completing.collective {c : Coll} (hk : o.kind = .coll) (hc : o.coll = some c) (hwritable : o.writable = true)
    (hremote : ∀ v ∈ c.remote, v ∈ c.remoteDone) (hw : AllWritten o) : completeEngine op s = endEngine o [] s := by
  have hdone : collDone o = true := by
    rw [collDone, Bool.and_assoc o.writable, hw.check, hwritable, hc]
    simpa using hremote
  rw [completeEngine, h.op]
  simp only [h.live, h.sound, h.plan, hk, hdone]
  rfl

/-- A load of a tile writes it when no earlier work holds it. -/
theorem Completing.tile {n : Nat} (hk : o.kind = .tld n) (hfree : tldHeld s o n = false) :
    completeEngine op s = endEngine o [] (s.modGroup o.group (writeTile o n)) := by
  rw [completeEngine, h.op]
  simp only [h.live, h.sound, h.plan, h.read, hk, hfree]
  rfl

/-- A handled read writes its event line when its handlers have ended. -/
theorem Completing.request {line : Nat} {tag : Word} {entry : DWord} (hk : o.kind = .ldh line tag entry) (hhandled : o.handled s = true)
    (hline : o.swritesDone = []) : completeEngine op s =
      endEngine o ((o.handlerFault.map (fun f => pendingOf o f.1 f.2 [])).toList) (writeEvent o line tag s) := by
  rw [completeEngine, h.op]
  simp only [h.live, h.sound, h.plan, h.read, hk, hhandled, hline]
  rfl

end

/-! ### The tile of a TLD (R183) -/

/-- A table after a run of keys is written in order. -/
theorem get_putAll_range {n base w : Nat} {t : Tab Word} {f : Nat → Word} (hw : w < n) :
    Tab.get 0 (Tab.putAll 0 t ((List.range n).map (fun w => (base + w, f w)))) (base + w) = f w :=
  Tab.get_putAll (fun x hx he => by
    obtain ⟨v, -, rfl⟩ := List.mem_map.mp hx
    obtain rfl : v = w := by dsimp only at he; omega
    rfl) (.inr ⟨_, List.mem_map.mpr ⟨w, List.mem_range.mpr hw, rfl⟩, rfl⟩)

theorem get_putAll_range_other {n base k : Nat} {t : Tab Word} {f : Nat → Word} (hk : k < base ∨ base + n ≤ k) :
    Tab.get 0 (Tab.putAll 0 t ((List.range n).map (fun w => (base + w, f w)))) k = Tab.get 0 t k :=
  Tab.get_putAll (fun x hx he => by
    obtain ⟨v, hv, rfl⟩ := List.mem_map.mp hx
    have := List.mem_range.mp hv
    dsimp only at he
    omega) (.inl rfl)

/-- The moves of an operation into its tile. -/
def EngineOp.tileRows (o : EngineOp) : List Move := o.moves.filter (fun m => match m.dst with
  | .tile _ => true
  | _ => false)

/-- Elements laid one behind the other, as TLD lays its rows. -/
def layRows (o : EngineOp) (ms : List Move) : Nat := ms.foldr (fun m acc => (o.moveValue m).1 % 2 ^ m.wd + 2 ^ m.wd * acc) 0

theorem writeTile_tables (o : EngineOp) (n : Nat) (g : Group) : ∃ rows, rows = layRows o o.tileRows ∧ (writeTile o n g).tile =
      Tab.putAll 0 g.tile ((List.range 2048).map (fun w => (n * 2048 + w, BitVec.ofNat 32 (rows / 2 ^ (32 * w))))) ∧
    (writeTile o n g).scale =
      Tab.putAll 0 g.scale ((List.range 128).map (fun w => (n * 128 + w, BitVec.ofNat 32 (patchBits o atSide (32 * w) 32 0).1))) := by
  unfold writeTile
  dsimp only
  refine ⟨_, ?_, rfl, rfl⟩
  rw [layRows, EngineOp.tileRows, List.foldr_filter]
  refine congrArg (fun f => List.foldr f 0 o.moves) (funext fun m => funext fun acc => ?_)
  cases m.dst <;> rfl

theorem writeTile_other {o : EngineOp} {n : Nat} {g : Group} {k w : Nat} (h : k ≠ n) :
    (w < 2048 → (writeTile o n g).tileWord k w = g.tileWord k w) ∧
      (w < 128 → (writeTile o n g).scaleWord k w = g.scaleWord k w) := by
  obtain ⟨_, -, htile, hscale⟩ := writeTile_tables o n g
  rw [Group.tileWord, Group.scaleWord, htile, hscale]
  exact ⟨fun hw => get_putAll_range_other (by omega), fun hw => get_putAll_range_other (by omega)⟩

theorem writeTile_scale_own {o : EngineOp} {n : Nat} {g : Group} {w : Nat} (hw : w < 128) :
    (writeTile o n g).scaleWord n w = BitVec.ofNat 32 (patchBits o atSide (32 * w) 32 0).1 := by
  obtain ⟨_, -, -, hscale⟩ := writeTile_tables o n g
  rw [Group.scaleWord, hscale]
  exact get_putAll_range hw

theorem writeTile_tile_own {o : EngineOp} {n : Nat} {g : Group} {w : Nat} (hw : w < 2048) :
    (writeTile o n g).tileWord n w = BitVec.ofNat 32 (layRows o o.tileRows / 2 ^ (32 * w)) := by
  obtain ⟨_, rfl, htile, -⟩ := writeTile_tables o n g
  rw [Group.tileWord, htile]
  exact get_putAll_range hw

/-- The k-th of elements of one width. -/
theorem layRows_elem (o : EngineOp) {wd : Nat} : ∀ {ms : List Move} {k : Nat} {m : Move}, (∀ r ∈ ms, r.wd = wd) → ms[k]? = some m →
    layRows o ms / 2 ^ (k * wd) % 2 ^ wd = (o.moveValue m).1 % 2 ^ wd
  | r :: ms, 0, m, hwd, hk => by
    obtain rfl : r = m := by simpa using hk
    rw [show layRows o (r :: ms) = (o.moveValue r).1 % 2 ^ r.wd + 2 ^ r.wd * layRows o ms from rfl, hwd r List.mem_cons_self]
    simp
  | r :: ms, k + 1, m, hwd, hk => by
    have hr := hwd r List.mem_cons_self
    rw [show layRows o (r :: ms) = (o.moveValue r).1 % 2 ^ r.wd + 2 ^ r.wd * layRows o ms from rfl, hr, Nat.succ_mul, Nat.add_comm (k * wd),
      Nat.pow_add, ← Nat.div_div_eq_div_mul, Nat.add_mul_div_left _ _ (Nat.two_pow_pos wd),
      Nat.div_eq_of_lt (Nat.mod_lt _ (Nat.two_pow_pos wd)), Nat.zero_add]
    exact layRows_elem o (fun q hq => hwd q (List.mem_cons_of_mem r hq)) (by simpa using hk)

/-- Bits of a number inside one of its words. -/
theorem word_bits {v b wd : Nat} (h : b % 32 + wd ≤ 32) :
    (BitVec.ofNat 32 (v / 2 ^ (32 * (b / 32)))).toNat / 2 ^ (b % 32) % 2 ^ wd = v / 2 ^ b % 2 ^ wd := by
  have hsplit : 2 ^ 32 = 2 ^ (b % 32) * (2 ^ wd * 2 ^ (32 - b % 32 - wd)) := by
    rw [← Nat.pow_add, ← Nat.pow_add]; congr 1; omega
  rw [BitVec.toNat_ofNat, hsplit, Nat.mod_mul_right_div_self, Nat.mod_mul_right_mod, Nat.div_div_eq_div_mul, ← Nat.pow_add]
  congr 3
  omega

/-- Every element of one width in a tile is its move's value (R183). -/
theorem writeTile_elem {o : EngineOp} {n : Nat} {g : Group} {wd k : Nat} {m : Move} (hdvd : wd ∣ 32)
    (hwd : ∀ r ∈ o.tileRows, r.wd = wd) (hk : o.tileRows[k]? = some m) (hlt : k * wd < 65536) :
    ((writeTile o n g).tileWord n (k * wd / 32)).toNat / 2 ^ (k * wd % 32) % 2 ^ wd = (o.moveValue m).1 % 2 ^ wd := by
  have hfit : k * wd % 32 + wd ≤ 32 := by
    obtain ⟨c, hc⟩ := hdvd
    have hmod : k * wd % 32 = wd * (k % c) := by rw [hc, Nat.mul_comm k, Nat.mul_mod_mul_left]
    have hcpos : 0 < c := Nat.pos_of_ne_zero fun h0 => by simp [h0] at hc
    have hle : wd * (k % c + 1) ≤ wd * c := Nat.mul_le_mul_left wd (Nat.mod_lt k hcpos)
    rw [hmod]
    rw [Nat.mul_succ] at hle
    omega
  rw [writeTile_tile_own (by omega), word_bits hfit]
  exact layRows_elem o hwd hk

/-! ### The event line of a LDH (R190, R192) -/

/-- The faulted burst of the lowest sequence number. -/
def EngineOp.firstBad (o : EngineOp) : Option Burst :=
  (o.bursts.filter (fun b => b.fault.isSome)).foldl (fun (m : Option Burst) b => match m with
    | none => some b
    | some c => if b.seq < c.seq then some b else some c) none

theorem handlerFault_eq (o : EngineOp) : o.handlerFault = o.firstBad.bind (fun b => b.fault) := rfl

theorem firstBad_none {o : EngineOp} (h : ∀ b ∈ o.bursts, b.fault = none) : o.firstBad = none := by
  have hbad : o.bursts.filter (fun b => b.fault.isSome) = [] := List.filter_eq_nil_iff.mpr fun b hb => by simp [h b hb]
  rw [EngineOp.firstBad, hbad]
  rfl

/-- A burst goes before every other faulted one. -/
def EngineOp.FirstFault (o : EngineOp) (b : Burst) : Prop := ∀ d ∈ o.bursts, d.fault.isSome = true → d = b ∨ b.seq < d.seq

theorem firstBad_some {o : EngineOp} {b : Burst} (hb : b ∈ o.bursts) (hfault : b.fault.isSome = true) (hfirst : o.FirstFault b) :
    o.firstBad = some b := by
  have hwalk : ∀ (l : List Burst) (m : Option Burst), (∀ d ∈ l, d = b ∨ b.seq < d.seq) →
      (m = some b ∨ (b ∈ l ∧ ∀ c, m = some c → b.seq < c.seq)) →
      l.foldl (fun (m : Option Burst) b => match m with
        | none => some b
        | some c => if b.seq < c.seq then some b else some c) m = some b := by
    intro l
    induction l with
    | nil => exact fun m _ h => h.resolve_right fun hc => by cases hc.1
    | cons d l ih =>
      intro m hl hm
      refine ih _ (fun e he => hl e (List.mem_cons_of_mem d he)) ?_
      rcases hl d List.mem_cons_self with rfl | hlt
      · refine .inl ?_
        rcases hm with rfl | ⟨-, hm⟩
        · exact if_neg (lt_irrefl _)
        · cases m with
          | none => rfl
          | some c => exact if_pos (hm c rfl)
      · rcases hm with rfl | ⟨hmem, hm⟩
        · exact .inl (if_neg (by omega))
        · have hne : b ≠ d := fun he => by subst he; exact lt_irrefl _ hlt
          refine .inr ⟨(List.mem_cons.mp hmem).resolve_left hne, fun c hc => ?_⟩
          cases m with
          | none => cases hc; exact hlt
          | some e =>
            have he := hm e rfl
            dsimp only at hc
            split at hc
            · cases hc; exact hlt
            · cases hc; exact he
  refine hwalk _ none (fun d hd => ?_) (.inr ⟨List.mem_filter.mpr ⟨hb, hfault⟩, nofun⟩)
  obtain ⟨hd, hf⟩ := List.mem_filter.mp hd
  exact hfirst d hd hf

theorem eventBytes_length (o : EngineOp) (tag : Word) : (eventBytes o tag).length = 128 := by
  simp [eventBytes, bytesLE_length]

/-- Four bytes of the event line. -/
def eventField (o : EngineOp) (tag : Word) (off : Nat) : Nat :=
  natLE ((List.range 4).map (fun j => (eventBytes o tag).getD (off + j) 0))

theorem eventField_eq (o : EngineOp) (tag : Word) :
    eventField o tag 0 = o.bursts.length % 2 ^ 32 ∧ eventField o tag 4 = (o.bursts.map (fun b => b.valid)).sum % 2 ^ 32 ∧
    eventField o tag 8 = ((o.firstBad.bind (fun b => b.fault.map (fun f => causeCode f.1))).getD 0) % 2 ^ 32 ∧
    eventField o tag 12 = ((o.firstBad.map (fun b => b.seq)).getD 0xFFFFFFFF) % 2 ^ 32 ∧
    eventField o tag 16 = (o.bursts.countP (fun b => b.fault.isSome)) % 2 ^ 32 ∧ eventField o tag 20 = tag.toNat := by
  have hword (off v : Nat) (h : (List.range 4).map (fun j => (eventBytes o tag).getD (off + j) 0) = bytesLE 4 v) :
      eventField o tag off = v % 2 ^ 32 := by rw [eventField, h, natLE_bytesLE]
  refine ⟨hword 0 _ rfl, hword 4 _ rfl, hword 8 _ rfl, hword 12 _ rfl, ?_, ?_⟩
  · rw [List.countP_eq_length_filter]; exact hword 16 _ rfl
  · rw [hword 20 _ rfl, Nat.mod_eq_of_lt tag.isLt]

theorem eventBytes_rest (o : EngineOp) (tag : Word) {j : Nat} (h : 24 ≤ j) : (eventBytes o tag).getD j 0 = 0 := by
  obtain ⟨head, hlen, htail⟩ : ∃ head : List Byte, head.length = 24 ∧ eventBytes o tag = head ++ List.replicate 104 0#8 :=
    ⟨_, by simp [bytesLE_length], rfl⟩
  rw [htail, List.getD_append_right _ _ _ _ (by omega), List.getD_eq_getElem?_getD, List.getElem?_replicate]
  split <;> rfl

/-! ### The bytes of a block -/

theorem block?_modBlock (s : State) (bi k : Nat) (f : Block → Block) :
    (s.modBlock bi f).block? k = if k = bi then (s.block? k).map f else s.block? k := modNth_get f s.blocks bi k

/-- A byte after a scratchpad write. -/
theorem spadGet_spadPut (s : State) (bi a : Nat) (v : Byte) (j k : Nat) (hbi : (s.block? bi).isSome = true) :
    (s.spadPut bi a v).spadGet j k = if j = bi ∧ k = a then v else s.spadGet j k := by
  obtain ⟨b, hb⟩ := Option.isSome_iff_exists.mp hbi
  rw [State.spadGet, State.spadGet, State.spadPut, block?_modBlock]
  by_cases hj : j = bi
  · subst hj
    rw [if_pos rfl, hb]
    simp only [Option.map_some, Option.getD_some, Tab.get_put, true_and]
  · rw [if_neg hj, if_neg fun h => hj h.1]

/-- Only the bytes and the lines of one block's scratchpad differ. -/
structure ScratchOnly (bi : Nat) (s t : State) : Prop where
  only : t = { s with blocks := t.blocks }
  present : ∀ k, (t.block? k).isSome = (s.block? k).isSome
  others : ∀ k, k ≠ bi → t.block? k = s.block? k

theorem ScratchOnly.refl (bi : Nat) (s : State) : ScratchOnly bi s s := ⟨rfl, fun _ => rfl, fun _ _ => rfl⟩

theorem ScratchOnly.trans {bi : Nat} {s t u : State} (h : ScratchOnly bi s t) (h' : ScratchOnly bi t u) : ScratchOnly bi s u :=
  ⟨h'.only.trans (congrArg (fun z : State => { z with blocks := u.blocks }) h.only), fun k => (h'.present k).trans (h.present k),
    fun k hk => (h'.others k hk).trans (h.others k hk)⟩

theorem ScratchOnly.modBlock {bi : Nat} {s t : State} (f : Block → Block) (h : ScratchOnly bi s t) :
    ScratchOnly bi s (t.modBlock bi f) := by
  obtain ⟨honly, hpresent, hothers⟩ := h
  refine ⟨?_, fun k => ?_, fun k hk => ?_⟩
  · rw [State.modBlock, honly]
  · rw [block?_modBlock, ← hpresent]
    split
    · rw [Option.isSome_map]
    · rfl
  · rw [block?_modBlock, if_neg hk, hothers k hk]

/-- Bytes laid into a scratchpad one behind the other. -/
theorem foldl_spadPut (bi a : Nat) : ∀ (bs : List Byte) (k : Nat) (s : State), (s.block? bi).isSome = true →
    let t := (bs.zipIdx k).foldl (fun s b => s.spadPut bi (a + b.2) b.1) s
    ScratchOnly bi s t ∧ (∀ line, t.lineGet bi line = s.lineGet bi line) ∧
      ∀ j, t.spadGet bi j = if a + k ≤ j ∧ j < a + k + bs.length then bs.getD (j - (a + k)) 0 else s.spadGet bi j
  | [], k, s, _ => ⟨.refl bi s, fun _ => rfl, fun j => (if_neg (by rw [List.length_nil]; omega)).symm⟩
  | b :: bs, k, s, hs => by
    have hput : ScratchOnly bi s (s.spadPut bi (a + k) b) := (ScratchOnly.refl bi s).modBlock _
    have hs' : ((s.spadPut bi (a + k) b).block? bi).isSome = true := (hput.present bi).trans hs
    obtain ⟨honly, hlines, hbytes⟩ := foldl_spadPut bi a bs (k + 1) (s.spadPut bi (a + k) b) hs'
    rw [List.zipIdx_cons, List.foldl_cons]
    refine ⟨hput.trans honly, fun line => (hlines line).trans ?_, fun j => (hbytes j).trans ?_⟩
    · rw [State.lineGet, State.lineGet, State.spadPut, block?_modBlock, if_pos rfl, Option.map_map]
      rfl
    rw [spadGet_spadPut s bi _ b bi j hs, List.length_cons]
    rcases Nat.lt_trichotomy j (a + k) with hlt | rfl | hgt
    · rw [if_neg (by omega), if_neg (by omega), if_neg (by omega)]
    · rw [if_neg (by omega), if_pos ⟨rfl, rfl⟩, if_pos (by omega), Nat.sub_self]
      rfl
    · rw [if_neg (c := bi = bi ∧ j = a + k) (by omega), show j - (a + k) = j - (a + (k + 1)) + 1 by omega, List.getD_cons_succ]
      exact if_congr (by omega) rfl rfl

/-! ### The event line written (R128, R192) -/

/-- Nothing waits at an empty line. -/
structure NothingWaits (s : State) : Prop where
  lanes : ∀ a ∈ s.acc, ∀ l ∈ a.lanes, l.stage ≠ .waitingEmpty
  engines : ∀ q ∈ s.engines, q.emptySince = []
  gathers : ∀ m ∈ s.matq, m.emptySince = []

theorem map_if_none {α : Type} {p : α → Prop} [DecidablePred p] {f : α → α} {l : List α} (h : ∀ a ∈ l, ¬p a) :
    l.map (fun a => if p a then f a else a) = l :=
  (List.map_congr_left fun a ha => if_neg (h a ha)).trans (List.map_id l)

theorem fillWake_idle {s : State} (h : NothingWaits s) (bi line : Nat) : fillWake bi line s = s := by
  obtain ⟨hlanes, hengines, hgathers⟩ := h
  have hnone : emptyWaiters s bi line = [] := by
    refine List.flatMap_eq_nil_iff.mpr fun a ha => ?_
    split
    · rw [List.map_eq_nil_iff, List.filter_eq_nil_iff]
      exact fun l hl => by simp [hlanes a ha l hl]
    · rfl
  have hreads (f : EngineOp → EngineOp) :
      s.engines.map (fun q => if q.block = bi ∧ q.emptySince.any (fun e => e.1 == line) = true then f q else q) = s.engines :=
    map_if_none fun q hq hw => by simp [hengines q hq] at hw
  have hlatches (f : MatEntry → MatEntry) : s.matq.map (fun m =>
      if ((s.group? m.group).map (fun g => g.block)).getD 0 = bi ∧ m.emptySince.any (fun e => e.1 == line) = true then f m else m) =
      s.matq := map_if_none fun m hm hw => by simp [hgathers m hm] at hw
  unfold fillWake
  rw [hnone, List.foldl_nil]
  dsimp only
  rw [hreads, hlatches]

/-- Then a line that becomes full wakes nothing. -/
theorem wakeIfFilled_idle {s : State} (h : NothingWaits s) (before : State) (bi line : Nat) : wakeIfFilled before bi line s = s := by
  unfold wakeIfFilled
  rw [fillWake_idle h, ite_self]

/-- A handled read whose event line is written. -/
def EngineOp.summed (line : Nat) (q : EngineOp) : EngineOp := { q with sresv := [], swritesDone := [line] }

theorem keepsOp_summed (line : Nat) : KeepsOp (EngineOp.summed line) := ⟨fun _ => rfl, fun _ => rfl, fun _ => rfl⟩

/-- The line states that a block's line is set to (R128). -/
theorem lineGet_lineSet {s : State} {bi line : Nat} (hbi : (s.block? bi).isSome = true) (tag : Nat) :
    (s.lineSet bi line true tag).lineFull bi line = true ∧ (s.lineSet bi line true tag).lineTag bi line = tag % 8 := by
  obtain ⟨b, hb⟩ := Option.isSome_iff_exists.mp hbi
  have hget : (s.lineSet bi line true tag).lineGet bi line = BitVec.ofNat 8 (1 + 2 * tag) &&& 0x0F#8 := by
    rw [State.lineSet, State.linePut, State.lineGet, block?_modBlock, if_pos rfl, hb]
    exact Tab.get_put_same ..
  have hlow : (BitVec.ofNat 8 (1 + 2 * tag) &&& 0x0F#8).toNat = (1 + 2 * tag) % 16 := by
    rw [BitVec.toNat_and, BitVec.toNat_ofNat, show (0x0F#8).toNat = 2 ^ 4 - 1 from rfl, Nat.and_two_pow_sub_one_eq_mod]
    omega
  rw [State.lineFull, State.lineTag, hget, hlow, BitVec.getLsbD, hlow, Nat.testBit_zero]
  exact ⟨decide_eq_true (by omega), by omega⟩

theorem lineSet_scratch (s : State) (bi line tag : Nat) : ScratchOnly bi s (s.lineSet bi line true tag) :=
  (ScratchOnly.refl bi s).modBlock fun b => { b with lines := b.lines.put 0 line (BitVec.ofNat 8 (1 + 2 * tag) &&& 0x0F#8) }

theorem spadGet_lineSet (s : State) (bi line tag k : Nat) : (s.lineSet bi line true tag).spadGet bi k = s.spadGet bi k := by
  rw [State.spadGet, State.lineSet, State.linePut, block?_modBlock, if_pos rfl, Option.map_map]
  rfl

/-- The event line's bytes in their place. -/
def eventLaid (o : EngineOp) (line : Nat) (tag : Word) (s : State) : State :=
  (eventBytes o tag).zipIdx.foldl (fun s b => s.spadPut o.block (128 * line + b.2) b.1) s

/-- The write of the event line, but for the waiters that it wakes. -/
def eventSet (o : EngineOp) (line : Nat) (tag : Word) (s : State) : State :=
  ((eventLaid o line tag s).modEngine o.id (EngineOp.summed line)).lineSet o.block line true o.swz

theorem writeEvent_eq (o : EngineOp) (line : Nat) (tag : Word) (s : State) :
    writeEvent o line tag s = wakeIfFilled s o.block line (eventSet o line tag s) := rfl

/-- What the event line's write leaves of the state. -/
structure EventWritten (o : EngineOp) (line : Nat) (tag : Word) (s u : State) : Prop where
  only : u = { s with blocks := u.blocks, engines := (s.modEngine o.id (EngineOp.summed line)).engines }
  others : ∀ k, k ≠ o.block → u.block? k = s.block? k
  full : u.lineFull o.block line = true
  tagged : u.lineTag o.block line = o.swz % 8
  bytes : ∀ k, u.spadGet o.block k =
    if 128 * line ≤ k ∧ k < 128 * line + 128 then (eventBytes o tag).getD (k - 128 * line) 0 else s.spadGet o.block k

theorem eventLaid_spec {s : State} {o : EngineOp} (line : Nat) (tag : Word) (hbi : (s.block? o.block).isSome = true) :
    ScratchOnly o.block s (eventLaid o line tag s) ∧ ∀ k, (eventLaid o line tag s).spadGet o.block k =
      if 128 * line ≤ k ∧ k < 128 * line + 128 then (eventBytes o tag).getD (k - 128 * line) 0 else s.spadGet o.block k := by
  obtain ⟨hlaid, -, hbytes⟩ := foldl_spadPut o.block (128 * line) (eventBytes o tag) 0 s hbi
  rw [eventBytes_length] at hbytes
  exact ⟨hlaid, hbytes⟩

theorem eventSet_only {s v : State} {bi : Nat} (hv : ScratchOnly bi s v) (op line tag : Nat) :
    let u := (v.modEngine op (EngineOp.summed line)).lineSet bi line true tag
    u = { s with blocks := u.blocks, engines := (s.modEngine op (EngineOp.summed line)).engines } := by
  intro u
  have hset : u = { v.modEngine op (EngineOp.summed line) with blocks := u.blocks } := (lineSet_scratch ..).only
  have hengines : v.engines = s.engines := by rw [hv.only]
  have hmod : v.modEngine op (EngineOp.summed line) =
      { s with blocks := v.blocks, engines := (s.modEngine op (EngineOp.summed line)).engines } := by
    rw [State.modEngine, State.modEngine, hengines]
    exact congrArg (fun z : State => { z with engines := s.engines.map (fun q : EngineOp => if q.id = op then EngineOp.summed line q else q) }) hv.only
  exact hset.trans (congrArg (fun z : State => { z with blocks := u.blocks }) hmod)

/-- A line set in a block that an operation's update leaves, from any scratchpad. -/
theorem summedSet_spec {s v : State} {bi : Nat} (hv : ScratchOnly bi s v) (hbi : (s.block? bi).isSome = true) (op line tag : Nat) :
    let u := (v.modEngine op (EngineOp.summed line)).lineSet bi line true tag
    (∀ k, k ≠ bi → u.block? k = s.block? k) ∧ u.lineFull bi line = true ∧ u.lineTag bi line = tag % 8 ∧
      ∀ k, u.spadGet bi k = v.spadGet bi k := by
  have hpresent : ((v.modEngine op (EngineOp.summed line)).block? bi).isSome = true := (hv.present bi).trans hbi
  obtain ⟨hfull, htag⟩ := lineGet_lineSet (line := line) hpresent tag
  exact ⟨fun k hk => ((lineSet_scratch ..).others k hk).trans (hv.others k hk), hfull, htag,
    fun k => spadGet_lineSet (v.modEngine op (EngineOp.summed line)) bi line tag k⟩

theorem eventSet_written {s : State} {o : EngineOp} (line : Nat) (tag : Word) (hbi : (s.block? o.block).isSome = true) :
    EventWritten o line tag s (eventSet o line tag s) := by
  obtain ⟨hlaid, hbytes⟩ := eventLaid_spec line tag hbi
  have honly := eventSet_only hlaid o.id line o.swz
  obtain ⟨hothers, hfull, htag, hsame⟩ := summedSet_spec hlaid hbi o.id line o.swz
  exact ⟨honly, hothers, hfull, htag, fun k => (hsame k).trans (hbytes k)⟩

theorem writeEvent_written {s : State} {o : EngineOp} (line : Nat) (tag : Word) (hbi : (s.block? o.block).isSome = true)
    (hwaits : NothingWaits s) : EventWritten o line tag s (writeEvent o line tag s) := by
  have hset := eventSet_written line tag hbi
  have hidle : NothingWaits (eventSet o line tag s) := by
    obtain ⟨hlanes, hengines, hgathers⟩ := hwaits
    rw [hset.only]
    refine ⟨hlanes, fun q hq => ?_, hgathers⟩
    obtain ⟨p, hp, rfl⟩ := List.mem_map.mp hq
    rw [← hengines p hp]
    split <;> rfl
  rw [writeEvent_eq, wakeIfFilled_idle hidle]
  exact hset

end Sys2Proof.Machine
end

section
namespace Sys2Proof.Machine
open Sys2Proof Sys2Proof.Num

/-! ### From the state before the last writes -/

/-- An end that began with writes which change no more than blocks, operations and a tile. -/
theorem EngineEnded.after {op gi : Nat} {s u t : State} {g g' h : Group} {fl : FlagBits} {faults : List PendingFault}
    (he : EngineEnded op gi u t g' h fl faults) (hu : u = { s with blocks := u.blocks, engines := u.engines, groups := u.groups })
    (hg : g' = { g with tile := g'.tile, scale := g'.scale })
    (hcount : ∀ cl, engineCount gi cl u.engines = engineCount gi cl s.engines) (hother : otherOps op u = otherOps op s)
    (hgroups : ∀ j, j ≠ gi → u.group? j = s.group? j) : EngineEnded op gi s t g h fl faults := by
  refine ⟨he.now, ?_, he.unfinished.trans hother, he.freed, ?_, fun j hj => (he.others j hj).trans (hgroups j hj)⟩
  · exact he.only.trans (congrArg (fun z : State => { z with blocks := t.blocks, engines := t.engines, groups := t.groups }) hu)
  · rw [← hcount, ← hcount]
    refine he.changed.trans ?_
    rw [hg]

theorem writeTile_only (o : EngineOp) (n : Nat) (g : Group) :
    writeTile o n g = { g with tile := (writeTile o n g).tile, scale := (writeTile o n g).scale } := by
  obtain ⟨tile, scale, h⟩ : ∃ tile scale, writeTile o n g = { g with tile := tile, scale := scale } := ⟨_, _, rfl⟩
  rw [h]

theorem EngineEnded.after_tile {o : EngineOp} {n : Nat} {s t : State} {g h : Group} {fl : FlagBits} {faults : List PendingFault}
    (he : EngineEnded o.id o.group (s.modGroup o.group (writeTile o n)) t (writeTile o n g) h fl faults) :
    EngineEnded o.id o.group s t g h fl faults :=
  he.after rfl (writeTile_only o n g) (fun _ => rfl) rfl fun _ hj => group?_modGroup_other _ hj

theorem EngineEnded.after_event {o : EngineOp} {line : Nat} {tag : Word} {s u t : State} {g h : Group} {fl : FlagBits}
    {faults : List PendingFault} (hu : EventWritten o line tag s u) (he : EngineEnded o.id o.group u t g h fl faults) :
    EngineEnded o.id o.group s t g h fl faults := by
  have hengines : u.engines = (s.modEngine o.id (EngineOp.summed line)).engines := by rw [hu.only]
  have hgroups : u.groups = s.groups := by rw [hu.only]
  refine he.after (by rw [hgroups, hengines]; exact hu.only) rfl (fun cl => ?_) ?_ fun j _ => group?_of_groups hgroups j
  · rw [hengines, engineCount_modEngine (keepsOp_summed line)]
  · rw [otherOps, hengines]
    exact otherOps_modEngine (keepsOp_summed line) o.id s

/-! ### Operations that fault (R187) -/

/-- The effect of ENGINE_FAULT. -/
theorem engineFault_eq {s : State} {op : Nat} {o : EngineOp} {c : Cause} {aux : DWord} (ho : s.engine? op = some o)
    (hlive : engineLive s o = true) (hfault : engineFaultOf s o = some (c, aux)) : exec (.engineFault op) s =
      .next (deliverToUser o.group (pendingOf o c aux o.sresv) (endEngine { o with flags := 0 } [pendingOf o c aux o.sresv] s)) := by
  rw [exec_engineFault, execEngineFault, ho]
  simp only [hlive, hfault]
  rfl

/-- A split of the group waits at an LDS for one of the lines. -/
def WaitsFor (gi : Nat) (lines : List Nat) (a : Access) : Prop :=
  a.group = gi ∧ ∃ l ∈ a.lanes, l.stage = .waitingEmpty ∧ l.addr / 128 ∈ lines

theorem waitsFor_iff {gi : Nat} {lines : List Nat} {a : Access} :
    (a.group = gi ∧ a.lanes.any (fun l => l.stage == .waitingEmpty && lines.contains (l.addr / 128)) = true) ↔ WaitsFor gi lines a := by
  simp [WaitsFor]

theorem ldsUser_none {s : State} {gi : Nat} {lines : List Nat} (h : ∀ a ∈ s.acc, ¬WaitsFor gi lines a) : ldsUser s gi lines = none :=
  List.findSome?_eq_none_iff.mpr fun a ha => if_neg (mt waitsFor_iff.mp (h a ha))

/-- The one access that waits so, and its split. -/
theorem ldsUser_one {s : State} {gi : Nat} {lines : List Nat} {a : Access} {g : Group} {q : Split} (hg : s.group? gi = some g)
    (ha : a ∈ s.acc) (hwaits : WaitsFor gi lines a) (hone : ∀ b ∈ s.acc, WaitsFor gi lines b → b = a) (hq : q ∈ g.splits)
    (hwait : q.wait = .access a.id) (honly : ∀ r ∈ g.splits, r.wait = .access a.id → r = q) : ldsUser s gi lines = some (a, q) := by
  have hfind : g.splits.find? (fun p => p.wait == .access a.id) = some q := by
    cases hf : g.splits.find? (fun p => p.wait == .access a.id) with
    | none => exact absurd hwait (by simpa using List.find?_eq_none.mp hf q hq)
    | some r => rw [honly r (List.mem_of_find?_eq_some hf) (by simpa using List.find?_some hf)]
  have huser : ((s.group? gi).bind (fun g => g.splits.find? (fun p => p.wait == .access a.id))).map (fun p => (a, p)) = some (a, q) := by
    rw [hg, Option.bind_some, hfind, Option.map_some]
  cases hl : ldsUser s gi lines with
  | none => 
    have hnone := List.findSome?_eq_none_iff.mp hl a ha
    rw [if_pos (waitsFor_iff.mpr hwaits), huser] at hnone
    cases hnone
  | some x =>
    obtain ⟨b, hb, hx⟩ := List.exists_of_findSome?_eq_some hl
    split at hx
    · rename_i hbw
      rw [hone b hb (waitsFor_iff.mp hbw), huser] at hx
      exact hx.symm
    · cases hx

theorem deliverToUser_none {s : State} {gi : Nat} {f : PendingFault} (h : ldsUser s gi f.lines = none) : deliverToUser gi f s = s := by
  unfold deliverToUser
  rw [h]
  cases s.group? gi <;> rfl

/-- A group outside the handlers may trap wherever its block, its context and its launch are as before. -/
theorem mayTrap_congr {s t : State} {gi : Nat} {g h : Group} (hg : s.group? gi = some g) (hh : t.group? gi = some h)
    (hnone : g.handler = none) (hhandler : h.handler = g.handler) (hblock : h.block = g.block)
    (ht : t = { s with engines := t.engines, groups := t.groups }) : mayTrap t gi = mayTrap s gi := by
  have hawaited (u : State) (k : Group) (hk : k.handler = none) : awaitedHandler u k = false := by rw [awaitedHandler, hk]; rfl
  have hblocks : t.blocks = s.blocks := by rw [ht]
  have hlaunches : t.launches = s.launches := by rw [ht]
  have hctxs : t.ctxs = s.ctxs := by rw [ht]
  have hfrozen : t.frozen = s.frozen := by rw [ht]
  have hctx : t.groupCtx? h = s.groupCtx? g := by
    simp only [State.groupCtx?, State.groupCtx, State.groupLaunch?, State.block?, State.launch?, State.ctx?, hblock, hblocks,
      hlaunches, hctxs]
  have hruns : ctxRuns t h = ctxRuns s g := by
    simp only [ctxRuns, hctx, hhandler, hnone, hfrozen, Option.isSome_none, Bool.false_and]
  have hblk : t.block? h.block = s.block? g.block := by rw [State.block?, State.block?, hblock, hblocks]
  rw [mayTrap, mayTrap, hg, hh, Option.any_some, Option.any_some, hruns, hblk, hawaited s g hnone, hawaited t h (hhandler.trans hnone)]

theorem split?_of_mem {g : Group} {q : Split} (hq : q ∈ g.splits) (hnodup : (g.splits.map (fun r => r.idx)).Nodup) :
    g.split? q.idx = some q := by
  have hfound : (g.split? q.idx).isSome = true := List.find?_isSome.mpr ⟨q, hq, by simp⟩
  obtain ⟨r, hr⟩ := Option.isSome_iff_exists.mp hfound
  have hidx : r.idx = q.idx := by simpa using List.find?_some hr
  rw [hr, List.inj_on_of_nodup_map hnodup (List.mem_of_find?_eq_some hr) hq hidx]

theorem takeTrap_mem (gi si : Nat) (c : Cause) (aux : DWord) (mask pend : LaneMask) (s : State) :
    (takeTrap gi si c aux mask pend s).mem = s.mem := by
  rcases takeTrap_cases gi si c aux mask pend s with h | ⟨g, h', -, -, h⟩ | ⟨g, p, -, -, -, h⟩
  · rw [h]
  · rw [h]; rfl
  · rw [h]; rfl

/-- The LDS that waits for a line which the operation leaves unwritten takes its fault (R187). -/
theorem deliverToUser_traps {s : State} {gi : Nat} {f : PendingFault} {g : Group} {a : Access} {q : Split} (hg : s.group? gi = some g)
    (huser : ldsUser s gi f.lines = some (a, q)) (hmay : mayTrap s gi = true) (hnone : g.handler = none) (hq : q ∈ g.splits)
    (hnodup : (g.splits.map (fun r => r.idx)).Nodup) :
    Trapped (deliverToUser gi f s) gi q.idx f.cause q.pc 0 ∧ (deliverToUser gi f s).mem = s.mem := by
  have hdeliver : deliverToUser gi f s = takeTrap gi q.idx f.cause f.aux (q.act &&& ~~~g.helpers) 0
      (dropUnperformed a.id (s.modGroup gi (fun g => { g with faults := g.faults.erase f }))) := by
    unfold deliverToUser
    rw [hg, huser]
    exact if_pos hmay
  have hstands := ((unmoved_refl hg (split?_of_mem hq hnodup)).modGroup (gj := gi) (F := id)
    (f := fun g => { g with faults := g.faults.erase f }) (fun _ => ⟨rfl, rfl, (List.map_id _).symm⟩)
    (fun _ => ⟨rfl, rfl⟩)).dropUnperformed a.id
  obtain ⟨u, r, hu, hhandler, -, hr, hpc⟩ := hstands.stands
  have hheld : Held (fun r => r.pc = q.pc) gi q.idx
      (dropUnperformed a.id (s.modGroup gi (fun g => { g with faults := g.faults.erase f }))) :=
    ⟨u, r, hu, hhandler.trans hnone, hr, hpc⟩
  rw [hdeliver]
  refine ⟨(takeTrap_reaches (fun r hr => ⟨rfl, rfl, hr, rfl, rfl⟩) _ _ hheld).trapped, ?_⟩
  rw [takeTrap_mem, dropUnperformed_halt]
  rfl

end Sys2Proof.Machine
end

section
namespace Sys2Proof.Machine
open Sys2Proof Sys2Proof.Num

/-! ### The statement (O39) -/

/-- Four bytes of the event line in the block. -/
theorem EventWritten.field {o : EngineOp} {line : Nat} {tag : Word} {s u : State} (h : EventWritten o line tag s u) {off : Nat}
    (hoff : off + 4 ≤ 128) :
    natLE ((List.range 4).map (fun j => u.spadGet o.block (128 * line + off + j))) = eventField o tag off := by
  refine congrArg natLE (List.map_congr_left fun j hj => ?_)
  have hj4 := List.mem_range.mp hj
  rw [h.bytes, if_pos (by omega)]
  congr 1
  omega

theorem causeCode_lt (c : Cause) : causeCode c < 2 ^ 32 := by cases c <;> decide

/-- The summary of a request without a fault, and with one (R192). -/
theorem eventField_sound {o : EngineOp} {tag : Word} (h : ∀ b ∈ o.bursts, b.fault = none) :
    eventField o tag 8 = 0 ∧ eventField o tag 12 = 0xFFFF_FFFF := by
  obtain ⟨-, -, hcause, hseq, -⟩ := eventField_eq o tag
  rw [firstBad_none h] at hcause hseq
  exact ⟨hcause, hseq⟩

theorem eventField_faulted {o : EngineOp} {tag : Word} {b : Burst} {f : Cause × DWord} (hb : b ∈ o.bursts) (hf : b.fault = some f)
    (hfirst : o.FirstFault b) (hlt : b.seq < 2 ^ 32) : eventField o tag 8 = causeCode f.1 ∧ eventField o tag 12 = b.seq := by
  obtain ⟨-, -, hcause, hseq, -⟩ := eventField_eq o tag
  rw [firstBad_some hb (by rw [hf]; rfl) hfirst, Option.bind_some, hf, Option.map_some, Option.getD_some,
    Nat.mod_eq_of_lt (causeCode_lt _)] at hcause
  rw [firstBad_some hb (by rw [hf]; rfl) hfirst, Option.map_some, Option.getD_some, Nat.mod_eq_of_lt hlt] at hseq
  exact ⟨hcause, hseq⟩

/-- The fault that a request's group receives (R190). -/
theorem requestFaults {o : EngineOp} {faults : List PendingFault}
    (h : faults = [] ∧ (∀ b ∈ o.bursts, b.fault = none) ∨ ∃ b ∈ o.bursts, ∃ f, b.fault = some f ∧
      o.FirstFault b ∧ faults = [pendingOf o f.1 f.2 []]) :
    (o.handlerFault.map (fun f => pendingOf o f.1 f.2 [])).toList = faults := by
  rw [handlerFault_eq]
  rcases h with ⟨rfl, hnone⟩ | ⟨b, hb, f, hf, hfirst, rfl⟩
  · rw [firstBad_none hnone]; rfl
  · rw [firstBad_some hb (by rw [hf]; rfl) hfirst, Option.bind_some, hf]; rfl

theorem endEngine_only (o : EngineOp) (faults : List PendingFault) (s : State) : endEngine o faults s =
    { s with engines := (endEngine o faults s).engines, groups := (endEngine o faults s).groups } := by
  rw [endEngine_eq]
  rfl

theorem endEngine_blocks (o : EngineOp) (faults : List PendingFault) (s : State) : (endEngine o faults s).blocks = s.blocks := by
  rw [endEngine_only]

@[simp] theorem engineEnded_words (g : Group) (fl : FlagBits) (faults : List PendingFault) (nc nt k w : Nat) :
    (g.engineEnded fl faults nc nt).tileWord k w = g.tileWord k w ∧
      (g.engineEnded fl faults nc nt).scaleWord k w = g.scaleWord k w := ⟨rfl, rfl⟩

/-- Settles O39: each kind of operation reaches `endEngine`, whose effect on its group, on the operations and on the counters is
`endEngine_ended`. -/
theorem engineOperationsEnd : Obligations.EngineOperationsEnd := by
  unfold Obligations.EngineOperationsEnd
  intro op s o g ho hlive hg _ ends plain written waitsOn
  obtain rfl : o.id = op := by simpa using List.find?_some ho
  have hends {i : Instr} {t : State} {h : Group} {fl : FlagBits} {faults : List PendingFault} {also : State → Group → Prop}
      (hexec : exec i s = .next t) (he : EngineEnded o.id o.group s t g h fl faults) (halso : also t h) : ends i fl faults also :=
    ⟨t, h, hexec, he.now, by rw [he.only], by rw [he.only], by rw [he.only], halso, he.unfinished, he.freed, he.changed, he.others⟩
  refine ⟨fun hfault hread => ?_, fun c aux hmet => ?_⟩
  · have hc : Completing s o.id o := ⟨ho, hlive, hfault, hread⟩
    have hexec {t : State} (h : completeEngine o.id s = t) : exec (.engineCompletion o.id) s = .next t := congrArg _ h
    refine ⟨fun hkind hw => ?_, fun c hkind hcoll hwritable hremote hw => ?_, fun n hkind hfree => ?_, ?_⟩
    · exact hends (hexec (hc.written hkind ⟨hw.1, hw.2⟩)) (endEngine_ended hg []) ⟨endEngine_blocks .., rfl, rfl⟩
    · exact hends (hexec (hc.collective hkind hcoll hwritable hremote ⟨hw.1, hw.2⟩)) (endEngine_ended hg [])
        ⟨endEngine_blocks .., rfl, rfl⟩
    · refine hends (hexec (hc.tile hkind hfree)) (endEngine_ended (group?_modGroup_same _ hg) []).after_tile ⟨endEngine_blocks .., ?_⟩
      simp only [engineEnded_words]
      exact ⟨fun k w hk => (writeTile_other hk).1, fun k w hk => (writeTile_other hk).2, fun w hw => writeTile_scale_own hw,
        fun wd k m hdvd _ hwd hm hlt => writeTile_elem hdvd hwd hm hlt⟩
    · intro line tag entry hkind hhandled hline hblock hlanes hengines hgathers faults hfaults
      have hwritten := writeEvent_written line tag hblock ⟨hlanes, hengines, hgathers⟩
      have hblocks := endEngine_blocks o faults (writeEvent o line tag s)
      have hrequest := hc.request hkind hhandled hline
      rw [requestFaults hfaults] at hrequest
      have hgroup : (writeEvent o line tag s).group? o.group = some g := by rw [hwritten.only]; exact hg
      refine hends (hexec hrequest) ((endEngine_ended hgroup faults).after_event hwritten) ⟨rfl, rfl, ?_⟩
      obtain ⟨h0, h4, -, -, h16, h20⟩ := eventField_eq o tag
      simp only [State.lineFull, State.lineTag, State.lineGet, State.spadGet, State.block?, hblocks]
      refine ⟨hwritten.full, hwritten.tagged, hwritten.others, fun k hk => (hwritten.bytes k).trans (if_neg (by omega)),
        (hwritten.field (by omega)).trans h0, (hwritten.field (by omega)).trans h4, (hwritten.field (by omega)).trans h16,
        (hwritten.field (by omega)).trans h20, fun j hj hj' => ?_, fun hnone => ?_, fun b hb f hf hfirst hlt => ?_⟩
      · refine (hwritten.bytes _).trans ((if_pos (by omega)).trans ?_)
        rw [Nat.add_sub_cancel_left]
        exact eventBytes_rest o tag hj
      · obtain ⟨h8, h12⟩ := eventField_sound (tag := tag) hnone
        exact ⟨(hwritten.field (by omega)).trans h8, (hwritten.field (by omega)).trans h12⟩
      · obtain ⟨h8, h12⟩ := eventField_faulted (tag := tag) hb hf hfirst hlt
        exact ⟨(hwritten.field (by omega)).trans h8, (hwritten.field (by omega)).trans h12⟩
  · have hexec := engineFault_eq ho hlive hmet
    have hended := endEngine_ended (o := { o with flags := 0 }) hg [pendingOf o c aux o.sresv]
    have honly := endEngine_only { o with flags := 0 } [pendingOf o c aux o.sresv] s
    have hblocks := endEngine_blocks { o with flags := 0 } [pendingOf o c aux o.sresv] s
    generalize endEngine { o with flags := 0 } [pendingOf o c aux o.sresv] s = u at hexec hended honly hblocks
    have hacc : u.acc = s.acc := by rw [honly]
    have hmem : u.mem = s.mem := by rw [honly]
    refine ⟨fun hnone => ?_, fun a q ha hwaits hone hq hwait honlyq hnodup hhandler hmay => ?_⟩
    · rw [← hacc] at hnone
      rw [deliverToUser_none (ldsUser_none hnone)] at hexec
      exact hends hexec hended ⟨hblocks, rfl, rfl⟩
    · rw [← hacc] at ha hone
      obtain ⟨htrap, hkeep⟩ := deliverToUser_traps (f := pendingOf o c aux o.sresv) hended.now
        (ldsUser_one hended.now ha hwaits hone hq hwait honlyq)
        ((mayTrap_congr hg hended.now hhandler rfl rfl honly).trans hmay) hhandler hq hnodup
      exact ⟨_, hexec, htrap, hkeep.trans hmem⟩

end Sys2Proof.Machine
end

section
namespace Sys2Proof.Machine
open Sys2Proof Sys2Proof.Num

/-! ## Bytes of tables of words -/

theorem wordByte_toNat (w : Word) (b : Nat) : (wordByte w b).toNat = w.toNat / 2 ^ (8 * b) % 256 := by
  rw [wordByte, BitVec.extractLsb'_toNat, Nat.shiftRight_eq_div_pow]

/-- A byte of a word after one byte of it is replaced. -/
theorem wordByte_setWordByte (w : Word) (v : Byte) {b c : Nat} (hb : b < 4) (hc : c < 4) :
    wordByte (setWordByte w b v) c = if c = b then v else wordByte w c := by
  have hw := w.isLt
  have hv := v.isLt
  apply BitVec.eq_of_toNat_eq
  rw [apply_ite BitVec.toNat, wordByte_toNat, wordByte_toNat, setWordByte, BitVec.toNat_ofNat]
  interval_cases b <;> interval_cases c <;> simp only [Nat.reduceMul, Nat.reducePow, if_pos, reduceIte, Nat.reduceEqDiff] <;> omega

theorem word_eq_of_bytes {w v : Word} (h : ∀ b, b < 4 → wordByte w b = wordByte v b) : w = v := by
  have hbyte (b : Nat) (hb : b < 4) : w.toNat / 2 ^ (8 * b) % 256 = v.toNat / 2 ^ (8 * b) % 256 := by
    rw [← wordByte_toNat, ← wordByte_toNat, h b hb]
  have h0 := hbyte 0 (by decide)
  have h1 := hbyte 1 (by decide)
  have h2 := hbyte 2 (by decide)
  have h3 := hbyte 3 (by decide)
  have hw := w.isLt
  have hv := v.isLt
  apply BitVec.eq_of_toNat_eq
  omega

/-- A byte of a table of words, by its number. -/
def tabByte (t : Tab Word) (k : Nat) : Byte := wordByte (t.get 0 (k / 4)) (k % 4)

/-- Bytes written one after the other, as an entry writes those of a sideband. -/
def putBytes (t : Tab Word) (ys : List (Nat × Byte)) : Tab Word :=
  ys.foldl (fun t y => t.put 0 (y.1 / 4) (setWordByte (t.get 0 (y.1 / 4)) (y.1 % 4) y.2)) t

theorem tabByte_put (t : Tab Word) (j k : Nat) (v : Byte) :
    tabByte (t.put 0 (j / 4) (setWordByte (t.get 0 (j / 4)) (j % 4) v)) k = if k = j then v else tabByte t k := by
  unfold tabByte
  rw [Tab.get_put]
  by_cases hword : k / 4 = j / 4
  · rw [if_pos hword, wordByte_setWordByte _ _ (Nat.mod_lt _ (by decide)) (Nat.mod_lt _ (by decide)), hword]
    exact if_congr (by omega) rfl rfl
  · rw [if_neg hword, if_neg fun h => hword (by rw [h])]

/-- A byte that only one value is written to reads it; when none is written, the table's own. -/
theorem tabByte_putBytes {v : Byte} {k : Nat} : ∀ {ys : List (Nat × Byte)} {t : Tab Word},
    (∀ y ∈ ys, y.1 = k → y.2 = v) → (tabByte t k = v ∨ ∃ y ∈ ys, y.1 = k) → tabByte (putBytes t ys) k = v
  | [], _, _, h => h.resolve_right (by simp)
  | y :: ys, t, hval, hkey => by
    refine tabByte_putBytes (ys := ys) (t := t.put 0 (y.1 / 4) (setWordByte (t.get 0 (y.1 / 4)) (y.1 % 4) y.2))
      (fun x hx => hval x (List.mem_cons_of_mem _ hx)) ?_
    rw [tabByte_put]
    by_cases hy : k = y.1
    · exact .inl ((if_pos hy).trans (hval y List.mem_cons_self hy.symm))
    · rw [if_neg hy]
      refine hkey.imp_right fun ⟨x, hx, hk⟩ => ⟨x, (List.mem_cons.mp hx).resolve_left fun h => hy (h ▸ hk.symm), hk⟩

theorem sideByte_eq (g : Group) (t b : Nat) : sideByte g t b = (tabByte g.scale (t * 512 + b)).toNat := by
  rw [sideByte, tabByte, Group.scaleWord, show (t * 512 + b) / 4 = t * 128 + b / 4 by omega, show (t * 512 + b) % 4 = b % 4 by omega]

/-! ## What an entry writes (R197) -/

section
variable {g : Group} {o : MatOut}

theorem applyMat_acc {slot w : Nat} {v : Word} (hval : ∀ x ∈ o.acc, x.1 = slot * 4096 + w → x.2 = v)
    (hkey : g.accWord slot w = v ∨ ∃ x ∈ o.acc, x.1 = slot * 4096 + w) : (g.applyMat o).accWord slot w = v := Tab.get_putAll hval hkey

theorem applyMat_tile {t w : Nat} {v : Word} (hval : ∀ x ∈ o.tile, x.1 = t * 2048 + w → x.2 = v)
    (hkey : g.tileWord t w = v ∨ ∃ x ∈ o.tile, x.1 = t * 2048 + w) : (g.applyMat o).tileWord t w = v := Tab.get_putAll hval hkey

theorem applyMat_carry {slot k : Nat} {v : Word} (hslot : slot < 16) (hval : ∀ x ∈ o.carry, x.1 = slot * 128 + k → x.2 = v)
    (hkey : g.carryWord slot k = v ∨ ∃ x ∈ o.carry, x.1 = slot * 128 + k) : (g.applyMat o).carryWord slot k = v := by
  rw [Group.carryWord, if_pos hslot] at hkey ⊢
  exact Tab.get_putAll hval hkey

theorem applyMat_side {t b : Nat} {v : Byte} (hval : ∀ y ∈ o.scale, y.1 = t * 512 + b → y.2 = v)
    (hkey : sideByte g t b = v.toNat ∨ ∃ y ∈ o.scale, y.1 = t * 512 + b) : sideByte (g.applyMat o) t b = v.toNat := by
  rw [sideByte_eq] at hkey ⊢
  exact congrArg BitVec.toNat (tabByte_putBytes (t := g.scale) hval (hkey.imp_left BitVec.eq_of_toNat_eq))

theorem applyMat_scaleWord {t w : Nat} (hnone : o.scale = []) : (g.applyMat o).scaleWord t w = g.scaleWord t w := by
  simp only [Group.applyMat, Group.scaleWord, hnone, List.foldl_nil]

theorem applyMat_vget {r L : Nat} {v : Word} (hL : L < 16)
    (hval : g.present.getLsbD L = true → ∀ x ∈ o.vec, x.1 = r * 16 + L → x.2 = v)
    (hkey : g.vget r L = v ∨ g.present.getLsbD L = true ∧ ∃ x ∈ o.vec, x.1 = r * 16 + L) : (g.applyMat o).vget r L = v := by
  by_cases hp : g.present.getLsbD L = true
  · rw [Group.vget, if_pos hp] at hkey
    refine (if_pos hp).trans (Tab.get_putAll (fun x hx => hval hp x (List.mem_filter.mp hx).1) (hkey.imp_right ?_))
    rintro ⟨-, x, hx, hk⟩
    exact ⟨x, List.mem_filter.mpr ⟨hx, by rw [hk, show (r * 16 + L) % 16 = L by omega]; exact hp⟩, hk⟩
  · rw [Group.vget, if_neg hp] at hkey
    exact (if_neg hp).trans (hkey.resolve_right fun h => hp h.1)

end

/-! ### Cells of lanes and rows (R195) -/

theorem mem_cells {α : Type} {e : LaneMask} {n : Nat} {f : Nat → Nat → α} {x : α} :
    x ∈ (lanesOf e).flatMap (fun L => (List.range n).map (fun k => f L k)) ↔ ∃ L k, e.getLsbD L = true ∧ k < n ∧ f L k = x := by
  simp only [List.mem_flatMap, mem_lanesOf, List.mem_map, List.mem_range, exists_and_left]

theorem mem_rowsOf {e : LaneMask} {i : Nat} : i ∈ rowsOf e ↔ i < 64 ∧ e.getLsbD (i / 4) = true := by
  rw [rowsOf, mem_cells]
  constructor
  · rintro ⟨L, k, hL, hk, rfl⟩
    have := lane_lt hL
    rw [show (4 * L + k) / 4 = L by omega]
    exact ⟨by omega, hL⟩
  · exact fun ⟨_, he⟩ => ⟨i / 4, i % 4, he, by omega, by omega⟩

/-! ### Moves of tiles and accumulators (R204 to R206) -/

/-- TMOV: the words of the tile and its sideband (R205). -/
theorem tmov_copies (x : Ext) (g : Group) :
    (∀ w, w < 2048 → (g.applyMat (tmovOut x g)).tileWord x.d.toNat w = g.tileWord x.a.toNat w) ∧
      ∀ w, w < 128 → (g.applyMat (tmovOut x g)).scaleWord x.d.toNat w = g.scaleWord x.a.toNat w := by
  by_cases hself : x.d = x.a
  · obtain ⟨htile, hscale⟩ : (tmovOut x g).tile = [] ∧ (tmovOut x g).scale = [] := by simp [tmovOut, hself]
    rw [← hself]
    exact ⟨fun _ _ => applyMat_tile (by rw [htile]; nofun) (.inl rfl), fun _ _ => applyMat_scaleWord hscale⟩
  have htile : (tmovOut x g).tile = (List.range 2048).map (fun w => (x.d.toNat * 2048 + w, g.tileWord x.a.toNat w)) := by
    simp [tmovOut, hself]
  have hscale : (tmovOut x g).scale =
      (List.range 128).flatMap (fun w => sideBytes (x.d.toNat * 128 + w) (g.scaleWord x.a.toNat w)) := by
    simp [tmovOut, hself]
  refine ⟨fun w hw => ?_, fun w hw => word_eq_of_bytes fun b hb => ?_⟩
  · refine applyMat_tile ?_ (.inr ?_)
    · rw [htile]
      intro y hy hk
      obtain ⟨v, -, rfl⟩ := List.mem_map.mp hy
      obtain rfl : v = w := by dsimp only at hk; omega
      rfl
    · rw [htile]
      exact ⟨_, List.mem_map.mpr ⟨w, List.mem_range.mpr hw, rfl⟩, rfl⟩
  · have hbyte (t : Tab Word) (d : Nat) : wordByte (t.get 0 (d * 128 + w)) b = tabByte t (4 * (d * 128 + w) + b) := by
      rw [tabByte, show (4 * (d * 128 + w) + b) / 4 = d * 128 + w by omega, show (4 * (d * 128 + w) + b) % 4 = b by omega]
    have hmem {y : Nat × Byte} : y ∈ (tmovOut x g).scale ↔
        ∃ v, v < 128 ∧ ∃ c, c < 4 ∧ (4 * (x.d.toNat * 128 + v) + c, wordByte (g.scaleWord x.a.toNat v) c) = y := by
      rw [hscale]
      simp only [sideBytes, List.mem_flatMap, List.mem_map, List.mem_range]
    rw [Group.scaleWord, hbyte]
    refine tabByte_putBytes (t := g.scale) (fun y hy hk => ?_) (.inr ⟨_, hmem.mpr ⟨w, hw, b, hb, rfl⟩, rfl⟩)
    obtain ⟨v, -, c, hc, rfl⟩ := hmem.mp hy
    dsimp only at hk
    obtain rfl : v = w := by omega
    obtain rfl : c = b := by omega
    rfl

theorem mem_fillSlot {slot : Nat} {v : Word} {x : Nat × Word} : x ∈ fillSlot slot v ↔ ∃ k, k < 4096 ∧ (slot * 4096 + k, v) = x := by
  simp only [fillSlot, List.mem_map, List.mem_range]

/-- An affine AMODE: offsets 0 and gains 1, and the mode (R199). -/
theorem amode_affine (x : Ext) (g : Group) (haffine : x.var.getLsbD 0 = true) (hd : x.d.toNat < 16) :
    (∀ w, w < 4096 → (g.applyMat (amodeOut x g)).accWord x.d.toNat w = 0 ∧
      (g.applyMat (amodeOut x g)).accWord (x.d.toNat + 16) w = 0x3F80_0000#32) ∧
    (g.applyMat (amodeOut x g)).affine.getLsbD x.d.toNat = true := by
  simp only [amodeOut, haffine, if_true]
  refine ⟨fun w hw => ⟨applyMat_acc (fun y hy hk => ?_) (.inr ⟨(x.d.toNat * 4096 + w, 0), ?_, rfl⟩),
    applyMat_acc (fun y hy hk => ?_) (.inr ⟨((x.d.toNat + 16) * 4096 + w, oneW), ?_, rfl⟩)⟩, ?_⟩
  · rcases List.mem_append.mp hy with hy | hy
    · obtain ⟨k, -, rfl⟩ := mem_fillSlot.mp hy; rfl
    · obtain ⟨k, -, rfl⟩ := mem_fillSlot.mp hy
      dsimp only at hk
      omega
  · exact List.mem_append_left _ (mem_fillSlot.mpr ⟨w, hw, rfl⟩)
  · rcases List.mem_append.mp hy with hy | hy
    · obtain ⟨k, hk4, rfl⟩ := mem_fillSlot.mp hy
      dsimp only at hk
      omega
    · obtain ⟨k, -, rfl⟩ := mem_fillSlot.mp hy; rfl
  · exact List.mem_append_right _ (mem_fillSlot.mpr ⟨w, hw, rfl⟩)
  · show (g.affine ||| laneBit x.d.toNat).getLsbD x.d.toNat = true
    rw [BitVec.getLsbD_or, getLsbD_laneBit hd]
    simp

section
variable (x : Ext) (g : Group) (e : LaneMask) (c k L : Nat) (vals : List Word)

/-- ARD: column c of rows 4L + k in registers k of lane L (R204). -/
theorem ard_reads (hk : k < 4) (he : e.getLsbD L = true) (hp : g.present.getLsbD L = true) (hvar : x.var.getLsbD 0 = false) :
    (g.applyMat (ardOut x g e c)).vget (x.d.toNat + k) L = g.accWord x.a.toNat ((4 * L + k) * 64 + c) := by
  have hL := lane_lt he
  simp only [ardOut, ardSlot, hvar, Bool.false_eq_true, if_false]
  refine applyMat_vget hL (fun _ y hy hkey => ?_) (.inr ⟨hp, _, mem_cells.mpr ⟨L, k, he, hk, rfl⟩, rfl⟩)
  obtain ⟨M, j, hM, -, rfl⟩ := mem_cells.mp hy
  have := lane_lt hM
  dsimp only at hkey
  obtain rfl : j = k := by omega
  obtain rfl : M = L := by omega
  rfl

/-- AWR: registers k of lane L in column c of rows 4L + k (R204). -/
theorem awr_writes (hk : k < 4) (he : e.getLsbD L = true) (hvar : x.var.getLsbD 0 = false) :
    (g.applyMat (awrOut x e c vals)).accWord x.d.toNat ((4 * L + k) * 64 + c) = vals.getD (k * 16 + L) 0 := by
  simp only [awrOut, ardSlot, hvar, Bool.false_eq_true, if_false]
  refine applyMat_acc (fun y hy hkey => ?_)
    (.inr ⟨_, mem_cells.mpr ⟨L, k, he, hk, rfl⟩, by dsimp only; omega⟩)
  obtain ⟨M, j, hM, hj, rfl⟩ := mem_cells.mp hy
  dsimp only at hkey
  obtain rfl : j = k := by omega
  obtain rfl : M = L := by omega
  rfl

/-- MZERO: the rows of E (R205). -/
theorem mzero_clears (hk : k < 4) (hL : L < 16) (he : e.getLsbD L = true) {j : Nat} (hj : j < 64) :
    (g.applyMat (mzeroOut x g e)).accWord x.d.toNat ((4 * L + k) * 64 + j) = 0 := by
  have hrow {slot : Nat} {v : Word} {y : Nat × Word} :
      y ∈ (rowsOf e).flatMap (fun i => (List.range 64).map (fun j => (slot * 4096 + i * 64 + j, v))) ↔
        ∃ i, i ∈ rowsOf e ∧ ∃ j, j < 64 ∧ (slot * 4096 + i * 64 + j, v) = y := by
    simp only [List.mem_flatMap, List.mem_map, List.mem_range]
  refine applyMat_acc (fun y hy hkey => ?_) (.inr ⟨(x.d.toNat * 4096 + (4 * L + k) * 64 + j, 0), ?_, by dsimp only; omega⟩)
  · rcases List.mem_append.mp hy with hy | hy
    · obtain ⟨i, -, m, -, rfl⟩ := hrow.mp hy; rfl
    · split at hy
      · obtain ⟨i, hi, m, hm, rfl⟩ := hrow.mp hy
        dsimp only at hkey
        omega
      · cases hy
  · refine List.mem_append_left _ (hrow.mpr ⟨4 * L + k, mem_rowsOf.mpr ⟨by omega, ?_⟩, j, hj, rfl⟩)
    rw [show (4 * L + k) / 4 = L by omega]
    exact he

/-- TWR and TRD: words L and 16 + L of a row (R206). -/
theorem twr_writes (hk : k < 2) (he : e.getLsbD L = true) (hc : c < 64) (hvar : x.var.getLsbD 0 = false) :
    (g.applyMat (twrOut x e c vals)).tileWord x.d.toNat (32 * c + 16 * k + L) = vals.getD (k * 16 + L) 0 := by
  have hL := lane_lt he
  simp only [twrOut, halfRow, hvar, Bool.false_eq_true, if_false]
  refine applyMat_tile (fun y hy hkey => ?_)
    (.inr ⟨_, List.mem_map.mpr ⟨(L, k), mem_cells.mpr ⟨L, k, he, hk, rfl⟩, rfl⟩, by dsimp only; omega⟩)
  obtain ⟨z, hz, rfl⟩ := List.mem_map.mp hy
  obtain ⟨M, j, hM, hj, rfl⟩ := mem_cells.mp hz
  have := lane_lt hM
  dsimp only at hkey
  obtain rfl : j = k := by omega
  obtain rfl : M = L := by omega
  rfl

theorem trd_reads (hk : k < 2) (he : e.getLsbD L = true) (hp : g.present.getLsbD L = true) (hc : c < 64) (hvar : x.var.getLsbD 0 = false) :
    (g.applyMat (trdOut x g e c)).vget (x.d.toNat + k) L = g.tileWord x.a.toNat (32 * c + 16 * k + L) := by
  have hL := lane_lt he
  simp only [trdOut, halfRow, hvar, Bool.false_eq_true, if_false]
  refine applyMat_vget hL (fun _ y hy hkey => ?_) (.inr ⟨hp, _, mem_cells.mpr ⟨L, k, he, hk, rfl⟩, rfl⟩)
  obtain ⟨M, j, hM, -, rfl⟩ := mem_cells.mp hy
  have := lane_lt hM
  dsimp only at hkey
  obtain rfl : j = k := by omega
  obtain rfl : M = L := by omega
  rw [show c % 64 * 32 + 16 * j + M = 32 * c + 16 * j + M by omega]

/-- The place of a carry register: k below 4 is the gain, k from 4 the offset, of column 4L + k mod 4 (R204). -/
def carryCell (L k : Nat) : Nat := 2 * (4 * L + k % 4) + k / 4

theorem carryCell_inj {L M k j : Nat} (hk : k < 8) (hj : j < 8) (h : carryCell L k = carryCell M j) : L = M ∧ k = j := by
  unfold carryCell at h
  omega

theorem carryCell_lt {L k : Nat} (hL : L < 16) (hk : k < 8) : carryCell L k < 128 := by
  unfold carryCell
  omega

/-- MCARRY from the carries to the registers. -/
theorem mcarry_reads (hk : k < 8) (hL : L < 16) (hvar : x.var.getLsbD 0 = false) :
    (g.applyMat (mcarryOut x g e vals)).carry = g.carry ∧ (g.applyMat (mcarryOut x g e vals)).vget (x.d.toNat + k) L =
      if e.getLsbD L = true ∧ g.present.getLsbD L = true then g.carryWord x.a.toNat (carryCell L k) else g.vget (x.d.toNat + k) L := by
  simp only [mcarryOut, hvar, Bool.false_eq_true, if_false]
  have hmem {M j : Nat} (he : e.getLsbD M = true) (hj : j < 8) : (M, j) ∈ (lanesOf e).flatMap (fun L => (List.range 8).map (fun k => (L, k))) :=
    mem_cells.mpr ⟨M, j, he, hj, rfl⟩
  refine ⟨rfl, applyMat_vget hL (fun hp y hy hkey => ?_) ?_⟩
  · obtain ⟨z, hz, rfl⟩ := List.mem_map.mp hy
    obtain ⟨M, j, hM, hj, rfl⟩ := mem_cells.mp hz
    have := lane_lt hM
    dsimp only at hkey
    obtain rfl : j = k := by omega
    obtain rfl : M = L := by omega
    exact (if_pos ⟨hM, hp⟩).symm
  · by_cases hboth : e.getLsbD L = true ∧ g.present.getLsbD L = true
    · exact .inr ⟨hboth.2, _, List.mem_map.mpr ⟨_, hmem hboth.1 hk, rfl⟩, rfl⟩
    · exact .inl (if_neg hboth).symm

/-- MCARRY from the registers to the carries. -/
theorem mcarry_writes (hk : k < 8) (hL : L < 16) (hvar : x.var.getLsbD 0 = true) :
    (g.applyMat (mcarryOut x g e vals)).vec = g.vec ∧ ∀ slot, slot < 16 →
      (g.applyMat (mcarryOut x g e vals)).carryWord slot (carryCell L k) =
        if slot = x.d.toNat ∧ e.getLsbD L = true then vals.getD (k * 16 + L) 0 else g.carryWord slot (carryCell L k) := by
  simp only [mcarryOut, hvar, if_true]
  refine ⟨rfl, fun slot hslot => applyMat_carry hslot (fun y hy hkey => ?_) ?_⟩
  · obtain ⟨z, hz, rfl⟩ := List.mem_map.mp hy
    obtain ⟨M, j, hM, hj, rfl⟩ := mem_cells.mp hz
    have hown := carryCell_lt hL hk
    have hother := carryCell_lt (lane_lt hM) hj
    change x.d.toNat * 128 + carryCell M j = slot * 128 + carryCell L k at hkey
    obtain rfl : slot = x.d.toNat := by omega
    obtain ⟨rfl, rfl⟩ := carryCell_inj (L := M) (M := L) hj hk (by omega)
    exact (if_pos ⟨rfl, hM⟩).symm
  · by_cases hboth : slot = x.d.toNat ∧ e.getLsbD L = true
    · obtain ⟨rfl, he⟩ := hboth
      exact .inr ⟨_, List.mem_map.mpr ⟨(L, k), mem_cells.mpr ⟨L, k, he, hk, rfl⟩, rfl⟩, rfl⟩
    · exact .inl (if_neg hboth).symm

end

end Sys2Proof.Machine
end

section
namespace Sys2Proof.Machine
open Sys2Proof Sys2Proof.Num

/-! ## The events of a matrix entry (R196, R197, R203) -/

/-- An entry whose lines have all been read gathers nothing more. -/
theorem gatherLine_latched {bi : Nat} {s : State} {m : MatEntry} {lines : List Nat}
    (h : ∀ line ∈ lines, m.latch.any (fun x => x.1 == line) = true) : lines.foldl (gatherLine bi s) m = m := by
  induction lines with
  | nil => rfl
  | cons line lines ih =>
    have hline : gatherLine bi s m line = m := if_pos (by rw [h line List.mem_cons_self]; rfl)
    rw [List.foldl_cons, hline]
    exact ih fun l hl => h l (List.mem_cons_of_mem line hl)

section
variable {die core : Nat} {s : State} {m : MatEntry} {g : Group} (hm : matHead s die core = some m)
include hm

theorem matrixEntryStart_begins (hg : s.group? m.group = some g) (hout : m.out = none) (hcore : s.busy.get 0 (matKey die core) ≤ s.now)
    (hbudget : budgetDelays s die core = false) (hfree : tileBusy s m = false) (hlatch : ∀ r ∈ m.lines, ∃ y ∈ m.latch, y.1 = r.2)
    (htags : wrongTags m = []) : exec (.matrixEntryStart die core) s = .next (s.modMat m.id (fun _ =>
      { m with out := some (matResult m g), endsAt := s.now + matCycles m.ins - 1 })) := by
  have hread : (m.lines.map (·.2)).foldl (gatherLine g.block s) m = m := by
    refine gatherLine_latched fun line hline => ?_
    obtain ⟨r, hr, rfl⟩ := List.mem_map.mp hline
    simpa using hlatch r hr
  have hgathered : gathered m = true := by simpa [gathered] using fun a b hab => hlatch (a, b) hab
  rw [exec_matrixEntryStart, execMatrixEntryStart, hm]
  dsimp only
  rw [hg]
  dsimp only
  rw [hread, hgathered, hfree, htags, hbudget, hout, decide_eq_false (Nat.not_lt.mpr hcore)]
  rfl

theorem matrixEntryComplete_writes {o : MatOut} (hout : m.out = some o) (hend : m.endsAt ≤ s.now) :
    exec (.matrixEntryComplete die core) s = .next (State.modGroup
      { s with matq := s.matq.filter (fun q => q.id != m.id), busy := s.busy.put 0 (matKey die core) (s.now + 1) } m.group
      (fun g => (g.applyMat o).release m.id)) := by
  rw [exec_matrixEntryComplete, execMatrixEntryComplete, hm]
  dsimp only
  rw [hout]
  dsimp only
  rw [if_neg (Nat.not_lt.mpr hend)]

theorem mmagCancel_leaves {c : Cause} {off : Nat} (hfault : gatherFault s m = some (c, off)) :
    ∃ f : PendingFault, f.cause = c ∧ f.aux = BitVec.ofNat 64 off ∧ exec (.mmagCancel die core) s = .next (State.modGroup
      { s with matq := s.matq.filter (fun q => q.id != m.id) } m.group (fun g => { g with faults := g.faults ++ [f] })) := by
  refine ⟨{ cause := c, aux := BitVec.ofNat 64 off, classC := false, op := m.id, mmag := some ((matAcc m.ins).getD 0, m.pc),
            tile := none, lines := [], from_ := none }, rfl, rfl, ?_⟩
  rw [exec_mmagCancel, execMmagCancel, hm]
  dsimp only
  rw [hfault]

/-- What each event of an entry leaves of the state. -/
theorem matrixEntry_events (hg : s.group? m.group = some g) :
    (m.out = none → s.busy.get 0 (matKey die core) ≤ s.now → budgetDelays s die core = false → tileBusy s m = false →
       (∀ r ∈ m.lines, ∃ y ∈ m.latch, y.1 = r.2) → wrongTags m = [] →
       exec (.matrixEntryStart die core) s = .next { s with matq := s.matq.map (fun q =>
         if q.id = m.id then { m with out := some (matResult m g), endsAt := s.now + matCycles m.ins - 1 } else q) }) ∧
     (∀ o, m.out = some o → m.endsAt ≤ s.now → ∃ t, exec (.matrixEntryComplete die core) s = .next t ∧
       t = { s with groups := t.groups, matq := s.matq.filter (fun q => q.id != m.id), busy := t.busy } ∧
       t.busy.get 0 (matKey die core) = s.now + 1 ∧ (∀ j, j ≠ m.group → t.group? j = s.group? j) ∧
       ∃ h, t.group? m.group = some h ∧ h.flags = g.flags ||| o.flags ∧
         h = { g.applyMat o with splits := g.splits.map (fun p =>
           { p with holds := p.holds.filter (fun k => k.op != m.id) }) }) ∧
     (∀ c off, gatherFault s m = some (c, off) → ∃ t, exec (.mmagCancel die core) s = .next t ∧
       t = { s with groups := t.groups, matq := s.matq.filter (fun q => q.id != m.id) } ∧
       (∀ j, j ≠ m.group → t.group? j = s.group? j) ∧
       ∃ f, t.group? m.group = some { g with faults := g.faults ++ [f] } ∧ f.cause = c ∧ f.aux = BitVec.ofNat 64 off) := by
  refine ⟨matrixEntryStart_begins hm hg, fun o hout hend => ?_, fun c off hfault => ?_⟩
  · exact ⟨_, matrixEntryComplete_writes hm hout hend, rfl, by simp only [State.modGroup, Tab.get_put_same], fun j hj => group?_modGroup_other _ hj,
      _, group?_modGroup_same _ hg, rfl, rfl⟩
  · obtain ⟨f, hcause, haux, hexec⟩ := mmagCancel_leaves hm hfault
    exact ⟨_, hexec, rfl, fun j hj => group?_modGroup_other _ hj, f, group?_modGroup_same _ hg, hcause, haux⟩

end

/-! ## Accumulation of rows (R199) -/

/-- What a fold appends to one list of an output. -/
theorem foldl_appends {α β : Type} (proj : MatOut → List β) {f : MatOut → α → MatOut} {add : α → List β}
    (hf : ∀ o a, proj (f o a) = proj o ++ add a) : ∀ (l : List α) (o : MatOut), proj (l.foldl f o) = proj o ++ l.flatMap add
  | [], o => (List.append_nil _).symm
  | a :: l, o => by rw [List.foldl_cons, foldl_appends proj hf l, hf, List.flatMap_cons, List.append_assoc]

theorem mulRows_acc (g : Group) (e : LaneMask) (d : Nat) (op : Nat → Nat → Word → Word × FlagBits) : (mulRows g e d op).acc =
    (rowsOf e).flatMap (fun i => (List.range 64).flatMap (fun j =>
      [(d * 4096 + i * 64 + j, (op i j (g.accWord d (i * 64 + j))).1)])) :=
  foldl_appends MatOut.acc (fun o _ => foldl_appends MatOut.acc (fun _ _ => rfl) (List.range 64) o) (rowsOf e) MatOut.empty

/-- Each element of a row of E is accumulated; every other is as before. -/
theorem mulRows_element (g : Group) (e : LaneMask) (d : Nat) (op : Nat → Nat → Word → Word × FlagBits) (slot : Nat) {w : Nat}
    (hw : w < 4096) : (g.applyMat (mulRows g e d op)).accWord slot w =
      if slot = d ∧ e.getLsbD (w / 256) = true then (op (w / 64) (w % 64) (g.accWord d w)).1 else g.accWord slot w := by
  have hmem {y : Nat × Word} : y ∈ (mulRows g e d op).acc ↔ ∃ i, (i < 64 ∧ e.getLsbD (i / 4) = true) ∧ ∃ j, j < 64 ∧
      y = (d * 4096 + i * 64 + j, (op i j (g.accWord d (i * 64 + j))).1) := by
    rw [mulRows_acc]
    simp only [List.mem_flatMap, mem_rowsOf, List.mem_range, List.mem_singleton]
  refine applyMat_acc (fun y hy hk => ?_) ?_
  · obtain ⟨i, ⟨hi, he⟩, j, hj, rfl⟩ := hmem.mp hy
    dsimp only at hk
    obtain rfl : slot = d := by omega
    obtain rfl : w = i * 64 + j := by omega
    rw [show (i * 64 + j) / 64 = i by omega, show (i * 64 + j) % 64 = j by omega,
      if_pos ⟨rfl, by rw [show (i * 64 + j) / 256 = i / 4 by omega]; exact he⟩]
  · by_cases h : slot = d ∧ e.getLsbD (w / 256) = true
    · obtain ⟨rfl, he⟩ := h
      refine .inr ⟨_, hmem.mpr ⟨w / 64, ⟨by omega, ?_⟩, w % 64, Nat.mod_lt _ (by decide), rfl⟩, by dsimp only; omega⟩
      rw [show w / 64 / 4 = w / 256 by omega]
      exact he
    · exact .inl (if_neg h).symm

theorem getD_map_range {α : Type} {f : Nat → α} {n i : Nat} {v : α} (h : i < n) : ((List.range n).map f).getD i v = f i := by
  rw [List.getD_eq_getElem?_getD, List.getElem?_map, List.getElem?_range h]
  rfl

/-- MMA: the accumulate of a row of A by a row of B (R199). -/
theorem mma_element (x : Ext) (g : Group) (e : LaneMask) (slot : Nat) {w : Nat} (hw : w < 4096) :
    (g.applyMat (mmaOut x g e)).accWord slot w = if slot = x.d.toNat ∧ e.getLsbD (w / 256) = true then
      (accumulate x.ty (x.var.getLsbD 0) (fun q => sideByte g x.a.toNat (8 * (w / 64) + q))
        (fun q => sideByte g x.b.toNat (8 * (w % 64) + q)) (tileRow g x.a.toNat (w / 64)) (tileRow g x.b.toNat (w % 64))
        (g.accWord x.d.toNat w)).1 else g.accWord slot w := by
  refine (mulRows_element g e x.d.toNat _ slot hw).trans ?_
  rw [getD_map_range (by omega), getD_map_range (Nat.mod_lt _ (by decide))]

/-- The terms of a ternary accumulate name the four rows alone. -/
theorem accTern_congr {sb : Bool} {rowA : Nat} {f f' : Nat → Nat} (h : ∀ m, m < 4 → f m = f' m) (acc : Word) :
    accTern sb rowA f acc = accTern sb rowA f' acc := by
  unfold accTern
  refine congrArg (fun r : Int × FlagBits => (BitVec.ofInt 32 r.1, r.2)) (List.foldl_ext _ _ _ fun a k hk => ?_)
  rw [h (k / 128) (by have := List.mem_range.mp hk; omega)]

theorem mmat_element (x : Ext) (g : Group) (e : LaneMask) (slot : Nat) {w : Nat} (hw : w < 4096) :
    (g.applyMat (mmatOut x g e)).accWord slot w = if slot = x.d.toNat ∧ e.getLsbD (w / 256) = true then
      (accTern x.ty.signed (tileRow g x.a.toNat (w / 64)) (fun m => tileRow g (x.b.toNat + m) (w % 64)) (g.accWord x.d.toNat w)).1
      else g.accWord slot w := by
  refine (mulRows_element g e x.d.toNat _ slot hw).trans ?_
  rw [getD_map_range (by omega), accTern_congr fun m hm => ?_]
  rw [getD_map_range (by omega), show (m * 64 + w % 64) / 64 = m by omega, show (m * 64 + w % 64) % 64 = w % 64 by omega]

end Sys2Proof.Machine
end

section
namespace Sys2Proof.Machine
open Sys2Proof Sys2Proof.Num

/-! ## Gathered rows (R176, R200, R202) -/

/-- The element of a key among those that a MMAG has accumulated so far; the accumulator's own when there is none. -/
def gatherAt (base : Nat → Word) (st : List (Nat × Word)) (key : Nat) : Word :=
  ((st.find? (fun y => y.1 == key)).map (fun y => y.2)).getD (base key)

/-- Element j of target row t accumulates. -/
def gatherStep (base : Nat → Word) (t : Nat) (f : Nat → Word → Word × FlagBits) (st : List (Nat × Word) × FlagBits) (j : Nat) :
    List (Nat × Word) × FlagBits :=
  let y := f j (gatherAt base st.1 (t * 64 + j))
  ((t * 64 + j, y.1) :: st.1.filter (fun y => y.1 != t * 64 + j), st.2 ||| y.2)

/-- One gathered row accumulates into its target row. -/
def gatherRow (base : Nat → Word) (tgt : Nat → Nat) (f : Nat → Nat → Word → Word × FlagBits) (st : List (Nat × Word) × FlagBits)
    (i : Nat) : List (Nat × Word) × FlagBits :=
  (List.range 64).foldl (gatherStep base (tgt i) (f i)) st

/-- What one gathered row gives an element of its target row. -/
def gatherTerm (x : Ext) (g : Group) (vals : List Word) (latch : List (Nat × Nat × List Byte)) (i j : Nat) (acc : Word) : Word × FlagBits :=
  accumulate x.ty (x.var.getLsbD 0) (fun _ => 0) (fun _ => 0)
    (natLE (unswizzle (x.var.extractLsb' 1 3).toNat (gatherIdx vals i)
      (((latch.find? (fun l => l.1 == gatherIdx vals i)).map (fun l => l.2.2)).getD [])))
    (((List.range 64).map (fun j => tileRow g x.b.toNat j)).getD j 0) acc

theorem mmagOut_acc (x : Ext) (g : Group) (e : LaneMask) (vals : List Word) (latch : List (Nat × Nat × List Byte)) :
    (mmagOut x g e vals latch).acc = ((rowsOf (e &&& ~~~g.helpers)).foldl
      (gatherRow (g.accWord x.d.toNat) (gatherTgt vals) (gatherTerm x g vals latch)) ([], 0)).1.map
        (fun y => (x.d.toNat * 4096 + y.1, y.2)) := rfl

section
variable (base : Nat → Word)

theorem gatherAt_step (t : Nat) (f : Nat → Word → Word × FlagBits) (st : List (Nat × Word) × FlagBits) (j k : Nat) :
    gatherAt base (gatherStep base t f st j).1 k =
      if k = t * 64 + j then (f j (gatherAt base st.1 (t * 64 + j))).1 else gatherAt base st.1 k := by
  unfold gatherStep
  generalize t * 64 + j = key
  dsimp only
  by_cases hk : k = key
  · subst hk
    rw [if_pos rfl, gatherAt, List.find?_cons_of_pos (by simp)]
    rfl
  · have hp : (fun y : Nat × Word => decide ((y.1 != key) = true ∧ (y.1 == k) = true)) = fun y => y.1 == k := by
      funext y
      by_cases hy : y.1 = k
      · simp [hy, hk]
      · simp [hy]
    rw [if_neg hk, gatherAt, List.find?_cons_of_neg (by simpa using Ne.symm hk), List.find?_filter]
    exact congrArg (fun p => ((st.1.find? p).map (fun y => y.2)).getD (base k)) hp

/-- Every entry is the element of its key, and no key lies outside the slot. -/
def Gathered (st : List (Nat × Word)) : Prop := ∀ y ∈ st, gatherAt base st y.1 = y.2 ∧ y.1 < 4096

theorem Gathered.step {t j : Nat} (ht : t < 64) (hj : j < 64) (f : Nat → Word → Word × FlagBits) {st : List (Nat × Word) × FlagBits}
    (h : Gathered base st.1) : Gathered base (gatherStep base t f st j).1 := by
  intro y hy
  rw [gatherAt_step]
  rcases List.mem_cons.mp hy with rfl | hy
  · exact ⟨if_pos rfl, by dsimp only; omega⟩
  · obtain ⟨hmem, hne⟩ := List.mem_filter.mp hy
    rw [if_neg (by simpa using hne)]
    exact h y hmem

/-- A row changes the elements of its target row alone. -/
theorem gatherAt_range (t : Nat) (f : Nat → Word → Word × FlagBits) (st : List (Nat × Word) × FlagBits) (k : Nat) :
    ∀ n, n ≤ 64 → gatherAt base ((List.range n).foldl (gatherStep base t f) st).1 k =
      if k / 64 = t ∧ k % 64 < n then (f (k % 64) (gatherAt base st.1 k)).1 else gatherAt base st.1 k
  | 0, _ => (if_neg (by omega)).symm
  | n + 1, hn => by
    rw [List.range_succ, List.foldl_append, List.foldl_cons, List.foldl_nil, gatherAt_step]
    by_cases hk : k = t * 64 + n
    · obtain ⟨hdiv, hmod⟩ : k / 64 = t ∧ k % 64 = n := by omega
      rw [if_pos hk, ← hk, gatherAt_range t f st k n (by omega), if_neg (by omega), if_pos (by omega), hmod]
    · rw [if_neg hk, gatherAt_range t f st k n (by omega)]
      exact if_congr (by omega) rfl rfl

theorem Gathered.row {tgt : Nat → Nat} (ht : ∀ i, tgt i < 64) (f : Nat → Nat → Word → Word × FlagBits) (i : Nat)
    {st : List (Nat × Word) × FlagBits} (h : Gathered base st.1) : Gathered base (gatherRow base tgt f st i).1 := by
  have hrange : ∀ n, n ≤ 64 → Gathered base ((List.range n).foldl (gatherStep base (tgt i) (f i)) st).1 := by
    intro n
    induction n with
    | zero => exact fun _ => h
    | succ n ih =>
      intro hn
      rw [List.range_succ, List.foldl_append, List.foldl_cons, List.foldl_nil]
      exact Gathered.step base (ht i) (by omega) (f i) (ih (by omega))
  exact hrange 64 le_rfl

/-- An element after rows in their order: the accumulates of those whose target it lies in (R202). -/
theorem gatherAt_rows (tgt : Nat → Nat) (f : Nat → Nat → Word → Word × FlagBits) (k : Nat) : ∀ (rows : List Nat)
    (st : List (Nat × Word) × FlagBits), gatherAt base (rows.foldl (gatherRow base tgt f) st).1 k =
      (rows.filter (fun i => tgt i == k / 64)).foldl (fun acc i => (f i (k % 64) acc).1) (gatherAt base st.1 k)
  | [], _ => rfl
  | i :: rows, st => by
    have hrow := gatherAt_range base (tgt i) (f i) st k 64 le_rfl
    rw [List.foldl_cons, gatherAt_rows tgt f k rows, gatherRow, hrow]
    by_cases hi : tgt i = k / 64
    · rw [List.filter_cons_of_pos (by simpa using hi), List.foldl_cons, if_pos ⟨hi.symm, Nat.mod_lt _ (by decide)⟩]
    · rw [List.filter_cons_of_neg (by simpa using hi), if_neg fun h => hi h.1.symm]

end

theorem gatherTgt_lt (vals : List Word) (i : Nat) : gatherTgt vals i < 64 := Nat.mod_lt _ (by decide)

/-- MMAG: each element of a target row accumulates its gathered rows in ascending order (R202). -/
theorem mmag_element (x : Ext) (g : Group) (e : LaneMask) (vals : List Word) (latch : List (Nat × Nat × List Byte)) (slot : Nat) {w : Nat}
    (hw : w < 4096) : (g.applyMat (mmagOut x g e vals latch)).accWord slot w = if slot = x.d.toNat then
      ((rowsOf (e &&& ~~~g.helpers)).filter (fun i => gatherTgt vals i == w / 64)).foldl (fun acc i =>
        (accumulate x.ty (x.var.getLsbD 0) (fun _ => 0) (fun _ => 0)
          (natLE (unswizzle (x.var.extractLsb' 1 3).toNat (gatherIdx vals i)
            (((latch.find? (fun l => l.1 == gatherIdx vals i)).map (fun l => l.2.2)).getD [])))
          (tileRow g x.b.toNat (w % 64)) acc).1) (g.accWord x.d.toNat w)
      else g.accWord slot w := by
  let base := g.accWord x.d.toNat
  let st := (rowsOf (e &&& ~~~g.helpers)).foldl (gatherRow base (gatherTgt vals) (gatherTerm x g vals latch)) ([], 0)
  have hgathered : Gathered base st.1 :=
    foldl_keeps (fun st : List (Nat × Word) × FlagBits => Gathered base st.1) _
      (fun _ i h => Gathered.row base (gatherTgt_lt vals) _ i h) _ _ (fun _ hy => absurd hy List.not_mem_nil)
  have hvalue : gatherAt base st.1 w = ((rowsOf (e &&& ~~~g.helpers)).filter (fun i => gatherTgt vals i == w / 64)).foldl (fun acc i =>
        (gatherTerm x g vals latch i (w % 64) acc).1) (base w) := gatherAt_rows base (gatherTgt vals) _ w _ _
  have hterm (i : Nat) (acc : Word) : gatherTerm x g vals latch i (w % 64) acc =
      accumulate x.ty (x.var.getLsbD 0) (fun _ => 0) (fun _ => 0)
        (natLE (unswizzle (x.var.extractLsb' 1 3).toNat (gatherIdx vals i)
          (((latch.find? (fun l => l.1 == gatherIdx vals i)).map (fun l => l.2.2)).getD [])))
        (tileRow g x.b.toNat (w % 64)) acc := by
    rw [gatherTerm, getD_map_range (Nat.mod_lt _ (by decide))]
  simp only [hterm] at hvalue
  rw [← hvalue]
  have hmem {y : Nat × Word} : y ∈ (mmagOut x g e vals latch).acc ↔ ∃ z ∈ st.1, (x.d.toNat * 4096 + z.1, z.2) = y := by
    rw [mmagOut_acc]
    exact List.mem_map
  refine applyMat_acc (fun y hy hk => ?_) ?_
  · obtain ⟨z, hz, rfl⟩ := hmem.mp hy
    obtain ⟨hval, hlt⟩ := hgathered z hz
    dsimp only at hk
    obtain rfl : slot = x.d.toNat := by omega
    obtain rfl : w = z.1 := by omega
    exact (if_pos rfl).symm ▸ hval.symm
  · by_cases hslot : slot = x.d.toNat
    · subst hslot
      rw [if_pos rfl]
      cases hfind : st.1.find? (fun y => y.1 == w) with
      | none => exact .inl (by rw [gatherAt, hfind]; rfl)
      | some z =>
        refine .inr ⟨_, hmem.mpr ⟨z, List.mem_of_find?_eq_some hfind, rfl⟩, ?_⟩
        have hz : z.1 = w := by simpa using List.find?_some hfind
        rw [← hz]
    · exact .inl (if_neg hslot).symm

/-! ### The chunks of a line (R176) -/

/-- A place in lists of one length laid one behind the other. -/
theorem getD_flatMap_range {α : Type} {f : Nat → List α} {m : Nat} (v : α) : ∀ {n c k : Nat}, (∀ i, i < n → (f i).length = m) →
    c < n → k < m → ((List.range n).flatMap f).getD (m * c + k) v = (f c).getD k v
  | n + 1, c, k, hlen, hc, hk => by
    have htotal : ∀ j, j ≤ n → ((List.range j).flatMap f).length = m * j := by
      intro j
      induction j with
      | zero => exact fun _ => rfl
      | succ j ih =>
        intro hj
        rw [List.range_succ, List.flatMap_append, List.length_append, ih (by omega), List.flatMap_singleton, hlen j (by omega), Nat.mul_succ]
    rw [List.range_succ, List.flatMap_append, List.flatMap_singleton]
    rcases Nat.lt_succ_iff_lt_or_eq.mp hc with hlt | rfl
    · have hin : m * c + k < m * n := by
        have := Nat.mul_le_mul_left m (Nat.succ_le_of_lt hlt)
        rw [Nat.mul_succ] at this
        omega
      rw [List.getD_append _ _ _ _ (by rw [htotal n le_rfl]; exact hin)]
      exact getD_flatMap_range v (fun i hi => hlen i (by omega)) hlt hk
    · rw [List.getD_append_right _ _ _ _ (by rw [htotal c le_rfl]; omega), htotal c le_rfl, Nat.add_sub_cancel_left]

theorem swz_lt (z n : Nat) : swz z n < 8 := by
  unfold swz
  split <;> omega

theorem unswizzle_byte (z n : Nat) {bs : List Byte} (hlen : bs.length = 128) {ch k : Nat} (hch : ch < 8) (hk : k < 16) :
    (unswizzle z n bs).getD (16 * ch + k) 0 = bs.getD (16 * (ch ^^^ swz z n) + k) 0 := by
  have hchunk (c : Nat) (hc : c < 8) : c ^^^ swz z n < 8 := Nat.xor_lt_two_pow (n := 3) hc (swz_lt z n)
  refine (getD_flatMap_range 0 (fun c hc => ?_) hch hk).trans ?_
  · have := hchunk c hc
    rw [List.length_take, List.length_drop, hlen]
    omega
  · rw [List.getD_eq_getElem?_getD, List.getElem?_take_of_lt hk, List.getElem?_drop, List.getD_eq_getElem?_getD]

end Sys2Proof.Machine
end

section
namespace Sys2Proof.Machine
open Sys2Proof Sys2Proof.Num

/-! ## Exported rows (R207) -/

/-- What AEXP exports of a row: codes, scales and flags. -/
def exportedRow (x : Ext) (g : Group) (uniB : DWord) (i : Nat) : List Nat × List Nat × FlagBits :=
  exportRow x (dec f32 (uniB.extractLsb' 0 32).toNat) (dec f32 (uniB.extractLsb' 32 32).toNat)
    ((List.range 64).map (fun j => g.accWord x.a.toNat (i * 64 + j)))

/-- The sideband bytes of a row and the first of their places in it. -/
def exportSide (x : Ext) (scales : List Nat) : Nat × List Byte :=
  match x.ty with
  | .e2m1x8 => (2 * (x.var.toNat % 4), scales.map (BitVec.ofNat 8))
  | .s8x4 | .u8x4 => (0, [])
  | _ => (0, plainScales (tyShape x.ty).1)

section
variable (x : Ext) (g : Group) (e : LaneMask) (uniB : DWord)

theorem aexpOut_keeps : (g.applyMat (aexpOut x g e uniB)).acc = g.acc ∧ (g.applyMat (aexpOut x g e uniB)).vec = g.vec := by
  have hacc : (aexpOut x g e uniB).acc = [] :=
    (foldl_appends MatOut.acc (add := fun _ => []) (fun _ _ => by exact (List.append_nil _).symm) (rowsOf e) MatOut.empty).trans (by simp [MatOut.empty])
  have hvec : (aexpOut x g e uniB).vec = [] :=
    (foldl_appends MatOut.vec (add := fun _ => []) (fun _ _ => by exact (List.append_nil _).symm) (rowsOf e) MatOut.empty).trans (by simp [MatOut.empty])
  simp only [Group.applyMat, hacc, hvec, List.filter_nil]
  exact ⟨rfl, rfl⟩

theorem aexpOut_tile : (aexpOut x g e uniB).tile = (rowsOf e).flatMap (fun i =>
    patchWords (g.tileWord x.d.toNat) (x.d.toNat * 2048) (128 * i + x.var.toNat % 4 * 8 * (tyShape x.ty).1)
      (bytesLE (8 * (tyShape x.ty).1) (packElems (tyShape x.ty).1 (exportedRow x g uniB i).1))) :=
  foldl_appends MatOut.tile (fun _ _ => rfl) (rowsOf e) MatOut.empty

theorem aexpOut_scale : (aexpOut x g e uniB).scale = (rowsOf e).flatMap (fun i =>
    (exportSide x (exportedRow x g uniB i).2.1).2.zipIdx.map (fun y =>
      (x.d.toNat * 512 + (8 * i + (exportSide x (exportedRow x g uniB i).2.1).1) + y.2, y.1))) := by
  refine foldl_appends MatOut.scale (fun o i => congrArg (o.scale ++ ·) ?_) (rowsOf e) MatOut.empty
  dsimp only [exportSide, exportedRow]
  cases x.ty <;> rfl

end

/-! ### Whole words of a row -/

/-- Four bytes replaced. -/
theorem foldl_setWordByte (old v : Word) : (List.range 4).foldl (fun u b => setWordByte u b (wordByte v b)) old = v := by
  refine word_eq_of_bytes fun b hb => ?_
  simp only [List.range_succ, List.range_zero, List.foldl_append, List.foldl_cons, List.foldl_nil, List.nil_append]
  rw [wordByte_setWordByte _ _ (by decide) hb, wordByte_setWordByte _ _ (by decide) hb, wordByte_setWordByte _ _ (by decide) hb,
    wordByte_setWordByte _ _ (by decide) hb]
  interval_cases b <;> rfl

/-- A number's bytes laid at a word's place are its words. -/
theorem patchWords_words (old : Nat → Word) (base p v : Nat) {n : Nat} (hn : 0 < n) : patchWords old base (4 * p) (bytesLE (4 * n) v) =
    (List.range n).map (fun k => (base + (p + k), BitVec.ofNat 32 (v / 2 ^ (32 * k)))) := by
  unfold patchWords
  rw [bytesLE_length, show 4 * p / 4 = p by omega]
  dsimp only
  rw [show (4 * p + 4 * n - 1) / 4 + 1 - p = n by omega]
  refine List.map_congr_left fun k hk => Prod.ext rfl ?_
  have hkn := List.mem_range.mp hk
  refine (List.foldl_ext _ _ _ fun u b hb => ?_).trans (foldl_setWordByte (old (p + k)) (BitVec.ofNat 32 (v / 2 ^ (32 * k))))
  have hb4 := List.mem_range.mp hb
  rw [if_pos (by omega), bytesLE_getD v (by omega)]
  congr 1
  apply BitVec.eq_of_toNat_eq
  rw [wordByte_toNat, BitVec.toNat_ofNat, BitVec.toNat_ofNat, show 4 * (p + k) + b - 4 * p = 4 * k + b by omega,
    show 8 * (4 * k + b) = 32 * k + 8 * b by omega, Nat.pow_add, ← Nat.div_div_eq_div_mul]
  generalize v / 2 ^ (32 * k) = u
  interval_cases b <;> omega

section
variable (x : Ext) (g : Group) (e : LaneMask) (uniB : DWord)

/-- The exported part of each row of E, and no other word of the tile. -/
theorem aexp_word (hw : 0 < (tyShape x.ty).1) (hfit : 8 * (tyShape x.ty).1 * (x.var.toNat % 4 + 1) ≤ 128) (t : Nat) {q : Nat}
    (hq : q < 2048) : (g.applyMat (aexpOut x g e uniB)).tileWord t q =
      if t = x.d.toNat ∧ e.getLsbD (q / 128) = true ∧ 2 * (tyShape x.ty).1 * (x.var.toNat % 4) ≤ q % 32 ∧
          q % 32 < 2 * (tyShape x.ty).1 * (x.var.toNat % 4 + 1) then
        BitVec.ofNat 32 (packElems (tyShape x.ty).1 (exportedRow x g uniB (q / 32)).1 /
          2 ^ (32 * (q % 32 - 2 * (tyShape x.ty).1 * (x.var.toNat % 4))))
      else g.tileWord t q := by
  have htile := aexpOut_tile x g e uniB
  revert htile hfit hw
  generalize (tyShape x.ty).1 = w
  generalize x.var.toNat % 4 = part
  intro hw hfit htile
  have hstart : part * 8 * w = 4 * (2 * w * part) := by ring
  have hnext : 2 * w * (part + 1) = 2 * w * part + 2 * w := Nat.mul_succ ..
  have hpart : 8 * w * (part + 1) = 4 * (2 * w * (part + 1)) := by ring
  have hmem {y : Nat × Word} : y ∈ (aexpOut x g e uniB).tile ↔ ∃ i, (i < 64 ∧ e.getLsbD (i / 4) = true) ∧ ∃ k, k < 2 * w ∧
      (x.d.toNat * 2048 + (32 * i + 2 * w * part + k),
        BitVec.ofNat 32 (packElems w (exportedRow x g uniB i).1 / 2 ^ (32 * k))) = y := by
    have hrow (i : Nat) : patchWords (g.tileWord x.d.toNat) (x.d.toNat * 2048) (128 * i + part * 8 * w)
        (bytesLE (8 * w) (packElems w (exportedRow x g uniB i).1)) = (List.range (2 * w)).map (fun k =>
          (x.d.toNat * 2048 + (32 * i + 2 * w * part + k), BitVec.ofNat 32 (packElems w (exportedRow x g uniB i).1 / 2 ^ (32 * k)))) := by
      rw [show 128 * i + part * 8 * w = 4 * (32 * i + 2 * w * part) by omega, show 8 * w = 4 * (2 * w) by omega]
      exact patchWords_words _ _ _ _ (by omega)
    rw [htile]
    simp only [hrow, List.mem_flatMap, mem_rowsOf, List.mem_map, List.mem_range]
  generalize 2 * w * part = first at *
  refine applyMat_tile (fun y hy hk => ?_) ?_
  · obtain ⟨i, ⟨hi, he⟩, k, hkw, rfl⟩ := hmem.mp hy
    dsimp only at hk
    obtain rfl : t = x.d.toNat := by omega
    obtain ⟨h32, hmod, h128⟩ : q / 32 = i ∧ q % 32 = first + k ∧ q / 128 = i / 4 := by omega
    rw [if_pos ⟨rfl, by rw [h128]; exact he, by omega, by omega⟩, h32, hmod, Nat.add_sub_cancel_left]
  · by_cases h : t = x.d.toNat ∧ e.getLsbD (q / 128) = true ∧ first ≤ q % 32 ∧ q % 32 < 2 * w * (part + 1)
    · obtain ⟨rfl, he, hlo, hhi⟩ := h
      refine .inr ⟨_, hmem.mpr ⟨q / 32, ⟨by omega, ?_⟩, q % 32 - first, by omega, rfl⟩, by dsimp only; omega⟩
      rw [show q / 32 / 4 = q / 128 by omega]
      exact he
    · exact .inl (if_neg h).symm

/-- The sideband bytes of each row of E, and no other. -/
theorem aexp_side (hfit : ∀ i, (exportSide x (exportedRow x g uniB i).2.1).1 + (exportSide x (exportedRow x g uniB i).2.1).2.length ≤ 8)
    (t : Nat) {i k : Nat} (hi : i < 64) (hk : k < 8) : sideByte (g.applyMat (aexpOut x g e uniB)) t (8 * i + k) =
      let side := exportSide x (exportedRow x g uniB i).2.1
      if t = x.d.toNat ∧ e.getLsbD (i / 4) = true ∧ side.1 ≤ k ∧ k < side.1 + side.2.length then (side.2.getD (k - side.1) 0).toNat
      else sideByte g t (8 * i + k) := by
  have hmem {y : Nat × Byte} : y ∈ (aexpOut x g e uniB).scale ↔ ∃ i, (i < 64 ∧ e.getLsbD (i / 4) = true) ∧ ∃ j b,
      (exportSide x (exportedRow x g uniB i).2.1).2[j]? = some b ∧
        (x.d.toNat * 512 + (8 * i + (exportSide x (exportedRow x g uniB i).2.1).1) + j, b) = y := by
    rw [aexpOut_scale]
    simp only [List.mem_flatMap, mem_rowsOf, List.mem_map]
    refine exists_congr fun i => and_congr_right fun _ => ⟨?_, ?_⟩
    · rintro ⟨⟨b, j⟩, hz, rfl⟩
      exact ⟨j, b, List.mem_zipIdx_iff_getElem?.mp hz, rfl⟩
    · rintro ⟨j, b, hz, rfl⟩
      exact ⟨(b, j), List.mem_zipIdx_iff_getElem?.mpr hz, rfl⟩
  generalize hside : (fun i => exportSide x (exportedRow x g uniB i).2.1) = side at *
  have hside' (i : Nat) : exportSide x (exportedRow x g uniB i).2.1 = side i := congrFun hside i
  simp only [hside'] at hmem hfit ⊢
  have hfit' := hfit i
  have hvalue : sideByte (g.applyMat (aexpOut x g e uniB)) t (8 * i + k) = BitVec.toNat (
      if t = x.d.toNat ∧ e.getLsbD (i / 4) = true ∧ (side i).1 ≤ k ∧ k < (side i).1 + (side i).2.length then (side i).2.getD (k - (side i).1) 0
      else tabByte g.scale (t * 512 + (8 * i + k))) := by
    refine applyMat_side (fun y hy hkey => ?_) ?_
    · obtain ⟨i', ⟨hi', he⟩, j, b, hb, rfl⟩ := hmem.mp hy
      have hj : j < (side i').2.length := (List.getElem?_eq_some_iff.mp hb).1
      have hother := hfit i'
      dsimp only at hkey
      obtain rfl : t = x.d.toNat := by omega
      obtain rfl : i' = i := by omega
      obtain rfl : k = (side i').1 + j := by omega
      rw [if_pos ⟨rfl, he, by omega, by omega⟩, Nat.add_sub_cancel_left, List.getD_eq_getElem?_getD, hb]
      rfl
    · by_cases h : t = x.d.toNat ∧ e.getLsbD (i / 4) = true ∧ (side i).1 ≤ k ∧ k < (side i).1 + (side i).2.length
      · obtain ⟨rfl, he, hlo, hhi⟩ := h
        exact .inr ⟨_, hmem.mpr ⟨i, ⟨hi, he⟩, k - (side i).1, _, List.getElem?_eq_getElem (by omega), rfl⟩, by dsimp only; omega⟩
      · rw [if_neg h]
        exact .inl (sideByte_eq ..)
  rw [hvalue, apply_ite BitVec.toNat, ← sideByte_eq]

/-- The types that AEXP exports (R207). -/
def exportTypes : List Ty := [.bf16x2, .f16x2, .e4m3x4, .e5m2x4, .e2m1x8, .s8x4, .u8x4]

theorem exportRow_scales {x : Ext} (hty : x.ty = .e2m1x8) (f b : Val) (accs : List Word) : (exportRow x f b accs).2.1.length = 2 := by
  unfold exportRow
  simp only [hty]
  rfl

theorem exportSide_scales {x : Ext} (hty : x.ty = .e2m1x8) (scales : List Nat) :
    exportSide x scales = (2 * (x.var.toNat % 4), scales.map (BitVec.ofNat 8)) := by
  rw [exportSide, hty]

theorem exportSide_int {x : Ext} (hty : intTy x.ty = true) (scales : List Nat) : exportSide x scales = (0, []) := by
  have h : x.ty = .s8x4 ∨ x.ty = .u8x4 := by simpa [intTy] using hty
  unfold exportSide
  rcases h with h | h <;> rw [h]

theorem exportSide_float {x : Ext} (hty : x.ty ∈ exportTypes) (hint : intTy x.ty = false) (hmx : x.ty ≠ .e2m1x8) (scales : List Nat) :
    exportSide x scales = (0, plainScales (tyShape x.ty).1) := by
  simp only [exportTypes, List.mem_cons, List.not_mem_nil, or_false] at hty
  rcases hty with h | h | h | h | h | h | h
  iterate 4 · rw [exportSide, h]
  · exact absurd h hmx
  iterate 2 · rw [h] at hint; cases hint

/-- The sideband of an exported row: the scales of MXFP4 at their part, 0x7F for each block of a float row, none for integers (R183, R207). -/
theorem aexp_sideband (hty : x.ty ∈ exportTypes) (t : Nat) {i k : Nat} (hi : i < 64) (hk : k < 8) :
    sideByte (g.applyMat (aexpOut x g e uniB)) t (8 * i + k) =
      if t ≠ x.d.toNat ∨ e.getLsbD (i / 4) = false ∨ intTy x.ty = true then sideByte g t (8 * i + k)
      else if x.ty = .e2m1x8 then
        (if k / 2 = x.var.toNat % 4 then (exportedRow x g uniB i).2.1.getD (k % 2) 0 % 256 else sideByte g t (8 * i + k))
      else if k < 32 / (tyShape x.ty).1 then 0x7F else 0 := by
  have hpart : x.var.toNat % 4 < 4 := Nat.mod_lt _ (by decide)
  by_cases hint : intTy x.ty = true
  · rw [aexp_side x g e uniB (fun j => by rw [exportSide_int hint]; decide) t hi hk, exportSide_int hint]
    dsimp only
    exact (if_neg fun h => Nat.not_lt_zero k h.2.2.2).trans (if_pos (.inr (.inr hint))).symm
  have houter (s v : Nat) (P : Prop) [Decidable P] : (if t = x.d.toNat ∧ e.getLsbD (i / 4) = true ∧ P then v else s) =
      if t ≠ x.d.toNat ∨ e.getLsbD (i / 4) = false ∨ intTy x.ty = true then s else if P then v else s := by
    by_cases ht : t = x.d.toNat <;> cases he : e.getLsbD (i / 4) <;> simp [ht, hint]
  by_cases hmx : x.ty = .e2m1x8
  · have hlen (j : Nat) : ((exportedRow x g uniB j).2.1.map (BitVec.ofNat 8)).length = 2 := by
      rw [List.length_map]; exact exportRow_scales hmx ..
    rw [aexp_side x g e uniB (fun j => by rw [exportSide_scales hmx, hlen]; dsimp only; omega) t hi hk, exportSide_scales hmx]
    dsimp only
    rw [hlen, houter, if_pos hmx]
    refine if_congr Iff.rfl rfl ?_
    by_cases hkp : k / 2 = x.var.toNat % 4
    · rw [if_pos (by omega), if_pos hkp, show k - 2 * (x.var.toNat % 4) = k % 2 by omega]
      have hin : k % 2 < (exportedRow x g uniB i).2.1.length := by
        have := hlen i
        rw [List.length_map] at this
        omega
      rw [List.getD_eq_getElem?_getD, List.getElem?_map, List.getElem?_eq_getElem hin, List.getD_eq_getElem _ _ hin]
      exact BitVec.toNat_ofNat ..
    · rw [if_neg (by omega), if_neg hkp]
  · have hside := exportSide_float hty (by simpa using hint) hmx
    rw [aexp_side x g e uniB (fun j => by rw [hside]; simp [plainScales]) t hi hk, hside]
    dsimp only
    rw [houter, if_neg hmx]
    refine if_congr Iff.rfl rfl ((if_pos ⟨Nat.zero_le k, by rw [plainScales, List.length_map, List.length_range]; omega⟩).trans ?_)
    rw [Nat.sub_zero, plainScales, getD_map_range hk]
    split <;> rfl

end

end Sys2Proof.Machine
end

section
namespace Sys2Proof.Machine
open Sys2Proof Sys2Proof.Num

/-! ## The scan of a column (R208) -/

/-- The pairs of a column behind the network. -/
def scanNet (g : Group) (e : LaneMask) (d c : Nat) : List Pair :=
  ((List.range 6).foldl mscanStage ((List.range 64).map (fun i =>
    if e.getLsbD (i / 4) then ((g.accWord (d + 16) (i * 64 + c)).toNat, (g.accWord d (i * 64 + c)).toNat)
    else (0x3F80_0000, 0)), 0)).1

section
variable (x : Ext) (g : Group) (e : LaneMask)

theorem mscanOut_acc : (mscanOut x g e).acc = (List.range 64).flatMap (fun c => (rowsOf e).flatMap (fun i =>
    let p := (scanNet g e x.d.toNat c).getD i (0, 0)
    [((x.d.toNat + 16) * 4096 + i * 64 + c, BitVec.ofNat 32 p.1),
      (x.d.toNat * 4096 + i * 64 + c, BitVec.ofNat 32 (fma32 p.1 (g.carryWord x.d.toNat (2 * c + 1)).toNat p.2).1)])) := by
  unfold mscanOut
  dsimp only
  refine (foldl_appends MatOut.acc (fun o c => by dsimp only) (List.range 64) MatOut.empty).trans ((List.nil_append _).trans ?_)
  simp only [List.flatMap_map]
  rfl

theorem mscanOut_carry : (mscanOut x g e).carry = (List.range 64).flatMap (fun c =>
    let p := (scanNet g e x.d.toNat c).getD 63 (0, 0)
    [(x.d.toNat * 128 + 2 * c, BitVec.ofNat 32 (gainMul (g.carryWord x.d.toNat (2 * c)).toNat p.1).1),
      (x.d.toNat * 128 + 2 * c + 1, BitVec.ofNat 32 (fma32 p.1 (g.carryWord x.d.toNat (2 * c + 1)).toNat p.2).1)]) := by
  unfold mscanOut
  dsimp only
  exact (foldl_appends MatOut.carry (fun _ _ => by rfl) (List.range 64) MatOut.empty).trans (List.nil_append _)

/-- The gains and the offsets of the rows of E, and no other element. -/
theorem mscan_element (slot : Nat) {w : Nat} (hw : w < 4096) : (g.applyMat (mscanOut x g e)).accWord slot w =
    let p := (scanNet g e x.d.toNat (w % 64)).getD (w / 64) (0, 0)
    if e.getLsbD (w / 256) = false ∨ (slot ≠ x.d.toNat ∧ slot ≠ x.d.toNat + 16) then g.accWord slot w
    else BitVec.ofNat 32 (if slot = x.d.toNat then
      (fma32 p.1 (g.carryWord x.d.toNat (2 * (w % 64) + 1)).toNat p.2).1 else p.1) := by
  have hmem {y : Nat × Word} : y ∈ (mscanOut x g e).acc ↔ ∃ c, c < 64 ∧ ∃ i, (i < 64 ∧ e.getLsbD (i / 4) = true) ∧
      (y = ((x.d.toNat + 16) * 4096 + i * 64 + c, BitVec.ofNat 32 ((scanNet g e x.d.toNat c).getD i (0, 0)).1) ∨
        y = (x.d.toNat * 4096 + i * 64 + c, BitVec.ofNat 32 (fma32 ((scanNet g e x.d.toNat c).getD i (0, 0)).1
          (g.carryWord x.d.toNat (2 * c + 1)).toNat ((scanNet g e x.d.toNat c).getD i (0, 0)).2).1)) := by
    rw [mscanOut_acc]
    simp only [List.mem_flatMap, mem_rowsOf, List.mem_range, List.mem_cons, List.not_mem_nil, or_false]
  have hplace {i c : Nat} (hi : i < 64) (hc : c < 64) (h : w = i * 64 + c) : w / 64 = i ∧ w % 64 = c ∧ w / 256 = i / 4 := by omega
  refine applyMat_acc (fun y hy hk => ?_) ?_
  · obtain ⟨c, hc, i, ⟨hi, he⟩, rfl | rfl⟩ := hmem.mp hy
    · dsimp only at hk
      obtain rfl : slot = x.d.toNat + 16 := by omega
      obtain ⟨hrow, hcol, hlane⟩ := hplace hi hc (by omega)
      rw [hrow, hcol, hlane, he]
      simp
    · dsimp only at hk
      obtain rfl : slot = x.d.toNat := by omega
      obtain ⟨hrow, hcol, hlane⟩ := hplace hi hc (by omega)
      rw [hrow, hcol, hlane, he]
      simp
  · by_cases h : e.getLsbD (w / 256) = false ∨ (slot ≠ x.d.toNat ∧ slot ≠ x.d.toNat + 16)
    · exact .inl (if_pos h).symm
    · obtain ⟨hslot, he⟩ : (slot = x.d.toNat ∨ slot = x.d.toNat + 16) ∧ e.getLsbD (w / 256) = true := by
        simpa [not_or, imp_iff_or_not, or_comm] using h
      have hlane : e.getLsbD (w / 64 / 4) = true := by rw [show w / 64 / 4 = w / 256 by omega]; exact he
      refine .inr ?_
      rcases hslot with rfl | rfl
      · exact ⟨_, hmem.mpr ⟨w % 64, by omega, w / 64, ⟨by omega, hlane⟩, .inr rfl⟩, by dsimp only; omega⟩
      · exact ⟨_, hmem.mpr ⟨w % 64, by omega, w / 64, ⟨by omega, hlane⟩, .inl rfl⟩, by dsimp only; omega⟩

/-- The carries of each column, and no other. -/
theorem mscan_carries (hd : x.d.toNat < 16) :
    (∀ c, c < 64 → let p := (scanNet g e x.d.toNat c).getD 63 (0, 0)
      (g.applyMat (mscanOut x g e)).carryWord x.d.toNat (2 * c) =
          BitVec.ofNat 32 (gainMul (g.carryWord x.d.toNat (2 * c)).toNat p.1).1 ∧
        (g.applyMat (mscanOut x g e)).carryWord x.d.toNat (2 * c + 1) =
          BitVec.ofNat 32 (fma32 p.1 (g.carryWord x.d.toNat (2 * c + 1)).toNat p.2).1) ∧
    ∀ slot k, slot ≠ x.d.toNat → k < 128 → (g.applyMat (mscanOut x g e)).carryWord slot k = g.carryWord slot k := by
  have hmem {y : Nat × Word} : y ∈ (mscanOut x g e).carry ↔ ∃ c, c < 64 ∧
      (y = (x.d.toNat * 128 + 2 * c, BitVec.ofNat 32 (gainMul (g.carryWord x.d.toNat (2 * c)).toNat
          ((scanNet g e x.d.toNat c).getD 63 (0, 0)).1).1) ∨
        y = (x.d.toNat * 128 + 2 * c + 1, BitVec.ofNat 32 (fma32 ((scanNet g e x.d.toNat c).getD 63 (0, 0)).1
          (g.carryWord x.d.toNat (2 * c + 1)).toNat ((scanNet g e x.d.toNat c).getD 63 (0, 0)).2).1)) := by
    rw [mscanOut_carry]
    simp only [List.mem_flatMap, List.mem_range, List.mem_cons, List.not_mem_nil, or_false]
  refine ⟨fun c hc => ⟨applyMat_carry hd (fun y hy hk => ?_) (.inr ⟨_, hmem.mpr ⟨c, hc, .inl rfl⟩, rfl⟩),
    applyMat_carry hd (fun y hy hk => ?_) (.inr ⟨_, hmem.mpr ⟨c, hc, .inr rfl⟩, rfl⟩)⟩, fun slot k hslot hk => ?_⟩
  · obtain ⟨c', hc', rfl | rfl⟩ := hmem.mp hy
    · obtain rfl : c' = c := by dsimp only at hk; omega
      rfl
    · dsimp only at hk; omega
  · obtain ⟨c', hc', rfl | rfl⟩ := hmem.mp hy
    · dsimp only at hk; omega
    · obtain rfl : c' = c := by dsimp only at hk; omega
      rfl
  · by_cases hlow : slot < 16
    · refine applyMat_carry hlow (fun y hy hkey => ?_) (.inl rfl)
      obtain ⟨c, hc, rfl | rfl⟩ := hmem.mp hy
      · dsimp only at hkey; omega
      · dsimp only at hkey; omega
    · rw [Group.carryWord, Group.carryWord, if_neg hlow, if_neg hlow]

end

/-! ## Sums of runs (R114, R115) -/

theorem addSat_within {a : Int × FlagBits} {p : Int} (hlo : -(2 ^ 31) ≤ a.1 + p) (hhi : a.1 + p < 2 ^ 31) : addSat a p = (a.1 + p, a.2) := by
  unfold addSat
  dsimp only
  rw [if_neg (by omega), if_neg (by omega)]

/-- Sums that stay within INT32 are exact (R115). -/
theorem foldl_addSat {term : Nat → Int} {a : Int} : ∀ n, (∀ j, j ≤ n → -(2 ^ 31) ≤ a + ((List.range j).map term).sum ∧
    a + ((List.range j).map term).sum < 2 ^ 31) →
    (List.range n).foldl (fun a k => addSat a (term k)) (a, 0) = (a + ((List.range n).map term).sum, 0)
  | 0, _ => by simp
  | n + 1, h => by
    have hsum : ((List.range (n + 1)).map term).sum = ((List.range n).map term).sum + term n := by
      rw [List.range_succ, List.map_append, List.sum_append, List.map_singleton, List.sum_singleton]
    have hbound := h (n + 1) le_rfl
    rw [hsum] at hbound
    rw [List.range_succ, List.foldl_append, foldl_addSat n fun j hj => h j (by omega), List.foldl_cons, List.foldl_nil, ← List.range_succ, hsum,
      addSat_within (by dsimp only; omega) (by dsimp only; omega), Int.add_assoc]

/-- The sum of a run's products. -/
def sumVals : List Val → Val
  | [] => zero false
  | v :: rest => rest.foldl (fun a b => (addV .rne a b).1) v

/-- A run has an invalid product, or infinities of both signs among its products. -/
def runBad (terms : List (Val × Val)) : Bool :=
  (terms.map (fun t => mulV t.1 t.2)).any (·.2) ||
    (((terms.map (fun t => mulV t.1 t.2)).map (·.1)).contains (.inf false) &&
      ((terms.map (fun t => mulV t.1 t.2)).map (·.1)).contains (.inf true))

theorem runSum_eq (terms : List (Val × Val)) : runSum terms =
    (if (runBad terms || ((terms.map (fun t => mulV t.1 t.2)).map (·.1)).any Val.isNan) = true then .nan false
      else sumVals ((terms.map (fun t => mulV t.1 t.2)).map (·.1)), terms.any (fun t => t.1.isSig || t.2.isSig) || runBad terms) := rfl

/-- A product is a NaN of a NaN, or of 0 × ∞ (R111). -/
theorem mulV_isNan {a b : Val} (h : (mulV a b).1.isNan = true) : a.isNan = true ∨ b.isNan = true ∨ (mulV a b).2 = true := by
  cases a with
  | nan => exact .inl rfl
  | inf n => 
    cases b with
    | nan => exact .inr (.inl rfl)
    | inf => cases h
    | fin s m e =>
      by_cases hm : m = 0
      · exact .inr (.inr (by simp [mulV, hm]))
      · simp [mulV, hm, Val.isNan] at h
  | fin s m e =>
    cases b with
    | nan => exact .inr (.inl rfl)
    | inf n =>
      by_cases hm : m = 0
      · exact .inr (.inr (by simp [mulV, hm]))
      · simp [mulV, hm, Val.isNan] at h
    | fin => cases h

theorem mulV_nan_left {a b : Val} (h : a.isNan = true) : (mulV a b).1.isNan = true := by
  cases a with
  | nan => cases b <;> rfl
  | inf => cases h
  | fin => cases h

theorem mulV_nan_right {a b : Val} (h : b.isNan = true) : (mulV a b).1.isNan = true := by
  cases b with
  | nan => cases a <;> rfl
  | inf => cases h
  | fin => cases h

/-- A number, or the infinity of one sign. -/
def NoOther (n : Bool) (v : Val) : Prop := v.isNan = false ∧ v ≠ .inf (!n)

theorem addV_noOther {n : Bool} {a b : Val} (ha : NoOther n a) (hb : NoOther n b) :
    NoOther n (addV .rne a b).1 ∧ ((a = .inf n ∨ b = .inf n) → (addV .rne a b).1 = .inf n) := by
  have hinf {k : Bool} (h : NoOther n (.inf k)) : k = n := by
    have hne := h.2
    cases k <;> cases n <;> simp_all
  cases a with
  | nan => exact absurd ha.1 (by simp [Val.isNan])
  | inf k =>
    obtain rfl := hinf ha
    cases b with
    | nan => exact absurd hb.1 (by simp [Val.isNan])
    | inf j =>
      obtain rfl := hinf hb
      have hsum : (addV .rne (.inf j) (.inf j)).1 = .inf j := by simp [addV]
      rw [hsum]; exact ⟨ha, fun _ => rfl⟩
    | fin => exact ⟨ha, fun _ => rfl⟩
  | fin s m e =>
    cases b with
    | nan => exact absurd hb.1 (by simp [Val.isNan])
    | inf j =>
      obtain rfl := hinf hb
      exact ⟨hb, fun _ => rfl⟩
    | fin s' m' e' =>
      refine ⟨?_, fun h => by rcases h with h | h <;> cases h⟩
      show NoOther n (ofInt _ _ _)
      unfold ofInt
      split
      · exact ⟨rfl, nofun⟩
      · exact ⟨rfl, nofun⟩

/-- Numbers and infinities of one sign add up to that infinity (R107). -/
theorem foldl_addV_inf {n : Bool} : ∀ {l : List Val} {a : Val}, NoOther n a → (∀ v ∈ l, NoOther n v) → (a = .inf n ∨ Val.inf n ∈ l) →
    l.foldl (fun a b => (addV .rne a b).1) a = .inf n
  | [], a, _, _, h => h.resolve_right List.not_mem_nil
  | v :: l, a, ha, hl, h => by
    obtain ⟨hsum, hinf⟩ := addV_noOther ha (hl v List.mem_cons_self)
    refine foldl_addV_inf (l := l) (a := (addV .rne a v).1) hsum (fun u hu => hl u (List.mem_cons_of_mem v hu)) ?_
    rcases h with h | h
    · exact .inl (hinf (.inl h))
    · exact (List.mem_cons.mp h).imp (fun hv : Val.inf n = v => hinf (.inr hv.symm)) id

theorem sumVals_inf {n : Bool} {l : List Val} (hl : ∀ v ∈ l, NoOther n v) (h : Val.inf n ∈ l) : sumVals l = .inf n := by
  cases l with
  | nil => cases h
  | cons v l =>
    exact foldl_addV_inf (hl v List.mem_cons_self) (fun u hu => hl u (List.mem_cons_of_mem v hu))
      ((List.mem_cons.mp h).imp Eq.symm id)

/-- The special values of a run (R106, R107, R111, R114). -/
theorem runSum_special (terms : List (Val × Val)) :
    let has (p : Val × Val → Bool) : Prop := ∃ t ∈ terms, p t = true
    let inf (n : Bool) : Prop := has (fun t => (mulV t.1 t.2).1 == .inf n)
    let invalid : Prop := has (fun t => (mulV t.1 t.2).2) ∨ (inf false ∧ inf true)
    (has (fun t => t.1.isNan || t.2.isNan) → (runSum terms).1 = .nan false) ∧
    (invalid → runSum terms = (.nan false, true)) ∧
    ((runSum terms).2 = true ↔ invalid ∨ has (fun t => t.1.isSig || t.2.isSig)) ∧
    (∀ n, inf n → ¬inf (!n) → ¬has (fun t => t.1.isNan || t.2.isNan || (mulV t.1 t.2).2) → (runSum terms).1 = .inf n) := by
  intro has inf invalid
  have hbad : runBad terms = true ↔ invalid := by
    simp [runBad, invalid, has, inf]
  have hnan : ((terms.map (fun t => mulV t.1 t.2)).map (·.1)).any Val.isNan = true ↔ has (fun t => (mulV t.1 t.2).1.isNan) := by
    simp [has]
  rw [runSum_eq]
  refine ⟨fun ⟨t, ht, h⟩ => ?_, fun h => ?_, ?_, fun n hn hother hnone => ?_⟩
  · have hprod : has (fun t => (mulV t.1 t.2).1.isNan) := by
      refine ⟨t, ht, ?_⟩
      rcases Bool.or_eq_true_iff.mp h with ha | hb
      · exact mulV_nan_left ha
      · exact mulV_nan_right hb
    exact if_pos (Bool.or_eq_true_iff.mpr (.inr (hnan.mpr hprod)))
  · rw [hbad.mpr h, Bool.true_or, if_pos rfl, Bool.or_true]
  · rw [Bool.or_eq_true_iff, hbad, or_comm, List.any_eq_true]
  · have hterm : ∀ t ∈ terms, (mulV t.1 t.2).2 = false ∧ (mulV t.1 t.2).1.isNan = false := by
      intro t ht
      have hclean : (t.1.isNan || t.2.isNan || (mulV t.1 t.2).2) = false := Bool.eq_false_iff.mpr fun h => hnone ⟨t, ht, h⟩
      obtain ⟨⟨ha, hb⟩, hinv⟩ := (by simpa using hclean : (t.1.isNan = false ∧ t.2.isNan = false) ∧ (mulV t.1 t.2).2 = false)
      refine ⟨hinv, Bool.eq_false_iff.mpr fun h => ?_⟩
      rcases mulV_isNan h with h | h | h
      · exact Bool.noConfusion (ha.symm.trans h)
      · exact Bool.noConfusion (hb.symm.trans h)
      · exact Bool.noConfusion (hinv.symm.trans h)
    have hgood : ¬(runBad terms || ((terms.map (fun t => mulV t.1 t.2)).map (·.1)).any Val.isNan) = true := by
      rw [Bool.or_eq_true_iff, hbad, hnan]
      rintro ((⟨t, ht, h⟩ | ⟨hf, ht⟩) | ⟨t, ht, h⟩)
      · exact Bool.noConfusion ((hterm t ht).1.symm.trans h)
      · cases n
        · exact hother ht
        · exact hother hf
      · exact Bool.noConfusion ((hterm t ht).2.symm.trans h)
    rw [if_neg hgood]
    refine sumVals_inf (fun v hv => ?_) ?_
    · obtain ⟨t, ht, rfl⟩ : ∃ t ∈ terms, (mulV t.1 t.2).1 = v := by simpa using hv
      exact ⟨(hterm t ht).2, fun h => hother ⟨t, ht, beq_iff_eq.mpr h⟩⟩
    · obtain ⟨t, ht, h⟩ := hn
      rw [← beq_iff_eq.mp h, List.map_map]
      exact List.mem_map.mpr ⟨t, ht, rfl⟩

end Sys2Proof.Machine
end

section
namespace Sys2Proof.Machine
open Sys2Proof Sys2Proof.Num

/-! ## Integer accumulates (R115) -/

/-- An accumulate within INT32 is the exact sum, with no flag. -/
theorem accInt_exact (sa sb : Bool) (rowA rowB : Nat) (acc : Word) :
    let sum (n : Nat) : Int := acc.toInt + ((List.range n).map (fun k => intOf sa 8 (rowElem 8 rowA k) * intOf sb 8 (rowElem 8 rowB k))).sum
    (∀ n, n ≤ 128 → -(2 ^ 31) ≤ sum n ∧ sum n < 2 ^ 31) → accInt sa sb rowA rowB acc = (BitVec.ofInt 32 (sum 128), 0) := by
  intro sum h
  unfold accInt
  rw [foldl_addSat (term := fun k => intOf sa 8 (rowElem 8 rowA k) * intOf sb 8 (rowElem 8 rowB k)) 128 h]

/-- One term of a ternary accumulate. -/
def ternStep (sb : Bool) (rowA : Nat) (rowB : Nat → Nat) (a : Int × FlagBits) (k : Nat) : Int × FlagBits :=
  let t := ternary (rowElem 2 rowA k)
  let y := addSat a (t.1 * intOf sb 8 (rowElem 8 (rowB (k / 128)) (k % 128)))
  (y.1, y.2 ||| flagIf t.2 flTrn)

theorem accTern_eq (sb : Bool) (rowA : Nat) (rowB : Nat → Nat) (acc : Word) : accTern sb rowA rowB acc =
    (BitVec.ofInt 32 ((List.range 512).foldl (ternStep sb rowA rowB) (acc.toInt, 0)).1,
      ((List.range 512).foldl (ternStep sb rowA rowB) (acc.toInt, 0)).2) := rfl

/-- A weight 0 leaves the accumulator. -/
theorem ternStep_zero {sb : Bool} {rowA k : Nat} {rowB : Nat → Nat} {a : Int × FlagBits} (hk : rowElem 2 rowA k = 0)
    (hlo : -(2 ^ 31) ≤ a.1) (hhi : a.1 < 2 ^ 31) : ternStep sb rowA rowB a k = a := by
  unfold ternStep
  rw [hk]
  simp only [ternary, Int.zero_mul]
  rw [addSat_within (by omega) (by omega)]
  simp [flagIf]

theorem rowElem_small {m row k : Nat} (h : row < 2 ^ (m * k)) : rowElem m row k = 0 := by
  simp [rowElem, Nat.div_eq_of_lt h]

/-- Weights 0 behind element n change nothing. -/
theorem foldl_ternStep_tail {sb : Bool} {rowA n : Nat} {rowB : Nat → Nat} {a b : Int × FlagBits} (hrow : rowA < 2 ^ (2 * n))
    (hb : (List.range n).foldl (ternStep sb rowA rowB) a = b) (hlo : -(2 ^ 31) ≤ b.1) (hhi : b.1 < 2 ^ 31) :
    ∀ m, (List.range (n + m)).foldl (ternStep sb rowA rowB) a = b
  | 0 => hb
  | m + 1 => by
    have hlarge : rowA < 2 ^ (2 * (n + m)) := hrow.trans_le (Nat.pow_le_pow_right two_pos (by omega))
    rw [← Nat.add_assoc, List.range_succ, List.foldl_append, foldl_ternStep_tail hrow hb hlo hhi m, List.foldl_cons, List.foldl_nil,
      ternStep_zero (rowElem_small hlarge) hlo hhi]

/-- The printed ternary run (R115). -/
theorem accTern_printed : accTern true 0x39 (fun m => if m = 0 then 0x64647F else 0) 0x7FFF_FFC0#32 = (0x7FFF_FF9B#32, flIov ||| flTrn) := by
  have hrun : (List.range 512).foldl (ternStep true 0x39 (fun m => if m = 0 then 0x64647F else 0)) ((0x7FFF_FFC0#32).toInt, 0) =
      (0x7FFF_FF9B, flIov ||| flTrn) :=
    foldl_ternStep_tail (n := 3) (by decide) (by decide) (by decide) (by decide) 509
  rw [accTern_eq, hrun]
  rfl

/-! ## Printed runs (R114, R202, R207, R336) -/

/-- The printed float runs (R114). -/
theorem accFloat_printed (run : Nat → Word × FlagBits)
    (hrun : ∀ row, run row = accFloat .bf16x2 .bf16x2 (fun _ => 0) (fun _ => 0) row row 0) :
    run (0x4580 + 0x3F80 * 2 ^ 16 + 0x3F80 * 2 ^ 32) = (0x4B80_0001#32, 0) ∧
      run (0x4580 + 0x3F80 * 2 ^ (16 * 31) + 0x3F80 * 2 ^ (16 * 32)) = (0x4B80_0000#32, 0) := by
  rw [hrun, hrun]
  decide +kernel

/-- The printed row of AEXP (R336). -/
theorem exportRow_printed {x : Ext} (hty : x.ty = .e4m3x4) (hrm : x.rm = .rne) :
    exportRow x (dec f32 0x3F00_0000) (dec f32 0x4370_0000)
      ([0x3F80_0000#32, 0x42C8_0000#32, 0x4416_0000#32] ++ List.replicate 61 0#32) = ([0x30, 0x64, 0x77] ++ List.replicate 61 0, [], flSat) := by
  unfold exportRow
  simp only [hty, hrm]
  decide +kernel

/-- The network on the printed column (R207). -/
theorem mscan_printed : ∀ i, i < 64 → ((List.range 6).foldl mscanStage (List.replicate 4 (0x4000_0000, 0x3F80_0000) ++
      List.replicate 60 (0x3F80_0000, 0), 0)).1.getD i (0, 0) =
    ([(0x4000_0000, 0x3F80_0000), (0x4080_0000, 0x4040_0000), (0x4100_0000, 0x40E0_0000)].getD i (0x4180_0000, 0x4170_0000)) := by
  decide +kernel

/-- The printed products of gains (R207). -/
theorem gainMul_printed : gainMul 0x00FF_FFFF 0x3F00_0000 = (0x0080_0000, 0) ∧ gainMul 0x0D80_0000 0x2B80_0000 = (0, flGuf) ∧
    gainMul 0x8D80_0000 0x2B80_0000 = (0x8000_0000, flGuf) ∧ gainMul 0x8D80_0000 0x0D80_0000 = (0x8000_0000, 0) := by
  decide +kernel

end Sys2Proof.Machine
end

section
namespace Sys2Proof.Machine
open Sys2Proof Sys2Proof.Num

theorem tyShape_pos {ty : Ty} (h : ty ∈ exportTypes) : 0 < (tyShape ty).1 := by
  have hall : ∀ t ∈ exportTypes, 0 < (tyShape t).1 := by decide
  exact hall ty h

/-- Settles O42: the events of an entry (R197), the result of each instruction element by element (R199 to R208, R336), and the
printed runs by evaluation. -/
theorem matrixEntriesRun : Obligations.MatrixEntriesRun := by
  unfold Obligations.MatrixEntriesRun
  refine ⟨fun die core s m g hm hg => matrixEntry_events hm hg, fun x g => ?tiles, fun x g e c k L vals hk hL he hc => ?lanes,
    fun x g e vals => ?results, accInt_exact, runSum_special, accFloat_printed _ fun _ => rfl, accTern_printed,
    fun x hty hrm => exportRow_printed hty hrm, mscan_printed, gainMul_printed⟩
  case tiles =>
    obtain ⟨htile, hscale⟩ := tmov_copies x g
    exact ⟨htile, hscale, amode_affine x g, fun e c k L => ard_reads x g e c k L⟩
  case lanes =>
    exact ⟨fun j hj => mzero_clears x g e k L hk hL he hj, fun hvar => ⟨awr_writes x g e c k L vals hk he hvar,
      fun hk2 => ⟨twr_writes x g e c k L vals hk2 he hc hvar, fun hp => trd_reads x g e c k L hk2 he hp hc hvar⟩⟩⟩
  case results =>
    refine ⟨fun slot w hw => ⟨mma_element x g e slot hw, mmat_element x g e slot hw,
        fun latch => mmag_element x g e vals latch slot hw⟩,
      fun z n ch k bs hlen hch hk => unswizzle_byte z n hlen hch hk, fun uniB hty => ?aexp,
      fun hd => ⟨fun slot w hw => mscan_element x g e slot hw, mscan_carries x g e hd⟩, fun r L hr hL => ⟨fun hvar => ?_, fun hvar => ?_⟩⟩
    case aexp =>
      intro part w row h hfit
      obtain ⟨hacc, hvec⟩ := aexpOut_keeps x g e uniB
      exact ⟨hacc, hvec, fun t q hq => aexp_word x g e uniB (tyShape_pos hty) hfit t hq,
        fun t i k hi hk => aexp_sideband x g e uniB hty t hi hk⟩
    · obtain ⟨hcarry, hread⟩ := mcarry_reads x g e r L vals hr hL hvar
      exact ⟨hcarry, fun _ => hread⟩
    · obtain ⟨hvec, hwrite⟩ := mcarry_writes x g e r L vals hr hL hvar
      exact ⟨hvec, fun _ => hwrite⟩

end Sys2Proof.Machine
end

section
namespace Sys2Proof.Machine

open Sys2Proof

/-! ## What leaves memory as it is (O59): shared operations -/

/-- A fold leaves memory as it is when each of its updates does. -/
theorem foldl_mem {α : Type} {f : State → α → State} (hf : ∀ s a, (f s a).mem = s.mem) (l : List α) (s : State) :
    (l.foldl f s).mem = s.mem :=
  foldl_keeps (fun t : State => t.mem = s.mem) f (fun t a h => (hf t a).trans h) l s rfl

@[simp] theorem ite_mem (c : Prop) [Decidable c] (s t : State) : (if c then s else t).mem = if c then s.mem else t.mem := apply_ite ..

@[simp] theorem advance_mem (k : Issue) (s : State) : (advance k s).mem = s.mem := rfl

@[simp] theorem fwStore_mem (cn va : Nat) (bs : List Byte) (s : State) : (fwStore cn va bs s).mem = s.mem := rfl

@[simp] theorem appendRecord_mem (cn : Nat) (r : TrapRec) (s : State) : (appendRecord cn r s).mem = s.mem := rfl

@[simp] theorem stopHandler_mem (h : HandlerId) (gi : Nat) (c : Cause) (aux : DWord) (s : State) :
    (stopHandler h gi c aux s).mem = s.mem := rfl

@[simp] theorem untrap_mem (gi si : Nat) (pc : DWord) (pend : LaneMask) (s : State) : (untrap gi si pc pend s).mem = s.mem := rfl

@[simp] theorem setRoutine_mem (gi si n : Nat) (s : State) : (s.setRoutine gi si n).mem = s.mem := rfl

@[simp] theorem trapAt_mem (k : Issue) (c : Cause) (aux : DWord) (m : LaneMask) (s : State) : (trapAt k c aux m s).mem = s.mem :=
  takeTrap_mem ..

@[simp] theorem trapWord_mem (k : Issue) (c : Cause) (s : State) : (trapWord k c s).mem = s.mem := trapAt_mem ..

@[simp] theorem trapRead_mem (k : Issue) (c : Cause) (aux : DWord) (s : State) : (trapRead k c aux s).mem = s.mem := by
  simp [trapRead, takeTrap_mem]

@[simp] theorem deliverOr_mem (k : Issue) (p : PendingFault → Bool) {body : State → State} {s : State}
    (h : (body s).mem = s.mem) : (deliverOr k p body s).mem = s.mem := by
  unfold deliverOr
  split
  · exact trapAt_mem ..
  · exact h

@[simp] theorem countFlit_mem (l : Link) (received : Bool) (s : State) : (s.countFlit l received).mem = s.mem := by
  rw [countFlit_messages s l received]

@[simp] theorem complete_mem (c : Cmd) (status : Nat) (value : DWord) (s : State) : (complete c status value s).mem = s.mem := by
  rw [complete_only]

@[simp] theorem flushTraps_mem (cn : Nat) : ∀ (n : Nat) (s : State), (flushTraps cn n s).mem = s.mem := by
  intro n
  induction n with
  | zero => intro s; rfl
  | succ n ih =>
    intro s
    unfold flushTraps
    split
    · rfl
    · split
      · rfl
      · simp [ih]

/-! ### An instruction -/

/-- The next state that an outcome holds, if it holds one, is sound. -/
def Sound (o : Host.Outcome State Fault Refusal) : Prop := ∀ t, o = .next t → t.Inv

theorem sound_next {t : State} (h : t.Inv) : Sound (.next t) := by
  rintro u ⟨⟩
  exact h

/-- The state after an instruction is sound when that of its body is. -/
theorem sound_runInstr {i : Instr} {gd : Guard} {body : Issue → State → State} {s : State} (hs : s.Inv)
    (hbody : ∀ k, (body k s).Inv) : Sound (runInstr i gd body s) := by
  refine sound_next ?_
  split
  · exact hs
  · split
    · exact hbody _
    · exact inv_of_mem (trapWord_mem ..) hs

/-- An instruction whose body writes no memory. -/
theorem sound_runInstr_mem {i : Instr} {gd : Guard} {body : Issue → State → State} {s : State} (hs : s.Inv)
    (hbody : ∀ k, (body k s).mem = s.mem) : Sound (runInstr i gd body s) :=
  sound_runInstr hs fun k => inv_of_mem (hbody k) hs

section
variable {s : State} (hs : s.Inv)
include hs

theorem sound_aluExt (i : Instr) (x : Ext) (wide : Bool) (f : Group → Nat → DWord × FlagBits) : Sound (aluExt i x wide f s) :=
  sound_runInstr_mem hs fun _ => rfl

theorem sound_predExt (i : Instr) (x : Ext) (f : Group → Nat → Bool × FlagBits) : Sound (predExt i x f s) :=
  sound_runInstr_mem hs fun _ => rfl

theorem sound_aluShort (i : Instr) (gd : Guard) (d : BitVec 8) (wide : Bool) (f : Group → Nat → DWord) :
    Sound (aluShort i gd d wide f s) :=
  sound_runInstr_mem hs fun _ => rfl

end

/-! ### Branches, calls and returns -/

theorem leave_mem (k : Issue) (next : Nat → Target) (js : List Join) (s : State) : (leave k next js s).mem = s.mem := by
  unfold leave
  dsimp only
  split <;> rfl

@[simp] theorem branch_mem (k : Issue) (go : LaneMask) (target : Nat → DWord) (depth : Nat) (bad : LaneMask) (join : Option DWord)
    (s : State) : (branch k go target depth bad join s).mem = s.mem := by
  have hpush : (pushJoin k join s).2.mem = s.mem := by
    unfold pushJoin
    split
    · rfl
    · split <;> rfl
  unfold branch
  dsimp only
  split
  · exact trapAt_mem ..
  · exact (leave_mem ..).trans hpush

@[simp] theorem branchTo_mem (k : Issue) (go : LaneMask) (off join : BitVec 64) (s : State) :
    (branchTo k go off join s).mem = s.mem := by simp [branchTo]

theorem tableFault_mem (k : Issue) (va : DWord) (f : Fetch) (s : State) : (tableFault k va f s).mem = s.mem := by
  cases f <;> simp [tableFault, parkAt]

theorem brxBody_mem (x : Ext) (k : Issue) (s : State) : (brxBody x k s).mem = s.mem := by
  unfold brxBody
  dsimp only
  repeat' split
  all_goals simp [tableFault_mem]

theorem callBody_mem (target : Issue → Nat → DWord) (k : Issue) (s : State) : (callBody target k s).mem = s.mem := by
  simp [callBody]

theorem retBody_mem (k : Issue) (s : State) : (retBody k s).mem = s.mem := by
  simp [retBody]

/-! ### Accesses -/

theorem dropParkedAt_mem (gi si : Nat) (pc : DWord) (s : State) : (dropParkedAt gi si pc s).mem = s.mem := by
  unfold dropParkedAt
  exact (sweep_mem ..).trans (foldl_mem (f := fun s a => endAccess a s) (fun _ _ => rfl) _ _)

@[simp] theorem dropParked_mem (k : Issue) (s : State) : (dropParked k s).mem = s.mem := dropParkedAt_mem ..

@[simp] theorem enterAccess_mem (k : Issue) (op : MemOp) (run wait : LaneMask) (s : State) :
    (enterAccess k op run wait s).mem = s.mem := by
  unfold enterAccess
  dsimp only
  split <;> rfl

@[simp] theorem afterIssue_mem (k : Issue) (op : MemOp) (s : State) : (afterIssue k op s).mem = s.mem := by simp [afterIssue]

@[simp] theorem zeroHelpers_mem (k : Issue) (f : Nat → Group → Group) (s : State) : (zeroHelpers k f s).mem = s.mem := rfl

@[simp] theorem issueAccess_mem (k : Issue) (op : MemOp) (s : State) : (issueAccess k op s).mem = s.mem := by
  simp [issueAccess, takeTrap_mem]

@[simp] theorem issueOnce_mem (k : Issue) (op : MemOp) (s : State) : (issueOnce k op s).mem = s.mem := by
  unfold issueOnce
  dsimp only
  repeat' split
  all_goals simp [takeTrap_mem]

@[simp] theorem issueScratch_mem (k : Issue) (op : MemOp) (s : State) : (issueScratch k op s).mem = s.mem := by simp [issueScratch]

@[simp] theorem issueVirtual_mem (k : Issue) (op : MemOp) (s : State) : (issueVirtual k op s).mem = s.mem := by simp [issueVirtual]

@[simp] theorem issueVirtualOnce_mem (k : Issue) (op : MemOp) (s : State) : (issueVirtualOnce k op s).mem = s.mem := by
  simp [issueVirtualOnce]

/-! ### Barriers and the end of lanes -/

theorem releaseBarriers_mem (bi : Nat) (s : State) : (releaseBarriers bi s).mem = s.mem :=
  foldl_mem (fun _ _ => by simp [releaseBarrier, endBarrier]) _ _

theorem arithOr_mem (k : Issue) {body : State → State} {s : State} (h : (body s).mem = s.mem) : (arithOr k body s).mem = s.mem := by
  simp [arithOr, h]

theorem exitCheck_mem (k : Issue) {body : State → State} {s : State} (h : (body s).mem = s.mem) : (exitCheck k body s).mem = s.mem := by
  simp [exitCheck, arithOr_mem k h, h]

theorem arriveAt_mem (k : Issue) (id : Nat) (w : Wait) (s : State) : (arriveAt k id w s).mem = s.mem := by
  simp [arriveAt, releaseBarriers_mem, restartCount]

end Sys2Proof.Machine
end

section
namespace Sys2Proof.Machine

open Sys2Proof Sys2Proof.Num

/-! ## What leaves memory as it is (O59): the issue of engine operations -/

@[simp] theorem openDrain_mem (who : Waiter) (a : Agent) (pa : Nat) (w : Bool) (s : State) : (openDrain who a pa w s).mem = s.mem := by
  unfold openDrain
  dsimp only
  split <;> simp

/-- A check at issue, where it holds, leaves a memory. -/
def Try.Leaves {α : Type} (t : Try α) (m : List Host.Cell) : Prop :=
  match t with
  | .ok _ s => s.mem = m
  | _ => True

section
variable {α β : Type} {m : List Host.Cell}

theorem leaves_ok {a : α} {s : State} (h : s.mem = m) : (Try.ok a s).Leaves m := h

theorem leaves_trap (c : Cause) (aux : DWord) : (Try.trap c aux : Try α).Leaves m := trivial

theorem leaves_park (va : DWord) : (Try.park va : Try α).Leaves m := trivial

theorem leaves_stall (w : Option (Agent × Nat × Bool)) : (Try.stall w : Try α).Leaves m := trivial

theorem Try.Leaves.bind {t : Try α} {f : α → State → Try β} (ht : t.Leaves m) (hf : ∀ a s, s.mem = m → (f a s).Leaves m) :
    (t.bind f).Leaves m := by
  cases t with
  | ok a s => exact hf a s ht
  | trap c aux => exact leaves_trap c aux
  | park va => exact leaves_park va
  | stall w => exact leaves_stall w

/-- A list of checks, one after the other. -/
theorem foldl_leaves {γ : Type} {f : Try α → γ → Try α} (hf : ∀ t x, t.Leaves m → (f t x).Leaves m) (l : List γ) {t : Try α}
    (h : t.Leaves m) : (l.foldl f t).Leaves m :=
  foldl_keeps (fun t : Try α => t.Leaves m) f hf l t h

end

section
variable {m : List Host.Cell} {s : State} (h : s.mem = m)
include h

theorem checkOpr_leaves (k : Issue) (good : Bool) : (checkOpr k good s).Leaves m := by
  cases good
  · exact leaves_trap ..
  · exact leaves_ok h

theorem readLine_leaves (k : Issue) (va : DWord) (n : Nat) : (readLine k va n s).Leaves m := by
  unfold readLine
  split
  · exact leaves_trap ..
  · exact leaves_trap ..
  · exact leaves_park _
  · split
    · exact leaves_stall _
    · split
      · rename_i hclaim
        exact leaves_ok ((claimAs_mem hclaim).trans h)
      · exact leaves_stall _
  · split
    · exact leaves_stall _
    · exact leaves_ok h
  · exact leaves_trap ..

theorem readAtIssue_leaves (k : Issue) (va : DWord) (n : Nat) : (readAtIssue k va n s).Leaves m :=
  foldl_leaves (fun _ _ ht => ht.bind fun _ _ hs => (readLine_leaves hs ..).bind fun _ _ hs => leaves_ok hs) _ (leaves_ok h)

theorem readRecord_leaves (k : Issue) (va : DWord) : (readRecord k va s).Leaves m := by
  unfold readRecord
  split
  · exact leaves_trap ..
  · exact (readAtIssue_leaves h ..).bind fun _ _ hs => leaves_ok hs

theorem readLink_leaves (k : Issue) (r : Record) : (readLink k r s).Leaves m := by
  unfold readLink
  split
  · exact (readRecord_leaves h ..).bind fun _ _ hs => leaves_ok hs
  · exact leaves_ok h

theorem readOne_leaves (k : Issue) (va : DWord) : (readOne k va s).Leaves m :=
  (readRecord_leaves h ..).bind fun _ _ hs => readLink_leaves hs ..

theorem readTwo_leaves (k : Issue) (va vb : DWord) : (readTwo k va vb s).Leaves m :=
  (readRecord_leaves h ..).bind fun _ _ hs => (readRecord_leaves hs ..).bind fun _ _ hs =>
    (readLink_leaves hs ..).bind fun _ _ hs => (readLink_leaves hs ..).bind fun _ _ hs => leaves_ok hs

theorem checkInside_leaves (rq : RecPair) (org : List Int) : (checkInside rq org s).Leaves m := by
  unfold checkInside
  split
  · exact leaves_ok h
  · exact leaves_trap ..

theorem checkRange_leaves (k : Issue) (off : DWord) (n : Nat) : (checkRange s k off n).Leaves m := by
  unfold checkRange
  split
  · exact leaves_trap ..
  · split
    · exact leaves_trap ..
    · exact leaves_ok h

theorem readIndices_leaves (k : Issue) (id : Nat) (rq : RecPair) (org : List Int) : (readIndices k id rq org s).Leaves m := by
  unfold readIndices
  split
  · exact leaves_ok h
  · refine (foldl_leaves (fun t e ht => ht.bind fun acc u hu => ?_) _ (leaves_ok h)).bind fun acc u hu => ?_
    · split
      · exact leaves_ok hu
      · dsimp only
        split
        · exact leaves_ok hu
        · split
          · exact leaves_ok hu
          · exact leaves_ok hu
          · exact leaves_park _
          · split
            · exact leaves_stall _
            · split
              · rename_i hclaim
                exact leaves_ok ((claimAs_mem hclaim).trans hu)
              · exact leaves_stall _
          · split
            · exact leaves_ok hu
            · split
              · exact leaves_stall _
              · exact leaves_ok hu
    · split
      · exact leaves_ok hu
      · exact leaves_trap ..
      · exact leaves_ok hu

theorem deliverTry_leaves (k : Issue) (f : PendingFault) : (deliverTry k f s).Leaves m :=
  leaves_ok ((trapAt_mem ..).trans h)

theorem unlessUses_leaves (k : Issue) (o : EngineOp) {body : State → Try Unit} (hbody : (body s).Leaves m) :
    (unlessUses k o body s).Leaves m := by
  unfold unlessUses
  split
  · exact deliverTry_leaves h ..
  · exact hbody

theorem unlessLeft_leaves (k : Issue) (off n : Nat) {body : State → Try Unit} (hbody : (body s).Leaves m) :
    (unlessLeft k off n body s).Leaves m := by
  unfold unlessLeft
  split
  · exact deliverTry_leaves h ..
  · exact hbody

end

theorem claimLines_leaves (who : Waiter) (a : Agent) {m : List Host.Cell} : ∀ (ls : List Nat) {s : State}, s.mem = m →
    (claimLines who a ls s).Leaves m
  | [], _, h => leaves_ok h
  | n :: rest, s, h => by
    unfold claimLines
    split
    · rename_i hclaim
      exact claimLines_leaves who a rest ((claimAs_mem hclaim).trans h)
    · exact leaves_stall _

theorem startEngine_leaves (k : Issue) (o : EngineOp) {m : List Host.Cell} {s : State} (h : s.mem = m) :
    (startEngine k o s).Leaves m := by
  unfold startEngine
  split
  · exact leaves_stall _
  · exact (claimLines_leaves _ _ _ h).bind fun _ _ hs => leaves_ok hs

/-- An operation that starts unless it uses what a faulted one left unfinished. -/
theorem unlessUses_startEngine_leaves (k : Issue) (o : EngineOp) {m : List Host.Cell} {s : State} (h : s.mem = m) :
    (unlessUses k o (startEngine k o) s).Leaves m := unlessUses_leaves h _ _ (startEngine_leaves k o h)

theorem endTry_mem (k : Issue) {before : State} {t : Try Unit} (h : t.Leaves before.mem) : (endTry k before t).mem = before.mem := by
  cases t with
  | ok a s => exact h
  | trap c aux => exact trapRead_mem ..
  | park va => rfl
  | stall w =>
    cases w with
    | none => rfl
    | some w => exact openDrain_mem ..

/-! ### CPY, TLD, TSTR and LDH -/

section
variable (x : Ext) (k : Issue) (s : State)

theorem cpyGlobal_leaves : (cpyGlobal x k s).Leaves s.mem :=
  (readTwo_leaves rfl ..).bind fun _ _ hs => (checkOpr_leaves hs ..).bind fun _ _ hs => (checkInside_leaves hs ..).bind fun _ _ hs =>
    (checkInside_leaves hs ..).bind fun _ _ hs => (readIndices_leaves hs ..).bind fun _ _ hs =>
      unlessUses_startEngine_leaves _ _ hs

theorem cpyIn_leaves : (cpyIn x k s).Leaves s.mem :=
  (readOne_leaves rfl ..).bind fun _ _ hs => (checkOpr_leaves hs ..).bind fun _ _ hs => (checkInside_leaves hs ..).bind fun _ _ hs =>
    (checkRange_leaves hs ..).bind fun _ _ hs => unlessLeft_leaves hs _ _ _ (unlessUses_startEngine_leaves _ _ hs)

theorem cpyOut_leaves : (cpyOut x k s).Leaves s.mem :=
  (readOne_leaves rfl ..).bind fun _ _ hs => (checkOpr_leaves hs ..).bind fun _ _ hs => (checkInside_leaves hs ..).bind fun _ _ hs =>
    (checkRange_leaves hs ..).bind fun _ _ hs => unlessLeft_leaves hs _ _ _ ((readIndices_leaves hs ..).bind fun _ _ hs =>
      unlessUses_startEngine_leaves _ _ hs)

theorem tldIssue_leaves : (tldIssue x k s).Leaves s.mem :=
  (readOne_leaves rfl ..).bind fun _ _ hs => (checkOpr_leaves hs ..).bind fun _ _ hs => (checkInside_leaves hs ..).bind fun _ _ hs =>
    unlessUses_startEngine_leaves _ _ hs

theorem tstrIssue_leaves : (tstrIssue x k s).Leaves s.mem :=
  (readOne_leaves rfl ..).bind fun _ _ hs => (checkOpr_leaves hs ..).bind fun _ _ hs => (checkInside_leaves hs ..).bind fun _ _ hs =>
    (readIndices_leaves hs ..).bind fun _ _ hs => unlessUses_startEngine_leaves _ _ hs

theorem ldhIssue_leaves : (ldhIssue x k s).Leaves s.mem := by
  unfold ldhIssue
  dsimp only
  split
  · exact leaves_trap ..
  · refine (readOne_leaves rfl ..).bind fun a t ht => (checkOpr_leaves ht ..).bind fun _ t ht => (checkInside_leaves ht ..).bind
      fun _ t ht => ?_
    split
    · exact leaves_trap ..
    · split
      · exact leaves_trap ..
      · split
        · exact leaves_trap ..
        · exact unlessLeft_leaves ht _ _ _ (unlessUses_leaves ht _ _ ((startEngine_leaves _ _ ht).bind fun _ _ hs => leaves_ok hs))

end

/-! ### Collectives -/

theorem EndsOnly.mem {s t : State} (h : EndsOnly s t) : t.mem = s.mem := by rw [h]

theorem MessagesOnly.mem {s t : State} (h : MessagesOnly s t) : t.mem = s.mem := by rw [h]

theorem sendTo_messages (o : Coll) (vals : List Word) (rank : Nat) (s : State) : MessagesOnly s (sendTo o vals rank s) :=
  sendMsg_messages ..

theorem sendData_messages (o : Coll) (vals : List Word) (rank : Nat) (s : State) : MessagesOnly s (sendData o vals rank s) := by
  unfold sendData
  split
  · exact foldl_messages (f := fun s run => sendTo o run rank s) (fun _ _ => sendTo_messages ..) _ _
  · exact sendTo_messages ..

theorem collAdvance_mem (id : Nat) : ∀ (n : Nat) (s : State), (collAdvance id n s).mem = s.mem := by
  intro n
  induction n with
  | zero => intro s; rfl
  | succ n ih =>
    intro s
    unfold collAdvance
    split
    · rfl
    · rename_i o c _
      dsimp only
      split
      · rfl
      · split
        · exact (ih _).trans (foldl_messages (f := fun s r => sendData c c.acc r s) (fun _ _ => sendData_messages ..) _ _).mem
        · split
          · rfl
          · split
            · rfl
            · rw [ih]
              split
              · split
                · exact (sendTo_messages ..).mem
                · rfl
              · rfl

@[simp] theorem collLocal_mem (id : Nat) (elems : List Word) (s : State) : (collLocal id elems s).mem = s.mem := by
  unfold collLocal
  split
  · rfl
  · exact collAdvance_mem ..

@[simp] theorem abortColl_mem (id : Nat) (s : State) : (abortColl id s).mem = s.mem := (abortColl_ends id s).mem

@[simp] theorem refuseColl_mem (id : Nat) (s : State) : (refuseColl id s).mem = s.mem := by
  unfold refuseColl
  split
  · rfl
  · split
    · rfl
    · exact (tellEnd_messages ..).mem

theorem refuseRun_mem (o : EngineOp) (c : Coll) (rank n : Nat) (hint : BitVec 8) (s : State) : (refuseRun o c rank n hint s).mem = s.mem := by
  unfold refuseRun
  dsimp only
  split
  · rfl
  · simp

theorem takeMessage_mem (o : EngineOp) (c : Coll) (m : PeerMsg) (s : State) : (takeMessage o c m s).mem = s.mem := by
  unfold takeMessage
  cases m <;> simp [collAdvance_mem, refuseRun_mem]

theorem peerMessage_mem (session n : Nat) (m : PeerMsg) (s : State) : (peerMessage session n m s).mem = s.mem := by
  have hdead : (peerDead session n m s).mem = s.mem := by
    unfold peerDead
    exact foldl_mem (fun s (o : EngineOp) => abortColl_mem o.id s) _ _
  unfold peerMessage
  split
  · exact hdead
  · split
    · exact takeMessage_mem ..
    · simp

theorem startExchange_mem (id : Nat) (c : Coll) (s : State) : (startExchange id c s).mem = s.mem := by
  simp only [startExchange, ite_mem, abortColl_mem, ite_self]
  exact foldl_mem (f := fun s (x : Nat × Nat × PeerMsg) => peerMessage x.1 x.2.1 x.2.2 s) (fun _ _ => peerMessage_mem ..) _ _

theorem portDown_mem (port : Nat) (s : State) : (portDown port s).mem = s.mem := (portDown_ends port s).mem

section
variable (x : Ext) (k : Issue) (s : State)

theorem readTable_leaves {m : List Host.Cell} {s : State} (h : s.mem = m) (idx : Nat) : (readTable k idx s).Leaves m := by
  unfold readTable
  dsimp only
  split
  · exact leaves_ok h
  · refine (readAtIssue_leaves h ..).bind fun _ _ hs => ?_
    split
    · exact leaves_ok hs
    · exact (readAtIssue_leaves hs ..).bind fun _ _ hs => leaves_ok hs

theorem collIssue_leaves : (collIssue x k s).Leaves s.mem := by
  unfold collIssue
  refine (readTwo_leaves rfl ..).bind fun ab t ht => Try.Leaves.bind ?table fun ent t ht => ?_
  case table =>
    split
    · exact leaves_ok ht
    · exact readTable_leaves _ ht _
  dsimp only
  split
  · exact (checkOpr_leaves ht ..).bind fun _ _ hs => leaves_ok hs
  · refine (checkOpr_leaves ht ..).bind fun _ _ hs => (checkInside_leaves hs ..).bind fun _ _ hs => (checkInside_leaves hs ..).bind
      fun _ _ hs => (readIndices_leaves hs ..).bind fun _ _ hs => unlessUses_leaves hs _ _ ((startEngine_leaves _ _ hs).bind
        fun _ _ hs => leaves_ok ?_)
    rw [startExchange_mem]
    exact (foldl_messages (f := fun s r => sendTo _ _ r s) (fun _ _ => sendTo_messages ..) _ _).mem.trans hs

end

end Sys2Proof.Machine
end

section
namespace Sys2Proof.Machine

open Sys2Proof Sys2Proof.Num

/-! ## What keeps the canonical form (O59): engine operations and handlers -/

theorem modEngine_mem (s : State) (id : Nat) (f : EngineOp → EngineOp) : (s.modEngine id f).mem = s.mem := rfl

theorem inv_modEngine {s : State} (hs : s.Inv) (id : Nat) (f : EngineOp → EngineOp) : (s.modEngine id f).Inv :=
  inv_of_mem (modEngine_mem ..) hs

theorem inv_modGroup {s : State} (hs : s.Inv) (gi : Nat) (f : Group → Group) : (s.modGroup gi f).Inv :=
  inv_of_mem (modGroup_mem ..) hs

@[simp] theorem afterRead_mem (id : Nat) (s : State) : (afterRead id s).mem = s.mem := by
  unfold afterRead
  dsimp only
  split
  · rfl
  · split
    · rfl
    · simp

theorem readTile_mem (o : EngineOp) (t : Nat) (s : State) : (readTile o t s).mem = s.mem := by
  unfold readTile
  dsimp only
  split
  · rfl
  · simp

theorem readSpad_mem (o : EngineOp) (v : Nat) (s : State) : (readSpad o v s).mem = s.mem := by simp [readSpad]

theorem readMem_mem (o : EngineOp) (v : Nat) (s : State) : (readMem o v s).mem = s.mem := by
  unfold readMem
  dsimp only
  split
  · rfl
  · split
    · split
      · rfl
      · split
        · rename_i hclaim
          exact (modEngine_mem ..).trans (claimNow_mem hclaim)
        · rfl
    · simp
    · simp
    · rfl

theorem sound_engineSectorRead {s : State} (hs : s.Inv) (op sector : Nat) : Sound (execEngineSectorRead op sector s) := by
  refine sound_next (inv_of_mem ?_ hs)
  split
  · rfl
  · split
    · rfl
    · split
      · split
        · split
          · rfl
          · exact readTile_mem ..
        · rfl
      · split
        · rw [afterRead_mem, readSpad_mem]
        · rw [afterRead_mem, readMem_mem]

/-- A write of window bytes leaves memory as it is. -/
theorem foldl_winPut_mem (cn pa : Nat) (bs : List (Byte × Nat)) (s : State) :
    (bs.foldl (fun s b => winPut s cn (pa + b.2) b.1) s).mem = s.mem := by
  induction bs generalizing s with
  | nil => rfl
  | cons b bs ih => rw [List.foldl_cons, ih, winPut_mem]

theorem foldl_hostPut_mem (cn pa : Nat) (bs : List (Byte × Nat)) (s : State) :
    (bs.foldl (fun s b => s.hostPut cn (pa + b.2) b.1) s).mem = s.mem :=
  foldl_mem (f := fun s (b : Byte × Nat) => s.hostPut cn (pa + b.2) b.1) (fun _ _ => rfl) _ _

theorem foldl_spadPut_mem (bi a : Nat) (bs : List (Byte × Nat)) (s : State) :
    (bs.foldl (fun s b => s.spadPut bi (a + b.2) b.1) s).mem = s.mem :=
  foldl_mem (f := fun s (b : Byte × Nat) => s.spadPut bi (a + b.2) b.1) (fun _ _ => rfl) _ _

theorem inv_writeMem (o : EngineOp) (v : Nat) {s : State} (hs : s.Inv) : (writeMem o v s).Inv := by
  unfold writeMem
  split
  · exact hs
  · extract_lets finish
    split
    · split
      · exact hs
      · split
        · exact hs
        · rename_i hclaim
          exact inv_modEngine (inv_of_mem (wakeEvents_mem ..) (inv_memPutBytes _ _ (inv_of_mem (claimNow_mem hclaim) hs))) _ _
    · split
      · exact hs
      · exact inv_modEngine (inv_of_mem (foldl_hostPut_mem ..) hs) _ _
    · split
      · exact hs
      · exact inv_modEngine (inv_wakeWindow _ _ _ _ (inv_of_mem (foldl_winPut_mem ..) hs)) _ _
    · exact hs

theorem inv_writeSpad (o : EngineOp) (v : Nat) {s : State} (hs : s.Inv) : (writeSpad o v s).Inv := by
  have hput (bs : List (Byte × Nat)) (f : EngineOp → EngineOp) :
      ((bs.foldl (fun s b => s.spadPut o.block (32 * v + b.2) b.1) s).modEngine o.id f).Inv :=
    inv_modEngine (inv_of_mem (foldl_spadPut_mem ..) hs) _ _
  unfold writeSpad
  split
  · exact hs
  · dsimp only
    split
    · exact inv_wakeIfFilled _ _ _ (inv_of_mem (linePut_mem ..) (hput _ _))
    · exact hput _ _

theorem sound_engineSectorWrite {s : State} (hs : s.Inv) (op sector : Nat) : Sound (execEngineSectorWrite op sector s) := by
  refine sound_next ?_
  split
  · exact hs
  · split
    · exact hs
    · split
      · exact inv_writeSpad _ _ hs
      · exact inv_writeMem _ _ hs

theorem inv_writeEvent (o : EngineOp) (line : Nat) (tag : Word) {s : State} (hs : s.Inv) : (writeEvent o line tag s).Inv :=
  inv_wakeIfFilled _ _ _ (inv_of_mem (linePut_mem ..) (inv_modEngine (inv_of_mem (foldl_spadPut_mem ..) hs) _ _))

theorem endEngine_mem (o : EngineOp) (faults : List PendingFault) (s : State) : (endEngine o faults s).mem = s.mem := by
  rw [endEngine_only]

theorem inv_completeEngine (id : Nat) {s : State} (hs : s.Inv) : (completeEngine id s).Inv := by
  have hend (o : EngineOp) (faults : List PendingFault) {t : State} (ht : t.Inv) : (endEngine o faults t).Inv :=
    inv_of_mem (endEngine_mem ..) ht
  unfold completeEngine
  split
  · exact hs
  · split
    · exact hs
    · split
      · split
        · exact inv_of_mem (afterRead_mem ..) hs
        · exact hs
      · dsimp only
        split
        · split
          · exact hend _ _ hs
          · exact hs
        · split
          · exact hend _ _ hs
          · exact hs
        · split
          · exact hend _ _ (inv_modGroup hs _ _)
          · exact hs
        · split
          · refine hend _ _ ?_
            split
            · exact inv_writeEvent _ _ _ hs
            · exact hs
          · exact hs
        · split
          · exact hend _ _ hs
          · exact hs

theorem dropUnperformed_mem (id : Nat) (s : State) : (dropUnperformed id s).mem = s.mem := by rw [dropUnperformed_halt id s]

@[simp] theorem deliverToUser_mem (gi : Nat) (f : PendingFault) (s : State) : (deliverToUser gi f s).mem = s.mem := by
  unfold deliverToUser
  split
  · split
    · exact (takeTrap_mem ..).trans (dropUnperformed_mem ..)
    · rfl
  · rfl

theorem deliverToLane_mem (gi line : Nat) (s : State) : (deliverToLane gi line s).mem = s.mem := by
  unfold deliverToLane
  split
  · exact deliverToUser_mem ..
  · rfl

theorem sound_engineFault {s : State} (hs : s.Inv) (op : Nat) : Sound (execEngineFault op s) := by
  refine sound_next (inv_of_mem ?_ hs)
  split
  · rfl
  · split
    · rfl
    · split
      · rfl
      · exact (deliverToUser_mem ..).trans (endEngine_mem ..)

theorem sound_handlerBirth {s : State} (hs : s.Inv) (op : Nat) : Sound (execHandlerBirth op s) := by
  refine sound_next (inv_of_mem ?_ hs)
  split
  · rfl
  · split
    · split
      · rfl
      · split
        · rfl
        · split <;> rfl
    · rfl

theorem inv_endHandler (gi : Nat) (h : HandlerId) {s : State} (hs : s.Inv) : (endHandler gi h s).Inv := by
  unfold endHandler
  split
  · exact hs
  · extract_lets fl s1 s2 s3
    have hs3 : s3.Inv := inv_modEngine (inv_modGroup (inv_modGroup hs _ _) _ _) _ _
    split
    · exact hs3
    · split
      · split
        · exact inv_writeEvent _ _ _ hs3
        · exact hs3
      · exact hs3

theorem sound_hend {s : State} (hs : s.Inv) : Sound (execHend s) := by
  refine sound_runInstr hs fun k => ?_
  split
  · exact inv_of_mem (trapAt_mem ..) hs
  · split
    · exact inv_of_mem rfl hs
    · split
      · exact inv_of_mem (stopHandler_mem ..) hs
      · dsimp only
        split
        · exact inv_endHandler _ _ (inv_modGroup hs _ _)
        · exact inv_modGroup hs _ _

/-! ### The performance of lane accesses -/

theorem inv_performEvent (store : Bool) (id lane : Nat) {s : State} (hs : s.Inv) : (performEvent store id lane s).Inv := by
  unfold performEvent
  split
  · exact hs
  · split
    · exact hs
    · split
      · split
        · exact inv_of_mem (deliverToLane_mem ..) (inv_takePlace _ _ hs)
        · exact inv_takePlace _ _ hs
      · exact hs

/-! ### Remote writes -/

theorem inv_putRun (cn : Nat) (sp : Space) (pa : Nat) (bs : List (Byte × Nat)) {s : State} (hs : s.Inv) :
    (bs.foldl (fun s b => spacePut s cn 0 sp (pa + b.2) b.1) s).Inv :=
  foldl_keeps State.Inv _ (fun _ b h => inv_spacePut cn 0 sp (pa + b.2) b.1 h) _ _ hs

theorem inv_remoteWrite {port cn : Nat} {va : DWord} {bytes : List Byte} {s u : State} (h : remoteWrite port cn va bytes s = some u)
    (hs : s.Inv) : u.Inv := by
  unfold remoteWrite at h
  extract_lets v done at h
  have hdone {t : State} (ht : t.Inv) : (done t).Inv := inv_of_mem rfl ht
  split at h
  · split at h
    · cases h
    · dsimp only at h
      split at h
      · obtain ⟨t, hclaim, rfl⟩ := Option.map_eq_some_iff.mp h
        exact hdone (inv_of_mem (wakeEvents_mem ..) (inv_memPutBytes _ _ (inv_of_mem (claimNow_mem hclaim) hs)))
      · cases h
        exact hdone (inv_wakeWindow _ _ _ _ (inv_putRun _ _ _ _ hs))
      · cases h
        exact hdone (inv_putRun _ _ _ _ hs)
  · cases h

theorem inv_remoteAnswer {port cn : Nat} {va : DWord} {bytes : List Byte} {s u : State}
    (h : remoteAnswer port cn va bytes s = .done u) (hs : s.Inv) : u.Inv := by
  have hdone (ho : ((remoteWrite port cn va bytes s).map RemoteAnswer.done).getD .waits = .done u) : u.Inv := by
    rcases hw : remoteWrite port cn va bytes s with _ | t
    · simp [hw] at ho
    · obtain rfl : t = u := by simpa [hw] using ho
      exact inv_remoteWrite hw hs
  unfold remoteAnswer at h
  split at h
  · cases h
  · split at h
    · exact hdone h
    · cases h
  · exact hdone h
  · cases h

theorem remoteWaits_mem (port cn : Nat) (va : DWord) (s : State) : (remoteWaits port cn va s).mem = s.mem := by
  unfold remoteWaits
  split
  · exact openDrain_mem ..
  · rfl

theorem sound_remoteWrite {s : State} (hs : s.Inv) (port cn : Nat) (va : DWord) (bytes : List Byte) :
    Sound (execRemoteWrite port cn va bytes s) := by
  refine sound_next ?_
  split
  · exact hs
  · have hcount : (s.countFlit (.port port) true).Inv := inv_of_mem (countFlit_mem ..) hs
    dsimp only
    split
    · exact inv_remoteAnswer ‹_› hcount
    · exact hcount
    · exact inv_of_mem ((remoteWaits_mem ..).trans rfl) hcount
    · exact inv_of_mem rfl hcount

theorem sound_remoteRetry {s : State} (hs : s.Inv) (port cn : Nat) (va : DWord) (bytes : List Byte) (refusals : Nat) :
    Sound (execRemoteRetry port cn va bytes refusals s) := by
  refine sound_next ?_
  split
  · exact hs
  · extract_lets drop
    have hdrop {t : State} (ht : t.Inv) : (drop t).Inv := inv_of_mem rfl ht
    split
    · exact hs
    · split
      · exact hdrop (inv_remoteAnswer ‹_› hs)
      · exact inv_of_mem (remoteWaits_mem ..) hs
      · exact hdrop hs
      · split
        · exact hdrop hs
        · exact inv_of_mem rfl hs

end Sys2Proof.Machine
end

section
namespace Sys2Proof.Machine

open Sys2Proof Sys2Proof.Num

/-! ## What leaves memory as it is (O59): control, channels, the matrix queues and the Orbit -/

theorem lateRead_mem (k : Issue) (kind : LateKind) (x : Ext) (wide : Bool) (s : State) : (lateRead k kind x wide s).mem = s.mem := rfl

@[simp] theorem chanWrite_mem (c : Channel) (ws : List Word) (s : State) : (chanWrite c ws s).mem = s.mem := rfl

@[simp] theorem modChannel_mem (s : State) (li ch : Nat) (f : Channel → Channel) : (s.modChannel li ch f).mem = s.mem := rfl

@[simp] theorem trapChan_mem (x : Ext) (k : Issue) (s : State) : (trapChan x k s).mem = s.mem := trapAt_mem ..

@[simp] theorem waitChan_mem (k : Issue) (w : Wait) (s : State) : (waitChan k w s).mem = s.mem := rfl

@[simp] theorem enqueue_mem (i : Instr) (k : Issue) (vals : List Word) (uniB : DWord) (lines holds : List (Nat × Nat)) (s : State) :
    (enqueue i k vals uniB lines holds s).mem = s.mem := rfl

theorem issueMatrix_mem (i : Instr) (k : Issue) (bad : Bool) (vals : List Word) (uniB : DWord) (holds : List (Nat × Nat)) (s : State) :
    (issueMatrix i k bad vals uniB holds s).mem = s.mem := by
  unfold issueMatrix
  dsimp only
  split
  · rfl
  · exact deliverOr_mem k _ (by simp)

theorem mmagBody_mem (x : Ext) (k : Issue) (s : State) : (mmagBody x k s).mem = s.mem := by
  simp [mmagBody]

@[simp] theorem issueOrbit_mem (k : Issue) (o : OrbitOp) (s : State) : (issueOrbit k o s).mem = s.mem := rfl

theorem orbitBody_mem (kind : OrbKind) (x : Ext) (k : Issue) (s : State) : (orbitBody kind x k s).mem = s.mem := by
  simp [orbitBody]

section
variable {s : State} (hs : s.Inv)
include hs

theorem sound_brdec (x : Ext) : Sound (execBrdec x s) :=
  sound_runInstr_mem hs fun k => by simp

theorem sound_srd (x : Ext) : Sound (execSrd x s) :=
  sound_runInstr_mem hs fun k => by simp [lateRead_mem]

theorem sound_swr (x : Ext) : Sound (execSwr x s) := by
  refine sound_runInstr_mem hs fun k => ?_
  dsimp only
  split <;> simp

theorem sound_flags (x : Ext) : Sound (execFlags x s) :=
  sound_runInstr_mem hs fun k => by simp

theorem sound_clockRead (i : Instr) (x : Ext) (kind : LateKind) : Sound (clockRead i x kind s) :=
  sound_runInstr_mem hs fun k => by simp [lateRead_mem]

theorem sound_sleep (x : Ext) : Sound (execSleep x s) :=
  sound_runInstr_mem hs fun k => by simp

theorem sound_trap (x : Ext) : Sound (execTrap x s) :=
  sound_runInstr_mem hs fun k => by simp

theorem sound_svc (x : Ext) : Sound (execSvc x s) :=
  sound_runInstr_mem hs fun k => by simp

theorem sound_bkpt (gd : Guard) (code : BitVec 8) : Sound (execBkpt gd code s) :=
  sound_runInstr_mem hs fun k => by simp

theorem sound_unimp (w0 : Word) : Sound (execUnimp w0 s) :=
  sound_runInstr_mem hs fun k => by simp

theorem sound_waitc (gd : Guard) (t c st l : BitVec 4) : Sound (execWaitc gd t c st l s) :=
  sound_runInstr_mem hs fun k => by simp

theorem sound_bar (x : Ext) : Sound (execBar x s) :=
  sound_runInstr_mem hs fun k => arithOr_mem k (by simp [arriveAt_mem])

theorem sound_cbar (x : Ext) : Sound (execCbar x s) := by
  refine sound_runInstr_mem hs fun k => ?_
  split
  · exact trapAt_mem ..
  · exact arithOr_mem k (by simp [arriveAt_mem])

theorem sound_exit (gd : Guard) : Sound (execExit gd s) := by
  refine sound_runInstr_mem hs fun k => ?_
  split
  · rfl
  · refine exitCheck_mem k ?_
    simp [releaseBarriers_mem]

theorem sound_chsend (x : Ext) : Sound (execChsend x s) := by
  refine sound_runInstr_mem hs fun k => ?_
  split
  · rfl
  · split <;> simp

theorem sound_chrecv (x : Ext) : Sound (execChrecv x s) := by
  refine sound_runInstr_mem hs fun k => ?_
  split
  · rfl
  · split <;> simp

theorem sound_chpeek (x : Ext) : Sound (execChpeek x s) := by
  refine sound_runInstr_mem hs fun k => ?_
  dsimp only
  split
  · rfl
  · split <;> simp

theorem sound_mcarry (x : Ext) : Sound (execMcarry x s) := by
  refine sound_runInstr_mem hs fun k => ?_
  split <;> exact issueMatrix_mem ..

/-- A matrix instruction that enters the queue. -/
theorem sound_matrix {i : Instr} {gd : Guard} (bad : Issue → State → Bool) (vals : Issue → State → List Word)
    (uniB : Issue → State → DWord) (holds : List (Nat × Nat)) :
    Sound (runInstr i gd (fun k s => issueMatrix i k (bad k s) (vals k s) (uniB k s) holds s) s) :=
  sound_runInstr_mem hs fun _ => issueMatrix_mem ..

theorem sound_orbit (i : Instr) (kind : OrbKind) (x : Ext) : Sound (runInstr i x.guard (orbitBody kind x) s) :=
  sound_runInstr_mem hs (orbitBody_mem kind x · s)

theorem sound_oboard (x : Ext) : Sound (execOboard x s) :=
  sound_runInstr_mem hs fun k => by simp

theorem sound_unpack (x : Ext) : Sound (execUnpack x s) :=
  sound_runInstr_mem hs fun _ => rfl

theorem sound_yield (gd : Guard) : Sound (execYield gd s) :=
  sound_runInstr_mem hs fun k => by simp

end

/-! ### Matrix entries -/

theorem matrixEntryStart_mem {die core : Nat} {s t : State} (h : execMatrixEntryStart die core s = .next t) : t.mem = s.mem := by
  obtain rfl := Host.Outcome.next.inj h
  split
  · rfl
  · split
    · rfl
    · split
      · rfl
      · dsimp only
        split <;> rfl

theorem matrixEntryComplete_mem {die core : Nat} {s t : State} (h : execMatrixEntryComplete die core s = .next t) :
    t.mem = s.mem := by
  obtain rfl := Host.Outcome.next.inj h
  split
  · rfl
  · split
    · rfl
    · split <;> rfl

theorem mmagCancel_mem {die core : Nat} {s t : State} (h : execMmagCancel die core s = .next t) : t.mem = s.mem := by
  obtain rfl := Host.Outcome.next.inj h
  split
  · rfl
  · split <;> rfl

/-! ### Engine instructions -/

theorem sound_coll {s : State} (hs : s.Inv) (x : Ext) : Sound (execColl x s) := by
  refine sound_runInstr_mem hs fun k => ?_
  split
  · rfl
  · exact endTry_mem k (collIssue_leaves ..)

@[simp] theorem deliverTile_mem (x : Ext) (k : Issue) {body : State → State} {s : State} (h : (body s).mem = s.mem) :
    (deliverTile x k body s).mem = s.mem := deliverOr_mem k _ h

theorem sound_cpy {s : State} (hs : s.Inv) (x : Ext) : Sound (execCpy x s) := by
  refine sound_runInstr_mem hs fun k => ?_
  split
  · rfl
  · refine endTry_mem k ?_
    split
    · exact cpyGlobal_leaves ..
    · exact cpyIn_leaves ..
    · exact cpyOut_leaves ..

theorem sound_tld {s : State} (hs : s.Inv) (x : Ext) : Sound (execTld x s) := by
  refine sound_runInstr_mem hs fun k => ?_
  split
  · rfl
  · exact deliverTile_mem x k (endTry_mem k (tldIssue_leaves ..))

theorem sound_tstr {s : State} (hs : s.Inv) (x : Ext) : Sound (execTstr x s) := by
  refine sound_runInstr_mem hs fun k => ?_
  split
  · rfl
  · exact deliverTile_mem x k (endTry_mem k (tstrIssue_leaves ..))

theorem sound_ldh {s : State} (hs : s.Inv) (x : Ext) : Sound (execLdh x s) := by
  refine sound_runInstr_mem hs fun k => ?_
  split
  · rfl
  · exact endTry_mem k (ldhIssue_leaves ..)

/-! ### Passes of the Orbit -/

theorem passNamed_mem (o : OrbitOp) (s : State) : (passNamed o s).mem = s.mem := by
  unfold passNamed
  dsimp only
  split
  · rfl
  · exact takeTrap_mem ..

theorem passBoard_mem (o : OrbitOp) (track pc : Nat) (s : State) : (passBoard o track pc s).mem = s.mem := by
  unfold passBoard
  dsimp only
  split <;> rfl

theorem orbitPass_mem (id : Nat) (s : State) : (orbitPass id s).mem = s.mem := by
  unfold orbitPass
  split
  · rfl
  · split
    · rfl
    · split
      · exact passBoard_mem ..
      · exact passNamed_mem ..

theorem oboardTimeout_mem (id : Nat) (s : State) : (oboardTimeout id s).mem = s.mem := by
  unfold oboardTimeout
  split
  · rfl
  · split
    · split <;> rfl
    · rfl

theorem orbitCycle_mem (s : State) : (orbitCycle s).mem = s.mem := by
  unfold orbitCycle
  split
  · rfl
  · exact foldl_mem (fun s (o : OrbitOp) => (oboardTimeout_mem ..).trans (orbitPass_mem o.id s)) _ _

end Sys2Proof.Machine
end

section
namespace Sys2Proof.Machine

open Sys2Proof Sys2Proof.Num

/-! ## What leaves memory as it is (O59): the schedule and firmware -/

theorem ScheduleOnly.mem {s t : State} (h : ScheduleOnly s t) : t.mem = s.mem := by rw [h.1]

theorem HaltOnly.mem {s t : State} (h : HaltOnly s t) : t.mem = s.mem := by rw [h]

theorem KillFrame.mem {s t : State} (h : KillFrame s t) : t.mem = s.mem := by rw [h]

theorem LogsOnly.mem {s t : State} (h : LogsOnly s t) : t.mem = s.mem := by rw [h]

@[simp] theorem modBlock_mem (s : State) (bi : Nat) (f : Block → Block) : (s.modBlock bi f).mem = s.mem := rfl

@[simp] theorem modLaunch_mem (s : State) (li : Nat) (f : Launch → Launch) : (s.modLaunch li f).mem = s.mem := rfl

@[simp] theorem post_mem (s : State) (a : FwAccess) : (s.post a).mem = s.mem := rfl

@[simp] theorem mapPage_mem (cn va : Nat) (s : State) : (mapPage cn va s).mem = s.mem := rfl

@[simp] theorem killCtx_mem (cn sub : Nat) (s : State) : (killCtx cn sub s).mem = s.mem :=
  (killCtx_effect (P := fun _ => True) trivial sub s).frame.mem

theorem killPart_mem (p sub : Nat) (s : State) : (killPart p sub s).mem = s.mem :=
  (killPart_effect (P := fun _ => True) sub fun _ _ _ => trivial).frame.mem

@[simp] theorem stopGroups_mem (gis : List Nat) (s : State) : (stopGroups gis s).mem = s.mem := (stopGroups_halt gis s).mem

theorem declineReplay_mem (gi si : Nat) (g : Group) (p : Split) (va : DWord) (s : State) :
    (declineReplay gi si g p va s).mem = s.mem :=
  (takeTrap_mem ..).trans (dropParkedAt_mem ..)

section
variable {s : State} (hs : s.Inv)
include hs

theorem sound_joinTimeout (gi si : Nat) : Sound (execJoinTimeout gi si s) := by
  refine sound_next (inv_of_mem ?_ hs)
  split
  · rfl
  · split
    · rfl
    · split <;> rfl

theorem sound_splitDormant (gi si : Nat) : Sound (execSplitDormant gi si s) := by
  refine sound_next (inv_of_mem ?_ hs)
  split
  · rfl
  · split
    · rfl
    · split <;> rfl

theorem sound_splitActivate (gi : Nat) : Sound (execSplitActivate gi s) := by
  refine sound_next (inv_of_mem ?_ hs)
  split
  · rfl
  · split
    · rfl
    · dsimp only
      split <;> rfl

theorem sound_sleepWake (gi si : Nat) : Sound (execSleepWake gi si s) := by
  refine sound_next (inv_of_mem ?_ hs)
  split <;> rfl

theorem sound_barrierWatchdog (bi id : Nat) : Sound (execBarrierWatchdog bi id s) := by
  refine sound_next (inv_of_mem ?_ hs)
  dsimp only
  split
  · rfl
  · refine (modBlock_mem ..).trans (foldl_mem (fun t w => ?_) _ _)
    split
    · exact takeTrap_mem ..
    · rfl

theorem sound_emptyLineTimeout (acc : Nat) : Sound (execEmptyLineTimeout acc s) := by
  refine sound_next (inv_of_mem ?_ hs)
  split
  · rfl
  · split
    · rfl
    · split
      · rfl
      · exact (takeTrap_mem ..).trans (dropUnperformed_mem ..)

theorem sound_pageFaultService (gi si : Nat) (ans : PageAnswer) : Sound (execPageFaultService gi si ans s) := by
  refine sound_next (inv_of_mem ?_ hs)
  split
  · rfl
  · split
    · split
      · rfl
      · cases ans <;> rfl
    · split
      · rfl
      · split
        · cases ans
          · rfl
          · dsimp only
            split
            · exact declineReplay_mem ..
            · rfl
        · rfl

theorem sound_drainRequest (granule : Nat) (holder : Agent) : Sound (execDrainRequest granule holder s) := by
  refine sound_next (inv_of_mem ?_ hs)
  dsimp only
  split
  · rfl
  · split
    · rfl
    · split
      · exact drainHolders_mem ..
      · rfl

theorem sound_drainPoint (granule : Nat) : Sound (execDrainPoint granule s) := by
  refine sound_next (inv_of_mem ?_ hs)
  dsimp only
  split
  · rfl
  · split
    · rfl
    · split
      · exact (setGranule_mem ..).trans (drainHolders_mem ..)
      · rfl

end

/-! ### Firmware's reads and answers -/

/-- What firmware does once it has read, where what it does keeps the canonical form of the memory that it then finds. -/
theorem inv_fwRead {rs : List FwRun} {body : State → State} {s : State} (hs : s.Inv) (hbody : ∀ t : State, t.Inv → (body t).Inv) :
    (fwRead rs body s).Inv := by
  unfold fwRead
  split
  · rename_i ht
    exact hbody _ (inv_of_mem (fwTouch_mem ht) hs)
  · split
    · exact inv_of_mem (foldl_mem (f := fun s (r : FwRun) => s.post (.load r.1 r.2.1 r.2.2)) (fun _ _ => rfl) _ _) hs
    · exact hs

/-- A command on a context. -/
theorem sound_onCtx {c : Cmd} {ok : Bool} {body : Ctx → State → State} {s : State} (hs : s.Inv)
    (hbody : ∀ x, (body x s).Inv) : Sound (onCtx c ok body s) := by
  refine sound_next ?_
  split
  · exact inv_of_mem (complete_mem ..) hs
  · split
    · exact inv_of_mem (complete_mem ..) hs
    · exact hbody _

theorem sound_onCtx_mem {c : Cmd} {ok : Bool} {body : Ctx → State → State} {s : State} (hs : s.Inv)
    (hbody : ∀ x, (body x s).mem = s.mem) : Sound (onCtx c ok body s) :=
  sound_onCtx hs fun x => inv_of_mem (hbody x) hs

@[simp] theorem signalDone_mem (l : Launch) (status reason : Nat) (s : State) : (signalDone l status reason s).mem = s.mem := by
  unfold signalDone
  split <;> rfl

@[simp] theorem endLaunch_mem (li : Nat) (ph : Phase) (s : State) : (endLaunch li ph s).mem = s.mem := by
  unfold endLaunch
  split
  · rfl
  · dsimp only
    split <;> exact signalDone_mem ..

theorem syncBlocks_mem (before s : State) : (syncBlocks before s).mem = s.mem :=
  foldl_mem (fun t c => by simp) _ _

theorem writeTrace_mem (e : TraceEv) (s : State) : (writeTrace e s).mem = s.mem := by
  unfold writeTrace
  split
  · rfl
  · dsimp only
    split <;> rfl

theorem traceStep_mem (before s : State) : (traceStep before s).mem = s.mem := by
  unfold traceStep
  split
  · rfl
  · exact foldl_mem (fun t e => writeTrace_mem e t) _ _

/-! ### Save areas and blocks -/

theorem writeSave_mem (bi : Nat) (s : State) : (writeSave bi s).mem = s.mem := by
  unfold writeSave
  split
  · rfl
  · split
    · rfl
    · exact (fwStore_mem ..).trans (foldl_mem (fun t x => by simp) _ _)

@[simp] theorem spoilSave_mem (cn : Nat) (area : DWord) (s : State) : (spoilSave cn area s).mem = s.mem := rfl

/-- A fold of a state and a place in the save area. -/
theorem foldl_fst_mem {α : Type} {f : State × Nat → α → State × Nat} (hf : ∀ acc a, (f acc a).1.mem = acc.1.mem) (l : List α)
    (acc : State × Nat) : (l.foldl f acc).1.mem = acc.1.mem :=
  foldl_keeps (fun b : State × Nat => b.1.mem = acc.1.mem) f (fun b a h => (hf b a).trans h) l acc rfl

theorem restoreChannels_mem (rd : Nat → Byte) (off : Nat) (b : Block) (s : State) : (restoreChannels rd off b s).mem = s.mem := by
  unfold restoreChannels
  extract_lets cs byte t mine
  have ht : t.mem = s.mem := foldl_mem (f := fun s (x : Channel × Nat) => s.modChannel b.launch x.1.num _) (fun _ _ => rfl) _ _
  refine (foldl_fst_mem (fun _ _ => ?_) mine (t, off + 16 * cs.length)).trans ht
  exact modBlock_mem ..

theorem writeGroup_mem (gi : Nat) (s : State) : (writeGroup gi s).mem = s.mem := by
  unfold writeGroup
  split
  · rfl
  · exact foldl_mem (fun t x => fwStore_mem ..) _ _

theorem readSave_mem (bi : Nat) (s : State) : (readSave bi s).mem = s.mem := by
  unfold readSave
  split
  · rfl
  · split
    · rfl
    · exact (restoreChannels_mem ..).trans rfl

theorem startBlock_mem (li lin die : Nat) (place : Placement) (s : State) : (startBlock li lin die place s).mem = s.mem := by
  unfold startBlock
  split <;> rfl

theorem haltBlock_mem (bi : Nat) (s : State) : (haltBlock bi s).mem = s.mem :=
  (modBlock_mem ..).trans (foldl_mem (fun t gi => (haltGroup_halt gi t).mem) _ _)

theorem saveBlock_mem (bi : Nat) (s : State) : (saveBlock bi s).mem = s.mem :=
  (writeSave_mem ..).trans (haltBlock_mem ..)

theorem reseatBlock_mem (bi die : Nat) (place : Placement) (s : State) : (reseatBlock bi die place s).mem = s.mem := by
  unfold reseatBlock
  split <;> rfl

theorem resumeBlock_mem (bi die : Nat) (place : Placement) (oldDie : Nat) (old : List Nat) (s : State) :
    (resumeBlock bi die place oldDie old s).mem = s.mem := by
  unfold resumeBlock
  split
  · rfl
  · exact reseatBlock_mem ..

theorem startAll_mem (li : Nat) (c : Ctx) : ∀ (ps : List (Nat × Placement)) (s : State), (startAll li c ps s).mem = s.mem
  | [], _ => rfl
  | (_, _) :: rest, _ => (startAll_mem li c rest _).trans (startBlock_mem ..)

theorem admitHead_mem (part prio cn qn li : Nat) (l : Launch) (c : Ctx) (s : State) :
    (admitHead part prio cn qn li l c s).mem = s.mem := by
  unfold admitHead
  extract_lets pop
  split
  · exact endLaunch_mem ..
  · split
    · rfl
    · exact startAll_mem ..

theorem channelWaiters_mem (li lin : Nat) (s : State) : (channelWaiters li lin s).mem = s.mem := by
  refine foldl_mem (fun t x => foldl_mem (fun u p => ?_) _ _) _ _
  dsimp only
  split
  · exact takeTrap_mem ..
  · rfl

section
variable {s : State} (hs : s.Inv)
include hs

theorem sound_blockStart (li lin : Nat) (place : Placement) : Sound (execBlockStart li lin place s) := by
  refine sound_next ?_
  split
  · exact hs
  · split
    · exact hs
    · split
      · dsimp only
        split
        · exact inv_fwRead hs fun t ht => inv_of_mem ((readSave_mem ..).trans (resumeBlock_mem ..)) ht
        · exact hs
      · dsimp only
        split
        · exact inv_of_mem (startBlock_mem ..) hs
        · exact hs

theorem sound_launchAdmission (part : Nat) : Sound (execLaunchAdmission part s) := by
  refine sound_next ?_
  split
  · exact hs
  · refine inv_fwRead hs fun t ht => ?_
    split
    · exact ht
    · split
      · exact inv_fwRead ht fun u hu => inv_of_mem (admitHead_mem ..) hu
      · exact ht

theorem sound_blockComplete (bi : Nat) : Sound (execBlockComplete bi s) := by
  refine sound_next (inv_of_mem ?_ hs)
  split
  · rfl
  · split
    · rfl
    · extract_lets s1 s2 s3
      have h3 : s3.mem = s.mem := channelWaiters_mem ..
      split
      · exact h3
      · split
        · exact (endLaunch_mem ..).trans h3
        · exact h3

theorem sound_blockPreemption (bi : Nat) : Sound (execBlockPreemption bi s) := by
  refine sound_next (inv_of_mem ?_ hs)
  split
  · rfl
  · split
    · rfl
    · split
      · split <;> rfl
      · have h : (stopGroups (s.haltGroups (s.blockGroups bi)) (s.modBlock bi (fun b => { b with stopped := true }))).mem = s.mem :=
          stopGroups_mem ..
        dsimp only
        split
        · exact (modBlock_mem ..).trans ((saveBlock_mem ..).trans h)
        · exact h

theorem sound_migration (bi : Nat) (place : Placement) : Sound (execMigration bi place s) := by
  refine sound_next (inv_of_mem ?_ hs)
  split
  · rfl
  · split
    · rfl
    · have h : (stopGroups (s.haltGroups (s.blockGroups bi)) (s.modBlock bi (fun b => { b with stopped := true }))).mem = s.mem :=
        stopGroups_mem ..
      dsimp only
      split
      · exact (resumeBlock_mem ..).trans ((haltBlock_mem ..).trans h)
      · exact h

end

end Sys2Proof.Machine
end

section
namespace Sys2Proof.Machine

open Sys2Proof Sys2Proof.Num

/-! ## What keeps the canonical form (O59): commands -/

/-! ### Translations -/

theorem appendLog_mem (dies : List Nat) (va pages psize kind cn : Nat) (s : State) :
    (appendLog dies va pages psize kind cn s).mem = s.mem := by
  unfold appendLog
  extract_lets ds s1 e s2
  have h1 : s1.mem = s.mem := by
    rw [show s1 = if _ then _ else _ from rfl, ite_mem, (applyLogs_only ..).mem, ite_self]
  exact (foldl_mem (f := fun s d => let l := s.dieLog d; s.setDieLog { l with entries := l.entries ++ [e] }) (fun _ _ => rfl) _ _).trans h1

theorem sound_logApply {s : State} (hs : s.Inv) (c : Cmd) (dies : List Nat) : Sound (execLogApply c dies s) := by
  refine sound_next (inv_of_mem ?_ hs)
  split
  · exact complete_mem ..
  · exact (complete_mem ..).trans (applyLogs_only ..).mem

theorem inv_complete (c : Cmd) (status : Nat) (value : DWord) {s : State} (hs : s.Inv) : (complete c status value s).Inv :=
  inv_of_mem (complete_mem ..) hs

theorem sound_map {s : State} (hs : s.Inv) (c : Cmd) (m : MemArgs) : Sound (execMap c m s) := by
  refine sound_onCtx hs fun x => ?_
  dsimp only
  split
  · exact inv_complete _ _ _ hs
  · split
    · exact hs
    · refine inv_complete _ _ _ (inv_of_mem (modCtx_mem ..) ?_)
      split
      · exact inv_zeroFrames _ _ _ hs
      · exact hs

theorem drainAll_mem (p : Nat → Bool) (s : State) : (drainAll p s).1.mem = s.mem := by
  unfold drainAll
  dsimp only
  split
  · exact foldl_mem (f := fun s (g : Granule) => drainHolders g.num .unclassified g.holders s) (fun _ _ => drainHolders_mem ..) _ _
  · rfl

theorem unmapRange_mem (cn va pages psize : Nat) (gone : List Mapping) (s : State) :
    (unmapRange cn va pages psize gone s).mem = s.mem :=
  (modCtx_mem ..).trans (appendLog_mem ..)

theorem sound_unmap {s : State} (hs : s.Inv) (c : Cmd) (m : MemArgs) : Sound (execUnmap c m s) := by
  refine sound_onCtx_mem hs fun x => ?_
  dsimp only
  split
  · exact complete_mem ..
  · split
    · exact complete_mem ..
    · have hd := drainAll_mem (granuleIn (x.maps.filterMap (fun o => o.inside m.va.toNat (argsSize m)))) s
      split
      · rename_i he
        rwa [he] at hd
      · rename_i he
        rw [he] at hd
        exact (complete_mem ..).trans ((unmapRange_mem ..).trans hd)

theorem sound_reclassify {s : State} (hs : s.Inv) (c : Cmd) (m : MemArgs) : Sound (execReclassify c m s) := by
  refine sound_onCtx_mem hs fun x => ?_
  dsimp only
  split
  · exact complete_mem ..
  · have hd := drainAll_mem (granuleIn (x.maps.filterMap (fun o => o.insideFine m.va.toNat (argsSize m)))) s
    split
    · rename_i he
      rwa [he] at hd
    · rename_i he
      rw [he] at hd
      refine (complete_mem ..).trans ?_
      split <;> exact hd

theorem sound_eventSignal {s : State} (hs : s.Inv) (c : Cmd) (va value : DWord) : Sound (execEventSignal c va value s) := by
  refine sound_onCtx_mem hs fun x => ?_
  split
  · exact complete_mem ..
  · split
    · exact complete_mem ..
    · split <;> exact complete_mem ..

theorem sound_icacheInval {s : State} (hs : s.Inv) (c : Cmd) (va : DWord) (bytes : Nat) : Sound (execIcacheInval c va bytes s) :=
  sound_onCtx_mem hs fun _ => complete_mem ..

theorem fillSector_mem (die core sector : Nat) (s : State) : (fillSector die core sector s).mem = s.mem := by
  unfold fillSector
  split <;> rfl

theorem tlbWalk_mem (die ctx va : Nat) (s : State) : (tlbWalk die ctx va s).mem = s.mem := by
  unfold tlbWalk
  split
  · rfl
  · split
    · rfl
    · split <;> rfl

theorem sound_atsInvalidation {s : State} (hs : s.Inv) (part ctx : Nat) (va : DWord) (pages : Nat) :
    Sound (execAtsInvalidation part ctx va pages s) := by
  refine sound_next (inv_of_mem ?_ hs)
  dsimp only
  split
  · rfl
  · exact (applyLogs_only ..).mem.trans (appendLog_mem ..)

/-! ### Traps and calls -/

theorem assignCalls_mem (s : State) : (assignCalls s).mem = s.mem := by
  refine foldl_mem (fun t x => ?_) _ _
  split <;> rfl

theorem advanceHead_mem (cn : Nat) : ∀ (n : Nat) (s : State), (advanceHead cn n s).mem = s.mem := by
  intro n
  induction n with
  | zero => intro s; rfl
  | succ n ih =>
    intro s
    unfold advanceHead
    split
    · rfl
    · split
      · split
        · rw [ih, flushTraps_mem]; rfl
        · rfl
      · rfl

theorem consume_mem (cn : Nat) (p : TrapRec → Bool) (s : State) : (consume cn p s).mem = s.mem :=
  (assignCalls_mem _).trans (advanceHead_mem ..)

theorem queueTraps_mem (s : State) : (queueTraps s).mem = s.mem :=
  (assignCalls_mem _).trans (foldl_mem (fun t (c : Ctx) => (advanceHead_mem ..).trans (flushTraps_mem c.num c.traps.length t)) _ _)

theorem sound_trapqAck {s : State} (hs : s.Inv) (c : Cmd) (seq : Nat) : Sound (execTrapqAck c seq s) :=
  sound_onCtx_mem hs fun _ => (complete_mem ..).trans (consume_mem ..)

theorem endCall_mem (cn seq : Nat) (s : State) : (endCall cn seq s).mem = s.mem := assignCalls_mem _

theorem eatCall_mem (g : Group) (si : Nat) (s : State) : (eatCall g si s).mem = s.mem := by
  unfold eatCall
  split
  · exact (endCall_mem ..).trans (consume_mem ..)
  · rfl

@[simp] theorem applyWrites_mem (gi : Nat) (m : LaneMask) (ws : List RegWrite) (s : State) : (applyWrites gi m ws s).mem = s.mem := rfl

/-! ### Accesses of the proxy and of service cores -/

/-- A run of accesses, of which each that is made keeps a property, keeps it. -/
theorem foldl_bind_keeps {α : Type} {P : State → Prop} {f : α → State → Option State}
    (hf : ∀ a s u, f a s = some u → P s → P u) (l : List α) {s u : State}
    (h : l.foldl (fun (o : Option State) a => o.bind (f a)) (some s) = some u) (hs : P s) : P u := by
  have hall := foldl_keeps (fun o : Option State => ∀ t, o = some t → P t) (fun (o : Option State) a => o.bind (f a))
    (fun o a ho t ht => by
      obtain ⟨v, hv, ht⟩ := Option.bind_eq_some_iff.mp ht
      exact hf a v t ht (ho v hv)) l (some s) (fun t ht => by cases ht; exact hs)
  exact hall u h

theorem inv_proxyAccess {a : Agent} {die : Nat} {u : TlbUnit} {cn : Nat} {acc : ProxyAccess} {s t : State}
    (h : proxyAccess a die u cn acc s = some t) (hs : s.Inv) : t.Inv := by
  unfold proxyAccess at h
  split at h
  · obtain ⟨v, hv, rfl⟩ := Option.map_eq_some_iff.mp h
    refine inv_of_mem (s := v) rfl (foldl_bind_keeps (fun r s w hw hsw => ?_) _ hv hs)
    split at hw
    · exact inv_of_mem (getLine_mem hw) hsw
    · cases hw; exact hsw
  · refine foldl_bind_keeps (fun r s w hw hsw => ?_) _ h hs
    split at hw
    · exact inv_putLine hw hsw
    · cases hw; exact hsw

theorem offer_mem (a : Agent) (i : Instr) (waits : List (Nat × Bool)) (s : State) : (offer a i waits s).mem = s.mem := by
  unfold offer
  split
  · rfl
  · exact openDrain_mem ..

theorem inv_routineStep (a : Agent) (gi si : Nat) (g : Group) (i : Instr) (acc : ProxyAccess) {s : State} (hs : s.Inv) :
    (routineStep a gi si g i acc s).Inv := by
  unfold routineStep
  split
  · rename_i ht
    have h := inv_proxyAccess ht hs
    exact inv_of_mem rfl h
  · exact inv_of_mem (offer_mem ..) hs

theorem sound_emulationComplete {s : State} (hs : s.Inv) (gi si : Nat) (r : EmuResult) : Sound (execEmulationComplete gi si r s) := by
  refine sound_next ?_
  split
  · exact hs
  · split
    · split
      · exact hs
      · dsimp only
        split
        · exact inv_takeTrap _ _ _ _ _ _ hs
        · split
          · exact inv_takeTrap _ _ _ _ _ _ hs
          · exact hs
        · split
          · exact inv_routineStep _ _ _ _ _ _ hs
          · exact inv_of_mem rfl hs
    · exact hs

theorem sound_svcServiceComplete {s : State} (hs : s.Inv) (gi si : Nat) (r : SvcResult) : Sound (execSvcServiceComplete gi si r s) := by
  refine sound_next ?_
  split
  · exact hs
  · split
    · exact hs
    · split
      · exact hs
      · rename_i g p _ _ _ core _
        extract_lets ended retake
        have hended : ended.mem = s.mem := eatCall_mem ..
        have hretake (c : Cause) (aux : DWord) : (retake c aux).Inv := inv_of_mem ((takeTrap_mem ..).trans hended) hs
        split
        · exact hretake ..
        · split
          · exact hretake ..
          · exact hs
        · split
          · exact inv_routineStep _ _ _ _ _ _ hs
          · exact inv_of_mem hended hs

/-! ### Queues and contexts -/

theorem sound_queueSetup {s : State} (hs : s.Inv) (c : Cmd) (queue prio : Nat) (ring : DWord) :
    Sound (execQueueSetup c queue prio ring s) := by
  refine sound_onCtx_mem hs fun x => ?_
  split <;> exact complete_mem ..

theorem sound_submit {s : State} (hs : s.Inv) (c : Cmd) (queue : Nat) (desc : DWord) (deps : List (DWord × DWord)) :
    Sound (execSubmit c queue desc deps s) := by
  refine sound_onCtx hs fun x => ?_
  split
  · exact inv_complete _ _ _ hs
  · split
    · exact inv_complete _ _ _ hs
    · refine inv_fwRead hs fun t ht => inv_of_mem ?_ ht
      dsimp only
      split <;> exact complete_mem ..

theorem sound_ctxCreate {s : State} (hs : s.Inv) (c : Cmd) (part wdexp : Nat) (debug : Bool) (perm : Option (List Nat))
    (ccb trapq pool : DWord) (poolSize : Nat) : Sound (execCtxCreate c part wdexp debug perm ccb trapq pool poolSize s) := by
  have hstop (status : Nat) : (complete c status 0 s).Inv := inv_complete _ _ _ hs
  refine sound_next ?_
  split
  · exact hstop _
  · split
    · exact hstop _
    · split
      · exact hstop _
      · split
        · exact hstop _
        · split
          · exact hstop _
          · exact inv_complete _ _ _ (inv_of_mem rfl (inv_zeroFrames _ _ 65536 hs))

theorem clearSlots_mem (cn : Nat) (s : State) : (clearSlots cn s).mem = s.mem := rfl

theorem removeCtx_mem (x : Ctx) (s : State) : (removeCtx x s).mem = s.mem :=
  foldl_mem (f := fun s (m : Mapping) =>
    unmapRange x.num m.va m.pages (if m.psize ≤ 2 ^ 16 then 0 else if m.psize = 2 ^ 21 then 1 else 2) [m] s)
    (fun _ _ => unmapRange_mem ..) x.maps s

theorem sound_ctxDestroy {s : State} (hs : s.Inv) (c : Cmd) : Sound (execCtxDestroy c s) := by
  refine sound_onCtx hs fun x => ?_
  extract_lets s1
  have h1 : s1.Inv := inv_flushFw (inv_of_mem (killCtx_mem ..) hs)
  split
  · exact h1
  · have hd := drainAll_mem (granuleIn x.maps) s1
    split
    · rename_i he
      rw [he] at hd
      exact inv_of_mem hd h1
    · rename_i he
      rw [he] at hd
      have h2 := inv_of_mem hd h1
      dsimp only
      split
      · exact h2
      · exact inv_of_mem (removeCtx_mem ..) (inv_flushFw (inv_complete _ _ _ (inv_fwStore _ _ _ h2)))

theorem sound_ctxKill {s : State} (hs : s.Inv) (c : Cmd) : Sound (execCtxKill c s) := by
  refine sound_onCtx_mem hs fun x => ?_
  split <;> simp

theorem withdrawCalls_mem (may : Nat → Bool) (gi : Nat) (s : State) : (withdrawCalls may gi s).mem = s.mem := by
  unfold withdrawCalls
  split
  · rfl
  · refine foldl_mem (fun t p => ?_) _ _
    split
    · exact (untrap_mem ..).trans (eatCall_mem ..)
    · rfl

theorem sound_ctxSave {s : State} (hs : s.Inv) (c : Cmd) : Sound (execCtxSave c s) := by
  refine sound_onCtx_mem hs fun x => ?_
  split
  · rfl
  · split
    · exact complete_mem ..
    · exact (foldl_mem (fun _ _ => withdrawCalls_mem ..) _ _).trans (stopGroups_mem ..)

theorem sound_contextSaved {s : State} (hs : s.Inv) (ctx : Nat) : Sound (execContextSaved ctx s) := by
  refine sound_next (inv_of_mem ?_ hs)
  split
  · rfl
  · extract_lets gis s1 bs s2 s3 s4 s5
    have h1 : s1.mem = s.mem := stopGroups_mem ..
    have h5 : s5.mem = s.mem := calc
      s5.mem = s3.mem := (applyLogs_only ..).mem
      _ = s2.mem := foldl_mem (fun _ _ => saveBlock_mem ..) _ _
      _ = s1.mem := foldl_mem (fun _ _ => withdrawCalls_mem ..) _ _
      _ = s.mem := h1
    split
    · rfl
    · split
      · exact h1
      · split
        · exact (complete_mem ..).trans h5
        · exact h5

theorem inv_moveFrames (x : Ctx) (new : List Nat) {s : State} (hs : s.Inv) : (moveFrames x new s).Inv :=
  foldl_keeps (fun m : Tab Byte => Memory.wf m = true) (fun m (c : Host.Cell) => Tab.put 0 m (movedPa x.bind new c.1) c.2)
    (fun m c h => Tab.wf_put 0 (movedPa x.bind new c.1) c.2 (t := m) h) _ _ (Tab.wf_filter 0 _ hs)

theorem sound_ctxRestore {s : State} (hs : s.Inv) (c : Cmd) (part : Nat) (perm : Option (List Nat)) (places : List Placement) :
    Sound (execCtxRestore c part perm places s) := by
  refine sound_onCtx hs fun x => ?_
  split
  · exact inv_complete _ _ _ hs
  · split
    · exact inv_complete _ _ _ hs
    · rename_i bind _
      dsimp only
      split
      · exact inv_complete _ _ _ hs
      · split
        · exact inv_complete _ _ _ hs
        · refine inv_fwRead hs fun t ht => inv_complete _ _ _ (inv_of_mem
            (foldl_mem (fun u y => (readSave_mem ..).trans (resumeBlock_mem ..)) _ _) ?_)
          refine inv_of_mem ((modCtx_mem ..).trans (applyLogs_only ..).mem) ?_
          split
          · exact inv_moveFrames _ _ ht
          · exact ht

theorem resumeSplit_mem (c : Cmd) (x : Ctx) (gi si : Nat) (w : List RegWrite) (act : ResumeAction) (saved : Bool) (s : State) :
    (resumeSplit c x gi si w act saved s).mem = s.mem := by
  unfold resumeSplit
  split
  · exact complete_mem ..
  · split
    · exact complete_mem ..
    · split
      · rfl
      · extract_lets s' done
        have hs' : s'.mem = s.mem := rfl
        have hdone (t : State) : (done t).mem = t.mem := by
          simp only [done, complete_mem, ite_mem, writeGroup_mem, ite_self]
        split
        · exact (hdone _).trans hs'
        · split
          · exact (hdone _).trans hs'
          · exact complete_mem ..
        · split
          · exact (hdone _).trans hs'
          · exact complete_mem ..
        · simp [hs']

theorem sound_splitResume {s : State} (hs : s.Inv) (c : Cmd) (gi si : Nat) (w : List RegWrite) (act : ResumeAction) :
    Sound (execSplitResume c gi si w act s) := by
  refine sound_onCtx hs fun x => ?_
  split
  · exact inv_complete _ _ _ hs
  · split
    · exact inv_of_mem (resumeSplit_mem ..) hs
    · exact inv_fwRead hs fun t ht => inv_of_mem ((resumeSplit_mem ..).trans (readSave_mem ..)) ht

/-! ### Quotas, ports, partitions and libraries -/

theorem setQuota_mem (cn t q : Nat) (s : State) : (setQuota cn t q s).mem = s.mem := by
  unfold setQuota
  dsimp only
  split
  · exact foldl_mem (f := fun s id => s.setSlot id { s.slot id with tag := BitVec.ofNat 16 cn }) (fun _ _ => rfl) _ _
  · exact foldl_mem (f := fun s id => s.setSlot id Slot.free) (fun _ _ => rfl) _ _

theorem sound_orbitQuota {s : State} (hs : s.Inv) (c : Cmd) (quota : List Nat) : Sound (execOrbitQuota c quota s) := by
  refine sound_onCtx_mem hs fun x => ?_
  split
  · exact complete_mem ..
  · split
    · exact complete_mem ..
    · split
      · exact complete_mem ..
      · rw [complete_mem, modCtx_mem]
        refine foldl_mem (fun _ _ => ?_) _ _
        exact setQuota_mem ..

theorem sound_portBind {s : State} (hs : s.Inv) (c : Cmd) (mask : BitVec 12) : Sound (execPortBind c mask s) :=
  sound_onCtx_mem hs fun _ => complete_mem ..

theorem sound_partCreate {s : State} (hs : s.Inv) (c : Cmd) (dies weights : List Nat) : Sound (execPartCreate c dies weights s) := by
  refine sound_next (inv_of_mem ?_ hs)
  dsimp only
  split
  · exact complete_mem ..
  · split <;> exact complete_mem ..

theorem sound_partDestroy {s : State} (hs : s.Inv) (c : Cmd) (part : Nat) : Sound (execPartDestroy c part s) := by
  refine sound_next ?_
  split
  · exact inv_complete _ _ _ hs
  · split
    · exact inv_complete _ _ _ hs
    · split
      · exact inv_complete _ _ _ hs
      · exact inv_complete _ _ _ (inv_of_mem (s := wipeDies _ { s with parts := s.parts.filter (fun q => q.num != part) }) rfl
          (inv_wipeDies _ hs))

theorem sound_emuInstall {s : State} (hs : s.Inv) (c : Cmd) (library : DWord) (signatureOk : Bool) (majors : List Nat) :
    Sound (execEmuInstall c library signatureOk majors s) := by
  refine sound_next (inv_of_mem ?_ hs)
  split
  · exact complete_mem ..
  · split <;> exact complete_mem ..

end Sys2Proof.Machine
end

section
namespace Sys2Proof.Machine

open Sys2Proof Sys2Proof.Num

/-! ## What leaves memory as it is (O59): the directory protocol -/

@[simp] theorem setDirLine_mem (s : State) (d : DirLine) : (s.setDirLine d).mem = s.mem := rfl

theorem serve_mem (line : Nat) (s : State) : (serve line s).mem = s.mem := rfl

theorem serveHomes_mem (s : State) : (serveHomes s).mem = s.mem :=
  foldl_mem (f := fun s l => serve l s) (fun _ _ => serve_mem ..) _ _

theorem request_mem (die core line : Nat) (m : Msg) (st : L1State) (s : State) : (request die core line m st s).mem = s.mem :=
  (setDirLine_mem ..).trans (setL1_mem ..)

theorem askLine_mem (die core line : Nat) (m : Msg) (st granted : L1State) (s : State) :
    (askLine die core line m st granted s).mem = s.mem := by
  unfold askLine
  split
  · rfl
  · split
    · rw [request_mem, makeRoom_mem]
    · split
      · dsimp only
        rw [learnClass_mem, setL1_mem, ite_mem, keepClean_mem, ite_self, makeRoom_mem]
      · rfl

theorem honour_mem (die core line : Nat) (excl : Bool) (s : State) : (honour die core line excl s).mem = s.mem := by
  unfold honour
  split <;> simp [setL1_mem]

theorem endForward_mem (die core line : Nat) (d : DirLine) (s : State) : (endForward die core line d s).mem = s.mem :=
  (serve_mem ..).trans ((setDirLine_mem ..).trans (setL1_mem ..))

section
variable {s : State} (hs : s.Inv)
include hs

theorem sound_upgrade (die core line : Nat) : Sound (execUpgrade die core line s) := by
  have h : (if (privateTo s line).isSome then (keepClean line s).setL1 die core line (some .m) none
      else request die core line .upgrade .sm s).mem = s.mem := by
    rw [ite_mem, setL1_mem, keepClean_mem, request_mem, ite_self]
  refine sound_next (inv_of_mem ?_ hs)
  split
  · exact h
  · exact h
  · rfl

theorem sound_invalidation (die core line : Nat) : Sound (execInvalidation die core line s) := by
  refine sound_next (inv_of_mem ?_ hs)
  split
  · rfl
  · split <;> simp [setL1_mem]

theorem sound_forward (die core line : Nat) : Sound (execForward die core line s) := by
  refine sound_next (inv_of_mem ?_ hs)
  dsimp only
  split
  · rfl
  · split
    · rfl
    · split
      · exact setL1_mem ..
      · exact setL1_mem ..
      · split
        · rfl
        · exact honour_mem ..

theorem sound_acknowledgement (die core line : Nat) : Sound (execAcknowledgement die core line s) := by
  refine sound_next (inv_of_mem ?_ hs)
  dsimp only
  split
  · rfl
  · split
    · split
      · split
        · exact endForward_mem ..
        · rfl
      · rfl
      · rfl
      · rfl
      · rfl
      · split
        · rfl
        · exact serve_mem ..
    · split
      · rfl
      · rfl
      · rfl
      · exact serve_mem ..

theorem sound_dataResponse (die core line : Nat) : Sound (execDataResponse die core line s) := by
  refine sound_next (inv_of_mem ?_ hs)
  dsimp only
  split
  · split
    · exact (learnClass_mem ..).trans (setL1_mem ..)
    · split
      · exact (learnClass_mem ..).trans (setL1_mem ..)
      · rfl
  · split
    · exact (learnClass_mem ..).trans ((setL1_mem ..).trans (keepClean_mem ..))
    · rfl
  · split
    · exact (learnClass_mem ..).trans ((setL1_mem ..).trans (keepClean_mem ..))
    · rfl
  · rfl

theorem sound_l1Eviction (die core line : Nat) : Sound (execL1Eviction die core line s) := by
  refine sound_next (inv_of_mem ?_ hs)
  split
  · exact setL1_mem ..
  · exact setL1_mem ..
  · rfl

theorem sound_writeBack (die core line : Nat) : Sound (execWriteBack die core line s) := by
  refine sound_next (inv_of_mem ?_ hs)
  dsimp only
  split
  · rfl
  · split
    · rfl
    · exact endForward_mem ..
    · exact (serve_mem ..).trans ((setDirLine_mem ..).trans (setL1_mem ..))

end

/-! ## What keeps the canonical form (O59): the outside of the package -/

theorem inv_resetPackage (s : State) : (resetPackage s).Inv := rfl

theorem sound_lifecycle {s : State} (hs : s.Inv) (c : Cmd) (target : LifeState) (signer : Signer) :
    Sound (execLifecycle c target signer s) := by
  refine sound_next ?_
  split
  · exact inv_complete _ _ _ hs
  · split
    · exact inv_complete _ _ _ hs
    · dsimp only
      split
      · exact hs
      · exact inv_resetPackage _

theorem sound_attest {s : State} (hs : s.Inv) (c : Cmd) (nonce : DWord) : Sound (execAttest c nonce s) := by
  refine sound_next (inv_of_mem ?_ hs)
  split
  · exact complete_mem ..
  · split <;> exact complete_mem ..

theorem sound_powerCap {s : State} (hs : s.Inv) (c : Cmd) (watts : Nat) : Sound (execPowerCap c watts s) := by
  refine sound_next (inv_of_mem ?_ hs)
  split <;> exact complete_mem ..

theorem sound_sagClear {s : State} (hs : s.Inv) (die : Nat) : Sound (execSagClear die s) := by
  refine sound_next (inv_of_mem ?_ hs)
  dsimp only
  split <;> rfl

theorem sound_bankDrowsy {s : State} (hs : s.Inv) (bank : Nat) : Sound (execBankDrowsy bank s) := by
  refine sound_next (inv_of_mem ?_ hs)
  split <;> rfl

/-! ### Routers, time and traces -/

theorem elim_countFlit_mem (o : Option Link) (received : Bool) (s : State) :
    (o.elim s (fun l => s.countFlit l received)).mem = s.mem := by
  cases o <;> simp

theorem headArrive_mem (h : MeshHead) (s : State) : (headArrive h s).mem = s.mem := by
  unfold headArrive
  extract_lets from_ link
  split
  · rfl
  · exact elim_countFlit_mem ..

theorem driveSetUp_mem (o : MeshOut) (s : State) : (driveSetUp o s).mem = s.mem := by
  unfold driveSetUp
  split <;> rfl

theorem routeCycle_mem (s : State) : (routeCycle s).mem = s.mem := by
  unfold routeCycle
  dsimp only
  refine foldl_mem (fun _ _ => ?_) _ _
  exact elim_countFlit_mem ..

theorem sound_ptpSetup {s : State} (hs : s.Inv) (c : Cmd) (domain transport : Nat) (stepOk : Bool) :
    Sound (execPtpSetup c domain transport stepOk s) := by
  refine sound_next (inv_of_mem ?_ hs)
  split <;> exact complete_mem ..

theorem sound_timeStatus {s : State} (hs : s.Inv) (c : Cmd) : Sound (execTimeStatus c s) := by
  refine sound_next (inv_of_mem ?_ hs)
  split <;> exact complete_mem ..

theorem sound_ptpMessage {s : State} (hs : s.Inv) (offsetNs : Int) : Sound (execPtpMessage offsetNs s) := by
  refine sound_next (inv_of_mem ?_ hs)
  split
  · rfl
  · split <;> rfl

theorem sound_servoHoldover {s : State} (hs : s.Inv) : Sound (execServoHoldover s) := by
  refine sound_next (inv_of_mem ?_ hs)
  split <;> rfl

theorem sound_traceSetup {s : State} (hs : s.Inv) (c : Cmd) (die : Nat) (ring : DWord) (size : Nat) (mask : BitVec 32) :
    Sound (execTraceSetup c die ring size mask s) := by
  refine sound_onCtx_mem hs fun x => ?_
  split <;> exact complete_mem ..

/-! ### The host and the debugger -/

theorem inv_hostKept (pa : Nat) (op : HostOp) {s : State} {t : Option State} (hs : s.Inv) (ht : ∀ u, t = some u → u.Inv) :
    (hostKept pa op s t).Inv := by
  unfold hostKept
  split
  · have h := ht _ rfl
    exact inv_of_mem rfl h
  · split
    · split
      · exact inv_of_mem (offer_mem ..) hs
      · exact hs
    · exact hs

theorem sound_hostAccess {s : State} (hs : s.Inv) (pa : Nat) (op : HostOp) : Sound (execHostAccess pa op s) := by
  refine sound_next ?_
  split
  · refine inv_hostKept _ _ hs fun u hu => ?_
    obtain ⟨t, ht, rfl⟩ := Option.map_eq_some_iff.mp hu
    have hmem : t.mem = s.mem := hostPlace_mem ht
    refine inv_of_mem ?_ hs
    dsimp only
    split <;> exact hmem
  · exact inv_hostKept _ _ hs fun u hu => inv_hostStore hu hs
  · split
    · refine inv_hostKept _ _ hs fun u hu => ?_
      obtain ⟨t, ht, rfl⟩ := Option.map_eq_some_iff.mp hu
      exact inv_of_mem (setDirLine_mem ..) (inv_hostStore ht hs)
    · exact hs
  · split
    · exact hs
    · refine inv_hostKept _ _ hs fun u hu => ?_
      obtain ⟨t, ht, rfl⟩ := Option.map_eq_some_iff.mp hu
      have h := inv_of_mem (hostPlace_mem ht) hs
      exact inv_of_mem (wakeEvents_mem ..) (inv_memPutBytes _ _ (inv_of_mem rfl h))
  · split
    · exact inv_of_mem rfl hs
    · exact hs

theorem sound_backInvalidateSnoop {s : State} (hs : s.Inv) (line : Nat) : Sound (execBackInvalidateSnoop line s) := by
  refine sound_next (inv_of_mem ?_ hs)
  split <;> rfl

theorem sound_backInvalidateResponse {s : State} (hs : s.Inv) (line : Nat) : Sound (execBackInvalidateResponse line s) := by
  refine sound_next (inv_of_mem ?_ hs)
  split <;> rfl

theorem sound_registerWrite {s : State} (hs : s.Inv) (r : DevReg) (v : DWord) : Sound (execRegisterWrite r v s) := by
  refine sound_next (inv_of_mem ?_ hs)
  split
  · rfl
  · split <;> rfl
  · split <;> rfl
  · rfl

theorem writeRing_mem (fn : Nat) (e : RingEntry) (s : State) : (writeRing fn e s).mem = s.mem := by
  unfold writeRing
  dsimp only
  split <;> rfl

theorem touchBanks_mem (ks : List Nat) (s : State) : (touchBanks ks s).mem = s.mem := (touchBanks_schedule ks s).mem

theorem inv_dbgResult {s : State} (r : Option (Bool × Word)) (hs : s.Inv) : State.Inv { s with dbgResult := r } := hs

theorem sound_debuggerAccess {s : State} (hs : s.Inv) (pa : Nat) (op : DbgOp) : Sound (execDebuggerAccess pa op s) := by
  refine sound_next ?_
  extract_lets owner
  clear_value owner
  cases owner with
  | none => exact inv_dbgResult _ hs
  | some cn =>
    dsimp only
    have h : (touchBanks (bankAt s cn pa) s).Inv := inv_of_mem (touchBanks_mem ..) hs
    generalize touchBanks (bankAt s cn pa) s = t at h
    split
    · exact hs
    · cases op with
      | read => exact inv_dbgResult _ h
      | write w => exact inv_dbgResult _ (inv_wakeWindow t cn pa 4 (inv_spaceWrite cn 0 .window pa 4 w.toNat h))

/-! ### Links and errors -/

theorem sound_linkTagFailure {s : State} (hs : s.Inv) (link : Link) : Sound (execLinkTagFailure link s) := by
  refine sound_next (inv_of_mem ?_ hs)
  split
  · rfl
  · extract_lets s1 s2
    have h2 : s2.mem = s.mem := by
      refine foldl_mem (fun _ _ => ?_) _ _
      exact killPart_mem ..
    split
    · exact (portDown_mem ..).trans h2
    · exact h2

theorem sound_keyRotation {s : State} (hs : s.Inv) (link : Link) : Sound (execKeyRotation link s) := by
  refine sound_next (inv_of_mem ?_ hs)
  split <;> rfl

theorem sound_linkCrcReplay {s : State} (hs : s.Inv) (port : Nat) : Sound (execLinkCrcReplay port s) := by
  refine sound_next (inv_of_mem ?_ hs)
  split <;> rfl

theorem inv_stopPart (p sub : Nat) {s : State} (hs : s.Inv) : (stopPart p sub s).Inv :=
  inv_wipeDies _ (inv_flushFw (inv_of_mem (killPart_mem ..) hs))

theorem inv_loseLine (line : Nat) {s : State} (hs : s.Inv) : (loseLine line s).Inv := by
  unfold loseLine
  split
  · dsimp only
    split
    · exact inv_of_mem (recordCopies_mem ..) (inv_memPutBytes _ _ (inv_of_mem rfl hs))
    · exact inv_of_mem rfl hs
  · exact hs

@[simp] theorem setSlot_mem (s : State) (id : Nat) (v : Slot) : (s.setSlot id v).mem = s.mem := rfl

theorem sound_uncorrectableError {s : State} (hs : s.Inv) (site : ErrSite) : Sound (execUncorrectableError site s) := by
  refine sound_next ?_
  split
  · exact inv_loseLine _ (inv_of_mem (killCtx_mem ..) hs)
  · exact inv_loseLine _ (inv_of_mem (killCtx_mem ..) hs)
  · exact inv_stopPart _ _ hs
  · exact inv_of_mem rfl hs
  · dsimp only
    split
    · exact inv_of_mem ((setSlot_mem ..).trans (killCtx_mem ..)) hs
    · exact inv_of_mem (setSlot_mem ..) hs

theorem sound_orbitRingBreak {s : State} (hs : s.Inv) : Sound (execOrbitRingBreak s) := by
  refine sound_next ?_
  dsimp only
  have h := foldl_keeps State.Inv (fun s p => stopPart p 5 s) (fun _ p h => inv_stopPart p 5 h)
    (((s.ctxs.filter (fun c => s.slots.any (fun x => x.2.held && x.2.tag.toNat == c.num))).map (fun c => c.part)).eraseDups) s hs
  exact inv_of_mem rfl h

/-! ### Interfaces and recovery -/

theorem modIface_mem (fn : Nat) (f : Iface → Iface) (s : State) : (modIface fn f s).mem = s.mem := rfl

theorem leaveRun_mem (fn : Nat) (s : State) : (leaveRun fn s).mem = s.mem := killPart_mem ..

theorem inv_scrubIface (fn : Nat) {s : State} (hs : s.Inv) : (scrubIface fn s).Inv := by
  unfold scrubIface
  split
  · exact inv_wipeDies _ (inv_of_mem (modIface_mem ..) (inv_of_mem rfl hs))
  · exact hs

theorem sound_spdmRequest {s : State} (hs : s.Inv) (fn : Nat) (m : SpdmMsg) : Sound (execSpdmRequest fn m s) := by
  refine sound_next (inv_of_mem ?_ hs)
  split
  · rfl
  · split
    · rfl
    · split <;> rfl
    · split <;> rfl
    · split <;> rfl
    · split <;> rfl
    · split <;> rfl
    · split
      · rfl
      · split
        · exact (modIface_mem ..).trans (leaveRun_mem ..)
        · rfl

theorem sound_spdmSessionExpiry {s : State} (hs : s.Inv) (fn : Nat) : Sound (execSpdmSessionExpiry fn s) := by
  refine sound_next (inv_of_mem ?_ hs)
  split
  · rfl
  · split
    · refine (modIface_mem ..).trans ?_
      split
      · exact leaveRun_mem ..
      · rfl
    · rfl

theorem sound_serviceWatchdogExpiry {s : State} (hs : s.Inv) (n : Nat) : Sound (execServiceWatchdogExpiry n s) := by
  refine sound_next (inv_of_mem ((freeze_mem _).trans ?_) hs)
  refine foldl_mem (fun _ _ => ?_) _ _
  exact killCtx_mem ..

theorem sound_recoveryTimeout {s : State} (hs : s.Inv) : Sound (execRecoveryTimeout s) := by
  refine sound_next ?_
  split
  · exact inv_resetPackage _
  · exact hs

/-! ### A cycle -/

theorem countBarriers_mem (s : State) : (countBarriers s).mem = s.mem := by
  refine foldl_mem (fun t id => foldl_mem (fun u x => ?_) _ _) _ _
  split
  · rfl
  · dsimp only
    split <;> rfl

theorem advanceStretch_mem (s : State) : (advanceStretch s).mem = s.mem := by
  unfold advanceStretch
  split <;> rfl

theorem tickCycle_mem (s : State) : (tickCycle s).mem = s.mem := by
  unfold tickCycle
  extract_lets s1 s2 s3 s4
  calc (queueTraps (serveHomes (countBarriers (routeCycle s4)))).mem
    _ = s3.mem := by rw [queueTraps_mem, serveHomes_mem, countBarriers_mem, routeCycle_mem]
    _ = s2.mem := orbitCycle_mem _
    _ = s.mem := advanceStretch_mem _

end Sys2Proof.Machine
end

section
namespace Sys2Proof.Machine

open Sys2Proof Sys2Proof.Num

/-! ## Every step keeps the canonical form of memory (O59) -/

theorem sound_fault (f : Fault) : Sound (.fault f) := by rintro t ⟨⟩

theorem sound_refused (r : Refusal) : Sound (.refused r) := by rintro t ⟨⟩

section
variable {s : State} (hs : s.Inv)
include hs

theorem sound_short1 (i : Instr) (gd : Guard) (d a : BitVec 8) (f : Word → Word) : Sound (short1 i gd d a f s) :=
  sound_aluShort hs _ _ _ _ _

theorem sound_alu1 (i : Instr) (x : Ext) (f : DWord → DWord × FlagBits) : Sound (alu1 i x f s) := sound_aluExt hs _ _ _ _

theorem sound_alu2 (i : Instr) (x : Ext) (f : DWord → DWord → DWord × FlagBits) : Sound (alu2 i x f s) := sound_aluExt hs _ _ _ _

theorem sound_alu3 (i : Instr) (x : Ext) (f : DWord → DWord → DWord → DWord × FlagBits) : Sound (alu3 i x f s) :=
  sound_aluExt hs _ _ _ _

theorem sound_aluB32 (i : Instr) (x : Ext) (f : DWord → DWord → DWord) : Sound (aluB32 i x f s) := sound_aluExt hs _ _ _ _

theorem sound_exchange (i : Instr) (x : Ext) (src : Group → Nat → Nat) : Sound (exchange i x src s) := sound_aluExt hs _ _ _ _

theorem sound_pmov (x : Ext) : Sound (execPmov x s) := by
  unfold execPmov
  split
  · exact sound_predExt hs _ _ _
  · exact sound_aluExt hs _ _ _ _

theorem sound_vdhop (x : Ext) : Sound (execVdhop x s) := by
  unfold execVdhop
  exact sound_aluExt hs _ _ _ _

theorem sound_cvt (x : Ext) : Sound (execCvt x s) := by
  unfold execCvt
  exact sound_aluExt hs _ _ _ _

theorem sound_ldu (x : Ext) : Sound (execLdu x s) := by
  refine sound_runInstr_mem hs fun k => ?_
  split
  · rfl
  · exact issueVirtualOnce_mem ..

/-- Whatever an instruction, a command or an event does, memory keeps its canonical form. -/
theorem sound_exec (i : Instr) : Sound (exec i s) := by
  unfold exec
  cases i with
  | abs | brev | clz | fabs | fneg | movShort | not | popc => exact sound_short1 hs _ _ _ _ _
  | iaddi | iaddiLiteral | movi | moviLiteral => exact sound_aluShort hs _ _ _ _ _
  | bra | braJoin => exact sound_runInstr_mem hs fun _ => branchTo_mem ..
  | call | callx => exact sound_runInstr_mem hs fun _ => callBody_mem ..
  | waitc => exact sound_waitc hs _ _ _ _ _
  | bkpt => exact sound_bkpt hs _ _
  | exit => exact sound_exit hs _
  | hend => exact sound_hend hs
  | nop | gvote | greduce | gscan | pref => exact sound_runInstr_mem hs fun _ => rfl
  | ret => exact sound_runInstr_mem hs fun _ => retBody_mem ..
  | yield => exact sound_yield hs _
  | iadd | imax | imin | isub | imul | imulh | and | or | xor | fadd | fmul | fmax | fmin => exact sound_alu2 hs _ _ _
  | mov | bfi | sel | lea | fclass | pack | req => exact sound_aluExt hs _ _ _ _
  | idot4 | imad | lop3 | prmt | ffma => exact sound_alu3 hs _ _ _
  | rot | sar | shl | shr | bfe => exact sound_aluB32 hs _ _ _
  | icmp | plop | fcmp => exact sound_predExt hs _ _ _
  | pmov => exact sound_pmov hs _
  | fcos | fexp2 | flog2 | frcp | frsq | fsin | fsqrt | ftanh => exact sound_alu1 hs _ _ _
  | cvt => exact sound_cvt hs _
  | unpack => exact sound_unpack hs _
  | qbcast | qswap | shuf => exact sound_exchange hs _ _ _
  | brdec => exact sound_brdec hs _
  | brx => exact sound_runInstr_mem hs fun _ => brxBody_mem ..
  | svc => exact sound_svc hs _
  | trap => exact sound_trap hs _
  | bar => exact sound_bar hs _
  | cbar => exact sound_cbar hs _
  | evsig | evwait => exact sound_runInstr_mem hs fun _ => issueOnce_mem ..
  | ld | st | atom => exact sound_runInstr_mem hs fun _ => issueVirtual_mem ..
  | lds | ldx | sts | atoms | sempty | sfe | sfill => exact sound_runInstr_mem hs fun _ => issueScratch_mem ..
  | ldu => exact sound_ldu hs _
  | cpy => exact sound_cpy hs _
  | ldh => exact sound_ldh hs _
  | tld => exact sound_tld hs _
  | tstr => exact sound_tstr hs _
  | coll => exact sound_coll hs _
  | mma | mmat | aexp | amode | ard | awr | mzero | mscan | tmov | trd | twr => exact sound_matrix hs _ _ _ _
  | mmag => exact sound_runInstr_mem hs fun _ => mmagBody_mem ..
  | mcarry => exact sound_mcarry hs _
  | oadd | oalight | ocap | ocas | omax | omin | oswp => exact sound_orbit hs _ _ _
  | oboard => exact sound_oboard hs _
  | chpeek => exact sound_chpeek hs _
  | chrecv => exact sound_chrecv hs _
  | chsend => exact sound_chsend hs _
  | clk | time => exact sound_clockRead hs _ _ _
  | sleep => exact sound_sleep hs _
  | flags => exact sound_flags hs _
  | srd => exact sound_srd hs _
  | swr => exact sound_swr hs _
  | vdhop => exact sound_vdhop hs _
  | unimp => exact sound_unimp hs _
  | ill => exact sound_runInstr_mem hs fun _ => trapWord_mem ..
  | emulationComplete => exact sound_emulationComplete hs _ _ _
  | svcServiceComplete => exact sound_svcServiceComplete hs _ _ _
  | queueSetup => exact sound_queueSetup hs _ _ _ _
  | submit => exact sound_submit hs _ _ _ _
  | eventSignal => exact sound_eventSignal hs _ _ _
  | map => exact sound_map hs _ _
  | unmap => exact sound_unmap hs _ _
  | reclassify => exact sound_reclassify hs _ _
  | logApply => exact sound_logApply hs _ _
  | ctxCreate => exact sound_ctxCreate hs _ _ _ _ _ _ _ _ _
  | ctxDestroy => exact sound_ctxDestroy hs _
  | ctxSave => exact sound_ctxSave hs _
  | contextSaved => exact sound_contextSaved hs _
  | ctxRestore => exact sound_ctxRestore hs _ _ _ _
  | ctxKill => exact sound_ctxKill hs _
  | splitResume => exact sound_splitResume hs _ _ _ _ _
  | orbitQuota => exact sound_orbitQuota hs _ _
  | portBind => exact sound_portBind hs _ _
  | trapqAck => exact sound_trapqAck hs _ _
  | partCreate => exact sound_partCreate hs _ _ _
  | partDestroy => exact sound_partDestroy hs _ _
  | powerCap => exact sound_powerCap hs _ _
  | icacheInval => exact sound_icacheInval hs _ _ _
  | emuInstall => exact sound_emuInstall hs _ _ _ _
  | traceSetup => exact sound_traceSetup hs _ _ _ _ _
  | ptpSetup => exact sound_ptpSetup hs _ _ _ _
  | timeStatus => exact sound_timeStatus hs _
  | attest => exact sound_attest hs _ _
  | lifecycle => exact sound_lifecycle hs _ _ _
  | launchAdmission => exact sound_launchAdmission hs _
  | blockStart => exact sound_blockStart hs _ _ _
  | blockComplete => exact sound_blockComplete hs _
  | blockPreemption => exact sound_blockPreemption hs _
  | migration => exact sound_migration hs _ _
  | splitDormant => exact sound_splitDormant hs _ _
  | splitActivate => exact sound_splitActivate hs _
  | joinTimeout => exact sound_joinTimeout hs _ _
  | waitAgeReservation | yieldExpiry | channelCredit | headPromotion | atsTranslation | patrolScrub | supplySag =>
    exact sound_next (inv_of_mem rfl hs)
  | sleepWake => exact sound_sleepWake hs _ _
  | barrierWatchdog => exact sound_barrierWatchdog hs _ _
  | emptyLineTimeout => exact sound_emptyLineTimeout hs _
  | loadDataReturn | storePerformed => exact sound_next (inv_performEvent _ _ _ hs)
  | pageFaultService => exact sound_pageFaultService hs _ _ _
  | remoteRetry => exact sound_remoteRetry hs _ _ _ _ _
  | drainRequest => exact sound_drainRequest hs _ _
  | drainPoint => exact sound_drainPoint hs _
  | engineSectorRead => exact sound_engineSectorRead hs _ _
  | engineSectorWrite => exact sound_engineSectorWrite hs _ _
  | engineCompletion => exact sound_next (inv_completeEngine _ hs)
  | engineFault => exact sound_engineFault hs _
  | handlerBirth => exact sound_handlerBirth hs _
  | matrixEntryStart => exact fun _ ht => inv_of_mem (matrixEntryStart_mem ht) hs
  | matrixEntryComplete => exact fun _ ht => inv_of_mem (matrixEntryComplete_mem ht) hs
  | mmagCancel => exact fun _ ht => inv_of_mem (mmagCancel_mem ht) hs
  | orbitPass => exact sound_next (inv_of_mem (orbitPass_mem ..) hs)
  | oboardTimeout => exact sound_next (inv_of_mem (oboardTimeout_mem ..) hs)
  | coherenceRead | readExclusive => exact sound_next (inv_of_mem (askLine_mem ..) hs)
  | upgrade => exact sound_upgrade hs _ _ _
  | invalidation => exact sound_invalidation hs _ _ _
  | forward => exact sound_forward hs _ _ _
  | acknowledgement => exact sound_acknowledgement hs _ _ _
  | dataResponse => exact sound_dataResponse hs _ _ _
  | writeBack => exact sound_writeBack hs _ _ _
  | l1Eviction => exact sound_l1Eviction hs _ _ _
  | backInvalidateSnoop => exact sound_backInvalidateSnoop hs _
  | hostAccess => exact sound_hostAccess hs _ _
  | atsInvalidation => exact sound_atsInvalidation hs _ _ _ _
  | remoteWrite => exact sound_remoteWrite hs _ _ _ _
  | collPeerMessage => exact sound_next (inv_of_mem (peerMessage_mem ..) hs)
  | linkCrcReplay => exact sound_linkCrcReplay hs _
  | linkTagFailure => exact sound_linkTagFailure hs _
  | keyRotation => exact sound_keyRotation hs _
  | uncorrectableError => exact sound_uncorrectableError hs _
  | orbitRingBreak => exact sound_orbitRingBreak hs
  | spdmRequest => exact sound_spdmRequest hs _ _
  | spdmSessionExpiry => exact sound_spdmSessionExpiry hs _
  | serviceWatchdogExpiry => exact sound_serviceWatchdogExpiry hs _
  | internalErrorReport => exact sound_next (inv_of_mem (freeze_mem _) hs)
  | lockstepDisagreement | packageReset => exact sound_next (inv_resetPackage _)
  | recoveryTimeout => exact sound_recoveryTimeout hs
  | sagClear => exact sound_sagClear hs _
  | ptpMessage => exact sound_ptpMessage hs _
  | debuggerAccess => exact sound_debuggerAccess hs _ _
  | registerWrite => exact sound_registerWrite hs _ _
  | bankDrowsy => exact sound_bankDrowsy hs _
  | pageWalkCompletion => exact sound_next (inv_of_mem (tlbWalk_mem ..) hs)
  | backInvalidateResponse => exact sound_backInvalidateResponse hs _
  | parnarPortDown => exact sound_next (inv_of_mem (portDown_mem ..) hs)
  | servoHoldover => exact sound_servoHoldover hs

/-! ### The turns -/

theorem sound_issueAt (gi si : Nat) (g : Group) (p : Split) : Sound (issueAt gi si g p s) := by
  have hage : State.Inv { ageQuarter gi si g s with curG := gi, curS := si } := hs
  intro t ht
  unfold issueAt at ht
  split at ht
  · cases ht
    exact inv_of_mem ((settle_schedule _).mem.trans (takeTrap_mem ..)) hs
  · cases ht
    exact inv_of_mem (modSplit_mem ..) hs
  · split at ht
    · cases ht
      exact inv_of_mem (afterInstr_schedule ..).mem (sound_exec hage _ _ ‹_›)
    · cases ht
    · cases ht

theorem sound_issueTurn (gi si : Nat) : Sound (issueTurn gi si s) := by
  unfold issueTurn
  split
  · exact sound_next hs
  · split
    · exact sound_fault _
    · split
      · exact sound_issueAt hs _ _ _ _
      · exact sound_next hs

theorem sound_eventTurn (i : Instr) : Sound (eventTurn i s) := by
  intro t ht
  unfold eventTurn at ht
  split at ht
  · cases ht
    exact hs
  · split at ht
    · cases ht
      exact inv_of_mem (settle_schedule _).mem (sound_exec hs _ _ ‹_›)
    · cases ht
    · cases ht

theorem sound_commandTurn (fn : Nat) : Sound (commandTurn fn s) := by
  unfold commandTurn
  extract_lets es drop
  have hdrop : drop.Inv := hs
  split
  · exact sound_next hs
  · split
    · exact sound_next hs
    · split
      · exact sound_next (inv_complete _ _ _ hs)
      · exact sound_next hdrop
    · split
      · split
        · exact sound_eventTurn hs _
        · exact sound_next hdrop
      · exact sound_next hdrop

theorem sound_driverTurn (i : Instr) (c : Cmd) : Sound (driverTurn i c s) := by
  unfold driverTurn
  extract_lets es t
  have ht : t.Inv := inv_of_mem (by simp [t]) hs
  split
  · exact sound_commandTurn ht _
  · exact sound_next ht

end

theorem rejoinAll_mem (s : State) : (rejoinAll s).mem = s.mem := by
  refine foldl_mem (fun t _ => ?_) _ _
  unfold rejoin
  split <;> rfl

/-- The state after an event that leaves memory as it is. -/
theorem stateOr_mem {s : State} {o : Host.Outcome State Fault Refusal} (h : ∀ t, o = .next t → t.mem = s.mem) :
    (stateOr s o).mem = s.mem := by
  cases o with
  | next t => exact h t rfl
  | fault f => rfl
  | refused r => rfl

theorem matrixDue_mem (s : State) : (matrixDue s).mem = s.mem := by
  refine (foldl_mem (fun t k => ?_) _ _).trans (rejoinAll_mem s)
  extract_lets t1 t2
  calc (stateOr t2 (execMatrixEntryStart k.1 k.2 t2)).mem
    _ = t2.mem := stateOr_mem fun _ => matrixEntryStart_mem
    _ = t1.mem := stateOr_mem fun _ => mmagCancel_mem
    _ = t.mem := stateOr_mem fun _ => matrixEntryComplete_mem

theorem tlbUse_mem (die : Nat) (u : TlbUnit) (cn va : Nat) (s : State) : (tlbUse die u cn va s).mem = s.mem := (tlbUse_only ..).mem

theorem walkAhead_mem (op : Nat) (s : State) : (walkAhead op s).mem = s.mem := by
  unfold walkAhead
  split
  · rfl
  · split
    · rfl
    · split
      · rfl
      · exact (tlbUse_mem ..).trans (tlbWalk_mem ..)

theorem loadObject_mem (c : Cmd) (file : List Byte) (base : Nat) (frames : List Nat) (s : State) :
    (loadObject c file base frames s).mem = s.mem := by
  unfold loadObject
  dsimp only
  split <;> rfl

theorem sound_act (t : Turn) {s : State} (hs : s.Inv) : Sound (act t s) := by
  cases t with
  | issue gi si => exact sound_issueTurn hs _ _
  | event i =>
    unfold act
    dsimp only
    split
    · exact sound_driverTurn hs _ _
    · exact sound_eventTurn hs _
  | command fn => exact sound_commandTurn hs _
  | load c file base frames => exact sound_next (inv_of_mem (loadObject_mem ..) hs)
  | fetchFill die core sector => exact sound_next (inv_of_mem (fillSector_mem ..) hs)
  | fetchDrop | rootAccept | corrected | credits => exact sound_next (inv_of_mem rfl hs)
  | scrub fn => exact sound_next (inv_scrubIface _ hs)
  | headArrive h => exact sound_next (inv_of_mem (headArrive_mem ..) hs)
  | setUp o => exact sound_next (inv_of_mem (driveSetUp_mem ..) hs)
  | ringWrite fn e => exact sound_next (inv_of_mem (writeRing_mem ..) hs)
  | walkAhead op => exact sound_next (inv_of_mem (walkAhead_mem ..) hs)
  | tick => exact sound_next (inv_of_mem ((settle_schedule _).mem.trans ((tickCycle_mem _).trans (matrixDue_mem s))) hs)

theorem sound_turn (t : Turn) {s : State} (hs : s.Inv) : Sound (turn t s) := by
  unfold turn
  split
  · exact sound_act t hs
  · exact sound_next hs

/-! ### What follows a turn -/

theorem restreamAll_mem (before s : State) : (restreamAll before s).mem = s.mem := by
  refine foldl_mem (fun t gi => ?_) _ _
  split
  · split
    · split <;> rfl
    · rfl
  · rfl

theorem noteArrivals_mem (s : State) : (noteArrivals s).mem = s.mem := by
  unfold noteArrivals
  split <;> rfl

theorem trimTlbs_mem (s : State) : (trimTlbs s).mem = s.mem := rfl

theorem sound_record (before : State) {o : Host.Outcome State Fault Refusal} (ho : Sound o) : Sound (record before o) := by
  cases o with
  | next t =>
    have hmem : (traceStep before (syncBlocks before (touchBanks (usedBanks before t) (restreamAll before t)))).mem = t.mem := by
      rw [traceStep_mem, syncBlocks_mem, touchBanks_mem, restreamAll_mem]
    exact sound_next (inv_of_mem ((trimTlbs_mem _).trans (noteArrivals_mem _)) (inv_flushFw (inv_of_mem hmem (ho t rfl))))
  | fault f => exact sound_fault _
  | refused r => exact sound_refused _

/-- Settles O59: each instruction, command, event and turn either leaves memory as it is or writes it through operations that
keep its canonical form, and so does what follows a turn. -/
theorem stepKeepsMemory : Obligations.StepKeepsMemory := by
  unfold Obligations.StepKeepsMemory
  intro s t hs hstep
  revert t
  change Sound (stepState s)
  unfold stepState
  split
  · exact sound_record s (sound_turn _ hs)
  · exact sound_record _ (sound_turn _ hs)

end Sys2Proof.Machine
end

section
namespace Sys2Proof.Machine

open Sys2Proof

/-! ## The checks of a virtual address (O32) -/

section
variable {s : State} {g : Group} {kd : AccKind} {n : Nat} {va : DWord} {c : Ctx} {m : Mapping}

theorem checkVirtual_misaligned (h : va.toNat % n ≠ 0) : checkVirtual s g kd n va = .mal := if_pos h

theorem checkVirtual_high (ha : va.toNat % n = 0) (h : 2 ^ 57 ≤ va.toNat) : checkVirtual s g kd n va = .prot := by
  rw [checkVirtual, if_neg (not_not_intro ha), xlate, if_pos h]

/-- Translation that no cached entry serves is the context's mapping's (R121, R138). -/
theorem xlate_uncached {die : Nat} {u : TlbUnit} {cn : Nat} {need : Need} (hlow : va.toNat < 2 ^ 57)
    (htlb : s.tlbFind die u cn va.toNat = none) (hc : s.ctx? cn = some c) :
    xlate s die u cn va need = match mapFind c.maps va.toNat with
      | none => .pf
      | some m =>
        if !m.grants need || ((need == .w || need == .rw) && s.ccbPage cn va.toNat) then .prot
        else if !c.present m va.toNat then .replay
        else .ok m.space (m.phys va.toNat) := by
  rw [xlate, if_neg (by omega)]
  dsimp only
  rw [htlb, hc, Option.bind_some]
  cases mapFind c.maps va.toNat <;> rfl

theorem checkVirtual_unmapped (ha : va.toNat % n = 0) (hlow : va.toNat < 2 ^ 57)
    (htlb : s.tlbFind g.die g.lanesTlb (s.groupCtx g) va.toNat = none) (hc : s.ctx? (s.groupCtx g) = some c)
    (hm : mapFind c.maps va.toNat = none) : checkVirtual s g kd n va = .pf := by
  rw [checkVirtual, if_neg (not_not_intro ha), xlate_uncached hlow htlb hc, hm]

theorem checkVirtual_denied (ha : va.toNat % n = 0) (hlow : va.toNat < 2 ^ 57)
    (htlb : s.tlbFind g.die g.lanesTlb (s.groupCtx g) va.toNat = none) (hc : s.ctx? (s.groupCtx g) = some c)
    (hm : mapFind c.maps va.toNat = some m) (hdeny : m.grants kd.need = false) : checkVirtual s g kd n va = .prot := by
  rw [checkVirtual, if_neg (not_not_intro ha), xlate_uncached hlow htlb hc, hm]
  simp [hdeny]

/-- Only a need of writing meets the control block's page, which is read-only (R240). -/
theorem ccbPage_clear {need : Need} (hc : s.ctx? (s.groupCtx g) = some c) (h : need ≠ .r → c.ccb.toNat / 4096 ≠ va.toNat / 4096) :
    ((need == .w || need == .rw) && s.ccbPage (s.groupCtx g) va.toNat) = false := by
  rw [State.ccbPage, hc]
  cases need with
  | r | x => rfl
  | w | rw => simp [h (by decide)]

theorem checkVirtual_mapped (ha : va.toNat % n = 0) (hlow : va.toNat < 2 ^ 57)
    (htlb : s.tlbFind g.die g.lanesTlb (s.groupCtx g) va.toNat = none) (hc : s.ctx? (s.groupCtx g) = some c)
    (hm : mapFind c.maps va.toNat = some m) (hhere : c.present m va.toNat = true) (hgrant : m.grants kd.need = true)
    (hhost : m.host = false) (hwin : m.window = false) (hccb : kd.need ≠ .r → c.ccb.toNat / 4096 ≠ va.toNat / 4096) :
    checkVirtual s g kd n va = .ok .hbm (m.target + (va.toNat - m.va)) := by
  have hspace : m.space = .hbm := by simp [Mapping.space, hhost, hwin]
  rw [checkVirtual, if_neg (not_not_intro ha), xlate_uncached hlow htlb hc, hm]
  dsimp only
  rw [hgrant, ccbPage_clear hc hccb, hhere, hspace]
  rfl

end

/-! ## The trap of a misaligned lane -/

/-- Accesses of a state are accesses of the one before, by their numbers. -/
def AccessesFrom (s t : State) : Prop := ∀ y ∈ t.acc, ∃ z ∈ s.acc, z.id = y.id

theorem accessesFrom_sweep (gi : Nat) (s : State) : AccessesFrom s (sweep gi s) := fun y hy =>
  ⟨y, (List.mem_filter.mp (sweepClass_subset (sweepClass_subset hy))).1, rfl⟩

theorem foldl_endAccess_acc (as : List Access) (s : State) : (as.foldl (fun s a => endAccess a s) s).acc = s.acc :=
  foldl_keeps (fun t : State => t.acc = s.acc) (fun s a => endAccess a s) (fun _ _ h => h) as s rfl

theorem accessesFrom_dropParkedAt (gi si : Nat) (pc : DWord) (s : State) : AccessesFrom s (dropParkedAt gi si pc s) := by
  intro y hy
  obtain ⟨z, hz, hid⟩ := accessesFrom_sweep gi _ y hy
  rw [foldl_endAccess_acc] at hz
  obtain ⟨w, hw, rfl⟩ := List.mem_map.mp hz
  refine ⟨w, hw, Eq.trans ?_ hid⟩
  split <;> rfl

theorem dropParkedAt_registers (gi si : Nat) (pc : DWord) (s : State) : RegistersStay s (dropParkedAt gi si pc s) := by
  refine RegistersStay.trans (foldl_keeps (RegistersStay s) (fun s a => endAccess a s)
    (fun t a h => h.trans (registersStay_modGroup t _ fun _ => ⟨rfl, rfl, rfl, rfl⟩)) _ _ (registersStay_accesses s _)) (sweep_registers ..)

theorem lanesWith_real (m h : LaneMask) (c : Nat → LaneCheck) (q : LaneCheck → Bool) :
    lanesWith (m &&& ~~~h) c q &&& ~~~h = lanesWith (m &&& ~~~h) c q := by
  refine BitVec.eq_of_getLsbD_eq fun L hL => ?_
  rw [lanesWith, BitVec.getLsbD_and, getLsbD_maskOf _ hL, BitVec.getLsbD_and, BitVec.getLsbD_not, decide_eq_true hL, Bool.true_and]
  cases h.getLsbD L <;> simp

/-- The lowest address of some lanes is that of one of them. -/
theorem lowestAddr_spec {m : LaneMask} (hm : m ≠ 0) (addr : Nat → DWord) : ∃ L, m.getLsbD L = true ∧ lowestAddr m addr = addr L ∧
    ∀ M, m.getLsbD M = true → (addr L).toNat ≤ (addr M).toNat := by
  obtain ⟨K, -, hK⟩ := exists_lane hm
  obtain ⟨hmem, hle⟩ := lowest_spec (List.mem_map.mpr ⟨K, mem_lanesOf.mpr hK, rfl⟩ : addr K ∈ (lanesOf m).map addr)
  obtain ⟨L, hL, haddr⟩ := List.mem_map.mp hmem
  refine ⟨L, mem_lanesOf.mp hL, haddr.symm, fun M hM => ?_⟩
  rw [haddr]
  exact hle _ (List.mem_map.mpr ⟨M, mem_lanesOf.mpr hM, rfl⟩)

/-- With a misaligned lane a memory instruction traps, and none of its lanes is performed (R132). -/
theorem issueAccess_misaligned {k : Issue} {op : MemOp} {s : State}
    (h : lanesWith k.real (fun L => op.check (op.addr L)) (fun r => r == .mal) ≠ 0) : issueAccess k op s =
      trapAt k .mal (lowestAddr (lanesWith k.real (fun L => op.check (op.addr L)) (fun r => r == .mal)) op.addr)
        (lanesWith k.real (fun L => op.check (op.addr L)) (fun r => r == .mal)) (dropParked k s) := by
  have hreal : k.real ≠ 0 := fun h0 => h (maskOf_false fun L _ => by simp [h0])
  rw [issueAccess]
  exact (if_neg hreal).trans (if_pos h)

/-- No lane reaches what a faulted operation has left unfinished. -/
theorem usesUnfinished_free {s : State} {k : Issue} {op : MemOp} {lanes : List Nat} {f : PendingFault}
    (h : ∀ L ∈ lanes, ∀ pa, op.check (op.addr L) = .ok .window pa → f.covers s k.gi k.g pa = false) :
    usesUnfinished s k op lanes f = false := by
  rw [usesUnfinished, List.any_eq_false]
  intro L hL
  split
  · rw [h L hL _ ‹_›]; exact Bool.false_ne_true
  · exact Bool.false_ne_true

/-- A virtual access with a misaligned lane (R132): the trap, the registers and the accesses. -/
theorem issueVirtual_misaligned {s : State} {g : Group} {p : Split} {i : Instr} {gd : Guard} {op : MemOp} (hi : s.issuer? = some (g, p))
    (hfree : ∀ f ∈ g.faults, ∀ L pa, op.check (op.addr L) = .ok .window pa → f.covers s s.curG g pa = false) :
    let bad := lanesWith (realLanes g p gd) (fun L => op.check (op.addr L)) (fun r => r == .mal)
    bad ≠ 0 → ∃ u a, issueVirtual (issueOf s g p i gd) op s =
        takeTrap s.curG s.curS .mal a bad (unfinished g p (guardOf (word0 i))) u ∧ u.mem = s.mem ∧
      (u.group? s.curG).map (fun h => (h.vec, h.uni, h.pred)) = some (g.vec, g.uni, g.pred) ∧ AccessesFrom s u ∧
      ∃ L, bad.getLsbD L = true ∧ a = op.addr L ∧ ∀ M, bad.getLsbD M = true → (op.addr L).toNat ≤ (op.addr M).toNat := by
  intro bad hbad
  have hg : s.group? s.curG = some g := (issuer?_eq hi).1
  have hrun : issueVirtual (issueOf s g p i gd) op s = issueAccess (issueOf s g p i gd) op s :=
    deliverOr_free fun f hf => usesUnfinished_free fun L _ pa hpa => hfree f hf L pa hpa
  have hmask : bad &&& ~~~g.helpers = bad := lanesWith_real ..
  have htrap : trapAt (issueOf s g p i gd) .mal (lowestAddr bad op.addr) bad (dropParked (issueOf s g p i gd) s) =
      takeTrap s.curG s.curS .mal (lowestAddr bad op.addr) (bad &&& ~~~g.helpers) (unfinished g p (guardOf (word0 i)))
        (dropParkedAt s.curG s.curS p.pc s) := rfl
  rw [hmask] at htrap
  obtain ⟨h, hh, hvec, huni, hpred, -⟩ := (dropParkedAt_registers s.curG s.curS p.pc s).2 _ g hg
  obtain ⟨L, hL, haddr, hmin⟩ := lowestAddr_spec hbad op.addr
  refine ⟨dropParkedAt s.curG s.curS p.pc s, lowestAddr bad op.addr, (hrun.trans (issueAccess_misaligned hbad)).trans htrap,
    dropParkedAt_mem .., ?_, accessesFrom_dropParkedAt _ _ _ _, L, hL, haddr, hmin⟩
  rw [hh, Option.map_some, hvec, huni, hpred]

/-- Settles O32: the checks of one address by the branches of the translation, and the trap of LD and ST by
`issueVirtual_misaligned`. -/
theorem addressChecks : Obligations.AddressChecks := by
  unfold Obligations.AddressChecks
  intro s g kd n va c m hn
  dsimp only
  refine ⟨checkVirtual_misaligned, checkVirtual_high, fun ha hlow htlb hc => ⟨checkVirtual_unmapped ha hlow htlb hc,
    checkVirtual_denied ha hlow htlb hc, checkVirtual_mapped ha hlow htlb hc⟩, fun x p i hi hex hsz hfree hbad => ?_⟩
  subst hsz
  rcases hi with ⟨rfl, rfl⟩ | ⟨rfl, rfl⟩
  · obtain ⟨u, a, htrap, hu⟩ := issueVirtual_misaligned (op := loadOp s (issueOf s g p (.ld x) x.guard) x .ld (szBytes x) false)
      (gd := x.guard) (i := .ld x) hex.1 hfree hbad
    exact ⟨u, a, ((exec_ld x s).trans (runInstr_executes _ _ hex)).trans (congrArg Host.Outcome.next htrap), hu⟩
  · obtain ⟨u, a, htrap, hu⟩ := issueVirtual_misaligned (op := storeOp s (issueOf s g p (.st x) x.guard) x .st (szBytes x) false)
      (gd := x.guard) (i := .st x) hex.1 hfree hbad
    exact ⟨u, a, ((exec_st x s).trans (runInstr_executes _ _ hex)).trans (congrArg Host.Outcome.next htrap), hu⟩

end Sys2Proof.Machine
end

section
namespace Sys2Proof.Machine

open Sys2Proof

/-! ## What the end of a lane access leaves of groups that only wait for it (R112, R185, R304) -/

/-- Of two groups only the splits and the counters of lane accesses differ. -/
def SplitsAndCounters (g h : Group) : Prop := h = { g with splits := h.splits, cntL := h.cntL, cntS := h.cntS }

theorem SplitsAndCounters.trans {g h k : Group} (h1 : SplitsAndCounters g h) (h2 : SplitsAndCounters h k) : SplitsAndCounters g k :=
  Eq.trans h2 (congrArg (fun x : Group => { x with splits := k.splits, cntL := k.cntL, cntS := k.cntS }) h1)

/-- Only groups and accesses differ, and of groups only splits and counters. -/
def AccessesOnly (s t : State) : Prop :=
  t = { s with groups := t.groups, acc := t.acc } ∧
    ∀ j g, s.group? j = some g → ∃ h, t.group? j = some h ∧ SplitsAndCounters g h

theorem AccessesOnly.trans {s t u : State} (h1 : AccessesOnly s t) (h2 : AccessesOnly t u) : AccessesOnly s u := by
  obtain ⟨e1, g1⟩ := h1
  obtain ⟨e2, g2⟩ := h2
  refine ⟨e2.trans (congrArg (fun z : State => { z with groups := u.groups, acc := u.acc }) e1), fun j g hj => ?_⟩
  obtain ⟨h, hh, hgh⟩ := g1 j g hj
  obtain ⟨k, hk, hhk⟩ := g2 j h hh
  exact ⟨k, hk, hgh.trans hhk⟩

theorem accessesOnly_accesses (s : State) (as : List Access) : AccessesOnly s { s with acc := as } :=
  ⟨rfl, fun _ g hj => ⟨g, hj, rfl⟩⟩

theorem accessesOnly_refl (s : State) : AccessesOnly s s := accessesOnly_accesses s s.acc

theorem accessesOnly_modGroup (s : State) (gi : Nat) {f : Group → Group} (hf : ∀ g, SplitsAndCounters g (f g)) :
    AccessesOnly s (s.modGroup gi f) := by
  refine ⟨rfl, fun j g hj => ?_⟩
  rw [group?_modGroup, hj]
  split
  · exact ⟨f g, rfl, hf g⟩
  · exact ⟨g, rfl, rfl⟩

theorem accessesOnly_modSplit (s : State) (gi si : Nat) (f : Split → Split) : AccessesOnly s (s.modSplit gi si f) :=
  accessesOnly_modGroup s gi fun _ => rfl

theorem AccessesOnly.registersSame {s t : State} (h : AccessesOnly s t) : RegistersSame s t := by
  intro j g hj
  obtain ⟨k, hk, hgk⟩ := h.2 j g hj
  exact ⟨k, hk, by rw [hgk], by rw [hgk], by rw [hgk], by rw [hgk], by rw [hgk], by rw [hgk]⟩

theorem AccessesOnly.memorySame {s t : State} (h : AccessesOnly s t) : MemorySame s t := by
  unfold MemorySame
  rw [h.1]
  exact ⟨rfl, rfl, rfl, rfl, rfl⟩

theorem wakeEvents_accesses (pa n : Nat) (s : State) : AccessesOnly s (wakeEvents pa n s) :=
  foldl_keeps (AccessesOnly s) _ (fun t w h => by
    obtain ⟨gi, si, va, wpa, ge, next⟩ := w
    dsimp only
    split
    · exact h.trans (accessesOnly_modSplit ..)
    · exact h) _ s (accessesOnly_refl s)

theorem sweep_accesses (gi : Nat) (s : State) : AccessesOnly s (sweep gi s) :=
  (accessesOnly_accesses s _).trans (accessesOnly_modGroup _ gi fun _ => rfl)

theorem continueAfter_accesses (a : Access) (s : State) : AccessesOnly s (continueAfter a s) := accessesOnly_modSplit ..

/-- The end of an access that raises no flag. -/
theorem endAccess_accesses {a : Access} (s : State) (h : a.raised = 0) : AccessesOnly s (endAccess a s) :=
  accessesOnly_modGroup s a.group fun g => by
    have hflags : g.flags ||| a.raised = g.flags := by rw [h]; exact BitVec.or_zero
    simp only [SplitsAndCounters, Group.release, hflags]

/-- A lookup of an access follows a change that keeps the numbers. -/
theorem access?_modAccess (s : State) (id : Nat) {f : Access → Access} (hf : ∀ a, (f a).id = a.id) :
    (s.modAccess id f).access? id = (s.access? id).map f := by
  have hid : (fun a : Access => a.id == id) ∘ (fun a => if a.id = id then f a else a) = fun a => a.id == id := by
    funext a
    rw [Function.comp_apply]
    split <;> simp [hf]
  rw [State.access?, State.modAccess, List.find?_map, hid, State.access?]
  cases h : s.acc.find? (fun a => a.id == id) with
  | none => rfl
  | some a => simp [show a.id = id by simpa using List.find?_some h]

theorem endLane_accesses {id lane : Nat} {s : State} (h : ∀ a, s.access? id = some a → a.raised = 0) :
    AccessesOnly s (endLane id lane s) := by
  unfold endLane
  dsimp only
  split
  · exact accessesOnly_accesses ..
  · rename_i b hb
    obtain ⟨a, ha, rfl⟩ := Option.map_eq_some_iff.mp (Eq.trans (access?_modAccess s id
      (f := fun a => { a with lanes := a.lanes.map (fun l => if l.lane = lane then { l with stage := .done } else l) })
      fun _ => rfl).symm hb)
    split
    · exact (accessesOnly_accesses ..).trans (endAccess_accesses _ (h a ha))
    · exact accessesOnly_accesses ..

/-! ## A split that stands with a property -/

/-- The split of an index has a property. -/
def SplitIs (P : Split → Prop) (gi si : Nat) (t : State) : Prop := ∃ h q, t.group? gi = some h ∧ h.split? si = some q ∧ P q

section
variable {P Q : Split → Prop} {gi si : Nat} {t : State}

/-- A change of splits that keeps their numbers. -/
theorem SplitIs.modGroup {gj : Nat} {f : Group → Group} {F : Split → Split} (h : SplitIs P gi si t)
    (hf : ∀ g, (f g).splits = g.splits.map F) (hF : ∀ q, (F q).idx = q.idx) (hP : ∀ q, P q → P (F q)) :
    SplitIs P gi si (t.modGroup gj f) := by
  obtain ⟨g, q, hg, hq, hPq⟩ := h
  by_cases hj : gi = gj
  · subst hj
    exact ⟨f g, F q, group?_modGroup_same f hg, by rw [split?_map (hf g) hF, hq]; rfl, hP q hPq⟩
  · exact ⟨g, q, (group?_modGroup_other f hj).trans hg, hq, hPq⟩

/-- The change of that split. -/
theorem SplitIs.becomes {f : Split → Split} (h : SplitIs P gi si t) (hf : ∀ q, (f q).idx = q.idx) (hPQ : ∀ q, P q → Q (f q)) :
    SplitIs Q gi si (t.modSplit gi si f) := by
  obtain ⟨g, q, hg, hq, hPq⟩ := h
  exact ⟨_, f q, group?_modGroup_same _ hg, split?_modSplit f hf hq, hPQ q hPq⟩

/-- The change of another split. -/
theorem SplitIs.modSplit_other {gj sj : Nat} {f : Split → Split} (h : SplitIs P gi si t) (hf : ∀ q, (f q).idx = q.idx)
    (hne : ¬ (gj = gi ∧ sj = si)) : SplitIs P gi si (t.modSplit gj sj f) := by
  obtain ⟨g, q, hg, hq, hPq⟩ := h
  by_cases hj : gi = gj
  · subst hj
    have hF : ∀ p : Split, (if p.idx = sj then f p else p).idx = p.idx := fun p => by split <;> simp [hf]
    have hidx : q.idx = si := by simpa using List.find?_some hq
    refine ⟨_, _, group?_modGroup_same _ hg, (split?_map rfl hF si).trans (by rw [hq]; rfl), ?_⟩
    change P (if q.idx = sj then f q else q)
    rwa [if_neg fun he : q.idx = sj => hne ⟨rfl, he.symm.trans hidx⟩]
  · exact ⟨g, q, (group?_modGroup_other _ hj).trans hg, hq, hPq⟩

theorem SplitIs.of_groups {u : State} (h : SplitIs P gi si t) (hg : u.groups = t.groups) : SplitIs P gi si u := by
  obtain ⟨g, q, ht, hq, hPq⟩ := h
  exact ⟨g, q, (group?_of_groups hg gi).trans ht, hq, hPq⟩

section
variable (hP : ∀ q hs, P q → P { q with holds := hs })
include hP

theorem SplitIs.endAccess (a : Access) (h : SplitIs P gi si t) : SplitIs P gi si (endAccess a t) :=
  h.modGroup (F := fun p => { p with holds := p.holds.filter (fun h => h.op != a.id) }) (fun _ => rfl) (fun _ => rfl) fun q hq => hP q _ hq

theorem SplitIs.endLane (id lane : Nat) (h : SplitIs P gi si t) : SplitIs P gi si (endLane id lane t) := by
  unfold Machine.endLane
  dsimp only
  split
  · exact h.of_groups rfl
  · split
    · exact SplitIs.endAccess hP _ (h.of_groups rfl)
    · exact h.of_groups rfl

end

theorem SplitIs.sweep (gj : Nat) (h : SplitIs P gi si t) : SplitIs P gi si (sweep gj t) :=
  (h.of_groups rfl).modGroup (F := id) (fun _ => (List.map_id _).symm) (fun _ => rfl) fun _ hq => hq

end

/-! ## Wakes of event waits (R143, R304) -/

theorem mem_eventWaits {s : State} {gi si : Nat} {va : DWord} {wpa : Nat} {ge nxt : DWord} :
    (gi, si, va, wpa, ge, nxt) ∈ eventWaits s ↔
      ∃ h q, s.group? gi = some h ∧ q ∈ h.splits ∧ q.idx = si ∧ q.wait = .evwait va wpa ge nxt := by
  unfold eventWaits
  simp only [List.mem_flatMap, List.mem_filterMap, Prod.exists, List.mk_mem_zipIdx_iff_getElem?]
  constructor
  · rintro ⟨h, j, hj, q, hq, hw⟩
    split at hw
    · rename_i va' wpa' ge' nxt' hwait
      cases hw
      exact ⟨h, q, hj, hq, rfl, hwait⟩
    · cases hw
  · rintro ⟨h, q, hg, hq, rfl, hwait⟩
    exact ⟨h, gi, hg, q, hq, by rw [hwait]⟩

/-- One wait's turn in the wake that a write of [pa, pa + n) makes. -/
def wakeStep (pa n : Nat) (t : State) (w : Nat × Nat × DWord × Nat × DWord × DWord) : State :=
  match w with
  | (gi, si, va, wpa, ge, next) =>
    if decide (wpa < pa + n) && decide (pa < wpa + 8) && decide (ge.toNat ≤ natLE (t.memBytes wpa 8)) && stillThere t gi va wpa then
      t.modSplit gi si (fun p => p.goto next)
    else t

theorem wakeEvents_eq_foldl (pa n : Nat) (s : State) : wakeEvents pa n s = (eventWaits s).foldl (wakeStep pa n) s := rfl

/-- A turn changes nothing, or lets that wait's split go on. -/
theorem wakeStep_cases (pa n : Nat) (t : State) (gi si : Nat) (va : DWord) (wpa : Nat) (ge nxt : DWord) :
    wakeStep pa n t (gi, si, va, wpa, ge, nxt) = t ∨
      wakeStep pa n t (gi, si, va, wpa, ge, nxt) = t.modSplit gi si (fun p => p.goto nxt) := by
  by_cases h : (decide (wpa < pa + n) && decide (pa < wpa + 8) && decide (ge.toNat ≤ natLE (t.memBytes wpa 8)) && stillThere t gi va wpa) = true
  · exact .inr (if_pos h)
  · exact .inl (if_neg h)

/-- The turn of a wait whose word the write made great enough, while its address still leads there. -/
theorem wakeStep_goes {pa n : Nat} {t : State} {gi : Nat} {va : DWord} {wpa : Nat} {ge : DWord} (hlo : wpa < pa + n) (hhi : pa < wpa + 8)
    (hword : ge.toNat ≤ natLE (t.memBytes wpa 8)) (hthere : stillThere t gi va wpa = true) (si : Nat) (nxt : DWord) :
    wakeStep pa n t (gi, si, va, wpa, ge, nxt) = t.modSplit gi si (fun p => p.goto nxt) :=
  if_pos (by rw [decide_eq_true hlo, decide_eq_true hhi, decide_eq_true hword, hthere]; rfl)

section
variable {s : State} {pa n gi si : Nat}

/-- A wake leaves a split that waits for no event word. -/
theorem wakeEvents_other {P : Split → Prop} (h : SplitIs P gi si s)
    (hnone : ∀ g, s.group? gi = some g → ∀ q ∈ g.splits, q.idx = si → ∀ va wpa ge nxt, q.wait ≠ .evwait va wpa ge nxt) :
    SplitIs P gi si (wakeEvents pa n s) := by
  refine List.foldlRecOn (motive := SplitIs P gi si) (eventWaits s) _ h fun t ht w hw => ?_
  obtain ⟨gj, sj, va, wpa, ge, nxt⟩ := w
  obtain ⟨g, q, hg, hq, hidx, hwait⟩ := mem_eventWaits.mp hw
  dsimp only
  split
  · exact ht.modSplit_other (fun _ => rfl) fun ⟨hgj, hsj⟩ => hnone g (hgj ▸ hg) q hq (hidx.trans hsj) va wpa ge nxt hwait
  · exact ht

/-- The same where another wait is the split's own. -/
theorem wakeEvents_split {P : Split → Prop} {g : Group} {p : Split} (hg : s.group? gi = some g) (hp : g.split? si = some p) (hP : P p)
    (hnodup : (g.splits.map (fun q => q.idx)).Nodup) (hwait : ∀ va wpa ge nxt, p.wait ≠ .evwait va wpa ge nxt) :
    SplitIs P gi si (wakeEvents pa n s) := by
  refine wakeEvents_other ⟨g, p, hg, hp, hP⟩ fun g' hg' q hq hidx => ?_
  obtain rfl : g' = g := Option.some.inj (hg'.symm.trans hg)
  subst hidx
  obtain rfl : q = p := Option.some.inj ((split?_of_mem hq hnodup).symm.trans hp)
  exact hwait

variable {h : Group} {q : Split} {va : DWord} {wpa : Nat} {ge nxt : DWord}

/-- A state in a wake of event waits: only groups have changed, and a group still stands in its place with a split. -/
def Waking (s : State) (gi si : Nat) (h : Group) (t : State) : Prop :=
  t = { s with groups := t.groups } ∧ ∃ k p, t.group? gi = some k ∧ SplitsAndCounters h k ∧ k.split? si = some p

theorem Waking.modSplit {t : State} {gj sj : Nat} {f : Split → Split} (ht : Waking s gi si h t) (hf : ∀ q, (f q).idx = q.idx) :
    Waking s gi si h (t.modSplit gj sj f) := by
  obtain ⟨he, k, p, hk, hhk, hp⟩ := ht
  refine ⟨congrArg (fun z : State => { z with groups := (t.modSplit gj sj f).groups }) he, ?_⟩
  by_cases hj : gi = gj
  · subst hj
    have hF : ∀ p : Split, (if p.idx = sj then f p else p).idx = p.idx := fun p => by split <;> simp [hf]
    exact ⟨_, _, group?_modGroup_same _ hk, hhk.trans (h := k) rfl, (split?_map rfl hF si).trans (by rw [hp]; rfl)⟩
  · exact ⟨k, p, (group?_modGroup_other _ hj).trans hk, hhk, hp⟩

/-- In a wake the test of the split's own word has not changed. -/
theorem Waking.test {t : State} (ht : Waking s gi si h t) (hxlate : xlate s h.die h.lanesTlb (s.groupCtx h) va .r = .ok .hbm wpa)
    (hge : ge.toNat ≤ natLE (s.memBytes wpa 8)) : ge.toNat ≤ natLE (t.memBytes wpa 8) ∧ stillThere t gi va wpa = true := by
  obtain ⟨he, k, p, hk, hhk, -⟩ := ht
  have hsame : xlate t k.die k.lanesTlb (t.groupCtx k) va .r = xlate s h.die h.lanesTlb (s.groupCtx h) va .r := by
    rw [hhk, he]; rfl
  refine ⟨by rw [he]; exact hge, ?_⟩
  rw [stillThere, hk, Option.any_some, hsame, hxlate]
  exact beq_self_eq_true _

/-- A write that makes an event word great enough lets the split that waits for it go on (R304). -/
theorem wakeEvents_wakes (hg : s.group? gi = some h) (hnodup : (h.splits.map (fun q => q.idx)).Nodup) (hq : q ∈ h.splits)
    (hwait : q.wait = .evwait va wpa ge nxt) (hlo : wpa < pa + n) (hhi : pa < wpa + 8) (hge : ge.toNat ≤ natLE (s.memBytes wpa 8))
    (hxlate : xlate s h.die h.lanesTlb (s.groupCtx h) va .r = .ok .hbm wpa) : GoesOn (wakeEvents pa n s) gi q.idx nxt := by
  obtain ⟨before, after, hl⟩ := List.append_of_mem (mem_eventWaits.mpr ⟨h, q, hg, hq, rfl, hwait⟩)
  have hmine : ∀ si' va' wpa' ge' nxt', (gi, si', va', wpa', ge', nxt') ∈ eventWaits s → si' = q.idx → nxt' = nxt := by
    intro si' va' wpa' ge' nxt' hw hsi
    obtain ⟨g', q', hg', hq', hidx, hwait'⟩ := mem_eventWaits.mp hw
    obtain rfl : g' = h := Option.some.inj (hg'.symm.trans hg)
    obtain rfl : q' = q := List.inj_on_of_nodup_map hnodup hq' hq (hidx.trans hsi)
    rw [hwait] at hwait'
    cases hwait'
    rfl
  have hfirst : Waking s gi q.idx h (before.foldl (wakeStep pa n) s) :=
    foldl_keeps (Waking s gi q.idx h) (wakeStep pa n) (fun t ⟨gj, sj, va', wpa', ge', nxt'⟩ ht => by
      rcases wakeStep_cases pa n t gj sj va' wpa' ge' nxt' with he | he <;> rw [he]
      · exact ht
      · exact ht.modSplit fun _ => rfl) before s ⟨rfl, h, q, hg, rfl, split?_of_mem hq hnodup⟩
  have hown : SplitIs (fun q => q.pc = nxt ∧ q.wait = .none) gi q.idx
      (wakeStep pa n (before.foldl (wakeStep pa n) s) (gi, q.idx, va, wpa, ge, nxt)) := by
    obtain ⟨hword, hthere⟩ := hfirst.test hxlate hge
    obtain ⟨-, k, p, hk, -, hp⟩ := hfirst
    rw [wakeStep_goes hlo hhi hword hthere]
    exact SplitIs.becomes (P := fun _ => True) ⟨k, p, hk, hp, trivial⟩ (fun _ => rfl) fun _ _ => ⟨rfl, rfl⟩
  rw [wakeEvents_eq_foldl, hl, List.foldl_append, List.foldl_cons]
  refine List.foldlRecOn (motive := SplitIs (fun q => q.pc = nxt ∧ q.wait = .none) gi q.idx) after (wakeStep pa n) hown fun t ht w hw => ?_
  obtain ⟨gj, sj, va', wpa', ge', nxt'⟩ := w
  rcases wakeStep_cases pa n t gj sj va' wpa' ge' nxt' with he | he <;> rw [he]
  · exact ht
  · by_cases hs : gj = gi ∧ sj = q.idx
    · obtain ⟨rfl, rfl⟩ := hs
      obtain rfl := hmine _ va' wpa' ge' nxt' (by rw [hl]; exact List.mem_append_right _ (List.mem_cons_of_mem _ hw)) rfl
      exact ht.becomes (fun _ => rfl) fun _ _ => ⟨rfl, rfl⟩
    · exact ht.modSplit_other (fun _ => rfl) hs

end

end Sys2Proof.Machine
end

section
namespace Sys2Proof.Machine

open Sys2Proof

/-! ## A lane that takes its place and wakes no reader of a scratchpad line (R130, R147) -/

/-- The events of a lane that may be performed perform it, by the kind of its access. -/
theorem exec_performs {s : State} {id lane : Nat} {a : Access} {l : LaneAcc} {g : Group} (h : Performing s id lane a l g)
    (hlds : a.kind ≠ .lds) :
    (a.kind.isStore = false → exec (.loadDataReturn id lane) s = .next (takePlace a l s)) ∧
      (a.kind.isStore = true → exec (.storePerformed id lane) s = .next (takePlace a l s)) := by
  obtain ⟨ha, hl, -, hready⟩ := h
  constructor <;> intro hk
  · rw [exec_loadDataReturn, execLoadDataReturn, performEvent, ha]
    dsimp only
    rw [hl]
    dsimp only
    rw [hk, hready, if_neg hlds]
    rfl
  · rw [exec_storePerformed, execStorePerformed, performEvent, ha]
    dsimp only
    rw [hl]
    dsimp only
    rw [hk, hready, if_neg hlds]
    rfl

/-- A lane that changes no block, of an access that no split waits for, is performed and ends. -/
theorem takePlace_quiet {a : Access} {l : LaneAcc} {s : State} (hlds : a.kind ≠ .lds) (hsig : a.kind ≠ .evsig) (hwait : a.kind ≠ .evwait)
    (hb : (performLane a l s).blocks = s.blocks) : takePlace a l s = laneReturned a l s := by
  have hblocks : (endLane a.id l.lane (performLane a l s)).blocks = s.blocks := by
    rw [(endLane_registers ..).1]; exact hb
  unfold takePlace laneReturned
  dsimp only
  split
  · exact absurd ‹_› hlds
  · exact absurd ‹_› hsig
  · exact absurd ‹_› hwait
  · split
    · rw [wakeIfFilled_same hblocks]
    · rw [wakeWindow_same hblocks]
    · rfl

/-- The access of a lane that is performed is the first of its number. -/
theorem Performing.access {s : State} {id lane : Nat} {a : Access} {l : LaneAcc} {g : Group} (h : Performing s id lane a l g) :
    s.access? id = some a ∧ a.id = id ∧ l.lane = lane ∧ l ∈ a.lanes ∧ s.group? a.group = some g := by
  obtain ⟨ha, hl, hg, -⟩ := h
  exact ⟨ha, by simpa using List.find?_some ha, by simpa using List.find?_some hl, List.mem_of_find?_eq_some hl, hg⟩

/-! ## A lane that writes its place (R147, R167) -/

/-- The state in which a lane has written a number of n bytes at its place. -/
def placeWritten (s : State) (a : Access) (l : LaneAcc) (g : Group) (n v : Nat) : State :=
  spaceWrite (atPlace a l g s) (s.groupCtx g) g.block l.space l.addr n v

/-- The state in which it has also let the waits for an event word go on. -/
def placeSignalled (s : State) (a : Access) (l : LaneAcc) (g : Group) (n v : Nat) : State :=
  if l.space = .hbm then wakeEvents l.addr n (placeWritten s a l g n v) else placeWritten s a l g n v

/-- A lane of ST is performed so. -/
theorem performLane_st {s : State} {a : Access} {l : LaneAcc} {g : Group} (hk : a.kind = .st) (hg : s.group? a.group = some g) :
    performLane a l s = placeSignalled s a l g a.bytes l.data.toNat := by
  unfold performLane
  rw [hg, hk]
  rfl

section
variable {s t : State} {a : Access} {l : LaneAcc} {g : Group} {n v : Nat}

/-- A write of HBM changes its bytes, records of lines, and no more. -/
theorem placeWritten_hbm (hsp : l.space = .hbm) (s : State) (a : Access) (g : Group) (n v : Nat) :
    ∃ u m, LinesOnly s u ∧ placeWritten s a l g n v = { u with mem := m } ∧
      ∀ pa, (placeWritten s a l g n v).memGet pa =
        if l.addr ≤ pa ∧ pa < l.addr + n then BitVec.ofNat 8 (v / 2 ^ (8 * (pa - l.addr))) else s.memGet pa := by
  obtain ⟨m, hm⟩ := spaceWrite_hbm_only (atPlace a l g s) (s.groupCtx g) g.block l.addr n v
  obtain ⟨-, -, hmem, -⟩ := (atPlace_lines a l g s).fields
  unfold placeWritten
  rw [hsp]
  exact ⟨_, m, atPlace_lines a l g s, hm, fun pa => by rw [memGet_spaceWrite, memGet_of_mem hmem]⟩

/-- A write of host memory posts its bytes, and no more. -/
theorem placeWritten_host (hsp : l.space = .host) (s : State) (a : Access) (g : Group) (n v : Nat) :
    placeWritten s a l g n v = spaceWrite s (s.groupCtx g) g.block .host l.addr n v := by
  unfold placeWritten atPlace
  rw [if_neg (by rw [hsp]; exact nofun), hsp]

theorem placeWritten_groups (hsp : l.space = .hbm ∨ l.space = .host) (s : State) (a : Access) (g : Group) (n v : Nat) :
    (placeWritten s a l g n v).groups = s.groups ∧ (placeWritten s a l g n v).acc = s.acc ∧
      (placeWritten s a l g n v).blocks = s.blocks := by
  rcases hsp with hsp | hsp
  · obtain ⟨u, m, hu, hw, -⟩ := placeWritten_hbm hsp s a g n v
    obtain ⟨hgroups, hacc, -, -, -, hblocks, -⟩ := hu.fields
    rw [hw]
    exact ⟨hgroups, hacc, hblocks⟩
  · obtain ⟨ps, hps⟩ := spaceWrite_host_only s (s.groupCtx g) g.block l.addr n v
    rw [placeWritten_host hsp, hps]
    exact ⟨rfl, rfl, rfl⟩

theorem placeSignalled_accesses (s : State) (a : Access) (l : LaneAcc) (g : Group) (n v : Nat) :
    AccessesOnly (placeWritten s a l g n v) (placeSignalled s a l g n v) ∧
      (placeSignalled s a l g n v).acc = (placeWritten s a l g n v).acc ∧
      (placeSignalled s a l g n v).blocks = (placeWritten s a l g n v).blocks := by
  unfold placeSignalled
  split
  · obtain ⟨gs, hgs⟩ := wakeEvents_groups l.addr n (placeWritten s a l g n v)
    refine ⟨wakeEvents_accesses .., ?_, ?_⟩ <;> rw [hgs]
  · exact ⟨accessesOnly_refl _, rfl, rfl⟩

/-- What stands when of a write of HBM only accesses have ended since. -/
theorem placeWritten_hbm_leaves (hsp : l.space = .hbm) (h : AccessesOnly (placeWritten s a l g n v) t) :
    (∀ pa, t.memGet pa = if l.addr ≤ pa ∧ pa < l.addr + n then BitVec.ofNat 8 (v / 2 ^ (8 * (pa - l.addr))) else s.memGet pa) ∧
      t.hostMem = s.hostMem ∧ t.posted = s.posted ∧ t.blocks = s.blocks ∧ t.ctxs = s.ctxs ∧ RegistersSame s t := by
  obtain ⟨u, m, hu, hw, hmem⟩ := placeWritten_hbm hsp s a g n v
  obtain ⟨hgroups, -, -, hhost, hposted, hblocks, hctxs, -, -⟩ := hu.fields
  obtain ⟨hm, hh, hp, hb, hc⟩ := h.memorySame
  refine ⟨fun pa => (memGet_of_mem hm pa).trans (hmem pa), hh.trans ?_, hp.trans ?_, hb.trans ?_, hc.trans ?_, fun j x hj => ?_⟩
  · rw [hw]; exact hhost
  · rw [hw]; exact hposted
  · rw [hw]; exact hblocks
  · rw [hw]; exact hctxs
  · exact h.registersSame j x ((group?_of_groups (placeWritten_groups (.inl hsp) s a g n v).1 j).trans hj)

/-- The same of a write of host memory inside one bus page. -/
theorem placeWritten_host_leaves (hsp : l.space = .host) (hpage : l.addr % 4096 + n ≤ 4096) (h : AccessesOnly (placeWritten s a l g n v) t) :
    (∀ pa, t.hostGet pa = if s.hostPa l.addr ≤ s.hostPa pa ∧ s.hostPa pa < s.hostPa l.addr + n then
        BitVec.ofNat 8 (v / 2 ^ (8 * (s.hostPa pa - s.hostPa l.addr))) else s.hostGet pa) ∧
      t.mem = s.mem ∧ t.hostMem = s.hostMem ∧ t.blocks = s.blocks ∧ t.ctxs = s.ctxs ∧ RegistersSame s t := by
  have hgroups := (placeWritten_groups (.inr hsp) s a g n v).1
  rw [placeWritten_host hsp] at h hgroups
  obtain ⟨ps, hps⟩ := spaceWrite_host_only s (s.groupCtx g) g.block l.addr n v
  obtain ⟨hm, hh, hp, hb, hc⟩ := h.memorySame
  have hget (pa : Nat) : t.hostGet pa = (spaceWrite s (s.groupCtx g) g.block .host l.addr n v).hostGet pa :=
    hostGet_congr hp hh (by rw [h.1]) (by rw [h.1]) pa
  refine ⟨fun pa => by rw [hget, hostGet_spaceWrite hpage], hm.trans ?_, hh.trans ?_, hb.trans ?_, hc.trans ?_, fun j x hj => ?_⟩
  · rw [hps]
  · rw [hps]
  · rw [hps]
  · rw [hps]
  · exact h.registersSame j x ((group?_of_groups hgroups j).trans hj)

end

/-- Each posted byte goes in front of the ones before it (R167). -/
theorem spaceWrite_host_posted (s : State) (cn bi a n v : Nat) : (spaceWrite s cn bi .host a n v).posted.drop n = s.posted := by
  have hposts : ∀ (bs : List Byte) (k : Nat) (u : State),
      ((bs.zipIdx k).foldl (fun u x => u.hostPut cn (a + x.2) x.1) u).posted.drop bs.length = u.posted := by
    intro bs
    induction bs with
    | nil => intro k u; rfl
    | cons b bs ih =>
      intro k u
      have hrest := ih (k + 1) (u.hostPut cn (a + k) b)
      rw [List.zipIdx_cons, List.foldl_cons, List.length_cons, ← List.drop_drop, hrest]
      rfl
  have hall := hposts (bytesLE n v) 0 s
  rwa [bytesLE_length] at hall

/-! ## Stores (O33) -/

section
variable {s : State} {id lane : Nat} {a : Access} {l : LaneAcc} {g : Group} (h : Performing s id lane a l g)
include h

/-- The lane of an access that raises no flag ends, and only accesses have ended since it was performed. -/
theorem endLane_performed {t : State} (ht : t.acc = s.acc) (hraised : a.raised = 0) : AccessesOnly t (endLane a.id l.lane t) := by
  obtain ⟨ha, hid, -⟩ := h.access
  refine endLane_accesses fun b hb => ?_
  rw [State.access?, ht, hid] at hb
  obtain rfl : b = a := Option.some.inj (hb.symm.trans ha)
  exact hraised

/-- A lane of ST writes its place, and only accesses have ended since. -/
theorem st_performs (hk : a.kind = .st) (hsp : l.space = .hbm ∨ l.space = .host) :
    exec (.storePerformed id lane) s = .next (laneReturned a l s) ∧
      AccessesOnly (placeWritten s a l g a.bytes l.data.toNat) (laneReturned a l s) := by
  obtain ⟨-, -, -, -, hg⟩ := h.access
  obtain ⟨hgroups, hacc, hblocks⟩ := placeWritten_groups hsp s a g a.bytes l.data.toNat
  obtain ⟨honly, hacc', hblocks'⟩ := placeSignalled_accesses s a l g a.bytes l.data.toNat
  have hperf := performLane_st (l := l) hk hg
  constructor
  · have hquiet : takePlace a l s = laneReturned a l s :=
      takePlace_quiet (by rw [hk]; exact nofun) (by rw [hk]; exact nofun) (by rw [hk]; exact nofun)
        (by rw [hperf]; exact hblocks'.trans hblocks)
    rw [(exec_performs h (by rw [hk]; exact nofun)).2 (by rw [hk]; rfl), hquiet]
  · unfold laneReturned
    rw [hperf]
    exact (honly.trans (endLane_performed h (hacc'.trans hacc) (by rw [Access.raised, hk]))).trans (sweep_accesses ..)

end

/-- Settles O33: the lane's write is what the model's space write leaves, only accesses and their groups' counters differ since, and
the wake that follows a write of HBM reaches every split whose word has become great enough. -/
theorem storesPerform : Obligations.StoresPerform := by
  intro id lane s a l g h hk
  dsimp only
  constructor
  · intro hsp
    obtain ⟨hexec, honly⟩ := st_performs h hk (.inl hsp)
    obtain ⟨hmem, hhost, hposted, hblocks, hctxs, hregs⟩ := placeWritten_hbm_leaves hsp honly
    refine ⟨_, hexec, hmem, hhost, hposted, hblocks, hctxs, hregs, ?_⟩
    intro gi x q va wpa ge nxt hx hnodup hq hwait hlo hhi hge hxlate
    obtain ⟨u, m, hu, hw, -⟩ := placeWritten_hbm hsp s a g a.bytes l.data.toNat
    have hwx : (placeWritten s a l g a.bytes l.data.toNat).group? gi = some x :=
      (group?_of_groups (placeWritten_groups (.inl hsp) s a g a.bytes l.data.toNat).1 gi).trans hx
    have hword : ge.toNat ≤ natLE ((placeWritten s a l g a.bytes l.data.toNat).memBytes wpa 8) := by
      rwa [memBytes_of_mem honly.memorySame.1] at hge
    have hsame : xlate (placeWritten s a l g a.bytes l.data.toNat) x.die x.lanesTlb
        ((placeWritten s a l g a.bytes l.data.toNat).groupCtx x) va .r = xlate s x.die x.lanesTlb (s.groupCtx x) va .r := by
      rw [hw, hu]; rfl
    have hwoken : SplitIs (fun q => q.pc = nxt ∧ q.wait = .none) gi q.idx (performLane a l s) := by
      rw [performLane_st hk h.access.2.2.2.2, placeSignalled, if_pos hsp]
      exact wakeEvents_wakes hwx hnodup hq hwait hlo hhi hword (hsame.trans hxlate)
    exact (hwoken.endLane (fun _ _ hP => hP) a.id l.lane).sweep a.group
  · intro hsp hpage
    obtain ⟨hexec, honly⟩ := st_performs h hk (.inr hsp)
    obtain ⟨hget, hmem, hhost, hblocks, hctxs, hregs⟩ := placeWritten_host_leaves hsp hpage honly
    have hposted : (laneReturned a l s).posted.drop a.bytes = s.posted := by
      rw [honly.memorySame.2.2.1, placeWritten_host hsp]
      exact spaceWrite_host_posted ..
    exact ⟨_, hexec, hget, hmem, hhost, hposted, hblocks, hctxs, hregs⟩

end Sys2Proof.Machine
end

section
namespace Sys2Proof.Machine

open Sys2Proof

/-! ## Accesses of one split (O35) -/

/-- A loaded value in the uniform registers. -/
theorem fillU_receives {g : Group} {d n v : Nat} (hlive : g.retired = false) (hn : n ∈ [1, 2, 4, 8, 16]) :
    g.fillU d n (BitVec.ofNat 128 v) = { g with uni := (g.fillU d n (BitVec.ofNat 128 v)).uni } ∧
      ∀ r, (g.fillU d n (BitVec.ofNat 128 v)).uget r =
        if d ≤ r ∧ r < d + (n + 3) / 4 then BitVec.ofNat 32 (v / 2 ^ (32 * (r - d))) else g.uget r := by
  obtain ⟨hregs, hfour⟩ := regsOf_eq hn
  obtain ⟨hframe, hget⟩ := foldl_uset d (fun k => (BitVec.ofNat 128 v).extractLsb' (32 * k) 32) g (regsOf n)
  have hfill : g.fillU d n (BitVec.ofNat 128 v) =
      (List.range (regsOf n)).foldl (fun g k => g.uset (d + k) ((BitVec.ofNat 128 v).extractLsb' (32 * k) 32)) g :=
    if_neg (by simp [hlive])
  rw [hfill]
  refine ⟨hframe, fun r => (hget r).trans ?_⟩
  rw [hregs] at hfour ⊢
  by_cases h : d ≤ r ∧ r < d + (n + 3) / 4
  · rw [if_pos h, if_pos h, extractLsb'_ofNat v (by omega)]
  · rw [if_neg h, if_neg h]

/-- LDU writes its registers, once its line is there. -/
theorem performLane_ldu {s : State} {a : Access} {l : LaneAcc} {g : Group} (hk : a.kind = .ldu) (hg : s.group? a.group = some g) :
    performLane a l s = (atPlace a l g s).modGroup a.group (fun g' => g'.fillU a.d a.bytes (extend a.ty a.bytes (placeValue s a g l))) := by
  rw [← spaceRead_atPlace]
  unfold performLane
  rw [hg, hk]
  rfl

/-- EVSIG writes the sum at the event word. -/
theorem performLane_evsig {s : State} {a : Access} {l : LaneAcc} {g : Group} (hk : a.kind = .evsig) (hg : s.group? a.group = some g) :
    performLane a l s = placeSignalled s a l g 8 (placeValue s a g l + l.data2.toNat) := by
  unfold placeSignalled placeWritten
  rw [← spaceRead_atPlace]
  unfold performLane
  rw [hg, hk]
  rfl

/-- EVWAIT lets its split wait for an event word that is not great enough yet. -/
theorem performLane_evwait {s : State} {a : Access} {l : LaneAcc} {g : Group} (hk : a.kind = .evwait) (hg : s.group? a.group = some g) :
    performLane a l s = if l.data2.toNat ≤ placeValue s a g l then atPlace a l g s
      else (atPlace a l g s).modSplit a.group a.split (fun p => { p with wait := .evwait l.va l.addr l.data2 a.next }) := by
  rw [← spaceRead_atPlace]
  unfold performLane
  rw [hg, hk]
  rfl

/-- The accesses that a split waits for let it go on when their lane has ended. -/
theorem takePlace_continues {a : Access} {l : LaneAcc} {s : State} (hk : a.kind = .evsig ∨ a.kind = .evwait) :
    takePlace a l s = sweep a.group (continueAfter a (endLane a.id l.lane (performLane a l s))) := by
  unfold takePlace
  rcases hk with hk | hk <;> rw [hk]

/-- Where only records of lines, and then accesses, differ, memory and registers are as before. -/
theorem LinesOnly.same {s u t : State} (hu : LinesOnly s u) (ht : AccessesOnly u t) : MemorySame s t ∧ RegistersSame s t := by
  obtain ⟨hgroups, -, hmem, hhost, hposted, hblocks, hctxs, -⟩ := hu.fields
  obtain ⟨hm, hh, hp, hb, hc⟩ := ht.memorySame
  exact ⟨⟨hm.trans hmem, hh.trans hhost, hp.trans hposted, hb.trans hblocks, hc.trans hctxs⟩,
    fun j x hj => ht.registersSame j x ((group?_of_groups hgroups j).trans hj)⟩

/-- The split of an access that it waits for goes on behind the instruction. -/
theorem SplitIs.continueAfter {a : Access} {t : State} (h : SplitIs (fun q => q.wait = .access a.id) a.group a.split t) :
    SplitIs (fun q => q.pc = a.next ∧ q.wait = .none) a.group a.split (Machine.continueAfter a t) :=
  SplitIs.becomes (Q := fun q => q.pc = a.next ∧ q.wait = .none) (f := fun p => if p.wait = .access a.id then p.goto a.next else p) h
    (fun q => by split <;> rfl) fun q hq => by rw [if_pos hq]; exact ⟨rfl, rfl⟩

/-- A split that does not wait for the access stays as it is. -/
theorem SplitIs.continueAfter_other {P : Split → Prop} {a : Access} {t : State} (h : SplitIs P a.group a.split t)
    (hP : ∀ q, P q → q.wait ≠ .access a.id) : SplitIs P a.group a.split (Machine.continueAfter a t) :=
  SplitIs.becomes (Q := P) (f := fun p => if p.wait = .access a.id then p.goto a.next else p) h
    (fun q => by split <;> rfl) fun q hq => by rwa [if_neg (hP q hq)]

section
variable {s : State} {id lane : Nat} {a : Access} {l : LaneAcc} {g : Group} (h : Performing s id lane a l g)
include h

/-- LDU (R330). -/
theorem ldu_performs (hk : a.kind = .ldu) (hlive : g.retired = false) (hn : a.bytes ∈ [1, 2, 4, 8, 16]) :
    ∃ t k, exec (.loadDataReturn id lane) s = .next t ∧ t.group? a.group = some k ∧
      (∀ r, k.uget r = if a.d ≤ r ∧ r < a.d + (a.bytes + 3) / 4 then
        BitVec.ofNat 32 (extended a (placeValue s a g l) / 2 ^ (32 * (r - a.d))) else g.uget r) ∧
      k.vec = g.vec ∧ k.pred = g.pred ∧ MemorySame s t := by
  obtain ⟨-, -, -, -, hg⟩ := h.access
  obtain ⟨hgroups, -, hmem, hhost, hposted, hblocks, hctxs, -⟩ := (atPlace_lines a l g s).fields
  have hperf := performLane_ldu (l := l) hk hg
  have hquiet : takePlace a l s = laneReturned a l s :=
    takePlace_quiet (by rw [hk]; exact nofun) (by rw [hk]; exact nofun) (by rw [hk]; exact nofun) (by rw [hperf]; exact hblocks)
  obtain ⟨hframe, hget⟩ := fillU_receives (d := a.d) (v := extended a (placeValue s a g l)) hlive hn
  rw [← extend_eq hn (placeValue_lt s a g l)] at hframe hget
  have hfilled : (performLane a l s).group? a.group = some (g.fillU a.d a.bytes (extend a.ty a.bytes (placeValue s a g l))) := by
    rw [hperf]
    exact group?_modGroup_same _ ((group?_of_groups hgroups _).trans hg)
  obtain ⟨honly, hstay⟩ := (endLane_registers a.id l.lane (performLane a l s)).trans (sweep_registers a.group _)
  obtain ⟨k, hk', hvec, huni, hpred, -⟩ := hstay a.group _ hfilled
  refine ⟨_, k, ((exec_performs h (by rw [hk]; exact nofun)).1 (by rw [hk]; rfl)).trans (congrArg _ hquiet), hk',
    fun r => ?_, by rw [hvec, hframe], by rw [hpred, hframe], ?_⟩
  · rw [← hget r, Group.uget, huni]; rfl
  · unfold MemorySame
    rw [show laneReturned a l s = _ from honly, hperf]
    exact ⟨hmem, hhost, hposted, hblocks, hctxs⟩

variable {p : Split} (hp : g.split? a.split = some p) (hwait : p.wait = .access id)
include hp hwait

/-- EVSIG writes the sum, its split goes on, and only accesses have ended since (R302). -/
theorem evsig_performs (hk : a.kind = .evsig) (hsp : l.space = .hbm ∨ l.space = .host) (hnodup : (g.splits.map (fun q => q.idx)).Nodup) :
    ∃ t, exec (.loadDataReturn id lane) s = .next t ∧ GoesOn t a.group a.split a.next ∧
      AccessesOnly (placeWritten s a l g 8 (placeValue s a g l + l.data2.toNat)) t := by
  obtain ⟨-, hid, -, -, hg⟩ := h.access
  have hperf := performLane_evsig (l := l) hk hg
  obtain ⟨hgroups, hacc, -⟩ := placeWritten_groups hsp s a g 8 (placeValue s a g l + l.data2.toNat)
  obtain ⟨honly, hacc', -⟩ := placeSignalled_accesses s a l g 8 (placeValue s a g l + l.data2.toNat)
  have hwritten : (placeWritten s a l g 8 (placeValue s a g l + l.data2.toNat)).group? a.group = some g :=
    (group?_of_groups hgroups _).trans hg
  have hwaits : p.wait = .access a.id := by rw [hid]; exact hwait
  have hstill : SplitIs (fun q => q.wait = .access a.id) a.group a.split (performLane a l s) := by
    rw [hperf, placeSignalled]
    split
    · exact wakeEvents_split hwritten hp hwaits hnodup fun _ _ _ _ => by rw [hwait]; exact nofun
    · exact ⟨g, p, hwritten, hp, hwaits⟩
  refine ⟨_, (exec_performs h (by rw [hk]; exact nofun)).1 (by rw [hk]; rfl), ?_, ?_⟩ <;> rw [takePlace_continues (.inl hk)]
  · exact ((hstill.endLane (fun _ _ hP => hP) a.id l.lane).continueAfter).sweep a.group
  · have hend : AccessesOnly (performLane a l s) (endLane a.id l.lane (performLane a l s)) :=
      endLane_performed h (by rw [hperf]; exact hacc'.trans hacc) (by rw [Access.raised, hk])
    rw [hperf] at hend ⊢
    exact ((honly.trans hend).trans (continueAfter_accesses ..)).trans (sweep_accesses ..)

/-- EVWAIT goes on or waits, and changes no byte of memory (R303). -/
theorem evwait_performs (hk : a.kind = .evwait) :
    ∃ t, exec (.loadDataReturn id lane) s = .next t ∧ MemorySame s t ∧ RegistersSame s t ∧
      (l.data2.toNat ≤ placeValue s a g l → GoesOn t a.group a.split a.next) ∧
      (placeValue s a g l < l.data2.toNat → ∃ k q, t.group? a.group = some k ∧ k.split? a.split = some q ∧
        q.wait = .evwait l.va l.addr l.data2 a.next ∧ q.pc = p.pc) := by
  obtain ⟨-, hid, -, -, hg⟩ := h.access
  have hperf := performLane_evwait (l := l) hk hg
  have hlines := atPlace_lines a l g s
  obtain ⟨hgroups, hacc, -⟩ := hlines.fields
  have hplace : (atPlace a l g s).group? a.group = some g := (group?_of_groups hgroups _).trans hg
  have hwaits : p.wait = .access a.id := by rw [hid]; exact hwait
  have honly : AccessesOnly (atPlace a l g s) (performLane a l s) ∧ (performLane a l s).acc = s.acc := by
    rw [hperf]
    split
    · exact ⟨accessesOnly_refl _, hacc⟩
    · exact ⟨accessesOnly_modSplit .., hacc⟩
  have hafter : AccessesOnly (atPlace a l g s) (takePlace a l s) := by
    rw [takePlace_continues (.inr hk)]
    exact ((honly.1.trans (endLane_performed h honly.2 (by rw [Access.raised, hk]))).trans (continueAfter_accesses ..)).trans
      (sweep_accesses ..)
  obtain ⟨hmem, hregs⟩ := hlines.same hafter
  refine ⟨_, (exec_performs h (by rw [hk]; exact nofun)).1 (by rw [hk]; rfl), hmem, hregs, fun hge => ?_, fun hlt => ?_⟩ <;>
    rw [takePlace_continues (.inr hk), hperf]
  · rw [if_pos hge]
    have hstill : SplitIs (fun q => q.wait = .access a.id) a.group a.split (atPlace a l g s) := ⟨g, p, hplace, hp, hwaits⟩
    exact ((hstill.endLane (fun _ _ hP => hP) a.id l.lane).continueAfter).sweep a.group
  · rw [if_neg (by omega)]
    have hnow : SplitIs (fun q => q.wait = .evwait l.va l.addr l.data2 a.next ∧ q.pc = p.pc) a.group a.split
        ((atPlace a l g s).modSplit a.group a.split (fun p => { p with wait := .evwait l.va l.addr l.data2 a.next })) :=
      SplitIs.becomes (P := fun q => q = p) ⟨g, p, hplace, hp, rfl⟩ (fun _ => rfl) fun q hq => ⟨rfl, by rw [hq]⟩
    exact ((hnow.endLane (fun _ _ hP => hP) a.id l.lane).continueAfter_other fun q hq => by rw [hq.1]; exact nofun).sweep a.group

end

/-- Settles O35: LDU, EVSIG and EVWAIT each by what their lane's performance leaves. -/
theorem splitAccessesPerform : Obligations.SplitAccessesPerform := by
  intro id lane s a l g h
  refine ⟨fun hk hlive hn => ldu_performs h hk hlive hn, fun p hn hp hwait => ⟨fun hk hsp hnodup => ?_, fun hk hsp hpage hnodup => ?_,
    fun hk => evwait_performs h hp hwait hk⟩⟩
  · obtain ⟨t, hexec, hgoes, honly⟩ := evsig_performs h hp hwait hk (.inl hsp) hnodup
    obtain ⟨hget, hhost, hposted, hblocks, hctxs, hregs⟩ := placeWritten_hbm_leaves hsp honly
    refine ⟨t, hexec, hgoes, ?_, fun pa hpa => by rw [hget, if_neg (by omega)], hhost, hposted, hblocks, hctxs, hregs⟩
    rw [memBytes_of_mem honly.memorySame.1, placeWritten, hsp, memBytes_spaceWrite, natLE_bytesLE]
  · obtain ⟨t, hexec, hgoes, honly⟩ := evsig_performs h hp hwait hk (.inr hsp) hnodup
    obtain ⟨hget, hmem, hhost, hblocks, hctxs, hregs⟩ := placeWritten_host_leaves hsp hpage honly
    refine ⟨t, hexec, hgoes, hmem, hhost, hblocks, hctxs, hregs, fun pa => (hget pa).trans ?_⟩
    by_cases hin : s.hostPa l.addr ≤ s.hostPa pa ∧ s.hostPa pa < s.hostPa l.addr + 8
    · rw [if_pos hin, if_pos hin]
      exact (byte_mod (n := 8) _ (by omega)).symm
    · rw [if_neg hin, if_neg hin]

end Sys2Proof.Machine
end

section
namespace Sys2Proof.Machine

open Sys2Proof

/-! ## The states of a block's lines (R128) -/

theorem ScratchOnly.linePut (s : State) (bi line : Nat) (v : Byte) : ScratchOnly bi s (s.linePut bi line v) :=
  (ScratchOnly.refl bi s).modBlock _

/-- A line's state after a write of one of the block's lines. -/
theorem lineGet_linePut {s : State} {bi : Nat} (hbi : (s.block? bi).isSome = true) (line : Nat) (v : Byte) (m : Nat) :
    (s.linePut bi line v).lineGet bi m = if m = line then v &&& 0x0F#8 else s.lineGet bi m := by
  obtain ⟨b, hb⟩ := Option.isSome_iff_exists.mp hbi
  rw [State.lineGet, State.lineGet, State.linePut, block?_modBlock, if_pos rfl, hb]
  exact Tab.get_put ..

theorem spadGet_linePut (s : State) (bi line : Nat) (v : Byte) (k : Nat) : (s.linePut bi line v).spadGet bi k = s.spadGet bi k := by
  rw [State.spadGet, State.linePut, block?_modBlock, if_pos rfl, Option.map_map]
  rfl

/-- The state byte of a line that is made full, or empty, keeps its tag. -/
theorem lineByte_full (v : Byte) : ((v ||| 1#8) &&& 0x0F#8).getLsbD 0 = true ∧ ((v ||| 1#8) &&& 0x0F#8).toNat / 2 % 8 = v.toNat / 2 % 8 := by
  revert v; decide

theorem lineByte_empty (v : Byte) :
    ((v &&& 0xFE#8) &&& 0x0F#8).getLsbD 0 = false ∧ ((v &&& 0xFE#8) &&& 0x0F#8).toNat / 2 % 8 = v.toNat / 2 % 8 := by
  revert v; decide

/-- What the blocks say of lines and bytes. -/
theorem banks_of_blocks {s t : State} (h : t.blocks = s.blocks) (bi : Nat) : t.block? bi = s.block? bi ∧
    (∀ m, t.lineGet bi m = s.lineGet bi m ∧ t.lineFull bi m = s.lineFull bi m ∧ t.lineTag bi m = s.lineTag bi m) ∧
    ∀ k, t.spadGet bi k = s.spadGet bi k := by
  have hb (bj : Nat) : t.block? bj = s.block? bj := by rw [State.block?, State.block?, h]
  have hl (m : Nat) : t.lineGet bi m = s.lineGet bi m := by rw [State.lineGet, State.lineGet, hb]
  refine ⟨hb bi, fun m => ⟨hl m, ?_, ?_⟩, fun k => by rw [State.spadGet, State.spadGet, hb]⟩
  · rw [State.lineFull, State.lineFull, hl]
  · rw [State.lineTag, State.lineTag, hl]

/-- Bytes written to a block. -/
theorem spaceWrite_scratch {s : State} {bi : Nat} (hbi : (s.block? bi).isSome = true) (cn a n v : Nat) :
    ScratchOnly bi s (spaceWrite s cn bi .scratch a n v) ∧
      (∀ m, (spaceWrite s cn bi .scratch a n v).lineGet bi m = s.lineGet bi m) ∧
      ∀ k, (spaceWrite s cn bi .scratch a n v).spadGet bi k =
        if a ≤ k ∧ k < a + n then BitVec.ofNat 8 (v / 2 ^ (8 * (k - a))) else s.spadGet bi k := by
  obtain ⟨honly, hlines, hbytes⟩ := foldl_spadPut bi a (bytesLE n v) 0 s hbi
  refine ⟨honly, hlines, fun k => (hbytes k).trans ?_⟩
  rw [bytesLE_length, Nat.add_zero]
  by_cases hin : a ≤ k ∧ k < a + n
  · rw [if_pos hin, if_pos hin, bytesLE_getD v (by omega)]
  · rw [if_neg hin, if_neg hin]

/-- A line that was full, or is empty, has not become full. -/
theorem wakeIfFilled_none {before s : State} {bi line : Nat} (h : before.lineFull bi line = true ∨ s.lineFull bi line = false) :
    wakeIfFilled before bi line s = s := by
  refine if_neg fun ⟨hempty, hfull⟩ => ?_
  rcases h with h | h
  · rw [h] at hempty; cases hempty
  · rw [h] at hfull; cases hfull

/-! ## The lanes of LDS that a fill performs (R130) -/

/-- Every lane of a number, of every access of a number, has been performed. -/
def LaneEnded (id lane : Nat) (s : State) : Prop := ∀ w ∈ s.acc, w.id = id → ∀ m ∈ w.lanes, m.lane = lane → m.stage = .done

/-- Memory is as before, and of the accesses that are left some lanes have been performed. -/
structure LanesEnd (s t : State) : Prop where
  memory : MemorySame s t
  accesses : ∀ w' ∈ t.acc, ∃ w ∈ s.acc, w'.id = w.id ∧
    ∀ m' ∈ w'.lanes, ∃ m ∈ w.lanes, m'.lane = m.lane ∧ (m'.stage = m.stage ∨ m'.stage = .done)

theorem MemorySame.trans {s t u : State} (h1 : MemorySame s t) (h2 : MemorySame t u) : MemorySame s u := by
  obtain ⟨m1, h1, p1, b1, c1⟩ := h1
  obtain ⟨m2, h2, p2, b2, c2⟩ := h2
  exact ⟨m2.trans m1, h2.trans h1, p2.trans p1, b2.trans b1, c2.trans c1⟩

theorem LanesEnd.trans {s t u : State} (h1 : LanesEnd s t) (h2 : LanesEnd t u) : LanesEnd s u := by
  refine ⟨h1.memory.trans h2.memory, fun w'' hw'' => ?_⟩
  obtain ⟨w', hw', hid', hlanes'⟩ := h2.accesses w'' hw''
  obtain ⟨w, hw, hid, hlanes⟩ := h1.accesses w' hw'
  refine ⟨w, hw, hid'.trans hid, fun m'' hm'' => ?_⟩
  obtain ⟨m', hm', hlane', hstage'⟩ := hlanes' m'' hm''
  obtain ⟨m, hm, hlane, hstage⟩ := hlanes m' hm'
  exact ⟨m, hm, hlane'.trans hlane, hstage'.elim (fun he => hstage.imp he.trans he.trans) .inr⟩

/-- No lane of an access that is left has been performed. -/
theorem lanesEnd_of_subset {s t : State} (hmem : MemorySame s t) (hacc : ∀ w ∈ t.acc, w ∈ s.acc) : LanesEnd s t :=
  ⟨hmem, fun w hw => ⟨w, hacc w hw, rfl, fun m hm => ⟨m, hm, rfl, .inl rfl⟩⟩⟩

theorem LaneEnded.mono {id lane : Nat} {s t : State} (h : LaneEnded id lane s) (hst : LanesEnd s t) : LaneEnded id lane t := by
  intro w' hw' hid m' hm' hlane
  obtain ⟨w, hw, hid', hlanes⟩ := hst.accesses w' hw'
  obtain ⟨m, hm, hlane', hstage⟩ := hlanes m' hm'
  exact hstage.elim (fun he => he.trans (h w hw (hid'.symm.trans hid) m hm (hlane'.symm.trans hlane))) fun he => he

theorem sweep_lanesEnd (gi : Nat) (s : State) : LanesEnd s (sweep gi s) :=
  lanesEnd_of_subset (sweep_accesses gi s).memorySame fun _ hw => (List.mem_filter.mp (sweepClass_subset (sweepClass_subset hw))).1

theorem endLane_acc (id lane : Nat) (s : State) :
    (endLane id lane s).acc = s.acc.map (fun a => if a.id = id then a.laneDone lane else a) := by
  unfold endLane
  dsimp only
  split
  · rfl
  · split <;> rfl

theorem endLane_lanesEnd (id lane : Nat) (s : State) : LanesEnd s (endLane id lane s) ∧ LaneEnded id lane (endLane id lane s) := by
  refine ⟨⟨?_, fun w' hw' => ?_⟩, fun w' hw' hid m' hm' hlane => ?_⟩
  · unfold MemorySame
    rw [(endLane_registers id lane s).1]
    exact ⟨rfl, rfl, rfl, rfl, rfl⟩
  · rw [endLane_acc] at hw'
    obtain ⟨w, hw, rfl⟩ := List.mem_map.mp hw'
    refine ⟨w, hw, by split <;> rfl, fun m' hm' => ?_⟩
    by_cases h : w.id = id
    · rw [if_pos h] at hm'
      obtain ⟨m, hm, rfl⟩ := List.mem_map.mp hm'
      refine ⟨m, hm, by split <;> rfl, ?_⟩
      split
      · exact .inr rfl
      · exact .inl rfl
    · rw [if_neg h] at hm'
      exact ⟨m', hm', rfl, .inl rfl⟩
  · rw [endLane_acc] at hw'
    obtain ⟨w, hw, rfl⟩ := List.mem_map.mp hw'
    by_cases h : w.id = id
    · rw [if_pos h] at hm'
      obtain ⟨m, hm, rfl⟩ := List.mem_map.mp hm'
      by_cases hl : m.lane = lane
      · rw [if_pos hl]
      · rw [if_neg hl] at hlane
        exact absurd hlane hl
    · rw [if_neg h] at hid
      exact absurd hid h

/-- A lane of LDS writes its register, once its line is there. -/
theorem performLane_lds {s : State} {a : Access} {l : LaneAcc} {g : Group} (hk : a.kind = .lds) (hg : s.group? a.group = some g) :
    performLane a l s = (atPlace a l g s).modGroup a.group (fun g' =>
      g'.fill a.d l.lane a.bytes (extend a.ty a.bytes (placeValue s a g l))) := by
  rw [← spaceRead_atPlace]
  unfold performLane
  rw [hg, hk]
  rfl

/-- It changes no memory and no access. -/
theorem performLane_lds_lanesEnd {a : Access} (l : LaneAcc) (s : State) (hk : a.kind = .lds) : LanesEnd s (performLane a l s) := by
  cases hg : s.group? a.group with
  | none =>
    have hsame : performLane a l s = s := by rw [performLane, hg]
    rw [hsame]
    exact lanesEnd_of_subset ⟨rfl, rfl, rfl, rfl, rfl⟩ fun _ hw => hw
  | some g =>
    obtain ⟨-, hacc, hmem, hhost, hposted, hblocks, hctxs, -⟩ := (atPlace_lines a l g s).fields
    rw [performLane_lds hk hg]
    exact lanesEnd_of_subset ⟨hmem, hhost, hposted, hblocks, hctxs⟩ fun _ hw => hacc ▸ hw

theorem finishLds_lanesEnd {a : Access} (l : LaneAcc) (s : State) (hk : a.kind = .lds) :
    LanesEnd s (finishLds a l s) ∧ LaneEnded a.id l.lane (finishLds a l s) := by
  obtain ⟨hend, hdone⟩ := endLane_lanesEnd a.id l.lane (performLane a l s)
  have hperf := (performLane_lds_lanesEnd l s hk).trans hend
  have hafter (u : State) : LanesEnd u (sweep a.group (continueAfter a u)) :=
    (lanesEnd_of_subset (continueAfter_accesses a u).memorySame fun _ hw => hw).trans (sweep_lanesEnd ..)
  unfold finishLds
  dsimp only
  split
  · split
    · exact ⟨hperf.trans (hafter _), hdone.mono (hafter _)⟩
    · exact ⟨hperf, hdone⟩
  · exact ⟨hperf, hdone⟩

/-- Waiting lanes of LDS performed one after another. -/
theorem foldl_finishLds : ∀ (ws : List (Access × LaneAcc)) (s : State), (∀ w ∈ ws, w.1.kind = .lds) →
    LanesEnd s (ws.foldl (fun s w => finishLds w.1 w.2 s) s) ∧
      ∀ w ∈ ws, LaneEnded w.1.id w.2.lane (ws.foldl (fun s w => finishLds w.1 w.2 s) s)
  | [], s, _ => ⟨lanesEnd_of_subset ⟨rfl, rfl, rfl, rfl, rfl⟩ fun _ hw => hw, fun _ hw => by cases hw⟩
  | w :: ws, s, h => by
    obtain ⟨hfirst, hdone⟩ := finishLds_lanesEnd w.2 s (h w List.mem_cons_self)
    obtain ⟨hrest, hends⟩ := foldl_finishLds ws (finishLds w.1 w.2 s) fun v hv => h v (List.mem_cons_of_mem w hv)
    rw [List.foldl_cons]
    refine ⟨hfirst.trans hrest, fun v hv => ?_⟩
    rcases List.mem_cons.mp hv with rfl | hv
    · exact hdone.mono hrest
    · exact hends v hv

/-- Only lanes of LDS wait at an empty line. -/
def OnlyLdsWaits (s : State) : Prop := ∀ w ∈ s.acc, ∀ m ∈ w.lanes, m.stage = .waitingEmpty → w.kind = .lds

theorem mem_emptyWaiters {s : State} {bi line : Nat} {w : Access} {m : LaneAcc} : (w, m) ∈ emptyWaiters s bi line ↔
    w ∈ s.acc ∧ ((s.group? w.group).map (fun g => g.block)).getD 0 = bi ∧ m ∈ w.lanes ∧ m.stage = .waitingEmpty ∧
      m.addr / 128 = line := by
  simp only [emptyWaiters, List.mem_flatMap]
  constructor
  · rintro ⟨w', hw', h⟩
    split at h
    · obtain ⟨m', hm', he⟩ := List.mem_map.mp h
      cases he
      obtain ⟨hm', hwaits⟩ := List.mem_filter.mp hm'
      simp only [Bool.and_eq_true, beq_iff_eq] at hwaits
      exact ⟨hw', ‹_›, hm', hwaits⟩
    · cases h
  · rintro ⟨hw, hbi, hm, hwaits⟩
    refine ⟨w, hw, ?_⟩
    rw [if_pos hbi]
    exact List.mem_map.mpr ⟨m, List.mem_filter.mpr ⟨hm, by simpa using hwaits⟩, rfl⟩

/-- A line that has become full has every lane of LDS that waits on it performed, and changes no memory. -/
theorem fillWake_lanesEnd {s : State} (h : OnlyLdsWaits s) (bi line : Nat) : LanesEnd s (fillWake bi line s) ∧
    ∀ w m, (w, m) ∈ emptyWaiters s bi line → LaneEnded w.id m.lane (fillWake bi line s) := by
  obtain ⟨hends, hdone⟩ := foldl_finishLds (emptyWaiters s bi line) s fun w hw => by
    obtain ⟨hacc, -, hm, hwaits, -⟩ := mem_emptyWaiters.mp hw
    exact h w.1 hacc w.2 hm hwaits
  exact ⟨⟨hends.memory, hends.accesses⟩, fun w m hw => hdone (w, m) hw⟩

end Sys2Proof.Machine
end

section
namespace Sys2Proof.Machine

open Sys2Proof

/-! ## Stores on a line of the scratchpad (R128, R159, R361, R362) -/

/-- A lane on a scratchpad line, of an access that no split waits for, is performed, ends, and wakes the readers of the line that it fills. -/
theorem takePlace_scratch {a : Access} {l : LaneAcc} {s : State} {g : Group} (hg : s.group? a.group = some g) (hsp : l.space = .scratch)
    (hlds : a.kind ≠ .lds) (hsig : a.kind ≠ .evsig) (hwait : a.kind ≠ .evwait) : takePlace a l s =
      sweep a.group (wakeIfFilled s g.block (l.addr / 128) (endLane a.id l.lane (performLane a l s))) := by
  unfold takePlace
  dsimp only
  rw [hg, hsp]
  split
  · exact absurd ‹_› hlds
  · exact absurd ‹_› hsig
  · exact absurd ‹_› hwait
  · rfl

theorem isStore_plain {k : AccKind} (h : k.isStore = true) : k ≠ .lds ∧ k ≠ .evsig ∧ k ≠ .evwait := by
  refine ⟨?_, ?_, ?_⟩ <;> rintro rfl <;> cases h

theorem raised_of_store {a : Access} (h : a.kind.isStore = true) : a.raised = 0 := by
  unfold Access.raised
  split
  · rename_i hk; rw [hk] at h; cases h
  · rename_i hk; rw [hk] at h; cases h
  · rfl

/-- A waiting lane of an access stays one when another lane ends, with the group's block as before. -/
theorem endLane_emptyWaiters {u : State} {id lane bi line : Nat} (honly : AccessesOnly u (endLane id lane u)) {w : Access} {m : LaneAcc}
    (hw : w ∈ u.acc) {gw : Group} (hgw : u.group? w.group = some gw) (hbi : gw.block = bi) (hm : m ∈ w.lanes)
    (hwaits : m.stage = .waitingEmpty) (hline : m.addr / 128 = line) :
    (w.id = id ∧ m.lane = lane) ∨ ∃ w', w'.id = w.id ∧ (w', m) ∈ emptyWaiters (endLane id lane u) bi line := by
  by_cases hown : w.id = id ∧ m.lane = lane
  · exact .inl hown
  obtain ⟨k, hk, hgk⟩ := honly.2 w.group gw hgw
  have hblock : k.block = bi := by rw [hgk]; exact hbi
  refine .inr ⟨if w.id = id then w.laneDone lane else w, by split <;> rfl, mem_emptyWaiters.mpr
    ⟨by rw [endLane_acc]; exact List.mem_map_of_mem hw, ?_, ?_, hwaits, hline⟩⟩
  · rw [show (if w.id = id then w.laneDone lane else w).group = w.group by split <;> rfl, hk]
    exact hblock
  · by_cases hid : w.id = id
    · rw [if_pos hid]
      exact List.mem_map.mpr ⟨m, hm, if_neg fun hl => hown ⟨hid, hl⟩⟩
    · rwa [if_neg hid]

theorem endLane_onlyLdsWaits {s : State} (h : OnlyLdsWaits s) (id lane : Nat) : OnlyLdsWaits (endLane id lane s) := by
  intro w' hw' m' hm' hwaits
  rw [endLane_acc] at hw'
  obtain ⟨w, hw, rfl⟩ := List.mem_map.mp hw'
  by_cases hid : w.id = id
  · rw [if_pos hid] at hm' ⊢
    obtain ⟨m, hm, rfl⟩ := List.mem_map.mp hm'
    by_cases hl : m.lane = lane
    · rw [if_pos hl] at hwaits
      cases hwaits
    · rw [if_neg hl] at hwaits
      exact h w hw m hm hwaits
  · rw [if_neg hid] at hm' ⊢
    exact h w hw m' hm' hwaits

/-- Every lane that waits on a line of a block is performed. -/
def WaitersEnd (s t : State) (bi line : Nat) : Prop :=
  ∀ w ∈ s.acc, ∀ gw, s.group? w.group = some gw → gw.block = bi → ∀ m ∈ w.lanes, m.stage = .waitingEmpty → m.addr / 128 = line →
    LaneEnded w.id m.lane t

section
variable {s : State} {id lane : Nat} {a : Access} {l : LaneAcc} {g : Group} (h : Performing s id lane a l g) (hsp : l.space = .scratch)
include h hsp

/-- A store of the bank: what its lane's performance leaves, no other byte and no register changed but by the readers that it wakes. -/
theorem bankStore_performs (hst : a.kind.isStore = true) (hset : ScratchOnly g.block s (performLane a l s))
    (hwaits : s.lineFull g.block (l.addr / 128) = true ∨ (performLane a l s).lineFull g.block (l.addr / 128) = false ∨ OnlyLdsWaits s) :
    ∃ t, exec (.storePerformed id lane) s = .next t ∧ MemorySame (performLane a l s) t ∧
      (s.lineFull g.block (l.addr / 128) = true ∨ (performLane a l s).lineFull g.block (l.addr / 128) = false → RegistersSame s t) ∧
      (s.lineFull g.block (l.addr / 128) = false → (performLane a l s).lineFull g.block (l.addr / 128) = true →
        WaitersEnd s t g.block (l.addr / 128)) := by
  obtain ⟨-, -, -, -, hg⟩ := h.access
  obtain ⟨hlds, hsig, hwait⟩ := isStore_plain hst
  have hacc : (performLane a l s).acc = s.acc := by rw [hset.only]
  have hgroups : (performLane a l s).groups = s.groups := by rw [hset.only]
  have hend : AccessesOnly (performLane a l s) (endLane a.id l.lane (performLane a l s)) :=
    endLane_performed h hacc (raised_of_store hst)
  have hfull : (endLane a.id l.lane (performLane a l s)).lineFull g.block (l.addr / 128) =
      (performLane a l s).lineFull g.block (l.addr / 128) := ((banks_of_blocks hend.memorySame.2.2.2.1 g.block).2.1 _).2.1
  refine ⟨_, (exec_performs h hlds).2 hst, ?_, fun hcase => ?_, fun hempty hfilled => ?_⟩ <;>
    rw [takePlace_scratch hg hsp hlds hsig hwait]
  · refine MemorySame.trans ?_ (sweep_lanesEnd ..).memory
    by_cases hnone : s.lineFull g.block (l.addr / 128) = true ∨ (performLane a l s).lineFull g.block (l.addr / 128) = false
    · rw [wakeIfFilled_none (hnone.imp_right hfull.trans)]
      exact hend.memorySame
    · have honly : OnlyLdsWaits s := hwaits.resolve_left (fun hc => hnone (.inl hc)) |>.resolve_left fun hc => hnone (.inr hc)
      have honly' : OnlyLdsWaits (performLane a l s) := by rwa [OnlyLdsWaits, hacc]
      refine hend.memorySame.trans ?_
      unfold wakeIfFilled
      split
      · exact (fillWake_lanesEnd (endLane_onlyLdsWaits honly' a.id l.lane) ..).1.memory
      · exact ⟨rfl, rfl, rfl, rfl, rfl⟩
  · rw [wakeIfFilled_none (hcase.imp_right hfull.trans)]
    intro j x hj
    exact (hend.trans (sweep_accesses ..)).registersSame j x ((group?_of_groups hgroups j).trans hj)
  · have honly : OnlyLdsWaits s := by
      rcases hwaits with hc | hc | hc
      · rw [hc] at hempty; cases hempty
      · rw [hc] at hfilled; cases hfilled
      · exact hc
    have honly' : OnlyLdsWaits (performLane a l s) := by rwa [OnlyLdsWaits, hacc]
    obtain ⟨hwake, hdone⟩ := fillWake_lanesEnd (endLane_onlyLdsWaits honly' a.id l.lane) g.block (l.addr / 128)
    rw [wakeIfFilled, if_pos ⟨hempty, hfull.trans hfilled⟩]
    intro w hw gw hgw hbi m hm hm' hline
    refine LaneEnded.mono ?_ (sweep_lanesEnd ..)
    rcases endLane_emptyWaiters hend (hacc.symm ▸ hw) ((group?_of_groups hgroups _).trans hgw) hbi hm hm' hline with
      ⟨hid, hl⟩ | ⟨w', hid, hw'⟩
    · rw [hid, hl]
      exact (endLane_lanesEnd ..).2.mono hwake
    · rw [← hid]
      exact hdone w' m hw'

end

end Sys2Proof.Machine
end

section
namespace Sys2Proof.Machine

open Sys2Proof

/-! ## Reads of the scratchpad (R130, R134, R329, R331, R361) -/

theorem laneBit_own {L : Nat} (h : L < 16) (M : Nat) : (laneBit L).getLsbD M = decide (M = L) := by
  unfold laneBit
  rw [BitVec.getLsbD_ofNat, Nat.testBit_two_pow]
  by_cases hM : M = L
  · subst hM; simp [h]
  · simp [hM, Ne.symm hM]

/-- A mask with one lane written that is present and has not ended. -/
theorem laneMask_written {present ended : LaneMask} {lane : Nat} (old : LaneMask) (b : Bool) (hpresent : present.getLsbD lane = true)
    (hended : ended.getLsbD lane = false) (L : Nat) :
    ((old &&& ~~~(laneBit lane &&& ~~~ended &&& present)) |||
      ((if b then laneBit lane else 0) &&& (laneBit lane &&& ~~~ended &&& present))).getLsbD L =
      if L = lane then b else old.getLsbD L := by
  have hlane : lane < 16 := lane_lt hpresent
  have hbit : (if b then laneBit lane else 0).getLsbD L = (b && decide (L = lane)) := by
    cases b
    · exact BitVec.getLsbD_zero
    · exact laneBit_own hlane L
  simp only [BitVec.getLsbD_or, BitVec.getLsbD_and, BitVec.getLsbD_not, hbit, laneBit_own hlane]
  by_cases hL : L = lane
  · subst hL
    rw [hpresent, hended]
    simp [hlane]
  · by_cases h16 : L < 16
    · simp [hL, h16]
    · simp [hL, h16, BitVec.getLsbD_of_ge old L (by omega)]

/-- A predicate written in one lane that is present and has not ended. -/
theorem pset_lane {g k : Group} {lane pd : Nat} (b : Bool) (hpresent : g.present.getLsbD lane = true) (hended : g.ended.getLsbD lane = false)
    (hpred : k.pred = g.pred) (hpk : k.present = g.present) :
    LanePredicate g (k.pset pd (laneBit lane &&& ~~~g.ended) (if b then laneBit lane else 0)) pd lane b := by
  have hsame (q : Nat) : k.pget q = g.pget q := by rw [Group.pget, Group.pget, hpred]
  intro q L
  rw [pget_pset, hsame, hsame, hpk]
  by_cases hq : q = pd ∧ pd ≠ 15
  · obtain ⟨rfl, h15⟩ := hq
    rw [if_pos (c := q = q ∧ q ≠ 15) ⟨rfl, h15⟩, laneMask_written _ b hpresent hended]
    exact if_congr (by simp [h15]) rfl rfl
  · rw [if_neg hq, if_neg]
    rintro ⟨rfl, h15, -⟩
    exact hq ⟨rfl, h15⟩

/-- What LDX and SFE say of a line's state: FULL in the predicate's lane. -/
def Group.fullRead (g : Group) (k : Group) (pd lane : Nat) (full : Bool) : Group :=
  k.pset pd (laneBit lane &&& ~~~g.ended) (if full then laneBit lane else 0)

/-- What LDX returns: zero from an empty line. -/
def ldxWord (s : State) (a : Access) (l : LaneAcc) (g : Group) : Nat :=
  if s.lineFull g.block (l.addr / 128) then placeValue s a g l else 0

section
variable {s : State} {a : Access} {l : LaneAcc} {g : Group} (hsp : l.space = .scratch)
include hsp

theorem atPlace_scratch (s : State) (a : Access) (g : Group) : atPlace a l g s = s := if_neg (by rw [hsp]; exact nofun)

variable (hg : s.group? a.group = some g)
include hg

theorem performLane_ldx {pd : Nat} (hk : a.kind = .ldx pd) : performLane a l s = s.modGroup a.group (fun g' =>
    g'.fullRead (g'.fill a.d l.lane a.bytes (BitVec.ofNat 128 (ldxWord s a l g))) pd l.lane (s.lineFull g.block (l.addr / 128))) := by
  have hword : BitVec.ofNat 128 (ldxWord s a l g) = if s.lineFull g.block (l.addr / 128) then
      BitVec.ofNat 128 (placeValue s a g l) else 0 := by
    unfold ldxWord
    split <;> rfl
  rw [hword, ← spaceRead_atPlace, atPlace_scratch hsp]
  unfold performLane
  rw [hg, hk, hsp]
  rfl

theorem performLane_sfe {pd : Nat} (hk : a.kind = .sfe pd) : performLane a l s =
    s.modGroup a.group (fun g' => g'.fullRead g' pd l.lane (s.lineFull g.block (l.addr / 128))) := by
  unfold performLane
  rw [hg, hk, hsp]
  rfl

/-- A lane of ATOMS writes its bytes, then its register. -/
theorem performLane_atoms {op : Nat} (hk : a.kind = .atoms op) : performLane a l s =
    ((atomicWritten s a l g op).modGroup a.group (fun g' => g'.fill a.d l.lane a.bytes (BitVec.ofNat 128 (placeValue s a g l)))).modAccess a.id
      (fun b => { b with flags := b.flags ||| (atomNew op a.ty (placeValue s a g l) (l.data.toNat % 2 ^ (8 * a.bytes))
        (l.data2.toNat % 2 ^ (8 * a.bytes))).2 }) := by
  unfold atomicWritten atomicResult
  rw [← spaceRead_atPlace]
  unfold performLane atPlace
  rw [hg, hk, hsp]
  rfl

end

section
variable {s : State} {id lane : Nat} {a : Access} {l : LaneAcc} {g : Group} (h : Performing s id lane a l g)
include h

/-- A read that changes its own group's registers alone. -/
theorem bankRead_performs {F : Group → Group} (hst : a.kind.isStore = false) (hplain : a.kind ≠ .lds ∧ a.kind ≠ .evsig ∧ a.kind ≠ .evwait)
    (hperf : performLane a l s = s.modGroup a.group F) : ∃ t k, exec (.loadDataReturn id lane) s = .next t ∧
      t.group? a.group = some k ∧ KeepsRegisters (F g) k ∧ MemorySame s t := by
  obtain ⟨-, -, -, -, hg⟩ := h.access
  obtain ⟨hlds, hsig, hwait⟩ := hplain
  have hquiet : takePlace a l s = laneReturned a l s := takePlace_quiet hlds hsig hwait (by rw [hperf]; rfl)
  obtain ⟨honly, hstay⟩ := (endLane_registers a.id l.lane (performLane a l s)).trans (sweep_registers a.group _)
  obtain ⟨k, hk, hkeep⟩ := hstay a.group (F g) (by rw [hperf]; exact group?_modGroup_same _ hg)
  refine ⟨_, k, ((exec_performs h hlds).1 hst).trans (congrArg _ hquiet), hk, hkeep, ?_⟩
  unfold MemorySame
  rw [show laneReturned a l s = _ from honly, hperf]
  exact ⟨rfl, rfl, rfl, rfl, rfl⟩

variable (hsp : l.space = .scratch) (hpresent : g.present.getLsbD lane = true) (hended : g.ended.getLsbD lane = false)
include hsp hpresent hended

/-- LDX reads the bytes and FULL together (R331). -/
theorem ldx_performs {pd : Nat} (hk : a.kind = .ldx pd) (hn : a.bytes ∈ [1, 2, 4, 8, 16]) :
    ∃ t k, exec (.loadDataReturn id lane) s = .next t ∧ t.group? a.group = some k ∧ k.uni = g.uni ∧ MemorySame s t ∧
      LaneReceives g k a lane (ldxWord s a l g) ∧
      LanePredicate g k pd lane (s.lineFull g.block (l.addr / 128)) := by
  obtain ⟨-, -, hl, -, hg⟩ := h.access
  have hperf := performLane_ldx hsp hg hk
  rw [hl] at hperf
  generalize s.lineFull g.block (l.addr / 128) = full at hperf ⊢
  generalize hw : BitVec.ofNat 128 (ldxWord s a l g) = w at hperf
  obtain ⟨t, k, hexec, hk', ⟨hvec, huni, hpred, hpr⟩, hmem⟩ := bankRead_performs h (by rw [hk]; rfl)
    (by rw [hk]; exact ⟨nofun, nofun, nofun⟩) hperf
  have hframe := pset_frame (g.fill a.d lane a.bytes w) pd (laneBit lane &&& ~~~g.ended) (if full then laneBit lane else 0)
  have hfill := fill_frame g a.d lane a.bytes w
  have hkeep : KeepsRegisters (g.fill a.d lane a.bytes w) { k with pred := (g.fill a.d lane a.bytes w).pred } :=
    ⟨by rw [hvec, Group.fullRead, hframe], by rw [huni, Group.fullRead, hframe], rfl, by rw [hpr, Group.fullRead, hframe]⟩
  obtain ⟨hreceives, huni', -⟩ := hkeep.receives hw.symm hpresent hended hn
  refine ⟨t, k, hexec, hk', huni', hmem, hreceives, fun q L => ?_⟩
  rw [Group.pget, hpred, ← pset_lane (pd := pd) (k := g.fill a.d lane a.bytes w) full hpresent hended (by rw [hfill]) (by rw [hfill]) q L]
  rfl

/-- SFE reads FULL alone (R361). -/
theorem sfe_performs {pd : Nat} (hk : a.kind = .sfe pd) :
    ∃ t k, exec (.loadDataReturn id lane) s = .next t ∧ t.group? a.group = some k ∧ k.uni = g.uni ∧ MemorySame s t ∧
      k.vec = g.vec ∧ LanePredicate g k pd lane (s.lineFull g.block (l.addr / 128)) := by
  obtain ⟨-, -, hl, -, hg⟩ := h.access
  have hperf := performLane_sfe hsp hg hk
  rw [hl] at hperf
  generalize s.lineFull g.block (l.addr / 128) = full at hperf ⊢
  obtain ⟨t, k, hexec, hk', ⟨hvec, huni, hpred, -⟩, hmem⟩ := bankRead_performs h (by rw [hk]; rfl)
    (by rw [hk]; exact ⟨nofun, nofun, nofun⟩) hperf
  have hframe := pset_frame g pd (laneBit lane &&& ~~~g.ended) (if full then laneBit lane else 0)
  refine ⟨t, k, hexec, hk', by rw [huni, Group.fullRead, hframe], hmem, by rw [hvec, Group.fullRead, hframe], fun q L => ?_⟩
  rw [Group.pget, hpred, ← pset_lane (pd := pd) full hpresent hended rfl rfl q L]
  rfl

/-- ATOMS changes bytes alone (R134). -/
theorem atoms_performs {op : Nat} (hk : a.kind = .atoms op) (hn : a.bytes = 4 ∨ a.bytes = 8) (hbi : (s.block? g.block).isSome = true) :
    ∃ t k, exec (.loadDataReturn id lane) s = .next t ∧ t.group? a.group = some k ∧ LaneReceives g k a lane (placeValue s a g l) ∧
      k.uni = g.uni ∧ k.pred = g.pred ∧ t.mem = s.mem ∧ t.hostMem = s.hostMem ∧ (∀ m, t.lineGet g.block m = s.lineGet g.block m) ∧
      (∀ off, t.spadGet g.block off = if l.addr ≤ off ∧ off < l.addr + a.bytes then
        BitVec.ofNat 8 (atomicResult s a l g op / 2 ^ (8 * (off - l.addr))) else s.spadGet g.block off) := by
  obtain ⟨-, -, hl, -, hg⟩ := h.access
  obtain ⟨honly, hlines, hbytes⟩ := spaceWrite_scratch hbi (s.groupCtx g) l.addr a.bytes (atomicResult s a l g op)
  have hwritten : atomicWritten s a l g op =
      spaceWrite s (s.groupCtx g) g.block .scratch l.addr a.bytes (atomicResult s a l g op) := by
    rw [atomicWritten, hsp, atPlace_scratch hsp]
  have hperf := performLane_atoms hsp hg hk
  rw [hwritten] at hperf
  have hsame : (performLane a l s).mem = s.mem ∧ (performLane a l s).hostMem = s.hostMem := by
    rw [hperf, honly.only]; exact ⟨rfl, rfl⟩
  have hblocks : (performLane a l s).blocks =
      (spaceWrite s (s.groupCtx g) g.block .scratch l.addr a.bytes (atomicResult s a l g op)).blocks := by rw [hperf]; rfl
  obtain ⟨hendonly, hendstay⟩ := endLane_registers a.id l.lane (performLane a l s)
  have hend : (endLane a.id l.lane (performLane a l s)).lineFull g.block (l.addr / 128) = s.lineFull g.block (l.addr / 128) := by
    rw [State.lineFull, State.lineFull, ← hlines]
    refine congrArg (BitVec.getLsbD · 0) ?_
    exact ((banks_of_blocks (by rw [hendonly]; exact hblocks) g.block).2.1 _).1
  have hplace : takePlace a l s = laneReturned a l s := by
    rw [takePlace_scratch hg hsp (by rw [hk]; exact nofun) (by rw [hk]; exact nofun) (by rw [hk]; exact nofun), wakeIfFilled_none]
    · rfl
    · rw [hend]
      cases s.lineFull g.block (l.addr / 128)
      · exact .inr rfl
      · exact .inl rfl
  have hgroup : (performLane a l s).group? a.group = some (g.fill a.d lane a.bytes (BitVec.ofNat 128 (placeValue s a g l))) := by
    rw [hperf, hl]
    refine group?_modGroup_same _ (Eq.trans ?_ hg)
    rw [honly.only]; rfl
  obtain ⟨hreturned, hstay⟩ := (RegistersStay.trans ⟨hendonly, hendstay⟩ (sweep_registers a.group _))
  obtain ⟨k, hk', hkeep⟩ := hstay a.group _ hgroup
  have hsize : a.bytes ∈ [1, 2, 4, 8, 16] := by rcases hn with hn | hn <;> simp [hn]
  obtain ⟨hreceives, huni, hpred⟩ := hkeep.receives rfl hpresent hended hsize
  obtain ⟨-, hbanks, hspad⟩ := banks_of_blocks (s := spaceWrite s (s.groupCtx g) g.block .scratch l.addr a.bytes (atomicResult s a l g op))
    (t := laneReturned a l s) (by rw [show laneReturned a l s = _ from hreturned]; exact hblocks) g.block
  refine ⟨_, k, ((exec_performs h (by rw [hk]; exact nofun)).1 (by rw [hk]; rfl)).trans (congrArg _ hplace), hk', hreceives, huni, hpred,
    ?_, ?_, fun m => ((hbanks m).1).trans (hlines m), fun off => (hspad off).trans (hbytes off)⟩
  · rw [show laneReturned a l s = _ from hreturned]; exact hsame.1
  · rw [show laneReturned a l s = _ from hreturned]; exact hsame.2

end

end Sys2Proof.Machine
end

section
namespace Sys2Proof.Machine

open Sys2Proof

/-! ## LDS (R130) and the bank's accesses (O36) -/

/-- A lane of LDS takes its place, and then a pending fault that names its line may be delivered (R187). -/
theorem loadDataReturn_lds {s : State} {id lane : Nat} {a : Access} {l : LaneAcc} {g : Group} (h : Performing s id lane a l g) (hk : a.kind = .lds) :
    exec (.loadDataReturn id lane) s = .next (deliverToLane a.group (l.addr / 128) (takePlace a l s)) := by
  obtain ⟨ha, hl, -, hready⟩ := h
  rw [exec_loadDataReturn, execLoadDataReturn, performEvent, ha]
  dsimp only
  rw [hl]
  dsimp only
  rw [hready, if_pos hk, hk]
  rfl

/-- None is where no fault names the line. -/
theorem deliverToLane_free {t : State} {gi line : Nat} {g : Group} (hg : t.group? gi = some g) (hfree : ∀ f ∈ g.faults, line ∉ f.lines) :
    deliverToLane gi line t = t := by
  have hnone : g.faults.find? (fun f => f.lines.contains line) = none :=
    List.find?_eq_none.mpr fun f hf hc => hfree f hf (by simpa using hc)
  rw [deliverToLane, hg, Option.bind_some, hnone]

theorem access?_endLane {s : State} {id : Nat} {a : Access} (ha : s.access? id = some a) (lane : Nat) :
    (endLane id lane s).access? id = some (a.laneDone lane) := by
  have hmod := access?_modAccess s id (f := fun a => a.laneDone lane) fun _ => rfl
  rw [ha, Option.map_some] at hmod
  rw [← hmod, State.access?, endLane_acc]
  rfl

theorem finishLds_accesses (a : Access) (l : LaneAcc) (s : State) :
    AccessesOnly (endLane a.id l.lane (performLane a l s)) (finishLds a l s) := by
  unfold finishLds
  dsimp only
  split
  · split
    · exact (continueAfter_accesses ..).trans (sweep_accesses ..)
    · exact accessesOnly_refl _
  · exact accessesOnly_refl _

/-- An access one of whose lanes begins to wait on an empty line. -/
def Access.laneWaits (a : Access) (now lane : Nat) : Access :=
  { a with waitFrom := some (a.waitFrom.getD now),
           lanes := a.lanes.map (fun m => if m.lane = lane then { m with stage := .waitingEmpty } else m) }

theorem takePlace_lds {s : State} {a : Access} {g : Group} (l : LaneAcc) (hk : a.kind = .lds) (hg : s.group? a.group = some g) :
    takePlace a l s = if s.lineFull g.block (l.addr / 128) then finishLds a l s
      else s.modAccess a.id (fun a => a.laneWaits s.now l.lane) := by
  unfold takePlace
  rw [hk, hg]
  rfl

section
variable {s : State} {id lane : Nat} {a : Access} {l : LaneAcc} {g : Group} (h : Performing s id lane a l g) (hsp : l.space = .scratch)
  (hk : a.kind = .lds) (hfree : ∀ f ∈ g.faults, l.addr / 128 ∉ f.lines)
include h hk hfree

/-- A lane of LDS begins to wait on an empty line. -/
theorem lds_waits (hempty : s.lineFull g.block (l.addr / 128) = false) : ∃ t b, exec (.loadDataReturn id lane) s = .next t ∧
    t = { s with acc := t.acc } ∧ t.access? id = some b ∧ b.waitFrom = some (a.waitFrom.getD s.now) ∧
    b.lanes = a.lanes.map (fun m => if m.lane = lane then { m with stage := .waitingEmpty } else m) := by
  obtain ⟨ha, hid, hl, -, hg⟩ := h.access
  have hgone : (s.modAccess id (fun a => a.laneWaits s.now lane)).access? id = some (a.laneWaits s.now lane) := by
    rw [access?_modAccess s id (f := fun a => a.laneWaits s.now lane) fun _ => rfl, ha, Option.map_some]
  refine ⟨s.modAccess id (fun a => a.laneWaits s.now lane), _, ?_, rfl, hgone, rfl, rfl⟩
  rw [loadDataReturn_lds h hk, takePlace_lds l hk hg, hempty, hid, hl]
  exact congrArg _ (deliverToLane_free hg hfree)

include hsp

/-- A lane of LDS reads a full line, and with the last lane its split goes on. -/
theorem lds_performs (hfull : s.lineFull g.block (l.addr / 128) = true) (hpresent : g.present.getLsbD lane = true)
    (hended : g.ended.getLsbD lane = false) (hn : a.bytes ∈ [1, 2, 4, 8, 16]) :
    ∃ t k, exec (.loadDataReturn id lane) s = .next t ∧ t.group? a.group = some k ∧ k.uni = g.uni ∧ MemorySame s t ∧
      LaneReceives g k a lane (extended a (placeValue s a g l)) ∧ k.pred = g.pred ∧
      ∀ p, LastLane a lane → g.split? a.split = some p → p.wait = .access id → GoesOn t a.group a.split a.next := by
  obtain ⟨ha, hid, hl, -, hg⟩ := h.access
  have hperf := performLane_lds (l := l) hk hg
  rw [atPlace_scratch hsp, hl] at hperf
  generalize hw : extend a.ty a.bytes (placeValue s a g l) = w at hperf
  have hframe := fill_frame g a.d lane a.bytes w
  have hg' : (performLane a l s).group? a.group = some (g.fill a.d lane a.bytes w) := by
    rw [hperf]; exact group?_modGroup_same _ hg
  have honly : AccessesOnly (performLane a l s) (finishLds a l s) :=
    (endLane_performed h (by rw [hperf]; rfl) (by rw [Access.raised, hk])).trans (finishLds_accesses ..)
  obtain ⟨k, hk', hgk⟩ := honly.2 a.group _ hg'
  have hkeep : KeepsRegisters (g.fill a.d lane a.bytes w) k := by rw [hgk]; exact ⟨rfl, rfl, rfl, rfl⟩
  have hfaults : k.faults = g.faults := by rw [hgk, hframe]
  obtain ⟨hreceives, huni, hpred⟩ := hkeep.receives (hw.symm.trans (extend_eq hn (placeValue_lt ..))) hpresent hended hn
  have hmem : MemorySame s (performLane a l s) := by rw [hperf]; exact ⟨rfl, rfl, rfl, rfl, rfl⟩
  refine ⟨finishLds a l s, k, ?_, hk', huni, hmem.trans honly.memorySame, hreceives, hpred, fun p hlast hp hwait => ?_⟩
  · rw [loadDataReturn_lds h hk, takePlace_lds l hk hg, if_pos hfull, deliverToLane_free hk' (by rwa [hfaults])]
  · have hended' : (endLane a.id l.lane (performLane a l s)).access? a.id = some (a.laneDone lane) := by
      rw [hl]
      refine access?_endLane ?_ lane
      rw [hperf, hid]
      exact ha
    have hstill : SplitIs (fun q => q.wait = .access a.id) a.group a.split (performLane a l s) :=
      ⟨_, p, hg', by rw [hframe]; exact hp, by rw [hid]; exact hwait⟩
    unfold finishLds
    dsimp only
    rw [hended']
    dsimp only
    rw [if_pos (laneDone_done hlast)]
    exact ((hstill.endLane (fun _ _ hP => hP) a.id l.lane).continueAfter).sweep a.group

end

section
variable {s : State} {a : Access} {l : LaneAcc} {g : Group} (hsp : l.space = .scratch) (hg : s.group? a.group = some g)
include hsp hg

theorem performLane_sts (hk : a.kind = .sts) : performLane a l s =
    (spaceWrite s (s.groupCtx g) g.block .scratch l.addr a.bytes l.data.toNat).linePut g.block (l.addr / 128)
      (s.lineGet g.block (l.addr / 128) ||| 1#8) := by
  unfold performLane
  rw [hg, hk, hsp]
  rfl

theorem performLane_sempty (hk : a.kind = .sempty) : performLane a l s =
    s.linePut g.block (l.addr / 128) (s.lineGet g.block (l.addr / 128) &&& 0xFE#8) := by
  unfold performLane
  rw [hg, hk, hsp]
  rfl

theorem performLane_sfill {tag : Nat} (hk : a.kind = .sfill tag) : performLane a l s = s.lineSet g.block (l.addr / 128) true tag := by
  unfold performLane
  rw [hg, hk, hsp]
  rfl

end

/-- What a store of the bank on a line leaves after a state p with its lane performed: only that line's state, and bytes, differ; its
readers that waited are woken when it has become full. -/
structure BankStored (bi line : Nat) (s p t : State) : Prop where
  mem : t.mem = s.mem
  host : t.hostMem = s.hostMem
  ctxs : t.ctxs = s.ctxs
  blocks : ∀ bj, bj ≠ bi → t.block? bj = s.block? bj
  lines : ∀ m, m ≠ line → t.lineGet bi m = s.lineGet bi m
  full : t.lineFull bi line = p.lineFull bi line
  tag : t.lineTag bi line = p.lineTag bi line
  bytes : ∀ off, t.spadGet bi off = p.spadGet bi off
  registers : s.lineFull bi line = true ∨ p.lineFull bi line = false → RegistersSame s t
  waiters : s.lineFull bi line = false → p.lineFull bi line = true → WaitersEnd s t bi line

section
variable {s : State} {id lane : Nat} {a : Access} {l : LaneAcc} {g : Group} (h : Performing s id lane a l g) (hsp : l.space = .scratch)
include h hsp

theorem fills_performs (hst : a.kind.isStore = true) (hset : ScratchOnly g.block s (performLane a l s))
    (hlines : ∀ m, m ≠ l.addr / 128 → (performLane a l s).lineGet g.block m = s.lineGet g.block m)
    (hwaits : s.lineFull g.block (l.addr / 128) = true ∨ (performLane a l s).lineFull g.block (l.addr / 128) = false ∨ OnlyLdsWaits s) :
    ∃ t, exec (.storePerformed id lane) s = .next t ∧ BankStored g.block (l.addr / 128) s (performLane a l s) t := by
  obtain ⟨t, hexec, ⟨hmem, hhost, -, hblocks, hctxs⟩, hregs, hends⟩ := bankStore_performs h hsp hst hset hwaits
  obtain ⟨-, hbanks, hspad⟩ := banks_of_blocks hblocks g.block
  have honly := hset.only
  exact ⟨t, hexec, {
    mem := hmem.trans (by rw [honly])
    host := hhost.trans (by rw [honly])
    ctxs := hctxs.trans (by rw [honly])
    blocks := fun bj hbj => (banks_of_blocks hblocks bj).1.trans (hset.others bj hbj)
    lines := fun m hm => (hbanks m).1.trans (hlines m hm)
    full := (hbanks _).2.1
    tag := (hbanks _).2.2
    bytes := hspad
    registers := hregs
    waiters := hends }⟩

variable (hbi : (s.block? g.block).isSome = true)
include hbi

/-- STS stores its bytes and fills the line (R361). -/
theorem sts_performs (hk : a.kind = .sts) (hwaits : s.lineFull g.block (l.addr / 128) = true ∨ OnlyLdsWaits s) :
    ∃ t p, exec (.storePerformed id lane) s = .next t ∧ BankStored g.block (l.addr / 128) s p t ∧
      p.lineFull g.block (l.addr / 128) = true ∧ p.lineTag g.block (l.addr / 128) = s.lineTag g.block (l.addr / 128) ∧
      ∀ off, p.spadGet g.block off = if l.addr ≤ off ∧ off < l.addr + a.bytes then
        BitVec.ofNat 8 (l.data.toNat / 2 ^ (8 * (off - l.addr))) else s.spadGet g.block off := by
  obtain ⟨-, -, -, -, hg⟩ := h.access
  obtain ⟨honly, hlines, hbytes⟩ := spaceWrite_scratch hbi (s.groupCtx g) l.addr a.bytes l.data.toNat
  have hperf := performLane_sts hsp hg hk
  have hset := honly.trans (ScratchOnly.linePut _ g.block (l.addr / 128) (s.lineGet g.block (l.addr / 128) ||| 1#8))
  have hget := lineGet_linePut ((honly.present _).trans hbi) (l.addr / 128) (s.lineGet g.block (l.addr / 128) ||| 1#8)
  have hspad := spadGet_linePut (spaceWrite s (s.groupCtx g) g.block .scratch l.addr a.bytes l.data.toNat) g.block (l.addr / 128)
    (s.lineGet g.block (l.addr / 128) ||| 1#8)
  rw [← hperf] at hset hget hspad
  obtain ⟨hfull, htag⟩ := lineByte_full (s.lineGet g.block (l.addr / 128))
  obtain ⟨t, hexec, hstored⟩ := fills_performs h hsp (by rw [hk]; rfl) hset (fun m hm => by rw [hget, if_neg hm, hlines])
    (hwaits.imp_right .inr)
  exact ⟨t, _, hexec, hstored, by rw [State.lineFull, hget, if_pos rfl, hfull], by rw [State.lineTag, hget, if_pos rfl, htag]; rfl,
    fun off => (hspad off).trans (hbytes off)⟩

/-- SEMPTY empties the line (R362). -/
theorem sempty_performs (hk : a.kind = .sempty) :
    ∃ t p, exec (.storePerformed id lane) s = .next t ∧ BankStored g.block (l.addr / 128) s p t ∧
      p.lineFull g.block (l.addr / 128) = false ∧ p.lineTag g.block (l.addr / 128) = s.lineTag g.block (l.addr / 128) ∧
      ∀ off, p.spadGet g.block off = s.spadGet g.block off := by
  obtain ⟨-, -, -, -, hg⟩ := h.access
  have hperf := performLane_sempty hsp hg hk
  have hset := ScratchOnly.linePut s g.block (l.addr / 128) (s.lineGet g.block (l.addr / 128) &&& 0xFE#8)
  have hget := lineGet_linePut hbi (l.addr / 128) (s.lineGet g.block (l.addr / 128) &&& 0xFE#8)
  have hspad := spadGet_linePut s g.block (l.addr / 128) (s.lineGet g.block (l.addr / 128) &&& 0xFE#8)
  rw [← hperf] at hset hget hspad
  obtain ⟨hempty, htag⟩ := lineByte_empty (s.lineGet g.block (l.addr / 128))
  have hnone : (performLane a l s).lineFull g.block (l.addr / 128) = false := by rw [State.lineFull, hget, if_pos rfl, hempty]
  obtain ⟨t, hexec, hstored⟩ := fills_performs h hsp (by rw [hk]; rfl) hset (fun m hm => by rw [hget, if_neg hm]) (.inr (.inl hnone))
  exact ⟨t, _, hexec, hstored, hnone, by rw [State.lineTag, hget, if_pos rfl, htag]; rfl, hspad⟩

/-- SFILL fills the line with a tag (R362). -/
theorem sfill_performs {tag : Nat} (hk : a.kind = .sfill tag) (hwaits : s.lineFull g.block (l.addr / 128) = true ∨ OnlyLdsWaits s) :
    ∃ t p, exec (.storePerformed id lane) s = .next t ∧ BankStored g.block (l.addr / 128) s p t ∧
      p.lineFull g.block (l.addr / 128) = true ∧ p.lineTag g.block (l.addr / 128) = tag % 8 ∧
      ∀ off, p.spadGet g.block off = s.spadGet g.block off := by
  obtain ⟨-, -, -, -, hg⟩ := h.access
  have hperf := performLane_sfill hsp hg hk
  have hset := lineSet_scratch s g.block (l.addr / 128) tag
  have hget := lineGet_linePut hbi (l.addr / 128) (BitVec.ofNat 8 (1 + 2 * tag))
  have hfilled := lineGet_lineSet (line := l.addr / 128) hbi tag
  have hspad := spadGet_lineSet s g.block (l.addr / 128) tag
  rw [← hperf] at hset hfilled hspad
  obtain ⟨t, hexec, hstored⟩ := fills_performs h hsp (by rw [hk]; rfl) hset
    (fun m hm => by rw [hperf]; exact (hget m).trans (if_neg hm)) (hwaits.imp_right .inr)
  exact ⟨t, _, hexec, hstored, hfilled.1, hfilled.2, hspad⟩

end

/-- Settles O36: each access of the bank by what its lane's performance leaves, and a fill by the lanes of LDS that it performs. -/
theorem bankAccessesPerform : Obligations.BankAccessesPerform := by
  refine ⟨atomicValues, ?_⟩
  intro id lane s a l g h hpresent hended hn hsp hbi
  refine ⟨fun hk hfree hfull => ?_, fun hk hfree hempty => lds_waits h hk hfree hempty, fun pd hk => ?_, fun pd hk => ?_,
    fun op hk hsize => ?_, fun hk hwaits => ?_, fun hk => ?_, fun tag hk hwaits => ?_⟩
  · obtain ⟨t, k, hexec, hk', huni, hmem, hreceives, hpred, hgoes⟩ := lds_performs h hsp hk hfree hfull hpresent hended hn
    exact ⟨t, k, hexec, hk', huni, hmem, hreceives, hpred, hgoes⟩
  · exact ldx_performs h hsp hpresent hended hk hn
  · exact sfe_performs h hsp hpresent hended hk
  · obtain ⟨t, k, hexec, hk', hreceives, huni, hpred, hmem, hhost, hlines, hbytes⟩ := atoms_performs h hsp hpresent hended hk hsize hbi
    refine ⟨t, k, hexec, hk', hreceives, huni, hpred, hmem, hhost, hlines, fun off hoff => by rw [hbytes, if_neg (by omega)], ?_⟩
    rw [← natLE_bytesLE, bytesLE]
    refine congrArg natLE (List.map_congr_left fun j hj => ?_)
    rw [hbytes, if_pos ⟨by omega, by simpa using hj⟩, Nat.add_sub_cancel_left]
    rfl
  · obtain ⟨t, p, hexec, hstored, hfull, htag, hbytes⟩ := sts_performs h hsp hbi hk hwaits
    exact ⟨t, hexec, hstored.mem, hstored.host, hstored.ctxs, hstored.blocks, hstored.lines, fun hc => hstored.registers (.inl hc),
      hstored.full.trans hfull, hstored.tag.trans htag, fun hempty => hstored.waiters hempty hfull,
      fun off => (hstored.bytes off).trans (hbytes off)⟩
  · obtain ⟨t, p, hexec, hstored, hempty, htag, hbytes⟩ := sempty_performs h hsp hbi hk
    exact ⟨t, hexec, hstored.mem, hstored.host, hstored.ctxs, hstored.blocks, hstored.lines, fun _ => hstored.registers (.inr hempty),
      hstored.full.trans hempty, hstored.tag.trans htag, hstored.registers (.inr hempty), fun off => (hstored.bytes off).trans (hbytes off)⟩
  · obtain ⟨t, p, hexec, hstored, hfull, htag, hbytes⟩ := sfill_performs h hsp hbi hk hwaits
    exact ⟨t, hexec, hstored.mem, hstored.host, hstored.ctxs, hstored.blocks, hstored.lines, fun hc => hstored.registers (.inl hc),
      hstored.full.trans hfull, hstored.tag.trans htag, fun hempty => hstored.waiters hempty hfull,
      fun off => (hstored.bytes off).trans (hbytes off)⟩

end Sys2Proof.Machine
end

section
namespace Sys2Proof.Machine

open Sys2Proof

/-! ## Helper lanes of a load (R23) -/

/-- In some lanes n bytes of registers from d on are zero and a predicate is false; all else of a group is as before. -/
structure ZeroIn (lanes : Nat → Bool) (d n : Nat) (pd : Option Nat) (g h : Group) : Prop where
  frame : h = { g with vec := h.vec, pred := h.pred }
  vec : ∀ r M, h.vget r M = if lanes M = true ∧ d ≤ r ∧ r < d + (n + 3) / 4 then 0 else g.vget r M
  pred : ∀ q M, (h.pget q).getLsbD M =
    if some q = pd ∧ q ≠ 15 ∧ lanes M = true ∧ g.present.getLsbD M = true then false else (g.pget q).getLsbD M

section
variable {A B : Nat → Bool} {d n : Nat} {pd : Option Nat} {g h k : Group}

theorem ZeroIn.none (d n : Nat) (pd : Option Nat) (g : Group) : ZeroIn (fun _ => false) d n pd g g :=
  ⟨rfl, fun _ _ => (if_neg fun hc => Bool.false_ne_true hc.1).symm, fun _ _ => (if_neg fun hc => Bool.false_ne_true hc.2.2.1).symm⟩

theorem ZeroIn.present (h1 : ZeroIn A d n pd g h) : h.present = g.present := by rw [h1.frame]
theorem ZeroIn.ended (h1 : ZeroIn A d n pd g h) : h.ended = g.ended := by rw [h1.frame]

theorem ZeroIn.trans (h1 : ZeroIn A d n pd g h) (h2 : ZeroIn B d n pd h k) : ZeroIn (fun M => A M || B M) d n pd g k := by
  refine ⟨h2.frame.trans (congrArg (fun z : Group => { z with vec := k.vec, pred := k.pred }) h1.frame), fun r M => ?_, fun q M => ?_⟩
  · rw [h2.vec, h1.vec]
    by_cases hr : d ≤ r ∧ r < d + (n + 3) / 4
    · simp only [hr, and_true, Bool.or_eq_true]
      cases A M <;> cases B M <;> rfl
    · simp only [hr, and_false, if_false]
  · rw [h2.pred, h1.pred, h1.present]
    cases A M <;> cases B M <;> simp

end

/-- Loads write zero in the registers of a helper lane. -/
theorem zeroIn_fill {g : Group} {L d n : Nat} (hended : g.ended.getLsbD L = false) (hregs : regsOf n = (n + 3) / 4) :
    ZeroIn (fun M => M == L) d n none g (g.fill d L n 0) := by
  obtain ⟨hframe, hget⟩ := foldl_vset_rows d (fun k _ => (0 : BitVec 128).extractLsb' (32 * k) 32) [L] g (regsOf n)
  have hfill : g.fill d L n 0 =
      (List.range (regsOf n)).foldl (fun g e => [L].foldl (fun g M => g.vset (d + e) M ((0 : BitVec 128).extractLsb' (32 * e) 32)) g) g := by
    rw [Group.fill, hended]; rfl
  have hzero (k : Nat) : (0 : BitVec 128).extractLsb' (32 * k) 32 = 0 := by simp
  rw [hfill]
  refine ⟨by rw [hframe], fun r M => (hget r M).trans ?_, fun q M => ?_⟩
  · rw [hzero, hregs]
    by_cases hpresent : g.present.getLsbD M = true
    · exact if_congr (by simp [hpresent, and_comm]) rfl rfl
    · rw [show g.vget r M = 0 from if_neg hpresent, ite_self, ite_self]
  · rw [hframe]
    exact (if_neg fun hc => by cases hc.1).symm

/-- A predicate written false in a helper lane. -/
theorem zeroIn_pset (g : Group) {L : Nat} (hL : L < 16) (d : Nat) (pd : Nat) :
    ZeroIn (fun M => M == L) d 0 (some pd) g (g.pset pd (laneBit L) 0) := by
  refine ⟨by rw [pset_frame], fun r M => ?_, fun q M => ?_⟩
  · rw [pset_frame, if_neg (by omega)]
    rfl
  · rw [pget_pset]
    by_cases hq : q = pd ∧ pd ≠ 15
    · obtain ⟨rfl, h15⟩ := hq
      rw [if_pos (c := q = q ∧ q ≠ 15) ⟨rfl, h15⟩]
      simp only [BitVec.getLsbD_or, BitVec.getLsbD_and, BitVec.getLsbD_not, laneBit_own hL]
      by_cases hM : M = L
      · subst hM
        cases hp : g.present.getLsbD M <;> simp [hL, h15]
      · by_cases h16 : M < 16
        · simp [hM, h16]
        · simp [hM, h16, BitVec.getLsbD_of_ge (g.pget q) M (by omega)]
    · rw [if_neg hq, if_neg]
      rintro ⟨hc, h15, -⟩
      cases hc
      exact hq ⟨rfl, h15⟩

/-- LDX's zero of a helper lane: registers and predicate. -/
theorem zeroIn_both {g : Group} {L d n pd : Nat} (hL : L < 16) (hended : g.ended.getLsbD L = false) (hregs : regsOf n = (n + 3) / 4) :
    ZeroIn (fun M => M == L) d n (some pd) g ((g.fill d L n 0).pset pd (laneBit L) 0) := by
  have hfill := zeroIn_fill (d := d) hended hregs
  have hpset := zeroIn_pset (g.fill d L n 0) hL d pd
  refine ⟨hpset.frame.trans (congrArg (fun z : Group => { z with
    vec := ((g.fill d L n 0).pset pd (laneBit L) 0).vec, pred := ((g.fill d L n 0).pset pd (laneBit L) 0).pred }) hfill.frame),
    fun r M => ?_, fun q M => ?_⟩
  · rw [hpset.vec, if_neg (by omega), hfill.vec]
  · rw [hpset.pred, hfill.pred, hfill.present, if_neg (c := some q = none ∧ _) fun hc => by cases hc.1]

/-- The same in every lane of a list. -/
theorem zeroIn_foldl {z : Nat → Group → Group} {d n : Nat} {pd : Option Nat}
    (hz : ∀ g L, L < 16 → g.ended.getLsbD L = false → ZeroIn (fun M => M == L) d n pd g (z L g)) :
    ∀ (ls : List Nat) (g : Group), (∀ L ∈ ls, L < 16 ∧ g.ended.getLsbD L = false) →
      ZeroIn (fun M => decide (M ∈ ls)) d n pd g (ls.foldl (fun g L => z L g) g)
  | [], g, _ => by
    simpa using ZeroIn.none d n pd g
  | L :: ls, g, h => by
    obtain ⟨hL, hended⟩ := h L List.mem_cons_self
    have hfirst := hz g L hL hended
    have hrest := zeroIn_foldl hz ls (z L g) fun M hM => by
      obtain ⟨h16, he⟩ := h M (List.mem_cons_of_mem L hM)
      exact ⟨h16, by rw [hfirst.ended]; exact he⟩
    have hlanes : (fun M => decide (M ∈ L :: ls)) = fun M => (M == L) || decide (M ∈ ls) := by
      funext M
      rw [Bool.eq_iff_iff]
      simp
    rw [List.foldl_cons, hlanes]
    exact hfirst.trans hrest

/-- A group whose helper lanes of an issue have what a load leaves there. -/
def helpersZeroed (g : Group) (e : LaneMask) (zero : Nat → Group → Group) : Group :=
  (lanesOf (e &&& g.helpers)).foldl (fun g L => zero L g) g

/-- The claim about helper lanes, of any group that has the registers of one with them zeroed. -/
theorem helpersZero_of {g h : Group} {p : Split} {x : Ext} {z : Nat → Group → Group} {n : Nat} {pd : Option Nat}
    (hz : ∀ g L, L < 16 → g.ended.getLsbD L = false → ZeroIn (fun M => M == L) x.d.toNat n pd g (z L g))
    (hlive : guardLanes g p x.guard &&& g.ended = 0) (hvec : h.vec = (helpersZeroed g (guardLanes g p x.guard) z).vec)
    (hpred : h.pred = (helpersZeroed g (guardLanes g p x.guard) z).pred) (huni : h.uni = g.uni) (hpresent : h.present = g.present) :
    HelpersZero g h p x n pd := by
  have hall := zeroIn_foldl hz (lanesOf (guardLanes g p x.guard &&& g.helpers)) g fun L hL => by
    have hbit := mem_lanesOf.mp hL
    rw [BitVec.getLsbD_and, Bool.and_eq_true] at hbit
    have hboth : (guardLanes g p x.guard &&& g.ended).getLsbD L = false := by rw [hlive]; exact BitVec.getLsbD_zero
    rw [BitVec.getLsbD_and, hbit.1, Bool.true_and] at hboth
    exact ⟨lane_lt hbit.1, hboth⟩
  have hlanes : (fun M => decide (M ∈ lanesOf (guardLanes g p x.guard &&& g.helpers))) =
      (guardLanes g p x.guard &&& g.helpers).getLsbD := by
    funext M
    rw [Bool.eq_iff_iff, decide_eq_true_iff, mem_lanesOf]
  rw [hlanes] at hall
  refine ⟨huni, fun r L => ?_, fun q L => ?_⟩
  · have hget := hall.vec r L
    rw [← hget, Group.vget, Group.vget, hvec, hpresent, ← hall.present]
    rfl
  · have hget := hall.pred q L
    rw [← hget, Group.pget, Group.pget, hpred]
    rfl

/-- Of a group with its helper lanes zeroed only vector registers and predicates differ. -/
theorem helpersZeroed_frame {g : Group} {e : LaneMask} {z : Nat → Group → Group}
    (hz : ∀ g L, z L g = { g with vec := (z L g).vec, pred := (z L g).pred }) :
    helpersZeroed g e z = { g with vec := (helpersZeroed g e z).vec, pred := (helpersZeroed g e z).pred } :=
  foldl_keeps (fun h : Group => h = { g with vec := h.vec, pred := h.pred }) (fun g L => z L g) (fun h L hh =>
    (hz h L).trans (congrArg (fun y : Group => { y with vec := (z L h).vec, pred := (z L h).pred }) hh)) _ g rfl

end Sys2Proof.Machine
end

section
namespace Sys2Proof.Machine

open Sys2Proof

/-! ## Accesses of every lane (O30) -/

/-- The state in which the helper lanes of the issuing group are zeroed. -/
def helpersIn (s : State) (g : Group) (p : Split) (gd : Guard) (z : Nat → Group → Group) : State :=
  s.modGroup s.curG (fun h => (lanesOf (guardLanes g p gd &&& g.helpers)).foldl (fun g L => z L g) h)

theorem zeroHelpers_eq (s : State) (g : Group) (p : Split) (i : Instr) (gd : Guard) (z : Nat → Group → Group) :
    zeroHelpers (issueOf s g p i gd) z s = helpersIn s g p gd z := rfl

theorem helpersIn_group {s : State} {g : Group} (hg : s.group? s.curG = some g) (p : Split) (gd : Guard) (z : Nat → Group → Group) :
    (helpersIn s g p gd z).group? s.curG = some (helpersZeroed g (guardLanes g p gd) z) := group?_modGroup_same _ hg

theorem helpersIn_other {s : State} {j : Nat} (hj : j ≠ s.curG) (g : Group) (p : Split) (gd : Guard) (z : Nat → Group → Group) :
    (helpersIn s g p gd z).group? j = s.group? j := group?_modGroup_other _ hj

/-- No lane of a mask has a finding that none of them has. -/
theorem lanesWith_none {m : LaneMask} {c : Nat → LaneCheck} {q : LaneCheck → Bool} (h : ∀ L ∈ lanesOf m, q (c L) = false) :
    lanesWith m c q = 0 :=
  maskOf_false fun L _ => by
    cases hm : m.getLsbD L
    · rfl
    · rw [h L (mem_lanesOf.mpr hm)]; rfl

/-- That state with one access more. -/
def joinedState (s : State) (g : Group) (p : Split) (i : Instr) (gd : Guard) (op : MemOp) (run : LaneMask) : State :=
  { helpersIn s g p gd op.zero with
    nextId := s.nextId + 1, acc := s.acc ++ [issuedAccess (issueOf s g p i gd) op run (helpersIn s g p gd op.zero)] }

/-- What the issue then does to its group: the counter rises, the registers are held and the split moves on or waits. -/
def groupIssued (s : State) (p : Split) (i : Instr) (op : MemOp) (h : Group) : Group :=
  ((h.addCtr op.ctr true).modSplit s.curS (fun q => { q with holds := q.holds ++ op.holds.map (fun h => { h with op := s.nextId }) })).modSplit
    s.curS (fun q => if op.blocks then { q with wait := .access s.nextId, age := 0, reserved := false } else q.goto (behind p i))

section
variable {s : State} {g : Group} {p : Split} {i : Instr} {gd : Guard} {op : MemOp}

/-- Where every lane reaches a place the access of all of them is made (R132). -/
theorem issueAccess_reaches (hreach : AllReach (formOf op (lanesOf (realLanes g p gd)))) :
    issueAccess (issueOf s g p i gd) op s = afterIssue (issueOf s g p i gd) op
      (enterAccess (issueOf s g p i gd) op (realLanes g p gd) 0 (zeroHelpers (issueOf s g p i gd) op.zero s)) := by
  obtain ⟨hne, hok⟩ := hreach
  have hreal : realLanes g p gd ≠ 0 := fun h0 => hne ((lanesOf_eq_nil_iff _).mpr h0)
  have hnone (q : LaneCheck → Bool) (hq : ∀ sp pa, q (.ok sp pa) = false) :
      lanesWith (issueOf s g p i gd).real (fun L => op.check (op.addr L)) q = 0 := lanesWith_none fun L hL => by
    obtain ⟨sp, pa, hcheck⟩ := hok L hL
    rw [show op.check (op.addr L) = .ok sp pa from hcheck, hq]
  have hrun : realLanes g p gd &&& ~~~((0 : LaneMask) ||| 0) = realLanes g p gd := by
    rw [show ~~~((0 : LaneMask) ||| 0) = BitVec.allOnes 16 from rfl, BitVec.and_allOnes]
  unfold issueAccess
  dsimp only
  rw [hnone (fun r => r == .mal) fun _ _ => rfl, hnone (fun r => r == .prot) fun _ _ => rfl, hnone (fun r => r == .width) fun _ _ => rfl,
    hnone (fun r => r == .pf) fun _ _ => rfl, hnone (fun r => r == .replay) fun _ _ => rfl,
    show (issueOf s g p i gd).real = realLanes g p gd from rfl, if_neg hreal, if_neg fun hc => hc rfl, if_neg fun hc => hc rfl,
    if_neg fun hc => hc rfl, if_neg fun hc => hc rfl, if_neg fun hc => hc rfl, hrun]

/-- The state after an issue of a new access. -/
theorem issued_eq (hnone : NoneParked s p) (run : LaneMask) :
    afterIssue (issueOf s g p i gd) op (enterAccess (issueOf s g p i gd) op run 0 (zeroHelpers (issueOf s g p i gd) op.zero s)) =
      (joinedState s g p i gd op run).modGroup s.curG (groupIssued s p i op) := by
  rw [zeroHelpers_eq, enterAccess_new (s := helpersIn s g p gd op.zero) (k := issueOf s g p i gd) op run hnone,
    afterIssue_eq (as := s.acc) (a := issuedAccess (issueOf s g p i gd) op run (helpersIn s g p gd op.zero)) rfl (by simp [issuedAccess])]
  simp only [State.modSplit, modGroup_modGroup]
  rfl

/-- An access of lanes that all reach a place joins the outstanding ones, with the helper lanes of its group zeroed before (R23, R184). -/
theorem zeroed_joins {regs : Group → Prop} {run : LaneMask} (h : s.issuer? = some (g, p)) (hnone : NoneParked s p)
    (hok : ∀ L ∈ lanesOf run, ∃ sp pa, op.check (op.addr L) = .ok sp pa) (hc : op.ctr ≠ .c) (ht : op.ctr ≠ .t)
    (hz : ∀ g L, op.zero L g = { g with vec := (op.zero L g).vec, pred := (op.zero L g).pred })
    (hregs : ∀ h : Group, h.vec = (helpersZeroed g (guardLanes g p gd) op.zero).vec →
      h.pred = (helpersZeroed g (guardLanes g p gd) op.zero).pred → h.uni = g.uni → h.present = g.present → regs h) :
    AccessJoins s (afterIssue (issueOf s g p i gd) op (enterAccess (issueOf s g p i gd) op run 0
      (zeroHelpers (issueOf s g p i gd) op.zero s))) g p i (formOf op (lanesOf run)) regs := by
  obtain ⟨hg, -, hidx⟩ := issuer?_eq h
  have hframe := helpersZeroed_frame (g := g) (e := guardLanes g p gd) hz
  have huni : (helpersZeroed g (guardLanes g p gd) op.zero).uni = g.uni := by rw [hframe]
  have hpresent : (helpersZeroed g (guardLanes g p gd) op.zero).present = g.present := by rw [hframe]
  have hzeroed : (joinedState s g p i gd op run).group? s.curG = some (helpersZeroed g (guardLanes g p gd) op.zero) :=
    helpersIn_group hg p gd op.zero
  rw [issued_eq hnone]
  refine ⟨rfl, fun j hj => ?_, ⟨issuedAccess (issueOf s g p i gd) op run (helpersIn s g p gd op.zero), rfl, rfl, rfl, rfl, rfl, rfl, rfl,
    rfl, rfl, rfl, rfl, ?_, fun l hl => ?_⟩, _, group?_modGroup_same _ hzeroed, ?_, ?_, ?_⟩
  · exact (group?_modGroup_other _ hj).trans (helpersIn_other hj ..)
  · have hlane (L : Nat) : (laneEntry op L).lane = L := by unfold laneEntry; split <;> rfl
    simp [issuedAccess, formOf, Function.comp_def, hlane]
  · obtain ⟨L, hL, rfl⟩ := List.mem_map.mp hl
    obtain ⟨sp, pa, hcheck⟩ := hok L hL
    simp [laneEntry, hcheck, formOf]
  · rw [groupIssued, addCtr_frame _ hc ht]
    exact hregs _ rfl rfl huni hpresent
  · rw [groupIssued, addCtr_frame _ hc ht, hframe]; rfl
  · rw [groupIssued, addCtr_frame _ hc ht, hframe]
    simp only [Group.modSplit, List.map_map, ← hidx, formOf]
    refine List.map_congr_left fun q _ => ?_
    by_cases hq : q.idx = p.idx
    · simp [hq, behind]
    · simp [hq]

/-- With no lane of E that is no helper, its helper lanes are zeroed and the split goes on. -/
theorem zeroed_advances {regs : Group → Prop} (h : s.issuer? = some (g, p))
    (hz : ∀ g L, op.zero L g = { g with vec := (op.zero L g).vec, pred := (op.zero L g).pred })
    (hregs : ∀ h : Group, h.vec = (helpersZeroed g (guardLanes g p gd) op.zero).vec →
      h.pred = (helpersZeroed g (guardLanes g p gd) op.zero).pred → h.uni = g.uni → h.present = g.present → regs h) :
    ∃ h, OnlyGroup s (advance (issueOf s g p i gd) (helpersIn s g p gd op.zero)) s.curG ∧
      (advance (issueOf s g p i gd) (helpersIn s g p gd op.zero)).group? s.curG = some h ∧ Continues g h p (behind p i) ∧ regs h ∧
      h = { g with vec := h.vec, pred := h.pred, splits := h.splits } := by
  obtain ⟨hg, -, hidx⟩ := issuer?_eq h
  have hframe := helpersZeroed_frame (g := g) (e := guardLanes g p gd) hz
  refine ⟨_, ?_, group?_modGroup_same _ (helpersIn_group hg p gd op.zero), ?_, ?_, ?_⟩
  · rw [helpersIn, show s.curG = (issueOf s g p i gd).gi from rfl, advance_modGroup]
    exact onlyGroup_modGroup ..
  · rw [hframe]
    simp only [Continues, Group.modSplit, issueOf, ← hidx]
    rfl
  · refine hregs _ rfl rfl ?_ ?_
    · rw [hframe]; rfl
    · rw [hframe]; rfl
  · rw [hframe]; rfl

end

end Sys2Proof.Machine
end

section
namespace Sys2Proof.Machine

open Sys2Proof

/-- What the instructions of lane accesses do, of any instruction and form: the claim of O30 for one of them. -/
def LanesIssue (s : State) (g : Group) (p : Split) (gd : Guard) (i : Instr) (f : AccessForm) (regs : Group → Prop) : Prop :=
  guardLanes g p gd &&& g.ended = 0 →
    (Executes s g p i → realLanes g p gd = 0 → ∃ t h, exec i s = .next t ∧ OnlyGroup s t s.curG ∧
      t.group? s.curG = some h ∧ Continues g h p (behind p i) ∧ regs h ∧
      h = { g with vec := h.vec, pred := h.pred, splits := h.splits }) ∧
    (Executes s g p i → NoneParked s p → AllReach f →
      (f.check = checkScratch s g f.bytes → ∀ k ∈ g.faults, ∀ L ∈ f.lanes, (f.addr L).toNat / 128 ∉ k.lines) →
      (∀ k ∈ g.faults, ∀ L ∈ f.lanes, ∀ pa, f.check (f.addr L) = .ok .window pa → k.covers s s.curG g pa = false) →
      ∃ t, exec i s = .next t ∧ AccessJoins s t g p i f regs)

/-- The registers that an instruction's helper lanes leave. -/
structure HelpersLeave (g : Group) (p : Split) (gd : Guard) (op : MemOp) (regs : Group → Prop) : Prop where
  frame : ∀ g L, op.zero L g = { g with vec := (op.zero L g).vec, pred := (op.zero L g).pred }
  regs : guardLanes g p gd &&& g.ended = 0 → ∀ h : Group, h.vec = (helpersZeroed g (guardLanes g p gd) op.zero).vec →
    h.pred = (helpersZeroed g (guardLanes g p gd) op.zero).pred → h.uni = g.uni → h.present = g.present → regs h

section
variable {s : State} {g : Group} {p : Split} {gd : Guard} {i : Instr} {op : MemOp} {regs : Group → Prop} {test : PendingFault → Bool}

/-- An instruction that issues an access of its lanes behind a test of the pending faults. -/
theorem lanesIssue_of (hrun : Executes s g p i →
      exec i s = .next (deliverOr (issueOf s g p i gd) test (issueAccess (issueOf s g p i gd) op) s))
    (hc : op.ctr ≠ .c) (ht : op.ctr ≠ .t) (hleave : HelpersLeave g p gd op regs) {f : AccessForm}
    (hf : f = formOf op (lanesOf (realLanes g p gd)))
    (hnone : realLanes g p gd = 0 → ∀ k ∈ g.faults, test k = false)
    (hfree : (f.check = checkScratch s g f.bytes → ∀ k ∈ g.faults, ∀ L ∈ f.lanes, (f.addr L).toNat / 128 ∉ k.lines) →
      (∀ k ∈ g.faults, ∀ L ∈ f.lanes, ∀ pa, f.check (f.addr L) = .ok .window pa → k.covers s s.curG g pa = false) →
      ∀ k ∈ g.faults, test k = false) : LanesIssue s g p gd i f regs := by
  subst hf
  refine fun hlive => ⟨fun h hreal => ?_, fun h hparked hreach hlines hwindow => ?_⟩
  · obtain ⟨k, honly, hk, hgoes, hregs, hframe⟩ := zeroed_advances (i := i) h.1 hleave.frame (hleave.regs hlive)
    refine ⟨_, k, (hrun h).trans (congrArg _ ((deliverOr_free (hnone hreal)).trans (if_pos hreal))), honly, hk, hgoes, hregs, hframe⟩
  · refine ⟨_, (hrun h).trans (congrArg _ ((deliverOr_free (hfree hlines hwindow)).trans (issueAccess_reaches hreach))), ?_⟩
    exact zeroed_joins h.1 hparked hreach.2 hc ht hleave.frame (hleave.regs hlive)

/-- An access to a virtual address (R187). -/
theorem virtual_issues (hrun : Executes s g p i → exec i s = .next (issueVirtual (issueOf s g p i gd) op s))
    (hc : op.ctr ≠ .c) (ht : op.ctr ≠ .t) (hleave : HelpersLeave g p gd op regs) {f : AccessForm}
    (hf : f = formOf op (lanesOf (realLanes g p gd))) : LanesIssue s g p gd i f regs := by
  refine lanesIssue_of hrun hc ht hleave hf (fun hreal k _ => ?_) fun _ hwindow k hk => ?_
  · exact usesUnfinished_free fun L hL => by
      rw [show (issueOf s g p i gd).real = 0 from hreal] at hL
      cases hL
  · exact usesUnfinished_free fun L hL pa hpa => by
      subst hf
      exact hwindow k hk L hL pa hpa

/-- An access to the scratchpad (R187). -/
theorem scratch_issues (hrun : Executes s g p i → exec i s = .next (issueScratch (issueOf s g p i gd) op s))
    (hc : op.ctr ≠ .c) (ht : op.ctr ≠ .t) (hleave : HelpersLeave g p gd op regs) {f : AccessForm}
    (hf : f = formOf op (lanesOf (realLanes g p gd))) (hcheck : op.check = checkScratch s g op.bytes) : LanesIssue s g p gd i f regs := by
  refine lanesIssue_of hrun hc ht hleave hf (fun hreal k _ => ?_) fun hlines _ k hk => ?_
  · rw [show (issueOf s g p i gd).real = 0 from hreal]
    rfl
  · subst hf
    refine List.any_eq_false.mpr fun L hL hc => ?_
    rw [List.contains_iff_mem] at hc
    exact hlines hcheck k hk L hL hc

end

/-! ### The registers that helper lanes leave, and a store's data -/

theorem helpersLeave_store {g : Group} {p : Split} {gd : Guard} {op : MemOp} (h : op.zero = fun _ g => g) :
    HelpersLeave g p gd op (fun h => h.vec = g.vec ∧ h.pred = g.pred) := by
  refine ⟨fun g L => by rw [h], fun _ k hvec hpred _ _ => ?_⟩
  have hsame : helpersZeroed g (guardLanes g p gd) op.zero = g := by
    rw [h]
    exact foldl_keeps (fun k => k = g) (fun k _ => k) (fun _ _ h => h) _ g rfl
  rw [hsame] at hvec hpred
  exact ⟨hvec, hpred⟩

theorem helpersLeave_load {g : Group} {p : Split} {x : Ext} {op : MemOp} {n : Nat} {pd : Option Nat}
    (hframe : ∀ g L, op.zero L g = { g with vec := (op.zero L g).vec, pred := (op.zero L g).pred })
    (h : ∀ g L, L < 16 → g.ended.getLsbD L = false → ZeroIn (fun M => M == L) x.d.toNat n pd g (op.zero L g)) :
    HelpersLeave g p x.guard op (fun h => HelpersZero g h p x n pd) :=
  ⟨hframe, fun hlive _ hvec hpred huni hpresent => helpersZero_of h hlive hvec hpred huni hpresent⟩

/-- The registers of a type, and of a power of two of bytes. -/
theorem regsOf_type (t : Ty) : regsOf (4 * t.regs) = (4 * t.regs + 3) / 4 := by
  unfold Ty.regs
  split <;> rfl

/-- Words laid one behind the other are a sum of their shares. -/
theorem foldr_words (r : Nat → Word) : ∀ (n a : Nat),
    ((List.range' a n).map (fun j => 2 ^ (32 * j) * (r j).toNat)).sum =
      2 ^ (32 * a) * (List.range' a n).foldr (fun j acc => (r j).toNat + 2 ^ 32 * acc) 0
  | 0, a => by simp
  | n + 1, a => by
    rw [List.range'_succ, List.map_cons, List.sum_cons, foldr_words r n (a + 1), List.foldr_cons,
      show 32 * (a + 1) = 32 * a + 32 by omega, Nat.pow_add (2 : Nat), Nat.mul_assoc]
    exact (Nat.mul_add ..).symm

/-- The low n bytes of D as the sum of its words (R131, R365). -/
def storedLow (g : Group) (x : Ext) (n L : Nat) : BitVec 128 :=
  BitVec.ofNat 128 (((List.range ((n + 3) / 4)).map (fun j =>
    2 ^ (32 * j) * ((if x.dU then g.uget (x.d.toNat + j) else g.vget (x.d.toNat + j) L)).toNat)).sum % 2 ^ (8 * n))

theorem storeData_eq {k : Issue} {x : Ext} {n : Nat} (hn : regsOf n = (n + 3) / 4) (L : Nat) :
    storeData k x n L = storedLow k.g x n L := by
  rw [storedLow, List.range_eq_range', foldr_words (fun j => if x.dU then k.g.uget (x.d.toNat + j) else k.g.vget (x.d.toNat + j) L), ← hn,
    ← List.range_eq_range', Nat.mul_zero, Nat.pow_zero, Nat.one_mul]
  rfl

section
variable (s : State) (g : Group) (p : Split) (i : Instr) (x : Ext) (kd : AccKind) {n : Nat} (scratch : Bool) (hn : regsOf n = (n + 3) / 4)
include hn

/-- The destination registers of a load, held. -/
theorem loadForm_eq : laneForm s g p x kd n .l scratch (fun _ => 0) (fun _ => 0)
      [{ op := 0, file := if x.dU then 1 else 0, first := x.d.toNat, count := (n + 3) / 4 }] =
    formOf (loadOp s (issueOf s g p i x.guard) x kd n scratch) (lanesOf (realLanes g p x.guard)) := by
  rw [← hn]; rfl

/-- The data of a store. -/
theorem storeForm_eq (hkd : (kd == .lds) = false) : laneForm s g p x kd n .s scratch (storedLow g x n) (fun _ => 0) [] =
    formOf (storeOp s (issueOf s g p i x.guard) x kd n scratch) (lanesOf (realLanes g p x.guard)) := by
  have hdata : storedLow g x n = storeData (issueOf s g p i x.guard) x n :=
    funext fun L => (storeData_eq (k := issueOf s g p i x.guard) hn L).symm
  rw [hdata, laneForm, hkd]
  rfl

/-- The operand of an atomic operation, and its replacement. -/
theorem atomForm_eq : laneForm s g p x kd n .l scratch (storedLow g x n)
      (fun L => g.rget false x.ty.wide (x.d.toNat + x.ty.regs) L)
      [{ op := 0, file := if x.dU then 1 else 0, first := x.d.toNat, count := (n + 3) / 4 }] =
    formOf { loadOp s (issueOf s g p i x.guard) x kd n scratch with
      data := storeData (issueOf s g p i x.guard) x n,
      data2 := fun L => g.rget false x.ty.wide (x.d.toNat + x.ty.regs) L } (lanesOf (realLanes g p x.guard)) := by
  have hdata : storedLow g x n = storeData (issueOf s g p i x.guard) x n :=
    funext fun L => (storeData_eq (k := issueOf s g p i x.guard) hn L).symm
  rw [hdata, ← hn]
  rfl

end

/-- LDX's part of an access, which holds its predicate too. -/
def ldxOp (s : State) (k : Issue) (x : Ext) : MemOp :=
  let op := loadOp s k x (.ldx (Fields.varHi x)) (4 * x.ty.regs) true
  { op with holds := op.holds ++ [holdRegs 2 (Fields.varHi x) 1],
            zero := fun L g => (g.fill x.d.toNat L (4 * x.ty.regs) 0).pset (Fields.varHi x) (laneBit L) 0 }

/-- SFE's part of an access. -/
def sfeOp (s : State) (k : Issue) (x : Ext) : MemOp :=
  { loadOp s k x (.sfe (x.d.toNat % 16)) 1 true with
    ctr := .uncounted, holds := [holdRegs 2 (x.d.toNat % 16) 1], zero := fun L g => g.pset (x.d.toNat % 16) (laneBit L) 0 }

/-- What LDX and SFE zero of a helper lane changes vector registers and predicates alone. -/
theorem fill_pset_frame (g : Group) (d L n pd : Nat) : (g.fill d L n 0).pset pd (laneBit L) 0 =
    { g with vec := ((g.fill d L n 0).pset pd (laneBit L) 0).vec, pred := ((g.fill d L n 0).pset pd (laneBit L) 0).pred } := by
  have hpset := pset_frame (g.fill d L n 0) pd (laneBit L) 0
  have hvec : ((g.fill d L n 0).pset pd (laneBit L) 0).vec = (g.fill d L n 0).vec := by rw [hpset]
  rw [hvec]
  exact hpset.trans (congrArg (fun z : Group => { z with pred := ((g.fill d L n 0).pset pd (laneBit L) 0).pred }) (fill_frame g d L n 0))

theorem zeroPred_frame (g : Group) (pd L : Nat) : g.pset pd (laneBit L) 0 =
    { g with vec := (g.pset pd (laneBit L) 0).vec, pred := (g.pset pd (laneBit L) 0).pred } := by
  rw [show (g.pset pd (laneBit L) 0).vec = g.vec by rw [pset_frame]]
  exact pset_frame ..

/-- LDX holds its destination and its predicate. -/
theorem ldxForm_eq (s : State) (g : Group) (p : Split) (x : Ext) : laneForm s g p x (.ldx (Fields.varHi x)) (4 * x.ty.regs) .l true
      (fun _ => 0) (fun _ => 0) ([{ op := 0, file := if x.dU then 1 else 0, first := x.d.toNat, count := (4 * x.ty.regs + 3) / 4 }] ++
        [{ op := 0, file := 2, first := Fields.varHi x, count := 1 }]) =
    formOf (ldxOp s (issueOf s g p (.ldx x) x.guard) x) (lanesOf (realLanes g p x.guard)) := by
  rw [← regsOf_type]; rfl

theorem exec_ldx_op (x : Ext) (s : State) :
    exec (.ldx x) s = runInstr (.ldx x) x.guard (fun k s => issueScratch k (ldxOp s k x) s) s := rfl

theorem exec_sfe_op (x : Ext) (s : State) :
    exec (.sfe x) s = runInstr (.sfe x) x.guard (fun k s => issueScratch k (sfeOp s k x) s) s := rfl

/-- Settles O30: every instruction by the shared lemma of an issue of its lanes. -/
theorem laneAccessesIssue : Obligations.LaneAccessesIssue := by
  intro x s g p
  have hn : regsOf (2 ^ Fields.sz x) = (2 ^ Fields.sz x + 3) / 4 := regsOf_two_pow _
  have hw : regsOf (4 * x.ty.regs) = (4 * x.ty.regs + 3) / 4 := regsOf_type _
  have fillFrame (n : Nat) (g : Group) (L : Nat) : g.fill x.d.toNat L n 0 =
      { g with vec := (g.fill x.d.toNat L n 0).vec, pred := (g.fill x.d.toNat L n 0).pred } := by rw [fill_frame]
  refine ⟨?_, ?_, ?_, ?_, ?_, ?_, ?_, ?_, ?_, ?_⟩
  · exact virtual_issues (op := loadOp s (issueOf s g p (.ld x) x.guard) x .ld (szBytes x) false)
      (fun h => (exec_ld x s).trans (runInstr_executes _ _ h)) nofun nofun
      (helpersLeave_load (fillFrame _) fun g L _ he => zeroIn_fill he hn) (loadForm_eq s g p (.ld x) x .ld false hn)
  · exact virtual_issues (op := storeOp s (issueOf s g p (.st x) x.guard) x .st (szBytes x) false)
      (fun h => (exec_st x s).trans (runInstr_executes _ _ h)) nofun nofun
      (helpersLeave_store rfl) (storeForm_eq s g p (.st x) x .st false hn rfl)
  · exact scratch_issues (op := loadOp s (issueOf s g p (.lds x) x.guard) x .lds (szBytes x) true)
      (fun h => (exec_lds x s).trans (runInstr_executes _ _ h)) nofun nofun
      (helpersLeave_load (fillFrame _) fun g L _ he => zeroIn_fill he hn) (loadForm_eq s g p (.lds x) x .lds true hn) rfl
  · exact scratch_issues (op := storeOp s (issueOf s g p (.sts x) x.guard) x .sts (szBytes x) true)
      (fun h => (exec_sts x s).trans (runInstr_executes _ _ h)) nofun nofun
      (helpersLeave_store rfl) (storeForm_eq s g p (.sts x) x .sts true hn rfl) rfl
  · exact scratch_issues (op := ldxOp s (issueOf s g p (.ldx x) x.guard) x)
      (fun h => (exec_ldx_op x s).trans (runInstr_executes _ _ h)) nofun nofun
      (helpersLeave_load (fun g L => fill_pset_frame g x.d.toNat L _ _) fun g L hL he => zeroIn_both hL he hw) (ldxForm_eq s g p x) rfl
  · exact virtual_issues (op := atomicOp s (issueOf s g p (.atom x) x.guard) x (.atom (Fields.varHi x)) false)
      (fun h => (exec_atom x s).trans (runInstr_executes _ _ h)) nofun nofun
      (helpersLeave_load (fillFrame _) fun g L _ he => zeroIn_fill he hw) (atomForm_eq s g p (.atom x) x (.atom (Fields.varHi x)) false hw)
  · exact scratch_issues (op := atomicOp s (issueOf s g p (.atoms x) x.guard) x (.atoms (Fields.varHi x)) true)
      (fun h => (exec_atoms x s).trans (runInstr_executes _ _ h)) nofun nofun
      (helpersLeave_load (fillFrame _) fun g L _ he => zeroIn_fill he hw) (atomForm_eq s g p (.atoms x) x (.atoms (Fields.varHi x)) true hw) rfl
  · exact scratch_issues (op := storeOp s (issueOf s g p (.sempty x) x.guard) x .sempty 1 true)
      (fun h => (exec_sempty x s).trans (runInstr_executes _ _ h)) nofun nofun
      (helpersLeave_store rfl) (storeForm_eq s g p (.sempty x) x .sempty true (n := 1) rfl rfl) rfl
  · exact scratch_issues (op := storeOp s (issueOf s g p (.sfill x) x.guard) x (.sfill (Fields.sz x)) 1 true)
      (fun h => (exec_sfill x s).trans (runInstr_executes _ _ h)) nofun nofun
      (helpersLeave_store rfl) (storeForm_eq s g p (.sfill x) x (.sfill (Fields.sz x)) true (n := 1) rfl rfl) rfl
  · exact scratch_issues (op := sfeOp s (issueOf s g p (.sfe x) x.guard) x)
      (fun h => (exec_sfe_op x s).trans (runInstr_executes _ _ h)) nofun nofun
      (helpersLeave_load (fun g L => zeroPred_frame g _ L) fun g L hL _ => zeroIn_pset g hL _ _) rfl rfl

end Sys2Proof.Machine
end

section
namespace Sys2Proof.Machine

open Sys2Proof

/-! ## HEND (O29) -/

/-- The split waits, the fault stops the handler, or the lanes end (R191, R318). -/
def handlerBody (s : State) (g : Group) (h : HandlerId) (e : LaneMask) : State :=
  if g.cntL != 0 || g.cntS != 0 || g.cntC != 0 then
    s.modSplit s.curG s.curS (fun p => { p with wait := .retire, age := 0, reserved := false })
  else
    match g.faults.head? with
    | some f => stopHandler h s.curG f.cause f.aux s
    | none =>
      let u := s.modGroup s.curG (fun g => g.endLanes e)
      if ((u.group? s.curG).map (fun g => g.splits == [])).getD false then endHandler s.curG h u else u

theorem handlerBody_counted {g : Group} (hcount : g.cntL = 0 ∧ g.cntS = 0 ∧ g.cntC = 0) (s : State)
    (h : HandlerId) (e : LaneMask) : handlerBody s g h e = match g.faults.head? with
    | some f => stopHandler h s.curG f.cause f.aux s
    | none =>
      if ((s.modGroup s.curG (fun g => g.endLanes e)).group? s.curG |>.map (fun g => g.splits == [])).getD false then
        endHandler s.curG h (s.modGroup s.curG (fun g => g.endLanes e))
      else s.modGroup s.curG (fun g => g.endLanes e) := by
  obtain ⟨hl, hs, hc⟩ := hcount
  exact if_neg (by simp [hl, hs, hc])

/-- The lanes of an instruction under the guard pT with no lane unfinished are its split's. -/
theorem guardLanes_always (g : Group) {p : Split} (hpend : p.pend = 0) : guardLanes g p ⟨false, 15⟩ = p.mask := by
  unfold guardLanes
  rw [if_neg (by simp [hpend])]
  exact BitVec.and_allOnes

/-- A request one of whose bursts has ended. -/
def EngineOp.burstEnded (seq : Nat) (o : EngineOp) : EngineOp :=
  { o with bursts := o.bursts.map (fun b => if b.seq = seq then { b with ended := true } else b) }

/-- A handler has ended: its group retires, its flags are the issuing group's, and its burst has ended (R190). -/
def handlerLeft (gi : Nat) (h : HandlerId) (fl : FlagBits) (s : State) : State :=
  ((s.modGroup gi Group.retire).modGroup h.issuer (fun g => { g with flags := g.flags ||| fl })).modEngine h.op (EngineOp.burstEnded h.seq)

theorem engine?_modEngine (s : State) {id : Nat} {f : EngineOp → EngineOp} (hf : ∀ o, (f o).id = o.id) :
    (s.modEngine id f).engine? id = (s.engine? id).map f := by
  have hp : (fun o : EngineOp => o.id == id) ∘ (fun o => if o.id = id then f o else o) = fun o => o.id == id := by
    funext o
    by_cases h : o.id = id <;> simp [h, hf]
  rw [State.engine?, State.modEngine, List.find?_map, hp, State.engine?]
  cases h : s.engines.find? (fun o => o.id == id) with
  | none => rfl
  | some o => simp [show o.id = id by simpa using List.find?_some h]

section
variable {s : State} {gi : Nat} {g : Group} {h : HandlerId} (hg : s.group? gi = some g)
include hg

theorem endHandler_eq : endHandler gi h s = match (handlerLeft gi h g.mergeAll.flags s).engine? h.op with
    | none => handlerLeft gi h g.mergeAll.flags s
    | some o => match o.kind with
      | .ldh line tag _ =>
        if o.readAll && o.handled (handlerLeft gi h g.mergeAll.flags s) && o.fault.isNone then
          writeEvent o line tag (handlerLeft gi h g.mergeAll.flags s)
        else handlerLeft gi h g.mergeAll.flags s
      | _ => handlerLeft gi h g.mergeAll.flags s := by
  unfold endHandler
  rw [hg]
  rfl

/-- A request of which not every burst has ended stands. -/
theorem endHandler_stands (hop : ∀ o, s.engine? h.op = some o → ∃ b ∈ o.bursts, b.seq ≠ h.seq ∧ b.ended = false) :
    endHandler gi h s = handlerLeft gi h g.mergeAll.flags s := by
  have hleft : (handlerLeft gi h g.mergeAll.flags s).engine? h.op = (s.engine? h.op).map (EngineOp.burstEnded h.seq) :=
    engine?_modEngine _ fun _ => rfl
  rw [endHandler_eq hg, hleft]
  cases ho : s.engine? h.op with
  | none => rfl
  | some o =>
    obtain ⟨b, hb, hseq, hended⟩ := hop o ho
    have hhandled : (o.burstEnded h.seq).handled (handlerLeft gi h g.mergeAll.flags s) = false := by
      have hall : (o.burstEnded h.seq).bursts.all (fun b => b.born && b.ended) = false := by
        refine List.all_eq_false.mpr ⟨b, ?_, by simp [hended]⟩
        exact List.mem_map.mpr ⟨b, hb, if_neg hseq⟩
      rw [EngineOp.handled, hall]
      rfl
    simp only [Option.map_some, hhandled, Bool.and_false, Bool.false_and]
    split <;> rfl

end

section
variable {s : State} {g : Group} {p : Split} {h : HandlerId} (hx : Executes s g p .hend)
include hx

/-- Outside a handler. -/
theorem hend_outside (hnone : g.handler = none) : exec .hend s = .next (trapped s g p .hend .hnd 0 (guardLanes g p ⟨false, 15⟩)) := by
  refine ((exec_hend s).trans (runInstr_executes _ _ hx)).trans (congrArg _ ?_)
  dsimp only [issueOf]
  rw [hnone]
  rfl

variable (hh : g.handler = some h)
include hh

theorem hend_inside : exec .hend s = .next (handlerBody s g h (guardLanes g p ⟨false, 15⟩)) := by
  refine ((exec_hend s).trans (runInstr_executes _ _ hx)).trans (congrArg _ ?_)
  dsimp only [issueOf]
  rw [hh]
  rfl

/-- A counter that is not zero makes it wait. -/
theorem hend_waits (hcount : ¬(g.cntL = 0 ∧ g.cntS = 0 ∧ g.cntC = 0)) : ∃ t, exec .hend s = .next t ∧
    SplitBecomes s t g p (fun q => { q with wait := .retire, age := 0, reserved := false }) := by
  refine ⟨_, (hend_inside hx hh).trans (congrArg _ (if_pos ?_)), splitBecomes_of hx.1 _⟩
  simp only [Bool.or_eq_true, bne_iff_ne]
  tauto

variable (hcount : g.cntL = 0 ∧ g.cntS = 0 ∧ g.cntC = 0)
include hcount

/-- The oldest fault met in the wait stops the handler (R190). -/
theorem hend_faults {f : PendingFault} {rest : List PendingFault} (hf : g.faults = f :: rest) :
    exec .hend s = .next (takeTrap s.curG s.curS f.cause f.aux 0 0 s) := by
  obtain ⟨hg, -, -⟩ := issuer?_eq hx.1
  rw [hend_inside hx hh, handlerBody_counted hcount, hf]
  refine congrArg _ ?_
  unfold takeTrap
  rw [hg]
  dsimp only
  rw [hh]
  rfl

variable (hf : g.faults = []) (hpend : p.pend = 0)
include hf hpend

/-- With no counter and no fault its lanes end, and with them perhaps the handler. -/
theorem hend_endsLanes : exec .hend s = .next (if (g.endLanes p.mask).splits == [] then
    endHandler s.curG h (s.modGroup s.curG (fun g => g.endLanes p.mask)) else s.modGroup s.curG (fun g => g.endLanes p.mask)) := by
  obtain ⟨hg, -, -⟩ := issuer?_eq hx.1
  rw [hend_inside hx hh, handlerBody_counted hcount, hf, guardLanes_always g hpend]
  dsimp only [List.head?]
  rw [group?_modGroup_same _ hg]
  rfl

/-- A split of several ends its lanes alone. -/
theorem hend_several (hmore : ∃ q ∈ g.splits, q.mask &&& ~~~p.mask ≠ 0) : ∃ t y, exec .hend s = .next t ∧
    OnlyGroup s t s.curG ∧ t.group? s.curG = some y ∧ y = { g with ended := y.ended, splits := y.splits, rets := y.rets } ∧
    y.ended = g.ended ||| p.mask ∧
    y.splits = (g.splits.map (fun q => { q with mask := q.mask &&& ~~~p.mask })).filter (fun q => q.mask != 0) := by
  obtain ⟨hg, -, -⟩ := issuer?_eq hx.1
  obtain ⟨q, hq, hmask⟩ := hmore
  have hleft : ((g.endLanes p.mask).splits == []) = false := by
    rw [beq_eq_false_iff_ne]
    refine List.ne_nil_of_mem (a := { q with mask := q.mask &&& ~~~p.mask }) (List.mem_filter.mpr ⟨List.mem_map_of_mem hq, ?_⟩)
    simpa using hmask
  refine ⟨s.modGroup s.curG (fun g => g.endLanes p.mask), g.endLanes p.mask, ?_, onlyGroup_modGroup .., group?_modGroup_same _ hg, rfl,
    rfl, rfl⟩
  rw [hend_endsLanes hx hh hcount hf hpend, hleft]
  rfl

variable (hlast : g.splits = [p])
include hlast

/-- The last split ends the handler. -/
theorem hend_last : exec .hend s = .next (endHandler s.curG h (s.modGroup s.curG (fun g => g.endLanes p.mask))) := by
  have hnone : (g.endLanes p.mask).splits = [] := by
    have hmask : p.mask &&& ~~~p.mask = 0 := BitVec.and_not_self p.mask
    simp only [Group.endLanes, hlast, List.map_cons, List.map_nil, hmask, List.filter_cons, List.filter_nil]
    rfl
  rw [hend_endsLanes hx hh hcount hf hpend, hnone]
  rfl

end

end Sys2Proof.Machine
end

section
namespace Sys2Proof.Machine

open Sys2Proof

/-! ## The event line after the last handler (R128, R192) -/

/-- An update that the end of a wait at a line makes to an operation: its name, its reservations and its event line stay. -/
structure KeepsEvent (f : EngineOp → EngineOp) : Prop where
  id : ∀ q, (f q).id = q.id
  sresv : ∀ q, (f q).sresv = q.sresv
  writes : ∀ q, (f q).swritesDone = q.swritesDone

theorem engineReadLine_keeps (s : State) (bi line : Nat) (o : EngineOp) : (engineReadLine s bi line o).id = o.id ∧
    (engineReadLine s bi line o).sresv = o.sresv ∧ (engineReadLine s bi line o).swritesDone = o.swritesDone :=
  foldl_keeps (fun q : EngineOp => q.id = o.id ∧ q.sresv = o.sresv ∧ q.swritesDone = o.swritesDone) (fun o v => engineReadSector s bi v o)
    (fun _ _ h => h) _ o ⟨rfl, rfl, rfl⟩

/-- What an operation that waits at a line does when it becomes full. -/
def EngineOp.lineFilled (s : State) (bi line : Nat) (o : EngineOp) : EngineOp :=
  if o.block = bi ∧ o.emptySince.any (fun e => e.1 == line) then
    (if s.lineTag bi line = o.swz then engineReadLine s bi line o
     else { o with fault := o.fault.orElse (fun _ => some (.swz, BitVec.ofNat 64 (128 * line))) })
  else o

theorem lineFilled_keeps (s : State) (bi line : Nat) : KeepsEvent (EngineOp.lineFilled s bi line) := by
  have hall (o : EngineOp) : (o.lineFilled s bi line).id = o.id ∧ (o.lineFilled s bi line).sresv = o.sresv ∧
      (o.lineFilled s bi line).swritesDone = o.swritesDone := by
    unfold EngineOp.lineFilled
    split
    · split
      · exact engineReadLine_keeps ..
      · exact ⟨rfl, rfl, rfl⟩
    · exact ⟨rfl, rfl, rfl⟩
  exact ⟨fun o => (hall o).1, fun o => (hall o).2.1, fun o => (hall o).2.2⟩

/-- With no lane at an empty line, a line that becomes full wakes reads of engines and matrix entries alone. -/
theorem wakeIfFilled_engines {s : State} (hlanes : ∀ a ∈ s.acc, ∀ l ∈ a.lanes, l.stage ≠ .waitingEmpty) (before : State) (bi line : Nat) :
    ∃ f m, KeepsEvent f ∧ wakeIfFilled before bi line s = { s with engines := s.engines.map f, matq := m } := by
  have hnone : emptyWaiters s bi line = [] := List.eq_nil_iff_forall_not_mem.mpr fun ⟨w, m⟩ hw => by
    obtain ⟨hacc, -, hm, hwaits, -⟩ := mem_emptyWaiters.mp hw
    exact hlanes w hacc m hm hwaits
  unfold wakeIfFilled
  split
  · refine ⟨EngineOp.lineFilled s bi line, (fillWake bi line s).matq, lineFilled_keeps s bi line, ?_⟩
    unfold fillWake
    rw [hnone]
    rfl
  · exact ⟨id, s.matq, ⟨fun _ => rfl, fun _ => rfl, fun _ => rfl⟩, by rw [List.map_id]⟩

theorem engine?_map {s : State} {f : EngineOp → EngineOp} (hf : ∀ q, (f q).id = q.id) (m : List MatEntry) (id : Nat) :
    ({ s with engines := s.engines.map f, matq := m } : State).engine? id = (s.engine? id).map f := by
  have hp : (fun o : EngineOp => o.id == id) ∘ f = fun o => o.id == id := by funext o; simp [hf]
  rw [State.engine?, List.find?_map, hp]
  rfl

/-- What the write of an event line leaves when no lane waits at an empty line. -/
structure EventLine (o : EngineOp) (line : Nat) (tag : Word) (s t : State) : Prop where
  engine : ∃ q, t.engine? o.id = some q ∧ q.sresv = [] ∧ q.swritesDone = [line]
  mem : t.mem = s.mem
  full : t.lineFull o.block line = true
  tagged : t.lineTag o.block line = o.swz % 8
  bytes : ∀ j, j < 128 → t.spadGet o.block (128 * line + j) = (eventBytes o tag).getD j 0

theorem writeEvent_line {s : State} {o : EngineOp} (line : Nat) (tag : Word) (hbi : (s.block? o.block).isSome = true)
    (ho : s.engine? o.id = some o) (hlanes : ∀ a ∈ s.acc, ∀ l ∈ a.lanes, l.stage ≠ .waitingEmpty) :
    EventLine o line tag s (writeEvent o line tag s) := by
  obtain ⟨honly, -, hfull, htag, hbytes⟩ := eventSet_written (s := s) (o := o) line tag hbi
  rw [writeEvent_eq]
  generalize eventSet o line tag s = w at honly hfull htag hbytes ⊢
  have hmem : w.mem = s.mem := by rw [honly]
  have hacc : w.acc = s.acc := by rw [honly]
  have hengines : w.engines = (s.modEngine o.id (EngineOp.summed line)).engines := by rw [honly]
  clear honly
  have hop : w.engine? o.id = some (o.summed line) := by
    rw [State.engine?, hengines]
    exact engine?_modEngine_same (f := EngineOp.summed line) (fun _ => rfl) ho
  obtain ⟨f, m, hf, hwake⟩ := wakeIfFilled_engines (s := w) (by rw [hacc]; exact hlanes) s o.block line
  have hblocks : (wakeIfFilled s o.block line w).blocks = w.blocks := by rw [hwake]
  obtain ⟨-, hbanks, hspad⟩ := banks_of_blocks hblocks o.block
  exact {
    engine := ⟨f (o.summed line), by rw [hwake, engine?_map hf.id, hop, Option.map_some], hf.sresv _, hf.writes _⟩
    mem := by rw [hwake]; exact hmem
    full := (hbanks line).2.1.trans hfull
    tagged := (hbanks line).2.2.trans htag
    bytes := fun j hj => by rw [hspad, hbytes, if_pos ⟨by omega, by omega⟩, Nat.add_sub_cancel_left] }

/-- The four bytes of a field of that line. -/
theorem EventLine.field {o : EngineOp} {line : Nat} {tag : Word} {s t : State} (h : EventLine o line tag s t) {off : Nat} (hoff : off + 4 ≤ 128) :
    natLE ((List.range 4).map (fun j => t.spadGet o.block (128 * line + off + j))) = eventField o tag off := by
  refine congrArg natLE (List.map_congr_left fun j hj => ?_)
  rw [List.mem_range] at hj
  rw [Nat.add_assoc, h.bytes _ (by omega)]

/-! ### The last handler of a request -/

theorem handlerLeft_only (gi : Nat) (h : HandlerId) (fl : FlagBits) (s : State) : handlerLeft gi h fl s =
    { s with groups := (handlerLeft gi h fl s).groups, engines := (handlerLeft gi h fl s).engines } := rfl

theorem handlerLeft_group (gi : Nat) (h : HandlerId) (fl : FlagBits) (s : State) (j : Nat) : (handlerLeft gi h fl s).group? j =
    ((s.modGroup gi Group.retire).modGroup h.issuer (fun g => { g with flags := g.flags ||| fl })).group? j := rfl

/-- A group that is no handler's handles no request. -/
theorem handles_none {s : State} {gi : Nat} (h : ∀ x, s.group? gi = some x → x.handler = none) (op : Nat) : handles s op gi = false := by
  unfold handles
  cases hx : s.group? gi with
  | none => rfl
  | some x => rw [Option.any_some, h x hx]; rfl

/-- The request of a handler whose end is the last thing that it waits for. -/
structure LastHandler (s : State) (h : HandlerId) (o : EngineOp) : Prop where
  op : s.engine? h.op = some o
  only : ∀ q ∈ s.engines, q.id = h.op → q = o
  issuer : o.group = h.issuer
  plain : ∀ x, s.group? h.issuer = some x → x.handler = none
  bursts : ∀ c ∈ o.bursts, c.born = true ∧ (c.seq = h.seq ∨ c.ended = true)
  accesses : ∀ a ∈ s.acc, a.done = true
  orbits : s.orbitOps = []
  engines : ∀ q ∈ s.engines, q.id ≠ h.op → q.finished = true

theorem LastHandler.handled {s : State} {h : HandlerId} {o : EngineOp} (hl : LastHandler s h o) {gi : Nat} (hne : h.issuer ≠ gi)
    (fl : FlagBits) : (o.burstEnded h.seq).handled (handlerLeft gi h fl s) = true := by
  have hplain : ∀ x, (handlerLeft gi h fl s).group? h.issuer = some x → x.handler = none := by
    intro x hx
    rw [handlerLeft_group, group?_modGroup, if_pos rfl, group?_modGroup_other _ hne] at hx
    obtain ⟨y, hy, rfl⟩ := Option.map_eq_some_iff.mp hx
    exact hl.plain y hy
  have hbursts : (o.burstEnded h.seq).bursts.all (fun b => b.born && b.ended) = true := by
    refine List.all_eq_true.mpr fun b hb => ?_
    obtain ⟨c, hc, rfl⟩ := List.mem_map.mp hb
    obtain ⟨hborn, hend⟩ := hl.bursts c hc
    split
    · rw [hborn]; rfl
    · rw [hborn, hend.resolve_left ‹_›]; rfl
  have hengines : (handlerLeft gi h fl s).engines.all (fun p =>
      p.finished || !handles (handlerLeft gi h fl s) (o.burstEnded h.seq).id p.group) = true := by
    refine List.all_eq_true.mpr fun p hp => ?_
    obtain ⟨q, hq, rfl⟩ := List.mem_map.mp hp
    by_cases hid : q.id = h.op
    · obtain rfl := hl.only q hq hid
      rw [if_pos hid, show (EngineOp.burstEnded h.seq q).group = h.issuer from hl.issuer, handles_none hplain]
      exact Bool.or_true _
    · rw [if_neg hid, hl.engines q hq hid]
      rfl
  have hacc : (handlerLeft gi h fl s).acc.all (fun a => a.done || !handles (handlerLeft gi h fl s) (o.burstEnded h.seq).id a.group) = true :=
    List.all_eq_true.mpr fun a ha => by rw [hl.accesses a ha]; rfl
  have horbit : (handlerLeft gi h fl s).orbitOps = [] := hl.orbits
  rw [EngineOp.handled, hbursts, hacc, hengines, horbit]
  rfl

/-- Its end writes the event line. -/
theorem endHandler_writes {s : State} {gi : Nat} {g : Group} {h : HandlerId} {o : EngineOp} {line : Nat} {tag : Word} {entry : DWord}
    (hg : s.group? gi = some g) (hl : LastHandler s h o) (hne : h.issuer ≠ gi) (hk : o.kind = .ldh line tag entry) (hfault : o.fault = none)
    (hread : o.readAll = true) (hbi : (s.block? o.block).isSome = true) :
    EventLine (o.burstEnded h.seq) line tag s (endHandler gi h s) := by
  have hleft : (handlerLeft gi h g.mergeAll.flags s).engine? h.op = some (o.burstEnded h.seq) :=
    (engine?_modEngine _ (f := EngineOp.burstEnded h.seq) fun _ => rfl).trans (congrArg (Option.map (EngineOp.burstEnded h.seq)) hl.op)
  have hid : o.id = h.op := by simpa using List.find?_some hl.op
  have hgo : ((o.burstEnded h.seq).readAll && (o.burstEnded h.seq).handled (handlerLeft gi h g.mergeAll.flags s) &&
      (o.burstEnded h.seq).fault.isNone) = true := by
    rw [hl.handled hne, show (o.burstEnded h.seq).readAll = true from hread, show (o.burstEnded h.seq).fault = none from hfault]
    rfl
  have hrun : endHandler gi h s = writeEvent (o.burstEnded h.seq) line tag (handlerLeft gi h g.mergeAll.flags s) := by
    rw [endHandler_eq hg, hleft]
    dsimp only
    rw [show (o.burstEnded h.seq).kind = .ldh line tag entry from hk]
    exact if_pos hgo
  rw [hrun]
  obtain ⟨hengine, hmem, hfull, htag, hbytes⟩ := writeEvent_line (s := handlerLeft gi h g.mergeAll.flags s) (o := o.burstEnded h.seq) line tag hbi
    (by rw [show (o.burstEnded h.seq).id = h.op from hid]; exact hleft) fun a ha l hla hw => by
      have hdone := List.all_eq_true.mp (hl.accesses a ha) l hla
      rw [hw] at hdone
      cases hdone
  exact ⟨hengine, hmem, hfull, htag, hbytes⟩

/-- The fields of an event line without a fault (R192). -/
theorem eventFields_sound {o : EngineOp} (tag : Word) (hsound : ∀ c ∈ o.bursts, c.fault = none) (hlen : o.bursts.length < 2 ^ 32) :
    eventField o tag 0 = o.bursts.length ∧ eventField o tag 4 = (o.bursts.map (fun c => c.valid)).sum % 2 ^ 32 ∧
      eventField o tag 16 = 0 ∧ eventField o tag 20 = tag.toNat := by
  obtain ⟨h0, h4, -, -, h16, h20⟩ := eventField_eq o tag
  refine ⟨h0.trans (Nat.mod_eq_of_lt hlen), h4, h16.trans ?_, h20⟩
  rw [List.countP_eq_zero.mpr fun c hc => by simp [hsound c hc]]
  rfl

section
variable {s : State} {g : Group} {p : Split} {h : HandlerId} (hx : Executes s g p .hend) (hh : g.handler = some h)
  (hcount : g.cntL = 0 ∧ g.cntS = 0 ∧ g.cntC = 0) (hf : g.faults = []) (hpend : p.pend = 0) (hlast : g.splits = [p]) (hne : h.issuer ≠ s.curG)
include hx hh hcount hf hpend hlast hne

/-- The last HEND of a request's last handler. -/
theorem hend_writes {o : EngineOp} {line : Nat} {tag : Word} {entry : DWord} (hl : LastHandler s h o) (hk : o.kind = .ldh line tag entry)
    (hfault : o.fault = none) (hread : o.readAll = true) (hbi : (s.block? o.block).isSome = true) :
    ∃ t, exec .hend s = .next t ∧ EventLine (o.burstEnded h.seq) line tag s t := by
  obtain ⟨hg, -, -⟩ := issuer?_eq hx.1
  have hl' : LastHandler (s.modGroup s.curG (fun g => g.endLanes p.mask)) h o := { hl with
    plain := fun x hx => hl.plain x (by rwa [group?_modGroup_other _ hne] at hx) }
  obtain ⟨hengine, hmem, hfull, htag, hbytes⟩ := endHandler_writes (group?_modGroup_same _ hg) hl' hne hk hfault hread hbi
  exact ⟨_, hend_last hx hh hcount hf hpend hlast, hengine, hmem, hfull, htag, hbytes⟩

/-- The last HEND of another handler: its flags, its burst and its end. -/
theorem hend_leaves {x : Group} (hxg : s.group? h.issuer = some x)
    (hop : ∀ o, s.engine? h.op = some o → ∃ b ∈ o.bursts, b.seq ≠ h.seq ∧ b.ended = false) :
    ∃ t y, exec .hend s = .next t ∧ t.group? s.curG = some y ∧ y.retired = true ∧ y.splits = [] ∧
      t.group? h.issuer = some { x with flags := x.flags ||| g.inflight.foldl (fun f m => f ||| m.bits) g.flags } ∧
      (∀ j, j ≠ s.curG → j ≠ h.issuer → t.group? j = s.group? j) ∧
      t.engine? h.op = (s.engine? h.op).map (EngineOp.burstEnded h.seq) ∧ t = { s with groups := t.groups, engines := t.engines } := by
  obtain ⟨hg, -, -⟩ := issuer?_eq hx.1
  have hends := hend_last hx hh hcount hf hpend hlast
  have hgu : (s.modGroup s.curG (fun g => g.endLanes p.mask)).group? s.curG = some (g.endLanes p.mask) := group?_modGroup_same _ hg
  rw [endHandler_stands hgu hop] at hends
  refine ⟨_, (g.endLanes p.mask).retire, hends, ?_, rfl, rfl, ?_, fun j hj hji => ?_,
    engine?_modEngine _ (f := EngineOp.burstEnded h.seq) fun _ => rfl, handlerLeft_only ..⟩
  · rw [handlerLeft_group, group?_modGroup_other _ (Ne.symm hne)]
    exact group?_modGroup_same _ hgu
  · rw [handlerLeft_group]
    exact group?_modGroup_same _ ((group?_modGroup_other _ hne).trans ((group?_modGroup_other _ hne).trans hxg))
  · rw [handlerLeft_group, group?_modGroup_other _ hji, group?_modGroup_other _ hj, group?_modGroup_other _ hj]

end

/-- Settles O29: each case of HEND's text; the event line by the summary that the request's last handler writes. -/
theorem hendEndsHandler : Obligations.HendEndsHandler := by
  intro s g p hx
  refine ⟨hend_outside hx, fun h hh => ?_, fun h x hh hl hs hc hf hlast hpend hne hxg hop => ?_⟩
  · refine ⟨hend_waits hx hh, fun f rest hzero hf => hend_faults hx hh hzero hf,
      fun hzero hf hpend hmore => hend_several hx hh hzero hf hpend hmore, ?_⟩
    intro o line tag entry b hzero hf hlast hpend hne hop honly hissuer hplain hk hfault hread hbi hbursts hsound _ _ hlen hacc horbit hengines
    obtain ⟨t, hexec, hline⟩ := hend_writes hx hh hzero hf hpend hlast hne
      ⟨hop, honly, hissuer, hplain, hbursts, hacc, horbit, hengines⟩ hk hfault hread hbi
    obtain ⟨q, hq, hsresv, hwrites⟩ := hline.engine
    have hid : o.id = h.op := by simpa using List.find?_some hop
    have hlength : (o.burstEnded h.seq).bursts.length = o.bursts.length := List.length_map _
    have hvalid : (o.burstEnded h.seq).bursts.map (fun c => c.valid) = o.bursts.map (fun c => c.valid) := by
      rw [EngineOp.burstEnded, List.map_map]
      exact List.map_congr_left fun c _ => by rw [Function.comp_apply]; split <;> rfl
    have hsound' : ∀ c ∈ (o.burstEnded h.seq).bursts, c.fault = none := fun c hc => by
      obtain ⟨d, hd, rfl⟩ := List.mem_map.mp hc
      split <;> exact hsound d hd
    obtain ⟨h8, h12⟩ := eventField_sound (tag := tag) hsound'
    obtain ⟨h0, h4, h16, h20⟩ := eventFields_sound tag hsound' (by rw [hlength]; exact hlen)
    rw [hlength] at h0
    rw [hvalid] at h4
    have hfield {off : Nat} (hoff : off + 4 ≤ 128) := hline.field hoff
    refine ⟨t, q, hexec, hid ▸ hq, hsresv, hwrites, hline.full, hline.tagged, hline.mem, (hfield (by omega)).trans h0,
      (hfield (by omega)).trans h4, (hfield (by omega)).trans h8, (hfield (by omega)).trans h12, (hfield (by omega)).trans h16,
      (hfield (by omega)).trans h20, fun j hj hlt => ?_⟩
    exact (hline.bytes j hlt).trans (eventBytes_rest _ tag hj)
  · exact hend_leaves hx hh ⟨hl, hs, hc⟩ hf hpend hlast hne hxg hop

end Sys2Proof.Machine
end
